-- ==== Sys2Proof/Word.lean ====
section
/-! DEFINITION. The machine's words: 8, 32 and 64 bits, little-endian throughout (R1). -/

namespace Sys2Proof

/-- One byte of memory. -/
abbrev Byte := BitVec 8

/-- The 32-bit value of one register (R50). -/
abbrev Word := BitVec 32

/-- A 64-bit value: an aligned register pair, an address, a program counter (R1). -/
abbrev DWord := BitVec 64

/-- A 32-lane mask, one bit a lane of a gang (R139). -/
abbrev Mask := BitVec 32

end Sys2Proof
end

