-- ==== Sys2Proof/Machine/Crypto.lean ====
section
/-! DEFINITION. The functions that R21 and R23 name: SHA3-256 and the two SHAKE functions (FIPS 202), and the keys, signatures and
verification of ML-DSA-44 (FIPS 204). -/

namespace Sys2Proof.Crypto

-- Keccak (FIPS 202)

/-- The 64 bits of a lane turned left. -/
def rotl (a n : Nat) : Nat := (a * 2 ^ n + a / 2 ^ (64 - n)) % 2 ^ 64

/-- The round constants. -/
def roundConstants : List Nat :=
  [0x0000000000000001, 0x0000000000008082, 0x800000000000808A, 0x8000000080008000, 0x000000000000808B, 0x0000000080000001,
    0x8000000080008081, 0x8000000000008009, 0x000000000000008A, 0x0000000000000088, 0x0000000080008009, 0x000000008000000A,
    0x000000008000808B, 0x800000000000008B, 0x8000000000008089, 0x8000000000008003, 0x8000000000008002, 0x8000000000000080,
    0x000000000000800A, 0x800000008000000A, 0x8000000080008081, 0x8000000000008080, 0x0000000080000001, 0x8000000080008008]

/-- How far the lane (x, y), at x + 5 y, is turned. -/
def turns : List Nat := [0, 1, 62, 28, 27, 36, 44, 6, 55, 20, 3, 10, 43, 25, 39, 41, 45, 15, 21, 8, 18, 2, 61, 56, 14]

/-- One round on 25 lanes, lane (x, y) at x + 5 y. -/
def keccakRound (a : List Nat) (rc : Nat) : List Nat :=
  let at_ := fun (l : List Nat) (x y : Nat) => l.getD (x % 5 + 5 * (y % 5)) 0
  let c := (List.range 5).map fun x => (List.range 5).foldl (fun v y => v ^^^ at_ a x y) 0
  let d := (List.range 5).map fun x => c.getD ((x + 4) % 5) 0 ^^^ rotl (c.getD ((x + 1) % 5) 0) 1
  let t := (List.range 25).map fun i => rotl (a.getD i 0 ^^^ d.getD (i % 5) 0) (turns.getD i 0)
  let b := (List.range 25).map fun i =>
    let x := i % 5
    let y := i / 5
    at_ t (x + 3 * y) x
  let e := (List.range 25).map fun i =>
    let x := i % 5
    let y := i / 5
    at_ b x y ^^^ ((2 ^ 64 - 1 - at_ b (x + 1) y) &&& at_ b (x + 2) y)
  match e with
  | v :: vs => (v ^^^ rc) :: vs
  | [] => []

/-- The permutation of 24 rounds. -/
def keccak (a : List Nat) : List Nat := roundConstants.foldl keccakRound a

/-- Eight bytes as a lane. -/
def laneOf (bs : List Byte) : Nat := bs.foldr (fun b v => b.toNat + 256 * v) 0

/-- The bytes of a lane. -/
def laneBytes (v : Nat) : List Byte := (List.range 8).map fun i => BitVec.ofNat 8 (v / 2 ^ (8 * i))

/-- A block of `rate` bytes taken in. -/
def takeIn (rate : Nat) (a : List Nat) (block : List Byte) : List Nat :=
  keccak (a.mapIdx fun i v => if i < rate / 8 then v ^^^ laneOf ((block.drop (8 * i)).take 8) else v)

/-- The blocks of a message. -/
def blocks (rate : Nat) : Nat → List Byte → List (List Byte)
  | 0, _ => []
  | n + 1, bs => bs.take rate :: blocks rate n (bs.drop rate)

/-- The sponge after a message, which ends in the bits of the function and the padding. -/
def sponge (rate : Nat) (suffix : Byte) (m : List Byte) : List Nat :=
  let n := m.length / rate + 1
  let last := m.length % rate
  let pad : List Byte :=
    if last + 1 = rate then [suffix ||| 0x80] else suffix :: (List.replicate (rate - last - 2) 0 ++ [0x80])
  (blocks rate n (m ++ pad)).foldl (takeIn rate) (List.replicate 25 0)

/-- The next block of output. -/
def output (rate : Nat) (a : List Nat) : List Byte := ((a.map laneBytes).flatten).take rate

/-- `n` blocks of output. -/
def squeeze (rate : Nat) : Nat → List Nat → List Byte
  | 0, _ => []
  | n + 1, a => output rate a ++ squeeze rate n (keccak a)

/-- SHA3-256. -/
def sha3 (m : List Byte) : List Byte := (output 136 (sponge 136 0x06 m)).take 32

/-- `n` bytes of SHAKE256. -/
def shake256 (m : List Byte) (n : Nat) : List Byte := (squeeze 136 (n / 136 + 1) (sponge 136 0x1F m)).take n

-- Polynomials over the integers modulo q, 256 coefficients (FIPS 204, 2.3 and 7.5)

def q : Nat := 8380417

/-- A polynomial, its coefficients below q. -/
abbrev Poly := List Nat

/-- An integer modulo q. -/
def modQ (v : Int) : Nat := (v % q).toNat

/-- A coefficient as the integer nearest to 0. -/
def centred (v : Nat) : Int := if v ≤ q / 2 then v else (v : Int) - q

def add (a b : Poly) : Poly := List.zipWith (fun x y => (x + y) % q) a b
def sub (a b : Poly) : Poly := List.zipWith (fun x y => (x + q - y) % q) a b
/-- The product in the transformed domain. -/
def mul (a b : Poly) : Poly := List.zipWith (fun x y => x * y % q) a b

/-- The largest magnitude of a coefficient. -/
def norm (a : Poly) : Nat := (a.map fun v => (centred v).natAbs).foldl Nat.max 0

/-- The order of the eight bits of a number turned round. -/
def brv (n : Nat) : Nat := (List.range 8).foldl (fun v i => 2 * v + n / 2 ^ i % 2) 0

/-- The powers of 1753, a 512-th root of one: `n` of them from a value. -/
def powers : Nat → Nat → List Nat
  | 0, _ => []
  | n + 1, v => v :: powers n (v * 1753 % q)

/-- The 512 powers. -/
def roots : Array Nat := (powers 512 1).toArray

/-- The value of a polynomial at the power `e` of the root. -/
def valueAt (a : Poly) (e : Nat) : Nat :=
  (a.foldl (fun (acc : Nat × Nat) v => ((acc.1 + v * roots.getD acc.2 0) % q, (acc.2 + e) % 512)) (0, 0)).1

/-- The transform: the values at the odd powers, in bit-reversed order. -/
def ntt (a : Poly) : Poly := (List.range 256).map fun i => valueAt a (2 * brv i + 1)

/-- The polynomial of a transform; 8347681 is the inverse of 256. -/
def nttInverse (t : Poly) : Poly :=
  let byPower := (List.range 256).map fun k => t.getD (brv k) 0
  (List.range 256).map fun j =>
    let v := valueAt byPower ((1024 - 2 * j) % 512)
    v * roots.getD ((512 - j) % 512) 0 % q * 8347681 % q

/-- A matrix of transforms times a vector of transforms. -/
def times (m : List (List Poly)) (v : List Poly) : List Poly :=
  m.map fun row => (List.zipWith mul row v).foldl add (List.replicate 256 0)

-- Sampling (FIPS 204, 7.3)

/-- Coefficients of the matrix from bytes, three a try, until there are `need`. -/
def rejectTriples : Nat → Nat → List Byte → Poly × List Byte
  | 0, _, bs => ([], bs)
  | _, 0, bs => ([], bs)
  | fuel + 1, need + 1, a :: b :: c :: bs =>
    let v := a.toNat + 256 * b.toNat + 65536 * (c.toNat % 128)
    if v < q then let (p, r) := rejectTriples fuel need bs; (v :: p, r) else rejectTriples fuel (need + 1) bs
  | _ + 1, _ + 1, bs => ([], bs)

/-- A polynomial of the matrix, from blocks of SHAKE128, each a multiple of three bytes. -/
def matrixPoly : Nat → Nat → List Nat → Poly
  | 0, need, _ => List.replicate need 0
  | _, 0, _ => []
  | fuel + 1, need, a =>
    let (p, _) := rejectTriples 168 need (output 168 a)
    p ++ matrixPoly fuel (need - p.length) (keccak a)

/-- The matrix, in the transformed domain. -/
def expandA (rho : List Byte) : List (List Poly) :=
  (List.range 4).map fun r => (List.range 4).map fun s =>
    matrixPoly 1000 256 (sponge 168 0x1F (rho ++ [BitVec.ofNat 8 s, BitVec.ofNat 8 r]))

/-- Small coefficients from bytes, two a byte. -/
def smallOf (bs : List Byte) : Poly :=
  ((bs.map fun b => [b.toNat % 16, b.toNat / 16]).flatten).filterMap fun z => if z < 15 then some (modQ (2 - (z % 5 : Nat))) else none

def smallPoly : Nat → Nat → List Nat → Poly
  | 0, need, _ => List.replicate need 0
  | _, 0, _ => []
  | fuel + 1, need, a =>
    let p := (smallOf (output 136 a)).take need
    p ++ smallPoly fuel (need - p.length) (keccak a)

/-- The secret vectors, four polynomials each. -/
def expandS (rho : List Byte) : List Poly × List Poly :=
  let p := fun (n : Nat) => smallPoly 1000 256 (sponge 136 0x1F (rho ++ [BitVec.ofNat 8 n, 0]))
  ((List.range 4).map p, (List.range 4).map fun i => p (4 + i))

/-- Bits of bytes, the least significant first. -/
def bitsOf (bs : List Byte) : List Bool := (bs.map fun b => (List.range 8).map b.getLsbD).flatten

/-- Numbers of `w` bits from bytes. -/
def unpack (w n : Nat) (bs : List Byte) : List Nat :=
  let v := bs.foldr (fun b v => b.toNat + 256 * v) 0
  (List.range n).map fun i => v / 2 ^ (w * i) % 2 ^ w

/-- Numbers of `w` bits into bytes. -/
def pack (w : Nat) (vs : List Nat) : List Byte :=
  let v := vs.foldr (fun x v => x + 2 ^ w * v) 0
  (List.range (w * vs.length / 8)).map fun i => BitVec.ofNat 8 (v / 2 ^ (8 * i))

/-- The mask, four polynomials of 18 bits a coefficient. -/
def expandMask (rho : List Byte) (kappa : Nat) : List Poly :=
  (List.range 4).map fun r =>
    let n := kappa + r
    (unpack 18 256 (shake256 (rho ++ [BitVec.ofNat 8 n, BitVec.ofNat 8 (n / 256)]) 576)).map fun z => modQ (131072 - (z : Int))

/-- The places of the challenge drawn from bytes: `i` counts from 217 to 255. -/
def draw (signs : List Bool) : Nat → Nat → Poly → List Byte → Poly
  | 0, _, c, _ => c
  | _, _, c, [] => c
  | fuel + 1, i, c, j :: bs =>
    if 256 ≤ i then c
    else if i < j.toNat then draw signs fuel i c bs
    else
      let c := c.set i (c.getD j.toNat 0)
      draw signs fuel (i + 1) (c.set j.toNat (if signs.getD (i + 39 - 256) false then q - 1 else 1)) bs

/-- The challenge: 39 coefficients of 1 or -1. -/
def inBall (seed : List Byte) : Poly :=
  let bs := shake256 seed 2720
  draw (bitsOf (bs.take 8)) 2712 217 (List.replicate 256 0) (bs.drop 8)

-- Rounding (FIPS 204, 7.4)

/-- The high part and the low 13 bits of a coefficient. -/
def power2Round (v : Nat) : Nat × Int :=
  let r := v % 8192
  let low : Int := if r ≤ 4096 then r else (r : Int) - 8192
  (((v : Int) - low).toNat / 8192, low)

/-- High and low parts for multiples of 190464. -/
def decompose (v : Nat) : Nat × Int :=
  let r := v % 190464
  let low : Int := if r ≤ 95232 then r else (r : Int) - 190464
  if (v : Int) - low = q - 1 then (0, low - 1) else (((v : Int) - low).toNat / 190464, low)

/-- The high part mended by a hint. -/
def useHint (h : Bool) (v : Nat) : Nat :=
  let (hi, low) := decompose v
  if h then (if 0 < low then (hi + 1) % 44 else (hi + 43) % 44) else hi

-- Keys and signatures (FIPS 204, 6 and 7.2)

/-- The bytes of the high parts, six bits each. -/
def highBytes (w : List Poly) : List Byte := (w.map (pack 6)).flatten

/-- What a signature signs: the message with an empty context, bound to the key. -/
def bound (pk m : List Byte) : List Byte := shake256 (shake256 pk 64 ++ [0, 0] ++ m) 64

/-- The secrets and the public key of a 32-byte seed. -/
structure Keys where
  rho : List Byte
  key : List Byte
  s1 : List Poly
  s2 : List Poly
  t0 : List Poly
  pk : List Byte

def keyGen (seed : List Byte) : Keys :=
  let bs := shake256 (seed ++ [4, 4]) 128
  let rho := bs.take 32
  let (s1, s2) := expandS ((bs.drop 32).take 64)
  let t := List.zipWith add ((times (expandA rho) (s1.map ntt)).map nttInverse) s2
  let parts := t.map fun p => p.map power2Round
  { rho := rho, key := bs.drop 96, s1 := s1, s2 := s2, t0 := parts.map fun p => p.map fun x => modQ x.2
    pk := rho ++ (parts.map fun p => pack 10 (p.map (·.1))).flatten }

/-- The hints as 84 bytes: the places that are set, and how many there are up to each polynomial. -/
def packHints (h : List (List Bool)) : List Byte :=
  let places := h.map fun p => (List.range 256).filter fun i => p.getD i false
  let all := places.flatten
  let upTo := (List.range 4).map fun i => ((places.take (i + 1)).map List.length).foldl (· + ·) 0
  ((all ++ List.replicate (80 - all.length) 0) ++ upTo).map (BitVec.ofNat 8)

/-- Whether numbers rise strictly. -/
def rises : List Nat → Bool
  | a :: b :: r => a < b && rises (b :: r)
  | _ => true

/-- The hints that 84 bytes stand for; none where they are malformed. -/
def unpackHints (y : List Byte) : Option (List (List Nat)) :=
  let n := y.map (·.toNat)
  let upTo := 0 :: n.drop 80
  let part := fun (i : Nat) =>
    let a := upTo.getD i 0
    let b := upTo.getD (i + 1) 0
    let ps := (n.drop a).take (b - a)
    if b < a || 80 < b || !rises ps then none else some ps
  if ((n.take 80).drop (upTo.getD 4 0)).any (· != 0) then none else (List.range 4).mapM part

/-- Signing with fresh randomness, tried until the parts are small enough. -/
def signLoop (k : Keys) (a : List (List Poly)) (mu rho : List Byte) : Nat → Nat → List Byte
  | 0, _ => List.replicate 2420 0
  | fuel + 1, kappa =>
    let y := expandMask rho kappa
    let w := (times a (y.map ntt)).map nttInverse
    let seed := shake256 (mu ++ highBytes (w.map fun p => p.map fun v => (decompose v).1)) 32
    let c := ntt (inBall seed)
    let scaled := fun (s : List Poly) => s.map fun p => nttInverse (mul c (ntt p))
    let z := List.zipWith add y (scaled k.s1)
    let r := List.zipWith sub w (scaled k.s2)
    let ct0 := scaled k.t0
    let low := (r.map fun p => (p.map fun v => (decompose v).2.natAbs).foldl Nat.max 0).foldl Nat.max 0
    let big := fun (ps : List Poly) => (ps.map norm).foldl Nat.max 0
    let hints := List.zipWith (fun p t => List.zipWith (fun v x => (decompose ((v + x) % q)).1 != (decompose v).1) p t) r ct0
    let count := ((hints.map fun p => (p.filter id).length)).foldl (· + ·) 0
    if 130994 ≤ big z || 95154 ≤ low || 95232 ≤ big ct0 || 80 < count then signLoop k a mu rho fuel (kappa + 4)
    else seed ++ (z.map fun p => pack 18 (p.map fun v => (131072 - centred v).toNat)).flatten ++ packHints hints

/-- An ML-DSA-44 signature over a message, with 32 bytes of randomness. -/
def sign (k : Keys) (m random : List Byte) : List Byte :=
  let mu := bound k.pk m
  signLoop k (expandA k.rho) mu (shake256 (k.key ++ random ++ mu) 64) 10000 0

/-- ML-DSA-44 verification: public key, message, signature. -/
def verify (pk m sig : List Byte) : Bool :=
  let seed := sig.take 32
  let z := (List.range 4).map fun i => (unpack 18 256 ((sig.drop (32 + 576 * i)).take 576)).map fun v => modQ (131072 - (v : Int))
  let t1 := (List.range 4).map fun i => unpack 10 256 ((pk.drop (32 + 320 * i)).take 320)
  match unpackHints (sig.drop 2336) with
  | none => false
  | some hints =>
    let c := ntt (inBall seed)
    let high := t1.map fun p => mul c (ntt (p.map fun v => v * 8192 % q))
    let w := (List.zipWith sub (times (expandA (pk.take 32)) (z.map ntt)) high).map nttInverse
    let w1 := List.zipWith (fun p hs => p.mapIdx fun i v => useHint (hs.contains i) v) w hints
    pk.length == 1312 && sig.length == 2420 && z.all (fun p => norm p < 130994) &&
      seed == shake256 (bound pk m ++ highBytes w1) 32

end Sys2Proof.Crypto
end

