-- ==== Sys2Proof/Config.lean ====
section
/-! DEFINITION. What the spec leaves open, and what the fuses and the firmware of a device hold, as constants without a body (free
values). A claim about the model holds for each of them. -/

namespace Sys2Proof.Config

/-- Which of the actions that may happen next happens, by the number of the step (R90: no order is given). -/
opaque schedule : Nat → Nat

/-- Nanoseconds that pass before the step of this number (R2; timing is left out). -/
opaque stepNs : Nat → Nat

/-- Free bits: by the number of the step, what they are wanted for, and which of several. -/
opaque freeBits : Nat → Nat → Nat → BitVec 32

/-- Free choice of one among several, by the number of the step and what it is wanted for. -/
opaque freeNat : Nat → Nat → Nat

/-- Which value within the bound of Table 9.6 a transcendental returns: the same operand, the same value (R182). -/
opaque transcendental : Nat → BitVec 32 → Nat

/-- The seed of the device identity, derived from fused secrets (R23). -/
opaque identitySeed : List (BitVec 8)

/-- The randomness of a signature, by the number of the step. -/
opaque signRandom : Nat → List (BitVec 8)

/-- How many of the 63 virtual functions firmware gives to port 0's PF (R19). -/
opaque vfsOfPort0 : Nat

/-- The fused key hash (R21). -/
opaque fusedKeyHash : List (BitVec 8)

/-- The fused minimum security version number (R21). -/
opaque fusedMinSvn : Nat

/-- The fabric device number that `device` reads, bits [17:0] (Table 8.2). -/
opaque deviceNumber : BitVec 18

/-- Groups in the system; global ports of groups at or above it are idle (R264). -/
opaque groups : Nat

end Sys2Proof.Config
end

