-- ==== Sys2Proof/Machine/Sparse.lean ====
section
/-! DEFINITION. Sparse tables: lists of (number, value) pairs in one canonical form, the numbers strictly rising and, for a
table with a default value, no entry equal to it. Memory and every numbered set of parts of the device are such tables. -/

namespace Sys2Proof

/-- A table by number. -/
abbrev SMap (α : Type) := List (Nat × α)

namespace SMap

variable {α : Type}

/-- The value listed under a number. -/
def find? : SMap α → Nat → Option α
  | [], _ => none
  | (k, v) :: m, n => if k = n then some v else find? m n

/-- The value under a number; `d` where the table lists none. -/
def get (d : α) (m : SMap α) (n : Nat) : α := (find? m n).getD d

/-- The table with `v` listed under `n`. -/
def put : SMap α → Nat → α → SMap α
  | [], n, v => [(n, v)]
  | (k, w) :: m, n, v => if n < k then (n, v) :: (k, w) :: m else if n = k then (n, v) :: m else (k, w) :: put m n v

/-- The table with nothing listed under `n`. -/
def del : SMap α → Nat → SMap α
  | [], _ => []
  | (k, w) :: m, n => if k = n then del m n else (k, w) :: del m n

/-- The table with value `v` under `n`, listed unless it is the default `d`. -/
def write [DecidableEq α] (d : α) (m : SMap α) (n : Nat) (v : α) : SMap α := if v = d then del m n else put m n v

/-- The table with every value changed, by its number. -/
def mapV (m : SMap α) (f : Nat → α → α) : SMap α := List.map (fun e => (e.1, f e.1 e.2)) m

/-- The table with one listed value changed. -/
def adjust (m : SMap α) (n : Nat) (f : α → α) : SMap α :=
  match find? m n with
  | some v => put m n (f v)
  | none => m

/-- Every number of the table is above `n`, and they rise strictly. -/
def above : Nat → SMap α → Bool
  | _, [] => true
  | n, (k, _) :: m => n < k && above k m

/-- The numbers of the table rise strictly. -/
def sorted : SMap α → Bool
  | [] => true
  | (k, _) :: m => above k m

/-- The canonical form of a table with default `d`. -/
def wf [DecidableEq α] (d : α) (m : SMap α) : Bool := sorted m && m.all (fun e => e.2 ≠ d)

/-- The lowest number from `n` up, within `fuel`, that the table does not list. -/
def freeFrom (m : SMap α) : Nat → Nat → Option Nat
  | 0, _ => none
  | fuel + 1, n => if (find? m n).isNone then some n else freeFrom m fuel (n + 1)

end SMap

end Sys2Proof
end

