-- ==== Sys2Proof/Syntax.lean ====
section
/-! DEFINITION. The operations of the part: one constructor for each row of spec/opcode_table.json. The instructions
of the three engines (threads, matrix sequencer, copy sequencer) come first, then the device's events. -/

namespace Sys2Proof

/-- The engine a line belongs to (Table 7.1, KIND 00, 01, 10). -/
inductive Engine where
  | thread | matrix | copy
  deriving DecidableEq, Repr

/-- Modes of a lane (R3): user, supervisor, hypervisor. -/
inductive Mode where
  | user | supervisor | hypervisor
  deriving DecidableEq, Repr

/-- Type codes of SUB[3:0] (Table 7.6). -/
inductive Ty where
  | i8 | i16 | i32 | i64 | n8 | n16 | n32 | n64 | f32 | bf16 | f16 | bf16x2 | f16x2
  deriving DecidableEq, Repr

/-- Rounding modes, 00 to 11 (Table 2.9, R175). -/
inductive Rm where
  | rne | rtz | rup | rdn
  deriving DecidableEq, Repr

/-- Scopes of MOD[7:5] (Table 7.5). -/
inductive Scope where
  | gang | blk | die | pkg | sys
  deriving DecidableEq, Repr

/-- Cache policies of MOD[11:8] (R228). -/
inductive Policy where
  | normal | stream | nc
  deriving DecidableEq, Repr

/-- Element counts of memory instructions, SUB[7:4] (R228). -/
inductive Count where
  | one | v2 | v4
  deriving DecidableEq, Repr

/-- Integer relations of CMP (Table 9.1). -/
inductive Rel where
  | eq | ne | lt | le | gt | ge
  deriving DecidableEq, Repr

/-- Floating relations of FCMP (Table 9.5). -/
inductive FRel where
  | eq | ne | lt | le | gt | ge | un | ord
  deriving DecidableEq, Repr

/-- Operations of REDUX, SUB[7:4] (R158). -/
inductive RedOp where
  | add | min | max | and | or | xor
  deriving DecidableEq, Repr

/-- Operations of ATOM and RED other than cas (Table 14.2). -/
inductive AtomOp where
  | add | min | max | and | or | xor | exch
  deriving DecidableEq, Repr

/-- Order bits MOD[9:8] of an atomic (R289). -/
inductive Order where
  | relaxed | acq | rel | acqrel
  deriving DecidableEq, Repr

/-- Conditions of WAITA, SUB[7:4] (R294). -/
inductive WCond where
  | ne | eq | ge | lt
  deriving DecidableEq, Repr

/-- The guard: PN and PG (R131). -/
structure Guard where
  neg : Bool
  p : BitVec 3
  deriving DecidableEq, Repr

/-- A general register operand: its bank bit and its field (Table 7.7). In sequencer lines the bank bit is 0. -/
structure Reg where
  k : Bool
  n : BitVec 8
  deriving DecidableEq, Repr

/-- The B operand where it may be immediate (R164). -/
inductive Src where
  | reg (r : Reg)
  | imm (v : Word)
  deriving DecidableEq, Repr

/-- What firmware does at STAGE 4 (R22, R30): the hypervisor's image and where it goes, the intermediate address at which VMID 0's
host stage maps the mailbox, and where tables that this takes are put. -/
structure HypLoad where
  image : List Byte := []
  base : Nat := 0
  mailbox : Nat := 0
  tables : Nat := 0
  deriving DecidableEq, Repr

/-- How a bring-up stage ends (R22). What a passed STAGE 4 loads comes with it. -/
inductive StageOutcome where
  | pass (loaded : HypLoad) | trainFail | selfTestFail
  deriving DecidableEq, Repr

/-- Structures that single faults strike (Table 1.7). -/
inductive FaultUnit where
  | hbm          -- an HBM word, by physical address
  | localStore   -- a word of a block's window: block * 2^17 + offset
  | register     -- an x register: (gang * 32 + lane) * 256 + number; a k register: 2^64 + gang * 64 + number; a register of a
                 -- sequencer: 2^65 + (2 * block + 1 for the matrix sequencer's) * 32 + number
  | l1           -- a sector of a core's L1: core * 2^43 + physical address
  | rdc          -- a sector of a die's RDC: node * 2^43 + physical address
  | line         -- one bit of a cached instruction line: index into the line's 512 bits; core and line in the address
  | matrix       -- the matrix engine of a core
  | elision      -- an elision code or constant word, by physical address
  | tlb          -- an entry of a die's shared TLB: node * 2^32 + place; of a micro-TLB: 2^64 + core * 2^32 + place
  | homeSram     -- a word of the conversation-home SRAM of a base die: node * 2^32 + place
  | l2           -- a word of a sector that a home L2 holds, by physical address
  deriving DecidableEq, Repr

/-- Registers of the spec's register maps that a REGISTER_WRITE reaches (R3). -/
inductive MapReg where
  | bootStatus
  | bootGo
  | passcnt (cluster : Nat)
  | pwrset (core : Nat)
  | fflags (gang lane : Nat)
  | mflags (block : Nat)
  | stepLimit (region : Nat)
  deriving DecidableEq, Repr

/-- What a conversation's parties on different devices ask of each other (R304 to R320): a party of the home, or the
home of a holder. The role is that of the asker, or of the holder asked. `room` says that the asker's die has room for the
role's entries; `taken` are the numbers of entries taken whose credits may still be on their way. -/
inductive ConvAsk where
  | bind (handle : DWord) (role : Nat) (token : BitVec 16) (gang : Nat) (room : Bool)
  | send (handle : DWord) (role gang : Nat) (kind : BitVec 8) (mask : BitVec 32) (words : List (Nat × Word))
  | deleg (handle : DWord) (role gang : Nat) (token : BitVec 16) (taken : List Word)
  | query (handle : DWord)
  | close (handle : DWord) (role gang : Nat) (taken : List Word)
  | unbind (handle : DWord) (role gang : Nat) (taken : List Word)
  /-- The entries of a role return to the home, and the role stays bound (R312). -/
  | back (handle : DWord) (role gang : Nat) (taken : List Word)
  | credit (handle : DWord) (role : Nat) (seq : Word)
  | deliver (handle : DWord) (role gang : Nat) (seq : Word) (notice : Bool) (sender : BitVec 4) (kind : BitVec 8)
      (mask : BitVec 32) (words : List (Nat × Word))
  | ended (handle : DWord) (role gang : Nat)
  deriving DecidableEq, Repr

/-- What a request of the fabric asks of its target (R257, R263). -/
inductive ReqKind where
  | load (len : Nat)
  | store (bytes : List (Nat × Byte))
  | atom (op : AtomOp) (ty : Ty) (b : DWord)
  | cas (ty : Ty) (b c : DWord)
  | red (op : AtomOp) (ty : Ty) (b : DWord)
  | count (add : Word) (announce : Bool)
  | seal
  | conv (c : ConvAsk)
  deriving DecidableEq, Repr

/-- How a target answers a request (R260, R261). -/
inductive ReplyKind where
  | ack
  /-- Bytes, each with the poison of its sector at the target (R225). -/
  | data (bytes : List (Byte × Bool))
  | fault (cause : BitVec 8)
  | nack
  /-- A conversation home's answer to a `CBIND` that succeeds: RBASE and RLEN (R309). -/
  | bound (rbase rlen : DWord)
  /-- A conversation home's answer: its code, and two words. -/
  | conv (code : Nat) (lo hi : Word)
  deriving DecidableEq, Repr

/-- One constructor for each row of spec/opcode_table.json. -/
inductive Instr where
  -- control and gang instructions (07_fetch.md, 08_issue.md, 10_matrix.md, 17_retirement.md)
  | nop (g : Guard)
  | isync (g : Guard)
  | bra (g : Guard) (off : Word)
  | brx (g : Guard) (a : Reg)
  | call (g : Guard) (d : BitVec 8) (off : Word)
  | callx (g : Guard) (d : BitVec 8) (a : Reg)
  | ret (g : Guard) (a : Reg)
  | reconvImm (g : Guard) (mask : Word)
  | reconvReg (g : Guard) (a : Reg)
  | exit (g : Guard)
  | fork (g : Guard) (d : BitVec 8) (m c : Bool) (gangs : BitVec 16)
  | rdv (g : Guard) (n : BitVec 4)
  | voteAny (g : Guard) (w : BitVec 4) (d a : BitVec 3)
  | voteAll (g : Guard) (w : BitVec 4) (d a : BitVec 3)
  | voteBallot (g : Guard) (w : BitVec 4) (d : BitVec 8) (a : BitVec 3)
  | voteEq (g : Guard) (w : BitVec 4) (d : BitVec 3) (a : Reg)
  | voteCnt (g : Guard) (w : BitVec 4) (d : BitVec 8) (a : BitVec 3)
  | shflPick (g : Guard) (w : BitVec 4) (d : BitVec 8) (a : Reg) (b : Src) (c : Reg)
  | shflFwd (g : Guard) (w : BitVec 4) (d : BitVec 8) (a : Reg) (b : Src) (c : Reg)
  | shflBack (g : Guard) (w : BitVec 4) (d : BitVec 8) (a : Reg) (b : Src) (c : Reg)
  | shflFlip (g : Guard) (w : BitVec 4) (d : BitVec 8) (a : Reg) (b : Src) (c : Reg)
  | shflRot (g : Guard) (w : BitVec 4) (d : BitVec 8) (a : Reg) (b : Src) (c : Reg)
  | redux (g : Guard) (op : RedOp) (ty : Ty) (d : BitVec 8) (a : Reg)
  | bmaskSelf (g : Guard) (d : BitVec 8)
  | bmaskPre (g : Guard) (w : BitVec 4) (d : BitVec 8)
  | bmaskPost (g : Guard) (w : BitVec 4) (d : BitVec 8)
  | bmaskSeg (g : Guard) (w : BitVec 4) (d : BitVec 8)
  | bmaskGrp (g : Guard) (d : BitVec 8)
  | bmaskSpan (g : Guard) (d : BitVec 8) (b : Src)
  | grow (g : Guard) (d : BitVec 3) (n : Word)
  | growTry (g : Guard) (d : BitVec 3) (n : Word)
  | shrink (g : Guard) (n : Word)
  | gets (g : Guard) (wide : Bool) (d num : BitVec 8)
  | sets (g : Guard) (num : BitVec 8) (a : Reg)
  | plogAnd (g : Guard) (d a b : BitVec 3)
  | plogOr (g : Guard) (d a b : BitVec 3)
  | plogXor (g : Guard) (d a b : BitVec 3)
  | plogAndn (g : Guard) (d a b : BitVec 3)
  | plogOrn (g : Guard) (d a b : BitVec 3)
  | plogNot (g : Guard) (d a : BitVec 3)
  | plogSet (g : Guard) (d : BitVec 3) (v : Bool)
  -- integer and address instructions (09_arithmetic.md, Table 9.1)
  | mov (g : Guard) (ty : Ty) (d : Reg) (b : Src)
  | add (g : Guard) (ty : Ty) (sat : Bool) (d a : Reg) (b : Src)
  | sub (g : Guard) (ty : Ty) (sat : Bool) (d a : Reg) (b : Src)
  | mul (g : Guard) (ty : Ty) (sat : Bool) (d a : Reg) (b : Src)
  | mad (g : Guard) (ty : Ty) (d a : Reg) (b : Src) (c : Reg)
  | madWide (g : Guard) (ty : Ty) (d a : Reg) (b : Src) (c : Reg)
  | mulhi (g : Guard) (ty : Ty) (d a : Reg) (b : Src)
  | div (g : Guard) (ty : Ty) (d a : Reg) (b : Src)
  | rem (g : Guard) (ty : Ty) (d a : Reg) (b : Src)
  | and (g : Guard) (ty : Ty) (d a : Reg) (b : Src)
  | or (g : Guard) (ty : Ty) (d a : Reg) (b : Src)
  | xor (g : Guard) (ty : Ty) (d a : Reg) (b : Src)
  | shfShl (g : Guard) (ty : Ty) (d a : Reg) (b : Src)
  | shfShr (g : Guard) (ty : Ty) (d a : Reg) (b : Src)
  | shfRotl (g : Guard) (ty : Ty) (d a : Reg) (b : Src)
  | shfRotr (g : Guard) (ty : Ty) (d a : Reg) (b : Src)
  | cmp (g : Guard) (rel : Rel) (ty : Ty) (d : BitVec 3) (a : Reg) (b : Src)
  | sel (g : Guard) (ty : Ty) (d a : Reg) (b : Src) (c : BitVec 3)
  | min (g : Guard) (ty : Ty) (d a : Reg) (b : Src)
  | max (g : Guard) (ty : Ty) (d a : Reg) (b : Src)
  | abs (g : Guard) (ty : Ty) (sat : Bool) (d a : Reg)
  | bitcPopc (g : Guard) (ty : Ty) (d a : Reg)
  | bitcClz (g : Guard) (ty : Ty) (d a : Reg)
  | bitcCtz (g : Guard) (ty : Ty) (d a : Reg)
  | bitcBrev (g : Guard) (ty : Ty) (d a : Reg)
  | bfe (g : Guard) (ty : Ty) (d a : Reg) (b : Src)
  | bfi (g : Guard) (ty : Ty) (d a : Reg) (b : Src) (c : Reg)
  | lea (g : Guard) (ty : Ty) (d a : Reg) (b : Src) (sh : BitVec 4)
  -- floating-point instructions (Table 9.3)
  | fadd (g : Guard) (rm : Rm) (ty : Ty) (d a : Reg) (b : Src)
  | fsub (g : Guard) (rm : Rm) (ty : Ty) (d a : Reg) (b : Src)
  | fmul (g : Guard) (rm : Rm) (ty : Ty) (d a : Reg) (b : Src)
  | ffma (g : Guard) (rm : Rm) (ty : Ty) (d a : Reg) (b : Src) (c : Reg)
  | fmin (g : Guard) (ty : Ty) (d a : Reg) (b : Src)
  | fmax (g : Guard) (ty : Ty) (d a : Reg) (b : Src)
  | fcmp (g : Guard) (rel : FRel) (ty : Ty) (d : BitVec 3) (a : Reg) (b : Src)
  | fsgnNeg (g : Guard) (ty : Ty) (d a : Reg)
  | fsgnAbs (g : Guard) (ty : Ty) (d a : Reg)
  | fsgnCopy (g : Guard) (ty : Ty) (d a : Reg) (b : Src)
  | fsgnXor (g : Guard) (ty : Ty) (d a : Reg) (b : Src)
  | fdiv (g : Guard) (rm : Rm) (ty : Ty) (d a : Reg) (b : Src)
  | fsqrt (g : Guard) (rm : Rm) (ty : Ty) (d a : Reg)
  | frcp (g : Guard) (d a : Reg)
  | frsq (g : Guard) (d a : Reg)
  | fexp2 (g : Guard) (d a : Reg)
  | flog2 (g : Guard) (d a : Reg)
  | fsin (g : Guard) (d a : Reg)
  | fcos (g : Guard) (d a : Reg)
  | fclass (g : Guard) (ty : Ty) (d a : Reg)
  | frnd (g : Guard) (rm : Rm) (ty : Ty) (d a : Reg)
  -- conversions (R183 to R187)
  | cvt (g : Guard) (dty sty : Ty) (rm : Rm) (sat : Bool) (d a : Reg)
  | cvtPacked (g : Guard) (dty : Ty) (rm : Rm) (sat : Bool) (d a : Reg) (b : Src)
  | cvtSlot (g : Guard) (dty sty : Ty) (slot : BitVec 3) (d a : Reg)
  | cvtn (g : Guard) (ty : Ty) (slot : BitVec 3) (d : Reg) (a : BitVec 8) (c : Reg)
  | cvtw (g : Guard) (ty : Ty) (slot : BitVec 3) (d : BitVec 8) (a c : Reg)
  -- memory instructions (Table 11.5)
  | ld (g : Guard) (cnt : Count) (ty : Ty) (sc : Scope) (pol : Policy) (d : BitVec 8) (a : Reg) (off : Word)
  | st (g : Guard) (cnt : Count) (ty : Ty) (sc : Scope) (pol : Policy) (a b : Reg) (off : Word)
  | ldk (g : Guard) (cnt : Count) (ty : Ty) (sc : Scope) (d a : BitVec 8) (off : Word)
  | pref (g : Guard) (sc : Scope) (a : Reg) (off : Word)
  | cflush (g : Guard) (sc : Scope) (a : Reg) (off : Word)
  | cflushInv (g : Guard) (sc : Scope) (a : Reg) (off : Word)
  | cinv (g : Guard) (sc : Scope) (a : Reg) (off : Word)
  -- copies and fabric (Table 12.2)
  | cpy (g : Guard) (a b c : Reg) (loc : Word)
  | cpseal (g : Guard)
  | cpwait (g : Guard) (n : BitVec 4)
  | stage (g : Guard) (n : BitVec 8)
  | bulk (g : Guard) (a : BitVec 8) (b : Src)
  | outst (g : Guard) (d : BitVec 8)
  | arrive (g : Guard) (sc : Scope) (a b : Reg) (off : Word)
  | arriveAnn (g : Guard) (sc : Scope) (a b c : Reg) (off : Word)
  | await (g : Guard) (sc : Scope) (d : BitVec 8) (a b : Reg) (off : Word)
  | xfer (g : Guard) (a b c : BitVec 8) (loc : Word)
  | xfer2d (g : Guard) (a b c : BitVec 8) (loc : Word)
  | xslide (g : Guard) (a b c : BitVec 8) (loc : Word)
  | xgate (g : Guard) (n : BitVec 8)
  | xbump (g : Guard) (d : BitVec 8) (b : Src)
  | xbumpRing (g : Guard) (d a : BitVec 8) (b : Src)
  -- fences, barriers, atomics, waiting (14_synchronisation.md)
  | fence (g : Guard) (sc : Scope)
  | fencex (g : Guard) (sc : Scope) (n : BitVec 5)
  | barGang (g : Guard)
  | barBlk (g : Guard) (n : BitVec 4)
  | barBlkArv (g : Guard) (n : BitVec 4)
  | barEns (g : Guard) (n : BitVec 4)
  | barEnsArv (g : Guard) (n : BitVec 4)
  | barCoop (g : Guard) (n : BitVec 4)
  | atom (g : Guard) (op : AtomOp) (ty : Ty) (ord : Order) (sc ms : Bool) (scope : Scope) (d a b : Reg) (off : Word)
  | atomCas (g : Guard) (ty : Ty) (ord : Order) (sc ms : Bool) (scope : Scope) (d a b c : Reg) (off : Word)
  | red (g : Guard) (op : AtomOp) (ty : Ty) (rel sc ms : Bool) (scope : Scope) (a b : Reg) (off : Word)
  | waita (g : Guard) (cond : WCond) (ty : Ty) (scope : Scope) (d : BitVec 8) (a b c : Reg) (off : Word)
  -- conversations (Table 15.8)
  | cbind (g : Guard) (d : BitVec 8) (h : BitVec 3) (b c : Reg)
  | csend (g : Guard) (scope : Scope) (h : BitVec 3) (b : Reg) (kind : BitVec 8)
  | crecv (g : Guard) (scope : Scope) (d : BitVec 8) (h : BitVec 3)
  | ctry (g : Guard) (scope : Scope) (d : BitVec 8) (h : BitVec 3)
  | cdeleg (g : Guard) (h : BitVec 3) (b : Reg)
  | cstateHome (g : Guard) (d : BitVec 8) (h : BitVec 3)
  | cstateRole (g : Guard) (d : BitVec 8) (h : BitVec 3)
  | cclose (g : Guard) (h : BitVec 3)
  | cload (g : Guard) (d : BitVec 8) (a b c : Reg)
  -- matrix instructions (Table 10.5)
  | mzero (g : Guard) (d : BitVec 2)
  | mlda (g : Guard) (slot : BitVec 3) (a b c : BitVec 8) (off : Word)
  | mldb (g : Guard) (slot : BitVec 3) (a b c : BitVec 8) (off : Word)
  | mldbLong (g : Guard) (slot : BitVec 3) (a b c : BitVec 8) (off : Word)
  | mgath (g : Guard) (slot : BitVec 3) (a b c : BitVec 8) (off : Word)
  | mconv (g : Guard) (slot : BitVec 3) (a b c : BitVec 8) (off : Word)
  | mma (g : Guard) (d : BitVec 2)
  | maccl (g : Guard) (d : BitVec 2) (a b : BitVec 8) (off : Word)
  | mdrainF32 (g : Guard) (slot : BitVec 3) (d : BitVec 2) (a b c : BitVec 8) (off : Word)
  | mdrainI32 (g : Guard) (slot : BitVec 3) (d : BitVec 2) (a b c : BitVec 8) (off : Word)
  -- launch (05_launch.md)
  | launch (g : Guard) (d : BitVec 8) (a : Reg) (off : Word)
  | gsigArr (g : Guard) (a b : Reg) (off : Word)
  | gsigAnn (g : Guard) (a b : Reg) (off : Word)
  | gsigSeal (g : Guard) (a : Reg) (off : Word)
  | cancel (g : Guard) (d : BitVec 8) (a : Reg) (off : Word)
  -- system (Table 16.10)
  | sys (g : Guard) (n : BitVec 16)
  | sret (g : Guard)
  | hcall (g : Guard) (n : BitVec 16)
  | hret (g : Guard)
  | mfs (g : Guard) (d num : BitVec 8)
  | mts (g : Guard) (num : BitVec 8) (a : Reg)
  | mtsGhold (g : Guard) (a : Reg)
  | tlbinvAll (g : Guard)
  | tlbinvAsid (g : Guard) (a : Reg)
  | tlbinvPage (g : Guard) (a b : Reg)
  | tlbinvVmid (g : Guard) (a : Reg)
  | fresume (g : Guard) (d : BitVec 8) (a : Reg)
  | fkillTok (g : Guard) (d : BitVec 8) (a : Reg)
  | fkillGang (g : Guard) (d : BitVec 8) (a : Reg)
  | tokwait (g : Guard) (d : BitVec 8) (a : Reg)
  | ctxsave (g : Guard) (d : BitVec 8) (a : Reg)
  | ctxload (g : Guard) (d : BitVec 8) (a b : Reg)
  | walkres (g : Guard) (d a : BitVec 8)
  | walkresSkip (g : Guard) (d a : BitVec 8)
  | tmove (g : Guard) (d a b : BitVec 8) (len : Word)
  | treplAdd (g : Guard) (d a b c : BitVec 8) (len : Word)
  | treplDrop (g : Guard) (d a : BitVec 8) (slots : BitVec 4)
  -- device events: bring-up, environment, host
  | bootGo (len : DWord)
  | firmwareStageComplete (r : StageOutcome) (skewPs : List Int) (bands : List (Nat × Nat × Nat))
  | pcieHotReset
  | mailboxStore (addr : DWord)
  | attestationReport
  | temperatureSample (cluster : Nat) (celsius : Int)
  | layerVoltageSample (node pair : Nat) (upper : Bool) (millivolts : Nat)
  | midRailSample (node pair : Nat) (offMillivolts : Nat)
  | processMonitorSample (cluster count : Nat)
  | droopRestoreStep (region : Nat)
  | selfTestSlot (cluster : Nat)
  | selfTestSlotEnd (cluster : Nat) (pass : Bool)
  | scrubPass (unit : FaultUnit) (addr : Nat)
  | hostMemoryAccess (staging : Bool) (vmid addr len : Nat) (write : Option (List Byte))
  | registerWrite (r : MapReg) (v : Word)
  | doorbell (vmid queue : Nat)
  | queueTailPoll (ctx queue : Nat)
  | launchAccept (ctx queue : Nat)
  | graphStartAccept (ctx queue : Nat)
  | recordComplete (addr : Nat)
  | heldWriteRetry
  | seal (vmid : Nat) (addr : DWord)
  | graphNodeLaunch (graph node : Nat)
  | graphNodeCopy (graph node : Nat)
  | graphNodeConditional (graph node : Nat)
  | graphNodeLoop (graph node : Nat)
  | graphNodeWait (graph node : Nat)
  | graphNodeSignal (graph node : Nat)
  | cancelGraceExpiry (tag : Nat)
  | walkRecordRead (tag index : Nat)
  | deferredNotify (tag index : Nat)
  | blockCreate (tag node : Nat)
  | blockPlace (tag node index : Nat)
  | ensemblePlace (tag cell : Nat)
  | preferenceRebuild (node : Nat) (currents : List Nat)
  | clusterGate (cluster : Nat)
  | clusterWake (cluster : Nat)
  | moveCommit (move : Nat)
  | replicaAddCommit (move : Nat)
  | migrationAbort (move : Nat)
  | instructionRefetch (core : Nat) (line : Nat)
  | translationWalkDone (walk : Nat)
  | copyPacketPerformed (copy : Nat)
  | copyFault (copy : Nat)
  | combineTimeout (core entry : Nat)
  | remoteRequest (source vmid seq : Nat) (secure : Bool) (offset : Nat) (kind : ReqKind)
  | remoteReply (request : Nat) (reply : ReplyKind)
  | nackResend (request : Nat)
  | routeTimeout (request : Nat)
  | flitCrcFail (link : Nat)
  | linkRetrain (link : Nat) (ok : Bool)
  | monitorEvaluate (monitor : Nat)
  | monitorPoll (monitor : Nat)
  | waitaTimeout (gang lane : Nat)
  | sendJudge (home : Nat)
  | creditReturn (home role : Nat)
  | messageDelivery (home role : Nat)
  | entryReturn (home role : Nat)
  | deliveryStall (home role : Nat)
  | deliveryResume (home role : Nat)
  | faultOverflowPost (node : Nat)
  | parkedResume (gang index : Nat)
  | blockEvict (block : Nat)
  | contextSaveComplete (node : Nat)
  | saveGraceExpiry (node : Nat)
  | blockRetire (block : Nat)
  | sequencerExit (block : Nat) (matrix : Bool)
  | singleFault (unit : FaultUnit) (addr : Nat)
  | powerUpReset
  | inputUndervoltage
  | imageVerified
  deriving DecidableEq, Repr

end Sys2Proof
end

