-- ==== Sys2Proof/Machine/State.lean ====
section
/-! DEFINITION. The state of the device as plain data: everything the spec gives the machine, the outcomes of a step, and
the state right after reset. Parts are numbered: core = node * 512 + core of the die; gang = core * 16 + slot;
cluster = node * 32 + cluster of the die; home = node * 65,536 + index; a physical address is node * 2^36 + offset (R215). -/

namespace Sys2Proof.Machine

/-- A lane's life: it runs until it exits or is killed (R139, R155, R343). -/
inductive Life where
  | running | exited
  deriving DecidableEq, Repr

/-- One thread (R139, Tables 16.2 to 16.4). -/
structure Lane where
  /-- x registers; unlisted 0. -/
  x : SMap Word := []
  /-- Poison of x registers. -/
  xp : SMap Bool := []
  p : BitVec 8 := 0
  pp : BitVec 8 := 0
  pc : DWord := 0
  mode : Mode := .user
  life : Life := .running
  fflags : BitVec 7 := 0
  spc : DWord := 0
  scause : Word := 0
  stval : DWord := 0
  spm : BitVec 2 := 0
  depth : BitVec 2 := 0
  incont : Bool := false
  sscratch : SMap DWord := []
  ospc : DWord := 0
  oscause : Word := 0
  ostval : DWord := 0
  osstat : Word := 0
  hpc : DWord := 0
  hcause : Word := 0
  htval : DWord := 0
  hpm : BitVec 2 := 0
  sdep : BitVec 2 := 0
  esc : Bool := false
  hd : Bool := false
  hscratch : SMap DWord := []
  /-- Continuation: resume pc, saved x1 with its poison, token (R334). -/
  contPc : DWord := 0
  contX1 : Word := 0
  contX1p : Bool := false
  contToken : Word := 0
  /-- Clk since the lane last issued (R141). -/
  waited : Nat := 0
  /-- The checks of a transfer of control that the next fetch still makes: TARGET bit wanted, offset 0 wanted. -/
  checkTarget : Bool := false
  checkEntry : Bool := false
  deriving DecidableEq, Repr

/-- A reconvergence entry (R145). -/
structure Reconv where
  addr : DWord
  members : Mask
  arrived : Mask
  deriving DecidableEq, Repr

/-- Barriers by level (Table 14.1): of a gang, of a block, of an ensemble, of a cooperative launch. -/
inductive BarRef where
  | gang (gang : Nat)
  | blk (block n : Nat)
  | ens (ens n : Nat)
  | coop (launch n : Nat)
  deriving DecidableEq, Repr

/-- What a waiting lane waits for (R140, Table 16.8). -/
inductive WaitKind where
  /-- A translation walk (R217). -/
  | walk (id : Nat)
  /-- An instruction line's second fetch after a parity failure (R135). -/
  | refetch (line : Nat)
  /-- The phase of a barrier (R284). -/
  | bar (b : BarRef) (phase : Nat)
  /-- A rendezvous point (R193). -/
  | rdv (n : Nat)
  /-- Registers of the core's pool; the predicate that receives 1 (R160). -/
  | grow (n : Nat) (d : BitVec 3)
  /-- At most n open batches (R243). -/
  | cpwait (n : Nat)
  /-- The instruction runs again once its condition holds: it waits for the part named. -/
  | again (reason : String)
  /-- Replies of remote requests (R257). -/
  | remote (reqs : List Nat)
  /-- A condition of one or more monitors (R293), in AWAIT, WAITA and TOKWAIT: a number of the group that waits; the
  register or pair that receives the value, and the scope of the acquire, if there is one. -/
  | monitor (id : Nat) (d : BitVec 8) (wide : Bool) (scope : Option Scope)
  /-- A verdict of a conversation home on a send (R304): the send's number, and the role register. -/
  | verdict (id : Nat) (d : BitVec 8) (h : BitVec 3)
  /-- Another device's answer to a `CBIND`, `CDELEG`, `CSTATE.home` or `CCLOSE` (R310). -/
  | home (id : Nat) (d : BitVec 8) (h : BitVec 3)
  /-- The lanes, and not the whole group, run the instruction again once the part named lets them (R358). -/
  | alone (reason : String)
  /-- An entry for a role (R318). -/
  | recv (d : BitVec 8) (h : BitVec 3) (scope : Scope)
  /-- RESOLVE of the fault record of a token (R334); 2^32 and above: a record in the die's overflow. -/
  | parked (token : Nat)
  /-- The end of a barrier phase in which it has already arrived (R284): then the instruction runs again. -/
  | rejoin (b : BarRef) (phase : Nat)
  deriving DecidableEq, Repr

/-- Lanes of a gang that wait at one instruction. -/
structure Wait where
  lanes : Mask
  pc : DWord
  kind : WaitKind
  deriving DecidableEq, Repr

/-- A line held in the instruction cache or a line buffer: twice its physical line number plus its world, its 64 bytes and
its poison (R134). -/
structure Line where
  tag : Nat
  data : BitVec 512
  poison : Bool
  deriving DecidableEq, Repr

/-- The outcome of a translation walk that ended in a fault, delivered to a requester (R217). -/
structure WalkFault where
  lanes : Mask
  /-- Virtual page number, 64 KiB pages. -/
  page : Nat
  hyp : Bool
  cause : BitVec 8
  /-- Raised by the host stage. -/
  host : Bool
  /-- The page is migrating. -/
  migrating : Bool
  deriving DecidableEq, Repr

/-- Answers of remote requests that a re-executed instruction still has to take (R257). -/
structure RemoteAnswer where
  lane : Nat
  req : Nat
  reply : ReplyKind
  deriving DecidableEq, Repr

/-- An unreported copy fault of a gang: the lane that issued the copy and the record's token (R245). A token of 2^32 and
above stands for a record that still waits in the die's overflow. -/
structure CopyFaultNote where
  lane : Nat
  batch : Nat
  /-- The copy's place in the order of issue. -/
  no : Nat
  token : Nat
  deriving DecidableEq, Repr

/-- A held remote-store fault: its tag's lane, cause and global address (R260). -/
structure HeldFault where
  lane : Nat
  cause : BitVec 8
  addr : DWord
  /-- The request's PC, and its ORIGIN of Table 17.3. -/
  pc : DWord
  origin : Nat
  deriving DecidableEq, Repr

/-- An instruction that lanes of a gang have issued: while they wait at it, it is in flight (R143). -/
structure Flight where
  lanes : Mask
  pc : DWord
  instr : Instr
  deriving DecidableEq, Repr

/-- One gang (R139). -/
structure Gang where
  block : Nat
  /-- Gang number within the block. -/
  number : Nat
  lanes : List Lane
  k : SMap Word := []
  kp : SMap Bool := []
  /-- Role registers (Table 15.5), and the numbers under which the homes on other devices know the gang in them. -/
  h : SMap DWord := []
  hids : SMap Nat := []
  alloc : Nat
  /-- Reconvergence entries 0 to 7 that are in use. -/
  reconv : SMap Reconv := []
  waits : List Wait := []
  /-- GHOLD.HOLD (Table 16.5); HELD follows from the lanes. -/
  hold : Bool := false
  /-- Number of the open batch, copies added to it, and the sealed batches that have not finished, oldest first (R242). -/
  batch : Nat := 0
  openCopies : Nat := 0
  sealed : List Nat := []
  copyFaults : List CopyFaultNote := []
  heldFaults : List HeldFault := []
  /-- Line buffer (R134). -/
  line : Option Line := none
  walkFaults : List WalkFault := []
  /-- Lines that were fetched again for lanes after a parity failure, by `Line.tag` (R135). -/
  refetched : List (Mask × Nat) := []
  /-- Instructions issued by lanes that have not issued another since (R143). -/
  flight : List Flight := []
  answers : List RemoteAnswer := []
  /-- Clk with an issuable group and no issue (R141). -/
  waited : Nat := 0
  deriving DecidableEq, Repr

/-- A barrier: its phase, and who has arrived in it, by gang and lane bit (R284). -/
structure Barrier where
  phase : Nat := 0
  arrived : SMap Mask := []
  deriving DecidableEq, Repr

/-- Run states of a sequencer (Table 10.1). -/
inductive Run where
  | idle | running | stopped
  deriving DecidableEq, Repr

/-- A sequencer stop (R198). -/
structure SeqStop where
  cause : BitVec 8
  pc : DWord
  tval : Word
  host : Bool
  migrating : Bool
  /-- The gangs of the party set when it stopped: a lane of the lowest still running takes the cause. -/
  gangs : BitVec 16
  deriving DecidableEq, Repr

/-- What a sequencer waits for. -/
inductive SeqWait where
  | none
  | rdv (n : Nat)
  /-- A counter's phase: the register that receives it, and the scope of the acquire. -/
  | monitor (d : BitVec 8) (scope : Scope)
  /-- `XGATE`: more stage credits (R252). -/
  | gate
  | walk (id : Nat)
  | refetch (line : Nat)
  deriving DecidableEq, Repr

/-- A latch of the matrix engine: 32 rows of element codes, the slot it was loaded by, its exponent and row length
(Table 10.1). -/
structure Latch where
  loaded : Bool := false
  rows : List (List Byte) := []
  slot : BitVec 3 := 0
  exp : Int := 0
  k : Nat := 0
  long : Bool := false
  poison : Bool := false
  deriving DecidableEq, Repr

/-- An accumulator: 1,024 words and one poison bit (R190). -/
structure Acc where
  words : SMap Word := []
  poison : Bool := false
  deriving DecidableEq, Repr

/-- A sequencer's own state: s or q registers, predicates, flags (Table 10.1, R248). -/
structure Seq where
  run : Run := .idle
  pc : DWord := 0
  r : SMap Word := []
  rp : SMap Bool := []
  p : BitVec 8 := 0
  pp : BitVec 8 := 0
  mflags : BitVec 7 := 0
  stop : Option SeqStop := none
  wait : SeqWait := .none
  line : Option Line := none
  walkFaults : List WalkFault := []
  /-- The line that was fetched again for it after a parity failure (R135). -/
  refetched : Option Nat := none
  /-- The first instruction is still to be checked as a FORK start (R123). -/
  checkTarget : Bool := false
  /-- It waits in its EXIT for what it has issued to complete (R195). -/
  exiting : Bool := false
  /-- Order to stop at the next RDV or AWAIT, after a cancel (Table 10.8). -/
  cancelled : Bool := false
  /-- A copy that it issued has faulted: the address of the instruction and the record's token (R254); 2^32 and above: a
  record in the die's overflow. -/
  copyFault : Option (DWord × Nat) := none
  deriving DecidableEq, Repr

/-- The party set of a block and its rendezvous points: by point, the arrived gangs' lanes, with 16 and 17 for the
matrix and copy sequencers (R193). -/
structure Party where
  gangs : BitVec 16
  matrix : Bool
  copy : Bool
  points : SMap (SMap Mask) := []
  deriving DecidableEq, Repr

/-- A block resident on a core, numbered by its core and its lowest gang slot. -/
structure Block where
  core : Nat
  ctx : Nat
  /-- TAG of the launch (R48). -/
  tag : Nat
  /-- Index of the record it was created for (R103). -/
  index : Nat
  /-- Gang slots, by gang number. -/
  slots : List Nat
  coord : List (BitVec 16) := []
  tile : DWord := 0
  /-- HINT of its record (R110). -/
  hint : Option Nat := none
  /-- The record's physical address and the node of the tile, for the retiring write (R348). -/
  recPa : Nat := 0
  tileNode : Nat := 0
  /-- An ensemble member that has retired; its resources stay reserved (R349). -/
  retired : Bool := false
  /-- Ensemble, if any, and the member number (R112). -/
  ens : Option Nat := none
  member : Nat := 0
  lsb : Nat := 0
  regs : Nat := 8
  bars : Nat := 0
  ebars : Nat := 0
  cbars : Nat := 0
  claimsMatrix : Bool := false
  claimsCopy : Bool := false
  /-- The local-store window (R218); unlisted bytes 0. -/
  ls : List Host.Cell := []
  /-- Poison of the window's 32-byte sectors. -/
  lsPoison : SMap Bool := []
  barriers : SMap Barrier := []
  party : Option Party := none
  mseq : Seq := {}
  acc : SMap Acc := []
  latchA : Latch := {}
  latchB : Latch := {}
  cseq : Seq := {}
  /-- Stage credits (R249). -/
  credits : Nat := 0
  /-- CONT of the kernel image (R334). -/
  cont : DWord := 0
  cancelled : Bool := false
  deriving DecidableEq, Repr

/-- A sector of an L1 cache (R219). -/
structure L1Sector where
  data : BitVec 256
  dirty : BitVec 32
  poison : Bool
  tag : Scope
  deriving DecidableEq, Repr

/-- A sector of an RDC (R221). -/
structure RdcSector where
  data : BitVec 256
  dirty : BitVec 32
  poison : Bool
  deriving DecidableEq, Repr

/-- A translation a TLB holds (R217): one page of the combined translation. -/
structure TlbEntry where
  hyp : Bool
  asid : Nat
  vmid : Nat
  secure : Bool
  /-- First virtual address of the page, and the base-2 logarithm of its size. -/
  va : Nat
  bits : Nat
  pa : Nat
  gR : Bool
  gW : Bool
  gX : Bool
  gU : Bool
  hR : Bool
  hW : Bool
  hX : Bool
  /-- Secure page (R24). -/
  s : Bool
  /-- Memory-side page (R222). -/
  ms : Bool
  /-- Its word is poisoned (Table 1.7): it is used no more. -/
  poison : Bool := false
  deriving DecidableEq, Repr

/-- Who waits for a walk: lanes of a gang, or a sequencer of a block. -/
inductive Requester where
  | lanes (gang : Nat) (mask : Mask)
  | seq (block : Nat) (matrix : Bool)
  deriving DecidableEq, Repr

/-- A translation walk in flight on a base die (R217). -/
structure Walk where
  node : Nat
  hyp : Bool
  asid : Nat
  vmid : Nat
  secure : Bool
  page : Nat
  requesters : List Requester
  /-- Its place in the order in which the walks of the device were asked for. -/
  no : Nat := 0
  deriving DecidableEq, Repr

/-- The engine, core, gang or block, lanes and address of the instruction being executed (the model's own). -/
structure Cursor where
  engine : Engine
  core : Nat
  /-- Gang for a thread instruction, block for a sequencer's. -/
  unit : Nat
  lanes : Mask
  pc : DWord
  deriving DecidableEq, Repr

/-- Where a watched word or an arrival counter stands: the 8-byte word of a physical address, or of a block's window. -/
inductive Place where
  | mem (word : Nat)
  | ls (block word : Nat)
  deriving DecidableEq, Repr

/-- The condition of a waiter of a monitor (R241, R294, R343). -/
inductive MonCond where
  | waita (c : WCond) (ty : Ty) (v : DWord) (off : Nat)
  | await (phase : BitVec 16)
  /-- RESOLVE of the record that holds a token. -/
  | resolve (tok : Word)
  deriving DecidableEq, Repr

/-- Who waits at a monitor. -/
inductive Waiter where
  | lane (gang lane : Nat)
  | seq (block : Nat) (matrix : Bool)
  deriving DecidableEq, Repr

/-- One waiter: who, its condition, its deadline on the die's time counter, and the value read when its wait ended. -/
structure MonWait where
  who : Waiter
  cond : MonCond
  limit : Option Nat
  ended : Option (DWord × Bool)
  deriving DecidableEq, Repr

/-- Where a monitor is held (R293): on the core, spilled to the table of the home's base die, or polling. A wait on a
counter in local store takes no monitor of the core (R241). -/
inductive MonSeat where
  | core | spilled | polling | free
  deriving DecidableEq, Repr

/-- An address monitor (R293). -/
structure Monitor where
  core : Nat
  place : Place
  seat : MonSeat
  /-- A write to the word was performed, or the monitor was armed, and its waiters are still to be evaluated. -/
  pending : Bool
  waiters : List MonWait
  /-- The step in which it was armed. -/
  armed : Nat := 0
  deriving DecidableEq, Repr

/-- A named arrival counter of a copy (R238). -/
structure CounterAt where
  block : Nat
  off : Nat
  deriving DecidableEq, Repr

/-- The page a copy has translated: its first virtual address, size, physical address and memory-side bit (R235). -/
structure CopyPage where
  va : Nat
  bits : Nat
  pa : Nat
  ms : Bool
  deriving DecidableEq, Repr

/-- Where an address points before translation (R213): a virtual address of region 000, an offset of a device's shared
window, or an offset of a block's window. -/
inductive Site where
  | va (a : Nat)
  | global (device off : Nat)
  | ls (block off : Nat)
  deriving DecidableEq, Repr

/-- A packet of a copy: its offsets from the first destination byte and from the first source byte, and its length
(R235). -/
structure Packet where
  dst : Nat
  src : Nat
  len : Nat
  deriving DecidableEq, Repr

/-- A copy in flight (R235 to R255). -/
structure Copy where
  core : Nat
  block : Nat
  ctx : Nat
  /-- 0 CPY, 1 BULK, 2 XFER, 3 XSLIDE (Table 12.1). -/
  issuer : Nat
  gang : Option Nat
  lane : Nat
  batch : Nat
  pc : DWord
  mode : Mode
  secure : Bool
  /-- Destination and source as named, and where they point; one destination for each member of a multicast. -/
  dst : DWord
  src : DWord
  dsts : List Site
  srcAt : Site
  rowLen : Nat
  rows : Nat
  dPitch : Nat
  sPitch : Nat
  /-- Its place in the order of issue, and LEN as named. -/
  no : Nat
  len : Nat := 0
  /-- Destinations are members' own stores (R255). -/
  multi : Bool := false
  /-- The row and the place in it where the piece that is being moved begins, and where the next one does. -/
  row : Nat := 0
  off : Nat := 0
  next : Nat × Nat := (0, 0)
  locator : Word := 0
  counters : List CounterAt := []
  rctr : DWord := 0
  /-- Place of a region-000 RCTR as translated at issue. -/
  rctrPa : Option Nat := none
  /-- Destination and source pages translated so far (R235). -/
  dPages : List CopyPage := []
  sPages : List CopyPage := []
  /-- Physical ranges of the destination pages translated so far, and ranges of windows (R246). -/
  held : List (Nat × Nat) := []
  lsHeld : List (Nat × Nat × Nat) := []
  /-- Packets of the current piece that are still to be performed. -/
  todo : List Packet := []
  /-- A packet to or from another device waits for its reply. -/
  awaiting : Option Nat := none
  /-- Bytes that another device's replies brought, by offset from the first source byte. -/
  arrived : SMap (List (Byte × Bool)) := []
  /-- A fault found, to be reported. -/
  fault : Option (BitVec 8 × DWord × Bool × Bool) := none
  deriving DecidableEq, Repr

/-- A spatial ensemble (R112 to R114): its launch, its dies, and its members' blocks with their halves. -/
structure Ensemble where
  tag : Nat
  anchor : Nat
  partner : Option Nat
  /-- Members in order: block and whether it lies in the partner's half. -/
  members : List (Nat × Bool)
  lsb : Nat
  ebars : Nat
  barriers : SMap Barrier := []
  /-- Halves that have signalled, by barrier: bit 0 anchor, bit 1 partner (R115). -/
  signals : SMap (BitVec 2) := []
  /-- Members that have retired (R349). -/
  retired : List Nat := []
  deriving DecidableEq, Repr

/-- PWRSET (Table 5.2). -/
structure Pwrset where
  step : BitVec 8 := 0
  weight : BitVec 8 := 0x10
  floor : BitVec 2 := 0
  deriving DecidableEq, Repr

/-- A waiting GROW: its gang slot, lanes, registers per thread and predicate, and the lanes of its issue group whose guard is
false, which wait with the others (R149, R160). -/
structure GrowWait where
  gang : Nat
  lanes : Mask
  n : Nat
  d : BitVec 3
  others : Mask := 0
  deriving DecidableEq, Repr

/-- A core: its world, power settings, caches and issue state. -/
structure Core where
  secure : Bool := false
  pwrset : Pwrset := {}
  l1 : SMap L1Sector := []
  /-- Lines of the L1, by twice the line plus the world, that are the first of their sets to be evicted (R228). -/
  first : List Nat := []
  icache : List Line := []
  utlb : List TlbEntry := []
  grow : List GrowWait := []
  /-- The gang slot that last issued in each rank of R141. -/
  last : List Nat := [15, 15, 15, 15, 15]
  /-- The second instruction of a pair that is being issued: its gang, lanes and address (R125). -/
  pair : Option (Nat × Mask × DWord) := none
  deriving DecidableEq, Repr

/-- A context's registers and the fields of its record (Tables 5.1, 16.2). -/
structure Ctx where
  /-- Physical and virtual address of its record. -/
  record : Nat := 0
  recordVa : DWord := 0
  qtable : DWord := 0
  asid : Nat := 0
  vmid : Nat := 0
  secure : Bool := false
  pwrset : Pwrset := {}
  grace : Nat := 1
  job : DWord := 0
  stvec : DWord := 0
  hdeleg : Word := 0x100
  contpc : BitVec 2 := 0
  sfq : DWord := 0
  deriving DecidableEq, Repr

/-- States of a walk (Table 6.3). -/
inductive WalkState where
  | walking | faulted | draining | complete
  deriving DecidableEq, Repr

/-- A deferred record, or a whole deferred cell with its records (R102, R112). -/
structure Deferred where
  index : Nat
  coord : List (BitVec 16)
  /-- Physical address of the record it waits on. -/
  pa : Nat
  /-- The other records of its cell that are deferred with it. -/
  others : List (Nat × List (BitVec 16)) := []
  faulted : Bool := false
  /-- Its home has told Chanter of a commit, abort or release, and Chanter has issued the new read. -/
  noticed : Bool := false
  ready : Bool := false
  deriving DecidableEq, Repr

/-- A block routed to a die and not yet placed, or a member of an ensemble cell (R100, R112). -/
structure Routed where
  index : Nat
  coord : List (BitVec 16)
  tile : DWord
  /-- Physical address of the record, node of the tile or of the replica chosen, and the die the block is routed to. -/
  pa : Nat
  home : Nat
  node : Nat
  hint : Option Nat
  created : Bool := false
  /-- A member that stands in a save area (R337). -/
  away : Bool := false
  /-- The gated cluster that was selected for it, for whose wake it waits (R111). -/
  bound : Option Nat := none
  deriving DecidableEq, Repr

/-- An ensemble cell being formed (R112): the coordinates reached, the members, and its progress. -/
structure Cell where
  reached : List (List (BitVec 16)) := []
  members : List Routed := []
  /-- Records read that became no member, by index: a cell that is deferred reads them again. -/
  absent : List (Nat × List (BitVec 16)) := []
  formed : Bool := false
  placed : Bool := false
  deriving DecidableEq, Repr

/-- A launch accepted and not yet retired (R48, R100). -/
structure Launch where
  ctx : Nat
  queue : Nat
  /-- Priority level of its queue (R90), and effective issue priority (R45). -/
  level : Nat
  prio : Nat
  /-- The launch record and the driving tensor's record, as taken at acceptance. -/
  lrec : List Byte
  drive : List Byte
  addr : DWord
  walk : WalkState := .walking
  cursor : Nat := 0
  cursorFault : Bool := false
  skip : List Nat := []
  deferred : List Deferred := []
  streams : SMap (List Routed) := []
  cells : SMap Cell := []
  barriers : SMap Barrier := []
  cancelled : Bool := false
  /-- End of GRACE on node 0's counter, once cancelled (R96). -/
  graceEnd : Option Nat := none
  killed : Nat := 0
  late : Bool := false
  /-- Cores on which a block of it has been placed (R136). -/
  ran : List Nat := []
  deriving DecidableEq, Repr

/-- A completion record as the hardware counts it (R92, R93, R360). -/
structure CRec where
  ctx : Nat
  addr : DWord
  level : Nat
  parent : DWord
  out : Nat := 0
  done : Nat := 0
  sealed : Bool := false
  started : Bool := false
  cancelReq : Bool := false
  completed : Bool := false
  notify : DWord := 0
  tag : Nat := 0
  killed : Bool := false
  late : Bool := false
  walkFault : Bool := false
  orphan : Bool := false
  /-- Writes to the record that are held: offset and bytes (R360). -/
  held : List (Nat × List Byte) := []
  reported : Bool := false
  /-- It could not be read when the device began to count it: its LEVEL, PARENT and counts are still to be taken (R360). -/
  unread : Bool := false
  /-- Its seal was asked for while it could not be read (R360). -/
  sealAsked : Bool := false
  deriving DecidableEq, Repr

/-- A graph being run by the launch processor (R94, R95). -/
structure Graph where
  ctx : Nat
  queue : Nat
  /-- Priority level of the queue when it started. -/
  level : Nat := 0
  comp : DWord
  nodes : DWord
  /-- The node records, as read at the start. -/
  recs : List (List Byte)
  /-- Pending-predecessor counts, of the nodes whose count is not yet known to be zero. -/
  pend : SMap Nat := []
  /-- Nodes that may run, nodes running, and repeats of loop nodes. -/
  ready : List Nat := []
  running : List Nat := []
  repeats : SMap Nat := []
  /-- Copy nodes under way: bytes done. -/
  copied : SMap Nat := []
  /-- Launch nodes under way: their completion record. -/
  launched : SMap DWord := []
  stopped : Bool := false
  ended : Bool := false
  deriving DecidableEq, Repr

/-- What the launch processor keeps of a queue (R88, R89). -/
structure QState where
  /-- The TAIL it has seen, or that its own `LAUNCH`es have made, and whether it has looked since EN was set. -/
  tail : Nat := 0
  known : Bool := false
  /-- The previous entry: a launch's TAG or a graph's number, until it retires. -/
  prevLaunch : Option Nat := none
  prevGraph : Option Nat := none
  deriving DecidableEq, Repr

/-- What a migration does to its record (R118, R119). -/
inductive MigKind where
  | move (ta : DWord) (len : Nat)
  | add (ta vec : DWord) (len : Nat)
  | drop (slots : BitVec 4)
  deriving DecidableEq, Repr

/-- A migration waiting for its record's claim to be released, or a copy of one in progress (R118, R119). -/
structure Migration where
  ctx : Nat
  secure : Bool
  /-- The record, by physical address, and its virtual address. -/
  pa : Nat
  recVa : DWord
  kind : MigKind
  pending : Bool
  /-- The record's STATE before the mark, and its primary copy. -/
  was : Nat := 1
  /-- Node of the destination, and where the copy reads. -/
  node : Nat := 0
  src : DWord := 0
  done : Nat := 0
  faulted : Bool := false
  deriving DecidableEq, Repr

/-- A record that waits in a die's overflow (R332): its number, its queue (0 for HFQ, context + 1 for its SFQ) and
bytes, and the gang whose lanes or copy wait for its token. -/
structure Held where
  id : Nat
  queue : Nat
  bytes : List Byte
  gang : Option Nat := none
  deriving DecidableEq, Repr

/-- An entry of a combining buffer (R258). -/
structure Combine where
  gang : Nat
  device : Nat
  base : Nat
  bytes : SMap Byte
  /-- The lane that last wrote each byte. -/
  writer : SMap Nat
  pc : DWord
  lane : Nat
  deriving DecidableEq, Repr

/-- What issued a request to another device (R257 to R262). -/
inductive Origin where
  | load | store | atom | red | gsig | rctr | conv | copy (id : Nat)
  deriving DecidableEq, Repr

/-- What one lane takes of a load's reply: its offset and length, and the bytes that it has from the combining buffer
(R223, R258). -/
structure LoadPart where
  off : Nat
  n : Nat
  own : SMap Byte := []
  deriving DecidableEq, Repr

/-- A request to another device that has not been answered. -/
structure Request where
  gang : Option Nat
  lane : Nat
  pc : DWord
  device : Nat
  seq : Nat
  offset : Nat
  kind : ReqKind
  origin : Origin
  vmid : Nat
  secure : Bool
  /-- Its place in the order of issue, and when it was sent. -/
  no : Nat := 0
  sentAt : Nat := 0
  /-- When it was first NACKed, if it was; whether it waits to be sent again, and since when; when a link of its route
  died. -/
  nacked : Option Nat := none
  idle : Bool := false
  nackAt : Nat := 0
  deadAt : Option Nat := none
  /-- The role register of a `CBIND`. -/
  reg : BitVec 3 := 0
  /-- The lane that last wrote each byte of a combining-buffer entry (R258); the lanes of a load. -/
  writer : SMap Nat := []
  parts : SMap LoadPart := []
  deriving DecidableEq, Repr

/-- A store request that has arrived at this device, as far as it is not performed: byte by byte its place, whether that is on a
memory-side page, and the byte; and the request of this device that it answers (R279). -/
structure Torn where
  writes : List ((Nat × Bool) × (Byte × Bool))
  request : Option Nat
  deriving DecidableEq, Repr

/-- A link's health (R265). -/
structure Link where
  replays : Nat := 0
  window : Nat := 0
  attempts : Nat := 0
  training : Bool := false
  dead : Bool := false
  /-- When it was declared dead. -/
  diedAt : Nat := 0
  deriving DecidableEq, Repr

/-- What the device keeps of bring-up (R20 to R23, R30): BOOT_STATUS, the length being verified, the staging window of
256 MiB, the running image's SVN and measurement, and the measurement of the loaded hypervisor. -/
structure Boot where
  locked : Bool := false
  attempts : BitVec 2 := 0
  error : BitVec 8 := 0
  stage : BitVec 4 := 0
  length : Option Nat := none
  staging : List Host.Cell := []
  svn : Nat := 0
  measurement : List Byte := []
  hypervisor : List Byte := []
  /-- Address of the attestation request in service. -/
  request : Option Nat := none
  deriving DecidableEq, Repr

/-- A power cluster (R26, R28, R111, R147): PASSCNT's fields, gating, self-test and monitors. Its placement claim PCLAIM follows
from the blocks that wait for its wake. -/
structure Cluster where
  hmin : BitVec 2 := 0
  bel : BitVec 2 := 0
  gated : Bool := false
  waking : Bool := false
  /-- When its last gang left. -/
  idleSince : Nat := 0
  /-- In its self-test slot. -/
  testing : Bool := false
  /-- Taken out of placement by a failed test. -/
  out : Bool := false
  celsius : Int := 0
  ringCount : Nat := 0
  deriving DecidableEq, Repr

/-- A die's clock, its Bellows and its monitors (R26, R110): the preference list, the layer currents it was built from,
the layer voltages, by cluster, and the mid-rails' distances from half the rail and shunts of its sixteen pairs. -/
structure Die where
  stopped : Bool := false
  prefs : List Nat := List.range 32
  currents : List Nat := []
  /-- By how much the sum of the currents rose at the last reading, and when that was (R15). -/
  rise : Int := 0
  riseAt : Nat := 0
  shunts : BitVec 16 := 0
  millivolts : SMap Nat := []
  midRail : SMap Nat := []
  /-- When its power region last alarmed for droop. -/
  droopAt : Nat := 0
  /-- TAG of the launch that the dispatcher placed a block of last (R90). -/
  turn : Nat := 0
  deriving DecidableEq, Repr

/-- A message or notice (R299, R304). -/
structure Entry where
  seq : Word
  notice : Bool
  sender : BitVec 4
  kind : BitVec 8
  mask : Mask
  words : SMap Word
  deriving DecidableEq, Repr

/-- The gang that holds a role: on this device, or on another. -/
structure Holder where
  device : Option Nat
  gang : Nat
  deriving DecidableEq, Repr

/-- A role at its home (R303, R307): PENDING while it has no holder. -/
structure Role where
  holder : Option Holder := none
  token : BitVec 16 := 0
  credits : Nat := 8
  /-- Credits on their way back. -/
  owed : Nat := 0
  /-- Entries at the home, lowest SEQ first. -/
  queue : List Entry := []
  /-- Entries delivered to a holder on another device and not yet taken. -/
  away : List Entry := []
  deriving DecidableEq, Repr

/-- A send that has arrived at its home and is not yet judged (R305), with the number that its gang or its device gave
it. -/
structure Send where
  id : Nat
  who : Holder
  lanes : Mask
  gen : Nat
  role : Nat
  kind : BitVec 8
  words : SMap Word
  deriving DecidableEq, Repr

/-- States of a conversation home (R301). -/
inductive HomeStatus where
  | free | opened | closed
  deriving DecidableEq, Repr

/-- A conversation home (R301 to R311), with its protocol table as `CLOAD` copied it. -/
structure Home where
  gen : Nat := 0
  status : HomeStatus := .free
  ctx : Nat := 0
  vmid : Nat := 0
  table : List Byte := []
  st : Nat := 0
  seq : Word := 0
  roles : List Role := []
  rbase : DWord := 0
  rlen : DWord := 0
  /-- Roles whose delivery has stalled. -/
  stalled : BitVec 16 := 0
  /-- It stands in the base die's spill table, and when it was last used. -/
  spilled : Bool := false
  used : Nat := 0
  sends : List Send := []
  deriving DecidableEq, Repr

/-- A copy fault's token: the gang that issued the copy, none for the copy sequencer's, and the residual that `FRESUME` issues
(R247, R343). -/
structure CopyToken where
  gang : Option Nat
  residual : Copy
  deriving DecidableEq, Repr

/-- A context save or load under way on a die (R337). -/
structure SaveJob where
  load : Bool
  ctx : Nat
  /-- The hypervisor's address of the area, and the world of its accesses. -/
  area : DWord
  secure : Bool
  /-- PWRSET to save. -/
  pwrset : Pwrset := {}
  /-- Bytes of the area used so far, blocks done, and killed. -/
  used : Nat
  blocks : Nat := 0
  killed : Nat := 0
  graceEnd : Nat := 0
  expired : Bool := false
  /-- Images and entries of blocks not placed that a load still has to take. -/
  todo : Nat := 0
  entries : Nat := 0
  deriving DecidableEq, Repr

/-- A waiter of a monitor as an evicted block keeps it (Table 16.8): its gang's number in the block and its lane, or none
and 1 for the matrix sequencer or 0 for the copy sequencer; whether its word stands in the block's own window; its
condition, what is left of its limit, and how its wait has ended. -/
structure SavedWait where
  gang : Option Nat
  lane : Nat
  place : Place
  own : Bool
  free : Bool
  cond : MonCond
  left : Option Nat
  ended : Option (DWord × Bool)
  deriving DecidableEq, Repr

/-- A block as it stands in a save area: where its image begins in memory, the number of the step that wrote its bytes,
which are the device's own, and whether it has not been restored yet; its gangs, by number; and its waiters (R337). -/
structure Saved where
  node : Nat
  pa : Nat
  wrote : Nat
  size : Nat
  out : Bool
  block : Block
  gangs : List Gang
  waiters : List SavedWait := []
  /-- The gated cluster that was selected for its return, for whose wake it waits (R111). -/
  bound : Option Nat := none
  deriving DecidableEq, Repr

/-- A block routed and not placed, as it stands in a save area: its launch, and the number of the step that wrote its
entry (R337). -/
structure SavedEntry where
  tag : Nat
  /-- The ensemble cell of a member. -/
  cell : Option Nat := none
  wrote : Nat
  out : Bool
  block : Routed
  deriving DecidableEq, Repr

/-- The reasons a step of the model stops. -/
inductive Fault where
  /-- Raised by a device event whose operands name a part that the device does not have (a node above 127, a core above
  511). Safe: no such event happens on the hardware. -/
  | noSuchPart
  deriving DecidableEq, Repr

/-- The reasons the model gives an instruction no meaning. -/
inductive Refusal where
  /-- Raised by the dispatcher for a row of the opcode table that the model does not give a meaning. Safe: nothing is
  claimed of it. -/
  | notModelled (mnemonic : String)
  deriving DecidableEq, Repr

/-- The state of the device. -/
structure State where
  /-- Number of the step: what the free values of Config are applied to (the model's own). -/
  ctr : Nat := 0
  /-- Events from outside that have not been taken yet, first to come first (the model's own). -/
  inputs : List Instr := []
  now : Nat := 0
  hbm : List Host.Cell := []
  hbmPoison : SMap Bool := []
  elide : SMap (BitVec 2) := []
  elideConst : SMap Word := []
  /-- The home L2s' valid sectors with their poison, and the bytes of each that are still to be written back (R221, R224). -/
  l2 : SMap Bool := []
  l2Dirty : SMap (BitVec 32) := []
  rdc : SMap RdcSector := []
  stlb : SMap (List TlbEntry) := []
  walks : SMap Walk := []
  cores : SMap Core := []
  gangs : SMap Gang := []
  blocks : SMap Block := []
  ctxs : SMap Ctx := []
  /-- The context each die runs (R337). -/
  dieCtx : SMap Nat := []
  /-- The instruction being executed (the model's own). -/
  cur : Option Cursor := none
  monitors : SMap Monitor := []
  copies : SMap Copy := []
  ensembles : SMap Ensemble := []
  htvec : DWord := 0
  hfq : DWord := 0
  /-- The device's own copy of each fault queue's TAIL, and each die's overflow (R332). -/
  fqTail : SMap Nat := []
  overflow : SMap (List Held) := []
  launches : SMap Launch := []
  crecs : SMap CRec := []
  graphs : SMap Graph := []
  queues : SMap QState := []
  migrations : SMap Migration := []
  /-- Drone's next ticket (R278). -/
  ticket : Nat := 0
  /-- Combining buffers by core, requests outstanding, next sequence numbers by device, and the duplicate windows by
  source: number and recorded reply (R258, R261). -/
  combine : SMap (List Combine) := []
  requests : SMap Request := []
  /-- Stores of requests that have arrived and are not performed whole (R279). -/
  torn : List Torn := []
  seqNext : SMap Nat := []
  dups : SMap (List (Nat × ReplyKind)) := []
  links : SMap Link := []
  boot : Boot := {}
  clusters : SMap Cluster := []
  dies : SMap Die := []
  /-- Current-step limits of the power regions, in units of 8 A (R15). -/
  limits : SMap Nat := []
  /-- A die's time counter minus node 0's, in ps (R16, R266). -/
  skew : SMap Int := []
  /-- Corrected errors, by class of structure (R27, R135), and the single errors that are in place and not yet
  corrected. -/
  corrected : SMap Nat := []
  latent : List (FaultUnit × Nat) := []
  /-- Times that an MSI-X vector has been signalled (R19, R332), by 2,048 times the function, 0 and 1 for the PFs of the two
  ports and k + 1 for virtual function k, plus the vector. -/
  msix : SMap Nat := []
  /-- Poisoned words of the conversation-home SRAMs, by 2^32 times the node plus the word (Table 1.7). -/
  homePoison : SMap Bool := []
  /-- Host accesses that a secure page aborted, as logged to the hypervisor: VMID and address (R25). -/
  abortLog : List (Nat × Nat) := []
  /-- Conversation homes; receive stores and entries on their way back to a home, by handle and role; roles of homes on
  other devices that have ended (R301 to R313). -/
  homes : SMap Home := []
  recv : SMap (List Entry) := []
  back : SMap (List Entry) := []
  convEnded : SMap Bool := []
  /-- RBASE and RLEN of the conversations of other devices' homes in which this device holds roles, by handle and role (R309). -/
  convRegion : SMap (Nat × Nat) := []
  /-- Tokens of faulted copies, by `tokenKey`. -/
  copyTokens : SMap CopyToken := []
  /-- Number of the next record held in an overflow (the model's own). -/
  heldNext : Nat := 0
  saves : SMap SaveJob := []
  images : SMap Saved := []
  unplaced : SMap SavedEntry := []
  deriving DecidableEq, Repr

/-- The canonical form of a byte memory: addresses strictly rising and no entry equal to what an unlisted byte reads
as. -/
def Memory.wf (m : List Host.Cell) : Bool := SMap.wf (0 : Byte) m

/-- The canonical form of every byte memory of the device: DRAM, the staging window, and the windows of the blocks, those
in save areas with them. -/
def State.memoryWf (s : State) : Bool :=
  Memory.wf s.hbm && Memory.wf s.boot.staging && (s.blocks.all fun b => Memory.wf b.2.ls) &&
    s.images.all fun i => Memory.wf i.2.block.ls

/-- The device right after power-up reset (R4, R16): every field at its reset value, nothing placed, no context. A
register with a reset value other than 0 has it through its structure's default: HDELEG 0x100 (R328),
WEIGHT 0x10 (Table 5.2), the elision codes 01 (R224). -/
def State.reset : State := {}

end Sys2Proof.Machine
end

