-- ==== Sys2Proof/Machine/Panel.lean ====
section
/-! DEFINITION. The panel and the fabric's links (R8 to R13, R264, R265): where the dies stand, which dies a link joins, the edge
dies' ports, and the routes that the live links leave. -/

namespace Sys2Proof.Machine

-- Positions (R8, R9)

/-- Distance of two numbers. -/
def apart (a b : Nat) : Nat := (a - b) + (b - a)

/-- Whether a position of the grid of 16 × 16 holds a compute die; the others hold a memory base die with its stack (R8). -/
def holdsCompute (row col : Nat) : Bool := (row + col) % 2 == 0

/-- Row and column of a node's compute die (R9). -/
def dieAt (n : Nat) : Nat × Nat := (n / 8, 2 * (n % 8) + n / 8 % 2)

/-- Row and column of a node's memory stack, right of the compute die in an even row and left of it in an odd one (R9). -/
def stackAt (n : Nat) : Nat × Nat := (n / 8, 2 * (n % 8) + 1 - n / 8 % 2)

/-- The node that a position belongs to. -/
def nodeOfPosition (row col : Nat) : Nat := 8 * row + col / 2

/-- The position of the ticket sequencer's die (R11). -/
def droneAt : Nat × Nat := stackAt 0

/-- Hops between two compute dies (R10). -/
def hops (m n : Nat) : Nat := (apart (dieAt m).1 (dieAt n).1 + apart (dieAt m).2 (dieAt n).2) / 2

/-- Whether two compute dies are adjacent (R10). -/
def adjacent (m n : Nat) : Bool := hops m n == 1

/-- The power cluster of a layer of a stacked pair of a die: 2k above, 2k + 1 below (R13). -/
def layerCluster (pair : Nat) (upper : Bool) : Nat := 2 * pair + if upper then 0 else 1

-- Edge dies (R12, Table 1.2)

/-- A die of the panel: at a position of the grid, or an edge die. -/
inductive PanelDie where
  | grid (row col : Nat)
  | edge (n : Nat)
  deriving DecidableEq, Repr

/-- The edge die that faces a border position on a side: 0 top, 1 right, 2 bottom, 3 left; four positions each, clockwise. -/
def edgeFacing (side row col : Nat) : Nat :=
  match side with
  | 0 => col / 4
  | 1 => 4 + row / 4
  | 2 => 8 + (15 - col) / 4
  | _ => 12 + (15 - row) / 4

/-- The host port of an edge die. -/
def hostPortOf (e : Nat) : Option Nat := if e = 0 then some 0 else if e = 8 then some 1 else none

/-- The local ports on an edge die (R264): port 0 on die 0, and 2e - 1 and 2e on die e. -/
def localPortsOf (e : Nat) : List Nat := if e = 0 then [0] else [2 * e - 1, 2 * e]

/-- The edge die of a local port, and of a global port of a device (R264). -/
def edgeOfLocal (port : Nat) : Nat := (port + 1) / 2
def edgeOfGlobal (port : Nat) : Nat := port / 16

/-- The boot ROM, the fuses, the reference clock input and the management port. -/
def bootEdge : Nat := 0

-- Links by number (R264, R265): local port j is link j, global port j is link 32 + j; a hop between grid neighbours is
-- 512 + 2 p to the right and 512 + 2 p + 1 downwards of position p = 16 row + col; the hop of a border memory base die to
-- the edge die that it faces is 1024 + 4 p + side.

/-- The dies that a link on the panel joins. -/
def panelLink (l : Nat) : Option (PanelDie × PanelDie) :=
  if 512 ≤ l ∧ l < 1024 then
    let p := (l - 512) / 2
    let r := p / 16
    let c := p % 16
    if l % 2 = 0 then (if c < 15 then some (.grid r c, .grid r (c + 1)) else none)
    else if r < 15 then some (.grid r c, .grid (r + 1) c) else none
  else if 1024 ≤ l ∧ l < 2048 then
    let p := (l - 1024) / 4
    let side := l % 4
    let r := p / 16
    let c := p % 16
    let border := match side with
      | 0 => r == 0
      | 1 => c == 15
      | 2 => r == 15
      | _ => c == 0
    if border && !holdsCompute r c then some (.grid r c, .edge (edgeFacing side r c)) else none
  else none

/-- The hop between neighbouring positions. -/
def hopLink (a b : Nat × Nat) : Nat :=
  let lo := if a.1 + a.2 ≤ b.1 + b.2 then a else b
  512 + 2 * (16 * lo.1 + lo.2) + if a.1 = b.1 then 0 else 1

/-- The positions beside a position. -/
def besides (p : Nat × Nat) : List (Nat × Nat) :=
  (if p.1 = 0 then [] else [(p.1 - 1, p.2)]) ++ (if p.2 = 0 then [] else [(p.1, p.2 - 1)]) ++
    (if p.2 = 15 then [] else [(p.1, p.2 + 1)]) ++ (if p.1 = 15 then [] else [(p.1 + 1, p.2)])

/-- Member and group of this device. -/
def ownMember : Nat := Config.deviceNumber.toNat % 32
def ownGroup : Nat := Config.deviceNumber.toNat / 32

/-- The device and the port at the far end of a local port of a device (R264). -/
def localEnd (device port : Nat) : Nat × Nat := (device / 32 * 32 + (device % 32 + 1 + port) % 32, 30 - port)

/-- The group that a global port of a member of a group is for, p = 256 m + j; none where the port is idle (R264). -/
def globalGroup (device port : Nat) : Option Nat :=
  let p := 256 * (device % 32) + port
  if p = device / 32 || Config.groups ≤ p then none else some p

/-- The device and the port at the far end of a global port: it arrives in group p at the port for group g. -/
def globalEnd (device port : Nat) : Option (Nat × Nat) :=
  let g := device / 32
  (globalGroup device port).map fun p => (32 * p + g / 256, g % 256)

/-- Whether a link of this device exists and carries traffic. -/
def linkInUse (l : Nat) : Bool :=
  l < 31 || (32 ≤ l && l < 288 && (globalGroup Config.deviceNumber.toNat (l - 32)).isSome) || (panelLink l).isSome

/-- Whether a number names a link of this device, idle ports among them. -/
def isLink (l : Nat) : Bool := l < 31 || (32 ≤ l && l < 288) || (panelLink l).isSome

-- Which links are up

/-- A link of another device, as a route notice names it: 4096 (device + 1) + link. -/
def farLink (device link : Nat) : Nat := 4096 * (device + 1) + link

/-- Whether a link, named from a device's end, has been declared dead at either end. -/
def State.linkDead (s : State) (device link : Nat) : Bool :=
  let at_ := fun (d l : Nat) =>
    if d = Config.deviceNumber.toNat then (s.links.get {} l).dead else (s.links.get {} (farLink d l)).dead
  let far := if link < 32 then some (localEnd device link) else (globalEnd device (link - 32)).map fun e => (e.1, 32 + e.2)
  at_ device link || far.any fun e => at_ e.1 e.2

/-- The local link from a device to a member of its group. -/
def localLink (device member : Nat) : Nat := (member + 63 - device % 32) % 32

/-- A hop within a group, as device and link; none where the two are one. -/
def localHop (device member : Nat) : List (Nat × Nat) :=
  if device % 32 = member then [] else [(device, localLink device member)]

/-- The hops from a device to another group and the device at which they arrive: a local hop to the member whose port is
for the group, and the global hop. -/
def groupHops (device group : Nat) : List (Nat × Nat) × Nat :=
  let at_ := device / 32 * 32 + group / 256
  (localHop device (group / 256) ++ [(at_, 32 + group % 256)], 32 * group + device / 32 / 256)

/-- The minimal route between two devices (R265). -/
def minimalRoute (source target : Nat) : List (Nat × Nat) :=
  if source / 32 = target / 32 then localHop source (target % 32)
  else
    let (hs, d) := groupHops source (target / 32)
    hs ++ localHop d (target % 32)

/-- The route through another group. -/
def detour (source target group : Nat) : List (Nat × Nat) :=
  let (hs, d) := groupHops source group
  let (hs', d') := groupHops d (target / 32)
  hs ++ hs' ++ localHop d' (target % 32)

/-- Whether every link of a route is up. -/
def State.routeUp (s : State) (route : List (Nat × Nat)) : Bool := route.all fun h => !s.linkDead h.1 h.2

/-- The lowest-numbered group other than two that satisfies a condition. -/
def lowestGroup (a b : Nat) (ok : Nat → Bool) : Option Nat :=
  (List.range Config.groups).find? fun g => g != a && g != b && ok g

/-- The route that traffic takes to another device: the minimal one, or where a link of it is dead the one through the
lowest-numbered group whose two global links are up; none where that is not whole either (R265). -/
def State.route (s : State) (source target : Nat) : Option (List (Nat × Nat)) :=
  let direct := minimalRoute source target
  if s.routeUp direct then some direct
  else if source / 32 = target / 32 then none
  else
    let global := fun (r : List (Nat × Nat)) => r.filter fun h => 32 ≤ h.2
    match lowestGroup (source / 32) (target / 32) fun g => s.routeUp (global (detour source target g)) with
    | none => none
    | some g => if s.routeUp (detour source target g) then some (detour source target g) else none

/-- The device's own links that a request to a device travels by; none where no route is whole. -/
def State.routeTo (s : State) (target : Nat) : Option (List Nat) :=
  (s.route Config.deviceNumber.toNat target).map fun r =>
    (r.filter fun h => h.1 == Config.deviceNumber.toNat).map (·.2)

-- Routes within the device (R265)

/-- The positions that `n` hops over live links reach. -/
def State.spread (s : State) : Nat → List (Nat × Nat) → List (Nat × Nat)
  | 0, ps => ps
  | n + 1, ps =>
    let next := (ps.map fun p => (besides p).filter fun q => !(s.links.get {} (hopLink p q)).dead).flatten
    s.spread n ((ps ++ next).dedup)

/-- Whether no hop of the panel is dead. -/
def State.panelWhole (s : State) : Bool := s.links.all fun l => !l.2.dead || l.1 < 512 || 1024 ≤ l.1

/-- Whether traffic from a node's compute die still reaches another node's base die: by a shortest path, or by one two hops
longer. -/
def State.nodesJoined (s : State) (m n : Nat) : Bool :=
  s.panelWhole ||
    let a := dieAt m
    let b := stackAt n
    (s.spread (apart a.1 b.1 + apart a.2 b.2 + 4) [a]).contains b

end Sys2Proof.Machine
end

