-- ==== Sys2Proof/Machine/Shapes.lean ====
section
/-! DEFINITION. The shape of an instruction: the registers it names and how far they reach, the engines and the
mode that its OP needs (Table 7.10), and the special registers of Tables 8.2 and 16.2. Decoding, the allocation check
and well-formedness read these. -/

namespace Sys2Proof

/-- Width in bits of one element of a type (R50, R165). -/
def Ty.width : Ty → Nat
  | .i8 | .n8 => 8
  | .i16 | .n16 | .bf16 | .f16 => 16
  | .i32 | .n32 | .f32 | .bf16x2 | .f16x2 => 32
  | .i64 | .n64 => 64

/-- Types held in an aligned pair. -/
def Ty.is64 : Ty → Bool
  | .i64 | .n64 => true
  | .i8 | .i16 | .i32 | .n8 | .n16 | .n32 | .f32 | .bf16 | .f16 | .bf16x2 | .f16x2 => false

/-- The `.i` types. -/
def Ty.signed : Ty → Bool
  | .i8 | .i16 | .i32 | .i64 => true
  | .n8 | .n16 | .n32 | .n64 | .f32 | .bf16 | .f16 | .bf16x2 | .f16x2 => false

/-- The integer types, codes 0x0 to 0x7. -/
def Ty.isInt : Ty → Bool
  | .i8 | .i16 | .i32 | .i64 | .n8 | .n16 | .n32 | .n64 => true
  | .f32 | .bf16 | .f16 | .bf16x2 | .f16x2 => false

/-- The floating types, codes 0x8 to 0xC. -/
def Ty.isFloat (t : Ty) : Bool := !t.isInt

/-- The packed types. -/
def Ty.packed : Ty → Bool
  | .bf16x2 | .f16x2 => true
  | .i8 | .i16 | .i32 | .i64 | .n8 | .n16 | .n32 | .n64 | .f32 | .bf16 | .f16 => false

/-- The scalar floating types. -/
def Ty.scalarFloat (t : Ty) : Bool := t.isFloat && !t.packed

/-- The scalar 16-bit floating types, whose immediate has its upper half zero (R128). -/
def Ty.half : Ty → Bool
  | .bf16 | .f16 => true
  | .i8 | .i16 | .i32 | .i64 | .n8 | .n16 | .n32 | .n64 | .f32 | .bf16x2 | .f16x2 => false

/-- The four 32- and 64-bit integer types. -/
def Ty.int3264 (t : Ty) : Bool := t.isInt && (t.width == 32 || t.width == 64)

/-- Types of an atomic add (Table 14.2). -/
def Ty.atomAdd (t : Ty) : Bool := t.int3264 || t == .f32 || t.packed

/-- Registers one element of the type takes: two for 64 bits. -/
def Ty.regs (t : Ty) : Nat := if t.is64 then 2 else 1

/-- Bytes of one element in memory. -/
def Ty.bytes (t : Ty) : Nat := t.width / 8

/-- Elements of a memory instruction (R228). -/
def Count.n : Count → Nat
  | .one => 1
  | .v2 => 2
  | .v4 => 4

/-- A scope at least as wide as die. -/
def Scope.wide : Scope → Bool
  | .gang | .blk => false
  | .die | .pkg | .sys => true

/-- A scope at least as wide as pkg. -/
def Scope.pkgWide : Scope → Bool
  | .gang | .blk | .die => false
  | .pkg | .sys => true

/-- A general register operand as the checks of R130 see it: bank, first number, registers reached, and whether the
number must be even. -/
structure RegUse where
  k : Bool
  n : Nat
  count : Nat
  even : Bool
  deriving DecidableEq, Repr

/-- One register. -/
def one (r : Reg) : RegUse := ⟨r.k, r.n.toNat, 1, false⟩
/-- One aligned pair. -/
def pair (r : Reg) : RegUse := ⟨r.k, r.n.toNat, 2, true⟩
/-- One register of the unbanked kind: x, s or q. -/
def oneX (n : BitVec 8) : RegUse := ⟨false, n.toNat, 1, false⟩
/-- One pair of the unbanked kind. -/
def pairX (n : BitVec 8) : RegUse := ⟨false, n.toNat, 2, true⟩
/-- A register that carries the type `t`: a pair when it has 64 bits. -/
def ofTy (t : Ty) (r : Reg) : RegUse := if t.is64 then pair r else one r
/-- A run of `n` elements of type `t` (R228). -/
def runOf (t : Ty) (n : Nat) (r : Reg) : RegUse := ⟨r.k, r.n.toNat, n * t.regs, t.is64⟩
/-- A B operand of one register, when it is a register. -/
def oneS : Src → List RegUse
  | .reg r => [one r]
  | .imm _ => []
/-- A B operand that carries the type. -/
def ofTyS (t : Ty) : Src → List RegUse
  | .reg r => [ofTy t r]
  | .imm _ => []

/-- Bits of a special register (Table 8.2); none where the number is unassigned. -/
def specialWidth (n : Nat) : Option Nat :=
  if n = 0x06 then some 64 else if n ≤ 0x13 then some 32 else none

/-- The engines Table 8.2 lists for a special register. -/
def specialOn (n : Nat) : Engine → Bool
  | .thread => n ≤ 0x13 && n != 0x11
  | .matrix => (0x02 ≤ n && n ≤ 0x0C) || n == 0x0E || n == 0x11
  | .copy => (0x02 ≤ n && n ≤ 0x0C) || n == 0x0E

/-- The RW special registers (Table 8.2). -/
def specialRW (n : Nat) : Bool := n == 0x10 || n == 0x11

/-- Bits of a privileged register (Table 16.2); none where the number is unassigned. -/
def privWidth (n : Nat) : Option Nat :=
  if n ∈ [0x00, 0x02, 0x04, 0x05, 0x06, 0x07, 0x08, 0x0A, 0x10, 0x12, 0x14, 0x15, 0x16, 0x17, 0x20, 0x21, 0x2A, 0x2B]
  then some 64
  else if n ∈ [0x01, 0x03, 0x09, 0x0B, 0x11, 0x13, 0x22, 0x23, 0x24, 0x25, 0x26, 0x27, 0x28, 0x29] then some 32
  else none

/-- The mode a read of a privileged register needs (Table 16.2). -/
def privReadMode (n : Nat) : Mode :=
  if n ∈ [0x10, 0x11, 0x12, 0x13, 0x14, 0x15, 0x16, 0x17, 0x21, 0x2B] then .hypervisor else .supervisor

/-- The mode a write of a privileged register needs (Table 16.2). -/
def privWriteMode (n : Nat) : Mode :=
  if n ∈ [0x10, 0x11, 0x12, 0x13, 0x14, 0x15, 0x16, 0x17, 0x21, 0x22, 0x23, 0x24, 0x25, 0x26, 0x27, 0x2B]
  then .hypervisor else .supervisor

/-- GHOLD's number (Table 16.2). -/
def gholdNumber : BitVec 8 := 0x29

/-- The engines of a row of Table 7.10; no engine where the OP is unassigned or reserved. -/
def opEngines (op : Nat) : List Engine :=
  if op ∈ [0x00, 0x01, 0x07, 0x09, 0x10, 0x11, 0x12, 0x20, 0x21, 0x22, 0x28, 0x29, 0x2A, 0x2B, 0x2C, 0x2D,
    0x96, 0x97, 0xA0, 0xA1] then [.thread, .matrix, .copy]
  else if op = 0x23 then [.thread, .matrix]
  else if 0x98 ≤ op ∧ op ≤ 0x9B then [.copy]
  else if 0xC0 ≤ op ∧ op ≤ 0xC7 then [.matrix]
  else if op ≤ 0x13 ∨ (0x20 ≤ op ∧ op ≤ 0x34) ∨ (0x50 ≤ op ∧ op ≤ 0x64) ∨ (0x80 ≤ op ∧ op ≤ 0x85) ∨
    (0x90 ≤ op ∧ op ≤ 0x95) ∨ (0xA2 ≤ op ∧ op ≤ 0xA5) ∨ (0xB0 ≤ op ∧ op ≤ 0xB7) ∨ (0xD0 ≤ op ∧ op ≤ 0xD2) ∨
    (0xE0 ≤ op ∧ op ≤ 0xEE) then [.thread]
  else []

/-- The least mode of a row of Table 7.10. -/
def opMode (op : Nat) : Mode :=
  if op ∈ [0xE3, 0xEA, 0xEB] then .hypervisor
  else if op ∈ [0xB7, 0xE1, 0xE2, 0xE4, 0xE5, 0xE6, 0xE8, 0xEC, 0xED, 0xEE] then .supervisor
  else .user

/-- Rank of a mode; a higher rank has every privilege of a lower one (R3). -/
def Mode.rank : Mode → Nat
  | .user => 0
  | .supervisor => 1
  | .hypervisor => 2

/-- The general registers an instruction names or reaches, for R130 and row 5 of Table 7.9. The runs of `CVTN` and
`CVTW` count with their first register only (R185). -/
def Instr.regs (e : Engine) : Instr → List RegUse
  | .nop _ | .isync _ | .bra _ _ | .reconvImm _ _ | .exit _ | .rdv _ _ => []
  | .brx _ a | .ret _ a => [pair a]
  | .call _ d _ => [pairX d]
  | .callx _ d a => [pairX d, pair a]
  | .reconvReg _ a => [one a]
  | .fork _ d _ _ _ => [oneX d]
  | .voteAny _ _ _ _ | .voteAll _ _ _ _ => []
  | .voteBallot _ _ d _ | .voteCnt _ _ d _ => [oneX d]
  | .voteEq _ _ _ a => [one a]
  | .shflPick _ _ d a b c | .shflFwd _ _ d a b c | .shflBack _ _ d a b c | .shflFlip _ _ d a b c
  | .shflRot _ _ d a b c => [oneX d, one a, one c] ++ oneS b
  | .redux _ _ _ d a => [oneX d, one a]
  | .bmaskSelf _ d | .bmaskPre _ _ d | .bmaskPost _ _ d | .bmaskSeg _ _ d | .bmaskGrp _ d => [oneX d]
  | .bmaskSpan _ d b => [oneX d] ++ oneS b
  | .grow _ _ _ | .growTry _ _ _ | .shrink _ _ => []
  | .gets _ w d _ => [if w then pairX d else oneX d]
  | .sets _ _ a => [one a]
  | .plogAnd _ _ _ _ | .plogOr _ _ _ _ | .plogXor _ _ _ _ | .plogAndn _ _ _ _ | .plogOrn _ _ _ _
  | .plogNot _ _ _ | .plogSet _ _ _ => []
  | .mov _ t d b => [ofTy t d] ++ ofTyS t b
  | .add _ t _ d a b | .sub _ t _ d a b | .mul _ t _ d a b => [ofTy t d, ofTy t a] ++ ofTyS t b
  | .mad _ t d a b c => [ofTy t d, ofTy t a, ofTy t c] ++ ofTyS t b
  | .madWide _ _ d a b c => [pair d, one a, pair c] ++ oneS b
  | .mulhi _ t d a b | .div _ t d a b | .rem _ t d a b | .and _ t d a b | .or _ t d a b | .xor _ t d a b =>
    [ofTy t d, ofTy t a] ++ ofTyS t b
  | .shfShl _ t d a b | .shfShr _ t d a b | .shfRotl _ t d a b | .shfRotr _ t d a b => [ofTy t d, ofTy t a] ++ oneS b
  | .cmp _ _ t _ a b => [ofTy t a] ++ ofTyS t b
  | .sel _ t d a b _ => [ofTy t d, ofTy t a] ++ ofTyS t b
  | .min _ t d a b | .max _ t d a b => [ofTy t d, ofTy t a] ++ ofTyS t b
  | .abs _ t _ d a => [ofTy t d, ofTy t a]
  | .bitcPopc _ t d a | .bitcClz _ t d a | .bitcCtz _ t d a => [one d, ofTy t a]
  | .bitcBrev _ t d a => [ofTy t d, ofTy t a]
  | .bfe _ t d a b => [ofTy t d, ofTy t a] ++ oneS b
  | .bfi _ t d a b c => [ofTy t d, ofTy t a, ofTy t c] ++ oneS b
  | .lea _ t d a b _ => [pair d, pair a] ++ ofTyS t b
  | .fadd _ _ _ d a b | .fsub _ _ _ d a b | .fmul _ _ _ d a b | .fdiv _ _ _ d a b => [one d, one a] ++ oneS b
  | .ffma _ _ _ d a b c => [one d, one a, one c] ++ oneS b
  | .fmin _ _ d a b | .fmax _ _ d a b | .fsgnCopy _ _ d a b | .fsgnXor _ _ d a b => [one d, one a] ++ oneS b
  | .fcmp _ _ _ _ a b => [one a] ++ oneS b
  | .fsgnNeg _ _ d a | .fsgnAbs _ _ d a | .fsqrt _ _ _ d a | .frcp _ d a | .frsq _ d a | .fexp2 _ d a
  | .flog2 _ d a | .fsin _ d a | .fcos _ d a | .fclass _ _ d a | .frnd _ _ _ d a => [one d, one a]
  | .cvt _ dt sty _ _ d a => [ofTy dt d, ofTy sty a]
  | .cvtPacked _ _ _ _ d a b => [one d, one a] ++ oneS b
  | .cvtSlot _ dt sty _ d a => [ofTy dt d, ofTy sty a]
  | .cvtn _ _ _ d a c => [one d, oneX a, one c]
  | .cvtw _ _ _ d a c => [oneX d, one a, one c]
  | .ld _ cnt t _ _ d a _ => [runOf t cnt.n ⟨false, d⟩, pair a]
  | .st _ cnt t _ _ a b _ => [pair a, runOf t cnt.n b]
  | .ldk _ cnt t _ d a _ => [runOf t cnt.n ⟨true, d⟩, pair ⟨true, a⟩]
  | .pref _ _ a _ | .cflush _ _ a _ | .cflushInv _ _ a _ | .cinv _ _ a _ => [pair a]
  | .cpy _ a b c _ => [pair a, pair b, one c]
  | .cpseal _ | .cpwait _ _ | .stage _ _ => []
  | .bulk _ a b => [⟨true, a.toNat, 8, true⟩] ++ oneS b
  | .outst _ d => [oneX d]
  | .arrive _ _ a b _ => [if e = .thread then pair a else one a, one b]
  | .arriveAnn _ _ a b c _ => [if e = .thread then pair a else one a, one b, one c]
  | .await _ _ d a b _ => [oneX d, if e = .thread then pair a else one a, one b]
  | .xfer _ a b c _ => [pairX a, pairX b, oneX c]
  | .xfer2d _ a b c _ => [pairX a, pairX b, pairX c]
  | .xslide _ a b c _ => [oneX a, pairX b, pairX c]
  | .xgate _ _ => []
  | .xbump _ d b => [pairX d] ++ oneS b
  | .xbumpRing _ d a b => [oneX d, oneX a] ++ oneS b
  | .fence _ _ | .fencex _ _ _ | .barGang _ | .barBlk _ _ | .barBlkArv _ _ | .barEns _ _ | .barEnsArv _ _
  | .barCoop _ _ => []
  | .atom _ _ t _ _ _ _ d a b _ => [ofTy t d, pair a, ofTy t b]
  | .atomCas _ t _ _ _ _ d a b c _ => [ofTy t d, pair a, ofTy t b, ofTy t c]
  | .red _ _ t _ _ _ _ a b _ => [pair a, ofTy t b]
  | .waita _ _ t _ d a b c _ => [ofTy t ⟨false, d⟩, pair a, ofTy t b, one c]
  | .cbind _ d _ b c => [oneX d, pair b, one c]
  | .csend _ _ _ b _ => [one b]
  | .crecv _ _ d _ | .ctry _ _ d _ | .cstateHome _ d _ | .cstateRole _ d _ => [pairX d]
  | .cdeleg _ _ b => [one b]
  | .cclose _ _ => []
  | .cload _ d a b c => [pairX d, pair a, pair b, pair c]
  | .mzero _ _ | .mma _ _ => []
  | .mlda _ _ a b c _ | .mldb _ _ a b c _ | .mldbLong _ _ a b c _ | .mgath _ _ a b c _ => [oneX a, oneX b, oneX c]
  | .mconv _ _ a b c _ => [oneX a, oneX b, pairX c]
  | .maccl _ _ a b _ => [oneX a, oneX b]
  | .mdrainF32 _ _ _ a b c _ | .mdrainI32 _ _ _ a b c _ => [oneX a, oneX b, oneX c]
  | .launch _ d a _ | .cancel _ d a _ => [oneX d, pair a]
  | .gsigArr _ a b _ | .gsigAnn _ a b _ => [pair a, one b]
  | .gsigSeal _ a _ => [pair a]
  | .sys _ _ | .sret _ | .hcall _ _ | .hret _ => []
  | .mfs _ d num => [if privWidth num.toNat = some 64 then pairX d else oneX d]
  | .mts _ num a => [if privWidth num.toNat = some 64 then pair a else one a]
  | .mtsGhold _ a => [one a]
  | .tlbinvAll _ => []
  | .tlbinvAsid _ a | .tlbinvVmid _ a => [one a]
  | .tlbinvPage _ a b => [pair a, one b]
  | .fresume _ d a | .fkillTok _ d a | .fkillGang _ d a | .tokwait _ d a => [oneX d, one a]
  | .ctxsave _ d a => [oneX d, pair a]
  | .ctxload _ d a b => [oneX d, pair a, pair b]
  | .walkres _ d a | .walkresSkip _ d a => [oneX d, oneX a]
  | .tmove _ d a b _ => [oneX d, pairX a, pairX b]
  | .treplAdd _ d a b c _ => [oneX d, pairX a, pairX b, pairX c]
  | .treplDrop _ d a _ => [oneX d, pairX a]
  | .powerUpReset | .inputUndervoltage | .bootGo _ | .imageVerified | .firmwareStageComplete _ _ _ | .pcieHotReset
  | .mailboxStore _ | .attestationReport | .temperatureSample _ _ | .layerVoltageSample _ _ _ _ | .midRailSample _ _ _
  | .processMonitorSample _ _ | .droopRestoreStep _ | .selfTestSlot _ | .selfTestSlotEnd _ _ | .scrubPass _ _
  | .hostMemoryAccess _ _ _ _ _ | .registerWrite _ _ | .doorbell _ _ | .queueTailPoll _ _ | .launchAccept _ _
  | .graphStartAccept _ _ | .recordComplete _ | .heldWriteRetry | .seal _ _ | .graphNodeLaunch _ _
  | .graphNodeCopy _ _ | .graphNodeConditional _ _ | .graphNodeLoop _ _ | .graphNodeWait _ _ | .graphNodeSignal _ _
  | .cancelGraceExpiry _ | .walkRecordRead _ _ | .deferredNotify _ _ | .blockCreate _ _ | .blockPlace _ _ _
  | .ensemblePlace _ _ | .preferenceRebuild _ _ | .clusterGate _ | .clusterWake _ | .moveCommit _
  | .replicaAddCommit _ | .migrationAbort _ | .instructionRefetch _ _ | .translationWalkDone _ | .copyPacketPerformed _
  | .copyFault _ | .combineTimeout _ _ | .remoteRequest _ _ _ _ _ _ | .remoteReply _ _ | .nackResend _
  | .routeTimeout _ | .flitCrcFail _ | .linkRetrain _ _ | .monitorEvaluate _ | .monitorPoll _ | .waitaTimeout _ _
  | .sendJudge _ | .creditReturn _ _ | .messageDelivery _ _ | .entryReturn _ _ | .deliveryStall _ _
  | .deliveryResume _ _ | .faultOverflowPost _ | .parkedResume _ _ | .blockEvict _ | .contextSaveComplete _
  | .saveGraceExpiry _ | .blockRetire _ | .sequencerExit _ _ | .singleFault _ _ => []

/-- The OP of an instruction (Table 7.10). A device event has none; 0xFF stands for that, a reserved OP. -/
def Instr.op : Instr → BitVec 8
  | .nop _ => 0x00
  | .bra _ _ => 0x01
  | .brx _ _ => 0x02
  | .call _ _ _ => 0x03
  | .callx _ _ _ => 0x04
  | .ret _ _ => 0x05
  | .reconvImm _ _ | .reconvReg _ _ => 0x06
  | .exit _ => 0x07
  | .fork _ _ _ _ _ => 0x08
  | .rdv _ _ => 0x09
  | .voteAny _ _ _ _ | .voteAll _ _ _ _ | .voteBallot _ _ _ _ | .voteEq _ _ _ _ | .voteCnt _ _ _ _ => 0x0A
  | .shflPick _ _ _ _ _ _ | .shflFwd _ _ _ _ _ _ | .shflBack _ _ _ _ _ _ | .shflFlip _ _ _ _ _ _ | .shflRot _ _ _ _ _ _ => 0x0B
  | .redux _ _ _ _ _ => 0x0C
  | .bmaskSelf _ _ | .bmaskPre _ _ _ | .bmaskPost _ _ _ | .bmaskSeg _ _ _ | .bmaskGrp _ _ | .bmaskSpan _ _ _ => 0x0D
  | .grow _ _ _ | .growTry _ _ _ => 0x0E
  | .shrink _ _ => 0x0F
  | .gets _ _ _ _ => 0x10
  | .sets _ _ _ => 0x11
  | .plogAnd _ _ _ _ | .plogOr _ _ _ _ | .plogXor _ _ _ _ | .plogAndn _ _ _ _ | .plogOrn _ _ _ _ | .plogNot _ _ _ | .plogSet _ _ _ => 0x12
  | .isync _ => 0x13
  | .mov _ _ _ _ => 0x20
  | .add _ _ _ _ _ _ => 0x21
  | .sub _ _ _ _ _ _ => 0x22
  | .mul _ _ _ _ _ _ => 0x23
  | .mad _ _ _ _ _ _ | .madWide _ _ _ _ _ _ => 0x24
  | .mulhi _ _ _ _ _ => 0x25
  | .div _ _ _ _ _ => 0x26
  | .rem _ _ _ _ _ => 0x27
  | .and _ _ _ _ _ => 0x28
  | .or _ _ _ _ _ => 0x29
  | .xor _ _ _ _ _ => 0x2A
  | .shfShl _ _ _ _ _ | .shfShr _ _ _ _ _ | .shfRotl _ _ _ _ _ | .shfRotr _ _ _ _ _ => 0x2B
  | .cmp _ _ _ _ _ _ => 0x2C
  | .sel _ _ _ _ _ _ => 0x2D
  | .min _ _ _ _ _ => 0x2E
  | .max _ _ _ _ _ => 0x2F
  | .abs _ _ _ _ _ => 0x30
  | .bitcPopc _ _ _ _ | .bitcClz _ _ _ _ | .bitcCtz _ _ _ _ | .bitcBrev _ _ _ _ => 0x31
  | .bfe _ _ _ _ _ => 0x32
  | .bfi _ _ _ _ _ _ => 0x33
  | .lea _ _ _ _ _ _ => 0x34
  | .fadd _ _ _ _ _ _ => 0x50
  | .fsub _ _ _ _ _ _ => 0x51
  | .fmul _ _ _ _ _ _ => 0x52
  | .ffma _ _ _ _ _ _ _ => 0x53
  | .fmin _ _ _ _ _ => 0x54
  | .fmax _ _ _ _ _ => 0x55
  | .fcmp _ _ _ _ _ _ => 0x56
  | .fsgnNeg _ _ _ _ | .fsgnAbs _ _ _ _ | .fsgnCopy _ _ _ _ _ | .fsgnXor _ _ _ _ _ => 0x57
  | .fdiv _ _ _ _ _ _ => 0x58
  | .fsqrt _ _ _ _ _ => 0x59
  | .frcp _ _ _ => 0x5A
  | .frsq _ _ _ => 0x5B
  | .fexp2 _ _ _ => 0x5C
  | .flog2 _ _ _ => 0x5D
  | .fsin _ _ _ => 0x5E
  | .fcos _ _ _ => 0x5F
  | .fclass _ _ _ _ => 0x60
  | .frnd _ _ _ _ _ => 0x61
  | .cvt _ _ _ _ _ _ _ | .cvtPacked _ _ _ _ _ _ _ | .cvtSlot _ _ _ _ _ _ => 0x62
  | .cvtn _ _ _ _ _ _ => 0x63
  | .cvtw _ _ _ _ _ _ => 0x64
  | .ld _ _ _ _ _ _ _ _ => 0x80
  | .st _ _ _ _ _ _ _ _ => 0x81
  | .ldk _ _ _ _ _ _ _ => 0x82
  | .pref _ _ _ _ => 0x83
  | .cflush _ _ _ _ | .cflushInv _ _ _ _ => 0x84
  | .cinv _ _ _ _ => 0x85
  | .cpy _ _ _ _ _ => 0x90
  | .cpseal _ => 0x91
  | .cpwait _ _ => 0x92
  | .stage _ _ => 0x93
  | .bulk _ _ _ => 0x94
  | .outst _ _ => 0x95
  | .arrive _ _ _ _ _ | .arriveAnn _ _ _ _ _ _ => 0x96
  | .await _ _ _ _ _ _ => 0x97
  | .xfer _ _ _ _ _ | .xfer2d _ _ _ _ _ => 0x98
  | .xslide _ _ _ _ _ => 0x99
  | .xgate _ _ => 0x9A
  | .xbump _ _ _ | .xbumpRing _ _ _ _ => 0x9B
  | .fence _ _ => 0xA0
  | .fencex _ _ _ => 0xA1
  | .barGang _ | .barBlk _ _ | .barBlkArv _ _ | .barEns _ _ | .barEnsArv _ _ | .barCoop _ _ => 0xA2
  | .atom _ _ _ _ _ _ _ _ _ _ _ | .atomCas _ _ _ _ _ _ _ _ _ _ _ => 0xA3
  | .red _ _ _ _ _ _ _ _ _ _ => 0xA4
  | .waita _ _ _ _ _ _ _ _ _ => 0xA5
  | .cbind _ _ _ _ _ => 0xB0
  | .csend _ _ _ _ _ => 0xB1
  | .crecv _ _ _ _ => 0xB2
  | .ctry _ _ _ _ => 0xB3
  | .cdeleg _ _ _ => 0xB4
  | .cstateHome _ _ _ | .cstateRole _ _ _ => 0xB5
  | .cclose _ _ => 0xB6
  | .cload _ _ _ _ _ => 0xB7
  | .mzero _ _ => 0xC0
  | .mlda _ _ _ _ _ _ => 0xC1
  | .mldb _ _ _ _ _ _ | .mldbLong _ _ _ _ _ _ => 0xC2
  | .mgath _ _ _ _ _ _ => 0xC3
  | .mconv _ _ _ _ _ _ => 0xC4
  | .mma _ _ => 0xC5
  | .maccl _ _ _ _ _ => 0xC6
  | .mdrainF32 _ _ _ _ _ _ _ | .mdrainI32 _ _ _ _ _ _ _ => 0xC7
  | .launch _ _ _ _ => 0xD0
  | .gsigArr _ _ _ _ | .gsigAnn _ _ _ _ | .gsigSeal _ _ _ => 0xD1
  | .cancel _ _ _ _ => 0xD2
  | .sys _ _ => 0xE0
  | .sret _ => 0xE1
  | .hcall _ _ => 0xE2
  | .hret _ => 0xE3
  | .mfs _ _ _ => 0xE4
  | .mts _ _ _ | .mtsGhold _ _ => 0xE5
  | .tlbinvAll _ | .tlbinvAsid _ _ | .tlbinvPage _ _ _ | .tlbinvVmid _ _ => 0xE6
  | .fresume _ _ _ => 0xE7
  | .fkillTok _ _ _ | .fkillGang _ _ _ => 0xE8
  | .tokwait _ _ _ => 0xE9
  | .ctxsave _ _ _ => 0xEA
  | .ctxload _ _ _ _ => 0xEB
  | .walkres _ _ _ | .walkresSkip _ _ _ => 0xEC
  | .tmove _ _ _ _ _ => 0xED
  | .treplAdd _ _ _ _ _ _ | .treplDrop _ _ _ _ => 0xEE
  | .powerUpReset | .inputUndervoltage | .bootGo _ | .imageVerified | .firmwareStageComplete _ _ _ | .pcieHotReset
  | .mailboxStore _ | .attestationReport | .temperatureSample _ _ | .layerVoltageSample _ _ _ _ | .midRailSample _ _ _
  | .processMonitorSample _ _ | .droopRestoreStep _ | .selfTestSlot _ | .selfTestSlotEnd _ _ | .scrubPass _ _
  | .hostMemoryAccess _ _ _ _ _ | .registerWrite _ _ | .doorbell _ _ | .queueTailPoll _ _ | .launchAccept _ _
  | .graphStartAccept _ _ | .recordComplete _ | .heldWriteRetry | .seal _ _ | .graphNodeLaunch _ _
  | .graphNodeCopy _ _ | .graphNodeConditional _ _ | .graphNodeLoop _ _ | .graphNodeWait _ _ | .graphNodeSignal _ _
  | .cancelGraceExpiry _ | .walkRecordRead _ _ | .deferredNotify _ _ | .blockCreate _ _ | .blockPlace _ _ _
  | .ensemblePlace _ _ | .preferenceRebuild _ _ | .clusterGate _ | .clusterWake _ | .moveCommit _
  | .replicaAddCommit _ | .migrationAbort _ | .instructionRefetch _ _ | .translationWalkDone _ | .copyPacketPerformed _
  | .copyFault _ | .combineTimeout _ _ | .remoteRequest _ _ _ _ _ _ | .remoteReply _ _ | .nackResend _
  | .routeTimeout _ | .flitCrcFail _ | .linkRetrain _ _ | .monitorEvaluate _ | .monitorPoll _ | .waitaTimeout _ _
  | .sendJudge _ | .creditReturn _ _ | .messageDelivery _ _ | .entryReturn _ _ | .deliveryStall _ _
  | .deliveryResume _ _ | .faultOverflowPost _ | .parkedResume _ _ | .blockEvict _ | .contextSaveComplete _
  | .saveGraceExpiry _ | .blockRetire _ | .sequencerExit _ _ | .singleFault _ _ => 0xFF

/-- The guard of an instruction (R131). -/
def Instr.guard : Instr → Guard
  | .nop g | .bra g _ | .brx g _ | .call g _ _ | .callx g _ _ | .ret g _ | .reconvImm g _ | .reconvReg g _
  | .exit g | .fork g _ _ _ _ | .rdv g _ | .voteAny g _ _ _ | .voteAll g _ _ _ | .voteBallot g _ _ _
  | .voteEq g _ _ _ | .voteCnt g _ _ _ | .shflPick g _ _ _ _ _ | .shflFwd g _ _ _ _ _ | .shflBack g _ _ _ _ _
  | .shflFlip g _ _ _ _ _ | .shflRot g _ _ _ _ _ | .redux g _ _ _ _ | .bmaskSelf g _ | .bmaskPre g _ _
  | .bmaskPost g _ _ | .bmaskSeg g _ _ | .bmaskGrp g _ | .bmaskSpan g _ _ | .grow g _ _ | .growTry g _ _
  | .shrink g _ | .gets g _ _ _ | .sets g _ _ | .plogAnd g _ _ _ | .plogOr g _ _ _ | .plogXor g _ _ _
  | .plogAndn g _ _ _ | .plogOrn g _ _ _ | .plogNot g _ _ | .plogSet g _ _ | .isync g | .mov g _ _ _
  | .add g _ _ _ _ _ | .sub g _ _ _ _ _ | .mul g _ _ _ _ _ | .mad g _ _ _ _ _ | .madWide g _ _ _ _ _
  | .mulhi g _ _ _ _ | .div g _ _ _ _ | .rem g _ _ _ _ | .and g _ _ _ _ | .or g _ _ _ _ | .xor g _ _ _ _
  | .shfShl g _ _ _ _ | .shfShr g _ _ _ _ | .shfRotl g _ _ _ _ | .shfRotr g _ _ _ _ | .cmp g _ _ _ _ _
  | .sel g _ _ _ _ _ | .min g _ _ _ _ | .max g _ _ _ _ | .abs g _ _ _ _ | .bitcPopc g _ _ _ | .bitcClz g _ _ _
  | .bitcCtz g _ _ _ | .bitcBrev g _ _ _ | .bfe g _ _ _ _ | .bfi g _ _ _ _ _ | .lea g _ _ _ _ _
  | .fadd g _ _ _ _ _ | .fsub g _ _ _ _ _ | .fmul g _ _ _ _ _ | .ffma g _ _ _ _ _ _ | .fmin g _ _ _ _
  | .fmax g _ _ _ _ | .fcmp g _ _ _ _ _ | .fsgnNeg g _ _ _ | .fsgnAbs g _ _ _ | .fsgnCopy g _ _ _ _
  | .fsgnXor g _ _ _ _ | .fdiv g _ _ _ _ _ | .fsqrt g _ _ _ _ | .frcp g _ _ | .frsq g _ _ | .fexp2 g _ _
  | .flog2 g _ _ | .fsin g _ _ | .fcos g _ _ | .fclass g _ _ _ | .frnd g _ _ _ _ | .cvt g _ _ _ _ _ _
  | .cvtPacked g _ _ _ _ _ _ | .cvtSlot g _ _ _ _ _ | .cvtn g _ _ _ _ _ | .cvtw g _ _ _ _ _
  | .ld g _ _ _ _ _ _ _ | .st g _ _ _ _ _ _ _ | .ldk g _ _ _ _ _ _ | .pref g _ _ _ | .cflush g _ _ _
  | .cflushInv g _ _ _ | .cinv g _ _ _ | .cpy g _ _ _ _ | .cpseal g | .cpwait g _ | .stage g _ | .bulk g _ _
  | .outst g _ | .arrive g _ _ _ _ | .arriveAnn g _ _ _ _ _ | .await g _ _ _ _ _ | .xfer g _ _ _ _
  | .xfer2d g _ _ _ _ | .xslide g _ _ _ _ | .xgate g _ | .xbump g _ _ | .xbumpRing g _ _ _ | .fence g _
  | .fencex g _ _ | .barGang g | .barBlk g _ | .barBlkArv g _ | .barEns g _ | .barEnsArv g _ | .barCoop g _
  | .atom g _ _ _ _ _ _ _ _ _ _ | .atomCas g _ _ _ _ _ _ _ _ _ _ | .red g _ _ _ _ _ _ _ _ _
  | .waita g _ _ _ _ _ _ _ _ | .cbind g _ _ _ _ | .csend g _ _ _ _ | .crecv g _ _ _ | .ctry g _ _ _
  | .cdeleg g _ _ | .cstateHome g _ _ | .cstateRole g _ _ | .cclose g _ | .cload g _ _ _ _ | .mzero g _
  | .mlda g _ _ _ _ _ | .mldb g _ _ _ _ _ | .mldbLong g _ _ _ _ _ | .mgath g _ _ _ _ _ | .mconv g _ _ _ _ _
  | .mma g _ | .maccl g _ _ _ _ | .mdrainF32 g _ _ _ _ _ _ | .mdrainI32 g _ _ _ _ _ _ | .launch g _ _ _
  | .gsigArr g _ _ _ | .gsigAnn g _ _ _ | .gsigSeal g _ _ | .cancel g _ _ _ | .sys g _ | .sret g | .hcall g _
  | .hret g | .mfs g _ _ | .mts g _ _ | .mtsGhold g _ | .tlbinvAll g | .tlbinvAsid g _ | .tlbinvPage g _ _
  | .tlbinvVmid g _ | .fresume g _ _ | .fkillTok g _ _ | .fkillGang g _ _ | .tokwait g _ _ | .ctxsave g _ _
  | .ctxload g _ _ _ | .walkres g _ _ | .walkresSkip g _ _ | .tmove g _ _ _ _ | .treplAdd g _ _ _ _ _
  | .treplDrop g _ _ _ => g
  | .powerUpReset | .inputUndervoltage | .bootGo _ | .imageVerified | .firmwareStageComplete _ _ _ | .pcieHotReset
  | .mailboxStore _ | .attestationReport | .temperatureSample _ _ | .layerVoltageSample _ _ _ _ | .midRailSample _ _ _
  | .processMonitorSample _ _ | .droopRestoreStep _ | .selfTestSlot _ | .selfTestSlotEnd _ _ | .scrubPass _ _
  | .hostMemoryAccess _ _ _ _ _ | .registerWrite _ _ | .doorbell _ _ | .queueTailPoll _ _ | .launchAccept _ _
  | .graphStartAccept _ _ | .recordComplete _ | .heldWriteRetry | .seal _ _ | .graphNodeLaunch _ _
  | .graphNodeCopy _ _ | .graphNodeConditional _ _ | .graphNodeLoop _ _ | .graphNodeWait _ _ | .graphNodeSignal _ _
  | .cancelGraceExpiry _ | .walkRecordRead _ _ | .deferredNotify _ _ | .blockCreate _ _ | .blockPlace _ _ _
  | .ensemblePlace _ _ | .preferenceRebuild _ _ | .clusterGate _ | .clusterWake _ | .moveCommit _
  | .replicaAddCommit _ | .migrationAbort _ | .instructionRefetch _ _ | .translationWalkDone _ | .copyPacketPerformed _
  | .copyFault _ | .combineTimeout _ _ | .remoteRequest _ _ _ _ _ _ | .remoteReply _ _ | .nackResend _
  | .routeTimeout _ | .flitCrcFail _ | .linkRetrain _ _ | .monitorEvaluate _ | .monitorPoll _ | .waitaTimeout _ _
  | .sendJudge _ | .creditReturn _ _ | .messageDelivery _ _ | .entryReturn _ _ | .deliveryStall _ _
  | .deliveryResume _ _ | .faultOverflowPost _ | .parkedResume _ _ | .blockEvict _ | .contextSaveComplete _
  | .saveGraceExpiry _ | .blockRetire _ | .sequencerExit _ _ | .singleFault _ _ => ⟨false, 7⟩

/-- Whether a register use lies within Table 7.7 for the engine. -/
def RegUse.ok (e : Engine) (u : RegUse) : Bool :=
  (match e, u.k with
    | .thread, false => u.n + u.count ≤ 256
    | .thread, true => u.n + u.count ≤ 64
    | .matrix, false => u.n + u.count ≤ 32
    | .copy, false => u.n + u.count ≤ 16
    | .matrix, true | .copy, true => false) && (!u.even || u.n % 2 == 0)

/-- The predicate an instruction writes (R130). -/
def Instr.predDest : Instr → Option (BitVec 3)
  | .voteAny _ _ d _ | .voteAll _ _ d _ | .voteEq _ _ d _ | .grow _ d _ | .growTry _ d _ | .plogAnd _ d _ _
  | .plogOr _ d _ _ | .plogXor _ d _ _ | .plogAndn _ d _ _ | .plogOrn _ d _ _ | .plogNot _ d _ | .plogSet _ d _
  | .cmp _ _ _ d _ _ | .fcmp _ _ _ d _ _ => some d
  | _ => none

/-- The least mode that may issue an instruction: its OP's, raised for the privileged registers that need H (R328)
and for `TLBINV.vmid` (R342). -/
def Instr.leastMode (i : Instr) : Mode :=
  match i with
  | .mfs _ _ num => privReadMode num.toNat
  | .mts _ num _ => privWriteMode num.toNat
  | .tlbinvVmid _ _ => .hypervisor
  | _ => opMode i.op.toNat

/-- The lowest x register at or above the allocation that a use reaches (R130). x0 never counts, since an allocation
is at least 8. -/
def RegUse.beyond (alloc : Nat) (u : RegUse) : Option Nat :=
  if !u.k && alloc < u.n + u.count then some (Nat.max u.n alloc) else none

/-- The lowest x register at or above the allocation among all that an instruction names or reaches (R130). -/
def beyondAlloc (alloc : Nat) : List RegUse → Option Nat
  | [] => none
  | u :: us =>
    match u.beyond alloc, beyondAlloc alloc us with
    | some a, some b => some (Nat.min a b)
    | some a, none => some a
    | none, r => r

end Sys2Proof
end

