-- ==== Sys2Proof/Machine/Flags.lean ====
section
/-! DEFINITION. Number formats (R50 to R65): exact values, decoding of codes, rounding to a format and every exception flag
that a rounding raises. Finite values are exact fractions, so a result is rounded once. -/

namespace Sys2Proof.Num

/-- A set of exception flags, laid out as `fflags` (Table 3.4). -/
abbrev FlagSet := BitVec 7

def nx : FlagSet := 0x01
def uf : FlagSet := 0x02
def of : FlagSet := 0x04
def dz : FlagSet := 0x08
def nv : FlagSet := 0x10
def tr : FlagSet := 0x20
def io : FlagSet := 0x40

/-- An exact value: a NaN, an infinity, or sign and magnitude `num / den` (`den` is never 0). A zero keeps its sign. -/
inductive Val where
  | nan (signalling : Bool)
  | inf (neg : Bool)
  | fin (neg : Bool) (num den : Nat)
  deriving DecidableEq, Repr

/-- Magnitude `n · 2^x` as a fraction. -/
def pow2 (neg : Bool) (n : Nat) (x : Int) : Val :=
  if 0 ≤ x then .fin neg (n * 2 ^ x.toNat) 1 else .fin neg n (2 ^ (-x).toNat)

/-- The value of an integer. -/
def ofInt (v : Int) : Val := .fin (v < 0) v.natAbs 1

/-- Whether a value is a NaN. -/
def Val.isNan : Val → Bool
  | .nan _ => true
  | .inf _ | .fin _ _ _ => false

/-- Whether a value is a signalling NaN. -/
def Val.isSnan : Val → Bool
  | .nan b => b
  | .inf _ | .fin _ _ _ => false

/-- Whether a value is a zero of either sign. -/
def Val.isZero : Val → Bool
  | .fin _ n _ => n == 0
  | .nan _ | .inf _ => false

/-- The sign of a value. -/
def Val.neg : Val → Bool
  | .nan _ => false
  | .inf b => b
  | .fin b _ _ => b

/-- A value with the other sign. -/
def Val.opp : Val → Val
  | .nan b => .nan b
  | .inf b => .inf (!b)
  | .fin b n d => .fin (!b) n d

/-- The sign and magnitude of a finite value as an integer numerator. -/
def signed (neg : Bool) (n : Nat) : Int := if neg then -(n : Int) else n

/-- Comparison of two ordered values: less, equal, greater; −0 equals +0. -/
def cmp : Val → Val → Ordering
  | .inf a, .inf b => if a = b then .eq else if a then .lt else .gt
  | .inf a, _ => if a then .lt else .gt
  | _, .inf b => if b then .gt else .lt
  | .fin a n d, .fin b m e => compare (signed a n * (e : Int)) (signed b m * (d : Int))
  | .nan _, _ => .eq
  | _, .nan _ => .eq

/-- A floating code's parameters: precision P, bias B, the largest finite magnitude code, and how the special codes
are placed. The codes of magnitudes rise with the magnitude in every format. -/
structure Fmt where
  /-- Precision P: significand bits with the leading one. -/
  p : Nat
  /-- Bias B. -/
  bias : Nat
  /-- The largest finite magnitude code. -/
  maxFin : Nat
  /-- An IEEE format; otherwise binary8. -/
  ieee : Bool
  /-- Bits of the code. -/
  width : Nat
  /-- A signed format. -/
  sgn : Bool
  /-- Infinities exist. -/
  inf : Bool
  deriving DecidableEq, Repr

/-- FP32 (Table 3.3). -/
def fp32 : Fmt := ⟨24, 127, 0x7F7FFFFF, true, 32, true, true⟩
/-- BF16 (Table 3.3). -/
def bf16 : Fmt := ⟨8, 127, 0x7F7F, true, 16, true, true⟩
/-- FP16 (Table 3.3). -/
def fp16 : Fmt := ⟨11, 15, 0x7BFF, true, 16, true, true⟩
/-- binary8 of precision `p` (R55, R56). -/
def binary8 (p : Nat) (sgn inf : Bool) : Fmt :=
  if sgn then ⟨p, 2 ^ (7 - p), if inf then 0x7E else 0x7F, false, 8, true, inf⟩
  else ⟨p, 2 ^ (8 - p), if inf then 0xFD else 0xFE, false, 8, false, inf⟩

/-- The floating format of a type, element by element for the packed types; integer types have none and give FP32. -/
def ofTy : Ty → Fmt
  | .f32 | .i8 | .i16 | .i32 | .i64 | .n8 | .n16 | .n32 | .n64 => fp32
  | .bf16 | .bf16x2 => bf16
  | .f16 | .f16x2 => fp16

/-- The finite value of a magnitude code (R52, R55). -/
def magnitude (f : Fmt) (neg : Bool) (c : Nat) : Val :=
  let t := f.p - 1
  let e := c / 2 ^ t
  let m := c % 2 ^ t
  if e = 0 then pow2 neg m (1 - (f.bias : Int) - t) else pow2 neg (2 ^ t + m) ((e : Int) - f.bias - t)

/-- The canonical NaN's code (Table 3.3, R55, R56). -/
def nanCode (f : Fmt) : Nat :=
  if f.ieee then f.maxFin + 1 + 2 ^ (f.p - 2) else if f.sgn then 0x80 else 0xFF

/-- The code of an infinity. -/
def infCode (f : Fmt) (neg : Bool) : Nat :=
  f.maxFin + 1 + if neg then 2 ^ (f.width - 1) else 0

/-- The code of a sign and a magnitude code. binary8 has one zero. -/
def signCode (f : Fmt) (neg : Bool) (c : Nat) : Nat :=
  if neg && (f.ieee || c != 0) then 2 ^ (f.width - 1) + c else c

/-- The exact value of a code (Decode: R52, R55, R56). -/
def decodeCode (f : Fmt) (code : Nat) : Val :=
  let top := 2 ^ (f.width - 1)
  if f.ieee then
    let neg := top ≤ code
    let c := code % top
    if c ≤ f.maxFin then magnitude f neg c
    else if c = f.maxFin + 1 then .inf neg
    else .nan (c < f.maxFin + 1 + 2 ^ (f.p - 2))
  else if code = nanCode f then .nan false
  else if f.sgn then
    let neg := top ≤ code
    let c := code % top
    if c ≤ f.maxFin then magnitude f neg c else .inf neg
  else if code ≤ f.maxFin then magnitude f false code else .inf false

/-- Floor of the base-2 logarithm of `n / d`, both nonzero. -/
def log2Frac (n d : Nat) : Int :=
  let e : Int := (Nat.log2 n : Int) - Nat.log2 d
  -- 2^e ≤ n/d ?
  if 0 ≤ e then (if d * 2 ^ e.toNat ≤ n then e else e - 1)
  else if d ≤ n * 2 ^ (-e).toNat then e else e - 1

/-- Floor and remainder of `(n / d) / 2^x`, as quotient, remainder and divisor. -/
def splitAt (n d : Nat) (x : Int) : Nat × Nat × Nat :=
  if 0 ≤ x then (n / (d * 2 ^ x.toNat), n % (d * 2 ^ x.toNat), d * 2 ^ x.toNat)
  else (n * 2 ^ (-x).toNat / d, n * 2 ^ (-x).toNat % d, d)

/-- Whether a rounding in direction `rm` goes up in magnitude, from the sign, the lowest bit of the candidate below,
and the remainder against the divisor (R60 step 1, R62). -/
def roundsUp (rm : Rm) (neg odd : Bool) (r q : Nat) : Bool :=
  match rm with
  | .rne => q < 2 * r || (2 * r == q && odd)
  | .rtz => false
  | .rup => !neg && r != 0
  | .rdn => neg && r != 0

/-- Step 1 of R60: the magnitude code nearest in direction `rm`, with no bound above; whether it is inexact; whether
the magnitude lies below the smallest normal. -/
def roundMag (f : Fmt) (rm : Rm) (neg : Bool) (n d : Nat) : Nat × Bool × Bool :=
  if n = 0 then (0, false, false)
  else
    let t := f.p - 1
    let e := log2Frac n d
    let low : Int := 1 - (f.bias : Int)
    let tiny := e < low
    let x := (if tiny then low else e) - t
    let (q, r, dv) := splitAt n d x
    let c := if tiny then q else ((e + f.bias).toNat) * 2 ^ t + (q - 2 ^ t)
    (c + (if roundsUp rm neg (c % 2 == 1) r dv then 1 else 0), r != 0, tiny)

/-- Table 3.7: the code of a finite value that overflows. -/
def overflowCode (f : Fmt) (rm : Rm) (sat neg : Bool) : Nat :=
  if sat then signCode f neg f.maxFin
  else if f.inf then
    match rm, neg with
    | .rne, _ => infCode f neg
    | .rtz, _ => signCode f neg f.maxFin
    | .rup, false => infCode f false
    | .rup, true => signCode f true f.maxFin
    | .rdn, false => signCode f false f.maxFin
    | .rdn, true => infCode f true
  else nanCode f

/-- Round (R60, R61): the code of an exact value in a floating format, with the flags it raises. -/
def round (f : Fmt) (rm : Rm) (sat : Bool) : Val → Nat × FlagSet
  | .nan s => (nanCode f, if s then nv else 0)
  | .inf neg =>
    if f.ieee then (if sat then (signCode f neg f.maxFin, 0) else (infCode f neg, 0))
    else if f.sgn then
      if sat then (signCode f neg f.maxFin, 0) else if f.inf then (infCode f neg, 0) else (nanCode f, nv)
    else if neg then (if sat then (0, nx) else (nanCode f, nv))
    else if sat then (f.maxFin, 0) else if f.inf then (infCode f false, 0) else (nanCode f, nv)
  | .fin neg n d =>
    let (c, inexact, tiny) := roundMag f rm neg n d
    if neg && !f.sgn && c != 0 then
      (if sat then (0, if inexact && tiny then nx ||| uf else nx) else (nanCode f, nv))
    else if f.maxFin < c then (overflowCode f rm sat neg, of ||| nx)
    else
      (if f.sgn then signCode f neg c else c,
        (if inexact then nx else 0) ||| (if inexact && tiny && n != 0 then uf else 0))

/-- The integer nearest in direction `rm` to `n / d` with a sign, and whether it is inexact (R62). -/
def roundInt (rm : Rm) (neg : Bool) (n d : Nat) : Int × Bool :=
  let q := n / d
  let r := n % d
  (signed neg (q + if roundsUp rm neg (q % 2 == 1) r d then 1 else 0), r != 0)

/-- The least integer of `w` bits. -/
def intMin (sgn : Bool) (w : Nat) : Int := if sgn then -(2 : Int) ^ (w - 1) else 0
/-- The greatest integer of `w` bits. -/
def intMax (sgn : Bool) (w : Nat) : Int := if sgn then 2 ^ (w - 1) - 1 else 2 ^ w - 1

/-- `v` limited to a range (Clamp, R165). -/
def clamp (sgn : Bool) (w : Nat) (v : Int) : Int :=
  if v < intMin sgn w then intMin sgn w else if intMax sgn w < v then intMax sgn w else v

/-- Whether an integer lies outside the range of `w` bits. -/
def outside (sgn : Bool) (w : Nat) (v : Int) : Bool := v < intMin sgn w || intMax sgn w < v

/-- Round to an integer format from a floating source (R62). -/
def toIntFloat (sgn : Bool) (w : Nat) (rm : Rm) (sat : Bool) : Val → Int × FlagSet
  | .nan _ => (0, nv)
  | .inf neg => (if neg then intMin sgn w else intMax sgn w, if sat then nx else nv)
  | .fin neg n d =>
    let (v, inexact) := roundInt rm neg n d
    if outside sgn w v then (clamp sgn w v, if sat then nx else nv) else (v, if inexact then nx else 0)

/-- Round to an integer format from an integer source (R62): out of range it wraps with IO, or clamps with NX. -/
def toIntInt (sgn : Bool) (w : Nat) (sat : Bool) (v : Int) : Int × FlagSet :=
  if outside sgn w v then (if sat then (clamp sgn w v, nx) else (v, io)) else (v, 0)

/-- Round to a trit: its code and flags (R63). -/
def toTrit : Val → Nat × FlagSet
  | .nan _ => (0, nv)
  | .inf neg => (if neg then 2 else 1, of ||| nx)
  | .fin neg n d =>
    if 2 * n ≤ d then (0, if n = 0 then 0 else nx)
    else (if neg then 2 else 1, (if 3 * d < 2 * n then of else 0) ||| (if n = d then 0 else nx))

/-- Product of two values, exact; NaN with NV for 0 × ∞ (Table 9.4). -/
def mul (a b : Val) : Val × FlagSet :=
  match a, b with
  | .nan s, .nan s' => (.nan false, if s || s' then nv else 0)
  | .nan s, _ | _, .nan s => (.nan false, if s then nv else 0)
  | .inf x, .inf y => (.inf (x != y), 0)
  | .inf x, .fin y n _ | .fin y n _, .inf x => if n = 0 then (.nan false, nv) else (.inf (x != y), 0)
  | .fin x n d, .fin y m e => (.fin (x != y) (n * m) (d * e), 0)

/-- Exact sum of two finite values; an exact zero of operands of opposite signs is +0, or −0 under RDN (R53). -/
def addFin (rm : Rm) (x : Bool) (n d : Nat) (y : Bool) (m e : Nat) : Val :=
  let s := signed x n * (e : Int) + signed y m * (d : Int)
  if s = 0 then .fin (if x = y then x else rm == .rdn) 0 1 else .fin (s < 0) s.natAbs (d * e)

/-- Sum of two values (Table 9.4). -/
def add (rm : Rm) (a b : Val) : Val × FlagSet :=
  match a, b with
  | .nan s, .nan s' => (.nan false, if s || s' then nv else 0)
  | .nan s, _ | _, .nan s => (.nan false, if s then nv else 0)
  | .inf x, .inf y => if x = y then (.inf x, 0) else (.nan false, nv)
  | .inf x, .fin _ _ _ | .fin _ _ _, .inf x => (.inf x, 0)
  | .fin x n d, .fin y m e => (addFin rm x n d y m e, 0)

/-- a × b + c, exact (R176). 0 × ∞ gives NaN with NV whatever c is; a signalling c raises NV as well. -/
def fma (rm : Rm) (a b c : Val) : Val × FlagSet :=
  let (p, f) := mul a b
  let (v, f') := add rm p c
  (v, f ||| f')

/-- Quotient (Table 9.4). -/
def div (a b : Val) : Val × FlagSet :=
  match a, b with
  | .nan s, .nan s' => (.nan false, if s || s' then nv else 0)
  | .nan s, _ | _, .nan s => (.nan false, if s then nv else 0)
  | .inf _, .inf _ => (.nan false, nv)
  | .inf x, .fin y _ _ => (.inf (x != y), 0)
  | .fin x _ _, .inf y => (.fin (x != y) 0 1, 0)
  | .fin x n d, .fin y m e =>
    if m = 0 then (if n = 0 then (.nan false, nv) else (.inf (x != y), dz))
    else (.fin (x != y) (n * e) (d * m), 0)

/-- Bits of the integer square root from bit `i` down, `r` being what the higher bits give. -/
def isqrtFrom (n : Nat) : Nat → Nat → Nat
  | 0, r => r
  | i + 1, r => isqrtFrom n i (if (r + 2 ^ i) * (r + 2 ^ i) ≤ n then r + 2 ^ i else r)

/-- The integer square root, rounded down. -/
def isqrt (n : Nat) : Nat := isqrtFrom n (Nat.log2 n / 2 + 1) 0

/-- Fraction bits that a square root is carried to before its one rounding. -/
def sqrtBits : Nat := 200

/-- Square root (Table 9.4). An inexact root is given as the middle of an interval of 2^−200 that holds it and no
value or midpoint of any format, so that it rounds as the exact root does. -/
def sqrt : Val → Val × FlagSet
  | .nan s => (.nan false, if s then nv else 0)
  | .inf neg => if neg then (.nan false, nv) else (.inf false, 0)
  | .fin neg n d =>
    if n = 0 then (.fin neg 0 1, 0)
    else if neg then (.nan false, nv)
    else
      let s := n * 4 ^ sqrtBits / d
      let q := isqrt s
      if q * q * d = n * 4 ^ sqrtBits then (.fin false q (2 ^ sqrtBits), 0)
      else (.fin false (2 * q + 1) (2 ^ (sqrtBits + 1)), 0)

/-- A result rounded to a type's element format, with the flags of the operation and of the rounding (FRound, R165). -/
def finish (f : Fmt) (rm : Rm) (r : Val × FlagSet) : Nat × FlagSet :=
  let (c, fl) := round f rm false r.1
  (c, r.2 ||| fl)

/-- Lesser or greater operand as it stands (R177): 0 for the first operand, 1 for the second, 2 for the canonical
NaN; with NV for a signalling operand. −0 counts as less than +0. -/
def pick (greater : Bool) (a b : Val) : Nat × FlagSet :=
  let fl := if a.isSnan || b.isSnan then nv else 0
  match a.isNan, b.isNan with
  | true, true => (2, fl)
  | true, false => (1, fl)
  | false, true => (0, fl)
  | false, false =>
    let lt := match cmp a b with
      | .lt => true
      | .gt => false
      | .eq => a.neg && !b.neg
    (if lt != greater then 0 else 1, fl)

/-- FCMP's relation and its flag (Table 9.5). -/
def fcmp (r : FRel) (a b : Val) : Bool × FlagSet :=
  let un := a.isNan || b.isNan
  let c := cmp a b
  let quiet := if a.isSnan || b.isSnan then nv else 0
  let any := if un then nv else 0
  match r with
  | .eq => (!un && c == .eq, quiet)
  | .ne => (un || c != .eq, quiet)
  | .lt => (!un && c == .lt, any)
  | .le => (!un && c != .gt, any)
  | .gt => (!un && c == .gt, any)
  | .ge => (!un && c != .lt, any)
  | .un => (un, quiet)
  | .ord => (!un, quiet)

/-- FCLASS's bit (R180). -/
def fclass (f : Fmt) (v : Val) : Nat :=
  match v with
  | .nan s => if s then 8 else 9
  | .inf neg => if neg then 0 else 7
  | .fin neg n d =>
    if n = 0 then (if neg then 3 else 4)
    else if log2Frac n d < 1 - (f.bias : Int) then (if neg then 2 else 5) else if neg then 1 else 6

/-- FRND (R181): an integral value of the same format, its sign kept; only a signalling NaN raises a flag. -/
def frnd (rm : Rm) : Val → Val × FlagSet
  | .nan s => (.nan false, if s then nv else 0)
  | .inf neg => (.inf neg, 0)
  | .fin neg n d => (.fin neg (roundInt rm neg n d).1.natAbs 1, 0)

end Sys2Proof.Num
end

