-- ==== Sys2Proof/Machine/Operands.lean ====
section
/-! DEFINITION. Operand forms: reading registers, pairs and immediates with their poison, the results an instruction
writes, and where they land in a lane, a gang or a sequencer. -/

namespace Sys2Proof.Machine

/-- The lanes of a mask, lowest first. -/
def lanesOf (m : Mask) : List Nat := (List.range 32).filter (m.getLsbD ·)

/-- The mask of one lane. -/
def laneBit (l : Nat) : Mask := BitVec.ofNat 32 (2 ^ l)

/-- The mask of a list of lanes. -/
def maskOf (ls : List Nat) : Mask := ls.foldl (fun m l => m ||| laneBit l) 0

/-- Little-endian number of a list of bytes (R1). -/
def ofBytes : List Byte → Nat
  | [] => 0
  | b :: bs => b.toNat + 256 * ofBytes bs

/-- The low `n` bytes of a number, little-endian (R1). -/
def toBytes : Nat → Nat → List Byte
  | 0, _ => []
  | n + 1, v => BitVec.ofNat 8 v :: toBytes n (v / 256)

/-- Bytes `[off, off + n)` of a record as a number. -/
def field (rec : List Byte) (off n : Nat) : Nat := ofBytes ((rec.drop off).take n)

/-- A record with bytes `[off, off + n)` replaced by a number. -/
def setField (rec : List Byte) (off n v : Nat) : List Byte :=
  rec.take off ++ toBytes n v ++ rec.drop (off + n)

/-- Bits `[hi:lo]` of a number. -/
def bits (v hi lo : Nat) : Nat := v / 2 ^ lo % 2 ^ (hi + 1 - lo)

/-- Sign extension of the low `w` bits of a number. -/
def sext (w v : Nat) : Int :=
  let u := v % 2 ^ w
  if u < 2 ^ (w - 1) then u else (u : Int) - 2 ^ w

/-- What an instruction sees of the registers: of one lane with its gang's k registers, or of a sequencer. -/
structure View where
  x : SMap Word := []
  xp : SMap Bool := []
  k : SMap Word := []
  kp : SMap Bool := []
  p : BitVec 8 := 0
  pp : BitVec 8 := 0
  /-- Register 0 reads as zero: in thread lines (R130). -/
  zero : Bool := true
  deriving DecidableEq, Repr

/-- What a lane's instruction may know besides registers: the step's number and the lane, which number its free values. -/
structure Env where
  ctr : Nat
  lane : Nat
  deriving DecidableEq, Repr

namespace View

/-- A register and its poison. -/
def reg (v : View) (r : Reg) : Word × Bool :=
  if r.k then (v.k.get 0 r.n.toNat, v.kp.get false r.n.toNat)
  else if v.zero && r.n == 0 then (0, false)
  else (v.x.get 0 r.n.toNat, v.xp.get false r.n.toNat)

/-- An aligned pair, low half first; poisoned when either half is (R225). -/
def pair (v : View) (r : Reg) : DWord × Bool :=
  let lo := v.reg r
  let hi := v.reg ⟨r.k, r.n + 1⟩
  (hi.1 ++ lo.1, lo.2 || hi.2)

/-- A predicate and its poison; p7 is true and never poisoned (R130, R131). -/
def pred (v : View) (p : BitVec 3) : Bool × Bool :=
  if p == 7 then (true, false) else (v.p.getLsbD p.toNat, v.pp.getLsbD p.toNat)

/-- The raw bits of an operand of type `t`: 32, or 64 from the pair. -/
def raw (v : View) (t : Ty) (r : Reg) : Nat × Bool :=
  if t.is64 then ((v.pair r).1.toNat, (v.pair r).2) else ((v.reg r).1.toNat, (v.reg r).2)

/-- An immediate after the extension of R128: signed for `.i` types, as it stands otherwise. -/
def immRaw (t : Ty) (i : Word) : Nat := if t.signed then (i.signExtend 64).toNat else i.toNat

/-- The raw bits of a B operand. -/
def rawS (v : View) (t : Ty) : Src → Nat × Bool
  | .reg r => v.raw t r
  | .imm i => (immRaw t i, false)

/-- The value of raw bits as type `t` (Val, R165). -/
def valOf (t : Ty) (n : Nat) : Int := if t.signed then sext t.width n else (n % 2 ^ t.width : Nat)

/-- Val (R165) with poison. -/
def val (v : View) (t : Ty) (r : Reg) : Int × Bool := (valOf t (v.raw t r).1, (v.raw t r).2)

/-- Val of a B operand (R165). -/
def valS (v : View) (t : Ty) (s : Src) : Int × Bool := (valOf t (v.rawS t s).1, (v.rawS t s).2)

/-- A 32-bit B operand, whatever the type (R169). -/
def wordS (v : View) : Src → Word × Bool
  | .reg r => v.reg r
  | .imm i => (i, false)

/-- Whether an active guard lets an instruction execute, with the guard's poison (R131). -/
def guard (v : View) (g : Guard) : Bool × Bool := ((v.pred g.p).1 != g.neg, (v.pred g.p).2)

end View

/-- The pattern of a value at width `w` (Pat, R165). -/
def pat (v : Int) (w : Nat) : Nat := (v % 2 ^ w).toNat

/-- The register writes of Put (R165, R50): a pair for a 64-bit type, else one register, extended by the type. -/
def putTy (t : Ty) (d : Reg) (v : Int) : List (Reg × Word) :=
  if t.is64 then [(d, BitVec.ofInt 32 v), (⟨d.k, d.n + 1⟩, BitVec.ofInt 32 (v / 2 ^ 32))]
  else [(d, BitVec.ofInt 32 (View.valOf t (pat v t.width)))]

/-- What one lane, or a sequencer, does in an instruction that only computes. A trap carries its cause and STVAL; the
flags are raised even then (R6). -/
structure Out where
  regs : List (Reg × Word × Bool) := []
  preds : List (BitVec 3 × Bool × Bool) := []
  flags : BitVec 7 := 0
  trap : Option (BitVec 8 × DWord) := none
  deriving DecidableEq, Repr

/-- Free bits of a poisoned register (R361): each is 0, or a bit of the destination's previous value, of the poisoned
source, or of the computation. -/
def poisonBits (e : Env) (j : Nat) (prev src comp : Word) : Word :=
  let f := fun i => Config.freeBits e.ctr (e.lane * 256 + j) i
  (f 0 &&& prev) ||| (f 1 &&& src) ||| (f 2 &&& comp)

/-- The writes of an instruction of R167: unpoisoned, or all poisoned and no flag raised. -/
def Out.results (e : Env) (v : View) (poison : Bool) (src : Word) (ws : List (Reg × Word)) (flags : BitVec 7 := 0) :
    Out :=
  if poison then { regs := ws.mapIdx fun j w => (w.1, poisonBits e j (v.reg w.1).1 src w.2, true) }
  else { regs := ws.map fun w => (w.1, w.2, false), flags := flags }

/-- The predicate write of an instruction of R167. -/
def Out.predicate (e : Env) (poison : Bool) (d : BitVec 3) (b : Bool) (flags : BitVec 7 := 0) : Out :=
  if poison then { preds := [(d, (Config.freeBits e.ctr (e.lane * 256) 3).getLsbD 0, true)] }
  else { preds := [(d, b, false)], flags := flags }

/-- A predicate byte with one bit replaced; p7 is never written. -/
def setBit8 (v : BitVec 8) (p : BitVec 3) (b : Bool) : BitVec 8 :=
  if p == 7 then v else if b then v ||| ((1 : BitVec 8) <<< p.toNat) else v &&& ~~~((1 : BitVec 8) <<< p.toNat)

/-- A lane with one x register written; x0 discards (R130). -/
def Lane.putX (L : Lane) (n : Nat) (w : Word) (poison : Bool) : Lane :=
  if n = 0 then L else { L with x := L.x.write 0 n w, xp := L.xp.write false n poison }

/-- A lane with one predicate written. -/
def Lane.putP (L : Lane) (p : BitVec 3) (b poison : Bool) : Lane :=
  { L with p := setBit8 L.p p b, pp := setBit8 L.pp p poison }

/-- The lane numbered `l` of a gang. -/
def Gang.lane (G : Gang) (l : Nat) : Lane := G.lanes.getD l { life := .exited }

/-- A gang with a lane replaced. -/
def Gang.putLane (G : Gang) (l : Nat) (L : Lane) : Gang := { G with lanes := G.lanes.set l L }

/-- A gang with one k register written. -/
def Gang.putK (G : Gang) (n : Nat) (w : Word) (poison : Bool) : Gang :=
  { G with k := G.k.write 0 n w, kp := G.kp.write false n poison }

/-- What lane `l` sees. -/
def Gang.view (G : Gang) (l : Nat) : View :=
  let L := G.lane l
  { x := L.x, xp := L.xp, k := G.k, kp := G.kp, p := L.p, pp := L.pp }

/-- A register written by lane `l`, in the bank the operand names (R144). -/
def Gang.putReg (G : Gang) (l : Nat) (r : Reg) (w : Word) (poison : Bool) : Gang :=
  if r.k then G.putK r.n.toNat w poison else G.putLane l ((G.lane l).putX r.n.toNat w poison)

/-- The writes of one lane's result. -/
def Gang.putOut (G : Gang) (l : Nat) (o : Out) : Gang :=
  let L := G.lane l
  let G := G.putLane l { L with fflags := L.fflags ||| o.flags }
  if o.trap.isSome then G
  else
    let G := o.regs.foldl (fun G w => G.putReg l w.1 w.2.1 w.2.2) G
    G.putLane l (o.preds.foldl (fun L w => L.putP w.1 w.2.1 w.2.2) (G.lane l))

/-- What a sequencer sees of its own registers (Table 7.7). -/
def Seq.view (q : Seq) : View := { x := q.r, xp := q.rp, p := q.p, pp := q.pp, zero := false }

/-- One s or q register written. -/
def Seq.putR (q : Seq) (n : Nat) (w : Word) (poison : Bool) : Seq :=
  { q with r := q.r.write 0 n w, rp := q.rp.write false n poison }

/-- The writes of a sequencer's result. -/
def Seq.putOut (q : Seq) (o : Out) : Seq :=
  if o.trap.isSome then q
  else
    let q := o.regs.foldl (fun q w => q.putR w.1.n.toNat w.2.1 w.2.2) q
    o.preds.foldl (fun q w => { q with p := setBit8 q.p w.1 w.2.1, pp := setBit8 q.pp w.1 w.2.2 }) q

end Sys2Proof.Machine
end

