-- ==== Sys2Proof/Machine/Memory.lean ====
section
/-! DEFINITION. Memory (R213 to R227): DRAM with elision codes and poison, the home L2, the RDC, the L1, the coherence
points of each scope, releases and acquires, and translation. Bytes travel with the poison of their sector. -/

namespace Sys2Proof.Machine

/-- A byte with its poison. -/
abbrev PByte := Byte × Bool

/-- What an unlisted byte of DRAM or local store reads as. -/
def emptyByte : Byte := 0

/-- Bytes of one node's stack that addresses reach (R215). -/
def nodeBytes : Nat := 48 * 2 ^ 30

/-- The node of a physical address (R215). -/
def nodeOf (pa : Nat) : Nat := pa / 2 ^ 36

/-- Writes of a run of bytes, as a table by address. -/
def runAt (a : Nat) : List PByte → SMap PByte
  | [] => []
  | b :: bs => (a, b) :: runAt (a + 1) bs

/-- The entries of a table grouped by address divided by `g`, in order. -/
def groupBy (g : Nat) : SMap PByte → List (Nat × SMap PByte)
  | [] => []
  | e :: es =>
    match groupBy g es with
    | (k, m) :: rest => if k = e.1 / g then (k, e :: m) :: rest else (e.1 / g, [e]) :: (k, m) :: rest
    | [] => [(e.1 / g, [e])]

/-- The poison of a sector after a write of the entries to it: set by a poisoned byte, cleared by 32 clean ones (R225). -/
def poisonAfter (old : Bool) (es : SMap PByte) : Bool :=
  if es.any (·.2.2) then true else if es.length = 32 then false else old

/-- Overlay of bytes on a sector held as a vector. -/
def overlay (data : BitVec 256) (es : SMap PByte) : BitVec 256 :=
  es.foldl (fun d e =>
    let o := 8 * (e.1 % 32)
    let b : BitVec 256 := e.2.1.setWidth 256
    let m : BitVec 256 := 0xFF
    (d &&& ~~~(m <<< o)) ||| (b <<< o)) data

/-- The byte at an offset of a sector. -/
def sectorByte (d : BitVec 256) (off : Nat) : Byte := d.extractLsb' (8 * off) 8

/-- The mask of the bytes that the entries write. -/
def byteMask (es : SMap PByte) : BitVec 32 := es.foldl (fun m e => m ||| ((1 : BitVec 32) <<< (e.1 % 32))) 0

/-- The bytes of a sector that a dirty mask names, as writes. -/
def dirtyBytes (sec : Nat) (data : BitVec 256) (dirty : BitVec 32) (poison : Bool) : SMap PByte :=
  ((List.range 32).filter (dirty.getLsbD ·)).map fun i => (32 * sec + i, sectorByte data i, poison)

/-- A sector of 32 bytes as a vector. -/
def ofSector (bs : List PByte) : BitVec 256 := BitVec.ofNat 256 (ofBytes (bs.map (·.1)))

-- DRAM and elision (R224, R225)

/-- The elision code of a block of 128 bytes; bring-up sets every code to 01. -/
def State.code (s : State) (block : Nat) : BitVec 2 := s.elide.get 1 block

/-- A byte of DRAM as its block's code gives it (R224). -/
def State.dramByte (s : State) (pa : Nat) : Byte :=
  match (s.code (pa / 128)).toNat with
  | 0 => SMap.get emptyByte s.hbm pa
  | 1 => 0x00
  | 2 => 0xFF
  | _ => (s.elideConst.get 0 (pa / 4096)).extractLsb' (8 * (pa % 4)) 8

/-- The bytes of DRAM from an address, with their sectors' poison. -/
def State.dram (s : State) (pa n : Nat) : List PByte :=
  (List.range n).map fun i => (s.dramByte (pa + i), s.hbmPoison.get false ((pa + i) / 32))

/-- The words of a block's 128 bytes. -/
def blockWords (es : SMap PByte) : List Nat :=
  (List.range 32).map fun i => ofBytes ((es.drop (4 * i)).take 4 |>.map (·.2.1))

/-- The code that a write of a whole block sets, with its constant (R224); none where the data goes to DRAM. -/
def State.codeFor (s : State) (block : Nat) (es : SMap PByte) : Option (BitVec 2 × Word) :=
  match blockWords es with
  | [] => none
  | w :: ws =>
    if !ws.all (· == w) then none
    else if w = 0 then some (1, 0)
    else if w = 0xFFFFFFFF then some (2, 0)
    else
      let piece := block / 32
      let used := (List.range 32).any fun i => s.code (32 * piece + i) == 3
      if (s.elideConst.get 0 piece).toNat = w || !used then some (3, BitVec.ofNat 32 w) else none

/-- DRAM with the bytes of one block written, poison apart (R224). -/
def State.dramBlock (s : State) (block : Nat) (es : SMap PByte) : State :=
  let store := fun (m : List Host.Cell) (es : SMap PByte) => es.foldl (fun m e => SMap.write emptyByte m e.1 e.2.1) m
  if es.length = 128 then
    match s.codeFor block es with
    | some (c, w) =>
      { s with
        hbm := es.foldl (fun m e => SMap.del m e.1) s.hbm
        elide := s.elide.write 1 block c
        elideConst := if c = 3 then s.elideConst.write 0 (block / 32) w else s.elideConst }
    | none => { s with elide := s.elide.write 1 block 0, hbm := store s.hbm es }
  else
    let old : SMap PByte :=
      if s.code block = 0 then []
      else (List.range 128).map fun i => (128 * block + i, s.dramByte (128 * block + i), false)
    { s with elide := s.elide.write 1 block 0, hbm := store (store s.hbm old) es }

/-- Poison of DRAM sectors after a write. -/
def State.dramPoison (s : State) (ws : SMap PByte) : State :=
  let mark := fun (p : SMap Bool) (g : Nat × SMap PByte) => p.write false g.1 (poisonAfter (p.get false g.1) g.2)
  { s with hbmPoison := (groupBy 32 ws).foldl mark s.hbmPoison }

/-- A write of bytes to DRAM, block by block. -/
def State.dramWrite (s : State) (ws : SMap PByte) : State :=
  ((groupBy 128 ws).foldl (fun s g => s.dramBlock g.1 g.2) s).dramPoison ws

-- Monitors: a write performed at a word's place has its waiters evaluated (R293)

/-- The monitors of the places written are to be evaluated. -/
def State.wake (s : State) (written : Place → Bool) : State :=
  { s with monitors := s.monitors.map fun m => (m.1, { m.2 with pending := m.2.pending || written m.2.place }) }

/-- Whether a table of writes reaches a watched word of memory. -/
def reaches (ws : SMap PByte) : Place → Bool
  | .mem w => ws.any fun e => e.1 / 8 == w
  | .ls _ _ => false

/-- Physical address of the firmware mailbox (R30). -/
def mailbox : Nat := 0x400000

/-- A 64-bit store to offset 0 of the mailbox is an event of the firmware's (R30). -/
def State.mailed (s : State) (ws : SMap PByte) : State :=
  let bs := (List.range 8).filterMap fun i => SMap.find? ws (mailbox + i)
  if bs.length = 8 then
    { s with inputs := s.inputs ++ [.mailboxStore (BitVec.ofNat 64 (ofBytes (bs.map (·.1))))] }
  else s

-- The home L2 and base die (R221, R222)

/-- A write performed at its home's pkg point: through the L2 to DRAM. The L2 keeps which bytes it has yet to write back
(R224). -/
def State.homeWrite (s : State) (ws : SMap PByte) : State :=
  let s := s.dramWrite ws
  let mark := fun (l : SMap Bool) (g : Nat × SMap PByte) =>
    l.put g.1 (poisonAfter ((l.find? g.1).getD (s.hbmPoison.get false g.1)) g.2)
  let dirty := fun (m : SMap (BitVec 32)) (g : Nat × SMap PByte) => m.put g.1 (m.get 0 g.1 ||| byteMask g.2)
  let s := { s with l2 := (groupBy 32 ws).foldl mark s.l2, l2Dirty := (groupBy 32 ws).foldl dirty s.l2Dirty }
  (s.wake (reaches ws)).mailed ws

/-- A write performed at the home base die, past every cache (R222). -/
def State.baseWrite (s : State) (ws : SMap PByte) : State :=
  let s := s.dramWrite ws
  let gone := (groupBy 32 ws).map (·.1)
  let s := { s with l2 := gone.foldl SMap.del s.l2, l2Dirty := gone.foldl SMap.del s.l2Dirty }
  (s.wake (reaches ws)).mailed ws

/-- A sector read at its home L2, which it fills. -/
def State.homeSector (s : State) (sec : Nat) : State × BitVec 256 × Bool :=
  let p := (s.l2.find? sec).getD (s.hbmPoison.get false sec)
  ({ s with l2 := s.l2.put sec p }, ofSector (s.dram (32 * sec) 32), p)

/-- Bytes read at their home's pkg point. -/
def State.homeRead (s : State) (pa n : Nat) : State × List PByte :=
  let secs := (List.range (n / 32 + 2)).map (pa / 32 + ·) |>.filter (32 * · < pa + n)
  let s := secs.foldl (fun s x => (s.homeSector x).1) s
  (s, (List.range n).map fun i =>
    (s.dramByte (pa + i), (s.l2.find? ((pa + i) / 32)).getD false))

-- The RDC (R221)

/-- The RDC's number for a node's copy of a sector. -/
def rdcKey (node sec : Nat) : Nat := node * 2 ^ 40 + sec

/-- The RDC's sector, filled from the home when it is absent. -/
def State.rdcSector (s : State) (node sec : Nat) : State × RdcSector :=
  match s.rdc.find? (rdcKey node sec) with
  | some r => (s, r)
  | none =>
    let (s, d, p) := s.homeSector sec
    let r : RdcSector := ⟨d, 0, p⟩
    ({ s with rdc := s.rdc.put (rdcKey node sec) r }, r)

/-- The RDC's dirty bytes of a sector written back to the home L2; the sector stays, clean. -/
def State.rdcFlush (s : State) (node sec : Nat) : State :=
  match s.rdc.find? (rdcKey node sec) with
  | none => s
  | some r =>
    if r.dirty = 0 then s
    else
      let s := s.homeWrite (dirtyBytes sec r.data r.dirty r.poison)
      { s with rdc := s.rdc.put (rdcKey node sec) { r with dirty := 0 } }

/-- The RDC's dirty bytes of a 128-byte line written back to the home L2 at once; its sectors stay, clean (R224). -/
def State.rdcFlushLine (s : State) (node line : Nat) : State :=
  let secs := [4 * line, 4 * line + 1, 4 * line + 2, 4 * line + 3]
  let out := (secs.map fun x =>
    match s.rdc.find? (rdcKey node x) with
    | some r => dirtyBytes x r.data r.dirty r.poison
    | none => []).flatten
  let s := if out.isEmpty then s else s.homeWrite out
  { s with rdc := secs.foldl (fun m x => m.adjust (rdcKey node x) fun (r : RdcSector) => { r with dirty := 0 }) s.rdc }

-- The die's coherence point (Table 11.4)

/-- A sector read at the die point of a node. -/
def State.dieSector (s : State) (node sec : Nat) : State × BitVec 256 × Bool :=
  if nodeOf (32 * sec) = node then s.homeSector sec
  else
    let (s, r) := s.rdcSector node sec
    (s, r.data, r.poison)

/-- Bytes of one sector written at the die point of a node. -/
def State.dieWrite (s : State) (node sec : Nat) (es : SMap PByte) : State :=
  if nodeOf (32 * sec) = node then s.homeWrite es
  else
    let (s, r) := s.rdcSector node sec
    let r : RdcSector := ⟨overlay r.data es, r.dirty ||| byteMask es, poisonAfter r.poison es⟩
    { s with rdc := s.rdc.put (rdcKey node sec) r }

/-- Bytes of one sector written at the home from a node: the node's RDC, where it holds the sector, takes them too and
counts them clean. -/
def State.pkgWrite (s : State) (node sec : Nat) (es : SMap PByte) : State :=
  let s := s.homeWrite es
  match s.rdc.find? (rdcKey node sec) with
  | none => s
  | some r =>
    let r : RdcSector := ⟨overlay r.data es, r.dirty &&& ~~~(byteMask es), poisonAfter r.poison es⟩
    { s with rdc := s.rdc.put (rdcKey node sec) r }

-- Cores and the L1 (R219)

/-- The core numbered `c`. -/
def State.core (s : State) (c : Nat) : Core := s.cores.get {} c

/-- The state with a core replaced. -/
def State.setCore (s : State) (c : Nat) (k : Core) : State := { s with cores := s.cores.put c k }

/-- The L1's number of a sector, by world. -/
def l1Key (sec : Nat) (secure : Bool) : Nat := 2 * sec + if secure then 1 else 0

/-- The node of a core. -/
def coreNode (c : Nat) : Nat := c / 512

/-- A sector put into a core's L1. -/
def State.putL1 (s : State) (c key : Nat) (x : L1Sector) : State :=
  s.setCore c { s.core c with l1 := (s.core c).l1.put key x }

/-- The dirty bytes of an L1 sector written back to the die point; the sector stays, clean. -/
def State.l1Flush (s : State) (c key : Nat) : State :=
  match (s.core c).l1.find? key with
  | none => s
  | some x =>
    if x.dirty = 0 then s
    else
      let s := s.dieWrite (coreNode c) (key / 2) (dirtyBytes (key / 2) x.data x.dirty x.poison)
      s.putL1 c key { x with dirty := 0 }

/-- The number of the 128-byte line of an L1 key: twice the line plus its world. -/
def l1Line (key : Nat) : Nat := key / 8 * 2 + key % 2

/-- A line that an access brings into a core's L1 marked as the first of its set to be evicted, or not, by the access's
policy (R228). A line that is there keeps its mark. -/
def State.allocate (s : State) (c key : Nat) (pol : Policy) : State :=
  let K := s.core c
  let line := l1Line key
  if K.l1.any fun e => l1Line e.1 == line then s
  else
    match pol with
    | .nc => s
    | .normal => if K.first.contains line then s.setCore c { K with first := K.first.filter (· != line) } else s
    | .stream => if K.first.contains line then s else s.setCore c { K with first := line :: K.first }

/-- The L1's sector, filled from the die point when it is absent. -/
def State.l1Sector (s : State) (c sec : Nat) : State × L1Sector :=
  let key := l1Key sec (s.core c).secure
  match (s.core c).l1.find? key with
  | some x => (s, x)
  | none =>
    let (s, d, p) := s.dieSector (coreNode c) sec
    let x : L1Sector := ⟨d, 0, p, .gang⟩
    (s.putL1 c key x, x)

/-- A sector as a core's load at a scope and policy reads it (R219, R228, R230). A load at die scope or wider first
writes the core's own dirty bytes of the sector back, reads at the scope's point and refreshes the caches before it. -/
def State.loadSector (s : State) (c sec : Nat) (sc : Scope) (pol : Policy) : State × BitVec 256 × Bool :=
  let key := l1Key sec (s.core c).secure
  let node := coreNode c
  let s := s.allocate c key pol
  if !sc.wide && pol != .nc then
    let (s, x) := s.l1Sector c sec
    (s, x.data, x.poison)
  else
    let s := s.l1Flush c key
    let (s, d, p) :=
      if sc.pkgWide && nodeOf (32 * sec) != node then
        let s := s.rdcFlush node sec
        let (s, d, p) := s.homeSector sec
        ({ s with rdc := s.rdc.put (rdcKey node sec) ⟨d, 0, p⟩ }, d, p)
      else s.dieSector node sec
    match (s.core c).l1.find? key, pol with
    | some x, _ => (s.putL1 c key { x with data := d, poison := p, dirty := 0 }, d, p)
    | none, .nc => (s, d, p)
    | none, .normal | none, .stream => (s.putL1 c key ⟨d, 0, p, .gang⟩, d, p)

/-- Bytes of one sector stored by a core at a scope and policy (R219, R228, R230). -/
def State.storeSector (s : State) (c sec : Nat) (es : SMap PByte) (sc : Scope) (pol : Policy) : State :=
  let key := l1Key sec (s.core c).secure
  let node := coreNode c
  let s := s.allocate c key pol
  if !sc.wide && pol != .nc then
    let (s, x) := s.l1Sector c sec
    s.putL1 c key ⟨overlay x.data es, x.dirty ||| byteMask es, poisonAfter x.poison es, sc⟩
  else
    match (s.core c).l1.find? key with
    | some x =>
      let merged : L1Sector := ⟨overlay x.data es, 0, poisonAfter x.poison es, if pol = .nc then x.tag else sc⟩
      let out := dirtyBytes sec merged.data (x.dirty ||| byteMask es) merged.poison
      let s := if sc.pkgWide then s.pkgWrite node sec out else s.dieWrite node sec out
      s.putL1 c key merged
    | none =>
      let s := if sc.pkgWide then s.pkgWrite node sec es else s.dieWrite node sec es
      if pol = .nc then s
      else
        let (s, d, p) := s.dieSector node sec
        s.putL1 c key ⟨d, 0, p, sc⟩

/-- Sectors that the bytes `[pa, pa + n)` touch. -/
def sectorsOf (pa n : Nat) : List Nat := (List.range (n / 32 + 2)).map (pa / 32 + ·) |>.filter (32 * · < pa + n)

/-- Bytes of region 000 as a core's load reads them; a memory-side page is read at its base die (R222). -/
def State.loadBytes (s : State) (c pa n : Nat) (sc : Scope) (pol : Policy) (ms : Bool) : State × List PByte :=
  if ms then (s, s.dram pa n)
  else
    let (s, secs) := (sectorsOf pa n).foldl (fun (r : State × SMap (BitVec 256 × Bool)) sec =>
        let (s, d, p) := r.1.loadSector c sec sc pol
        (s, r.2.put sec (d, p))) (s, [])
    (s, (List.range n).map fun i =>
      let x := secs.get (0, false) ((pa + i) / 32)
      (sectorByte x.1 ((pa + i) % 32), x.2))

/-- Bytes of region 000 as a core's store writes them. -/
def State.storeBytes (s : State) (c : Nat) (ws : SMap PByte) (sc : Scope) (pol : Policy) (ms : Bool) : State :=
  if ms then s.baseWrite ws
  else (groupBy 32 ws).foldl (fun s g => s.storeSector c g.1 g.2 sc pol) s

-- Releases and acquires (R220)

/-- Every dirty sector of a core's L1 that `p` picks is written back to the die point. -/
def State.l1FlushAll (s : State) (c : Nat) (p : L1Sector → Bool) : State :=
  (s.core c).l1.foldl (fun s e => if p e.2 then s.l1Flush c e.1 else s) s

/-- Every dirty byte of a node's RDC is written back to its home. -/
def State.rdcFlushAll (s : State) (node : Nat) : State :=
  ((s.rdc.filter (·.1 / 2 ^ 40 == node)).map (·.1 % 2 ^ 40 / 4)).dedup.foldl (fun s line => s.rdcFlushLine node line) s

/-- The cache actions of a release at a scope by a core (R220). -/
def State.releaseAt (s : State) (c : Nat) (sc : Scope) : State :=
  let s := if sc.wide then s.l1FlushAll c (fun x => !x.tag.wide) else s
  if sc.pkgWide then s.rdcFlushAll (coreNode c) else s

/-- The cache actions of an acquire at a scope by a core (R220). -/
def State.acquireAt (s : State) (c : Nat) (sc : Scope) : State :=
  let s := if sc.wide then
      let s := s.l1FlushAll c (fun _ => true)
      s.setCore c { s.core c with l1 := [] }
    else s
  if sc.pkgWide then
    let s := s.rdcFlushAll (coreNode c)
    { s with rdc := s.rdc.filter fun e => e.1 / 2 ^ 40 != coreNode c }
  else s

/-- The four sectors of a line. -/
def lineSectors (line : Nat) : List Nat := [4 * line, 4 * line + 1, 4 * line + 2, 4 * line + 3]

/-- A line of a core's L1, by `l1Line`, evicted: its dirty bytes are written back first (R219). -/
def State.l1Evict (s : State) (c line : Nat) : State :=
  let keys := (lineSectors (line / 2)).map fun x => 2 * x + line % 2
  let s := keys.foldl (fun s key => s.l1Flush c key) s
  s.setCore c { s.core c with l1 := keys.foldl SMap.del (s.core c).l1 }

/-- A line of a die's RDC, by `rdcKey` divided by 4, evicted: its dirty bytes are written back first (R221). -/
def State.rdcEvict (s : State) (line : Nat) : State :=
  let s := s.rdcFlushLine (line / 2 ^ 38) (line % 2 ^ 38)
  { s with rdc := (lineSectors line).foldl SMap.del s.rdc }

/-- A line of a home L2 evicted: poison of a sector that it has to write back goes to DRAM, and a line that is written back
whole sets its block's elision code (R224, R225). -/
def State.l2Evict (s : State) (line : Nat) : State :=
  let secs := lineSectors line
  let bad := secs.filter fun x => s.l2Dirty.get 0 x != 0 && (s.l2.find? x).getD false
  let s := { s with hbmPoison := bad.foldl (fun m x => m.write false x true) s.hbmPoison }
  let s := if secs.all (s.l2Dirty.get 0 · == ~~~0) then
      s.dramBlock line ((List.range 128).map fun i => (128 * line + i, s.dramByte (128 * line + i), false))
    else s
  { s with l2 := secs.foldl SMap.del s.l2, l2Dirty := secs.foldl SMap.del s.l2Dirty }

/-- Ways of an L1, an RDC and an L2, and their sets (R219, R221): 32 KiB, 8 MiB and 32 MiB in lines of 128 bytes. -/
def l1Ways : Nat := 4
def l1Sets : Nat := 64
def farWays : Nat := 16
def rdcSets : Nat := 4096
def l2Sets : Nat := 16384

/-- The lines of a cache that leave it, of each set those marked `first` before the others: the device chooses how many,
but no set keeps more than its ways. -/
def victims (ctr of_ ways : Nat) (set : Nat → Nat) (first : Nat → Bool) (lines : List Nat) : List Nat :=
  let goes := fun (x : Nat) => (Config.freeBits ctr of_ x).getLsbD 0
  ((lines.map set).dedup.map fun n =>
    let mine := lines.filter (set · == n)
    let marked := mine.filter first
    let rest := mine.filter fun x => !first x
    let some_ := if rest.any goes then marked.length + (rest.filter goes).length else (marked.filter goes).length
    let order := marked.filter goes ++ marked.filter (!goes ·) ++ rest.filter goes ++ rest.filter (!goes ·)
    order.take (Nat.max some_ (mine.length - ways))).flatten

/-- The lines that the L1s, the RDCs and the L2s evict before a step. -/
def State.evictions (s : State) : State :=
  let l1 := (s.cores.map fun (c : Nat × Core) =>
    (victims s.ctr (2 ^ 35 + c.1) l1Ways (· / 2 % l1Sets) c.2.first.contains (c.2.l1.map (l1Line ·.1)).dedup).map
      fun line => (c.1, line)).flatten
  let s := l1.foldl (fun s x => s.l1Evict x.1 x.2) s
  let rdc := victims s.ctr (2 ^ 36) farWays (fun x => x / 2 ^ 38 * rdcSets + x % rdcSets) (fun _ => false)
    (s.rdc.map (·.1 / 4)).dedup
  let s := rdc.foldl State.rdcEvict s
  (victims s.ctr (2 ^ 34) farWays (fun x => x / 2 ^ 29 * l2Sets + x % l2Sets) (fun _ => false)
    (s.l2.map (·.1 / 4)).dedup).foldl State.l2Evict s

-- Local store (R218, R225)

/-- Bytes of a block's window. -/
def Block.lsRead (b : Block) (off n : Nat) : List PByte :=
  (List.range n).map fun i => (SMap.get emptyByte b.ls (off + i), b.lsPoison.get false ((off + i) / 32))

/-- A block's window with bytes written. -/
def Block.lsWrite (b : Block) (ws : SMap PByte) : Block :=
  { b with
    ls := ws.foldl (fun m e => SMap.write emptyByte m e.1 e.2.1) b.ls
    lsPoison := (groupBy 32 ws).foldl (fun p g => p.write false g.1 (poisonAfter (p.get false g.1) g.2)) b.lsPoison }

/-- The state with a block replaced. -/
def State.setBlock (s : State) (b : Nat) (B : Block) : State := { s with blocks := s.blocks.put b B }

/-- Bytes of a block's window read; none where there is no such block. -/
def State.lsRead (s : State) (b off n : Nat) : List PByte :=
  match s.blocks.find? b with
  | some B => B.lsRead off n
  | none => List.replicate n (0, false)

/-- Bytes of a block's window written. -/
def State.lsWrite (s : State) (b : Nat) (ws : SMap PByte) : State :=
  match s.blocks.find? b with
  | none => s
  | some B =>
    (s.setBlock b (B.lsWrite ws)).wake fun p =>
      match p with
      | .ls b' w => b' == b && ws.any fun e => e.1 / 8 == w
      | .mem _ => false

-- Translation (R214 to R217)

/-- Whose access is translated: its tags, its world, and whether it is a U-mode access. -/
structure Agent where
  node : Nat
  hyp : Bool
  asid : Nat
  vmid : Nat
  secure : Bool
  user : Bool
  deriving DecidableEq, Repr

/-- What an access does to a page. -/
inductive Access where
  | read | write | exec | readOrWrite | readWrite
  deriving DecidableEq, Repr

/-- Why a translation fails. -/
structure PageFault where
  cause : BitVec 8
  host : Bool
  migrating : Bool
  deriving DecidableEq, Repr

/-- The levels of a table: shift and number of index bits (R215). -/
def levels : List (Nat × Nat) := [(39, 9), (30, 9), (21, 9), (16, 5)]

/-- A leaf of one stage: output address of the page, base-2 logarithm of its size, and its low bits. -/
structure Leaf where
  out : Nat
  bits : Nat
  e : BitVec 64
  deriving DecidableEq, Repr

/-- How an 8-byte entry at an address is read during a walk. -/
abbrev EntryRead := State → Nat → State × Except PageFault (BitVec 64)

/-- Whether a physical address lies beyond the memory of the nodes (R215). -/
def beyondNodes (pa : Nat) : Bool := pa / 2 ^ 43 ≠ 0 || nodeBytes ≤ pa % 2 ^ 36

/-- Whether an entry breaks R215 at the level of shift `sh`, valid or not (Table 11.3, row 2). The entry of level 0 that is
neither valid nor a table's is no leaf. -/
def entryBreaks (guest last : Bool) (sh : Nat) (e : BitVec 64) : Bool :=
  let out := (e.extractLsb' 8 40).toNat * 256
  let page := out - (if e.getLsbD 9 then 512 else 0)
  e.extractLsb' 48 16 ≠ 0 || (guest && e.getLsbD 6) ||
    if e.getLsbD 1 then last || out % (if sh = 21 then 256 else 4096) ≠ 0 || (!guest && beyondNodes out)
    else if sh = 39 then e.getLsbD 0
    else page % 2 ^ sh ≠ 0 || (!guest && beyondNodes page)

/-- One stage's walk from a table's address down the levels (R215, R216). -/
def walkLevels (guest : Bool) (rd : EntryRead) (a : Nat) :
    List (Nat × Nat) → Nat → State → State × Except PageFault Leaf
  | [], _, s => (s, .error ⟨0x06, !guest, false⟩)
  | (sh, n) :: rest, table, s =>
    match rd s (table + 8 * (a / 2 ^ sh % 2 ^ n)) with
    | (s, .error f) => (s, .error f)
    | (s, .ok e) =>
      let out := (e.extractLsb' 8 40).toNat * 256
      if entryBreaks guest rest.isEmpty sh e then (s, .error ⟨0x06, !guest, false⟩)
      else if !e.getLsbD 0 then (s, .error ⟨0x05, !guest, false⟩)
      else if e.getLsbD 1 then walkLevels guest rd a rest out s
      else (s, .ok ⟨out - (if e.getLsbD 9 then 512 else 0), sh, e⟩)

/-- An entry read at a physical address (R216); a poisoned one raises cause 0x07. -/
def entryAt (host : Bool) : EntryRead := fun s pa =>
  let (s, bs) := s.homeRead pa 8
  if bs.any (·.2) then (s, .error ⟨0x07, host, false⟩) else (s, .ok (BitVec.ofNat 64 (ofBytes (bs.map (·.1)))))

/-- Physical address of the translation-root table (R214). -/
def rootTable : Nat := 0x100000

/-- The host stage of a VMID: the leaf that an intermediate address reaches. No VMID is above 63 (R19, R214). -/
def hostWalk (vmid ia : Nat) (s : State) : State × Except PageFault Leaf :=
  if 64 ≤ vmid then (s, .error ⟨0x05, true, false⟩) else
  match entryAt true s (rootTable + 32 * vmid) with
  | (s, .error f) => (s, .error f)
  | (s, .ok root) =>
    if root = 0 then (s, .error ⟨0x05, true, false⟩)
    else if root.toNat % 4096 ≠ 0 || beyondNodes root.toNat then (s, .error ⟨0x06, true, false⟩)
    else walkLevels false (entryAt true) ia levels root.toNat s

/-- The physical address that a leaf gives an address. -/
def Leaf.addr (l : Leaf) (a : Nat) : Nat := l.out + a % 2 ^ l.bits

/-- An entry that the guest stage reads: its address goes through the host stage first, a load by the agent's world under
every row of Table 11.3 (R216, R24). -/
def guestEntry (vmid : Nat) (secure : Bool) : EntryRead := fun s ia =>
  match hostWalk vmid ia s with
  | (s, .error f) => (s, .error f)
  | (s, .ok l) =>
    if l.e.getLsbD 9 then (s, .error ⟨0x05, true, true⟩)
    else if !l.e.getLsbD 2 || (!secure && l.e.getLsbD 6) then (s, .error ⟨0x06, true, false⟩)
    else entryAt false s (l.addr ia)

/-- The entry a TLB takes from the leaves of both stages. -/
def tlbOf (ag : Agent) (va : Nat) (g h : Leaf) (pa : Nat) : TlbEntry :=
  let bits := Nat.min g.bits h.bits
  { hyp := ag.hyp, asid := if ag.hyp then 0 else ag.asid, vmid := if ag.hyp then 0 else ag.vmid, secure := ag.secure,
    va := va / 2 ^ bits * 2 ^ bits, bits := bits, pa := pa / 2 ^ bits * 2 ^ bits,
    gR := g.e.getLsbD 2, gW := g.e.getLsbD 3, gX := g.e.getLsbD 4, gU := g.e.getLsbD 5,
    hR := h.e.getLsbD 2, hW := h.e.getLsbD 3, hX := h.e.getLsbD 4, s := h.e.getLsbD 6,
    ms := g.e.getLsbD 7 || h.e.getLsbD 7 }

/-- A whole walk (R216): the TLB entry, or the first row of Table 11.3 that applies before the permissions. -/
def fullWalk (ag : Agent) (va : Nat) (s : State) : State × Except PageFault TlbEntry :=
  if ag.hyp then
    match hostWalk 0 va s with
    | (s, .error f) => (s, .error f)
    | (s, .ok h) =>
      if h.e.getLsbD 9 then (s, .error ⟨0x05, true, true⟩)
      else (s, .ok (tlbOf ag va ⟨va / 2 ^ h.bits * 2 ^ h.bits, h.bits, 0x3D⟩ h (h.addr va)))
  else
    match entryAt true s (rootTable + 32 * ag.vmid + 8) with
    | (s, .error f) => (s, .error f)
    | (s, .ok gtab) =>
      if gtab.toNat % 8 ≠ 0 || gtab.toNat / 2 ^ 48 ≠ 0 then (s, .error ⟨0x06, true, false⟩) else
      match guestEntry ag.vmid ag.secure s (gtab.toNat + 8 * ag.asid) with
      | (s, .error f) => (s, .error f)
      | (s, .ok root) =>
        if root = 0 then (s, .error ⟨0x05, false, false⟩)
        else if root.toNat % 4096 ≠ 0 || root.toNat / 2 ^ 48 ≠ 0 then (s, .error ⟨0x06, false, false⟩)
        else
          match walkLevels true (guestEntry ag.vmid ag.secure) va levels root.toNat s with
          | (s, .error f) => (s, .error f)
          | (s, .ok g) =>
            match hostWalk ag.vmid (g.addr va) s with
            | (s, .error f) => (s, .error f)
            | (s, .ok h) =>
              if g.e.getLsbD 9 then (s, .error ⟨0x05, false, true⟩)
              else if h.e.getLsbD 9 then (s, .error ⟨0x05, true, true⟩)
              else (s, .ok (tlbOf ag va g h (h.addr (g.addr va))))

/-- Whether a TLB entry translates an agent's address (R217). -/
def TlbEntry.hits (t : TlbEntry) (ag : Agent) (va : Nat) : Bool :=
  !t.poison && t.hyp == ag.hyp && t.secure == ag.secure && (ag.hyp || (t.asid == ag.asid && t.vmid == ag.vmid)) &&
    va / 2 ^ t.bits == t.va / 2 ^ t.bits

/-- The rows of Table 11.3 about permissions, for a page that is translated. -/
def TlbEntry.check (t : TlbEntry) (ag : Agent) (acc : Access) : Option PageFault :=
  let ok := fun (r w x : Bool) =>
    match acc with
    | .read => r
    | .write => w
    | .exec => x
    | .readOrWrite => r || w
    | .readWrite => r && w
  if !ok t.gR t.gW t.gX then some ⟨0x06, false, false⟩
  else if !ok t.hR t.hW t.hX then some ⟨0x06, true, false⟩
  else if ag.user && !t.gU then some ⟨0x06, false, false⟩
  else if !ag.secure && t.s then some ⟨0x06, true, false⟩
  else none

/-- The shared TLB of a die (R217). -/
def State.stlbOf (s : State) (node : Nat) : List TlbEntry := s.stlb.get [] node

/-- Entries of a TLB that a fill leaves in it: which others it displaces, the spec leaves open (R217). -/
def kept (ctr of_ : Nat) (ts : List TlbEntry) : List TlbEntry :=
  ((ts.mapIdx fun i t => (i, t)).filter fun x => !(Config.freeBits ctr of_ x.1).getLsbD 0).map (·.2)

/-- The set of a shared TLB that an entry stands in: 1,024 sets of 8 ways, by page number. -/
def TlbEntry.set (t : TlbEntry) : Nat := t.va / 2 ^ t.bits % 1024

/-- A translation put into a die's shared TLB: of its set at most seven others stay (R217). -/
def State.fillStlb (s : State) (node : Nat) (t : TlbEntry) : State :=
  let same := (s.stlbOf node).filter fun x => x.set == t.set
  let others := (s.stlbOf node).filter fun x => x.set != t.set
  { s with stlb := s.stlb.put node (t :: ((kept s.ctr (2 ^ 38 + node) same).take 7 ++ others)) }

/-- A translation put into a core's micro-TLB, which holds 64. -/
def State.fillUtlb (s : State) (c : Nat) (t : TlbEntry) : State :=
  s.setCore c { s.core c with utlb := (t :: kept s.ctr (2 ^ 37 + c) (s.core c).utlb).take 64 }

/-- A translation by an agent of the device that walks at once: a copy, a walker, the launch processor. -/
def translateNow (ag : Agent) (acc : Access) (va : Nat) (s : State) : State × Except PageFault TlbEntry :=
  let r : State × Except PageFault TlbEntry :=
    match (s.stlbOf ag.node).find? (·.hits ag va) with
    | some t => (s, .ok t)
    | none =>
      match fullWalk ag va s with
      | (s, .ok t) => (s.fillStlb ag.node t, .ok t)
      | (s, .error f) => (s, .error f)
  match r with
  | (s, .error f) => (s, .error f)
  | (s, .ok t) =>
    match t.check ag acc with
    | some f => (s, .error f)
    | none => (s, .ok t)

/-- The physical address that a translation gives an address. -/
def TlbEntry.addr (t : TlbEntry) (va : Nat) : Nat := t.pa + va % 2 ^ t.bits

/-- The region of a virtual address (Table 11.1). -/
def region (a : DWord) : Nat := a.toNat / 2 ^ 61

/-- Bytes of region 000 that an agent of the device reads at their pkg points, translated as it reads; an access does
not cross a page's natural 64 KiB piece. -/
def devRead (ag : Agent) (a : DWord) (n : Nat) (s : State) : State × Except PageFault (List PByte) :=
  if a.toNat / 2 ^ 48 ≠ 0 then (s, .error ⟨0x06, false, false⟩)
  else
    match translateNow ag .read a.toNat s with
    | (s, .error f) => (s, .error f)
    | (s, .ok t) =>
      if t.ms then (s, .ok (s.dram (t.addr a.toNat) n))
      else
        let (s, bs) := s.homeRead (t.addr a.toNat) n
        (s, .ok bs)

/-- Bytes of region 000 that an agent of the device writes at their pkg points. -/
def devWrite (ag : Agent) (a : DWord) (bs : List PByte) (s : State) : State × Except PageFault Unit :=
  if a.toNat / 2 ^ 48 ≠ 0 then (s, .error ⟨0x06, false, false⟩)
  else
    match translateNow ag .write a.toNat s with
    | (s, .error f) => (s, .error f)
    | (s, .ok t) =>
      let ws := runAt (t.addr a.toNat) bs
      (if t.ms then s.baseWrite ws else s.homeWrite ws, .ok ())

/-- Clean bytes. -/
def clean (bs : List Byte) : List PByte := bs.map (·, false)

/-- A read whose bytes must all be clean: poison counts as cause 0x07. -/
def devReadClean (ag : Agent) (a : DWord) (n : Nat) (s : State) : State × Except PageFault (List Byte) :=
  match devRead ag a n s with
  | (s, .error f) => (s, .error f)
  | (s, .ok bs) => if bs.any (·.2) then (s, .error ⟨0x07, false, false⟩) else (s, .ok (bs.map (·.1)))

end Sys2Proof.Machine
end

