-- ==== Sys2Proof/WellFormed.lean ====
section
/-! DEFINITION. Which instructions an engine's encoding admits: the checks of rows 1 to 3 of Table 7.9 that are about
the operands' values rather than about the bits of a field. -/

namespace Sys2Proof

/-- An immediate of a scalar 16-bit floating type has its upper half zero (R128). -/
def Src.halfOk (t : Ty) : Src → Bool
  | .reg _ => true
  | .imm v => !t.half || v.extractLsb' 16 16 == 0

/-- The widths 2^w of a segment, w at most 5 (R156). -/
def segOk (w : BitVec 4) : Bool := w.toNat ≤ 5

/-- The steps of GROW and SHRINK: a multiple of 8 from 8 to 248 (R160). -/
def growOk (n : Word) : Bool := n.toNat % 8 == 0 && 8 ≤ n.toNat && n.toNat ≤ 248

/-- `.v2` and `.v4` go with 32- and 64-bit types only (R228). -/
def countOk (c : Count) (t : Ty) : Bool := t.isInt && (c == .one || 32 ≤ t.width)

/-- `.sc` goes with no order and with scopes die and pkg only (R289). -/
def scOk (sc : Bool) (relaxed : Bool) (s : Scope) : Bool := !sc || (relaxed && (s == .die || s == .pkg))

/-- The field rules of a counter locator (R238): with V clear every other bit is 0, and bits [29:24] are 0. -/
def locatorOk (l : Word) : Bool := l == 0 || (l.getLsbD 31 && l.extractLsb' 24 6 == 0)

/-- The types of an atomic operation (Table 14.2). -/
def AtomOp.okTy (op : AtomOp) (t : Ty) : Bool := if op = .add then t.atomAdd else t.int3264

/-- The limits that an instruction's own entry puts on its operands. -/
def Instr.entryOk (e : Engine) : Instr → Bool
  | .call _ d _ | .callx _ d _ => d != 0
  | .fork _ _ m c _ => m || c
  | .voteAny _ w _ _ | .voteAll _ w _ _ | .voteBallot _ w _ _ | .voteEq _ w _ _ | .voteCnt _ w _ _ => segOk w
  | .shflPick _ w _ _ _ _ | .shflFwd _ w _ _ _ _ | .shflBack _ w _ _ _ _ | .shflFlip _ w _ _ _ _
  | .shflRot _ w _ _ _ _ => segOk w
  | .redux _ op t _ _ =>
    t == .i32 || t == .n32 || (t == .f32 && (op == .add || op == .min || op == .max))
  | .bmaskPre _ w _ | .bmaskPost _ w _ | .bmaskSeg _ w _ => segOk w
  | .grow _ _ n | .growTry _ _ n | .shrink _ n => growOk n
  | .gets _ wide _ num => specialOn num.toNat e && specialWidth num.toNat == some (if wide then 64 else 32)
  | .sets _ num _ => specialOn num.toNat e && specialRW num.toNat
  | .mov _ t _ _ | .add _ t _ _ _ _ | .sub _ t _ _ _ _ | .mul _ t _ _ _ _ | .mad _ t _ _ _ _ | .mulhi _ t _ _ _
  | .div _ t _ _ _ | .rem _ t _ _ _ | .and _ t _ _ _ | .or _ t _ _ _ | .xor _ t _ _ _ | .shfShl _ t _ _ _
  | .shfShr _ t _ _ _ | .shfRotl _ t _ _ _ | .shfRotr _ t _ _ _ | .cmp _ _ t _ _ _ | .sel _ t _ _ _ _
  | .min _ t _ _ _ | .max _ t _ _ _ => t.isInt
  | .madWide _ t _ _ _ _ => t == .i32 || t == .n32
  | .abs _ t _ _ _ => t.signed
  | .bitcPopc _ t _ _ | .bitcClz _ t _ _ | .bitcCtz _ t _ _ | .bitcBrev _ t _ _ | .bfe _ t _ _ _ | .bfi _ t _ _ _ _
  | .lea _ t _ _ _ _ => t.int3264
  | .fadd _ _ t _ _ b | .fsub _ _ t _ _ b | .fmul _ _ t _ _ b | .ffma _ _ t _ _ b _ | .fmin _ t _ _ b
  | .fmax _ t _ _ b | .fsgnCopy _ t _ _ b | .fsgnXor _ t _ _ b => t.isFloat && b.halfOk t
  | .fcmp _ _ t _ _ b | .fdiv _ _ t _ _ b => t.scalarFloat && b.halfOk t
  | .fsgnNeg _ t _ _ | .fsgnAbs _ t _ _ => t.isFloat
  | .fsqrt _ _ t _ _ | .fclass _ t _ _ | .frnd _ _ t _ _ => t.scalarFloat
  | .cvt _ dt sty _ _ _ _ | .cvtSlot _ dt sty _ _ _ => !dt.packed && !sty.packed
  | .cvtPacked _ dt _ _ _ _ _ => dt.packed
  | .cvtn _ t _ _ _ _ | .cvtw _ t _ _ _ _ => t == .f32 || t == .i32
  | .ld _ cnt t _ _ _ _ _ | .st _ cnt t _ _ _ _ _ | .ldk _ cnt t _ _ _ _ => countOk cnt t
  | .pref _ s _ _ => s == .gang || s == .blk || s == .die
  | .stage _ n | .xgate _ n => n != 0
  | .bulk _ a b => a.toNat % 8 == 0 && (match b with | .reg _ => true | .imm v => v.extractLsb' 16 16 == 0)
  | .cpy _ _ _ _ loc | .xfer _ _ _ _ loc | .xfer2d _ _ _ _ loc | .xslide _ _ _ _ loc => locatorOk loc
  | .fencex _ _ n => n != 0
  | .atom _ op t ord sc _ s _ _ _ _ => op.okTy t && scOk sc (ord == .relaxed) s
  | .atomCas _ t ord sc _ s _ _ _ _ _ => t.int3264 && scOk sc (ord == .relaxed) s
  | .red _ op t rel sc _ s _ _ _ => op != .exch && op.okTy t && scOk sc (!rel) s
  | .waita _ _ t _ _ _ _ _ _ => t.int3264
  | .mfs _ _ num => (privWidth num.toNat).isSome
  | .mts _ num _ => (privWidth num.toNat).isSome && num != gholdNumber
  | _ => true

/-- The forms an engine's lines admit: the OP is the engine's (Table 7.10), every register field lies in Table 7.7 and
every pair is even (R130), no form writes p7, and the entry's own limits hold. -/
def Instr.wf (e : Engine) (i : Instr) : Bool :=
  (opEngines i.op.toNat).contains e && (i.regs e).all (·.ok e) && i.predDest != some 7 && i.entryOk e

end Sys2Proof
end

