-- ==== Sys2Proof/Machine/Ops.lean ====
section
/-! DEFINITION. The shared operations of the machine: gangs, lanes and their waits; fault records and queues; leaving,
barriers and rendezvous points; taking a trap and returning from one; sequencer stops; and the wrappers that run an
instruction for an issue group or a sequencer with the checks of Table 7.9. -/

namespace Sys2Proof.Machine

-- Parts by number

/-- The core of a gang, and of a block, by number. -/
def coreOf (k : Nat) : Nat := k / 16

/-- The state with a gang replaced. -/
def State.setGang (s : State) (k : Nat) (G : Gang) : State := { s with gangs := s.gangs.put k G }

/-- The state with a change made to a gang, if it is there. -/
def State.onGang (s : State) (k : Nat) (f : Gang → Gang) : State :=
  match s.gangs.find? k with
  | some G => s.setGang k (f G)
  | none => s

/-- The state with a change made to a block, if it is there. -/
def State.onBlock (s : State) (b : Nat) (f : Block → Block) : State :=
  match s.blocks.find? b with
  | some B => s.setBlock b (f B)
  | none => s

/-- The state with a change made to a lane. -/
def State.onLane (s : State) (k l : Nat) (f : Lane → Lane) : State :=
  s.onGang k fun G => G.putLane l (f (G.lane l))

/-- The lane numbered `l` of gang `k`; an exited lane where there is none. -/
def State.lane (s : State) (k l : Nat) : Lane :=
  match s.gangs.find? k with
  | some G => G.lane l
  | none => { life := .exited }

/-- The block of a gang. -/
def State.blockOf (s : State) (k : Nat) : Option Block :=
  (s.gangs.find? k).bind fun G => s.blocks.find? G.block

/-- The number of the context a node runs. -/
def State.ctxId (s : State) (node : Nat) : Nat := s.dieCtx.get 0 node

/-- The context a core runs (R337). -/
def State.ctxOf (s : State) (core : Nat) : Ctx := s.ctxs.get {} (s.ctxId (coreNode core))

/-- Whose access a lane makes (R214, R324). -/
def State.agent (s : State) (core : Nat) (m : Mode) : Agent :=
  let c := s.ctxOf core
  { node := coreNode core, hyp := m == .hypervisor, asid := c.asid, vmid := c.vmid, secure := (s.core core).secure,
    user := m == .user }

/-- A device agent of a context on a node, with the rights of S mode. -/
def ctxAgent (node : Nat) (c : Ctx) : Agent := ⟨node, false, c.asid, c.vmid, c.secure, false⟩

-- Program counters (R120, Succ of chapter 8)

/-- The sequential successor of an instruction. -/
def succ (a : DWord) : DWord := if a.toNat % 64 = 48 then a + 16 else a + 12

/-- Faults of walks, lines fetched again and answers of remote requests that lanes have had delivered, dropped: their
instruction is over. -/
def Gang.settled (G : Gang) (m : Mask) : Gang :=
  { G with
    walkFaults := (G.walkFaults.map fun w => { w with lanes := w.lanes &&& ~~~m }).filter (·.lanes != 0)
    refetched := (G.refetched.map fun r => (r.1 &&& ~~~m, r.2)).filter (·.1 != 0)
    answers := G.answers.filter fun a => !m.getLsbD a.lane }

/-- Lanes of a gang moved on to the successors of their instructions. -/
def Gang.advance (G : Gang) (m : Mask) : Gang :=
  (lanesOf m).foldl (fun G l => G.putLane l { G.lane l with pc := succ (G.lane l).pc }) (G.settled m)

/-- A lane of a gang sent to an address, with the checks that the next fetch makes (Table 7.2): the TARGET bit, and
offset 0. -/
def Gang.jump (G : Gang) (l : Nat) (pc : DWord) (target entry : Bool := false) : Gang :=
  let G := G.settled (laneBit l)
  G.putLane l { G.lane l with pc := pc, checkTarget := target, checkEntry := entry }

/-- A sequencer moved on to the successor of its instruction. -/
def Seq.advance (q : Seq) : Seq := { q with pc := succ q.pc, walkFaults := [], refetched := none }

/-- Lanes of a gang moved on. -/
def State.advance (s : State) (k : Nat) (m : Mask) : State := s.onGang k (·.advance m)

-- Waits

/-- A gang with lanes set to wait at an instruction. -/
def Gang.wait (G : Gang) (m : Mask) (pc : DWord) (kind : WaitKind) : Gang :=
  if m = 0 then G else { G with waits := G.waits ++ [⟨m, pc, kind⟩] }

/-- A gang with lanes taken out of every wait. -/
def Gang.unwait (G : Gang) (m : Mask) : Gang :=
  { G with waits := G.waits.filterMap fun w =>
    if w.lanes &&& m = 0 then some w
    else if w.lanes &&& ~~~m = 0 then none
    else some { w with lanes := w.lanes &&& ~~~m } }

/-- Lanes that wait for something. -/
def Gang.waiting (G : Gang) : Mask := G.waits.foldl (fun m w => m ||| w.lanes) 0

/-- Lanes waiting at reconvergence entries. -/
def Gang.converging (G : Gang) : Mask := G.reconv.foldl (fun m e => m ||| e.2.arrived) 0

/-- Lanes that have not exited. -/
def Gang.live (G : Gang) : Mask := maskOf ((List.range 32).filter fun l => (G.lane l).life == .running)

/-- Lanes set to wait at the instruction being executed; it runs again once they are released. -/
def State.stall (s : State) (k : Nat) (m : Mask) (kind : WaitKind) : State :=
  s.onGang k fun G => G.wait m ((s.cur.map (·.pc)).getD 0) kind

/-- Whether an instruction of the wait has had none of its effect yet: the whole issue group runs it again. -/
def WaitKind.retry : WaitKind → Bool
  | .walk _ | .refetch _ | .again _ | .remote _ => true
  | .bar _ _ | .rdv _ | .cpwait _ | .monitor _ _ _ _ | .verdict _ _ _ | .home _ _ _ | .alone _ | .recv _ _ _ | .parked _
  | .rejoin _ _ | .grow _ _ => false

/-- Whether a wait is at a blocking point (Table 16.8). -/
def WaitKind.blocking : WaitKind → Bool
  | .bar _ _ | .rdv _ | .cpwait _ | .monitor _ _ _ _ | .verdict _ _ _ | .recv _ _ _ | .parked _ | .rejoin _ _ => true
  | .walk _ | .refetch _ | .grow _ _ | .again _ | .remote _ | .home _ _ _ | .alone _ => false

-- Fault records and queues (R332, R333)

/-- WHO of a record (Table 16.6). -/
def whoOf (k l : Nat) : Nat := l % 32 + 32 * (k % 16) + 512 * (coreOf k % 512) + 262144 * (coreNode (coreOf k) % 128)

/-- A fault record with its TOKEN still 0 (Table 16.6). -/
def mkRecord (kind cause flags engine tag who : Nat) (pc addr : DWord) (detail : List Byte) : List Byte :=
  toBytes 1 kind ++ toBytes 1 cause ++ toBytes 1 flags ++ toBytes 1 engine ++ toBytes 4 0 ++ toBytes 4 tag ++
    toBytes 4 who ++ toBytes 8 pc.toNat ++ toBytes 8 addr.toNat ++
    (detail ++ List.replicate 64 0).take 64 ++ List.replicate 32 0

/-- The agent that posts to a queue, and the queue's descriptor address: 0 is HFQ, `c + 1` the SFQ of context `c`. -/
def State.queueAt (s : State) (node q : Nat) : Agent × DWord :=
  if q = 0 then (⟨node, true, 0, 0, false, false⟩, s.hfq)
  else
    let c := s.ctxs.get {} (q - 1)
    (ctxAgent node c, c.sfq)

/-- The TOKEN of the record at TAIL `t` of a queue (Table 16.6). -/
def tokenOf (q t : Nat) : Word := BitVec.ofNat 32 (t % 2 ^ 31 + if q = 0 then 2 ^ 31 else 0)

/-- The descriptor of an available fault queue: BASE and SIZE; none when it is unreadable, has EN clear or is full. -/
def State.queueOpen (s : State) (node q : Nat) : State × Option (DWord × Nat) :=
  let (ag, d) := s.queueAt node q
  match devReadClean ag d 32 s with
  | (s, .error _) => (s, none)
  | (s, .ok bs) =>
    let size := field bs 8 1
    let tail := s.fqTail.get 0 q
    if !(bs.getD 9 0).getLsbD 7 || size = 0 || 16 < size || 2 ^ size ≤ tail - field bs 0x10 8 then (s, none)
    else (s, some (BitVec.ofNat 64 (field bs 0 8), size))

/-- A record written into an available queue, then TAIL (R332). -/
def State.postInto (s : State) (node q : Nat) (base : DWord) (size : Nat) (rec : List Byte) : State × Option Word :=
  let (ag, d) := s.queueAt node q
  let tail := s.fqTail.get 0 q
  let tok := tokenOf q tail
  let at_ := base + BitVec.ofNat 64 (128 * (tail % 2 ^ size))
  match devWrite ag at_ (clean (setField rec 4 4 tok.toNat)) s with
  | (s, .error _) => (s, none)
  | (s, .ok _) =>
    let (s, _) := devWrite ag (d + 0x18) (clean (toBytes 8 (tail + 1))) s
    ({ s with fqTail := s.fqTail.put q (tail + 1), msix := if q = 0 then s.msix.write 0 0 (s.msix.get 0 0 + 1) else s.msix }, some tok)

/-- OVF set in a queue's descriptor, where it can be written. -/
def State.setOvf (s : State) (node q : Nat) : State :=
  let (ag, d) := s.queueAt node q
  match devRead ag (d + 9) 1 s with
  | (s, .error _) => s
  | (s, .ok bs) => (devWrite ag (d + 9) (bs.map fun b => (b.1 ||| 0x40, b.2)) s).1

/-- A record posted from a node: its token, or none when it waits in the die's overflow. While the overflow holds 64
records, a further one waits with the agent that made it, behind them (R332). -/
def State.post (s : State) (node q : Nat) (rec : List Byte) : State × Option Word :=
  let held := fun (s : State) =>
    ({ s with
        overflow := s.overflow.put node (s.overflow.get [] node ++ [({ id := s.heldNext, queue := q, bytes := rec } : Held)])
        heldNext := s.heldNext + 1 }.setOvf node q,
      (none : Option Word))
  match s.queueOpen node q with
  | (s, none) => held s
  | (s, some (base, size)) =>
    match s.postInto node q base size rec with
    | (s, none) => held s
    | (s, some t) => (s, some t)

/-- Whether a node's overflow has room for a record that its queue cannot take. -/
def State.canPost (s : State) (node q : Nat) : Bool :=
  (s.queueOpen node q).2.isSome || (s.overflow.get [] node).length < 64

-- Leaving: reconvergence, barriers, rendezvous (R145, R193, R284)

/-- Reconvergence entries whose every member that has not exited has arrived are freed, and the lanes in arrived go on
at the successor of the entry's address (R145). -/
def Gang.settleReconv (G : Gang) : Gang :=
  let live := G.live
  let done := G.reconv.filter fun e => e.2.members &&& live &&& ~~~e.2.arrived == 0
  let G := { G with reconv := G.reconv.filter fun e => !(e.2.members &&& live &&& ~~~e.2.arrived == 0) }
  done.foldl (fun G e =>
    (lanesOf e.2.arrived).foldl (fun G l => G.putLane l { G.lane l with pc := succ e.2.addr }) G) G

/-- A lane taken out of every reconvergence entry. -/
def Gang.leaveReconv (G : Gang) (l : Nat) : Gang :=
  let keep := ~~~(laneBit l)
  let cut := fun (_ : Nat) (e : Reconv) => { e with members := e.members &&& keep, arrived := e.arrived &&& keep }
  { G with reconv := (G.reconv.mapV cut).filter fun e => e.2.members != 0 }

/-- Number of a gang's own barrier among its block's. -/
def gangBar (number : Nat) : Nat := 16 + number

/-- The barrier of a reference (R283). -/
def State.barrier (s : State) : BarRef → Barrier
  | .gang k =>
    match s.gangs.find? k with
    | some G => ((s.blocks.find? G.block).map (·.barriers.get {} (gangBar G.number))).getD {}
    | none => {}
  | .blk b n => ((s.blocks.find? b).map (·.barriers.get {} n)).getD {}
  | .ens e n => ((s.ensembles.find? e).map (·.barriers.get {} n)).getD {}
  | .coop t n => ((s.launches.find? t).map (·.barriers.get {} n)).getD {}

/-- The state with a barrier replaced. -/
def State.setBarrier (s : State) (r : BarRef) (b : Barrier) : State :=
  match r with
  | .gang k =>
    match s.gangs.find? k with
    | some G => s.onBlock G.block fun B => { B with barriers := B.barriers.write {} (gangBar G.number) b }
    | none => s
  | .blk k n => s.onBlock k fun B => { B with barriers := B.barriers.write {} n b }
  | .ens e n =>
    match s.ensembles.find? e with
    | some E => { s with ensembles := s.ensembles.put e { E with barriers := E.barriers.write {} n b } }
    | none => s
  | .coop t n =>
    match s.launches.find? t with
    | some L => { s with launches := s.launches.put t { L with barriers := L.barriers.write {} n b } }
    | none => s

/-- The number of a gang or block while it stands in image `img` of a save area. -/
def evictedId (img n : Nat) : Nat := 2 ^ 40 * (img + 1) + n

/-- The gang slots of a block as gang numbers. -/
def Block.gangs (B : Block) : List Nat := B.slots.map (16 * B.core + ·)

/-- The image that an evicted part's number names, if its block has not been restored. -/
def State.imageOf (s : State) (n : Nat) : Option Saved :=
  if n < 2 ^ 40 then none else (s.images.find? (n / 2 ^ 40 - 1)).bind fun (S : Saved) => if S.out then some S else none

/-- A gang by number, on its core or as its image holds it (R286). -/
def State.gangAt (s : State) (k : Nat) : Option Gang :=
  match s.gangs.find? k with
  | some G => some G
  | none => (s.imageOf k).bind fun S => (S.block.gangs.findIdx? (· == k % 2 ^ 40)).bind fun i => S.gangs[i]?

/-- A change made to a gang, wherever it stands. -/
def State.onGangAt (s : State) (k : Nat) (f : Gang → Gang) : State :=
  match s.gangs.find? k, s.imageOf k with
  | none, some S =>
    let gs := S.gangs.mapIdx fun i G => if S.block.gangs[i]? = some (k % 2 ^ 40) then f G else G
    { s with images := s.images.put (k / 2 ^ 40 - 1) { S with gangs := gs } }
  | _, _ => s.onGang k f

/-- The gangs of a block by number, on its core or in its image. -/
def State.gangsOf (s : State) (b : Nat) : List Nat :=
  match s.blocks.find? b with
  | some B => B.gangs
  | none => ((s.imageOf b).map fun S => S.block.gangs.map (evictedId (b / 2 ^ 40 - 1))).getD []

/-- The gangs, by number, that are members of a barrier and have a lane that has not exited (R283, R284). -/
def State.members (s : State) (r : BarRef) : List Nat :=
  let all : List Nat := match r with
    | .gang k => [k]
    | .blk b _ => s.gangsOf b
    | .ens e _ =>
      match s.ensembles.find? e with
      | some E => (E.members.map fun m => s.gangsOf m.1).flatten
      | none => []
    | .coop t _ =>
      ((s.blocks.filter fun (x : Nat × Block) => x.2.tag == t).map fun x => s.gangsOf x.1).flatten ++
        ((s.images.filter fun (x : Nat × Saved) => x.2.out && x.2.block.tag == t).map fun x =>
          x.2.block.gangs.map (evictedId x.1)).flatten
  all.filter fun k => ((s.gangAt k).map fun G => G.live != 0).getD false

/-- The lanes of a gang that count as not arrived wherever they have arrived: in a trap handler, parked, or held (R193, R284). -/
def Gang.absent (G : Gang) : Mask :=
  if G.hold then ~~~0
  else maskOf ((List.range 32).filter fun l => (G.lane l).mode != .user) |||
    (G.waits.filter fun w => match w.kind with
      | .parked _ => true
      | _ => false).foldl (fun m w => m ||| w.lanes) 0

/-- Whether every lane of a gang that has not exited is among the arrived. -/
def Gang.arrived (G : Gang) (m : Mask) : Bool := G.live &&& ~~~(m &&& ~~~G.absent) == 0

/-- Whether a gang has arrived: every lane that has not exited has (R284). -/
def State.gangArrived (s : State) (b : Barrier) (k : Nat) : Bool :=
  ((s.gangAt k).map fun G => G.arrived (b.arrived.get 0 k)).getD true

/-- Scope of a barrier's level (Table 14.1). -/
def BarRef.scope : BarRef → Scope
  | .gang _ => .gang
  | .blk _ _ => .blk
  | .ens _ _ | .coop _ _ => .pkg

/-- Whether a coop barrier's launch has placed every block and completed its walk (R284). -/
def State.coopReady (s : State) : BarRef → Bool
  | .coop t _ =>
    ((s.launches.find? t).map fun L => L.walk == .complete && L.streams.all (·.2.isEmpty)).getD true &&
      !(s.unplaced.any fun (x : Nat × SavedEntry) => x.2.out && x.2.tag == t)
  | .ens _ _ | .gang _ | .blk _ _ => true

/-- A gang's lanes that wait for a barrier's phase go on, after the acquire at its scope (R284, R285); lanes that had
arrived in it before they came again arrive anew. -/
def State.releaseBar (s : State) (r : BarRef) (phase k : Nat) : State :=
  match s.gangAt k with
  | none => s
  | some G =>
    let at_ := fun (kind : WaitKind) => (G.waits.filter fun w => w.kind == kind).foldl (fun m w => m ||| w.lanes) 0
    let m := at_ (.bar r phase)
    let s := s.onGangAt k fun G => (G.unwait (m ||| at_ (.rejoin r phase))).advance m
    if m = 0 || 2 ^ 40 ≤ k then s else s.acquireAt (coreOf k) r.scope

/-- A barrier whose every member has arrived completes: its phase rises, the waiting lanes go on, and the arrived set
is cleared (R284). An ensemble's halves complete together (R115). -/
def State.settleBar (s : State) (r : BarRef) : State :=
  let b := s.barrier r
  let ms := s.members r
  if ms.isEmpty || !ms.all (s.gangArrived b ·) || !s.coopReady r then s
  else ms.foldl (fun s k => s.releaseBar r b.phase k) (s.setBarrier r { phase := b.phase + 1 })

/-- The live gangs of a block's party set, by gang number. -/
def State.partyGangs (s : State) (B : Block) (P : Party) : List Nat :=
  (List.range 16).filter fun g =>
    P.gangs.getLsbD g && (((B.slots[g]?).bind fun sl => s.gangs.find? (16 * B.core + sl)).map (·.live != 0)).getD false

/-- The lanes of every gang of a block that wait at a rendezvous point go on (R193). -/
def State.releaseRdv (s : State) (b : Nat) (n : Nat) : State :=
  match s.blocks.find? b with
  | none => s
  | some B =>
    let go := fun (s : State) (sl : Nat) =>
      s.onGang (16 * B.core + sl) fun G =>
        let m := (G.waits.filter fun w => w.kind == .rdv n).foldl (fun m w => m ||| w.lanes) 0
        (G.unwait m).advance m
    let s := B.slots.foldl go s
    let free := fun (q : Seq) => if q.wait = .rdv n then { q.advance with wait := .none } else q
    s.onBlock b fun B => { B with mseq := free B.mseq, cseq := free B.cseq }

/-- One rendezvous point: it completes when every party in the set has arrived (R193). -/
def State.settlePoint (s : State) (b n : Nat) : State :=
  match s.blocks.find? b with
  | none => s
  | some B =>
    match B.party with
    | none => s
    | some P =>
      let pt := P.points.get [] n
      let gangs := s.partyGangs B P
      let all := gangs.all (fun g =>
          ((B.slots[g]?).bind fun sl => s.gangs.find? (16 * B.core + sl)).all fun G => G.arrived (SMap.get 0 pt g)) &&
        (!P.matrix || (SMap.find? pt 16).isSome) && (!P.copy || (SMap.find? pt 17).isSome)
      if pt.isEmpty || !all then s
      else (s.onBlock b fun B => { B with party := some { P with points := P.points.del n } }).releaseRdv b n

/-- Every point of a block's party set, and the set itself, which is dissolved once both sequencers have left it and
nobody waits (R193). -/
def State.settleParty (s : State) (b : Nat) : State :=
  let s := (List.range 16).foldl (fun s n => s.settlePoint b n) s
  s.onBlock b fun B =>
    match B.party with
    | some P => if !P.matrix && !P.copy && P.points.all (fun pt => pt.2.all (·.2 == 0)) then { B with party := none } else B
    | none => B

/-- Every barrier a gang belongs to, and its party set, settled after a member has left (R284, R193). -/
def State.settleAll (s : State) (k : Nat) : State :=
  let s := s.onGang k (·.settleReconv)
  match s.gangs.find? k with
  | none => s
  | some G =>
    match s.blocks.find? G.block with
    | none => s
    | some B =>
      let refs := [BarRef.gang k] ++ (List.range B.bars).map (BarRef.blk G.block) ++
        (match B.ens with | some e => (List.range B.ebars).map (BarRef.ens e) | none => []) ++
        (List.range B.cbars).map (BarRef.coop B.tag)
      (refs.foldl (fun s r => s.settleBar r) s).settleParty G.block

/-- The arrivals of a lane withdrawn from every barrier and point of its block, ensemble and launch. -/
def State.withdraw (s : State) (k l : Nat) : State :=
  let keep : Mask := ~~~(laneBit l)
  let cut := fun (m : SMap Mask) => m.write 0 k (m.get 0 k &&& keep)
  let cutB := fun (bs : SMap Barrier) => bs.mapV fun _ (b : Barrier) => { b with arrived := cut b.arrived }
  match s.gangs.find? k with
  | none => s
  | some G =>
    let s := s.onBlock G.block fun B =>
      let cutP := fun (P : Party) =>
        { P with points := P.points.mapV fun _ (x : SMap Mask) => x.write 0 G.number (x.get 0 G.number &&& keep) }
      { B with barriers := cutB B.barriers, party := B.party.map cutP }
    match s.blocks.find? G.block with
    | none => s
    | some B =>
      let s := match B.ens with
        | some e => { s with ensembles := s.ensembles.adjust e fun E => { E with barriers := cutB E.barriers } }
        | none => s
      { s with launches := s.launches.adjust B.tag fun L => { L with barriers := cutB L.barriers } }

/-- A waiter taken off every monitor; a monitor that nobody waits at any more is free again (R293). -/
def State.unwatch (s : State) (w : Waiter) : State :=
  { s with monitors := (s.monitors.mapV fun _ (m : Monitor) => { m with waiters := m.waiters.filter (·.who != w) }).filter fun m =>
      !m.2.waiters.isEmpty }

/-- The arrivals of a lane at the barriers and points where it waits withdrawn; with `again`, also the earlier arrival of a
lane that waits to arrive again. -/
def State.withdrawWait (s : State) (k l : Nat) (again : Bool := false) : State :=
  match s.gangs.find? k with
  | none => s
  | some G =>
    let keep : Mask := ~~~(laneBit l)
    let cut := fun (s : State) (r : BarRef) =>
      let b := s.barrier r
      s.setBarrier r { b with arrived := b.arrived.write 0 k (b.arrived.get 0 k &&& keep) }
    (G.waits.filter (·.lanes.getLsbD l)).foldl (fun s w =>
      match w.kind with
      | .bar r _ => cut s r
      | .rejoin r _ => if again then cut s r else s
      | .rdv n => s.onBlock G.block fun B => { B with party := B.party.map fun P =>
          { P with points := P.points.adjust n fun (x : SMap Mask) => x.write 0 G.number (x.get 0 G.number &&& keep) } }
      | .walk _ | .refetch _ | .grow _ _ | .cpwait _ | .again _ | .remote _ | .monitor _ _ _ _ | .verdict _ _ _
      | .home _ _ _ | .alone _ | .recv _ _ _ | .parked _ => s) s

/-- A lane taken from where it waits, with its arrivals there and its monitors. -/
def State.callAway (s : State) (k l : Nat) : State :=
  if ((s.gangs.find? k).map fun G => G.waiting.getLsbD l).getD false then (s.withdrawWait k l).unwatch (.lane k l) else s

/-- A lane leaves: it exits, and every membership and wait of it ends (R155, R343, R347). -/
def State.leave (s : State) (k l : Nat) : State :=
  let s := (s.withdraw k l).unwatch (.lane k l)
  let s := { s with
    cores := s.cores.adjust (coreOf k) fun (c : Core) => { c with grow := c.grow.map fun (g : GrowWait) =>
      if g.gang = k % 16 then { g with lanes := g.lanes &&& ~~~(laneBit l), others := g.others &&& ~~~(laneBit l) } else g } }
  let s := s.onGang k fun G =>
    let G := (G.leaveReconv l).unwait (laneBit l)
    G.putLane l { G.lane l with life := .exited, depth := 0, hd := false, incont := false }
  s.settleAll k

/-- KILLED counted for the launch of a gang (R343). -/
def State.markKilled (s : State) (k : Nat) : State :=
  match s.blockOf k with
  | none => s
  | some B => { s with launches := s.launches.adjust B.tag fun L => { L with killed := L.killed + 1 } }

/-- A lane killed, as FKILL does (R343). -/
def State.killLane (s : State) (k l : Nat) : State :=
  if (s.lane k l).life = .exited then s else (s.markKilled k).leave k l

/-- Every lane of a gang killed. -/
def State.killGang (s : State) (k : Nat) : State := (List.range 32).foldl (fun s l => s.killLane k l) s

-- Traps (R326)

/-- SSTAT of a lane, with the memberships of its gang (Table 16.3). -/
def Gang.sstat (G : Gang) (l : Nat) : Word :=
  let L := G.lane l
  let rmem := (G.reconv.map fun e => if e.2.members.getLsbD l then 2 ^ (16 + e.1) else 0).foldl (· + ·) 0
  BitVec.ofNat 32 (rmem + 1024 * L.depth.toNat + 256 * L.spm.toNat + if L.incont then 1 else 0)

/-- HSTAT of a lane (Table 16.4). -/
def Lane.hstat (L : Lane) : Word :=
  BitVec.ofNat 32 (1024 * L.sdep.toNat + 256 * L.hpm.toNat + (if L.esc then 2 else 0) + if L.hd then 1 else 0)

/-- The code of a saved mode, SPM or HPM. -/
def modeCode : Mode → BitVec 2
  | .user => 0
  | .supervisor | .hypervisor => 1

/-- The mode of a saved code. -/
def codeMode (c : BitVec 2) : Mode := if c = 0 then .user else .supervisor

/-- Whether R326 sends a cause to H: always 0x09, 0x10 and host-stage faults, what HDELEG keeps, and any cause at S
depth 2. -/
def trapsToH (hdeleg : Word) (c : BitVec 8) (host : Bool) (m : Mode) (d : BitVec 2) : Bool :=
  c == 0x09 || c == 0x10 || host || (c != 0x08 && !hdeleg.getLsbD c.toNat) || (m == .supervisor && d == 2)

/-- The cause register's value: the cause, with bit 8 for a migrating page and bit 9 for the host stage (R326). -/
def causeWord (c : BitVec 8) (host migrating : Bool) : Word :=
  BitVec.ofNat 32 (c.toNat + (if migrating then 256 else 0) + if host then 512 else 0)

/-- A lane after the entry of R326 into H. -/
def Lane.enterH (L : Lane) (c : BitVec 8) (cw : Word) (v pc' vec : DWord) : Lane :=
  { L with
    hpc := pc', hcause := cw, htval := v, hpm := modeCode L.mode, sdep := L.depth,
    esc := L.mode == .supervisor && L.depth == 2 && c != 0x09, hd := true,
    mode := .hypervisor, pc := vec &&& ~~~0x3F, checkTarget := false, checkEntry := false }

/-- A lane after the entry of R326 into S; `osstat` is its SSTAT as it stood. -/
def Lane.enterS (L : Lane) (osstat cw : Word) (v pc' vec : DWord) : Lane :=
  let L := if L.depth = 1 then { L with ospc := L.spc, oscause := L.scause, ostval := L.stval, osstat := osstat } else L
  { L with
    spc := pc', scause := cw, stval := v, spm := modeCode L.mode, depth := L.depth + 1,
    mode := .supervisor, pc := vec &&& ~~~0x3F, checkTarget := false, checkEntry := false }

/-- The TAG of a gang's launch. -/
def State.tagOf (s : State) (k : Nat) : Nat := ((s.blockOf k).map (·.tag)).getD 0

/-- Trap(L, c) of R326, deferral and parking apart: STVAL `v`, saved pc `pc'`, and for a page fault its stage and kind. A lane
taken from a wait has not arrived any more where it waited (R193, R284). A trap in H mode kills the lane and posts a machine
check. -/
def State.trap (s : State) (k l : Nat) (c : BitVec 8) (v pc' : DWord) (host migrating : Bool := false) : State :=
  let L := s.lane k l
  if L.life = .exited then s
  else if L.mode = .hypervisor then
    let r := mkRecord 11 c.toNat (if host then 1 else 0) 0 (s.tagOf k) (whoOf k l) pc' v []
    ((s.post (coreNode (coreOf k)) 0 r).1).killLane k l
  else
    let ctx := s.ctxOf (coreOf k)
    let cw := causeWord c host migrating
    (s.callAway k l).onGang k fun G =>
      let G := (G.unwait (laneBit l)).settled (laneBit l)
      let L := G.lane l
      G.putLane l
        (if trapsToH ctx.hdeleg c host L.mode L.depth then L.enterH c cw v pc' s.htvec
        else L.enterS (G.sstat l) cw v pc' ctx.stvec)

/-- The same trap on every lane of a mask, lowest first. -/
def State.trapAll (s : State) (k : Nat) (m : Mask) (c : BitVec 8) (v pc' : DWord) (host migrating : Bool := false) :
    State :=
  (lanesOf m).foldl (fun s l => s.trap k l c v pc' host migrating) s

/-- A write to SPM or HPM: 0b1x stores 0b01 (Tables 16.3, 16.4). -/
def low2 (c : BitVec 2) : BitVec 2 := if c.getLsbD 1 then 1 else c

/-- A two-bit code in which 0b11 stores 0b10 (Tables 5.2, 8.1). -/
def min2 (c : BitVec 2) : BitVec 2 := if c = 3 then 2 else c

/-- SRET of one lane (R331). -/
def Lane.sret (L : Lane) : Lane :=
  let t := L.spc
  let m := codeMode L.spm
  let L := if L.depth = 2 then
      { L with spc := L.ospc, scause := L.oscause, stval := L.ostval,
               spm := low2 (L.osstat.extractLsb' 8 2), depth := min2 (L.osstat.extractLsb' 10 2),
               incont := L.osstat.getLsbD 0 }
    else { L with depth := 0 }
  { L with mode := m, pc := t, checkTarget := false, checkEntry := false }

/-- HRET of one lane (R331). -/
def Lane.hret (L : Lane) : Lane :=
  let t := L.hpc
  let m := codeMode L.hpm
  { L with hd := false, depth := if m = .supervisor ∧ L.depth = 0 then 1 else L.depth, mode := m, pc := t,
           checkTarget := false, checkEntry := false }

-- Sequencer stops (R198)

/-- The sequencer of a block. -/
def Block.seq (B : Block) (matrix : Bool) : Seq := if matrix then B.mseq else B.cseq

/-- A block with a sequencer replaced. -/
def Block.putSeq (B : Block) (matrix : Bool) (q : Seq) : Block :=
  if matrix then { B with mseq := q } else { B with cseq := q }

/-- A change made to a sequencer. -/
def State.onSeq (s : State) (b : Nat) (matrix : Bool) (f : Seq → Seq) : State :=
  s.onBlock b fun B => B.putSeq matrix (f (B.seq matrix))

/-- A sequencer leaves the party set of its block (R193). -/
def State.seqLeaves (s : State) (b : Nat) (matrix : Bool) : State :=
  let s := s.onBlock b fun B => { B with party := B.party.map fun P =>
    let P := if matrix then { P with matrix := false } else { P with copy := false }
    { P with points := P.points.mapV fun _ (x : SMap Mask) => x.del (if matrix then 16 else 17) } }
  s.settleParty b

/-- The record of a stop (kind 4), posted to the queue of its routing. -/
def State.postStop (s : State) (b : Nat) (B : Block) (matrix : Bool) (st : SeqStop) (toH : Bool) : State :=
  let r := mkRecord 4 st.cause.toNat ((if st.host then 1 else 0) + if st.migrating then 2 else 0)
    (if matrix then 1 else 2) B.tag (whoOf b 0) st.pc st.pc (toBytes 4 st.tval.toNat)
  (s.post (coreNode B.core) (if toH then 0 else s.ctxId (coreNode B.core) + 1) r).1

/-- The lane that takes a stop: the lowest not exited of the lowest-numbered gang left of the party set (R198). -/
def State.stopTarget (s : State) (B : Block) (st : SeqStop) : Option (Nat × Nat) :=
  let gs := (List.range 16).filterMap fun g =>
    if st.gangs.getLsbD g then (B.slots[g]?).map (16 * B.core + ·) else none
  gs.findSome? fun k => (s.gangs.find? k).bind fun G => (lanesOf G.live).head?.map fun l => (k, l)

/-- A pending stop is delivered to its lane, or its record alone is posted when no gang is left; the run state becomes
IDLE (R198). -/
def State.deliverStop (s : State) (b : Nat) (matrix : Bool) : State :=
  match s.blocks.find? b with
  | none => s
  | some B =>
    match (B.seq matrix).stop with
    | none => s
    | some st =>
      let ctx := s.ctxOf B.core
      let s := s.onSeq b matrix fun q => { q with run := .idle, stop := none }
      match s.stopTarget B st with
      | none => s.postStop b B matrix st (trapsToH ctx.hdeleg st.cause st.host .user 0)
      | some (k, l) =>
        let L := s.lane k l
        let s := s.postStop b B matrix st (trapsToH ctx.hdeleg st.cause st.host L.mode L.depth)
        s.trap k l st.cause st.pc L.pc st.host st.migrating

/-- A stop is delivered at once when its lane waits at a blocking point, or when no lane is left to take it. -/
def State.tryDeliver (s : State) (b : Nat) (matrix : Bool) : State :=
  match s.blocks.find? b with
  | none => s
  | some B =>
    match (B.seq matrix).stop with
    | none => s
    | some st =>
      match s.stopTarget B st with
      | none => s.deliverStop b matrix
      | some (k, l) =>
        let at_ := ((s.gangs.find? k).map fun G => G.waits.any fun w => w.lanes.getLsbD l && w.kind.blocking).getD false
        if at_ then s.deliverStop b matrix else s

/-- SEQTrap (R198): the sequencer stops with a cause and SEQTVAL, and leaves the party set; a lane that waits at a blocking
point takes the fault before the points of the set are looked at (Table 10.8). -/
def State.seqTrap (s : State) (b : Nat) (matrix : Bool) (c : BitVec 8) (v : Word) (host migrating : Bool := false) :
    State :=
  match s.blocks.find? b with
  | none => s
  | some B =>
    let gangs := (B.party.map (·.gangs)).getD 0
    let s := s.onSeq b matrix fun q =>
      { q with run := .stopped, wait := .none, stop := some ⟨c, q.pc, v, host, migrating, gangs⟩ }
    (s.tryDeliver b matrix).seqLeaves b matrix

-- Running an instruction

/-- What an engine's meaning of an instruction is called with: the gang and the active lanes. -/
abbrev ThreadBody := State → Nat → Mask → State

/-- The lanes of a mask for which a guard is poisoned, and those for which it holds (R131). -/
def Gang.guardMasks (G : Gang) (g : Guard) (m : Mask) : Mask × Mask :=
  (maskOf ((lanesOf m).filter fun l => ((G.view l).guard g).2),
    maskOf ((lanesOf m).filter fun l => !((G.view l).guard g).2 && ((G.view l).guard g).1))

/-- Whether a wait is that of a `GROW`. -/
def WaitKind.isGrow : WaitKind → Bool
  | .grow _ _ => true
  | .walk _ | .refetch _ | .bar _ _ | .rdv _ | .cpwait _ | .again _ | .remote _ | .monitor _ _ _ _ | .verdict _ _ _
  | .home _ _ _ | .alone _ | .recv _ _ _ | .parked _ | .rejoin _ _ => false

/-- The lanes `other` of a group wait in `GROW` with its active lanes, whose request is their core's last (R160). -/
def State.growWith (s : State) (k : Nat) (act other : Mask) : State :=
  if other = 0 then s
  else
    let c := s.core (coreOf k)
    let last := (c.grow.getLast?.map fun g => { g with others := other }).toList
    (s.setCore (coreOf k) { c with grow := c.grow.dropLast ++ last }).onGang k fun G =>
      { G with waits := G.waits.map fun w => if w.kind.isGrow && w.lanes == act then { w with lanes := act ||| other } else w }

/-- The lanes `other` of a group wait with the active lanes when these have to run the instruction again, or wait in `GROW`;
otherwise `go` is done for them. -/
def State.after (s : State) (k : Nat) (act other : Mask) (go : State → State) : State :=
  match (s.gangs.find? k).bind fun G => G.waits.find? fun w => (w.kind.retry || w.kind.isGrow) && w.lanes &&& act != 0 with
  | some w => if w.kind.isGrow then s.growWith k act other else s.onGang k fun G => G.wait other w.pc w.kind
  | none => go s

/-- An instruction of an issue group: the checks of Table 7.9, each on every lane of the group, then the body on the
active lanes. Lanes whose guard is false go on. -/
def runThread (i : Instr) (s : State) (c : Cursor) (G : Gang) (body : ThreadBody) : State :=
  let mode := ((lanesOf c.lanes).head?.map fun l => (G.lane l).mode).getD .user
  if !i.wf .thread then s.trapAll c.unit c.lanes 0x01 0 c.pc
  else if mode.rank < i.leastMode.rank then s.trapAll c.unit c.lanes 0x03 0 c.pc
  else
    match beyondAlloc G.alloc (i.regs .thread) with
    | some n => s.trapAll c.unit c.lanes 0x12 (BitVec.ofNat 64 n) c.pc
    | none =>
      let (bad, act) := G.guardMasks i.guard c.lanes
      let s := s.trapAll c.unit bad 0x07 0 c.pc
      let rest := c.lanes &&& ~~~(bad ||| act)
      (if act = 0 then s else body s c.unit act).after c.unit act rest (·.advance c.unit rest)

/-- A meaning in thread lines only. -/
def threadOp (i : Instr) (s : State) (body : ThreadBody) : Host.Outcome State Fault Refusal :=
  match s.cur with
  | none => .next s
  | some c =>
    match c.engine, s.gangs.find? c.unit with
    | .thread, some G => .next (runThread i s c G body)
    | .thread, none | .matrix, _ | .copy, _ => .next s

/-- An instruction of a sequencer: the decode checks and its guard, then the body. -/
def runSeq (i : Instr) (e : Engine) (matrix : Bool) (s : State) (b : Nat) (B : Block) (body : State → Nat → State) :
    State :=
  let q := B.seq matrix
  if !i.wf e then s.seqTrap b matrix 0x01 0
  else
    match q.view.guard i.guard with
    | (_, true) => s.seqTrap b matrix 0x07 0
    | (false, false) => s.onSeq b matrix Seq.advance
    | (true, false) => body s b

/-- A meaning of any engine: the thread body, and the sequencers' with whether it is the matrix sequencer's. -/
def anyOp (i : Instr) (s : State) (body : ThreadBody) (seq : Bool → State → Nat → State) :
    Host.Outcome State Fault Refusal :=
  match s.cur with
  | none => .next s
  | some c =>
    match c.engine with
    | .thread =>
      match s.gangs.find? c.unit with
      | some G => .next (runThread i s c G body)
      | none => .next s
    | .matrix =>
      match s.blocks.find? c.unit with
      | some B => .next (runSeq i .matrix true s c.unit B (seq true))
      | none => .next s
    | .copy =>
      match s.blocks.find? c.unit with
      | some B => .next (runSeq i .copy false s c.unit B (seq false))
      | none => .next s

/-- A meaning of one sequencer only. -/
def seqOp (i : Instr) (matrix : Bool) (s : State) (body : State → Nat → State) : Host.Outcome State Fault Refusal :=
  match s.cur with
  | none => .next s
  | some c =>
    match decide (c.engine = if matrix then .matrix else .copy), s.blocks.find? c.unit with
    | true, some B => .next (runSeq i c.engine matrix s c.unit B body)
    | true, none | false, _ => .next s

-- Instructions that only compute

/-- The results of the active lanes, each from the registers as they stood. -/
def Gang.outs (G : Gang) (ctr : Nat) (m : Mask) (f : Env → View → Out) : List (Nat × Out) :=
  (lanesOf m).map fun l => (l, f ⟨ctr, l⟩ (G.view l))

/-- The results written lane by lane, so that a k register keeps the highest lane's (R144). -/
def Gang.putOuts (G : Gang) (os : List (Nat × Out)) : Gang := os.foldl (fun G o => G.putOut o.1 o.2) G

/-- The lanes whose results trap. -/
def trapping (os : List (Nat × Out)) : Mask := maskOf ((os.filter (·.2.trap.isSome)).map (·.1))

/-- The results of an issue group written, the lanes that trap trapped, the others moved on. -/
def State.putOuts (s : State) (k : Nat) (G : Gang) (m : Mask) (os : List (Nat × Out)) : State :=
  let s := s.setGang k ((G.putOuts os).advance (m &&& ~~~(trapping os)))
  os.foldl (fun s o =>
    match o.2.trap with
    | some (c, v) => s.trap k o.1 c v (s.lane k o.1).pc
    | none => s) s

/-- An instruction whose lanes each compute from their own registers. -/
def aluThread (f : Env → View → Out) : ThreadBody := fun s k m =>
  match s.gangs.find? k with
  | none => s
  | some G => s.putOuts k G m (G.outs s.ctr m f)

/-- An instruction whose lanes compute from the registers of the whole group: `f` is given the gang, the active lanes
and one of them. -/
def groupThread (f : Gang → Mask → Env → Nat → Out) : ThreadBody := fun s k m =>
  match s.gangs.find? k with
  | none => s
  | some G => s.putOuts k G m ((lanesOf m).map fun l => (l, f G m ⟨s.ctr, l⟩ l))

/-- The result of a sequencer's instruction written, or its stop. -/
def aluSeq (f : Env → View → Out) (matrix : Bool) (s : State) (b : Nat) : State :=
  match s.blocks.find? b with
  | none => s
  | some B =>
    let o := f ⟨s.ctr, 0⟩ (B.seq matrix).view
    match o.trap with
    | some (c, v) => s.seqTrap b matrix c (v.setWidth 32)
    | none => s.setBlock b (B.putSeq matrix ((B.seq matrix).putOut o).advance)

/-- The meaning of an instruction that only computes, on whichever engine executes it. -/
def alu (i : Instr) (s : State) (f : Env → View → Out) : Host.Outcome State Fault Refusal :=
  anyOp i s (aluThread f) (aluSeq f)

end Sys2Proof.Machine
end

