-- ==== Sys2Proof/Machine/Access.lean ====
section
/-! DEFINITION. How lanes and sequencers reach memory: translation through the TLBs with walks that others share (R217),
the fetch of a line with its checks in order (R122, R124, R132), the regions (R213), page faults with their deferral
(R334), the range scoreboard (R246), and the address checks of a memory instruction (R229). -/

namespace Sys2Proof.Machine

/-- Who asks for a translation. -/
structure Asker where
  core : Nat
  req : Requester
  /-- Faults of walks that it has been told of, and lines that have been fetched again for it (R135). -/
  told : List WalkFault
  lines : List Nat
  ag : Agent
  deriving DecidableEq, Repr

/-- What a lookup in the TLBs gives: a translation, a fault, or a walk to wait for. -/
inductive Tr where
  | ok (t : TlbEntry)
  | fault (f : PageFault)
  | wait (walk : Nat)
  deriving DecidableEq, Repr

/-- The lanes a requester stands for. -/
def Requester.mask : Requester → Mask
  | .lanes _ m => m
  | .seq _ _ => ~~~0

/-- Whether two requesters are the same gang or sequencer. -/
def Requester.same : Requester → Requester → Bool
  | .lanes g _, .lanes h _ => g == h
  | .seq b x, .seq c y => b == c && x == y
  | .lanes _ _, .seq _ _ | .seq _ _, .lanes _ _ => false

/-- A requester added to those of a walk; lanes of one gang are merged. -/
def addRequester (rs : List Requester) (r : Requester) : List Requester :=
  if rs.any r.same then
    rs.map fun x => match x, r with
      | .lanes g m, .lanes h n => if g = h then .lanes g (m ||| n) else .lanes g m
      | x, _ => x
  else rs ++ [r]

/-- The walk for a page under an agent's tags: one that is in flight, or a new one (R217). -/
def State.walkFor (s : State) (a : Asker) (page : Nat) : State × Nat :=
  let g := { a.ag with asid := if a.ag.hyp then 0 else a.ag.asid, vmid := if a.ag.hyp then 0 else a.ag.vmid }
  let same := fun (w : Nat × Walk) =>
    w.2.node == g.node && w.2.hyp == g.hyp && w.2.asid == g.asid && w.2.vmid == g.vmid && w.2.secure == g.secure &&
      w.2.page == page
  match List.find? same s.walks with
  | some (id, w) => ({ s with walks := s.walks.put id { w with requesters := addRequester w.requesters a.req } }, id)
  | none =>
    let id := (s.walks.freeFrom (s.walks.length + 1) 0).getD 0
    let no := (s.walks.map (·.2.no + 1)).foldl Nat.max 0
    ({ s with walks := s.walks.put id ⟨g.node, g.hyp, g.asid, g.vmid, g.secure, page, [a.req], no⟩ }, id)

/-- A translation checked for an access (Table 11.3). -/
def TlbEntry.outcome (t : TlbEntry) (ag : Agent) (acc : Access) : Tr :=
  match t.check ag acc with
  | some f => .fault f
  | none => .ok t

/-- A translation by a lane or a sequencer: micro-TLB, shared TLB, a walk (R217). -/
def State.lookup (s : State) (a : Asker) (acc : Access) (va : Nat) : State × Tr :=
  match (s.core a.core).utlb.find? (·.hits a.ag va) with
  | some t => (s, t.outcome a.ag acc)
  | none =>
    match (s.stlbOf a.ag.node).find? (·.hits a.ag va) with
    | some t => (s.fillUtlb a.core t, t.outcome a.ag acc)
    | none =>
      let page := va / 65536
      match a.told.find? fun f => f.page == page && f.hyp == a.ag.hyp && f.lanes &&& a.req.mask != 0 with
      | some f => (s, .fault ⟨f.cause, f.host, f.migrating⟩)
      | none =>
        let (s, id) := s.walkFor a page
        (s, .wait id)

-- Fetching (R122, R124, R132, R134, R135)

/-- A 32-bit word of a line. -/
def Line.word (l : Line) (i : Nat) : Word := l.data.extractLsb' (32 * i) 32

/-- The line word. -/
def Line.lword (l : Line) : Word := l.word 15

/-- The instruction in a slot. -/
def Line.slot (l : Line) (i : Nat) : BitVec 96 := l.data.extractLsb' (96 * i) 96

/-- Whether a number has an odd count of ones. -/
def oddOnes {w : Nat} (b : BitVec w) : Bool := (List.range w).foldl (fun p i => p != b.getLsbD i) false

/-- The line word's parity and that of a slot (R121). -/
def Line.parityOk (l : Line) (slot : Nat) : Bool :=
  !oddOnes l.lword && (slot > 4 || (oddOnes (l.slot slot) == l.lword.getLsbD (9 + slot)))

/-- The slot of an address; 5 where its offset is no slot offset. -/
def slotOf (pc : DWord) : Nat := if pc.toNat % 64 % 12 = 0 ∧ pc.toNat % 64 < 60 then pc.toNat % 64 / 12 else 5

/-- KIND of an engine (Table 7.1). -/
def lineKind : Engine → BitVec 2
  | .thread => 0
  | .matrix => 1
  | .copy => 2

/-- What a fetch gives. -/
inductive Fetched where
  | ok (l : Line)
  | walk (id : Nat)
  /-- The line failed parity and is refetched (R135). -/
  | refetch (tag : Nat)
  | fault (cause : BitVec 8) (f : PageFault)
  deriving DecidableEq, Repr

/-- A fault of a fetch that no translation stage raises. -/
def Fetched.plain (c : BitVec 8) : Fetched := .fault c ⟨c, false, false⟩

/-- A line put into a core's instruction cache: 64 sets of 8 ways, the least recently used way replaced (R134). -/
def State.icachePut (s : State) (core : Nat) (l : Line) : State :=
  let K := s.core core
  let inSet := fun (x : Line) => x.tag / 2 % 64 == l.tag / 2 % 64
  s.setCore core { K with
    icache := l :: ((K.icache.filter fun x => inSet x && x.tag != l.tag).take 7 ++ K.icache.filter fun x => !inSet x) }

/-- A line read at its home. -/
def State.lineAt (s : State) (tag : Nat) (ms : Bool) : State × Line :=
  let (s, bs) := if ms then (s, s.dram (64 * (tag / 2)) 64) else s.homeRead (64 * (tag / 2)) 64
  (s, { tag := tag, data := BitVec.ofNat 512 (ofBytes (bs.map (·.1))), poison := bs.any (·.2) })

/-- The instruction cache's line, filled from the line's home when it is absent (R134). -/
def State.icacheLine (s : State) (core tag : Nat) (ms : Bool) : State × Line :=
  let K := s.core core
  match K.icache.find? (·.tag == tag) with
  | some l => (s.setCore core { K with icache := l :: K.icache.filter (·.tag != tag) }, l)
  | none =>
    let (s, l) := s.lineAt tag ms
    (s.icachePut core l, l)

/-- A line dropped from a core's cache and from every line buffer of the core that holds it (R135). -/
def State.dropLine (s : State) (core tag : Nat) : State :=
  let clean := fun (b : Option Line) => b.filter (·.tag != tag)
  let s := s.setCore core { s.core core with icache := (s.core core).icache.filter (·.tag != tag) }
  { s with
    gangs := s.gangs.mapV fun k G => if coreOf k = core then { G with line := clean G.line } else G
    blocks := s.blocks.mapV fun _ B =>
      if B.core = core then
        { B with mseq := { B.mseq with line := clean B.mseq.line }, cseq := { B.cseq with line := clean B.cseq.line } }
      else B }

/-- Corrected errors counted by class (R27, R135). -/
def State.countCorrected (s : State) (cls : Nat) : State :=
  { s with corrected := s.corrected.write 0 cls (s.corrected.get 0 cls + 1) }

/-- The class number of a structure in the corrected-error counters; 5 is that of instruction lines. -/
def faultClass : FaultUnit → Nat
  | .hbm => 0
  | .localStore => 1
  | .register => 2
  | .l1 => 3
  | .rdc => 4
  | .line => 5
  | .matrix => 6
  | .elision => 7
  | .tlb => 8
  | .homeSram => 9
  | .l2 => 10

/-- The line that a fetcher had fetched again is forgotten once it has passed (R135). -/
def State.forgetLine (s : State) (r : Requester) (tag : Nat) : State :=
  match r with
  | .lanes k m =>
    match s.gangs.find? k with
    | some G => { s with gangs := s.gangs.put k { G with
        refetched := (G.refetched.map fun x => if x.2 = tag then (x.1 &&& ~~~m, tag) else x).filter (·.1 != 0) } }
    | none => s
  | .seq b matrix => s.onSeq b matrix fun q => { q with refetched := none }

/-- The checks of a line for an engine at an address, after its translation (R132). A line that fails parity is taken
out, and is fetched again once; where that was done for this fetcher, it is cause 0x10, and a line that then passes
counts as a corrected error (R135). -/
def State.checkLine (s : State) (a : Asker) (e : Engine) (pc : DWord) (l : Line) : State × Fetched :=
  if l.poison then (s, .plain 0x07)
  else if !l.parityOk (slotOf pc) then
    let s := s.dropLine a.core l.tag
    (s, if a.lines.contains l.tag then .plain 0x10 else .refetch l.tag)
  else
    let s := if a.lines.contains l.tag then (s.forgetLine a.req l.tag).countCorrected (faultClass .line) else s
    if l.lword.extractLsb' 16 15 != 0 then (s, .plain 0x01)
    else if l.lword.extractLsb' 14 2 != lineKind e then (s, .plain 0x11)
    else (s, .ok l)

/-- The fetch of the line of an address (R124, R132, R134). `buf` is the fetcher's line buffer. -/
def State.fetchLine (s : State) (a : Asker) (e : Engine) (buf : Option Line) (pc : DWord) : State × Fetched :=
  if pc.toNat / 2 ^ 48 ≠ 0 then (s, .plain 0x06)
  else
    match s.lookup a .exec pc.toNat with
    | (s, .wait id) => (s, .walk id)
    | (s, .fault f) => (s, .fault f.cause f)
    | (s, .ok t) =>
      let tag := 2 * (t.addr pc.toNat / 64) + if a.ag.secure then 1 else 0
      match buf.filter (·.tag == tag) with
      | some l => s.checkLine a e pc l
      | none =>
        let (s, l) := s.icacheLine a.core tag t.ms
        s.checkLine a e pc l

/-- The fetch of the next sequential line ahead of an engine that begins to issue from slot 2 (R134): it goes through the
TLBs as they stand and waits for no walk. -/
def State.fetchAhead (s : State) (a : Asker) (pc : DWord) : State :=
  let next := pc.toNat / 64 * 64 + 64
  if slotOf pc ≠ 2 || next / 2 ^ 48 ≠ 0 then s
  else
    match ((s.core a.core).utlb ++ s.stlbOf a.ag.node).find? (·.hits a.ag next) with
    | none => s
    | some t =>
      if (t.check a.ag .exec).isSome then s
      else (s.icacheLine a.core (2 * (t.addr next / 64) + if a.ag.secure then 1 else 0) t.ms).1

/-- Whether the TARGET bit of an address is set in its line (R123). -/
def Line.target (l : Line) (pc : DWord) : Bool := slotOf pc < 5 && l.lword.getLsbD (slotOf pc)

-- Regions (R213, R114)

/-- The members' blocks of one half of an ensemble, in member order. -/
def Ensemble.half (E : Ensemble) (h : Bool) : List Nat := (E.members.filter (·.2 == h)).map (·.1)

/-- Where the `n` bytes at an address point for a block (R213); none where Table 11.1 is broken. -/
def State.site (s : State) (b : Nat) (B : Block) (a : DWord) (n : Nat) : Option Site :=
  let low := a.toNat % 2 ^ 61
  match region a with
  | 0 => if low / 2 ^ 48 = 0 then some (.va low) else none
  | 1 => some (.global (low / 2 ^ 43) (low % 2 ^ 43))
  | 2 =>
    match B.ens.bind s.ensembles.find? with
    | some E =>
      let off := low % 2 ^ 23
      let h := E.half (low / 2 ^ 23 % 2 == 1)
      if low / 2 ^ 24 ≠ 0 || E.lsb = 0 || h.length * E.lsb < off + n then none
      else (h[off / E.lsb]?).map fun m => .ls m (off % E.lsb)
    | none => none
  | 3 => if low + n ≤ B.lsb then some (.ls b low) else none
  | _ => none

/-- A place after translation. -/
inductive Spot where
  | mem (pa : Nat) (ms : Bool)
  | global (device off : Nat)
  | ls (block off : Nat)
  deriving DecidableEq, Repr

/-- Whether a place lies in the window of an ensemble member that stands in a save area: numbers from 2^40 up (R336). -/
def Spot.evicted : Spot → Bool
  | .ls b _ => 2 ^ 40 ≤ b
  | .mem _ _ | .global _ _ => false

-- The range scoreboard (R246)

/-- Bytes from a copy's first destination byte to its last. -/
def Copy.span (c : Copy) : Nat := (c.rows - 1) * c.dPitch + c.rowLen

/-- Whether two ranges share a byte. -/
def overlaps (a n b m : Nat) : Bool := a < b + m && b < a + n

/-- Whether a copy in flight holds the `n` bytes at a place, reached by a core under a context at a virtual address. -/
def Copy.holds (c : Copy) (core ctx : Nat) (va : DWord) (sp : Spot) (n : Nat) : Bool :=
  c.core == core && c.dsts.any fun d =>
    match d, sp with
    | .va x, .mem pa _ =>
      (c.ctx == ctx && overlaps x c.span va.toNat n) || c.held.any fun h => overlaps h.1 h.2 pa n
    | _, .ls b y => c.lsHeld.any fun h => h.1 == b && overlaps h.2.1 h.2.2 y n
    | .va _, .global _ _ | .ls _ _, .mem _ _ | .ls _ _, .global _ _ | .global _ _, _ => false

/-- Whether some copy of a core holds a place. -/
def State.held (s : State) (core : Nat) (va : DWord) (sp : Spot) (n : Nat) : Bool :=
  s.copies.any fun c => c.2.holds core (s.ctxId (coreNode core)) va sp n

-- Faults of lanes

/-- Why a lane's access fails: cause, STVAL, and the stage and kind of a page fault. -/
structure LaneFault where
  cause : BitVec 8
  v : DWord
  host : Bool := false
  migrating : Bool := false
  deriving DecidableEq, Repr

/-- A page fault at an address. -/
def PageFault.at (f : PageFault) (v : DWord) : LaneFault := ⟨f.cause, v, f.host, f.migrating⟩

/-- Whether a page fault of a lane in U mode is deferred or parked (R334). -/
def Ctx.defers (c : Ctx) (m : Mode) (f : LaneFault) : Bool :=
  m == .user && f.cause == 0x05 && c.contpc.getLsbD (if f.migrating then 1 else 0) && (f.host || c.hdeleg.getLsbD 5)

/-- A lane redirected to CONT with the token of its record (R334). -/
def Gang.redirect (G : Gang) (l : Nat) (cont : DWord) (tok : Word) : Gang :=
  let L := G.lane l
  let L := { L with contPc := L.pc, contX1 := L.x.get 0 1, contX1p := L.xp.get false 1, contToken := tok, incont := true }
  (G.putLane l (L.putX 1 tok false)).jump l cont true true

/-- Lanes that take the same page fault post one record, and run the block's continuation or park (R334). While the
queue and the die's overflow are both full they wait. -/
def State.deferOrPark (s : State) (k : Nat) (m : Mask) (pc : DWord) (f : LaneFault) : State :=
  let node := coreNode (coreOf k)
  let q := if f.host then 0 else s.ctxId node + 1
  let cont := ((s.blockOf k).map (·.cont)).getD 0
  let continues := cont != 0 && (lanesOf m).all fun l => !(s.lane k l).incont
  let flags := (if f.host then 1 else 0) + (if f.migrating then 2 else 0) + if continues then 8 else 4
  let l0 := ((lanesOf m).head?).getD 0
  if !s.canPost node q then s.stall k m (.again "fault queue")
  else
    match s.post node q (mkRecord 1 0x05 flags 0 (s.tagOf k) (whoOf k l0) pc f.v []) with
    | (s, some tok) =>
      if continues then (lanesOf m).foldl (fun s l => s.onGang k (·.redirect l cont tok)) s
      else s.onGang k fun G => (G.settled m).wait m pc (.parked tok.toNat)
    | (s, none) =>
      let id := s.heldNext - 1
      let mine := fun (h : Held) => if h.id = id then { h with gang := some k } else h
      let s := { s with overflow := s.overflow.adjust node (List.map mine) }
      s.onGang k fun G => (G.settled m).wait m pc (.parked (2 ^ 32 + id))

/-- Lanes grouped by a test of being the same; a group keeps its first lane's fault. -/
def groupFaults (same : LaneFault → LaneFault → Bool) (fs : List (Nat × LaneFault)) : List (List Nat × LaneFault) :=
  fs.foldl (fun gs f =>
    if gs.any (fun g => same g.2 f.2) then gs.map fun g => if same g.2 f.2 then (g.1 ++ [f.1], g.2) else g
    else gs ++ [([f.1], f.2)]) []

/-- Faults that share a walk's outcome: the same 64 KiB page, stage and kind. -/
def LaneFault.samePage (f g : LaneFault) : Bool :=
  f.v.toNat / 65536 == g.v.toNat / 65536 && f.host == g.host && f.migrating == g.migrating

/-- Faults of several lanes at one instruction; those that R334 covers are deferred or parked, one record for each page
fault, and the others are taken. -/
def State.raise (s : State) (k : Nat) (defer : Bool) (fs : List (Nat × LaneFault)) : State :=
  let ctx := s.ctxOf (coreOf k)
  let later := fs.filter fun f => defer && ctx.defers (s.lane k f.1).mode f.2
  let now := fs.filter fun f => !(defer && ctx.defers (s.lane k f.1).mode f.2)
  let s := now.foldl (fun s f => s.trap k f.1 f.2.cause f.2.v (s.lane k f.1).pc f.2.host f.2.migrating) s
  (groupFaults LaneFault.samePage later).foldl (fun s g =>
    s.deferOrPark k (maskOf g.1) (s.lane k (g.1.headD 0)).pc g.2) s

-- Addresses of a memory instruction (R229)

/-- What a lane's address came to. -/
inductive LaneAt where
  | bad (f : LaneFault)
  | at (a : DWord) (sp : Spot)
  deriving DecidableEq, Repr

/-- The address of R229 before translation: poison, region, alignment. -/
def State.form (s : State) (b : Nat) (B : Block) (base : DWord × Bool) (imm : Word) (n align : Nat) :
    Except LaneFault (DWord × Site) :=
  if base.2 then .error ⟨0x07, 0, false, false⟩
  else
    let a := base.1 + imm.signExtend 64
    match s.site b B a 1, s.site b B a n with
    | none, _ => .error ⟨0x06, a, false, false⟩
    | some _, x =>
      if a.toNat % align ≠ 0 then .error ⟨0x04, a, false, false⟩
      else
        match x with
        | none => .error ⟨0x06, a, false, false⟩
        | some x => .ok (a, x)

/-- Who asks when lanes of a gang do. -/
def State.asker (s : State) (k : Nat) (G : Gang) (m : Mask) (mode : Mode) : Asker :=
  ⟨coreOf k, .lanes k m, G.walkFaults, (G.refetched.filter (·.1 &&& m != 0)).map (·.2), s.agent (coreOf k) mode⟩

/-- One lane's address, translated; a walk to wait for where the TLBs have none. -/
def State.laneAddr (s : State) (k : Nat) (G : Gang) (B : Block) (l : Nat) (base : DWord × Bool) (imm : Word)
    (n align : Nat) (acc : Access) : State × Except Nat LaneAt :=
  match s.form G.block B base imm n align with
  | .error f => (s, .ok (.bad f))
  | .ok (a, .global d o) => (s, .ok (.at a (.global d o)))
  | .ok (a, .ls b o) => (s, .ok (.at a (.ls b o)))
  | .ok (a, .va x) =>
    match s.lookup (s.asker k G (laneBit l) (G.lane l).mode) acc x with
    | (s, .wait id) => (s, .error id)
    | (s, .fault f) => (s, .ok (.bad (f.at a)))
    | (s, .ok t) => (s, .ok (.at a (.mem (t.addr x) t.ms)))

/-- The addresses of several lanes; the first walk that some lane has to wait for. -/
def State.laneAddrs (s : State) (k : Nat) (G : Gang) (B : Block) (base : Nat → DWord × Bool) (imm : Word)
    (n align : Nat) (acc : Access) : List Nat → State × List (Nat × LaneAt) × Option Nat
  | [] => (s, [], none)
  | l :: ls =>
    let (s, r) := s.laneAddr k G B l (base l) imm n align acc
    let (s, rs, w) := s.laneAddrs k G B base imm n align acc ls
    match r with
    | .ok x => (s, (l, x) :: rs, w)
    | .error id => (s, rs, some id)

/-- The lanes' faults among their addresses. -/
def faultsOf (rs : List (Nat × LaneAt)) : List (Nat × LaneFault) :=
  rs.filterMap fun r => match r.2 with
    | .bad f => some (r.1, f)
    | .at _ _ => none

/-- The lanes' places among their addresses. -/
def placesOf (rs : List (Nat × LaneAt)) : List (Nat × DWord × Spot) :=
  rs.filterMap fun r => match r.2 with
    | .bad _ => none
    | .at a sp => some (r.1, a, sp)

/-- An instruction whose active lanes each form one address: the lanes wait for walks and, if they load or store (`hold`),
for copies that hold the bytes (R246); the faults are raised, deferred where R334 covers the instruction (`defer`), and
`go` runs on the lanes that have a place. -/
def memoryWith (defer : Bool) (base : Reg) (imm : Word) (n align : Nat) (acc : Access) (hold : Bool)
    (go : State → Nat → Gang → Block → List (Nat × DWord × Spot) → State) : ThreadBody := fun s k m =>
  match s.gangs.find? k with
  | none => s
  | some G =>
    match s.blocks.find? G.block with
    | none => s
    | some B =>
      let (s, rs, w) := s.laneAddrs k G B (fun l => (G.view l).pair base) imm n align acc (lanesOf m)
      match w with
      | some id => s.stall k m (.walk id)
      | none =>
        let ps := placesOf rs
        if ps.any fun p => p.2.2.evicted then s.stall k m (.again "evicted member")
        else if hold && ps.any fun p => s.held (coreOf k) p.2.1 p.2.2 n then s.stall k m (.again "copy range")
        else
          let fs := faultsOf rs
          (go s k G B ps).after k (maskOf (ps.map (·.1))) (maskOf (fs.map (·.1))) (·.raise k defer fs)

/-- The same for the instructions that R334 covers. -/
def memory (base : Reg) (imm : Word) (n align : Nat) (acc : Access) (hold : Bool)
    (go : State → Nat → Gang → Block → List (Nat × DWord × Spot) → State) : ThreadBody :=
  memoryWith true base imm n align acc hold go

end Sys2Proof.Machine
end

