-- ==== Sys2Proof/Machine/Control.lean ====
section
/-! DEFINITION. Control and gang instructions (R137, R138, R152 to R162): transfers of control with the checks of Table 7.2,
reconvergence, votes, shuffles, reductions, masks, the allocation, special registers and predicates. -/

namespace Sys2Proof.Machine

-- Transfers (R123)

/-- The fault that fetching an instruction gives a lane: STVAL is the address, the line address for causes 0x10 and 0x11,
and 0 for cause 0x01 (R124, Table 16.1). -/
def fetchFault (c : BitVec 8) (f : PageFault) (pc : DWord) : LaneFault :=
  ⟨c, if c == 0x10 || c == 0x11 then pc &&& ~~~0x3F else if c == 0x01 then 0 else pc, f.host, f.migrating⟩

/-- The checks of a branch's or call's target: faults of fetching its line, the offset, the TARGET bit (R123). -/
def State.checkTarget (s : State) (a : Asker) (e : Engine) (buf : Option Line) (t : DWord) (entry : Bool) :
    State × Except WaitKind (Option LaneFault) :=
  match s.fetchLine a e buf t with
  | (s, .walk id) => (s, .error (.walk id))
  | (s, .refetch tag) => (s, .error (.refetch tag))
  | (s, .fault c f) => (s, .ok (some ⟨c, if c == 0x10 then t &&& ~~~0x3F else t, f.host, f.migrating⟩))
  | (s, .ok l) =>
    (s, .ok (if slotOf t = 5 || (entry && slotOf t != 0) then some ⟨0x04, t, false, false⟩
      else if l.target t then none
      else some ⟨0x02, t, false, false⟩))

/-- The lanes' targets checked, in order; the first thing that some lane has to wait for. -/
def State.checkTargets (s : State) (k : Nat) (G : Gang) (entry : Bool) :
    List (Nat × DWord) → State × List (Nat × DWord × Option LaneFault) × Option WaitKind
  | [] => (s, [], none)
  | (l, t) :: ts =>
    let (s, r) := s.checkTarget (s.asker k G (laneBit l) (G.lane l).mode) .thread G.line t entry
    let (s, rs, w) := s.checkTargets k G entry ts
    match r with
    | .ok f => (s, (l, t, f) :: rs, w)
    | .error w' => (s, rs, some w')

/-- A transfer of the active lanes to their targets, with its link pair if it is a call; `bad` are lanes whose target
register is poisoned. -/
def transfer (target : Gang → Nat → DWord × Bool) (link : Option (BitVec 8)) : ThreadBody := fun s k m =>
  match s.gangs.find? k with
  | none => s
  | some G =>
    let bad := (lanesOf m).filter fun l => (target G l).2
    let good := (lanesOf m).filter fun l => !(target G l).2
    let (s, rs, w) := s.checkTargets k G link.isSome (good.map fun l => (l, (target G l).1))
    match w with
    | some kind => s.stall k m kind
    | none =>
      let go := fun (s : State) (r : Nat × DWord × Option LaneFault) =>
        match r.2.2 with
        | some f => s.trap k r.1 f.cause f.v (s.lane k r.1).pc f.host f.migrating
        | none =>
          s.onGang k fun G =>
            let ret := succ (G.lane r.1).pc
            let G := match link with
              | some d => G.putLane r.1 (((G.lane r.1).putX d.toNat (ret.setWidth 32) false).putX (d.toNat + 1)
                  (ret.extractLsb' 32 32) false)
              | none => G
            G.jump r.1 r.2.1
      (rs.foldl go s).trapAll k (maskOf bad) 0x07 0 ((s.cur.map (·.pc)).getD 0)

/-- A fault of a sequencer outside its instruction's own effect: cause 0x10 goes to the machine-check entry and leaves the
sequencer IDLE (R135), any other is a stop (R198). -/
def State.seqFault (s : State) (b : Nat) (matrix : Bool) (f : LaneFault) : State :=
  if f.cause = 0x10 then
    match s.blocks.find? b with
    | none => s
    | some B =>
      let r := mkRecord 11 0x10 0 (if matrix then 1 else 2) B.tag (whoOf b 0) (B.seq matrix).pc f.v []
      let s := (s.post (coreNode B.core) 0 r).1
      (s.onSeq b matrix fun q => { q with run := .idle, wait := .none }).seqLeaves b matrix
  else s.seqTrap b matrix f.cause (f.v.setWidth 32) f.host f.migrating

/-- Who asks when a sequencer does: it runs in the mode of its block (R324). -/
def State.seqAsker (s : State) (b : Nat) (B : Block) (matrix : Bool) : Asker :=
  ⟨B.core, .seq b matrix, (B.seq matrix).walkFaults, (B.seq matrix).refetched.toList, s.agent B.core .user⟩

/-- What a sequencer waits for, from what a lane would. -/
def seqWaitOf : WaitKind → SeqWait
  | .walk id => .walk id
  | .refetch tag => .refetch tag
  | .bar _ _ | .rdv _ | .grow _ _ | .cpwait _ | .again _ | .remote _ | .monitor _ _ _ _ | .verdict _ _ _
  | .home _ _ _ | .alone _ | .recv _ _ _
  | .parked _ | .rejoin _ _ => .none

/-- The engine of a sequencer. -/
def seqEngine (matrix : Bool) : Engine := if matrix then .matrix else .copy

/-- `BRA` of a sequencer. A target that the checks of Table 7.2 refuse leaves SEQTVAL 0 (R198). -/
def seqBranch (off : Word) (matrix : Bool) (s : State) (b : Nat) : State :=
  match s.blocks.find? b with
  | none => s
  | some B =>
    let q := B.seq matrix
    let t := q.pc + off.signExtend 64
    match s.checkTarget (s.seqAsker b B matrix) (seqEngine matrix) q.line t false with
    | (s, .error w) => s.onSeq b matrix fun q => { q with wait := seqWaitOf w }
    | (s, .ok (some f)) => s.seqFault b matrix (if f.cause = 0x02 || f.cause = 0x04 then { f with v := 0 } else f)
    | (s, .ok none) => s.onSeq b matrix fun q => { q with pc := t, walkFaults := [], refetched := none }

/-- `NOP` (R137): no effect, and its guard is not read. -/
def execNop (_g : Guard) (s : State) : Host.Outcome State Fault Refusal :=
  anyOp (.nop ⟨false, 7⟩) s (fun s k m => s.advance k m) fun matrix s b => s.onSeq b matrix Seq.advance

/-- Whether an earlier instruction of a gang is still to read or write: a walk, a remote access, a `GROW` or another
device's home is waited for (R138). Waits at blocking points are for other agents, and are not looked at. -/
def Gang.inFlight (G : Gang) : Bool :=
  G.waits.any fun w => match w.kind with
    | .walk _ | .remote _ | .grow _ _ | .home _ _ _ | .alone _ => true
    | .again r => r != "isync" && r != "operand"
    | .refetch _ | .bar _ _ | .rdv _ | .cpwait _ | .monitor _ _ _ _ | .verdict _ _ _ | .recv _ _ _ | .parked _
    | .rejoin _ _ => false

/-- `ISYNC` (R138). -/
def execIsync (g : Guard) (s : State) : Host.Outcome State Fault Refusal :=
  threadOp (.isync g) s fun s k m =>
    if ((s.gangs.find? k).map Gang.inFlight).getD false then s.stall k m (.again "isync")
    else
    let s := s.setCore (coreOf k) { s.core (coreOf k) with icache := [] }
    s.onGang k fun G => { G.advance m with line := none }

/-- `BRA` (R152). -/
def execBra (g : Guard) (off : Word) (s : State) : Host.Outcome State Fault Refusal :=
  anyOp (.bra g off) s (transfer (fun G l => ((G.lane l).pc + off.signExtend 64, false)) none) (seqBranch off)

/-- `BRX` (R152). -/
def execBrx (g : Guard) (a : Reg) (s : State) : Host.Outcome State Fault Refusal :=
  threadOp (.brx g a) s (transfer (fun G l => (G.view l).pair a) none)

/-- `CALL` (R153). -/
def execCall (g : Guard) (d : BitVec 8) (off : Word) (s : State) : Host.Outcome State Fault Refusal :=
  threadOp (.call g d off) s (transfer (fun G l => ((G.lane l).pc + off.signExtend 64, false)) (some d))

/-- `CALLX` (R153). -/
def execCallx (g : Guard) (d : BitVec 8) (a : Reg) (s : State) : Host.Outcome State Fault Refusal :=
  threadOp (.callx g d a) s (transfer (fun G l => (G.view l).pair a) (some d))

/-- `RET` (R153): the target is checked when it is fetched. -/
def execRet (g : Guard) (a : Reg) (s : State) : Host.Outcome State Fault Refusal :=
  threadOp (.ret g a) s fun s k m =>
    (lanesOf m).foldl (fun s l =>
      match s.gangs.find? k with
      | none => s
      | some G =>
        match (G.view l).pair a with
        | (_, true) => s.trap k l 0x07 0 (G.lane l).pc
        | (t, false) => s.setGang k (G.jump l t)) s

-- Reconvergence (R145, R154)

/-- The lowest free reconvergence entry. -/
def Gang.freeEntry (G : Gang) : Option Nat := G.reconv.freeFrom 8 0

/-- One lane's arrival at a `RECONV` whose mask it would read as `mask` (R145). -/
def State.arriveReconv (s : State) (k l : Nat) (mask : Word × Bool) : State :=
  match s.gangs.find? k with
  | none => s
  | some G =>
    let pc := (G.lane l).pc
    match List.find? (fun e => e.2.addr == pc) G.reconv with
    | some (i, e) =>
      if e.members.getLsbD l then
        s.setGang k { G.settled (laneBit l) with
          reconv := G.reconv.put i { e with arrived := e.arrived ||| laneBit l } }
      else s.advance k (laneBit l)
    | none =>
      if mask.2 then s.trap k l 0x07 0 pc
      else if !mask.1.getLsbD l then s.advance k (laneBit l)
      else
        match G.freeEntry with
        | none => s.trap k l 0x01 0 pc
        | some i => s.setGang k { G.settled (laneBit l) with reconv := G.reconv.put i ⟨pc, mask.1, laneBit l⟩ }

/-- `RECONV` of a group: each active lane arrives, lowest first, then the entries whose members are all in release. -/
def reconv (mask : View → Word × Bool) : ThreadBody := fun s k m =>
  match s.gangs.find? k with
  | none => s
  | some G => ((lanesOf m).foldl (fun s l => s.arriveReconv k l (mask (G.view l))) s).onGang k (·.settleReconv)

/-- `RECONV imm` (R154). -/
def execReconvImm (g : Guard) (mask : Word) (s : State) : Host.Outcome State Fault Refusal :=
  threadOp (.reconvImm g mask) s (reconv fun _ => (mask, false))

/-- `RECONV xA` (R154). -/
def execReconvReg (g : Guard) (a : Reg) (s : State) : Host.Outcome State Fault Refusal :=
  threadOp (.reconvReg g a) s (reconv fun v => v.reg a)

-- Votes, shuffles, reductions, masks

/-- Lanes of lane `l`'s segment of 2^w lanes (R156). -/
def segment (w : BitVec 4) (l : Nat) : Mask :=
  let n := 2 ^ w.toNat
  maskOf ((List.range n).map (n * (l / n) + ·))

/-- The predicate on the lanes of a mask, and whether it is poisoned on one of them (R156). -/
def Gang.ballot (G : Gang) (m : Mask) (a : BitVec 3) : Mask × Bool :=
  (maskOf ((lanesOf m).filter fun l => ((G.view l).pred a).1), (lanesOf m).any fun l => ((G.view l).pred a).2)

/-- `VOTE.any` (R156). -/
def execVoteAny (g : Guard) (w : BitVec 4) (d a : BitVec 3) (s : State) : Host.Outcome State Fault Refusal :=
  threadOp (.voteAny g w d a) s (groupThread fun G m e l =>
    let b := G.ballot (m &&& segment w l) a
    .predicate e b.2 d (b.1 != 0))

/-- `VOTE.all` (R156). -/
def execVoteAll (g : Guard) (w : BitVec 4) (d a : BitVec 3) (s : State) : Host.Outcome State Fault Refusal :=
  threadOp (.voteAll g w d a) s (groupThread fun G m e l =>
    let b := G.ballot (m &&& segment w l) a
    .predicate e b.2 d (b.1 == m &&& segment w l))

/-- `VOTE.ballot` (R156). -/
def execVoteBallot (g : Guard) (w : BitVec 4) (d : BitVec 8) (a : BitVec 3) (s : State) :
    Host.Outcome State Fault Refusal :=
  threadOp (.voteBallot g w d a) s (groupThread fun G m e l =>
    let b := G.ballot (m &&& segment w l) a
    .results e (G.view l) b.2 b.1 [(⟨false, d⟩, b.1)])

/-- `VOTE.eq` (R156). -/
def execVoteEq (g : Guard) (w : BitVec 4) (d : BitVec 3) (a : Reg) (s : State) : Host.Outcome State Fault Refusal :=
  threadOp (.voteEq g w d a) s (groupThread fun G m e l =>
    let vs := (lanesOf (m &&& segment w l)).map fun i => (G.view i).reg a
    .predicate e (vs.any (·.2)) d (vs.all fun v => v.1 == (vs.headD (0, false)).1))

/-- `VOTE.cnt` (R156). -/
def execVoteCnt (g : Guard) (w : BitVec 4) (d : BitVec 8) (a : BitVec 3) (s : State) :
    Host.Outcome State Fault Refusal :=
  threadOp (.voteCnt g w d a) s (groupThread fun G m e l =>
    let b := G.ballot (m &&& segment w l) a
    .results e (G.view l) b.2 b.1 [(⟨false, d⟩, BitVec.ofNat 32 (lanesOf b.1).length)])

/-- A shuffle (R157): `src` gives the source lane from the segment's base, its length, the lane and b. -/
def shuffle (w : BitVec 4) (d : BitVec 8) (a : Reg) (b : Src) (c : Reg) (src : Nat → Nat → Nat → Nat → Int) :
    Gang → Mask → Env → Nat → Out := fun G m e l =>
  let n := 2 ^ w.toNat
  let v := G.view l
  match v.wordS b with
  | (_, true) => { trap := some (0x07, 0) }
  | (i, false) =>
    let from_ := src (n * (l / n)) n l i.toNat
    let inside := 0 ≤ from_ && from_ < 32 && (m &&& segment w l).getLsbD from_.toNat
    let r := if inside then (G.view from_.toNat).reg a else v.reg c
    .results e v r.2 r.1 [(⟨false, d⟩, r.1)]

/-- `SHFL.pick` (R157). -/
def execShflPick (g : Guard) (w : BitVec 4) (d : BitVec 8) (a : Reg) (b : Src) (c : Reg) (s : State) :
    Host.Outcome State Fault Refusal :=
  threadOp (.shflPick g w d a b c) s (groupThread (shuffle w d a b c fun base n _ i => ((base + i % n : Nat) : Int)))

/-- `SHFL.fwd` (R157). -/
def execShflFwd (g : Guard) (w : BitVec 4) (d : BitVec 8) (a : Reg) (b : Src) (c : Reg) (s : State) :
    Host.Outcome State Fault Refusal :=
  threadOp (.shflFwd g w d a b c) s (groupThread (shuffle w d a b c fun _ _ l i => (l : Int) - i))

/-- `SHFL.back` (R157). -/
def execShflBack (g : Guard) (w : BitVec 4) (d : BitVec 8) (a : Reg) (b : Src) (c : Reg) (s : State) :
    Host.Outcome State Fault Refusal :=
  threadOp (.shflBack g w d a b c) s (groupThread (shuffle w d a b c fun _ _ l i => (l : Int) + i))

/-- `SHFL.flip` (R157). -/
def execShflFlip (g : Guard) (w : BitVec 4) (d : BitVec 8) (a : Reg) (b : Src) (c : Reg) (s : State) :
    Host.Outcome State Fault Refusal :=
  threadOp (.shflFlip g w d a b c) s (groupThread (shuffle w d a b c fun _ n l i => ((l ^^^ (i % n) : Nat) : Int)))

/-- `SHFL.rot` (R157). -/
def execShflRot (g : Guard) (w : BitVec 4) (d : BitVec 8) (a : Reg) (b : Src) (c : Reg) (s : State) :
    Host.Outcome State Fault Refusal :=
  threadOp (.shflRot g w d a b c) s
    (groupThread (shuffle w d a b c fun base n l i => ((base + (l - base + i) % n : Nat) : Int)))

/-- One step of a reduction: the bits so far, the next lane's bits, and the flags raised (R158). -/
def reduceStep (op : RedOp) (ty : Ty) (x y : Word) : Word × BitVec 7 :=
  if ty = .f32 then
    let a := Num.decodeCode Num.fp32 x.toNat
    let b := Num.decodeCode Num.fp32 y.toNat
    match op with
    | .min | .max =>
      match Num.pick (op == .max) a b with
      | (0, f) => (x, f)
      | (1, f) => (y, f)
      | (_, f) => (BitVec.ofNat 32 (Num.nanCode Num.fp32), f)
    | .add | .and | .or | .xor =>
      let (c, f) := Num.finish Num.fp32 .rne (Num.add .rne a b)
      (BitVec.ofNat 32 c, f)
  else
    let less := if ty.signed then x.slt y else x.ult y
    match op with
    | .add => (x + y, 0)
    | .min => (if less then x else y, 0)
    | .max => (if less then y else x, 0)
    | .and => (x &&& y, 0)
    | .or => (x ||| y, 0)
    | .xor => (x ^^^ y, 0)

/-- `REDUX` (R158). -/
def execRedux (g : Guard) (op : RedOp) (ty : Ty) (d : BitVec 8) (a : Reg) (s : State) :
    Host.Outcome State Fault Refusal :=
  threadOp (.redux g op ty d a) s (groupThread fun G m e l =>
    let vs := (lanesOf m).map fun i => (G.view i).reg a
    let r := (vs.drop 1).foldl (fun (r : Word × BitVec 7) v =>
      let (w, f) := reduceStep op ty r.1 v.1
      (w, r.2 ||| f)) ((vs.headD (0, false)).1, 0)
    .results e (G.view l) (vs.any (·.2)) ((G.view l).reg a).1 [(⟨false, d⟩, r.1)] r.2)

/-- A lane mask written to x[D] of each active lane (R159). -/
def laneMask (d : BitVec 8) (f : Mask → Nat → Mask) : ThreadBody :=
  groupThread fun G m e l => .results e (G.view l) false 0 [(⟨false, d⟩, f m l)]

/-- Lanes below `l`. -/
def below (l : Nat) : Mask := maskOf (List.range l)

/-- `BMASK.self` (R159). -/
def execBmaskSelf (g : Guard) (d : BitVec 8) (s : State) : Host.Outcome State Fault Refusal :=
  threadOp (.bmaskSelf g d) s (laneMask d fun _ l => laneBit l)

/-- `BMASK.pre` (R159). -/
def execBmaskPre (g : Guard) (w : BitVec 4) (d : BitVec 8) (s : State) : Host.Outcome State Fault Refusal :=
  threadOp (.bmaskPre g w d) s (laneMask d fun _ l => segment w l &&& below l)

/-- `BMASK.post` (R159). -/
def execBmaskPost (g : Guard) (w : BitVec 4) (d : BitVec 8) (s : State) : Host.Outcome State Fault Refusal :=
  threadOp (.bmaskPost g w d) s (laneMask d fun _ l => segment w l &&& ~~~(below (l + 1)))

/-- `BMASK.seg` (R159). -/
def execBmaskSeg (g : Guard) (w : BitVec 4) (d : BitVec 8) (s : State) : Host.Outcome State Fault Refusal :=
  threadOp (.bmaskSeg g w d) s (laneMask d fun _ l => segment w l)

/-- `BMASK.grp` (R159). -/
def execBmaskGrp (g : Guard) (d : BitVec 8) (s : State) : Host.Outcome State Fault Refusal :=
  threadOp (.bmaskGrp g d) s (laneMask d fun m _ => m)

/-- The mask of `BMASK.span` (R159). -/
def spanMask (b : Word) : Mask :=
  let lo := b.toNat % 32
  let n := b.toNat / 32 % 64
  maskOf ((List.range 32).filter fun i => lo ≤ i && i < lo + n)

/-- `BMASK.span` (R159). -/
def execBmaskSpan (g : Guard) (d : BitVec 8) (b : Src) (s : State) : Host.Outcome State Fault Refusal :=
  threadOp (.bmaskSpan g d b) s (aluThread fun e v =>
    let x := v.wordS b
    .results e v x.2 x.1 [(⟨false, d⟩, spanMask x.1)])

-- The allocation (R149, R160)

/-- Registers of a core's pool (R149). -/
def poolSize : Nat := 32768

/-- The gangs of a core that have a lane left, with their blocks. -/
def State.liveGangs (s : State) (core : Nat) : List (Nat × Gang) :=
  s.gangs.filter fun g => coreOf g.1 = core && g.2.live != 0

/-- Registers of a core's pool that placement reserved, at their blocks' REGS: those of gangs that live, and those of an
ensemble's members until it retires (R160, R349). -/
def State.reservedRegs (s : State) (core : Nat) : Nat :=
  let holds := fun (g : Nat × Gang) =>
    match s.blocks.find? g.2.block with
    | some B => if g.2.live != 0 || B.ens.isSome then 32 * B.regs else 0
    | none => 0
  ((s.gangs.filter fun (g : Nat × Gang) => coreOf g.1 = core).map holds).foldl (· + ·) 0

/-- Registers of a core's pool that no gang holds; an ensemble keeps those of its members until it retires (R349). -/
def State.freeRegs (s : State) (core : Nat) : Nat :=
  let holds := fun (g : Nat × Gang) =>
    if g.2.live != 0 then 32 * g.2.alloc
    else
      match s.blocks.find? g.2.block with
      | some B => if B.ens.isSome then 32 * B.regs else 0
      | none => 0
  poolSize - ((s.gangs.filter fun (g : Nat × Gang) => coreOf g.1 = core).map holds).foldl (· + ·) 0

/-- The predicate of a `GROW` or another gang operation set on lanes. -/
def Gang.putPreds (G : Gang) (m : Mask) (d : BitVec 3) (b : Bool) : Gang :=
  (lanesOf m).foldl (fun G l => G.putLane l ((G.lane l).putP d b false)) G

/-- Waiting `GROW` requests of a core granted, oldest first, as far as the free registers go (R149). Those whose lanes have
all left end. -/
def State.grantGrow (s : State) (core : Nat) : List GrowWait → State
  | [] => s.setCore core { s.core core with grow := [] }
  | g :: rest =>
    let k := 16 * core + g.gang
    match s.gangs.find? k with
    | none => s.grantGrow core rest
    | some G =>
      let all := g.lanes ||| g.others
      if g.lanes = 0 || 256 < G.alloc + g.n then
        (s.setGang k (((G.unwait all).putPreds g.lanes g.d false).advance all)).grantGrow core rest
      else if 32 * g.n ≤ s.freeRegs core then
        let G := ((G.unwait all).putPreds g.lanes g.d true).advance all
        (s.setGang k { G with alloc := G.alloc + g.n }).grantGrow core rest
      else s.setCore core { s.core core with grow := g :: rest }

/-- `GROW` of a group (R160): while older requests of the core wait, it waits behind them (R149). -/
def grow (try_ : Bool) (d : BitVec 3) (n : Nat) : ThreadBody := fun s k m =>
  match s.gangs.find? k with
  | none => s
  | some G =>
    let core := coreOf k
    let fail := s.setGang k ((G.putPreds m d false).advance m)
    if 256 < G.alloc + n || poolSize - s.reservedRegs core < 32 * n then fail
    else if 32 * n ≤ s.freeRegs core && (s.core core).grow.isEmpty then
      s.setGang k { (G.putPreds m d true).advance m with alloc := G.alloc + n }
    else if try_ then fail
    else
      let s := s.setCore core { s.core core with grow := (s.core core).grow ++ [⟨k % 16, m, n, d, 0⟩] }
      s.stall k m (.grow n d)

/-- `GROW` (R160). -/
def execGrow (g : Guard) (d : BitVec 3) (n : Word) (s : State) : Host.Outcome State Fault Refusal :=
  threadOp (.grow g d n) s (grow false d n.toNat)

/-- `GROW.try` (R160). -/
def execGrowTry (g : Guard) (d : BitVec 3) (n : Word) (s : State) : Host.Outcome State Fault Refusal :=
  threadOp (.growTry g d n) s (grow true d n.toNat)

/-- A gang whose allocation falls to `a`: the registers above lose their contents. -/
def Gang.shrinkTo (G : Gang) (a : Nat) : Gang :=
  let cut := fun (L : Lane) => { L with x := L.x.filter (·.1 < a), xp := L.xp.filter (·.1 < a) }
  { G with alloc := a, lanes := G.lanes.map cut }

/-- `SHRINK` (R160). It issues only when no instruction in flight names a register that it returns (R143, `Gang.holdsUp`). -/
def execShrink (g : Guard) (n : Word) (s : State) : Host.Outcome State Fault Refusal :=
  threadOp (.shrink g n) s fun s k m =>
    match s.gangs.find? k with
    | none => s
    | some G =>
      if G.alloc < n.toNat + 8 then s.trapAll k m 0x01 0 ((s.cur.map (·.pc)).getD 0)
      else
        let s := s.setGang k ((G.advance m).shrinkTo (G.alloc - n.toNat))
        s.grantGrow (coreOf k) (s.core (coreOf k)).grow

-- Special registers (R150, R161, Table 8.2)

/-- The cluster of a core, among the device's (R13). -/
def clusterOf (core : Nat) : Nat := coreNode core * 32 + core % 512 / 16

/-- The cluster's own registers and monitors. -/
def State.cluster (s : State) (c : Nat) : Cluster := s.clusters.get {} c

/-- FLOOR of a cluster: the highest floor of its cores' PWRSET (R86, Table 8.1). -/
def State.floor (s : State) (c : Nat) : Nat :=
  ((List.range 16).map fun i => (s.core (c / 32 * 512 + c % 32 * 16 + i)).pwrset.floor.toNat).foldl Nat.max 0

/-- EFF of a cluster, as a code (Table 8.1). -/
def State.eff (s : State) (c : Nat) : Nat :=
  Nat.max (s.floor c) (Nat.max (s.cluster c).hmin.toNat (s.cluster c).bel.toNat)

/-- The time counter of a die (R16). -/
def State.counter (s : State) (node : Nat) : DWord := BitVec.ofInt 64 ((s.now : Int) + s.skew.get 0 node / 1000)

/-- Whether a cancel covers a block's launch (R96). -/
def State.covered (s : State) (B : Block) : Bool :=
  B.cancelled || ((s.launches.find? B.tag).map (·.cancelled)).getD false

/-- The special registers that every engine may read. -/
def State.sharedSpecial (s : State) (B : Block) (n : Nat) : DWord :=
  let core := B.core
  match n with
  | 0x02 => BitVec.ofNat 64 (core % 512)
  | 0x03 => BitVec.ofNat 64 (coreNode core)
  | 0x04 => BitVec.ofNat 64 (core % 512 / 16)
  | 0x05 => BitVec.ofNat 64 (2 ^ s.eff (clusterOf core))
  | 0x06 => s.counter (coreNode core)
  | 0x07 => Config.deviceNumber.setWidth 64
  | 0x08 | 0x09 | 0x0A | 0x0B => (B.coord.getD (n - 8) 0).setWidth 64
  | 0x0C => BitVec.ofNat 64 B.member
  | 0x0E => if s.covered B then 1 else 0
  | _ => 0

/-- A special register as a lane reads it (Table 8.2). -/
def State.special (s : State) (G : Gang) (B : Block) (l n : Nat) : DWord :=
  match n with
  | 0x00 => BitVec.ofNat 64 l
  | 0x01 => BitVec.ofNat 64 G.number
  | 0x0D => BitVec.ofNat 64 (G.lane l).mode.rank
  | 0x0F => BitVec.ofNat 64 (((s.launches.find? B.tag).map (·.prio)).getD 0)
  | 0x10 => (G.lane l).fflags.setWidth 64
  | 0x12 => BitVec.ofNat 64 G.alloc
  | 0x13 => if (s.core B.core).secure then 1 else 0
  | n => s.sharedSpecial B n

/-- The writes of a 32- or 64-bit value to D. -/
def wideTo (wide : Bool) (d : Reg) (v : DWord) : List (Reg × Word) :=
  if wide then [(d, v.setWidth 32), (⟨d.k, d.n + 1⟩, v.extractLsb' 32 32)] else [(d, v.setWidth 32)]

/-- `GETS` (R161). -/
def execGets (g : Guard) (wide : Bool) (d num : BitVec 8) (s : State) : Host.Outcome State Fault Refusal :=
  anyOp (.gets g wide d num) s
    (fun s k m =>
      match s.blockOf k with
      | none => s
      | some B => groupThread (fun G _ e l =>
          .results e (G.view l) false 0 (wideTo wide ⟨false, d⟩ (s.special G B l num.toNat))) s k m)
    fun matrix s b =>
      match s.blocks.find? b with
      | none => s
      | some B =>
        let v := if num = 0x11 then B.mseq.mflags.setWidth 64 else s.sharedSpecial B num.toNat
        aluSeq (fun e v' => .results e v' false 0 (wideTo wide ⟨false, d⟩ v)) matrix s b

/-- `SETS` (R161): `fflags` of each lane, or the matrix sequencer's `mflags`. -/
def execSets (g : Guard) (num : BitVec 8) (a : Reg) (s : State) : Host.Outcome State Fault Refusal :=
  anyOp (.sets g num a) s
    (fun s k m =>
      (lanesOf m).foldl (fun s l =>
        match s.gangs.find? k with
        | none => s
        | some G =>
          match (G.view l).reg a with
          | (_, true) => s.trap k l 0x07 0 (G.lane l).pc
          | (v, false) =>
            s.setGang k ((G.putLane l { G.lane l with fflags := v.setWidth 7 }).advance (laneBit l))) s)
    fun matrix s b =>
      match s.blocks.find? b with
      | none => s
      | some B =>
        match (B.seq matrix).view.reg a with
        | (_, true) => s.seqTrap b matrix 0x07 0
        | (v, false) => s.onSeq b matrix fun q => { q.advance with mflags := v.setWidth 7 }

-- Predicates (R162)

/-- A predicate computed from two (R162). -/
def plog2 (d a b : BitVec 3) (f : Bool → Bool → Bool) : Env → View → Out := fun e v =>
  let x := v.pred a
  let y := v.pred b
  .predicate e (x.2 || y.2) d (f x.1 y.1)

/-- `PLOG.and` (R162). -/
def execPlogAnd (g : Guard) (d a b : BitVec 3) (s : State) : Host.Outcome State Fault Refusal :=
  alu (.plogAnd g d a b) s (plog2 d a b fun x y => x && y)

/-- `PLOG.or` (R162). -/
def execPlogOr (g : Guard) (d a b : BitVec 3) (s : State) : Host.Outcome State Fault Refusal :=
  alu (.plogOr g d a b) s (plog2 d a b fun x y => x || y)

/-- `PLOG.xor` (R162). -/
def execPlogXor (g : Guard) (d a b : BitVec 3) (s : State) : Host.Outcome State Fault Refusal :=
  alu (.plogXor g d a b) s (plog2 d a b fun x y => x != y)

/-- `PLOG.andn` (R162). -/
def execPlogAndn (g : Guard) (d a b : BitVec 3) (s : State) : Host.Outcome State Fault Refusal :=
  alu (.plogAndn g d a b) s (plog2 d a b fun x y => x && !y)

/-- `PLOG.orn` (R162). -/
def execPlogOrn (g : Guard) (d a b : BitVec 3) (s : State) : Host.Outcome State Fault Refusal :=
  alu (.plogOrn g d a b) s (plog2 d a b fun x y => x || !y)

/-- `PLOG.not` (R162). -/
def execPlogNot (g : Guard) (d a : BitVec 3) (s : State) : Host.Outcome State Fault Refusal :=
  alu (.plogNot g d a) s fun e v => .predicate e (v.pred a).2 d (!(v.pred a).1)

/-- `PLOG.set` (R162). -/
def execPlogSet (g : Guard) (d : BitVec 3) (b : Bool) (s : State) : Host.Outcome State Fault Refusal :=
  alu (.plogSet g d b) s fun e _ => .predicate e false d b

end Sys2Proof.Machine
end

