-- ==== Sys2Proof/Machine/Counting.lean ====
section
/-! DEFINITION. Completion records (R91 to R93, R360): the hardware's counters, their mirror in memory, completion and
sealing. A record that the device counts is known by its context and its virtual address. -/

namespace Sys2Proof.Machine

-- Accesses of the launch processor

/-- The launch processor's agent for a context: node 0, with the rights of S mode. -/
def State.lp (s : State) (ctx : Nat) : Agent := ctxAgent 0 (s.ctxs.get {} ctx)

/-- Bytes that may lie across two 64 KiB pieces read. -/
def devReadRun (ag : Agent) (a : DWord) (n : Nat) (s : State) : State × Except PageFault (List Byte) :=
  let n1 := Nat.min n (65536 - a.toNat % 65536)
  match devReadClean ag a n1 s with
  | (s, .error f) => (s, .error f)
  | (s, .ok bs) =>
    if n1 = n then (s, .ok bs)
    else
      match devReadClean ag (a + BitVec.ofNat 64 n1) (n - n1) s with
      | (s, .error f) => (s, .error f)
      | (s, .ok cs) => (s, .ok (bs ++ cs))

/-- An 8-byte word of region 000 updated at its home by an agent that may read and write it; a poisoned word is left. -/
def devUpdate (ag : Agent) (a : DWord) (n : Nat) (f : List Byte → List Byte) (s : State) :
    State × Except PageFault (List Byte) :=
  if a.toNat / 2 ^ 48 ≠ 0 then (s, .error ⟨0x06, false, false⟩)
  else
    match translateNow ag .readWrite a.toNat s with
    | (s, .error e) => (s, .error e)
    | (s, .ok t) =>
      let pa := t.addr a.toNat
      let (s, old) := if t.ms then (s, s.dram pa n) else s.homeRead pa n
      if old.any (·.2) then (s, .error ⟨0x07, false, false⟩)
      else
        let ws := runAt pa (clean (f (old.map (·.1))))
        (if t.ms then s.baseWrite ws else s.homeWrite ws, .ok (old.map (·.1)))

-- Records

/-- Number of a completion record. -/
def crecKey (ctx : Nat) (a : DWord) : Nat := ctx * 2 ^ 64 + a.toNat

/-- FLAGS of a completion record (Table 5.4). -/
def CRec.flags (c : CRec) : Nat :=
  let bit := fun (b : Bool) (n : Nat) => if b then n else 0
  bit c.sealed 1 + bit c.killed 2 + bit c.late 4 + bit c.walkFault 8 + bit c.cancelReq 16 + bit c.orphan 32

/-- A completion record as its 64 bytes give it. -/
def CRec.ofBytes (ctx : Nat) (a : DWord) (bs : List Byte) : CRec :=
  let fl := bs.getD 3 0
  { ctx := ctx, addr := a, level := field bs 2 1, parent := BitVec.ofNat 64 (field bs 0x18 8), out := field bs 8 8,
    done := field bs 0x10 8, sealed := fl.getLsbD 0, killed := fl.getLsbD 1, late := fl.getLsbD 2,
    walkFault := fl.getLsbD 3, cancelReq := fl.getLsbD 4, orphan := fl.getLsbD 5, started := field bs 0x20 8 != 0,
    completed := field bs 0 1 != 0, tag := field bs 0x30 4 }

/-- A change made to the counters of a record. -/
def State.onRec (s : State) (key : Nat) (f : CRec → CRec) : State := { s with crecs := s.crecs.adjust key f }

/-- A record that cannot be used is reported to the context's SFQ (R360). -/
def State.reportRec (s : State) (ctx : Nat) (a : DWord) (cause : BitVec 8) (tag code : Nat) : State :=
  (s.post 0 (ctx + 1) (mkRecord 15 cause.toNat 0 6 tag 0 0 a (toBytes 1 code))).1

/-- A record's counters: the device's own, else taken from memory; where it cannot be read, counted all the same, at the
level given (R360). The cause where it could not. -/
def State.fetchRec (s : State) (ctx : Nat) (a : DWord) (level : Nat) : State × CRec × Option (BitVec 8) :=
  match s.crecs.find? (crecKey ctx a) with
  | some c => (s, c, none)
  | none =>
    match devReadClean (s.lp ctx) a 64 s with
    | (s, .ok bs) => (s, .ofBytes ctx a bs, none)
    | (s, .error f) =>
      (s, { ctx := ctx, addr := a, level := level, parent := 0, unread := true, reported := true }, some f.cause)

/-- A record put under the device's counters, and reported once where it could not be read. -/
def State.track (s : State) (c : CRec) (cause : Option (BitVec 8)) : State :=
  let s := { s with crecs := s.crecs.put (crecKey c.ctx c.addr) c }
  match cause with
  | some x => s.reportRec c.ctx c.addr x c.tag 0
  | none => s

/-- Bytes written into a record, or the cause why they cannot be; an update of OUT or DONE reads the word first, and finds
poison there (R360). -/
def State.tryRec (s : State) (c : CRec) (off : Nat) (bs : List Byte) : State × Option (BitVec 8) :=
  let a := c.addr + BitVec.ofNat 64 off
  let put := fun (s : State) =>
    match devWrite (s.lp c.ctx) a (clean bs) s with
    | (s, .error f) => (s, some f.cause)
    | (s, .ok _) => (s, none)
  if off = 8 ∨ off = 0x10 then
    match devReadClean (s.lp c.ctx) a bs.length s with
    | (s, .error f) => (s, some f.cause)
    | (s, .ok _) => put s
  else put s

/-- Bytes written into a record that the device counts; behind a held write they are held too (R360). -/
def State.writeRec (s : State) (key off : Nat) (bs : List Byte) : State :=
  match s.crecs.find? key with
  | none => s
  | some c =>
    if c.unread || !c.held.isEmpty then s.onRec key fun c => { c with held := c.held ++ [(off, bs)] }
    else
      match s.tryRec c off bs with
      | (s, none) => s
      | (s, some cause) =>
        let s := s.onRec key fun c => { c with held := [(off, bs)], reported := true }
        if c.reported then s else s.reportRec c.ctx c.addr cause c.tag 0

/-- FLAGS of a record as the device holds them written to memory. -/
def State.writeFlags (s : State) (key : Nat) : State :=
  match s.crecs.find? key with
  | none => s
  | some c => s.writeRec key 3 (toBytes 1 c.flags)

/-- OUT and DONE changed (R92). -/
def State.bump (s : State) (key : Nat) (out done : Int) : State :=
  let wrap := fun (n : Nat) (d : Int) => (((n : Int) + d) % 2 ^ 64).toNat
  let s := s.onRec key fun c => { c with out := wrap c.out out, done := wrap c.done done }
  match s.crecs.find? key with
  | none => s
  | some c =>
    let s := s.writeRec key 8 (toBytes 8 c.out)
    if done = 0 then s else s.writeRec key 0x10 (toBytes 8 c.done)

/-- TSTART of a record written. -/
def State.startRec (s : State) (key : Nat) : State :=
  (s.onRec key fun c => { c with started := true }).writeRec key 0x20 (toBytes 8 (s.counter 0).toNat)

/-- A child counted in its parent (R92): the parent's OUT rises, and a phase or job that receives its first child is
itself counted in its own. True where the link breaks R91. -/
def State.link (s : State) (ctx : Nat) (parent : DWord) (level : Nat) : Nat → State × Bool
  | 0 => (s, true)
  | fuel + 1 =>
    if parent = 0 then (s, false)
    else if parent.toNat % 64 ≠ 0 then (s, true)
    else
      let (s, p, cause) := s.fetchRec ctx parent (level + 1)
      if p.level ≤ level || 4 < p.level then (s, true)
      else
        let key := crecKey ctx parent
        let s := (s.track p cause).bump key 1 0
        if p.started || p.level = 2 || p.unread then (s, false)
        else
          let s := s.startRec key
          match s.link ctx p.parent p.level fuel with
          | (s, false) => (s, false)
          | (s, true) => ((s.onRec key fun c => { c with orphan := true }).writeFlags key, false)

/-- A record counted in its parent; ORPHAN is set where the link breaks R91. -/
def State.linkRec (s : State) (key : Nat) : State :=
  match s.crecs.find? key with
  | none => s
  | some c =>
    if c.orphan then s
    else
      match s.link c.ctx c.parent c.level 4 with
      | (s, false) => s
      | (s, true) => (s.onRec key fun c => { c with orphan := true }).writeFlags key

-- Completion (R93)

/-- Queues whose previous entry was a launch or a graph that has retired. -/
def State.retired (s : State) (gone : QState → Bool) : State :=
  { s with queues := s.queues.mapV fun _ (q : QState) => if gone q then { q with prevLaunch := none, prevGraph := none } else q }

/-- A launch leaves the device: its TAG and its cooperative barriers are free (R350). -/
def State.dropLaunch (s : State) (tag : Nat) : State :=
  { s with launches := s.launches.del tag }.retired (·.prevLaunch == some tag)

/-- The graph whose record this is has retired (R89). -/
def State.dropGraph (s : State) (ctx : Nat) (a : DWord) : State :=
  (s.graphs.filter fun (g : Nat × Graph) => g.2.ctx == ctx && g.2.comp == a && g.2.ended).foldl (fun s g =>
    { s with graphs := s.graphs.del g.1 }.retired (·.prevGraph == some g.1)) s

/-- The final 64 bytes copied to NOTIFY (R93); a NOTIFY that cannot be written is held like any record. -/
def State.notify (s : State) (c : CRec) : State :=
  if c.notify = 0 then s
  else
    match devReadClean (s.lp c.ctx) c.addr 64 s with
    | (s, .error _) => s
    | (s, .ok bs) =>
      let n : CRec := { ctx := c.ctx, addr := c.notify, level := 0, parent := 0, tag := c.tag, completed := true }
      match s.tryRec n 0 bs with
      | (s, none) => s
      | (s, some cause) => s.track { n with held := [(0, bs)], reported := true } (some cause)

/-- Steps 3 and 4 of R93, once the STATUS write is performed. -/
def State.finishRec (s : State) (key : Nat) : State :=
  match s.crecs.find? key with
  | none => s
  | some c =>
    if !c.completed || c.unread || !c.held.isEmpty || c.out ≠ 0 then s
    else
      let s := { s with crecs := s.crecs.del key }
      let s := (s.notify c).dropGraph c.ctx c.addr
      if c.parent = 0 || c.orphan then s else s.bump (crecKey c.ctx c.parent) (-1) 1

/-- Steps 2 to 4 of R93 with a STATUS and a CODE. The release of step 1 was made at the retirement of each block that the
record counts (R348), and copy nodes write at the home. -/
def State.completeWith (s : State) (key status code : Nat) : State :=
  match s.crecs.find? key with
  | none => s
  | some c =>
    let s := s.onRec key fun c => { c with completed := true }
    let s := s.writeRec key 0x28 (toBytes 8 (s.counter 0).toNat)
    let s := s.writeRec key 0 (toBytes 1 status ++ toBytes 1 code)
    let mine := fun (L : Launch) => L.ctx == c.ctx && field L.lrec 0x60 8 == c.addr.toNat
    let s := if ((s.launches.find? c.tag).map mine).getD false then s.dropLaunch c.tag else s
    s.finishRec key

/-- Whether a late fault of a launch waits to be posted: its STATUS is not written before (R350). -/
def State.lateHeld (s : State) (tag : Nat) : Bool :=
  s.overflow.any fun (o : Nat × List Held) => o.2.any fun h => field h.bytes 0 1 == 9 && field h.bytes 8 4 == tag

/-- A record completes when it is sealed and OUT is zero (R93). -/
def State.complete (s : State) (key : Nat) : State :=
  match s.crecs.find? key with
  | none => s
  | some c =>
    if c.level = 1 && s.lateHeld c.tag then s
    else if c.sealed && c.out = 0 && !c.completed then s.completeWith key (if c.cancelReq then 3 else 1) 0 else s

/-- A phase or a job that the device counts sealed; another record, or one that has completed, is left (R93, R98). -/
def State.sealNow (s : State) (key : Nat) : State :=
  match s.crecs.find? key with
  | none => s
  | some c =>
    if c.completed || !(c.level = 3 || c.level = 4) then s
    else
      let s := (s.onRec key fun c => { c with sealed := true }).writeFlags key
      let s := if c.started then s else (s.startRec key).linkRec key
      s.complete key

/-- Sealing a record (R93, R98). One that cannot be used is reported; one that cannot be read is sealed when it can (R360). -/
def State.sealRec (s : State) (ctx : Nat) (a : DWord) : State :=
  if a = 0 || a.toNat % 64 ≠ 0 then s.reportRec ctx a (if a = 0 then 0 else 0x04) 0 0
  else
    let key := crecKey ctx a
    match s.fetchRec ctx a 0 with
    | (s, c, cause) =>
      if c.unread then s.track { c with sealAsked := true } cause
      else if c.completed || !(c.level = 3 || c.level = 4) then s
      else (s.track c none).sealNow key

/-- The installed context of an agent's tags. -/
def State.ctxOfTags (s : State) (asid vmid : Nat) : Option Nat :=
  (List.find? (fun (c : Nat × Ctx) => c.2.asid == asid && c.2.vmid == vmid) s.ctxs).map (·.1)

/-- Sealing through another device's window (R98). -/
def State.sealBy (s : State) (ag : Agent) (a : DWord) : State :=
  match s.ctxOfTags ag.asid ag.vmid with
  | some ctx => s.sealRec ctx a
  | none => s

-- Held writes (R360)

/-- A record that could not be read taken from memory: LEVEL and PARENT, and what it counts there added to what the device
has counted. A phase or a job is counted in its own parent, once; a seal that was asked for is made. -/
def State.takeUnread (s : State) (key : Nat) (c : CRec) : State × Bool :=
  match devReadClean (s.lp c.ctx) c.addr 64 s with
  | (s, .error _) => (s, false)
  | (s, .ok bs) =>
    let m := CRec.ofBytes c.ctx c.addr bs
    let c := { c with unread := false, level := m.level, parent := m.parent, orphan := c.orphan || m.orphan,
                      sealed := c.sealed || m.sealed, cancelReq := c.cancelReq || m.cancelReq,
                      started := c.started || m.started,
                      out := if c.level = 1 then c.out else c.out + m.out, done := c.done + m.done }
    let s := s.onRec key fun _ => c
    let s := if m.level = 1 || m.level = 2 then s.linkRec key else if c.started then s else (s.startRec key).linkRec key
    let s := (s.writeFlags key).bump key 0 0
    (if c.sealAsked then s.sealNow key else s, true)

/-- The held writes of one record retried, in order. -/
def State.retryHeld (s : State) (key : Nat) : Nat → State
  | 0 => s
  | fuel + 1 =>
    match s.crecs.find? key with
    | none => s
    | some c =>
      match c.held with
      | [] => s.finishRec key
      | (off, bs) :: rest =>
        match s.tryRec c off bs with
        | (s, some _) => s
        | (s, none) => (s.onRec key fun c => { c with held := rest }).retryHeld key fuel

/-- One record's held writes retried. -/
def State.retryRec (s : State) (key : Nat) : State :=
  match s.crecs.find? key with
  | none => s
  | some c =>
    let (s, ok) := if c.unread then s.takeUnread key c else (s, true)
    if ok then s.retryHeld key (((s.crecs.find? key).map (·.held.length)).getD 0 + 1) else s

/-- `HELD_WRITE_RETRY` (R360). -/
def execHeldWriteRetry (s : State) : Host.Outcome State Fault Refusal :=
  .next (s.crecs.foldl (fun s c => if c.2.unread || !c.2.held.isEmpty then s.retryRec c.1 else s) s)

/-- `RECORD_COMPLETE` (R93). -/
def execRecordComplete (addr : Nat) (s : State) : Host.Outcome State Fault Refusal := .next (s.complete addr)

/-- `SEAL` (R93): the record of the lowest-numbered context that the function's VMID owns. -/
def execSeal (vmid : Nat) (addr : DWord) (s : State) : Host.Outcome State Fault Refusal :=
  match List.find? (fun (c : Nat × Ctx) => c.2.vmid == vmid) s.ctxs with
  | some c => .next (s.sealRec c.1 addr)
  | none => .next s

/-- KILLED, LATEFAULT and WALKFAULT of the launches' records brought to their records (Table 5.4). -/
def State.markFlags (s : State) : State :=
  s.launches.foldl (fun s l =>
    let key := crecKey l.2.ctx (BitVec.ofNat 64 (field l.2.lrec 0x60 8))
    match s.crecs.find? key with
    | none => s
    | some c =>
      if (l.2.killed = 0 || c.killed) && (!l.2.late || c.late) then s
      else (s.onRec key fun c => { c with killed := c.killed || l.2.killed != 0, late := c.late || l.2.late }).writeFlags
        key) s

end Sys2Proof.Machine
end

