-- ==== Sys2Proof/Machine/Float.lean ====
section
/-! DEFINITION. Floating-point instructions (R175 to R182). -/

namespace Sys2Proof.Machine

/-- The element codes of a register as type `t` (R51, R165). -/
def elems (t : Ty) (w : Word) : List Nat :=
  if t.packed then [w.toNat % 65536, w.toNat / 65536]
  else if t.half then [w.toNat % 65536]
  else [w.toNat]

/-- The register of element codes. -/
def ofElems : List Nat → Word
  | [] => 0
  | [c] => BitVec.ofNat 32 c
  | c :: d :: _ => BitVec.ofNat 32 (c + 65536 * d)

/-- The source word that stands for poison among three. -/
def floatSrc (a b c : Word × Bool) : Word := if a.2 then a.1 else if b.2 then b.1 else c.1

/-- A floating instruction of three operand words, element by element: the codes, and the union of the flags. -/
def float3 (t : Ty) (d : Reg) (a b c : Word × Bool) (f : Nat → Nat → Nat → Nat × BitVec 7) : Env → View → Out :=
  fun e v =>
    let rs := ((elems t a.1).zip ((elems t b.1).zip (elems t c.1))).map fun x => f x.1 x.2.1 x.2.2
    .results e v (a.2 || b.2 || c.2) (floatSrc a b c) [(d, ofElems (rs.map (·.1)))]
      (rs.foldl (fun fl r => fl ||| r.2) 0)

/-- A floating instruction of two operands. -/
def float2 (t : Ty) (d a : Reg) (b : Src) (f : Nat → Nat → Nat × BitVec 7) : Env → View → Out := fun e v =>
  float3 t d (v.reg a) (v.wordS b) (0, false) (fun x y _ => f x y) e v

/-- A floating instruction of one operand. -/
def float1 (t : Ty) (d a : Reg) (f : Nat → Nat × BitVec 7) : Env → View → Out := fun e v =>
  float3 t d (v.reg a) (0, false) (0, false) (fun x _ _ => f x) e v

/-- The exact value of an element code of type `t`. -/
def dec (t : Ty) (c : Nat) : Num.Val := Num.decodeCode (Num.ofTy t) c

/-- An operation of two values rounded once (R176). -/
def rounded2 (t : Ty) (rm : Rm) (op : Num.Val → Num.Val → Num.Val × BitVec 7) (x y : Nat) : Nat × BitVec 7 :=
  Num.finish (Num.ofTy t) rm (op (dec t x) (dec t y))

/-- The lesser or greater of two element codes as it stands (R177). -/
def pickCode (t : Ty) (greater : Bool) (x y : Nat) : Nat × BitVec 7 :=
  match Num.pick greater (dec t x) (dec t y) with
  | (0, f) => (x, f)
  | (1, f) => (y, f)
  | (_, f) => (Num.nanCode (Num.ofTy t), f)

/-- The weight of a type's sign bit. -/
def signBit (t : Ty) : Nat := 2 ^ ((Num.ofTy t).width - 1)

/-- An element code with its sign bit replaced (R179). -/
def withSign (t : Ty) (x : Nat) (neg : Bool) : Nat := x % signBit t + if neg then signBit t else 0

/-- The sign bit of an element code. -/
def signOf (t : Ty) (x : Nat) : Bool := signBit t ≤ x

-- Transcendentals (R182)

/-- Fraction bits that the transcendentals are carried to. -/
def fixBits : Nat := 360

/-- The arctangent of 1 / n in fixed point: the series, term by term. -/
def atanInv (n : Nat) : Nat → Nat → Nat → Int
  | 0, _, _ => 0
  | fuel + 1, k, p => ((p / (2 * k + 1) : Nat) : Int) * (if k % 2 = 0 then 1 else -1) + atanInv n fuel (k + 1) (p / (n * n))

/-- π in fixed point (Machin). -/
def piFix : Nat :=
  (16 * atanInv 5 90 0 (2 ^ fixBits / 5) - 4 * atanInv 239 30 0 (2 ^ fixBits / 239)).toNat

/-- The sine of a fixed-point angle, by its series: the term so far, and how many are left. -/
def sinSeries (zz : Nat) : Nat → Nat → Nat → Int
  | 0, _, _ => 0
  | fuel + 1, k, t =>
    (t : Int) * (if k % 2 = 0 then 1 else -1) +
      sinSeries zz fuel (k + 1) (t * zz / 2 ^ fixBits / ((2 * k + 2) * (2 * k + 3)))

/-- sin(π · n / d) in fixed point, for 0 ≤ n / d ≤ 1/2. -/
def sinPi (n d : Nat) : Nat :=
  let z := piFix * n / d
  (sinSeries (z * z / 2 ^ fixBits) 70 0 z).toNat

/-- Binary digits of log2 of a fixed-point number from 1 to below 2. -/
def logDigits : Nat → Nat → Nat → Nat
  | 0, _, acc => acc
  | fuel + 1, m, acc =>
    let q := m * m / 2 ^ fixBits
    if 2 * 2 ^ fixBits ≤ q then logDigits fuel (q / 2) (2 * acc + 1) else logDigits fuel q (2 * acc)

/-- Digits of a logarithm that are taken. -/
def logBits : Nat := 160

/-- log2 of n / d in fixed point of `logBits` bits, rounded down. -/
def log2Fix (n d : Nat) : Int :=
  let x := Num.log2Frac n d
  let m := if 0 ≤ x then n * 2 ^ fixBits / (d * 2 ^ x.toNat) else n * 2 ^ (-x).toNat * 2 ^ fixBits / d
  x * 2 ^ logBits + (logDigits logBits m 0 : Nat)

/-- 2^(n / d) in fixed point for 0 ≤ n / d < 1: the product of the roots of 2 that the digits of n / d name. -/
def exp2Fix (d : Nat) : Nat → Nat → Nat → Nat → Nat
  | 0, _, _, acc => acc
  | fuel + 1, n, root, acc =>
    let root := Num.isqrt (root * 2 ^ fixBits)
    if d ≤ 2 * n then exp2Fix d fuel (2 * n - d) root (acc * root / 2 ^ fixBits) else exp2Fix d fuel (2 * n) root acc

/-- One unit in the last place of n / d at FP32 precision, as the exponent of a power of two; below the smallest normal it
is the spacing of the subnormals (R182). -/
def ulpExp (n d : Nat) : Int := max (Num.log2Frac n d) (-126) - 23

/-- The first and the last FP32 code within `ulps` units in the last place of the magnitude n / d (R182). -/
def withinCodes (ulps n d : Nat) : Nat × Nat :=
  let u := ulpExp n d
  let (n, d, w) := if 0 ≤ u then (n, d, ulps * d * 2 ^ u.toNat) else (n * 2 ^ (-u).toNat, d * 2 ^ (-u).toNat, ulps * d)
  ((Num.roundMag Num.fp32 .rup false (n - w) d).1, (Num.roundMag Num.fp32 .rtz false (n + w) d).1)

/-- The FP32 code that a transcendental returns for a result that is not exact: of the codes within `ulps` units in the
last place of the exact magnitude n / d, the one that `Config.transcendental` names (R182). -/
def within (op ulps : Nat) (x : Word) (neg : Bool) (n d : Nat) : Nat :=
  let (first, last) := withinCodes ulps n d
  let c := first + Config.transcendental op x % (last + 1 - first)
  Num.signCode Num.fp32 neg (Nat.min c Num.fp32.maxFin)

/-- The flags of an FP32 result that is not exact, of magnitude n / d: a tiny one raises UF as well (R53). -/
def inexact32 (n d : Nat) : BitVec 7 := if n * 2 ^ 126 < d then Num.uf ||| Num.nx else Num.nx

/-- A transcendental of one operand (R182): NaNs, then `f` on the sign and magnitude of the operand. -/
def trans (f : Num.Val → Nat × BitVec 7) (x : Nat) : Nat × BitVec 7 :=
  match Num.decodeCode Num.fp32 x with
  | .nan q => (Num.nanCode Num.fp32, if q then Num.nv else 0)
  | v => f v

/-- An FP32 code of an exact value. -/
def exact32 (v : Num.Val) : Nat := (Num.round Num.fp32 .rne false v).1

/-- Whether n / d is a power of two, and its exponent. -/
def powerOf2 (n d : Nat) : Option Int :=
  let e := Num.log2Frac n d
  if (if 0 ≤ e then d * 2 ^ e.toNat == n else n * 2 ^ (-e).toNat == d) then some e else none

/-- The canonical NaN with NV. -/
def invalid32 : Nat × BitVec 7 := (Num.nanCode Num.fp32, Num.nv)

/-- `FRCP` of one operand. -/
def rcp (x : Nat) : Nat × BitVec 7 :=
  trans (fun v => match v with
    | .nan _ => invalid32
    | .inf s => (exact32 (.fin s 0 1), 0)
    | .fin s n d =>
      if n = 0 then (Num.infCode Num.fp32 s, Num.dz)
      else if n * 2 ^ 128 < d then (Num.infCode Num.fp32 s, Num.of ||| Num.nx)
      else match powerOf2 n d with
        | some e => if -127 ≤ e then (exact32 (.fin s d n), 0) else (within 0 1 (BitVec.ofNat 32 x) s d n, Num.nx)
        | none => (within 0 1 (BitVec.ofNat 32 x) s d n, inexact32 d n)) x

/-- `FRSQ` of one operand. -/
def rsq (x : Nat) : Nat × BitVec 7 :=
  trans (fun v => match v with
    | .nan _ => invalid32
    | .inf s => if s then invalid32 else (0, 0)
    | .fin s n d =>
      if n = 0 then (Num.infCode Num.fp32 s, Num.dz)
      else if s then invalid32
      else match powerOf2 n d with
        | some e =>
          if e % 2 = 0 then (exact32 (scale32 (-(e / 2))), 0)
          else (within 1 1 (BitVec.ofNat 32 x) false (Num.isqrt (d * 4 ^ fixBits / n)) (2 ^ fixBits), Num.nx)
        | none => (within 1 1 (BitVec.ofNat 32 x) false (Num.isqrt (d * 4 ^ fixBits / n)) (2 ^ fixBits), Num.nx)) x
where
  /-- 2^e. -/
  scale32 (e : Int) : Num.Val := Num.pow2 false 1 e

/-- `FEXP2` of one operand. -/
def exp2 (x : Nat) : Nat × BitVec 7 :=
  trans (fun v => match v with
    | .nan _ => invalid32
    | .inf s => if s then (0, 0) else (Num.infCode Num.fp32 false, 0)
    | .fin s n d =>
      let i : Int := if s then -((n : Int) / d) - (if n % d = 0 then 0 else 1) else (n : Int) / d
      let f := if s then (d - n % d) % d else n % d
      if !s && 128 * d ≤ n then (Num.infCode Num.fp32 false, Num.of ||| Num.nx)
      else if s && 151 * d ≤ n then (0, Num.uf ||| Num.nx)
      else if f = 0 && -149 ≤ i then (exact32 (Num.pow2 false 1 i), 0)
      else
        let m := exp2Fix d 160 f (2 * 2 ^ fixBits) (2 ^ fixBits)
        let q := if 0 ≤ i then (m * 2 ^ i.toNat, 2 ^ fixBits) else (m, 2 ^ fixBits * 2 ^ (-i).toNat)
        (within 2 2 (BitVec.ofNat 32 x) false q.1 q.2, if i < -126 then Num.uf ||| Num.nx else Num.nx)) x

/-- `FLOG2` of one operand. -/
def flog2 (x : Nat) : Nat × BitVec 7 :=
  trans (fun v => match v with
    | .nan _ => invalid32
    | .inf s => if s then invalid32 else (Num.infCode Num.fp32 false, 0)
    | .fin s n d =>
      if n = 0 then (Num.infCode Num.fp32 true, Num.dz)
      else if s then invalid32
      else match powerOf2 n d with
        | some e => (exact32 (Num.ofInt e), 0)
        | none =>
          let l := log2Fix n d
          (within 3 2 (BitVec.ofNat 32 x) (l < 0) (2 * l + 1).natAbs (2 ^ (logBits + 1)), Num.nx)) x

/-- `FSIN` of one operand, in half-turns. -/
def fsin (x : Nat) : Nat × BitVec 7 :=
  trans (fun v => match v with
    | .nan _ | .inf _ => invalid32
    | .fin s n d =>
      let r := n % (2 * d)
      let neg := s != decide (d < r)
      let h := r % d
      if h = 0 then (exact32 (.fin s 0 1), 0)
      else if 2 * h = d then (exact32 (.fin neg 1 1), 0)
      else
        let q := sinPi (Nat.min h (d - h)) d
        (within 4 2 (BitVec.ofNat 32 x) neg q (2 ^ fixBits), inexact32 q (2 ^ fixBits))) x

/-- `FCOS` of one operand, in half-turns. -/
def fcos (x : Nat) : Nat × BitVec 7 :=
  trans (fun v => match v with
    | .nan _ | .inf _ => invalid32
    | .fin _ n d =>
      let r := n % (2 * d)
      let r := if d < r then 2 * d - r else r
      -- cos(π r / d), 0 ≤ r / d ≤ 1
      if r = 0 then (exact32 (.fin false 1 1), 0)
      else if r = d then (exact32 (.fin true 1 1), 0)
      else if 2 * r = d then (0, 0)
      else
        let u := if 2 * r < d then d - 2 * r else 2 * r - d
        (within 5 2 (BitVec.ofNat 32 x) (decide (d < 2 * r)) (sinPi u (2 * d)) (2 ^ fixBits), Num.nx)) x

/-- `FADD` (R176). -/
def execFadd (g : Guard) (rm : Rm) (ty : Ty) (d a : Reg) (b : Src) (s : State) : Host.Outcome State Fault Refusal :=
  alu (.fadd g rm ty d a b) s (float2 ty d a b (rounded2 ty rm (Num.add rm)))

/-- `FMUL` (R176). -/
def execFmul (g : Guard) (rm : Rm) (ty : Ty) (d a : Reg) (b : Src) (s : State) : Host.Outcome State Fault Refusal :=
  alu (.fmul g rm ty d a b) s (float2 ty d a b (rounded2 ty rm Num.mul))

/-- `FDIV` (R176). -/
def execFdiv (g : Guard) (rm : Rm) (ty : Ty) (d a : Reg) (b : Src) (s : State) : Host.Outcome State Fault Refusal :=
  alu (.fdiv g rm ty d a b) s (float2 ty d a b (rounded2 ty rm Num.div))

/-- `FSUB` (R176). -/
def execFsub (g : Guard) (rm : Rm) (ty : Ty) (d a : Reg) (b : Src) (s : State) : Host.Outcome State Fault Refusal :=
  alu (.fsub g rm ty d a b) s (float2 ty d a b (rounded2 ty rm fun x y => Num.add rm x y.opp))

/-- `FFMA` (R176): rounded once. -/
def execFfma (g : Guard) (rm : Rm) (ty : Ty) (d a : Reg) (b : Src) (c : Reg) (s : State) : Host.Outcome State Fault Refusal :=
  alu (.ffma g rm ty d a b c) s fun e v =>
    float3 ty d (v.reg a) (v.wordS b) (v.reg c)
      (fun x y z => Num.finish (Num.ofTy ty) rm (Num.fma rm (dec ty x) (dec ty y) (dec ty z))) e v

/-- `FMIN` (R177). -/
def execFmin (g : Guard) (ty : Ty) (d a : Reg) (b : Src) (s : State) : Host.Outcome State Fault Refusal :=
  alu (.fmin g ty d a b) s (float2 ty d a b (pickCode ty false))

/-- `FMAX` (R177). -/
def execFmax (g : Guard) (ty : Ty) (d a : Reg) (b : Src) (s : State) : Host.Outcome State Fault Refusal :=
  alu (.fmax g ty d a b) s (float2 ty d a b (pickCode ty true))

/-- `FCMP` (R178). -/
def execFcmp (g : Guard) (rel : FRel) (ty : Ty) (d : BitVec 3) (a : Reg) (b : Src) (s : State) : Host.Outcome State Fault Refusal :=
  alu (.fcmp g rel ty d a b) s fun e v =>
    let x := v.reg a
    let y := v.wordS b
    let r := Num.fcmp rel (dec ty ((elems ty x.1).headD 0)) (dec ty ((elems ty y.1).headD 0))
    .predicate e (x.2 || y.2) d r.1 r.2

/-- `FSGN.neg` (R179). -/
def execFsgnNeg (g : Guard) (ty : Ty) (d a : Reg) (s : State) : Host.Outcome State Fault Refusal :=
  alu (.fsgnNeg g ty d a) s (float1 ty d a fun x => (withSign ty x (!signOf ty x), 0))

/-- `FSGN.abs` (R179). -/
def execFsgnAbs (g : Guard) (ty : Ty) (d a : Reg) (s : State) : Host.Outcome State Fault Refusal :=
  alu (.fsgnAbs g ty d a) s (float1 ty d a fun x => (withSign ty x false, 0))

/-- `FSGN.copy` (R179). -/
def execFsgnCopy (g : Guard) (ty : Ty) (d a : Reg) (b : Src) (s : State) : Host.Outcome State Fault Refusal :=
  alu (.fsgnCopy g ty d a b) s (float2 ty d a b fun x y => (withSign ty x (signOf ty y), 0))

/-- `FSGN.xor` (R179). -/
def execFsgnXor (g : Guard) (ty : Ty) (d a : Reg) (b : Src) (s : State) : Host.Outcome State Fault Refusal :=
  alu (.fsgnXor g ty d a b) s (float2 ty d a b fun x y => (withSign ty x (signOf ty x != signOf ty y), 0))

/-- `FSQRT` (R176). -/
def execFsqrt (g : Guard) (rm : Rm) (ty : Ty) (d a : Reg) (s : State) : Host.Outcome State Fault Refusal :=
  alu (.fsqrt g rm ty d a) s (float1 ty d a fun x => Num.finish (Num.ofTy ty) rm (Num.sqrt (dec ty x)))

/-- `FRCP` (R182). -/
def execFrcp (g : Guard) (d a : Reg) (s : State) : Host.Outcome State Fault Refusal :=
  alu (.frcp g d a) s (float1 .f32 d a rcp)

/-- `FRSQ` (R182). -/
def execFrsq (g : Guard) (d a : Reg) (s : State) : Host.Outcome State Fault Refusal :=
  alu (.frsq g d a) s (float1 .f32 d a rsq)

/-- `FEXP2` (R182). -/
def execFexp2 (g : Guard) (d a : Reg) (s : State) : Host.Outcome State Fault Refusal :=
  alu (.fexp2 g d a) s (float1 .f32 d a exp2)

/-- `FLOG2` (R182). -/
def execFlog2 (g : Guard) (d a : Reg) (s : State) : Host.Outcome State Fault Refusal :=
  alu (.flog2 g d a) s (float1 .f32 d a flog2)

/-- `FSIN` (R182). -/
def execFsin (g : Guard) (d a : Reg) (s : State) : Host.Outcome State Fault Refusal :=
  alu (.fsin g d a) s (float1 .f32 d a fsin)

/-- `FCOS` (R182). -/
def execFcos (g : Guard) (d a : Reg) (s : State) : Host.Outcome State Fault Refusal :=
  alu (.fcos g d a) s (float1 .f32 d a fcos)

/-- `FCLASS` (R180). -/
def execFclass (g : Guard) (ty : Ty) (d a : Reg) (s : State) : Host.Outcome State Fault Refusal :=
  alu (.fclass g ty d a) s fun e v =>
    let x := v.reg a
    .results e v x.2 x.1 [(d, BitVec.ofNat 32 (2 ^ Num.fclass (Num.ofTy ty) (dec ty ((elems ty x.1).headD 0))))]

/-- `FRND` (R181). -/
def execFrnd (g : Guard) (rm : Rm) (ty : Ty) (d a : Reg) (s : State) : Host.Outcome State Fault Refusal :=
  alu (.frnd g rm ty d a) s (float1 ty d a fun x =>
    let r := Num.frnd rm (dec ty x)
    ((Num.round (Num.ofTy ty) .rne false r.1).1, r.2))

end Sys2Proof.Machine
end

