-- ==== Sys2Proof/Machine/Remote.lean ====
section
/-! DEFINITION. Atomic updates at their places (R289, R290), arrival-counter words (R239), and accesses to other devices' memory:
requests, combining buffers, the target's side and the replies (R257 to R262). -/

namespace Sys2Proof.Machine

-- Atomic operations (Table 14.2)

/-- The new value of an atomic operation of `w` bits. -/
def atomValue (op : AtomOp) (t : Ty) (m b : Nat) : Nat :=
  let w := t.width
  let less := View.valOf t m < View.valOf t b
  match op with
  | .add =>
    if t.isInt then (m + b) % 2 ^ w
    else
      let sum := fun (x y : Nat) => (Num.finish (Num.ofTy t) .rne (Num.add .rne (dec t x) (dec t y))).1
      (ofElems (((elems t (BitVec.ofNat 32 m)).zip (elems t (BitVec.ofNat 32 b))).map fun x => sum x.1 x.2)).toNat
  | .min => if less then m else b
  | .max => if less then b else m
  | .and => m &&& b
  | .or => m ||| b
  | .xor => m ^^^ b
  | .exch => b

/-- An update of one word: how the new value follows from the old, an operand that stands for poison, and whether an
operand is poisoned. -/
structure Update where
  f : Nat → Nat
  src : Nat
  poison : Bool

/-- The bytes that an update writes: when an operand or the word is poisoned they are poisoned, with free bits of the
word and the operand (R292, R361). -/
def Update.bytes (u : Update) (e : Env) (old : List PByte) : List PByte :=
  let n := old.length
  let m := ofBytes (old.map (·.1))
  if u.poison || old.any (·.2) then
    let free := fun i => (Config.freeBits e.ctr (e.lane * 256 + 255) (2 * i) ++
      Config.freeBits e.ctr (e.lane * 256 + 255) (2 * i + 1) : BitVec 64)
    (toBytes n (((free 0 &&& BitVec.ofNat 64 m) ||| (free 1 &&& BitVec.ofNat 64 u.src))).toNat).map (·, true)
  else (toBytes n (u.f m)).map (·, false)

/-- A core's own L1 and its die's RDC, where they hold the sectors written, take the bytes, clean. -/
def State.refreshOwn (s : State) (core : Nat) (ws : SMap PByte) : State :=
  let node := coreNode core
  (groupBy 32 ws).foldl (fun s g =>
    let key := l1Key g.1 (s.core core).secure
    let l1 : L1Sector → L1Sector := fun x => { x with
      data := overlay x.data g.2, dirty := x.dirty &&& ~~~(byteMask g.2), poison := poisonAfter x.poison g.2 }
    let rdc : RdcSector → RdcSector := fun r => { r with
      data := overlay r.data g.2, dirty := r.dirty &&& ~~~(byteMask g.2), poison := poisonAfter r.poison g.2 }
    let s := s.setCore core { s.core core with l1 := (s.core core).l1.adjust key l1 }
    { s with rdc := s.rdc.adjust (rdcKey node g.1) rdc }) s

/-- An atomic update in region 000 by a core, at the place of Table 14.3: `base` for the base die's atomic unit. Answers
the old bytes. -/
def State.atomMem (s : State) (core pa n : Nat) (scope : Scope) (base : Bool) (f : List PByte → List PByte) :
    State × List PByte :=
  let sec := pa / 32
  let node := coreNode core
  if !scope.wide && !base then
    let (s, old) := s.loadBytes core pa n .gang .normal false
    (s.storeBytes core (runAt pa (f old)) scope .normal false, old)
  else
    let s := s.l1Flush core (l1Key sec (s.core core).secure)
    let s := if (base || scope.pkgWide) && nodeOf pa != node then s.rdcFlush node sec else s
    if base then
      let old := s.dram pa n
      let ws := runAt pa (f old)
      ((s.baseWrite ws).refreshOwn core ws, old)
    else if scope.pkgWide || nodeOf pa = node then
      let (s, old) := s.homeRead pa n
      let ws := runAt pa (f old)
      ((s.homeWrite ws).refreshOwn core ws, old)
    else
      let (s, r) := s.rdcSector node sec
      let old := (List.range n).map fun i => (sectorByte r.data ((pa + i) % 32), r.poison)
      let ws := runAt pa (f old)
      let s := s.dieWrite node sec ws
      match (s.core core).l1.find? (l1Key sec (s.core core).secure) with
      | some x => (s.putL1 core (l1Key sec (s.core core).secure)
          { x with data := overlay x.data ws, poison := poisonAfter x.poison ws }, old)
      | none => (s, old)

/-- An atomic update in a block's window. -/
def State.atomLs (s : State) (b off n : Nat) (f : List PByte → List PByte) : State × List PByte :=
  let old := s.lsRead b off n
  (s.lsWrite b (runAt off (f old)), old)

/-- An atomic update at a line's home: the L2, or the base die for a memory-side page. -/
def State.atomHome (s : State) (pa n : Nat) (ms : Bool) (f : List PByte → List PByte) : State × List PByte :=
  if ms then (s.baseWrite (runAt pa (f (s.dram pa n))), s.dram pa n)
  else
    let (s, old) := s.homeRead pa n
    (s.homeWrite (runAt pa (f old)), old)

-- Arrival counters (R239)

/-- One update of a counter word: COUNT rises, ANN may be set, then the phase check. -/
def counterNext (w : BitVec 64) (add : Word) (announce : Bool) : BitVec 64 :=
  let count := w.extractLsb' 0 32 + add
  let ann := announce || w.getLsbD 32
  if ann && count == 0 then (w.extractLsb' 48 16 + 1 : BitVec 16).setWidth 64 <<< 48
  else ((w.extractLsb' 48 16 : BitVec 16).setWidth 64 <<< 48) ||| (if ann then 0x100000000 else 0) ||| count.setWidth 64

/-- The counter's bytes after an update; a poisoned word stays as it is. -/
def counterBytes (add : Word) (announce : Bool) (old : List PByte) : List PByte :=
  if old.any (·.2) then old
  else clean (toBytes 8 (counterNext (BitVec.ofNat 64 (ofBytes (old.map (·.1)))) add announce).toNat)

/-- A counter in a block's window updated. -/
def State.countLs (s : State) (b off : Nat) (add : Word) (announce : Bool) : State :=
  if (s.lsRead b off 8).any (·.2) then s else (s.atomLs b off 8 (counterBytes add announce)).1

/-- A counter on a memory-side page updated at its base die. -/
def State.countMem (s : State) (pa : Nat) (add : Word) (announce : Bool) : State :=
  if (s.dram pa 8).any (·.2) then s else (s.atomHome pa 8 true (counterBytes add announce)).1

-- Requests (R257 to R261)

/-- Requests to a device that are not answered. -/
def State.unacked (s : State) (device : Nat) : Nat := (s.requests.filter (·.2.device == device)).length

/-- Requests that a source keeps unacknowledged for one target (R261). -/
def windowSize : Nat := 4096

/-- Whether `n` more requests may be sent to a device now. -/
def State.canSend (s : State) (device n : Nat) : Bool := s.unacked device + n ≤ windowSize

/-- A request sent: its number in the table. -/
def State.send (s : State) (r : Request) : State × Nat :=
  let id := (s.requests.freeFrom (s.requests.length + 1) 0).getD 0
  let seq := s.seqNext.get 0 r.device
  let no := (s.requests.map (·.2.no + 1)).foldl Nat.max 0
  ({ s with
      requests := s.requests.put id { r with seq := seq, sentAt := s.now, no := no }
      seqNext := s.seqNext.write 0 r.device ((seq + 1) % 2 ^ 32) }, id)

/-- A request of a gang's lane. -/
def State.ask (s : State) (k l : Nat) (pc : DWord) (device off : Nat) (kind : ReqKind) (o : Origin) : Request :=
  let c := s.ctxOf (coreOf k)
  { gang := some k, lane := l, pc := pc, device := device, seq := 0, offset := off, kind := kind, origin := o,
    vmid := c.vmid, secure := (s.core (coreOf k)).secure }

-- The combining buffer (R258)

/-- An entry of a core's buffer closed and sent. -/
def State.closeEntry (s : State) (core i : Nat) : State :=
  let es := s.combine.get [] core
  match es[i]? with
  | none => s
  | some e =>
    let s := { s with combine := s.combine.write [] core (es.eraseIdx i) }
    (s.send { s.ask e.gang e.lane e.pc e.device e.base (.store e.bytes) .store with writer := e.writer }).1

/-- The first entry of a core's buffer that satisfies a test. -/
def State.entryOf (s : State) (core : Nat) (p : Combine → Bool) : Option Nat := (s.combine.get [] core).findIdx? p

/-- Every entry of a gang that satisfies a test closed; `fuel` entries at most. -/
def State.closeWhere (s : State) (core : Nat) (p : Combine → Bool) : Nat → State
  | 0 => s
  | fuel + 1 =>
    match s.entryOf core p with
    | none => s
    | some i => (s.closeEntry core i).closeWhere core p fuel

/-- Every entry of a gang closed. -/
def State.closeGang (s : State) (k : Nat) : State := s.closeWhere (coreOf k) (·.gang == k) 32

/-- Whether the device that each entry of a core's buffer is bound for takes `n` more requests. -/
def State.room (s : State) (core n : Nat) : Bool := (s.combine.get [] core).all fun e => s.canSend e.device n

/-- The bytes of a lane's store, all of one 64-byte entry, put into the buffer: into the open entry of its gang, or a new one,
for which a full buffer first sends its oldest entry. A full entry is sent (R258). -/
def State.combineStore (s : State) (k l : Nat) (pc : DWord) (device off : Nat) (bs : List Byte) : State :=
  let core := coreOf k
  let base := off / 64 * 64
  let mine := fun (e : Combine) => e.gang == k && e.device == device && e.base == base
  let s := if (s.entryOf core mine).isNone && 32 ≤ (s.combine.get [] core).length then s.closeEntry core 0 else s
  let es := s.combine.get [] core
  let es := if es.any mine then es else es ++ [⟨k, device, base, [], [], pc, l⟩]
  let add := fun (e : Combine) => (bs.mapIdx fun i b => (off + i, b)).foldl (fun (e : Combine) x =>
    { e with bytes := e.bytes.put x.1 x.2, writer := e.writer.put x.1 l }) e
  let es := es.map fun e => if mine e then add e else e
  let s := { s with combine := s.combine.put core es }
  s.closeWhere core (fun e => mine e && e.bytes.length = 64) 1

/-- The pending byte of a gang at an offset of a device's window, with the lane that wrote it: of the open entry, else
of the latest entry sent and not acknowledged. -/
def State.pendingByte (s : State) (k device off : Nat) : Option (Byte × Nat) :=
  let open_ := (s.combine.get [] (coreOf k)).findSome? fun e =>
    if e.gang = k ∧ e.device = device then (e.bytes.find? off).map fun b => (b, e.writer.get 0 off) else none
  match open_ with
  | some x => some x
  | none =>
    let next := s.seqNext.get 0 device
    let sent := s.requests.filterMap fun r =>
      match r.2.kind, r.2.origin with
      | .store bs, .store =>
        if r.2.gang = some k ∧ r.2.device = device then
          (SMap.find? bs off).map fun b => ((next + 2 ^ 32 - r.2.seq) % 2 ^ 32, b, r.2.writer.get 0 off)
        else none
      | _, _ => none
    let latest := sent.foldl (fun (m : Option (Nat × Byte × Nat)) x =>
      match m with
      | some y => if x.1 < y.1 then some x else some y
      | none => some x) none
    latest.map fun x => (x.2.1, x.2.2)

/-- A gang's outstanding count (R259). -/
def State.outstanding (s : State) (k : Nat) : Nat :=
  ((s.combine.get [] (coreOf k)).filter (·.gang == k)).length +
    (s.requests.filter fun r => r.2.gang == some k && match r.2.origin with
      | .store | .atom | .red | .gsig | .rctr => true
      | .load | .conv | .copy _ => false).length

-- The target's side (R257, R261)

/-- The agent of an entry of the job-binding table, with its window base; none where the entry is not valid. -/
def State.binding (s : State) (vmid : Nat) (secure : Bool) : State × Option (Agent × Nat) :=
  let (s, bs) := s.homeRead (0x300000 + 16 * vmid) 16
  let w := field (bs.map (·.1)) 0 8
  if bs.any (·.2) || w % 2 = 0 then (s, none)
  else (s, some (⟨0, false, w / 128 % 1024, w / 2 % 64, secure, false⟩, field (bs.map (·.1)) 8 8))

/-- The places of bytes of the window, translated one by one; the first fault. -/
def State.windowBytes (s : State) (ag : Agent) (acc : Access) (base : Nat) :
    List Nat → State × Except (BitVec 8) (List (Nat × Bool))
  | [] => (s, .ok [])
  | o :: os =>
    if 2 ^ 48 ≤ base + o then (s, .error 0x0D)
    else
      match translateNow ag acc (base + o) s with
      | (s, .error f) => (s, .error f.cause)
      | (s, .ok t) =>
        match s.windowBytes ag acc base os with
        | (s, .error c) => (s, .error c)
        | (s, .ok ps) => (s, .ok ((t.addr (base + o), t.ms) :: ps))

/-- Bytes read at their homes. -/
def State.readPlaces (s : State) : List (Nat × Bool) → State × List PByte
  | [] => (s, [])
  | (pa, ms) :: ps =>
    let (s, b) := if ms then (s, s.dram pa 1) else s.homeRead pa 1
    let (s, bs) := s.readPlaces ps
    (s, b ++ bs)

/-- Clean bytes written at their homes. -/
def State.writePlaces (s : State) (ws : List ((Nat × Bool) × PByte)) : State :=
  let table := fun (ms : Bool) => (ws.filter fun w => w.1.2 == ms).foldl (fun (m : SMap PByte) w => m.put w.1.1 w.2) []
  let s := if (table false).isEmpty then s else s.homeWrite (table false)
  if (table true).isEmpty then s else s.baseWrite (table true)

/-- An atomic update of a request at its target. -/
def State.windowAtom (s : State) (ag : Agent) (base off n : Nat) (f : List PByte → List PByte) : State × ReplyKind :=
  match s.windowBytes ag .readWrite base ((List.range n).map (off + ·)) with
  | (s, .error c) => (s, .fault c)
  | (s, .ok ps) =>
    let (s, old) := s.readPlaces ps
    (s.writePlaces (ps.zip (f old)), .data old)

/-- The bytes that a request writes or reads, each with the lane whose access it is (R275). -/
def Request.marks (r : Request) : List (Nat × Nat) :=
  let run := fun (n : Nat) => (List.range n).map fun i => (r.offset + i, r.lane)
  match r.kind with
  | .load _ => (r.parts.map fun p => (List.range p.2.n).map fun i => (p.2.off + i, p.1)).flatten
  | .store bs => bs.map fun b => (b.1, r.writer.get r.lane b.1)
  | .atom _ t _ | .cas t _ _ | .red _ t _ => run t.bytes
  | .count _ _ => run 8
  | .seal | .conv _ => []

/-- A part of a torn store performed: which of its aligned 8-byte words, the device chooses; `held` are words that an earlier
store still has to write (R279). -/
def State.tearOne (s : State) (i : Nat) (held : List Nat) (t : Torn) : State × Torn :=
  let now := fun (w : (Nat × Bool) × (Byte × Bool)) =>
    !held.contains (w.1.1 / 8) && (Config.freeBits s.ctr (2 ^ 33 + i) (w.1.1 / 8)).getLsbD 0
  (s.writePlaces (t.writes.filter now), { t with writes := t.writes.filter fun w => !now w })

/-- Each of some torn stores performed in part, in the order in which they arrived. -/
def State.tearAll (s : State) (i : Nat) (held : List Nat) : List Torn → State × List Torn
  | [] => (s, [])
  | t :: ts =>
    let (s, t) := s.tearOne i held t
    let (s, ts) := s.tearAll (i + 1) (held ++ t.writes.map (·.1.1 / 8)) ts
    (s, t :: ts)

/-- A request performed at its target, conversations apart (R257). A store is performed word by word from then on. -/
def State.perform (s : State) (vmid : Nat) (secure : Bool) (off : Nat) (kind : ReqKind) : State × ReplyKind :=
  match s.binding vmid secure with
  | (s, none) => (s, .fault 0x0D)
  | (s, some (ag, base)) =>
    let e : Env := ⟨s.ctr, 0⟩
    match kind with
    | .load n =>
      match s.windowBytes ag .read base ((List.range n).map (off + ·)) with
      | (s, .error c) => (s, .fault c)
      | (s, .ok ps) =>
        let (s, bs) := s.readPlaces ps
        (s, .data bs)
    | .store bs =>
      match s.windowBytes ag .write base (bs.map (·.1)) with
      | (s, .error c) => (s, .fault c)
      | (s, .ok ps) => ({ s with torn := s.torn ++ [⟨ps.zip (bs.map fun b => (b.2, false)), none⟩] }, .ack)
    | .atom op t b =>
      s.windowAtom ag base off t.bytes (Update.bytes ⟨fun m => atomValue op t m b.toNat, b.toNat, false⟩ e)
    | .cas t b c =>
      let w := 2 ^ t.width
      let f := fun m => if m = c.toNat % w then b.toNat % w else m
      s.windowAtom ag base off t.bytes (Update.bytes ⟨f, b.toNat, false⟩ e)
    | .red op t b =>
      match s.windowAtom ag base off t.bytes (Update.bytes ⟨fun m => atomValue op t m b.toNat, b.toNat, false⟩ e) with
      | (s, .data _) => (s, .ack)
      | r => r
    | .count add announce =>
      match s.windowBytes ag .readWrite base [off] with
      | (s, .error c) => (s, .fault c)
      | (s, .ok [(pa, _)]) => if pa % 8 = 0 then (s.countMem pa add announce, .ack) else (s, .fault 0x06)
      | (s, .ok _) => (s, .fault 0x06)
    | .seal =>
      match s.windowBytes ag .write base [off] with
      | (s, .error c) => (s, .fault c)
      | (s, .ok _) => (s.sealBy ag (BitVec.ofNat 64 (base + off)), .ack)
    | .conv _ => (s, .nack)

/-- Whether a request's outcome is recorded in the duplicate window (R261). -/
def recorded : ReqKind → Bool
  | .load _ => false
  | .store _ | .atom _ _ _ | .cas _ _ _ | .red _ _ _ | .count _ _ | .seal | .conv _ => true

/-- The duplicate window of a source with one more outcome. -/
def State.recordReply (s : State) (source seq : Nat) (kind : ReqKind) (r : ReplyKind) : State :=
  if recorded kind then
    { s with dups := s.dups.put source ((s.dups.get [] source ++ [(seq, r)]).reverse.take windowSize).reverse }
  else s

/-- The recorded reply of a source's request, if its number is in the window. -/
def State.recordedReply (s : State) (source seq : Nat) (kind : ReqKind) : Option ReplyKind :=
  if recorded kind then SMap.find? (s.dups.get [] source) seq else none

-- Replies (R260, R262, R351)

/-- A retired-context fault record posted for a request or copy of a gang that lives no longer (R351, Table 17.3). -/
def State.postLate (s : State) (k lane : Nat) (origin : Nat) (cause : BitVec 8) (pc addr : DWord)
    (residual : List Byte := []) : State :=
  match s.blockOf k with
  | none => s
  | some B =>
    let comp := ((s.launches.find? B.tag).map fun L => field L.lrec 0x60 8).getD 0
    let detail := ((List.range 4).map fun i => toBytes 2 ((B.coord.getD i 0).toNat)).flatten ++ toBytes 8 origin ++
      toBytes 8 comp ++ toBytes 8 0 ++ residual
    let s := (s.post (coreNode B.core) (B.ctx + 1)
      (mkRecord 9 cause.toNat 0 (if origin = 3 then 3 else 0) B.tag (whoOf k lane) pc addr detail)).1
    { s with launches := s.launches.adjust B.tag fun L => { L with late := true } }

/-- ORIGIN of Table 17.3. -/
def Origin.code : Origin → Nat
  | .red => 1
  | .gsig | .rctr => 2
  | .load | .store | .atom | .conv | .copy _ => 0

/-- The global address of a request. -/
def Request.addr (r : Request) : DWord := BitVec.ofNat 64 (2 ^ 61 + r.device * 2 ^ 43 + r.offset)

/-- The waits for replies that are over are ended. -/
def State.releaseRemote (s : State) (k : Nat) : State :=
  s.onGang k fun G => { G with waits := G.waits.filter fun w =>
    match w.kind with
    | .remote ids => ids.any fun i => (s.requests.find? i).isSome
    | .walk _ | .refetch _ | .bar _ _ | .rdv _ | .grow _ _ | .cpwait _ | .again _ | .monitor _ _ _ _ | .verdict _ _ _
    | .home _ _ _ | .alone _
    | .recv _ _ _ | .parked _ | .rejoin _ _ => true }

/-- What a lane takes of a load's reply, with the bytes that it has from the buffer. -/
def LoadPart.of_ (p : LoadPart) (offset : Nat) : ReplyKind → ReplyKind
  | .data bs => .data (((bs.drop (p.off - offset)).take p.n).mapIdx fun i b =>
      ((p.own.find? (p.off + i)).map fun o => (o, false)).getD b)
  | x => x

/-- A request of a gang's lane answered: a load or an atomic has its reply kept for its lane, a fault of a posted request
is held, or posted when the lane lives no longer. -/
def State.answered (s : State) (id : Nat) (r : Request) (reply : ReplyKind) : State :=
  let s := { s with requests := s.requests.del id }
  match r.gang with
  | none => s
  | some k =>
    let live := (s.lane k r.lane).life == .running
    let s : State := match r.origin, reply with
      | .load, x =>
        let mine := r.parts.filter fun p => (s.lane k p.1).life == .running
        s.onGang k fun G => { G with answers := G.answers ++ mine.map fun p => ⟨p.1, id, p.2.of_ r.offset x⟩ }
      | .atom, x | .conv, x =>
        if live then s.onGang k fun G => { G with answers := G.answers ++ [⟨r.lane, id, x⟩] } else s
      | .store, .fault c | .red, .fault c | .gsig, .fault c | .rctr, .fault c =>
        if live then
          s.onGang k fun G => { G with heldFaults := G.heldFaults ++ [⟨r.lane, c, r.addr, r.pc, r.origin.code⟩] }
        else s.postLate k r.lane r.origin.code c r.pc r.addr
      | _, _ => s
    s.releaseRemote k

/-- The cause of a request that could not be delivered (R262): a load, a copy's read of its source, and a copy turned away
by NACKs, were not performed. -/
def Request.lost (r : Request) (nacked : Bool) : BitVec 8 :=
  match r.origin with
  | .load => 0x0D
  | .copy _ =>
    match r.kind with
    | .load _ => 0x0D
    | .store _ | .atom _ _ _ | .cas _ _ _ | .red _ _ _ | .count _ _ | .seal | .conv _ => if nacked then 0x0D else 0x0E
  | .store | .atom | .red | .gsig | .rctr | .conv => 0x0E

end Sys2Proof.Machine
end

