-- ==== Sys2Proof/Machine/Waiting.lean ====
section
/-! DEFINITION. What instructions that wait share: blocking points with the stops and cancels delivered there (R96, R198,
Table 16.8), the drain of a gang's outstanding count and its held faults (R259, R260), and the monitors (R293). -/

namespace Sys2Proof.Machine

-- Blocking points

/-- A pending stop of one sequencer taken by its lane, if that lane is among those at a blocking point. -/
def State.takeStop (s : State) (k : Nat) (matrix : Bool) (m : Mask) : State × Mask :=
  match s.gangs.find? k with
  | none => (s, m)
  | some G =>
    match (s.blocks.find? G.block).bind fun B => ((B.seq matrix).stop).bind fun st => s.stopTarget B st with
    | none => (s, m)
    | some (k', l) => if k' = k && m.getLsbD l then (s.deliverStop G.block matrix, m &&& ~~~(laneBit l)) else (s, m)

/-- The stops of both sequencers taken; the lanes that go on. -/
def State.takeStops (s : State) (k : Nat) (m : Mask) : State × Mask :=
  let (s, m) := s.takeStop k true m
  s.takeStop k false m

/-- Lanes that reach a blocking point: a sequencer's stop is taken first, then a cancel that covers the launch (R96). -/
def State.reach (s : State) (k : Nat) (m : Mask) : State × Mask :=
  let (s, m) := s.takeStops k m
  match s.blockOf k with
  | none => (s, m)
  | some B => if s.covered B then (s.trapAll k m 0x14 0 ((s.cur.map (·.pc)).getD 0), 0) else (s, m)

/-- A blocking instruction of a group: the body is done for the lanes that take no stop and no cancel. -/
def blocking (body : ThreadBody) : ThreadBody := fun s k m =>
  let (s, m) := s.reach k m
  if m = 0 then s else body s k m

/-- Lanes that wait at blocking points take a cause there: a cancel's, or a stop's. -/
def State.interrupt (s : State) (k : Nat) (m : Mask) (c : BitVec 8) (v : DWord) (host migrating : Bool := false) : State :=
  (lanesOf m).foldl (fun s l =>
    let s := (s.withdrawWait k l true).unwatch (.lane k l)
    s.trap k l c v (s.lane k l).pc host migrating) s

/-- The lanes of a gang that wait at blocking points, parked lanes apart. -/
def Gang.atBlocking (G : Gang) : Mask :=
  (G.waits.filter fun w => w.kind.blocking && match w.kind with
    | .parked _ => false
    | _ => true).foldl (fun m w => m ||| w.lanes) 0

/-- Each sequencer of a block that waits at `RDV` or `AWAIT` stops without a fault and leaves the set (Table 10.8). -/
def State.cancelSeq (s : State) (b : Nat) (matrix : Bool) : State :=
  match s.blocks.find? b with
  | none => s
  | some B =>
    let waits := match (B.seq matrix).wait with
      | .rdv _ | .monitor _ _ => true
      | .none | .gate | .walk _ | .refetch _ => false
    if (B.seq matrix).run == .running && waits then
      ((s.onSeq b matrix fun q => { q with run := .idle, wait := .none }).unwatch (.seq b matrix)).seqLeaves b matrix
    else s

/-- A cancel reaches the blocks of a launch: lanes at blocking points take cause 0x14 (R96). -/
def State.cancelLaunch (s : State) (tag : Nat) : State :=
  (s.blocks.filter fun (b : Nat × Block) => b.2.tag == tag).foldl (fun s b =>
    let s := (s.cancelSeq b.1 true).cancelSeq b.1 false
    b.2.slots.foldl (fun s sl =>
      let k := 16 * b.2.core + sl
      match s.gangs.find? k with
      | some G => s.interrupt k G.atBlocking 0x14 0
      | none => s) s) s

-- The outstanding count (R258, R259, R287)

/-- A gang's buffered stores sent, and whether its outstanding count is zero; otherwise the lanes wait. -/
def State.drain (s : State) (k : Nat) (m : Mask) : State × Bool :=
  let s := if s.room (coreOf k) 32 then s.closeGang k else s
  if s.outstanding k = 0 then (s, true) else (s.stall k m (.again "outstanding"), false)

/-- The held faults of active lanes raised, one on each lane (R260); the lanes that took one. -/
def State.takeHeld (s : State) (k : Nat) (m : Mask) : State × Mask :=
  (lanesOf m).foldl (fun (r : State × Mask) l =>
    match (r.1.gangs.find? k).bind fun G => G.heldFaults.find? (·.lane == l) with
    | none => r
    | some h =>
      let s := r.1.onGang k fun G => { G with heldFaults := G.heldFaults.erase h }
      (s.trap k l h.cause h.addr (s.lane k l).pc, r.2 ||| laneBit l)) (s, 0)

-- Monitors (R293)

/-- The 8-byte word of a place, read where the monitor stands, and whether it is poisoned. -/
def State.watched (s : State) : Place → DWord × Bool
  | .mem w =>
    let bs := s.dram (8 * w) 8
    (BitVec.ofNat 64 (ofBytes (bs.map (·.1))), (s.l2.find? (w / 4)).getD (bs.any (·.2)))
  | .ls b w =>
    let bs := s.lsRead b (8 * w) 8
    (BitVec.ofNat 64 (ofBytes (bs.map (·.1))), bs.any (·.2))

/-- The value that a waiter reads of its word. -/
def MonCond.value (c : MonCond) (w : DWord) : DWord :=
  match c with
  | .waita _ ty _ off => BitVec.ofNat 64 (w.toNat / 2 ^ (8 * off) % 2 ^ ty.width)
  | .await _ => (w.extractLsb' 48 16).setWidth 64
  | .resolve _ => if w == 1 then 1 else 2

/-- Whether a counter's phase has passed `b` (R241). -/
def phasePassed (phase b : BitVec 16) : Bool := let d := (phase - b).toNat; 1 ≤ d && d ≤ 0x7FFF

/-- Whether a word that is not poisoned meets a waiter's condition. -/
def MonCond.holds (c : MonCond) (w : DWord) : Bool :=
  match c with
  | .waita r ty v _ =>
    let x := View.valOf ty (c.value w).toNat
    let y := View.valOf ty v.toNat
    match r with
    | .ne => x != y
    | .eq => x == y
    | .ge => y ≤ x
    | .lt => x < y
  | .await b => phasePassed (w.extractLsb' 48 16) b
  | .resolve _ => w != 0

/-- Whether a token that a waiter waits for is lost: its record's slot holds another (R335). -/
def State.lost (s : State) (p : Place) (c : MonCond) : Bool :=
  match c, p with
  | .resolve tok, .mem w => BitVec.ofNat 32 (ofBytes ((s.dram (8 * w - 0x60 + 4) 4).map (·.1))) != tok
  | .resolve _, .ls _ _ | .waita _ _ _ _, _ | .await _, _ => false

/-- The value with which a wait on a place ends now, if it does: 3 for a token that is lost. -/
def State.outcome (s : State) (p : Place) (c : MonCond) : Option DWord :=
  let w := s.watched p
  if s.lost p c then some 3 else if !w.2 && c.holds w.1 then some (c.value w.1) else none

/-- A waiter evaluated: its wait ends if its condition holds. -/
def MonWait.evaluate (m : MonWait) (o : MonCond → Option DWord) : MonWait :=
  match m.ended, o m.cond with
  | none, some v => { m with ended := some (v, false) }
  | none, none | some _, _ => m

/-- A monitor's waiters evaluated. -/
def State.evaluate (s : State) (id : Nat) : State :=
  match s.monitors.find? id with
  | none => s
  | some m =>
    { s with monitors := s.monitors.put id { m with
      pending := false, waiters := m.waiters.map (·.evaluate (s.outcome m.place)) } }

/-- The node of a place's home. -/
def placeNode (core : Nat) : Place → Nat
  | .mem w => nodeOf (8 * w)
  | .ls _ _ => coreNode core

/-- Conversation homes and monitors in a base die's spill table (R293, R301). -/
def State.spilledAt (s : State) (node : Nat) : Nat :=
  (s.monitors.filter fun (m : Nat × Monitor) => m.2.seat == .spilled && placeNode m.2.core m.2.place == node).length +
    (s.homes.filter fun (h : Nat × Home) => h.2.spilled && h.1 / 65536 == node).length

/-- Entries of a base die's spill table (R293). -/
def spillSize : Nat := 65536

/-- The seat of a new monitor of a core (R293). -/
def State.seatFor (s : State) (core : Nat) (p : Place) : MonSeat :=
  if (s.monitors.filter fun (m : Nat × Monitor) => m.2.core == core && m.2.seat == .core).length < 32 then .core
  else if s.spilledAt (placeNode core p) < spillSize then .spilled
  else .polling

/-- A core's own dirty bytes of a place's sector written back to its home, where a monitor reads (R275, R293). -/
def State.bringHome (s : State) (core : Nat) : Place → State
  | .mem w => (s.l1Flush core (l1Key (w / 4) (s.core core).secure)).rdcFlush (coreNode core) (w / 4)
  | .ls _ _ => s

/-- The copies of a place's sector in a core's L1 and its die's RDC brought up to date with its home, whose word a waiter has
read (R271). -/
def State.refreshAt (s : State) (core : Nat) : Place → State
  | .mem w =>
    let sec := w / 4
    let key := l1Key sec (s.core core).secure
    let rk := rdcKey (coreNode core) sec
    if ((s.core core).l1.find? key).isNone && (s.rdc.find? rk).isNone then s
    else
      let (s, d, p) := (s.bringHome core (.mem w)).homeSector sec
      let s := s.setCore core { s.core core with
        l1 := (s.core core).l1.adjust key fun (x : L1Sector) => { x with data := d, poison := p, dirty := 0 } }
      { s with rdc := s.rdc.adjust rk fun (r : RdcSector) => { r with data := d, poison := p, dirty := 0 } }
  | .ls _ _ => s

/-- The places that a lane's waits are on. -/
def State.placesOf (s : State) (w : Waiter) : List Place :=
  (s.monitors.filter fun (m : Nat × Monitor) => m.2.waiters.any (·.who == w)).map (·.2.place)

/-- A waiter armed: on the monitor of its core for the word, or a new one, and evaluated at once. -/
def State.arm (s : State) (core : Nat) (p : Place) (free : Bool) (w : MonWait) : State :=
  let s := s.bringHome core p
  let w := w.evaluate (s.outcome p)
  let same := fun (m : Nat × Monitor) => m.2.core == core && m.2.place == p && (m.2.seat == .free) == free
  match List.find? same s.monitors with
  | some (id, m) => { s with monitors := s.monitors.put id { m with waiters := m.waiters ++ [w] } }
  | none =>
    let id := (s.monitors.freeFrom (s.monitors.length + 1) 0).getD 0
    { s with monitors := s.monitors.put id ⟨core, p, if free then .free else s.seatFor core p, false, [w], s.ctr⟩ }

/-- Monitors with no waiter are freed; a freed seat of a core goes to its oldest spilled monitor. -/
def State.freeMonitors (s : State) : State :=
  let s := { s with monitors := s.monitors.filter fun (m : Nat × Monitor) => !m.2.waiters.isEmpty }
  let older := fun (m : Nat × Monitor) => (s.monitors.filter fun (x : Nat × Monitor) =>
    x.2.core == m.2.core && x.2.seat == .spilled &&
      decide (x.2.armed < m.2.armed ∨ x.2.armed = m.2.armed ∧ x.1 < m.1)).length
  let seated := fun (c : Nat) => (s.monitors.filter fun (x : Nat × Monitor) => x.2.core == c && x.2.seat == .core).length
  { s with monitors := s.monitors.map fun (m : Nat × Monitor) =>
      if m.2.seat == .spilled && seated m.2.core + older m < 32 then (m.1, { m.2 with seat := .core }) else m }

/-- How a waiter's wait ended, if it has. -/
def State.endedOf (s : State) (w : Waiter) : Option (DWord × Bool) :=
  s.monitors.findSome? fun m => (m.2.waiters.find? (·.who == w)).bind (·.ended)

/-- A group whose every lane's wait has ended goes on: values to D, the acquire, the next instruction (R241, R294). -/
def State.finishWait (s : State) (k : Nat) (w : Wait) : State :=
  match w.kind with
  | .monitor _ d wide sc =>
    let vs := (lanesOf w.lanes).map fun l => (l, s.endedOf (.lane k l))
    if vs.isEmpty || vs.any (·.2.isNone) then s
    else
      let s := s.onGang k fun G =>
        let put := fun (G : Gang) (v : Nat × Option (DWord × Bool)) =>
          let x := v.2.getD (0, false)
          let L := (G.lane v.1).putX d.toNat (x.1.setWidth 32) x.2
          G.putLane v.1 (if wide then L.putX (d.toNat + 1) (x.1.extractLsb' 32 32) x.2 else L)
        ((vs.foldl put G).unwait w.lanes).advance w.lanes
      let s := (lanesOf w.lanes).foldl (fun s l =>
        ((s.placesOf (.lane k l)).foldl (fun s p => s.refreshAt (coreOf k) p) s).unwatch (.lane k l)) s
      let s := s.freeMonitors
      match sc with
      | some sc => s.acquireAt (coreOf k) sc
      | none => s
  | .walk _ | .refetch _ | .bar _ _ | .rdv _ | .grow _ _ | .cpwait _ | .again _ | .remote _ | .verdict _ _ _
  | .home _ _ _ | .alone _
  | .recv _ _ _ | .parked _ | .rejoin _ _ => s

/-- A sequencer whose `AWAIT` has ended goes on, after the acquire; D = 0 discards the phase (R241, R272). -/
def State.finishSeqWait (s : State) (b : Nat) (matrix : Bool) : State :=
  match s.blocks.find? b with
  | none => s
  | some B =>
    match (B.seq matrix).wait, s.endedOf (.seq b matrix) with
    | .monitor d sc, some (v, p) =>
      let put := fun (q : Seq) => if d = 0 then q else q.putR d.toNat (v.setWidth 32) p
      let s := ((s.onSeq b matrix fun q => { (put q).advance with wait := .none }).unwatch (.seq b matrix)).freeMonitors
      s.acquireAt B.core sc
    | _, _ => s

/-- Every wait for monitors that is over ended. -/
def State.finishWaits (s : State) : State :=
  let s := s.gangs.foldl (fun s g => g.2.waits.foldl (fun s w => s.finishWait g.1 w) s) s
  s.blocks.foldl (fun s b => (s.finishSeqWait b.1 true).finishSeqWait b.1 false) s

end Sys2Proof.Machine
end

