-- ==== Sys2Proof/Machine/Sync.lean ====
section
/-! DEFINITION. Synchronisation: fences (R287, R288), barriers (R283 to R286), atomics (R289 to R292), `WAITA` (R294), arrival
counters (R239 to R241), forking, rendezvous and exit (R192 to R195, R347). -/

namespace Sys2Proof.Machine

/-- The address of the instruction being executed. -/
def State.curPc (s : State) : DWord := (s.cur.map (·.pc)).getD 0

-- Fences

/-- The copies of a core that satisfy a test, all finished. -/
def State.copiesDone (s : State) (p : Copy → Bool) : Bool := !s.copies.any fun c => p c.2

/-- The end of a fence of a group: release, held faults, acquire for the lanes that took none, which go on (R287). -/
def State.fenceNow (s : State) (k : Nat) (m : Mask) (sc : Scope) : State :=
  let s := s.releaseAt (coreOf k) sc
  let (s, bad) := s.takeHeld k m
  if bad = m then s else (s.acquireAt (coreOf k) sc).advance k (m &&& ~~~bad)

/-- The copies that a sequencer issued. -/
def Copy.ofSeq (c : Copy) (b : Nat) (matrix : Bool) : Bool := !matrix && c.block == b && 2 ≤ c.issuer

/-- A fence of a sequencer: what it issued is performed, if the fence names the copy path (`copy`), then the actions of R220
for the core. -/
def seqFence (sc : Scope) (copy matrix : Bool) (s : State) (b : Nat) : State :=
  match s.blocks.find? b with
  | none => s
  | some B =>
    if copy && !s.copiesDone (·.ofSeq b matrix) then s
    else ((s.releaseAt B.core sc).acquireAt B.core sc).onSeq b matrix Seq.advance

/-- `FENCE` (R287). -/
def execFence (g : Guard) (sc : Scope) (s : State) : Host.Outcome State Fault Refusal :=
  anyOp (.fence g sc) s
    (fun s k m =>
      match s.drain k m with
      | (s, true) => s.fenceNow k m sc
      | (s, false) => s)
    fun matrix s b => seqFence sc true matrix s b

/-- The scope at which `FENCEX` acts (R288). -/
def fencexScope (sc : Scope) (n : BitVec 5) : Scope :=
  if n.getLsbD 0 && (n.getLsbD 1 || n.getLsbD 3 || n.getLsbD 4) && !sc.pkgWide then .pkg else sc

/-- Whether a message that a lane sent has not reached its role's queue. -/
def State.sending (s : State) (k : Nat) (m : Mask) : Bool :=
  (s.homes.any fun h => h.2.sends.any fun x => x.who == ⟨none, k⟩ && x.lanes &&& m != 0) ||
    s.requests.any fun r =>
      match r.2.kind with
      | .conv (.send _ _ _ _ mask _) => r.2.gang == some k && mask &&& m != 0
      | _ => false

/-- Whether what `FENCEX` waits for on the copy, bulk and conversation paths is done. -/
def State.pathsDone (s : State) (k : Nat) (m : Mask) (n : BitVec 5) : Bool :=
  let mine := fun (issuer : Nat) (any : Bool) =>
    s.copiesDone fun c => c.gang == some k && c.issuer == issuer && (any || m.getLsbD c.lane)
  (!n.getLsbD 1 || mine 0 false) && (!n.getLsbD 3 || mine 1 true) && (!n.getLsbD 4 || !s.sending k m)

/-- `FENCEX` (R288). The gang's outstanding count is waited for whatever it names (R259, R280). -/
def execFencex (g : Guard) (sc : Scope) (n : BitVec 5) (s : State) : Host.Outcome State Fault Refusal :=
  let e := fencexScope sc n
  anyOp (.fencex g sc n) s
    (fun s k m =>
      match s.drain k m with
      | (s, false) => s
      | (s, true) => if s.pathsDone k m n then s.fenceNow k m e else s.stall k m (.again "paths"))
    fun matrix s b => seqFence e (n.getLsbD 1) matrix s b

-- Barriers

/-- Lanes of a gang arrive at a barrier: those that have arrived in its phase wait for the phase to end (R284). -/
def State.arriveBar (s : State) (k : Nat) (m : Mask) (r : BarRef) (wait : Bool) : State :=
  let s := s.releaseAt (coreOf k) r.scope
  let b := s.barrier r
  let old := b.arrived.get 0 k &&& m
  let new := m &&& ~~~old
  let s := s.stall k old (.rejoin r b.phase)
  let s := if wait then s.stall k new (.bar r b.phase) else s.advance k new
  (s.setBarrier r { b with arrived := b.arrived.write 0 k (b.arrived.get 0 k ||| new) }).settleBar r

/-- `BAR` of a group: the barrier's number is checked, the lanes that have to wait reach a blocking point, and they arrive
once the outstanding count is zero. -/
def bar (wait : Bool) (ref : State → Nat → Option BarRef) : ThreadBody := fun s k m =>
  match ref s k with
  | none => s.trapAll k m 0x01 0 s.curPc
  | some r =>
    let stuck := if wait then m else (s.barrier r).arrived.get 0 k &&& m
    let (s, left) := s.reach k stuck
    let m := m &&& ~~~(stuck &&& ~~~left)
    if m = 0 then s
    else
      match s.drain k m with
      | (s, false) => s
      | (s, true) => s.arriveBar k m r wait

/-- Barrier `n` of a gang's block. -/
def blkBar (n : BitVec 4) (s : State) (k : Nat) : Option BarRef :=
  (s.gangs.find? k).bind fun G => (s.blocks.find? G.block).bind fun B =>
    if n.toNat < B.bars then some (.blk G.block n.toNat) else none

/-- Barrier `n` of a gang's ensemble. -/
def ensBar (n : BitVec 4) (s : State) (k : Nat) : Option BarRef :=
  (s.blockOf k).bind fun B => if n.toNat < B.ebars then B.ens.map fun e => .ens e n.toNat else none

/-- Barrier `n` of a gang's cooperative launch. -/
def coopBar (n : BitVec 4) (s : State) (k : Nat) : Option BarRef :=
  (s.blockOf k).bind fun B => if n.toNat < B.cbars then some (.coop B.tag n.toNat) else none

/-- `BAR.gang` (R286). -/
def execBarGang (g : Guard) (s : State) : Host.Outcome State Fault Refusal :=
  threadOp (.barGang g) s (bar true fun _ k => some (.gang k))

/-- `BAR.blk` (R286). -/
def execBarBlk (g : Guard) (n : BitVec 4) (s : State) : Host.Outcome State Fault Refusal :=
  threadOp (.barBlk g n) s (bar true (blkBar n))

/-- `BAR.blk.arv` (R286). -/
def execBarBlkArv (g : Guard) (n : BitVec 4) (s : State) : Host.Outcome State Fault Refusal :=
  threadOp (.barBlkArv g n) s (bar false (blkBar n))

/-- `BAR.ens` (R286). -/
def execBarEns (g : Guard) (n : BitVec 4) (s : State) : Host.Outcome State Fault Refusal :=
  threadOp (.barEns g n) s (bar true (ensBar n))

/-- `BAR.ens.arv` (R286). -/
def execBarEnsArv (g : Guard) (n : BitVec 4) (s : State) : Host.Outcome State Fault Refusal :=
  threadOp (.barEnsArv g n) s (bar false (ensBar n))

/-- `BAR.coop` (R286). -/
def execBarCoop (g : Guard) (n : BitVec 4) (s : State) : Host.Outcome State Fault Refusal :=
  threadOp (.barCoop g n) s (bar true (coopBar n))

-- Atomics

/-- What an atomic instruction does apart from its operands. -/
structure AtomForm where
  ty : Ty
  scope : Scope
  sc : Bool
  ms : Bool
  release : Bool
  acquire : Bool
  /-- It returns the old value. -/
  returns : Bool

/-- An atomic update at a place of this device; one with `.sc` takes a ticket first (R278, R290). -/
def State.atomAt (s : State) (core : Nat) (f : AtomForm) (sp : Spot) (u : List PByte → List PByte) :
    State × List PByte :=
  let s := if f.sc then { s with ticket := s.ticket + 1 } else s
  match sp with
  | .mem pa ms => s.atomMem core pa f.ty.bytes (if f.sc then .pkg else f.scope) (f.ms || ms) u
  | .ls b o => s.atomLs b o f.ty.bytes u
  | .global _ _ => (s, [])

/-- The group's pending stores to the bytes that its lanes' remote updates name are sent first (R227). -/
def State.flushFar (s : State) (k n : Nat) (fs : List (Nat × Nat × Nat)) : State :=
  s.closeWhere (coreOf k) (fun e => e.gang == k && fs.any fun f =>
    e.device == f.2.1 && e.bytes.any fun b => f.2.2 ≤ b.1 && b.1 < f.2.2 + n) 32

/-- The value of a lane's answer from a target: bytes, or the cause it takes. -/
def farValue (a : DWord) : ReplyKind → Except LaneFault (List PByte)
  | .data bs => .ok bs
  | .fault c => .error ⟨c, a, false, false⟩
  | .ack | .nack | .bound _ _ | .conv _ _ _ => .error ⟨0x0E, a, false, false⟩

/-- The registers that receive an old value, poisoned when one of its bytes is. -/
def oldRegs (t : Ty) (d : Reg) (bs : List PByte) : List (Reg × Word × Bool) :=
  (putTy t d (View.valOf t (ofBytes (bs.map (·.1))))).map fun w => (w.1, w.2, bs.any (·.2))

/-- An atomic of a group whose lanes have their places: lowest lane first, remote ones by their answers. `u` is a lane's
update and `req` what it asks of a target. -/
def State.atomLanes (s : State) (k : Nat) (G : Gang) (f : AtomForm) (d : Reg) (u : Nat → Update) :
    List (Nat × DWord × Spot) → State
  | [] => s
  | (l, a, sp) :: ps =>
    let e : Env := ⟨s.ctr, l⟩
    let (s, old) : State × Except LaneFault (List PByte) :=
      match sp, G.answers.find? (·.lane == l) with
      | .global _ _, some x => (s, farValue a x.reply)
      | .global _ _, none => (s, .ok [])
      | sp, _ =>
        let (s, old) := s.atomAt (coreOf k) f sp ((u l).bytes e)
        (s, .ok old)
    let s := match old with
      | .error x => s.trap k l x.cause x.v (s.lane k l).pc
      | .ok bs =>
        (s.onGang k fun G =>
          if f.returns then (oldRegs f.ty d bs).foldl (fun (G : Gang) (w : Reg × Word × Bool) => G.putReg l w.1 w.2.1 w.2.2) G else G).advance k
            (laneBit l)
    s.atomLanes k G f d u ps

/-- `ATOM` and `RED` of a group (R292): the checks of each lane, the release, the updates, the acquire. -/
def atomic (f : AtomForm) (d a : Reg) (off : Word) (u : View → Update) (req : View → ReqKind) : ThreadBody :=
  memory a off f.ty.bytes f.ty.bytes .readWrite true fun s k G _ ps =>
    let m := maskOf (ps.map (·.1))
    let far := fun (p : Nat × DWord × Spot) => match p.2.2 with
      | .global _ _ => true
      | .mem _ _ | .ls _ _ => false
    let fault := fun (p : Nat × DWord × Spot) =>
      if far p && f.sc then some (⟨0x06, p.2.1, false, false⟩ : LaneFault)
      else if far p && (u (G.view p.1)).poison then some ⟨0x07, 0, false, false⟩
      else none
    let bad := ps.filterMap fun p => (fault p).map fun x => (p.1, x)
    let good := ps.filter fun p => (fault p).isNone
    let raise := fun (s : State) => s.raise k false bad
    match (if f.release then s.drain k m else (s, true)) with
    | (s, false) => s
    | (s, true) =>
      let s := if f.release then s.releaseAt (coreOf k) f.scope else s
      let answered := fun (l : Nat) => G.answers.any (·.lane == l)
      let ask := (good.filter far).filter fun p => !answered p.1
      let fs := ask.filterMap fun p => match p.2.2 with
        | .global dv o => some (p.1, dv, o)
        | .mem _ _ | .ls _ _ => none
      if !fs.isEmpty && (!s.room (coreOf k) 64 || fs.any fun x => !s.canSend x.2.1 64) then s.stall k m (.again "fabric")
      else
        let s := if fs.isEmpty then s else s.flushFar k f.ty.bytes fs
        let o : Origin := if f.returns then .atom else .red
        let sent := fs.foldl (fun (r : State × List Nat) x =>
          let (s, id) := r.1.send (r.1.ask k x.1 r.1.curPc x.2.1 x.2.2 (req (G.view x.1)) o)
          (s, r.2 ++ [id])) (s, [])
        if f.returns && !fs.isEmpty then sent.1.stall k m (.remote sent.2)
        else
          let s := raise (sent.1.atomLanes k G f d (fun l => u (G.view l)) good)
          if f.acquire then s.acquireAt (coreOf k) f.scope else s

/-- Whether the order bits ask for a release, and an acquire (R291). -/
def orderParts (o : Order) (sc : Bool) : Bool × Bool :=
  match o with
  | .relaxed => (sc, sc)
  | .acq => (sc, true)
  | .rel => (true, sc)
  | .acqrel => (true, true)

/-- A 64-bit operand's bits. -/
def opBits (n : Nat) : DWord := BitVec.ofNat 64 n

/-- `ATOM` (R289). -/
def execAtom (g : Guard) (op : AtomOp) (ty : Ty) (ord : Order) (sc ms : Bool) (scope : Scope) (d a b : Reg) (off : Word)
    (s : State) : Host.Outcome State Fault Refusal :=
  threadOp (.atom g op ty ord sc ms scope d a b off) s
    (atomic ⟨ty, scope, sc, ms, (orderParts ord sc).1, (orderParts ord sc).2, true⟩ d a off
      (fun v => ⟨fun m => atomValue op ty m (v.raw ty b).1, (v.raw ty b).1, (v.raw ty b).2⟩)
      fun v => .atom op ty (opBits (v.raw ty b).1))

/-- `ATOM.cas` (R289). -/
def execAtomCas (g : Guard) (ty : Ty) (ord : Order) (sc ms : Bool) (scope : Scope) (d a b c : Reg) (off : Word)
    (s : State) : Host.Outcome State Fault Refusal :=
  threadOp (.atomCas g ty ord sc ms scope d a b c off) s
    (atomic ⟨ty, scope, sc, ms, (orderParts ord sc).1, (orderParts ord sc).2, true⟩ d a off
      (fun v => ⟨fun m => if m = (v.raw ty c).1 then (v.raw ty b).1 else m, (v.raw ty b).1,
        (v.raw ty b).2 || (v.raw ty c).2⟩)
      fun v => .cas ty (opBits (v.raw ty b).1) (opBits (v.raw ty c).1))

/-- `RED` (R289). -/
def execRed (g : Guard) (op : AtomOp) (ty : Ty) (rel sc ms : Bool) (scope : Scope) (a b : Reg) (off : Word)
    (s : State) : Host.Outcome State Fault Refusal :=
  threadOp (.red g op ty rel sc ms scope a b off) s
    (atomic ⟨ty, scope, sc, ms, rel || sc, sc, false⟩ ⟨false, 0⟩ a off
      (fun v => ⟨fun m => atomValue op ty m (v.raw ty b).1, (v.raw ty b).1, (v.raw ty b).2⟩)
      fun v => .red op ty (opBits (v.raw ty b).1))

-- Waiting on words

/-- The 8-byte word of a place, and the offset in it. -/
def wordOf : Spot → Option (Place × Nat)
  | .mem pa _ => some (.mem (pa / 8), pa % 8)
  | .ls b o => some (.ls b (o / 8), o % 8)
  | .global _ _ => none

/-- Lanes armed on their words; the group then goes on at once if every wait has ended. -/
def State.watchAll (s : State) (k : Nat) (d : BitVec 8) (wide : Bool) (sc : Option Scope)
    (ws : List (Nat × Place × Bool × MonCond × Option Nat)) : State :=
  if ws.isEmpty then s
  else
    let s := ws.foldl (fun s w => s.arm (coreOf k) w.2.1 w.2.2.1 ⟨.lane k w.1, w.2.2.2.1, w.2.2.2.2, none⟩) s
    let w : Wait := ⟨maskOf (ws.map (·.1)), s.curPc, .monitor s.ctr d wide sc⟩
    (s.onGang k fun G => { G with waits := G.waits ++ [w] }).finishWait k w

/-- `WAITA` (R294). -/
def execWaita (g : Guard) (cond : WCond) (ty : Ty) (scope : Scope) (d : BitVec 8) (a b c : Reg) (off : Word)
    (s : State) : Host.Outcome State Fault Refusal :=
  threadOp (.waita g cond ty scope d a b c off) s
    (blocking (memory a off ty.bytes ty.bytes .read true fun s k G _ ps =>
      let fault := fun (p : Nat × DWord × Spot) =>
        if (wordOf p.2.2).isNone then some (⟨0x06, p.2.1, false, false⟩ : LaneFault)
        else if ((G.view p.1).raw ty b).2 || ((G.view p.1).reg c).2 then some ⟨0x07, 0, false, false⟩
        else none
      let bad := ps.filterMap fun p => (fault p).map fun x => (p.1, x)
      let ws := (ps.filter fun p => (fault p).isNone).filterMap fun p => (wordOf p.2.2).map fun w =>
        let v := G.view p.1
        let t := (v.reg c).1.toNat
        let limit := if t = 0 then none else some ((s.counter (coreNode (coreOf k))).toNat + t)
        (p.1, w.1, false, MonCond.waita cond ty (opBits (v.raw ty b).1) w.2, limit)
      (s.watchAll k d ty.is64 (some scope) ws).raise k false bad))

-- Arrival counters (R240, R241)

/-- Whether an arrival counter may stand at a place (R239). -/
def counterOk : Spot → Bool
  | .mem _ ms => ms
  | .ls _ _ => true
  | .global _ _ => false

/-- One lane's arrival at a counter. -/
def State.arriveAt (s : State) (sp : Spot) (add : Word) (announce : Bool) : State :=
  match sp with
  | .mem pa _ => s.countMem pa add announce
  | .ls b o => s.countLs b o add announce
  | .global _ _ => s

/-- A sector of a window poisoned: its bytes stay (R240). -/
def State.poisonLs (s : State) (b off : Nat) : State :=
  s.onBlock b fun B => { B with lsPoison := B.lsPoison.write false (off / 32) true }

/-- `ARRIVE` of a group: `v` gives what a lane adds, with its poison. -/
def arrive (sc : Scope) (a : Reg) (off : Word) (announce : Bool) (v : View → Word × Bool) : ThreadBody :=
  memoryWith false a off 8 8 .readWrite true fun s k G _ ps =>
    match s.drain k (maskOf (ps.map (·.1))) with
    | (s, false) => s
    | (s, true) =>
      let s := s.releaseAt (coreOf k) sc
      ps.foldl (fun s p =>
        let x := v (G.view p.1)
        if !counterOk p.2.2 then s.raise k false [(p.1, ⟨0x06, p.2.1, false, false⟩)]
        else
          match x.2, p.2.2 with
          | true, .ls b o => (s.poisonLs b o).advance k (laneBit p.1)
          | true, _ => s.raise k false [(p.1, ⟨0x07, 0, false, false⟩)]
          | false, sp => (s.arriveAt sp x.1 announce).advance k (laneBit p.1)) s

/-- The check of a sequencer's counter offset (R240): alignment, then the window. -/
def seqOffset (B : Block) (q : Seq) (a : Reg) (off : Word) : Except (BitVec 8 × Word) Nat :=
  match q.view.reg a with
  | (_, true) => .error (0x07, 0)
  | (w, false) =>
    let o := w + off
    if o.toNat % 8 ≠ 0 then .error (0x04, o) else if B.lsb < o.toNat + 8 then .error (0x06, o) else .ok o.toNat

/-- `ARRIVE` of a sequencer: a release of what it issued comes first (R240). -/
def seqArrive (sc : Scope) (a : Reg) (off : Word) (announce : Bool) (v : View → Word × Bool) (matrix : Bool) (s : State)
    (b : Nat) : State :=
  match s.blocks.find? b with
  | none => s
  | some B =>
    let q := B.seq matrix
    match seqOffset B q a off with
    | .error (c, x) => s.seqTrap b matrix c x
    | .ok o =>
      if !s.copiesDone (·.ofSeq b matrix) || s.held B.core 0 (.ls b o) 8 then s
      else
        let s := s.releaseAt B.core sc
        let x := v q.view
        (if x.2 then s.poisonLs b o else s.countLs b o x.1 announce).onSeq b matrix Seq.advance

/-- What `ARRIVE` adds. -/
def arriveCount (b : Reg) (v : View) : Word × Bool := v.reg b

/-- What `ARRIVE.ann` adds: own count less the total. -/
def announceCount (b c : Reg) (v : View) : Word × Bool := ((v.reg c).1 - (v.reg b).1, (v.reg b).2 || (v.reg c).2)

/-- `ARRIVE` (R240). -/
def execArrive (g : Guard) (sc : Scope) (a b : Reg) (off : Word) (s : State) : Host.Outcome State Fault Refusal :=
  anyOp (.arrive g sc a b off) s (arrive sc a off false (arriveCount b))
    (seqArrive sc a off false (arriveCount b))

/-- `ARRIVE.ann` (R240). -/
def execArriveAnn (g : Guard) (sc : Scope) (a b c : Reg) (off : Word) (s : State) : Host.Outcome State Fault Refusal :=
  anyOp (.arriveAnn g sc a b c off) s (arrive sc a off true (announceCount b c))
    (seqArrive sc a off true (announceCount b c))

/-- `AWAIT` of a group (R241). -/
def awaitThread (sc : Scope) (d : BitVec 8) (a b : Reg) (off : Word) : ThreadBody :=
  blocking (memoryWith false a off 8 8 .read true fun s k G _ ps =>
    let fault := fun (p : Nat × DWord × Spot) =>
      if !counterOk p.2.2 then some (⟨0x06, p.2.1, false, false⟩ : LaneFault)
      else if ((G.view p.1).reg b).2 then some ⟨0x07, 0, false, false⟩
      else none
    let bad := ps.filterMap fun p => (fault p).map fun x => (p.1, x)
    let ws := (ps.filter fun p => (fault p).isNone).filterMap fun p => (wordOf p.2.2).map fun w =>
      let free := match w.1 with
        | .ls _ _ => true
        | .mem _ => false
      (p.1, w.1, free, MonCond.await (((G.view p.1).reg b).1.setWidth 16), none)
    (s.watchAll k d false (some sc) ws).raise k false bad)

/-- `AWAIT` of a sequencer: once a cancel covers the launch it stops without a fault (Table 10.8). -/
def seqAwait (sc : Scope) (d : BitVec 8) (a b : Reg) (off : Word) (matrix : Bool) (s : State) (k : Nat) : State :=
  match s.blocks.find? k with
  | none => s
  | some B =>
    let q := B.seq matrix
    if s.covered B then (s.onSeq k matrix fun q => { q with run := .idle }).seqLeaves k matrix
    else
      match seqOffset B q a off, q.view.reg b with
      | .error (c, x), _ => s.seqTrap k matrix c x
      | .ok _, (_, true) => s.seqTrap k matrix 0x07 0
      | .ok o, (v, false) =>
        if s.held B.core 0 (.ls k o) 8 then s
        else
          let s := s.arm B.core (.ls k (o / 8)) true ⟨.seq k matrix, .await (v.setWidth 16), none, none⟩
          (s.onSeq k matrix fun q => { q with wait := .monitor d sc }).finishSeqWait k matrix

/-- `AWAIT` (R241). -/
def execAwait (g : Guard) (sc : Scope) (d : BitVec 8) (a b : Reg) (off : Word) (s : State) :
    Host.Outcome State Fault Refusal :=
  anyOp (.await g sc d a b off) s (awaitThread sc d a b off) (seqAwait sc d a b off)

-- FORK, RDV, EXIT

/-- MPROG or CSCHED of a block's launch (Table 2.7). -/
def State.seqEntry (s : State) (B : Block) (matrix : Bool) : DWord :=
  BitVec.ofNat 64 (((s.launches.find? B.tag).map fun L => field L.lrec (if matrix then 0x08 else 0x10) 8).getD 0)

/-- A sequencer at its start by `FORK` (R191). -/
def Seq.start (q : Seq) (entry : DWord) (k : SMap Word) (kp : SMap Bool) : Seq :=
  { q with
    run := .running, pc := entry, r := k.filter (·.1 < 8), rp := kp.filter (·.1 < 8), p := 0, pp := 0, stop := none,
    wait := .none, walkFaults := [], refetched := none, checkTarget := true, exiting := false, cancelled := false,
    copyFault := none }

/-- The block of a `FORK`, and its result (R192). -/
def State.fork (s : State) (B : Block) (me : Nat) (m c : Bool) (gangs : BitVec 16) : Block × Word :=
  let M := gangs ||| BitVec.ofNat 16 (2 ^ me)
  let unusable := (m && (!B.claimsMatrix || s.seqEntry B true == 0)) || (c && (!B.claimsCopy || s.seqEntry B false == 0))
  if (List.range 16).any fun i => M.getLsbD i && B.slots.length ≤ i then (B, 3)
  else if unusable then (B, 2)
  else if B.mseq.run != .idle || B.cseq.run != .idle then (B, 1)
  else
    let low := ((List.range 16).find? fun i => M.getLsbD i).getD 0
    let G := (B.slots[low]?).bind fun sl => s.gangs.find? (16 * B.core + sl)
    let k := (G.map (·.k)).getD []
    let kp := (G.map (·.kp)).getD []
    ({ B with
        party := some { gangs := M, matrix := m, copy := c }
        mseq := if m then B.mseq.start (s.seqEntry B true) k kp else B.mseq
        cseq := if c then B.cseq.start (s.seqEntry B false) k kp else B.cseq }, 0)

/-- `FORK` (R192). -/
def execFork (g : Guard) (d : BitVec 8) (mm c : Bool) (gangs : BitVec 16) (s : State) :
    Host.Outcome State Fault Refusal :=
  threadOp (.fork g d mm c gangs) s fun s k m =>
    match s.gangs.find? k with
    | none => s
    | some G =>
      match s.blocks.find? G.block with
      | none => s
      | some B =>
        let (B, r) := s.fork B G.number mm c gangs
        (s.setBlock G.block B).onGang k fun G =>
          ((lanesOf m).foldl (fun G l => G.putLane l ((G.lane l).putX d.toNat r false)) G).advance m

/-- Whether a copy of a gang reads or writes local store. -/
def Copy.touchesLs (c : Copy) : Bool :=
  let ls := fun (x : Site) => match x with
    | .ls _ _ => true
    | .va _ | .global _ _ => false
  c.dsts.any ls || ls c.srcAt

/-- `RDV` of a group (R193, R194). -/
def rdvThread (n : BitVec 4) : ThreadBody := fun s k m =>
  match s.gangs.find? k with
  | none => s
  | some G =>
    let inSet := ((s.blocks.find? G.block).bind (·.party)).any fun P => P.gangs.getLsbD G.number
    let (s, m) := if inSet then s.reach k m else s.takeStops k m
    if m = 0 then s
    else if !inSet then s.advance k m
    else if !s.copiesDone (fun c => c.gang == some k && c.touchesLs) then s.stall k m (.again "local store")
    else
      let s := s.onBlock G.block fun B => { B with party := B.party.map fun P =>
        let pt := P.points.get [] n.toNat
        { P with points := P.points.put n.toNat (SMap.put pt G.number (SMap.get 0 pt G.number ||| m)) } }
      (s.stall k m (.rdv n.toNat)).settleParty G.block

/-- `RDV` of a sequencer; once a cancel covers the launch it stops without a fault (Table 10.8). -/
def seqRdv (n : BitVec 4) (matrix : Bool) (s : State) (b : Nat) : State :=
  match s.blocks.find? b with
  | none => s
  | some B =>
    if s.covered B then (s.onSeq b matrix fun q => { q with run := .idle }).seqLeaves b matrix
    else
      match B.party with
      | none => s.onSeq b matrix Seq.advance
      | some P =>
        if !(if matrix then P.matrix else P.copy) then s.onSeq b matrix Seq.advance
        else if !s.copiesDone (fun c => c.ofSeq b matrix && c.touchesLs) then s
        else
          let pt := P.points.get [] n.toNat
          let P := { P with points := P.points.put n.toNat (SMap.put pt (if matrix then 16 else 17) 1) }
          ((s.setBlock b { B with party := some P }).onSeq b matrix fun q => { q with wait := .rdv n.toNat }).settleParty b

/-- `RDV` (R194). -/
def execRdv (g : Guard) (n : BitVec 4) (s : State) : Host.Outcome State Fault Refusal :=
  anyOp (.rdv g n) s (rdvThread n) (seqRdv n)

/-- `EXIT` of a group (R347). -/
def exitThread : ThreadBody := fun s k m =>
  let (s, m) := s.takeStops k m
  if m = 0 then s
  else
    match s.drain k m with
    | (s, false) => s
    | (s, true) =>
      let (s, bad) := s.takeHeld k m
      (lanesOf (m &&& ~~~bad)).foldl (fun s l => s.leave k l) s

/-- `EXIT` (R155, R195, R347); a sequencer ends once what it issued has completed. -/
def execExit (g : Guard) (s : State) : Host.Outcome State Fault Refusal :=
  anyOp (.exit g) s exitThread fun matrix s b => s.onSeq b matrix fun q => { q with exiting := true }

end Sys2Proof.Machine
end

