-- ==== Sys2Proof/Machine/Convo.lean ====
section
/-! DEFINITION. Conversations (R297 to R323, R357 to R359): protocol tables, homes and their judgements, roles and their
queues, receive stores, delegation, and the instructions and events of a conversation. -/

namespace Sys2Proof.Machine

-- Protocol tables (R297 to R299)

/-- NROLES, NSTATES and NTURN of a protocol table (Table 15.1). -/
def ptRoles (t : List Byte) : Nat := field t 0x06 1
/-- See `ptRoles`. -/
def ptStates (t : List Byte) : Nat := field t 0x08 2
/-- See `ptRoles`. -/
def ptTurns (t : List Byte) : Nat := field t 0x0A 2

/-- A state row, and its fields (Table 15.2). -/
def ptRow (t : List Byte) (st : Nat) : Nat := field t (0x20 + 8 * st) 8
/-- See `ptRow`. -/
def rowObs (r : Nat) : Nat := bits r 47 32
/-- See `ptRow`. -/
def rowSender (r : Nat) : Nat := bits r 27 24
/-- See `ptRow`. -/
def rowCount (r : Nat) : Nat := bits r 23 16
/-- See `ptRow`. -/
def rowFirst (r : Nat) : Nat := bits r 15 0

/-- A turn entry, and its fields (Table 15.3). -/
def ptTurn (t : List Byte) (i : Nat) : Nat := field t (0x20 + 8 * ptStates t + 4 * i) 4
/-- See `ptTurn`. -/
def turnNext (v : Nat) : Nat := bits v 15 8
/-- See `ptTurn`. -/
def turnKind (v : Nat) : Nat := bits v 7 0

/-- The turn entries of a state. -/
def ptTurnsOf (t : List Byte) (st : Nat) : List Nat :=
  (List.range (rowCount (ptRow t st))).map fun i => ptTurn t (rowFirst (ptRow t st) + i)

/-- The states that one more transition reaches. -/
def reachMore (t : List Byte) (seen : List Nat) : List Nat :=
  ((seen ++ (seen.map fun st => (ptTurnsOf t st).map turnNext).flatten).dedup).filter (· < ptStates t)

/-- The states reached from state 0 in at most `fuel` transitions. -/
def reached (t : List Byte) : Nat → List Nat
  | 0 => [0]
  | fuel + 1 => reachMore t (reached t fuel)

/-- The fixed fields of the header (check 1 of Table 15.4), and the length it declares. -/
def ptHeaderOk (t : List Byte) : Bool :=
  field t 0x00 4 == 0x4F4C5052 && field t 0x04 2 == 1 && field t 0x07 1 == 0 &&
    field t 0x0C 4 == 32 + 8 * ptStates t + 4 * ptTurns t && field t 0x10 16 == 0

/-- Check 3 of Table 15.4 at a state. -/
def ptCheck3 (t : List Byte) (st : Nat) : Bool :=
  let r := ptRow t st
  let start := if st = 0 then 0 else rowFirst (ptRow t (st - 1)) + rowCount (ptRow t (st - 1))
  rowFirst r == start && (st + 1 != ptStates t || rowFirst r + rowCount r == ptTurns t)

/-- Check 4 of Table 15.4 at a state. -/
def ptCheck4 (t : List Byte) (st : Nat) : Bool :=
  let r := ptRow t st
  rowSender r < ptRoles t && rowObs r / 2 ^ ptRoles t == 0 && !(rowObs r).testBit (rowSender r) &&
    (rowCount r != 0 || (rowSender r == 0 && rowObs r == 0))

/-- Check 5 of Table 15.4 at a state. -/
def ptCheck5 (t : List Byte) (st : Nat) : Bool :=
  let ts := ptTurnsOf t st
  (ts.map turnKind).dedup.length == ts.length && ts.all fun v => turnNext v < ptStates t

/-- The first check of Table 15.4 that a table fails, with its state (R298). -/
def ptInvalid (t : List Byte) : Option (Nat × Nat) :=
  let states := List.range (ptStates t)
  let zeros := states.all (fun st => bits (ptRow t st) 63 48 == 0 && bits (ptRow t st) 31 28 == 0) &&
    (List.range (ptTurns t)).all fun i => bits (ptTurn t i) 31 16 == 0
  let at_ := fun (c : Nat) (ok : Nat → Bool) => (states.find? fun st => !ok st).map fun st => (c, st)
  if !ptHeaderOk t || !zeros then some (1, 0)
  else if ptRoles t = 0 || 16 < ptRoles t || ptStates t = 0 || 256 < ptStates t || ptTurns t = 0 || 1024 < ptTurns t then
    some (2, 0)
  else
    match at_ 3 (ptCheck3 t), at_ 4 (ptCheck4 t), at_ 5 (ptCheck5 t) with
    | some x, _, _ => some x
    | none, some x, _ => some x
    | none, none, some x => some x
    | none, none, none =>
      if rowCount (ptRow t 0) = 0 then some (6, 0)
      else at_ 7 ((reached t (ptStates t)).contains ·)

/-- The addressee of a turn of state `st` into state `next` (R299). -/
def addressee (t : List Byte) (st next : Nat) : Option Nat :=
  let r := rowSender (ptRow t next)
  if rowCount (ptRow t next) = 0 || r = rowSender (ptRow t st) then none else some r

/-- The roles that observe a state and are not the addressee of a turn (R299). -/
def observers (t : List Byte) (st : Nat) (to_ : Option Nat) : List Nat :=
  (List.range 16).filter fun r => (rowObs (ptRow t st)).testBit r && to_ != some r

-- Handles and role registers (R300, R302)

/-- Fields of a handle (R300). -/
def hDevice (h : Nat) : Nat := bits h 56 39
/-- See `hDevice`. -/
def hNode (h : Nat) : Nat := bits h 38 32
/-- See `hDevice`. -/
def hGen (h : Nat) : Nat := bits h 31 16
/-- See `hDevice`. -/
def hIndex (h : Nat) : Nat := bits h 15 0

/-- Whether a handle names a home of this device. -/
def hOwn (h : Nat) : Bool := hDevice h == Config.deviceNumber.toNat

/-- The number of a handle's home on its device. -/
def homeKey (h : Nat) : Nat := hNode h * 65536 + hIndex h

/-- The number of a role of a conversation, by handle and role. -/
def convKey (h role : Nat) : Nat := h * 16 + role

/-- A role register that holds a role (Table 15.5). -/
def roleWord (h role : Nat) : DWord := BitVec.ofNat 64 (2 ^ 63 + role * 2 ^ 57 + h % 2 ^ 57)

/-- Handle and role of a role register with V set. -/
def roleOf (w : DWord) : Option (Nat × Nat) :=
  if w.getLsbD 63 then some (bits w.toNat 56 0, bits w.toNat 60 57) else none

/-- The handle and role that a gang holds in h[n]. -/
def Gang.role (G : Gang) (n : Nat) : Option (Nat × Nat) := roleOf (G.h.get 0 n)

/-- A gang's role register written, with the number under which another device's home knows the gang in it. -/
def State.putRole (s : State) (k n : Nat) (w : DWord) (uid : Nat := 0) : State :=
  s.onGang k fun G => { G with h := G.h.write 0 n w, hids := G.hids.write 0 n uid }

/-- A number that this device gives a gang of a node for one binding at another device's home: it differs from every earlier one
and names the node. -/
def State.bindId (s : State) (node : Nat) : Nat := 128 * s.ctr + node

/-- Receive-store entries of a die that no role reserves (R303): 8 for each role that a gang of the die holds, or asks
another device for. -/
def State.freeEntries (s : State) (node : Nat) : Nat :=
  let here := fun (k : Nat) => coreNode (coreOf k) = node
  let held := (s.gangs.filter fun (g : Nat × Gang) => here g.1).map fun (g : Nat × Gang) =>
    ((List.range 8).filter fun n => (g.2.role n).isSome).length
  let asked := s.requests.filter fun (r : Nat × Request) =>
    match r.2.kind, r.2.gang with
    | .conv (.bind _ _ _ _ _), some k => here k
    | _, _ => false
  2048 - 8 * (held.foldl (· + ·) 0 + asked.length)

-- Homes (R301)

/-- The home of a handle. -/
def State.home (s : State) (h : Nat) : Home := s.homes.get {} (homeKey h)

/-- The state with a change made to a handle's home. -/
def State.onHome (s : State) (h : Nat) (f : Home → Home) : State :=
  { s with homes := s.homes.put (homeKey h) (f (s.home h)) }

/-- Whether a home is OPEN in a handle's generation. -/
def Home.openFor (H : Home) (h : Nat) : Bool := H.status == .opened && H.gen == hGen h

/-- Whether a home keeps a conversation of a handle's generation. -/
def Home.keeps (H : Home) (h : Nat) : Bool := H.status != .free && H.gen == hGen h

/-- The role numbered `r` of a home. -/
def Home.role (H : Home) (r : Nat) : Role := H.roles.getD r {}

/-- A home with a change made to a role. -/
def Home.onRole (H : Home) (r : Nat) (f : Role → Role) : Home :=
  if r < H.roles.length then { H with roles := H.roles.set r (f (H.role r)) } else H

/-- Homes of a base die that its SRAM holds (R301). -/
def State.sramHomes (s : State) (node : Nat) : List (Nat × Home) :=
  s.homes.filter fun (x : Nat × Home) => x.1 / 65536 == node && x.2.status != .free && !x.2.spilled

/-- The least recently used home of a base die's SRAM. -/
def State.lruHome (s : State) (node : Nat) : Option Nat :=
  ((s.sramHomes node).foldl (fun (m : Option (Nat × Nat)) x =>
    match m with
    | some y => if x.2.used < y.2 then some (x.1, x.2.used) else some y
    | none => some (x.1, x.2.used)) none).map (·.1)

/-- Homes that a base die's SRAM holds at a time (R301). -/
def sramSize : Nat := 4096

/-- An access to a home: a spilled one returns to SRAM, and displaces the least recently used home if there is no room
(R301). -/
def State.touch (s : State) (h : Nat) : State :=
  let key := homeKey h
  match s.homes.find? key with
  | none => s
  | some H =>
    let s :=
      if H.spilled && sramSize ≤ (s.sramHomes (hNode h)).length then
        match s.lruHome (hNode h) with
        | some old => { s with homes := s.homes.adjust old fun (O : Home) => { O with spilled := true } }
        | none => s
      else s
    s.onHome h fun H => { H with spilled := false, used := s.ctr }

/-- The node of a gang's number; an evicted gang's number has a part above (R312). -/
def gangNode (k : Nat) : Nat := coreNode (coreOf (k % 2 ^ 40))

/-- The node of a holder on its device; another device's number names it as `State.bindId` does. -/
def Holder.node (w : Holder) : Nat := if w.device.isSome then w.gang % 128 else gangNode w.gang

/-- The covering scope of a home's bound holders (R309). -/
def Home.cover (H : Home) : Scope :=
  match H.roles.filterMap (·.holder) with
  | [] => .die
  | x :: xs =>
    if xs.any (·.device != x.device) then .sys
    else if xs.all fun y => y.node == x.node then .die
    else .pkg

/-- Entries in ascending SEQ order, counted from a home's SEQ (R306). -/
def insertEntry (base : Word) (e : Entry) : List Entry → List Entry
  | [] => [e]
  | x :: xs => if (e.seq - base).toNat < (x.seq - base).toNat then e :: x :: xs else x :: insertEntry base e xs

/-- Entries put back into a role's queue in SEQ order (R307). -/
def Home.merge (H : Home) (es q : List Entry) : List Entry := es.foldl (fun q e => insertEntry (H.seq + 1) e q) q

/-- A CLOSED home that no role is bound to becomes FREE, and the entries still held are discarded (R301). -/
def State.freeHome (s : State) (h : Nat) : State :=
  let H := s.home h
  if H.status == .closed && H.gen == hGen h && H.roles.all (·.holder.isNone) then
    let keys := (List.range 16).map (convKey (h % 2 ^ 57))
    let gone := fun (m : SMap (List Entry)) => m.filter fun e => !keys.contains e.1
    let F : Home := { gen := H.gen, sends := H.sends, used := H.used }
    { s with
      homes := s.homes.put (homeKey h) F
      recv := gone s.recv
      back := gone s.back
      convEnded := s.convEnded.filter fun e => !keys.contains e.1 }
  else s

-- Judging (R305)

/-- A send judged: its verdict and the home after it; none while a recipient lacks credit. Verdicts: 0 accepted, 1
closed, 2 not held, 3 out of turn. -/
def Home.judge (H : Home) (m : Send) : Option (Nat × Home) :=
  let row := ptRow H.table H.st
  if H.status != .opened || m.gen != H.gen then some (1, H)
  else if ((H.roles[m.role]?).bind (·.holder)) != some m.who then some (2, H)
  else
    match (ptTurnsOf H.table H.st).find? fun v => turnKind v == m.kind.toNat with
    | none => some (3, H)
    | some v =>
      if rowCount row = 0 || rowSender row != m.role then some (3, H)
      else
        let to_ := addressee H.table H.st (turnNext v)
        let obs := observers H.table H.st to_
        if (to_.toList ++ obs).any fun r => (H.role r).credits == 0 then none
        else
          let seq := H.seq + 1
          let give := fun (notice : Bool) (H : Home) (r : Nat) => H.onRole r fun R =>
            let e : Entry := ⟨seq, notice, BitVec.ofNat 4 m.role, m.kind, if notice then 0 else m.lanes,
              if notice then [] else m.words⟩
            { R with credits := R.credits - 1, queue := R.queue ++ [e] }
          let H := (to_.toList.foldl (give false) H)
          let H := obs.foldl (give true) H
          let closed := rowCount (ptRow H.table (turnNext v)) = 0
          some (0, { H with seq := seq, st := turnNext v, status := if closed then .closed else .opened })

/-- Lanes of a gang that wait for a number's answer, with the wait. -/
def Gang.asked (G : Gang) (id : Nat) : Option (Mask × BitVec 8 × BitVec 3) :=
  G.waits.findSome? fun w => match w.kind with
    | .verdict i d h | .home i d h => if i = id then some (w.lanes, d, h) else none
    | .walk _ | .refetch _ | .bar _ _ | .rdv _ | .grow _ _ | .cpwait _ | .again _ | .alone _ | .remote _ | .monitor _ _ _ _
    | .recv _ _ _ | .parked _ | .rejoin _ _ => none

/-- The same of a gang by number. -/
def State.asked (s : State) (k id : Nat) : Option (Mask × BitVec 8 × BitVec 3) :=
  (s.gangs.find? k).bind (·.asked id)

/-- The low half of a handle, as STVAL gives it (Table 15.9). -/
def hTval (h : Nat) : DWord := BitVec.ofNat 64 (h % 2 ^ 32)

/-- A verdict taken by the sending lanes, if they still wait for it (R316). -/
def State.conclude (s : State) (k id h role : Nat) (kind : BitVec 8) (code st : Nat) : State :=
  match s.asked k id with
  | none => s
  | some (m, _, n) =>
    let pc := (s.lane k ((lanesOf m).headD 0)).pc
    match code with
    | 0 => s.onGang k fun G => (G.unwait m).advance m
    | 1 => s.trapAll k m 0x0C (hTval h) pc
    | 2 => s.trapAll k m 0x0B (n.setWidth 64) pc
    | 3 => s.trapAll k m 0x0A (BitVec.ofNat 64 (kind.toNat + 256 * st + 65536 * role)) pc
    | _ => s.trapAll k m 0x0E (hTval h) pc

/-- The home judges its oldest send (R305). -/
def State.judge (s : State) (key : Nat) : State :=
  match s.homes.find? key with
  | none => s
  | some H =>
    match H.sends with
    | [] => s
    | m :: rest =>
      match H.judge m with
      | none => s
      | some (code, H') =>
        let h := key % 65536 + 65536 * m.gen + 2 ^ 32 * (key / 65536)
        let s := (({ s with homes := s.homes.put key { H' with sends := rest } } : State)).touch h
        match m.who.device with
        | none => s.conclude m.who.gang m.id h m.role m.kind code H.st
        | some d => s.recordReply d m.id (.conv (.query 0)) (.conv code (BitVec.ofNat 32 H.st) 0)

-- Binding, unbinding and delegation at the home (R307, R313, R315)

/-- The home's part of `CBIND`: the result of R315 (R303, R307). -/
def State.bindAt (s : State) (h role : Nat) (token : BitVec 16) (who : Holder) (vmid : Nat) (room : Bool) : State × Nat :=
  let s := s.touch h
  let H := s.home h
  let R := H.role role
  if !H.openFor h then (s, 2)
  else if H.vmid != vmid then (s, 6)
  else if H.roles.length ≤ role then (s, 4)
  else if R.holder.isSome || R.token != token then (s, 1)
  else if !room then (s, 5)
  else (s.onHome h fun H => H.onRole role fun R => { R with holder := some who }, 0)

/-- What a home has sent to a role's holder on another device and has no answer to yet counts no more: the role has another
holder, or its entries return. -/
def State.voidDeliveries (s : State) (h role : Nat) : State :=
  let void := fun (r : Request) =>
    match r.kind with
    | .conv (.deliver h' role' g q n sd kd m ws) =>
      if homeKey h'.toNat = homeKey h ∧ role' = role then { r with kind := .conv (.deliver h' 16 g q n sd kd m ws) } else r
    | .conv (.ended h' role' g) =>
      if homeKey h'.toNat = homeKey h ∧ role' = role then { r with kind := .conv (.ended h' 16 g) } else r
    | _ => r
  { s with requests := s.requests.mapV fun _ (r : Request) => void r }

/-- Credits of entries that a holder on another device has taken: each once. -/
def Role.credited (R : Role) (taken : List Word) : Role :=
  taken.foldl (fun (R : Role) q =>
    if (R.away ++ R.queue).any (·.seq == q) then
      { R with
        credits := R.credits + 1
        away := R.away.filter (·.seq != q)
        queue := R.queue.filter (·.seq != q) }
    else R) R

/-- A role loses its holder: its entries return to its queue (R307), those of a gang of this device through its die. -/
def State.releaseRole (s : State) (h role : Nat) (who : Holder) (token : Option (BitVec 16)) (taken : List Word) :
    State :=
  let s := s.touch h
  if !(s.home h).keeps h || ((s.home h).role role).holder != some who then s
  else
    let key := convKey (h % 2 ^ 57) role
    let s := s.onHome h fun H => H.onRole role fun R =>
      let R := R.credited taken
      { R with holder := none, token := token.getD R.token, queue := H.merge R.away R.queue, away := [] }
    if who.device.isNone then
      { s with
        back := s.back.write [] key (s.back.get [] key ++ s.recv.get [] key)
        recv := s.recv.del key }
    else s.voidDeliveries h role

/-- The entries of a holder on another device return to the home, and it keeps the role (R312). -/
def State.backAt (s : State) (h role : Nat) (who : Holder) (taken : List Word) : State :=
  let s := s.touch h
  if !(s.home h).keeps h || ((s.home h).role role).holder != some who then s
  else (s.onHome h fun H => H.onRole role fun R =>
    let R := R.credited taken
    { R with queue := H.merge R.away R.queue, away := [] }).voidDeliveries h role

/-- `CCLOSE` at the home (R313, R320). -/
def State.closeAt (s : State) (h role : Nat) (who : Holder) (taken : List Word) : State :=
  if (s.home h).keeps h then
    ((s.onHome h fun H => { H with status := .closed }).releaseRole h role who none taken).freeHome h
  else s

/-- A role unbound at its home (R312). -/
def State.unbindAt (s : State) (h role : Nat) (who : Holder) (taken : List Word) : State :=
  (s.releaseRole h role who none taken).freeHome h

/-- What `CSTATE.home` reads of a home (R319). -/
def State.queryAt (s : State) (h : Nat) : State × Word × Word :=
  let s := s.touch h
  let H := s.home h
  if !H.keeps h then (s, 0x1000, 0)
  else
    let held := ((List.range H.roles.length).map fun r => if (H.role r).holder.isSome then 2 ^ (16 + r) else 0).foldl
      (· + ·) 0
    (s, BitVec.ofNat 32 (held + (if H.stalled != 0 then 2 ^ 13 else 0) + (if H.status == .closed then 2 ^ 12 else 0) +
      256 * rowSender (ptRow H.table H.st) + H.st), H.seq)

-- Asking the home of another device (R310)

/-- Entries taken from another device's home whose credits may still be on their way. -/
def State.takenOf (s : State) (h role : Nat) : List Word :=
  s.requests.filterMap fun (r : Nat × Request) =>
    match r.2.kind with
    | .conv (.credit h' role' seq) => if h'.toNat = h ∧ role' = role then some seq else none
    | _ => none

/-- A question sent to the device of a handle; its number. -/
def State.askHome (s : State) (k l h : Nat) (ask : ConvAsk) (reg : BitVec 3 := 0) : State × Nat :=
  s.send { s.ask k l ((s.cur.map (·.pc)).getD 0) (hDevice h) 0 (.conv ask) .conv with reg := reg }

/-- The number under which lanes wait for a request's answer; a send to a home of this device has an even one. -/
def askId (req : Nat) : Nat := 2 * req + 1

/-- What a device keeps of a role at another device's home dropped. -/
def State.forgetRole (s : State) (h role : Nat) : State :=
  let key := convKey h role
  { s with recv := s.recv.del key, convEnded := s.convEnded.del key, convRegion := s.convRegion.del key }

/-- A gang gives up the role of h[n] (R312, R320): its home unbinds it. -/
def State.giveUp (s : State) (k n h role : Nat) : State :=
  let uid := ((s.gangs.find? k).map fun G => G.hids.get 0 n).getD 0
  let s := s.putRole k n 0
  if hOwn h then s.unbindAt h role ⟨none, k⟩ []
  else
    let taken := s.takenOf h role
    ((s.forgetRole h role).askHome k 0 h (.unbind (BitVec.ofNat 64 h) role uid taken)).1

/-- Whether a gang's send in a role awaits its verdict. -/
def State.awaiting (s : State) (k h role : Nat) : Bool :=
  if hOwn h then (s.home h).sends.any fun m => m.who == ⟨none, k⟩ && m.role == role && m.gen == hGen h
  else s.requests.any fun (r : Nat × Request) =>
    match r.2.kind with
    | .conv (.send h' role' _ _ _ _) => h'.toNat == h && role' == role && r.2.gang == some k
    | _ => false

-- Routes to a home of this device (R265, R310)

/-- Whether a core's die has a route to a home of this device. -/
def State.joinedTo (s : State) (core h : Nat) : Bool := s.nodesJoined (coreNode core) (hNode h)

/-- When the last of the panel's dead links died. -/
def State.panelDiedAt (s : State) : Nat :=
  (s.links.map fun (l : Nat × Link) => if l.2.dead && (panelLink l.1).isSome then l.2.diedAt else 0).foldl Nat.max 0

/-- Whether what has no route on the panel has had none for 100 µs (R310, R311). -/
def State.panelLost (s : State) : Bool := s.panelDiedAt + 100000 ≤ s.now

/-- An instruction that has to reach a home: over the fabric it goes on at once; on the panel it waits while there is no route, and
takes cause 0x0E after 100 µs (R310). -/
def State.reaching (s : State) (k : Nat) (m : Mask) (h : Nat) (f : State → State) : State :=
  if !hOwn h || s.joinedTo (coreOf k) h then f s
  else if s.panelLost then s.trapAll k m 0x0E (hTval h) s.curPc
  else s.stall k m (.alone "route")

-- Bound regions (R309)

/-- RBASE and RLEN of a conversation in which the device holds a role. -/
def State.regionOf (s : State) (h role : Nat) : Nat × Nat :=
  if hOwn h then ((s.home h).rbase.toNat, (s.home h).rlen.toNat) else s.convRegion.get (0, 0) (convKey h role)

/-- The covering scope of a conversation; what another device's home has computed is left open. -/
def State.coverOf (s : State) (h : Nat) : Scope :=
  if hOwn h then (s.home h).cover
  else
    match Config.freeNat s.ctr (2 ^ 34 + 11) % 3 with
    | 0 => .die
    | 1 => .pkg
    | _ => .sys

/-- The physical runs that a core's context reads a range as; what is not mapped is none of it. -/
def State.regionRuns (s : State) (core : Nat) (range : Nat × Nat) : List (Nat × Nat) :=
  let first := range.1 / 65536
  let ag := ctxAgent (coreNode core) (s.ctxOf core)
  let ag := { ag with secure := (s.core core).secure }
  (List.range ((range.1 + range.2 + 65535) / 65536 - first)).filterMap fun i =>
    let page := (first + i) * 65536
    let lo := Nat.max page range.1
    let hi := Nat.min (page + 65536) (range.1 + range.2)
    match translateNow ag .read page s with
    | (_, .ok t) => if lo < hi then some (t.addr lo, hi - lo) else none
    | (_, .error _) => none

/-- Whether a sector lies in some physical runs. -/
def inRuns (runs : List (Nat × Nat)) (sec : Nat) : Bool := runs.any fun r => overlaps (32 * sec) 32 r.1 r.2

/-- The sectors of a die's RDC that lie in some runs. -/
def State.rdcIn (s : State) (node : Nat) (runs : List (Nat × Nat)) : List Nat :=
  (s.rdc.map (·.1)).filter fun e => e / 2 ^ 40 == node && inRuns runs (e % 2 ^ 40)

/-- A region's dirty bytes written back as far as a release at a scope wants it. -/
def State.releaseRegion (s : State) (core : Nat) (runs : List (Nat × Nat)) (sc : Scope) : State :=
  let s := if sc.wide then
      (s.core core).l1.foldl (fun s e => if inRuns runs (e.1 / 2) then s.l1Flush core e.1 else s) s
    else s
  let node := coreNode core
  if sc.pkgWide then (((s.rdcIn node runs).map (· % 2 ^ 40 / 4)).dedup).foldl (fun s line => s.rdcFlushLine node line) s else s

/-- A region's lines dropped from a core's L1, and from its die's RDC at pkg and wider. -/
def State.acquireRegion (s : State) (core : Nat) (runs : List (Nat × Nat)) (sc : Scope) : State :=
  let s := (s.core core).l1.foldl (fun s e => if inRuns runs (e.1 / 2) then s.l1Flush core e.1 else s) s
  let s := s.setCore core { s.core core with l1 := (s.core core).l1.filter fun e => !inRuns runs (e.1 / 2) }
  let node := coreNode core
  if sc.pkgWide then
    let s := (((s.rdcIn node runs).map (· % 2 ^ 40 / 4)).dedup).foldl (fun s line => s.rdcFlushLine node line) s
    { s with rdc := s.rdc.filter fun e => !(e.1 / 2 ^ 40 == node && inRuns runs (e.1 % 2 ^ 40)) }
  else s

-- Taking an entry (R317)

/-- Status word of an entry for a lane (Table 15.10). -/
def Entry.status (e : Entry) (l : Nat) : Word :=
  BitVec.ofNat 32 ((if e.notice then 2 ^ 17 else 0) + (if !e.notice && e.mask.getLsbD l then 2 ^ 16 else 0) +
    256 * e.sender.toNat + e.kind.toNat)

/-- Whether a role's queue holds no entry anywhere and its home is CLOSED (R313), as far as a core reaches the home (R311). -/
def State.convOver (s : State) (core h role : Nat) : Bool :=
  let key := convKey h role
  (s.recv.get [] key).isEmpty &&
    (if hOwn h then
      s.joinedTo core h && (!(s.home h).keeps h ||
        ((s.home h).status == .closed && ((s.home h).role role).queue.isEmpty && (s.back.get [] key).isEmpty))
    else s.convEnded.get false key)

/-- The acquire of a take (R308, R309): at its scope, and of the bound region at C. -/
def State.acquireConv (s : State) (core h role : Nat) (sc : Scope) : State :=
  let s := s.acquireAt core sc
  let range := s.regionOf h role
  if range.2 = 0 then s else s.acquireRegion core (s.regionRuns core range) (s.coverOf h)

/-- Lanes of a gang take the lowest entry of a role: the words and status, the acquire, the credit, the next
instruction. -/
def State.takeEntry (s : State) (k : Nat) (m : Mask) (d : BitVec 8) (sc : Scope) (h role : Nat) : State :=
  let key := convKey h role
  match s.recv.get [] key with
  | [] => s
  | e :: rest =>
    let s := { s with recv := s.recv.write [] key rest }
    let s := s.onGang k fun G =>
      let put := fun (G : Gang) (l : Nat) =>
        let w := if !e.notice && e.mask.getLsbD l then e.words.get 0 l else 0
        G.putLane l (((G.lane l).putX d.toNat w false).putX (d.toNat + 1) (e.status l) false)
      (((lanesOf m).foldl put G).unwait m).advance m
    let s := s.acquireConv (coreOf k) h role sc
    if hOwn h then
      if (s.home h).keeps h then (s.touch h).onHome h fun H => H.onRole role fun R => { R with owed := R.owed + 1 } else s
    else (s.askHome k ((lanesOf m).headD 0) h (.credit (BitVec.ofNat 64 h) role e.seq)).1

/-- One group that waits in `CRECV`: it takes an entry, or the cause of a role that is over or has been handed on. -/
def State.serveWait (s : State) (k : Nat) (w : Wait) : State :=
  match w.kind, s.gangs.find? k with
  | .recv d n sc, some G =>
    match G.role n.toNat with
    | none => s.interrupt k w.lanes 0x0B (n.setWidth 64)
    | some (h, role) =>
      if !(s.recv.get [] (convKey h role)).isEmpty then
        if hOwn h || s.canSend (hDevice h) 1 then s.takeEntry k w.lanes d sc h role else s
      else if s.convOver (coreOf k) h role then s.interrupt k w.lanes 0x0C (hTval h)
      else s
  | _, _ => s

/-- The groups of a gang that wait in `CRECV`, those for one entry in an order left open. -/
def Gang.receivers (G : Gang) (ctr : Nat) : List Wait :=
  let ws := G.waits.filter fun w => match w.kind with
    | .recv _ _ _ => true
    | .walk _ | .refetch _ | .bar _ _ | .rdv _ | .grow _ _ | .cpwait _ | .again _ | .alone _ | .remote _ | .monitor _ _ _ _
    | .verdict _ _ _ | .home _ _ _ | .parked _ | .rejoin _ _ => false
  if ws.length ≤ 1 then ws
  else
    let n := Config.freeNat ctr (2 ^ 32 + 7) % ws.length
    ws.drop n ++ ws.take n

/-- Every group that waits in `CRECV` served, and the roles of gangs that have exited unbound (R312). -/
def State.serveConvs (s : State) : State :=
  let s := s.gangs.foldl (fun s g => (g.2.receivers s.ctr).foldl (fun s w => s.serveWait g.1 w) s) s
  s.gangs.foldl (fun s g =>
    if g.2.live != 0 || g.2.h.isEmpty then s
    else g.2.h.foldl (fun s r =>
      match roleOf r.2 with
      | some (h, role) => if hOwn h || s.canSend (hDevice h) 1 then s.giveUp g.1 r.1 h role else s
      | none => s) s) s

-- Instructions

/-- An instruction that acts once for its group: the gang and its block's core, and the lowest active lane. -/
def convOp (body : State → Nat → Gang → Mask → Nat → State) : ThreadBody := fun s k m =>
  match s.gangs.find? k, (lanesOf m).head? with
  | some G, some l => body s k G m l
  | _, _ => s

/-- A word written to D of lanes, which go on. -/
def State.answer (s : State) (k : Nat) (m : Mask) (d : BitVec 8) (wide : Bool) (lo hi : Word) : State :=
  s.onGang k fun G =>
    let put := fun (G : Gang) (l : Nat) =>
      let L := (G.lane l).putX d.toNat lo false
      G.putLane l (if wide then L.putX (d.toNat + 1) hi false else L)
    (((lanesOf m).foldl put G).unwait m).advance m

/-- A question to another device's home sent, and the lanes set to wait for its answer; they come again while the window
is full. -/
def State.askAndWait (s : State) (k : Nat) (m : Mask) (d : BitVec 8) (n : BitVec 3) (h : Nat) (ask : ConvAsk) : State :=
  if !s.canSend (hDevice h) 1 then s.stall k m (.alone "fabric")
  else
    let (s, id) := s.askHome k ((lanesOf m).headD 0) h ask
    s.stall k m (.home (askId id) d n)

/-- Whether a gang waits for another device to bind a role to h[n]. -/
def State.awaitsRole (s : State) (k : Nat) (n : BitVec 3) : Bool :=
  s.requests.any fun (r : Nat × Request) =>
    match r.2.kind with
    | .conv (.bind _ _ _ _ _) => r.2.gang == some k && r.2.reg == n
    | _ => false

/-- `CBIND` (R315). -/
def execCbind (g : Guard) (d : BitVec 8) (h : BitVec 3) (b c : Reg) (s : State) : Host.Outcome State Fault Refusal :=
  threadOp (.cbind g d h b c) s (convOp fun s k G m l =>
    let pc := s.curPc
    let v := G.view l
    let x := v.pair b
    let r := v.reg c
    if x.2 || r.2 then s.trapAll k m 0x07 0 pc
    else if (G.role h.toNat).isSome then s.answer k m d false 3 0
    else if bits r.1.toNat 15 4 != 0 || bits x.1.toNat 63 57 != 0 then s.answer k m d false 7 0
    else if s.awaitsRole k h then s.stall k m (.alone "role")
    else
      let hd := x.1.toNat
      let role := bits r.1.toNat 3 0
      let token : BitVec 16 := r.1.extractLsb' 16 16
      let room := decide (8 ≤ s.freeEntries (coreNode (coreOf k)))
      s.reaching k m hd fun s =>
        if hOwn hd then
          let (s, res) := s.bindAt hd role token ⟨none, k⟩ (s.ctxOf (coreOf k)).vmid room
          let s := if res = 0 then s.putRole k h.toNat (roleWord hd role) else s
          s.answer k m d false (BitVec.ofNat 32 res) 0
        else s.askAndWait k m d h hd (.bind x.1 role token (s.bindId (coreNode (coreOf k))) room))

/-- Whether a gang's copies that write or read a conversation's bound region have finished (R277, R309). -/
def State.regionDone (s : State) (k h role : Nat) : Bool :=
  let range := s.regionOf h role
  let meets := fun (p : Site) (n : Nat) => match p with
    | .va a => overlaps a n range.1 range.2
    | .global _ _ | .ls _ _ => false
  range.2 == 0 || s.copiesDone fun c =>
    c.gang == some k && (c.dsts.any (meets · c.span) || meets c.srcAt ((c.rows - 1) * c.sPitch + c.rowLen))

/-- The release of a send (R308, R309). -/
def State.releaseConv (s : State) (core h role : Nat) (sc : Scope) : State :=
  let s := s.releaseAt core sc
  let range := s.regionOf h role
  if range.2 = 0 then s else s.releaseRegion core (s.regionRuns core range) (s.coverOf h)

/-- A send sent, and its lanes set to wait for the verdict: a blocking point (R96, R316). -/
def State.sendOff (s : State) (k : Nat) (good : Mask) (h : BitVec 3) (id : Nat) : State :=
  let (s, left) := s.reach k good
  s.stall k left (.verdict id 0 h)

/-- `CSEND` (R316). -/
def execCsend (g : Guard) (scope : Scope) (h : BitVec 3) (b : Reg) (kind : BitVec 8) (s : State) :
    Host.Outcome State Fault Refusal :=
  threadOp (.csend g scope h b kind) s (convOp fun s k G m l =>
    let pc := s.curPc
    match G.role h.toNat with
    | none => s.trapAll k m 0x0B (h.setWidth 64) pc
    | some (hd, role) =>
      let bad := maskOf ((lanesOf m).filter fun i => ((G.view i).reg b).2)
      let good := m &&& ~~~bad
      let s := s.trapAll k bad 0x07 0 pc
      if good = 0 then s
      else
        let s := if s.room (coreOf k) 32 then s.closeGang k else s
        if s.outstanding k != 0 || !s.regionDone k hd role then s.stall k good (.alone "release")
        else if !hOwn hd && !s.canSend (hDevice hd) 1 then s.stall k good (.alone "fabric")
        else
          (s.releaseConv (coreOf k) hd role scope).reaching k good hd fun s =>
            let words : SMap Word := (lanesOf good).foldl (fun (ws : SMap Word) i => ws.put i ((G.view i).reg b).1) []
            if hOwn hd then
              let id := 2 * s.ctr
              let send : Send := ⟨id, ⟨none, k⟩, good, hGen hd, role, kind, words⟩
              (s.onHome hd fun H => { H with sends := H.sends ++ [send] }).sendOff k good h id
            else
              let (s, id) := s.askHome k l hd (.send (BitVec.ofNat 64 hd) role (G.hids.get 0 h.toNat) kind good words)
              s.sendOff k good h (askId id))

/-- `CRECV` (R317): a stop or a cancel is taken where it has to wait. -/
def execCrecv (g : Guard) (scope : Scope) (d : BitVec 8) (h : BitVec 3) (s : State) : Host.Outcome State Fault Refusal :=
  threadOp (.crecv g scope d h) s (convOp fun s k G m _ =>
    match G.role h.toNat with
    | none => s.trapAll k m 0x0B (h.setWidth 64) s.curPc
    | some (hd, role) =>
      if !(s.recv.get [] (convKey hd role)).isEmpty then
        if hOwn hd || s.canSend (hDevice hd) 1 then s.takeEntry k m d scope hd role else s.stall k m (.alone "fabric")
      else if s.convOver (coreOf k) hd role then s.trapAll k m 0x0C (hTval hd) s.curPc
      else
        let (s, m) := s.reach k m
        s.stall k m (.recv d h scope))

/-- `CTRY` (R317). -/
def execCtry (g : Guard) (scope : Scope) (d : BitVec 8) (h : BitVec 3) (s : State) : Host.Outcome State Fault Refusal :=
  threadOp (.ctry g scope d h) s (convOp fun s k G m _ =>
    match G.role h.toNat with
    | none => s.trapAll k m 0x0B (h.setWidth 64) s.curPc
    | some (hd, role) =>
      if !(s.recv.get [] (convKey hd role)).isEmpty then
        if hOwn hd || s.canSend (hDevice hd) 1 then s.takeEntry k m d scope hd role else s.stall k m (.alone "fabric")
      else s.answer k m d true 0 (if s.convOver (coreOf k) hd role then 0xC0000 else 0x40000))

/-- `CDELEG` (R318): it goes on once the home has recorded the token (R359). -/
def execCdeleg (g : Guard) (h : BitVec 3) (b : Reg) (s : State) : Host.Outcome State Fault Refusal :=
  threadOp (.cdeleg g h b) s (convOp fun s k G m l =>
    let pc := s.curPc
    let v := (G.view l).reg b
    match G.role h.toNat with
    | none => s.trapAll k m 0x0B (h.setWidth 64) pc
    | some (hd, role) =>
      if v.2 then s.trapAll k m 0x07 0 pc
      else if v.1.extractLsb' 16 16 != 0 then s.trapAll k m 0x01 0 pc
      else if s.awaiting k hd role then s.stall k m (.alone "verdict")
      else
        let token : BitVec 16 := v.1.setWidth 16
        s.reaching k m hd fun s =>
          if hOwn hd then
            if !(s.home hd).openFor hd then s.trapAll k m 0x0C (hTval hd) pc
            else ((s.releaseRole hd role ⟨none, k⟩ (some token) []).putRole k h.toNat 0).advance k m
          else
            let taken := s.takenOf hd role
            let s := if s.canSend (hDevice hd) 1 then { s with recv := s.recv.del (convKey hd role) } else s
            s.askAndWait k m 0 h hd (.deleg (BitVec.ofNat 64 hd) role (G.hids.get 0 h.toNat) token taken))

/-- `CSTATE.home` (R319). -/
def execCstateHome (g : Guard) (d : BitVec 8) (h : BitVec 3) (s : State) : Host.Outcome State Fault Refusal :=
  threadOp (.cstateHome g d h) s (convOp fun s k G m _ =>
    match G.role h.toNat with
    | none => s.trapAll k m 0x0B (h.setWidth 64) s.curPc
    | some (hd, _) =>
      s.reaching k m hd fun s =>
        if hOwn hd then
          let (s, lo, hi) := s.queryAt hd
          s.answer k m d true lo hi
        else s.askAndWait k m d h hd (.query (BitVec.ofNat 64 hd)))

/-- `CSTATE.role` (R319). -/
def execCstateRole (g : Guard) (d : BitVec 8) (h : BitVec 3) (s : State) : Host.Outcome State Fault Refusal :=
  threadOp (.cstateRole g d h) s (groupThread fun G _ e l =>
    .results e (G.view l) false 0 (wideTo true ⟨false, d⟩ (G.h.get 0 h.toNat)))

/-- `CCLOSE` (R320). -/
def execCclose (g : Guard) (h : BitVec 3) (s : State) : Host.Outcome State Fault Refusal :=
  threadOp (.cclose g h) s (convOp fun s k G m _ =>
    match G.role h.toNat with
    | none => s.trapAll k m 0x0B (h.setWidth 64) s.curPc
    | some (hd, role) =>
      s.reaching k m hd fun s =>
        if hOwn hd then ((s.closeAt hd role ⟨none, k⟩ []).putRole k h.toNat 0).advance k m
        else
          let taken := s.takenOf hd role
          let s := if s.canSend (hDevice hd) 1 then { s with recv := s.recv.del (convKey hd role) } else s
          s.askAndWait k m 0 h hd (.close (BitVec.ofNat 64 hd) role (G.hids.get 0 h.toNat) taken))

-- CLOAD (R321)

/-- Why a read of an open record or table fails, and with what STVAL. -/
def loadFault (f : PageFault) (v : DWord) : LaneFault := ⟨f.cause, v, f.host, f.migrating⟩

/-- Bytes read for `CLOAD` with the rights of the lane, page by page; `fuel` pages at most. -/
def readPieces (ag : Agent) (a : DWord) (n : Nat) (s : State) : Nat → State × Except LaneFault (List Byte)
  | 0 => (s, .ok [])
  | fuel + 1 =>
    if n = 0 then (s, .ok [])
    else
      let n1 := Nat.min n (65536 - a.toNat % 65536)
      match devRead ag a n1 s with
      | (s, .error f) => (s, .error (loadFault f a))
      | (s, .ok bs) =>
        match bs.findIdx? (·.2) with
        | some i => (s, .error ⟨0x07, (a + BitVec.ofNat 64 i) &&& ~~~0x1F, false, false⟩)
        | none =>
          match readPieces ag (a + BitVec.ofNat 64 n1) (n - n1) s fuel with
          | (s, .error f) => (s, .error f)
          | (s, .ok cs) => (s, .ok (bs.map (·.1) ++ cs))

/-- Whether an open record keeps Table 15.11. -/
def openRecordOk (r : List Byte) : Bool :=
  let base := field r 0 8
  let len := field r 8 8
  base % 128 == 0 && field r 0x30 16 == 0 &&
    (if base = 0 then len == 0 else len % 128 == 0 && 128 ≤ len && len ≤ 2 ^ 30)

/-- Bytes of a base die's protocol store in use (R321). -/
def State.storeUsed (s : State) (node : Nat) : Nat :=
  ((s.homes.filter fun (x : Nat × Home) => x.1 / 65536 == node && x.2.status != .free).map fun (x : Nat × Home) =>
    x.2.table.length).foldl (· + ·) 0

/-- What one lane's `CLOAD` comes to: a trap, or the value of D's pair. -/
def State.cload (s : State) (ag : Agent) (core : Nat) (a b c : DWord) : State × Except LaneFault DWord :=
  let fail := fun (n : Nat) => BitVec.ofNat 64 (2 ^ 63 + n)
  let h := a.toNat
  let node := hNode h
  if b.toNat % 32 ≠ 0 then (s, .error ⟨0x04, b, false, false⟩)
  else if c.toNat % 64 ≠ 0 then (s, .error ⟨0x04, c, false, false⟩)
  else if bits h 63 57 != 0 || !hOwn h then (s, .ok (fail 5))
  else if (s.home h).status != .free then (s, .ok (fail 1))
  else
    match readPieces ag c 64 s 2 with
    | (s, .error f) => (s, .error f)
    | (s, .ok r) =>
      if !openRecordOk r then (s, .ok (fail 4))
      else
        match readPieces ag b 32 s 2 with
        | (s, .error f) => (s, .error f)
        | (s, .ok head) =>
          if !ptHeaderOk head then (s, .ok (fail (2 + 256)))
          else
            match readPieces ag (b + 32) (field head 0x0C 4 - 32) s 16 with
            | (s, .error f) => (s, .error f)
            | (s, .ok body) =>
              let t := head ++ body
              match ptInvalid t with
              | some (check, st) => (s, .ok (fail (2 + 256 * check + 65536 * st)))
              | none =>
                let full := sramSize ≤ (s.sramHomes node).length
                if 2 ^ 23 < s.storeUsed node + t.length then (s, .ok (fail 3))
                else if full && spillSize ≤ s.spilledAt node then (s, .ok (fail 6))
                else
                  let s := match s.lruHome node with
                    | some old =>
                      if full then { s with homes := s.homes.adjust old fun (O : Home) => { O with spilled := true } } else s
                    | none => s
                  let gen := ((s.home h).gen + 1) % 65536
                  let roles := (List.range (ptRoles t)).map fun i =>
                    ({ token := BitVec.ofNat 16 (field r (0x10 + 2 * i) 2) } : Role)
                  let H : Home := {
                    gen := gen, status := .opened, ctx := s.ctxId (coreNode core), vmid := (s.ctxOf core).vmid, table := t,
                    roles := roles, rbase := BitVec.ofNat 64 (field r 0 8), rlen := BitVec.ofNat 64 (field r 8 8),
                    used := s.ctr, sends := (s.home h).sends }
                  ({ s with homes := s.homes.put (homeKey h) H },
                    .ok (BitVec.ofNat 64 (h / 2 ^ 32 * 2 ^ 32 + gen * 65536 + hIndex h)))

/-- `CLOAD` (R321). -/
def execCload (g : Guard) (d : BitVec 8) (a b c : Reg) (s : State) : Host.Outcome State Fault Refusal :=
  threadOp (.cload g d a b c) s fun s k m =>
    (lanesOf m).foldl (fun s l =>
      match s.gangs.find? k with
      | none => s
      | some G =>
        let v := G.view l
        let pc := (G.lane l).pc
        if (v.pair a).2 || (v.pair b).2 || (v.pair c).2 then s.trap k l 0x07 0 pc
        else
          match s.cload (s.agent (coreOf k) (G.lane l).mode) (coreOf k) (v.pair a).1 (v.pair b).1 (v.pair c).1 with
          | (s, .error f) => s.trap k l f.cause f.v pc f.host f.migrating
          | (s, .ok x) => s.answer k (laneBit l) d true (x.setWidth 32) (x.extractLsb' 32 32)) s

-- Questions of other devices (R304 to R320)

/-- Whether this device has asked another device's home to take back a role that it held under a number. -/
def State.handingBack (s : State) (h role uid : Nat) : Bool :=
  s.requests.any fun (r : Nat × Request) =>
    match r.2.kind with
    | .conv (.deleg h' role' u _ _) | .conv (.close h' role' u _) | .conv (.unbind h' role' u _) =>
      h'.toNat == h && role' == role && u == uid
    | _ => false

/-- The gang that holds a role of another device's home under a number, and has not begun to hand it back (R307). -/
def State.roleGang (s : State) (h role uid : Nat) : Option Nat :=
  if s.handingBack h role uid then none
  else s.gangs.findSome? fun (g : Nat × Gang) =>
    if (List.range 8).any fun n => g.2.role n == some (h, role) && g.2.hids.get 0 n == uid then some g.1 else none

/-- A question of another device: its answer; none where a send waits to be judged. -/
def State.convAsked (s : State) (source seq vmid : Nat) : ConvAsk → State × Option ReplyKind
  | .bind h role token gang room =>
    let (s, res) := s.bindAt h.toNat role token ⟨some source, gang⟩ vmid room
    (s, some (if res = 0 then .bound (s.home h.toNat).rbase (s.home h.toNat).rlen else .conv res 0 0))
  | .send h role gang kind mask words =>
    let send : Send := ⟨seq, ⟨some source, gang⟩, mask, hGen h.toNat, role, kind, words⟩
    let known := (s.home h.toNat).sends.any fun m => m.id == seq && m.who.device == some source
    (if known then s else s.onHome h.toNat fun H => { H with sends := H.sends ++ [send] }, none)
  | .deleg h role gang token taken =>
    let who : Holder := ⟨some source, gang⟩
    if (s.home h.toNat).openFor h.toNat then (s.releaseRole h.toNat role who (some token) taken, some (.conv 0 0 0))
    else (s.backAt h.toNat role who taken, some (.conv 1 0 0))
  | .query h =>
    let (s, lo, hi) := s.queryAt h.toNat
    (s, some (.conv 0 lo hi))
  | .close h role gang taken => (s.closeAt h.toNat role ⟨some source, gang⟩ taken, some (.conv 0 0 0))
  | .unbind h role gang taken => (s.unbindAt h.toNat role ⟨some source, gang⟩ taken, some (.conv 0 0 0))
  | .back h role gang taken => (s.backAt h.toNat role ⟨some source, gang⟩ taken, some .ack)
  | .credit h role q =>
    (if (s.home h.toNat).keeps h.toNat then (s.touch h.toNat).onHome h.toNat fun H => H.onRole role (·.credited [q]) else s,
      some .ack)
  | .deliver h role gang q notice sender kind mask words =>
    match s.roleGang h.toNat role gang with
    | none => (s, some (.conv 1 0 0))
    | some _ =>
      let key := convKey h.toNat role
      ({ s with recv := s.recv.put key (s.recv.get [] key ++ [⟨q, notice, sender, kind, mask, words⟩]) },
        some (.conv 0 0 0))
  | .ended h role _ =>
    ({ s with convEnded := s.convEnded.put (convKey h.toNat role) true }, some .ack)

/-- A role's entry, taken by the device of the holder that it was sent to, counts as delivered, and the role is not stalled
any more (R306, R311). -/
def Home.sentAway (H : Home) (role : Nat) (who : Holder) (seq : Word) : Home :=
  if (H.role role).holder != some who then H
  else
    Home.onRole { H with stalled := H.stalled &&& ~~~(BitVec.ofNat 16 (2 ^ role)) } role fun R =>
      { R with
        away := R.away ++ R.queue.filter (·.seq == seq)
        queue := R.queue.filter (·.seq != seq) }

/-- Another device's answer to a question (R310, R315 to R320). -/
def State.convReply (s : State) (id : Nat) (r : Request) (ask : ConvAsk) (reply : ReplyKind) : State :=
  let s := { s with requests := s.requests.del id }
  let k := r.gang.getD 0
  let lost := fun (s : State) (h : Nat) =>
    match s.asked k (askId id) with
    | some (m, _, _) => s.trapAll k m 0x0E (hTval h) ((s.lane k ((lanesOf m).headD 0)).pc)
    | none => s
  let result := fun (s : State) (res : Nat) =>
    match s.asked k (askId id) with
    | some (m, d, _) => s.answer k m d false (BitVec.ofNat 32 res) 0
    | none => s
  match ask, reply with
  | .bind h role _ uid _, .bound rbase rlen =>
    let s := result s 0
    if r.gang.isSome then
      let s := s.putRole k r.reg.toNat (roleWord h.toNat role) uid
      { s with convRegion := s.convRegion.write (0, 0) (convKey h.toNat role) (rbase.toNat, rlen.toNat) }
    else (s.send { r with kind := .conv (.unbind h role uid []) }).1
  | .bind _ _ _ _ _, .conv res _ _ => result s res
  | .send h role _ kind _ _, .conv code st _ => s.conclude k (askId id) h.toNat role kind code st.toNat
  | .deleg h role _ _ _, .conv code _ _ =>
    match s.asked k (askId id) with
    | some (m, _, n) =>
      if code = 0 then ((s.forgetRole h.toNat role).putRole k n.toNat 0).onGang k fun G => (G.unwait m).advance m
      else s.trapAll k m 0x0C (hTval h.toNat) ((s.lane k ((lanesOf m).headD 0)).pc)
    | none => s
  | .query _, .conv _ lo hi =>
    match s.asked k (askId id) with
    | some (m, d, _) => s.answer k m d true lo hi
    | none => s
  | .close h role _ _, .conv _ _ _ =>
    match s.asked k (askId id) with
    | some (m, _, n) => ((s.forgetRole h.toNat role).putRole k n.toNat 0).onGang k fun G => (G.unwait m).advance m
    | none => s
  | .deliver h role uid seq _ _ _ _ _, .conv 0 _ _ =>
    if (s.home h.toNat).keeps h.toNat then
      (s.touch h.toNat).onHome h.toNat fun H => H.sentAway role ⟨some r.device, uid⟩ seq
    else s
  | .ended h role _, .ack => { s with convEnded := s.convEnded.put (convKey h.toNat role) true }
  | .bind h _ _ _ _, .fault _ | .send h _ _ _ _ _, .fault _ | .deleg h _ _ _ _, .fault _ | .query h, .fault _
  | .close h _ _ _, .fault _ => lost s h.toNat
  | _, _ => s

-- Events

/-- Whether a role's home has asked another device to take an entry, or told it of the end. -/
def State.delivering (s : State) (h role : Nat) : Bool :=
  s.requests.any fun (r : Nat × Request) =>
    match r.2.kind with
    | .conv (.deliver h' role' _ _ _ _ _ _ _) | .conv (.ended h' role' _) => homeKey h'.toNat == homeKey h && role' == role
    | _ => false

/-- The handle of a home in its present generation. -/
def Home.handle (H : Home) (key : Nat) : Nat :=
  Config.deviceNumber.toNat * 2 ^ 39 + key / 65536 * 2 ^ 32 + H.gen * 65536 + key % 65536

/-- A request of a home to the device of a holder. -/
def State.homeAsks (s : State) (H : Home) (device : Nat) (ask : ConvAsk) : State :=
  let c := s.ctxs.get {} H.ctx
  let r : Request := {
    gang := none, lane := 0, pc := 0, device := device, seq := 0, offset := 0, kind := .conv ask, origin := .conv,
    vmid := H.vmid, secure := c.secure }
  (s.send r).1

/-- An entry on its way to its role's holder (R306, R307): into the die's receive store, or to the holder's device. Where
the holder is on another device and nothing is left of a CLOSED home's role, that device is told so (R313). -/
def State.deliver (s : State) (key role : Nat) : State :=
  match s.homes.find? key with
  | none => s
  | some H =>
    let h := H.handle key
    let R := H.role role
    match R.holder, R.queue with
    | some ⟨none, k⟩, e :: rest =>
      let ck := convKey h role
      if (s.gangs.find? k).isNone || !(s.back.get [] ck).isEmpty || !s.joinedTo (coreOf k) h then s
      else
        let s := (s.touch h).onHome h fun H =>
          Home.onRole { H with stalled := H.stalled &&& ~~~(BitVec.ofNat 16 (2 ^ role)) } role fun R => { R with queue := rest }
        { s with recv := s.recv.put ck (s.recv.get [] ck ++ [e]) }
    | some ⟨some dev, k⟩, e :: _ =>
      if s.delivering h role || !s.canSend dev 1 then s
      else (s.touch h).homeAsks H dev
        (.deliver (BitVec.ofNat 64 h) role k e.seq e.notice e.sender e.kind e.mask e.words)
    | some ⟨some dev, k⟩, [] =>
      if H.status == .closed && R.away.isEmpty && !s.delivering h role && !s.convEnded.get false (convKey h role) &&
          s.canSend dev 1 then
        s.homeAsks H dev (.ended (BitVec.ofNat 64 h) role k)
      else s
    | _, _ => s

/-- SEND_JUDGE (R305). -/
def execSendJudge (home : Nat) (s : State) : Host.Outcome State Fault Refusal := .next (s.judge home)

/-- CREDIT_RETURN: a credit reaches its role (R303). -/
def execCreditReturn (home role : Nat) (s : State) : Host.Outcome State Fault Refusal :=
  .next (match s.homes.find? home with
    | none => s
    | some H =>
      if (H.role role).owed = 0 then s
      else (s.touch (H.handle home)).onHome (H.handle home) fun H => H.onRole role fun R =>
        { R with owed := R.owed - 1, credits := R.credits + 1 })

/-- MESSAGE_DELIVERY (R306). -/
def execMessageDelivery (home role : Nat) (s : State) : Host.Outcome State Fault Refusal := .next (s.deliver home role)

/-- ENTRY_RETURN: entries of a holder that has given its role up reach the home (R307). -/
def execEntryReturn (home role : Nat) (s : State) : Host.Outcome State Fault Refusal :=
  .next (match s.homes.find? home with
    | none => s
    | some H =>
      let ck := convKey (H.handle home) role
      let back := s.back.get [] ck
      if back.isEmpty then s
      else
        let s := (s.touch (H.handle home)).onHome (H.handle home) fun H => H.onRole role fun R =>
          { R with queue := H.merge back R.queue }
        { s with back := s.back.del ck })

/-- Requests of a home to deliver an entry of a role. -/
def State.deliveries (s : State) (h role : Nat) : List Request :=
  s.requests.filterMap fun (r : Nat × Request) =>
    match r.2.kind with
    | .conv (.deliver h' role' _ _ _ _ _ _ _) => if h'.toNat = h ∧ role' = role then some r.2 else none
    | _ => none

/-- Whether a request cannot be delivered: it has found only NACKs for 100 µs, or no route to its target for as long (R262). -/
def State.undeliverable (s : State) (r : Request) : Bool :=
  (r.nacked.any fun t => t + 100000 ≤ s.now) ||
    (r.device != Config.deviceNumber.toNat && (s.routeTo r.device).isNone && r.deadAt.getD r.sentAt + 100000 ≤ s.now)

/-- Whether a home cannot deliver to a role's holder and could not for 100 µs (R311). -/
def State.cannotDeliver (s : State) (key role : Nat) (H : Home) : Bool :=
  (s.deliveries (H.handle key) role).any s.undeliverable ||
    (H.role role).holder.any fun w => w.device.isNone && !(H.role role).queue.isEmpty && (s.gangs.find? w.gang).isSome &&
      !s.joinedTo (coreOf w.gang) (H.handle key) && s.panelLost

/-- Whether a role's delivery stalls now (R311): its record can be posted. -/
def State.stallsNow (s : State) (key role : Nat) : Bool :=
  (s.homes.find? key).any fun H =>
    !H.stalled.getLsbD role && s.cannotDeliver key role H && s.canPost (key / 65536) (H.ctx + 1)

/-- DELIVERY_STALL (R311): STALLED, and a conversation-fault record to the queue of the context that loaded it. -/
def execDeliveryStall (home role : Nat) (s : State) : Host.Outcome State Fault Refusal :=
  .next (match s.homes.find? home with
    | none => s
    | some H =>
      if !s.stallsNow home role then s
      else
        let oldest := (((H.role role).queue.head?).map (·.seq)).getD 0
        let detail := toBytes 8 (H.handle home) ++ toBytes 1 role ++ toBytes 3 0 ++ toBytes 4 oldest.toNat
        let s := (s.touch (H.handle home)).onHome (H.handle home) fun H =>
          { H with stalled := H.stalled ||| BitVec.ofNat 16 (2 ^ role) }
        (s.post (home / 65536) (H.ctx + 1) (mkRecord 6 0 0 5 0 0 0 0 detail)).1)

/-- DELIVERY_RESUME (R311): a route has returned. -/
def execDeliveryResume (home role : Nat) (s : State) : Host.Outcome State Fault Refusal :=
  .next (match s.homes.find? home with
    | none => s
    | some H =>
      if !H.stalled.getLsbD role || s.cannotDeliver home role H then s
      else { s with homes := s.homes.put home { H with stalled := H.stalled &&& ~~~(BitVec.ofNat 16 (2 ^ role)) } })

end Sys2Proof.Machine
end

