-- ==== Sys2Proof/Machine/Copies.lean ====
section
/-! DEFINITION. Copies (R235 to R255): their checks at issue, the copy engine packet by packet, batches, faulted copies with
their records and residuals, the copy sequencer's instructions, and `BULK`. -/

namespace Sys2Proof.Machine

-- Checks at issue (R236, R238)

/-- The shape of a copy. -/
structure Shape where
  rowLen : Nat
  rows : Nat := 1
  dPitch : Nat := 0
  sPitch : Nat := 0

/-- Bytes from the first to the last of one side of a shape. -/
def Shape.span (x : Shape) (pitch : Nat) : Nat := (x.rows - 1) * pitch + x.rowLen

/-- Region and range, then alignment and length, of a copy named by a block (R236). -/
def State.copyCheck (s : State) (b : Nat) (B : Block) (dst src : DWord) (x : Shape) (maxLen : Nat) : Option LaneFault :=
  if region dst = 1 ∧ region src = 1 then some ⟨0x06, dst, false, false⟩
  else if (s.site b B dst (x.span x.dPitch)).isNone then some ⟨0x06, dst, false, false⟩
  else if (s.site b B src (x.span x.sPitch)).isNone then some ⟨0x06, src, false, false⟩
  else if dst.toNat % 16 ≠ 0 then some ⟨0x04, dst, false, false⟩
  else if src.toNat % 16 ≠ 0 then some ⟨0x04, src, false, false⟩
  else if x.rowLen % 16 ≠ 0 || x.rowLen < 16 || maxLen < x.rowLen then some ⟨0x04, dst, false, false⟩
  else none

/-- The address of a counter locator's word (R238). -/
def locatorAddr (loc : Word) : DWord :=
  (if loc.getLsbD 30 then 0x4000000000000000 else 0x6000000000000000) + (loc.setWidth 24).setWidth 64

/-- Whether a locator breaks the field rules of R238. -/
def badLocator (loc : Word) : Bool := loc.extractLsb' 24 6 != 0 || (!loc.getLsbD 31 && loc != 0)

/-- The counter that a locator names, after the checks of its offset (R238). -/
def State.counterOf (s : State) (b : Nat) (B : Block) (loc : Word) : Except LaneFault (List CounterAt) :=
  if !loc.getLsbD 31 then .ok []
  else
    let a := locatorAddr loc
    match s.site b B a 8 with
    | some (.ls m o) => if a.toNat % 8 ≠ 0 then .error ⟨0x04, a, false, false⟩ else .ok [⟨m, o⟩]
    | some (.va _) | some (.global _ _) | none =>
      if a.toNat % 8 ≠ 0 then .error ⟨0x04, a, false, false⟩ else .error ⟨0x06, a, false, false⟩

-- Issue (R235, R246)

/-- Copy slots of a core that are free. -/
def State.freeSlots (s : State) (core : Nat) : Nat := 32 - (s.copies.filter (·.2.core == core)).length

/-- The ranges of windows that a range of the ensemble's pool covers, member by member. -/
def State.poolRanges (s : State) (b : Nat) (B : Block) (a : DWord) : Nat → Nat → List (Nat × Nat × Nat)
  | 0, _ => []
  | fuel + 1, n =>
    if n = 0 then []
    else
      match s.site b B a 1 with
      | some (.ls m o) =>
        let k := Nat.min n (B.lsb - o)
        (m, o, k) :: s.poolRanges b B (a + BitVec.ofNat 64 k) fuel (n - k)
      | some (.va _) | some (.global _ _) | none => []

/-- The ranges of windows that a copy's destinations cover (R246). -/
def State.windowRanges (s : State) (b : Nat) (B : Block) (c : Copy) : List (Nat × Nat × Nat) :=
  if region c.dst = 2 ∧ !c.multi then s.poolRanges b B c.dst 17 c.span
  else c.dsts.filterMap fun d => match d with
    | .ls m o => some (m, o, c.span)
    | .va _ | .global _ _ => none

/-- A copy put in flight. -/
def State.addCopy (s : State) (c : Copy) : State :=
  let id := (s.copies.freeFrom (s.copies.length + 1) 0).getD 0
  let lsHeld := ((s.blocks.find? c.block).map fun B => s.windowRanges c.block B c).getD []
  { s with copies := s.copies.put id { c with lsHeld := lsHeld } }

/-- A copy as its issuer names it: one destination. -/
def State.newCopy (s : State) (b : Nat) (B : Block) (issuer : Nat) (dst src : DWord) (x : Shape) (loc : Word)
    (counters : List CounterAt) (pc : DWord) (mode : Mode) : Copy :=
  { core := B.core, block := b, ctx := s.ctxId (coreNode B.core), issuer := issuer, gang := none, lane := 0, batch := 0,
    pc := pc, mode := mode, secure := (s.core B.core).secure, dst := dst, src := src,
    dsts := (s.site b B dst 1).toList, srcAt := (s.site b B src 1).getD (.va 0), rowLen := x.rowLen, rows := x.rows,
    dPitch := x.dPitch, sPitch := x.sPitch, no := s.ctr * 64, len := x.rowLen * x.rows, locator := loc,
    counters := counters }

-- Batches (R242, R245)

/-- Whether a batch of a gang has finished. -/
def Gang.batchDone (G : Gang) (n : Nat) : Bool := n != G.batch && !G.sealed.contains n

/-- Sealed batches whose copies, and whose predecessors, have finished, taken off the list. -/
def dropDone (busy : Nat → Bool) : List Nat → List Nat
  | [] => []
  | n :: ns => if busy n then n :: ns else dropDone busy ns

/-- The oldest unreported fault of a finished batch whose record has been posted. -/
def Gang.oldestFault (G : Gang) : Option CopyFaultNote :=
  (G.copyFaults.filter fun f => G.batchDone f.batch).foldl (fun (m : Option CopyFaultNote) f =>
    match m with
    | some x => if f.no < x.no then some f else some x
    | none => some f) none

/-- The end of `CPWAIT` for lanes at it: the fault it reports is taken by its lane, the others go on (R245). -/
def State.cpwaitEnd (s : State) (k : Nat) (m : Mask) : State :=
  match s.gangs.find? k with
  | none => s
  | some G =>
    match G.oldestFault with
    | none => s.advance k m
    | some f =>
      if m.getLsbD f.lane then
        let s := s.setGang k { G with copyFaults := G.copyFaults.erase f }
        (s.advance k (m &&& ~~~(laneBit f.lane))).trap k f.lane 0x13 (BitVec.ofNat 64 f.token) (s.lane k f.lane).pc
      else s.advance k m

/-- Whether a `CPWAIT` of a gang may end: few enough batches are open, and the fault it would report has its token. -/
def Gang.cpwaitOver (G : Gang) (n : Nat) : Bool :=
  G.sealed.length ≤ n && G.oldestFault.all fun f => f.token < 2 ^ 32

/-- A gang's batches and its lanes at `CPWAIT` looked at again. -/
def State.settleBatches (s : State) (k : Nat) : State :=
  let busy := fun (n : Nat) => s.copies.any fun c => c.2.gang == some k && c.2.batch == n
  let s := s.onGang k fun G => { G with sealed := dropDone busy G.sealed }
  match s.gangs.find? k with
  | none => s
  | some G =>
    G.waits.foldl (fun s w =>
      match w.kind with
      | .cpwait n =>
        if ((s.gangs.find? k).map (·.cpwaitOver n)).getD false then
          (s.onGang k (·.unwait w.lanes)).cpwaitEnd k w.lanes
        else s
      | .walk _ | .refetch _ | .bar _ _ | .rdv _ | .grow _ _ | .again _ | .remote _ | .monitor _ _ _ _
      | .verdict _ _ _ | .home _ _ _ | .alone _
      | .recv _ _ _ | .parked _ | .rejoin _ _ => s) s

/-- A copy joins its gang's open batch. -/
def State.joinBatch (s : State) (k l : Nat) (c : Copy) : State :=
  match s.gangs.find? k with
  | none => s
  | some G =>
    (s.setGang k { G with openCopies := G.openCopies + 1 }).addCopy
      { c with gang := some k, lane := l, batch := G.batch, no := s.ctr * 64 + l }

/-- The copy that a lane's `CPY` names, or the fault that R236 and R238 give it. -/
def State.planCpy (s : State) (G : Gang) (B : Block) (a b c : Reg) (loc : Word) (l : Nat) : Except LaneFault Copy :=
  let v := G.view l
  let d := v.pair a
  let x := v.pair b
  let n := v.reg c
  if d.2 || x.2 || n.2 then .error ⟨0x07, 0, false, false⟩
  else
    let sh : Shape := { rowLen := n.1.toNat }
    match s.copyCheck G.block B d.1 x.1 sh (2 ^ 24), s.counterOf G.block B loc with
    | some f, _ => .error f
    | none, .error f => .error f
    | none, .ok cs => .ok (s.newCopy G.block B 0 d.1 x.1 sh loc cs s.curPc (G.lane l).mode)

/-- `CPY` (R243): each lane in turn is checked and takes a slot, lowest first; where none is free, that lane and those above it
wait (R235). -/
def execCpy (g : Guard) (a b c : Reg) (loc : Word) (s : State) : Host.Outcome State Fault Refusal :=
  threadOp (.cpy g a b c loc) s fun s k m =>
    match s.gangs.find? k with
    | none => s
    | some G =>
      match s.blocks.find? G.block with
      | none => s
      | some B =>
        ((lanesOf m).foldl (fun (r : State × Bool) l =>
          if r.2 then (r.1.stall k (laneBit l) (.alone "copy slot"), true)
          else
            match s.planCpy G B a b c loc l with
            | .error f => (r.1.raise k false [(l, f)], false)
            | .ok c =>
              if r.1.freeSlots B.core = 0 then (r.1.stall k (laneBit l) (.alone "copy slot"), true)
              else ((r.1.joinBatch k l c).advance k (laneBit l), false)) (s, false)).1

/-- `CPSEAL` (R242, R244). -/
def execCpseal (g : Guard) (s : State) : Host.Outcome State Fault Refusal :=
  threadOp (.cpseal g) s fun s k m =>
    match s.gangs.find? k with
    | none => s
    | some G =>
      if G.openCopies = 0 then s.advance k m
      else if 16 ≤ G.sealed.length then s.stall k m (.again "batches")
      else
        let G := { G with sealed := G.sealed ++ [G.batch], batch := (G.batch + 1) % 65536, openCopies := 0 }
        ((s.setGang k G).advance k m).settleBatches k

/-- `CPWAIT` (R245). -/
def execCpwait (g : Guard) (n : BitVec 4) (s : State) : Host.Outcome State Fault Refusal :=
  threadOp (.cpwait g n) s (blocking fun s k m =>
    match s.gangs.find? k with
    | none => s
    | some G => if G.cpwaitOver n.toNat then s.cpwaitEnd k m else s.stall k m (.cpwait n.toNat))

/-- `OUTST` (R256). -/
def execOutst (g : Guard) (d : BitVec 8) (s : State) : Host.Outcome State Fault Refusal :=
  threadOp (.outst g d) s fun s k m =>
    let n := BitVec.ofNat 32 (s.outstanding k)
    groupThread (fun G _ e l => .results e (G.view l) false 0 [(⟨false, d⟩, n)]) s k m

/-- `STAGE` (R249). -/
def execStage (g : Guard) (n : BitVec 8) (s : State) : Host.Outcome State Fault Refusal :=
  threadOp (.stage g n) s fun s k m =>
    match s.gangs.find? k with
    | none => s
    | some G =>
      match s.blocks.find? G.block with
      | none => s
      | some B =>
        if !B.claimsCopy then s.advance k m
        else if 65535 < B.credits + n.toNat then s.stall k m (.again "credits")
        else
          let open_ := fun (q : Seq) => if q.wait = .gate then { q with wait := .none } else q
          (s.setBlock G.block { B with credits := B.credits + n.toNat, cseq := open_ B.cseq }).advance k m

-- BULK (R255)

/-- What `BULK` names. -/
structure Bulk where
  dst : DWord
  src : DWord
  len : Word
  loc : Word
  rctr : DWord
  mask : Word
  deriving DecidableEq, Repr

/-- The checks 1 and 2 of `BULK`. -/
def bulkFields (v : View) (a : BitVec 8) (b : Src) : Except LaneFault Bulk :=
  let k := fun (i : Nat) => v.reg ⟨true, a + BitVec.ofNat 8 i⟩
  let d := fun (i : Nat) => v.pair ⟨true, a + BitVec.ofNat 8 i⟩
  let m := v.wordS b
  if (List.range 8).any (fun i => (k i).2) || m.2 then .error ⟨0x07, 0, false, false⟩
  else if m.1.extractLsb' 16 16 != 0 || badLocator (k 5).1 then .error ⟨0x01, 0, false, false⟩
  else .ok ⟨(d 0).1, (d 2).1, (k 4).1, (k 5).1, (d 6).1, m.1⟩

/-- Check 4 of `BULK`: each named member's destination and counter. -/
def State.bulkMembers (s : State) (B : Block) (x : Bulk) : Except LaneFault (List (Nat × Nat) × List CounterAt) :=
  let bad : Except LaneFault (List (Nat × Nat) × List CounterAt) := .error ⟨0x06, x.dst, false, false⟩
  match B.ens.bind s.ensembles.find? with
  | none => bad
  | some E =>
    let off := x.dst.toNat % 2 ^ 23
    let cOff := x.loc.toNat % 2 ^ 23
    let named := (List.range 16).filter fun i => x.mask.getLsbD i
    let here := fun (i : Nat) => (E.members[i]?).any fun m => !E.retired.contains m.1
    let counted := x.loc.getLsbD 31
    if region x.dst ≠ 2 || x.dst.getLsbD 23 || (counted && (!x.loc.getLsbD 30 || x.loc.getLsbD 23)) then bad
    else if !named.all here || E.lsb < off + x.len.toNat || (counted && E.lsb < cOff + 8) then bad
    else
      let ms := named.filterMap fun i => (E.members[i]?).map (·.1)
      .ok (ms.map (·, off), if counted then ms.map fun m => ⟨m, cOff⟩ else [])

/-- Check 5 of `BULK`: RCTR, translated when it is in region 000; a walk to wait for. -/
def State.bulkRctr (s : State) (a : Asker) (rctr : DWord) : State × Except Nat (Except LaneFault (Option Nat)) :=
  if rctr = 0 || region rctr = 1 then (s, .ok (.ok none))
  else if region rctr ≠ 0 then (s, .ok (.error ⟨0x06, rctr, false, false⟩))
  else if rctr.toNat % 8 ≠ 0 then (s, .ok (.error ⟨0x04, rctr, false, false⟩))
  else if rctr.toNat / 2 ^ 48 ≠ 0 then (s, .ok (.error ⟨0x06, rctr, false, false⟩))
  else
    match s.lookup a .write rctr.toNat with
    | (s, .wait id) => (s, .error id)
    | (s, .fault f) => (s, .ok (.error (f.at rctr)))
    | (s, .ok t) => (s, .ok (if t.ms then .ok (some (t.addr rctr.toNat)) else .error ⟨0x06, rctr, false, false⟩))

/-- The checks 3 and 4 of `BULK`, and its copy. -/
def State.bulkCopy (s : State) (b : Nat) (B : Block) (x : Bulk) (pc : DWord) (mode : Mode) : Except LaneFault Copy :=
  let sh : Shape := { rowLen := x.len.toNat }
  match s.copyCheck b B x.dst x.src sh (2 ^ 24), s.counterOf b B x.loc with
  | some f, _ => .error f
  | none, .error f => .error f
  | none, .ok cs =>
    let c := { s.newCopy b B 1 x.dst x.src sh x.loc cs pc mode with rctr := x.rctr }
    if x.mask = 0 then .ok c
    else
      match s.bulkMembers B x with
      | .error f => .error f
      | .ok (ds, cs) => .ok { c with dsts := ds.map fun d => .ls d.1 d.2, counters := cs, multi := true }

/-- `BULK` (R255). -/
def execBulk (g : Guard) (a : BitVec 8) (b : Src) (s : State) : Host.Outcome State Fault Refusal :=
  threadOp (.bulk g a b) s fun s k m =>
    match s.gangs.find? k, (lanesOf m).head? with
    | some G, some l =>
      match s.blocks.find? G.block with
      | none => s
      | some B =>
        let fail := fun (s : State) (f : LaneFault) => s.raise k false ((lanesOf m).map (·, f))
        match bulkFields (G.view l) a b with
        | .error f => fail s f
        | .ok x =>
          match s.bulkCopy G.block B x s.curPc (G.lane l).mode with
          | .error f => fail s f
          | .ok c =>
            match s.bulkRctr (s.asker k G m (G.lane l).mode) x.rctr with
            | (s, .error id) => s.stall k m (.walk id)
            | (s, .ok (.error f)) => fail s f
            | (s, .ok (.ok pa)) =>
              if s.freeSlots B.core = 0 then s.stall k m (.again "copy slot")
              else (s.joinBatch k l { c with rctrPa := pa }).advance k m
    | some _, none | none, _ => s

-- The copy sequencer (R250 to R253)

/-- SEQTVAL of an address that a copy-sequencer instruction names: the offset in local store, 0 elsewhere (R198). -/
def seqTval (v : DWord) : Word := if region v = 2 ∨ region v = 3 then v.setWidth 32 else 0

/-- A copy of the copy sequencer: poison, the checks of R236 and `extra` before them, the locator, a slot. -/
def State.seqCopy (s : State) (b : Nat) (B : Block) (issuer : Nat) (poison : Bool) (dst src : DWord) (x : Shape)
    (maxLen : Nat) (badShape : Bool) (loc : Word) : State :=
  if poison then s.seqTrap b false 0x07 0
  else
    match s.copyCheck b B dst src x maxLen, s.counterOf b B loc with
    | some ⟨0x06, v, h, m⟩, _ => s.seqTrap b false 0x06 (seqTval v) h m
    | f, cs =>
      if badShape then s.seqTrap b false 0x04 (seqTval dst)
      else
        match f, cs with
        | some f, _ => s.seqTrap b false f.cause (seqTval f.v) f.host f.migrating
        | none, .error f => s.seqTrap b false f.cause (seqTval f.v) f.host f.migrating
        | none, .ok cs =>
          if s.freeSlots B.core = 0 then s
          else (s.addCopy (s.newCopy b B issuer dst src x loc cs B.cseq.pc .user)).onSeq b false Seq.advance

/-- A body of a copy-sequencer instruction, given the block. -/
def copySeq (f : State → Nat → Block → State) (s : State) (b : Nat) : State :=
  match s.blocks.find? b with
  | none => s
  | some B => f s b B

/-- `XFER` (R250). -/
def execXfer (g : Guard) (a b c : BitVec 8) (loc : Word) (s : State) : Host.Outcome State Fault Refusal :=
  seqOp (.xfer g a b c loc) false s (copySeq fun s k B =>
    let v := B.cseq.view
    let d := v.pair ⟨false, a⟩
    let x := v.pair ⟨false, b⟩
    let n := v.reg ⟨false, c⟩
    s.seqCopy k B 2 (d.2 || x.2 || n.2) d.1 x.1 { rowLen := n.1.toNat } (2 ^ 24) false loc)

/-- `XFER.2d` (R250). -/
def execXfer2d (g : Guard) (a b c : BitVec 8) (loc : Word) (s : State) : Host.Outcome State Fault Refusal :=
  seqOp (.xfer2d g a b c loc) false s (copySeq fun s k B =>
    let v := B.cseq.view
    let d := v.pair ⟨false, a⟩
    let x := v.pair ⟨false, b⟩
    let n := v.pair ⟨false, c⟩
    let w := n.1.toNat
    let sh : Shape := { rowLen := bits w 23 0, rows := bits w 31 24 + 1, dPitch := 16 * bits w 47 32,
                        sPitch := 16 * bits w 63 48 }
    s.seqCopy k B 2 (d.2 || x.2 || n.2) d.1 x.1 sh (2 ^ 24 - 16) false loc)

/-- `XSLIDE` (R251). -/
def execXslide (g : Guard) (a b c : BitVec 8) (loc : Word) (s : State) : Host.Outcome State Fault Refusal :=
  seqOp (.xslide g a b c loc) false s (copySeq fun s k B =>
    let v := B.cseq.view
    let d := v.reg ⟨false, a⟩
    let x := v.pair ⟨false, b⟩
    let n := v.pair ⟨false, c⟩
    let w := n.1.toNat
    let run := bits w 15 0
    let pitch := bits w 47 32
    let sh : Shape := { rowLen := 64, rows := run, dPitch := 64, sPitch := (bits w 55 48 + 1) * pitch }
    let dst : DWord := 0x6000000000000000 + d.1.setWidth 64
    let src := x.1 + BitVec.ofNat 64 (64 * bits w 31 16)
    let bad := run = 0 || 1024 < run || bits w 63 56 ≠ 0 || d.1.toNat % 64 ≠ 0 || pitch % 16 ≠ 0
    s.seqCopy k B 3 (d.2 || x.2 || n.2) dst src sh 64 bad loc)

/-- `XGATE` (R252). -/
def execXgate (g : Guard) (n : BitVec 8) (s : State) : Host.Outcome State Fault Refusal :=
  seqOp (.xgate g n) false s (copySeq fun s k B =>
    if B.credits < n.toNat then s.onSeq k false fun q => { q with wait := .gate }
    else s.setBlock k { B with credits := B.credits - n.toNat, cseq := B.cseq.advance })

/-- `XBUMP` (R253). -/
def execXbump (g : Guard) (d : BitVec 8) (b : Src) (s : State) : Host.Outcome State Fault Refusal :=
  seqOp (.xbump g d b) false s (aluSeq (fun e v =>
    let x := v.pair ⟨false, d⟩
    let y := v.wordS b
    .results e v (x.2 || y.2) y.1 (wideTo true ⟨false, d⟩ (x.1 + y.1.signExtend 64))) false)

/-- The result of `XBUMP.ring` (R253). -/
def ringBump (q b modulus : Word) : Word :=
  if modulus = 0 then q + b else BitVec.ofInt 32 (((q.toNat : Int) + b.toInt) % (modulus.toNat : Int))

/-- `XBUMP.ring` (R253). -/
def execXbumpRing (g : Guard) (d a : BitVec 8) (b : Src) (s : State) : Host.Outcome State Fault Refusal :=
  seqOp (.xbumpRing g d a b) false s (aluSeq (fun e v =>
    let x := v.reg ⟨false, d⟩
    let n := v.reg ⟨false, a⟩
    let y := v.wordS b
    .results e v (x.2 || n.2 || y.2) y.1 [(⟨false, d⟩, ringBump x.1 y.1 n.1)]) false)

-- The copy engine (R235, R237)

/-- The agent that a copy translates as. -/
def State.copyAgent (s : State) (c : Copy) : Agent := { s.agent c.core c.mode with secure := c.secure }

/-- Offset of the current place from the first destination byte, and from the first source byte. -/
def Copy.dOff (c : Copy) : Nat := c.row * c.dPitch + c.off

/-- See `Copy.dOff`. -/
def Copy.sOff (c : Copy) : Nat := c.row * c.sPitch + c.off

/-- Where `o` bytes past an address points for a copy; members' own stores are reached from where they start. -/
def State.copySite (s : State) (c : Copy) (base : Site) (addr : DWord) (multi : Bool) (o : Nat) : Site :=
  match base with
  | .va x => .va (x + o)
  | .global d x => .global d (x + o)
  | .ls m x =>
    if region addr = 2 ∧ !multi then
      ((s.blocks.find? c.block).bind fun B => s.site c.block B (addr + BitVec.ofNat 64 o) 1).getD (.ls m (x + o))
    else .ls m (x + o)

/-- The page among those translated that holds an address. -/
def pageOf (ps : List CopyPage) (va : Nat) : Option CopyPage := ps.find? fun p => va / 2 ^ p.bits == p.va / 2 ^ p.bits

/-- The physical address that a page gives. -/
def CopyPage.addr (p : CopyPage) (va : Nat) : Nat := p.pa + (va - p.va)

/-- A page translated for a copy, unless it has been already (R235). -/
def State.copyPage (s : State) (ag : Agent) (acc : Access) (ps : List CopyPage) (va : Nat) :
    State × Except PageFault (List CopyPage) :=
  if (pageOf ps va).isSome then (s, .ok ps)
  else if 2 ^ 48 ≤ va then (s, .error ⟨0x06, false, false⟩)
  else
    match translateNow ag acc va s with
    | (s, .error f) => (s, .error f)
    | (s, .ok t) => (s, .ok (⟨t.va, t.bits, t.pa, t.ms⟩ :: ps))

/-- An address run cut at the 64 KiB boundaries in it. -/
def pageRuns (va n : Nat) : List (Nat × Nat) :=
  ((List.range (n / 65536 + 2)).map fun i =>
    let a := if i = 0 then va else va / 65536 * 65536 + i * 65536
    let e := Nat.min (va + n) (va / 65536 * 65536 + (i + 1) * 65536)
    (a, e - a)).filter (·.2 != 0)

/-- The rows, and parts of rows, from a place on whose destination offsets lie in `[first, last)`: offsets from the first
destination and source byte and length, and the place after them. -/
def Copy.cut (c : Copy) (first last : Nat) : Nat → Nat → Nat → List Packet × Nat × Nat
  | 0, row, off => ([], row, off)
  | fuel + 1, row, off =>
    let d := row * c.dPitch + off
    if c.rows ≤ row || d < first || last ≤ d then ([], row, off)
    else
      let n := Nat.min (c.rowLen - off) (last - d)
      let r := if off + n = c.rowLen then c.cut first last fuel (row + 1) 0 else ([], row, off + n)
      (⟨d, row * c.sPitch + off, n⟩ :: r.1, r.2)

/-- Bytes from an address to the end of the member's part of the pool in which it lies. -/
def poolLimit (lsb : Nat) (a : DWord) : Nat := if region a = 2 ∧ lsb ≠ 0 then lsb - a.toNat % 2 ^ 23 % lsb else 2 ^ 24

/-- The packets of a part of a row: none crosses a 512-byte boundary of the destination, or a member's part of the pool. -/
def packetsOf (lsb : Nat) (dst src : DWord) (multi : Bool) : Nat → Packet → List Packet
  | 0, _ => []
  | fuel + 1, p =>
    if p.len = 0 then []
    else
      let a := dst + BitVec.ofNat 64 p.dst
      let k := Nat.min (Nat.min p.len (512 - a.toNat % 512))
        (Nat.min (if multi then 2 ^ 24 else poolLimit lsb a) (poolLimit lsb (src + BitVec.ofNat 64 p.src)))
      ⟨p.dst, p.src, k⟩ :: packetsOf lsb dst src multi fuel ⟨p.dst + k, p.src + k, p.len - k⟩

/-- Source pages of a piece translated in order; the first fault. -/
def State.sourcePages (s : State) (ag : Agent) : List (Nat × Nat) → List CopyPage →
    State × Except (PageFault × Nat) (List CopyPage)
  | [], ps => (s, .ok ps)
  | (va, _) :: rs, ps =>
    match s.copyPage ag .read ps va with
    | (s, .error f) => (s, .error (f, va))
    | (s, .ok ps) => s.sourcePages ag rs ps

/-- Whether a place is another device's. -/
def Site.far : Site → Bool
  | .global _ _ => true
  | .va _ | .ls _ _ => false

/-- The next piece of a copy: all that it writes in one destination page, or one packet to another device. The page, and the
source pages of its bytes, are translated before any byte is written; a fault stops the copy at the start of the piece (R235,
R247). A destination in local store or in another device's window has pages of 64 KiB of its offsets (the model's choice, log
entry 50). -/
def State.beginPiece (s : State) (id : Nat) : State :=
  match s.copies.find? id with
  | none => s
  | some c =>
    let lsb := ((s.blocks.find? c.block).map (·.lsb)).getD 0
    let da := c.dst + BitVec.ofNat 64 c.dOff
    let stop := fun (s : State) (f : PageFault) (v : Nat) =>
      { s with copies := s.copies.put id { c with fault := some (f.cause, BitVec.ofNat 64 v, f.host, f.migrating) } }
    let ag := s.copyAgent c
    let (s, dp) : State × Except (PageFault × Nat) (List CopyPage) :=
      match c.dsts with
      | .va x :: _ =>
        match s.copyPage ag .write c.dPages (x + c.dOff) with
        | (s, .error f) => (s, .error (f, x + c.dOff))
        | (s, .ok ps) => (s, .ok ps)
      | .ls _ _ :: _ | .global _ _ :: _ | [] => (s, .ok c.dPages)
    match dp with
    | .error (f, v) => stop s f v
    | .ok dps =>
      let bits := match c.dsts with
        | .va x :: _ => ((pageOf dps (x + c.dOff)).map (·.bits)).getD 16
        | .ls _ _ :: _ | .global _ _ :: _ | [] => 16
      let page := da.toNat / 2 ^ bits * 2 ^ bits
      let last := if c.dsts.any Site.far then c.dOff + (512 - da.toNat % 512) else page + 2 ^ bits - c.dst.toNat
      let rows := if c.dsts.any Site.far then 1 else c.rows
      let (parts, next) := c.cut (page - c.dst.toNat) last rows c.row c.off
      let runs := match c.srcAt with
        | .va x => (parts.map fun p => pageRuns (x + p.src) p.len).flatten
        | .ls _ _ | .global _ _ => []
      match s.sourcePages ag runs c.sPages with
      | (s, .error (f, v)) => stop s f v
      | (s, .ok sps) =>
        let held := match c.dsts with
          | .va x :: _ =>
            match pageOf dps (x + c.dOff) with
            | some p =>
              let low := Nat.max x p.va
              let high := Nat.min (x + c.span) (p.va + 2 ^ p.bits)
              [(p.addr low, high - low)]
            | none => []
          | .ls _ _ :: _ | .global _ _ :: _ | [] => []
        { s with copies := s.copies.put id { c with
          dPages := dps, sPages := sps, held := (c.held ++ held).dedup, next := next,
          todo := (parts.map fun p => packetsOf lsb c.dst c.src c.multi (p.len / 16 + 1) p).flatten } }

/-- Bytes of region 000 that a copy reads at their pkg points, by its own translations. -/
def State.copyRead (s : State) (ps : List CopyPage) : List (Nat × Nat) → State × List PByte
  | [] => (s, [])
  | (va, n) :: rs =>
    let (s, bs) := match pageOf ps va with
      | some p => if p.ms then (s, s.dram (p.addr va) n) else s.homeRead (p.addr va) n
      | none => (s, [])
    let (s, more) := s.copyRead ps rs
    (s, bs ++ more)

/-- Bytes that a copy writes in region 000: the issuing core's L1 and die's RDC write their dirty bytes of each sector back
and give the sector up first (R237). -/
def State.copyWrite (s : State) (core : Nat) (ws : SMap PByte) (ms : Bool) : State :=
  let node := coreNode core
  let s := (groupBy 32 ws).foldl (fun s g =>
    let key := l1Key g.1 (s.core core).secure
    let s := (s.l1Flush core key).rdcFlush node g.1
    let s := s.setCore core { s.core core with l1 := (s.core core).l1.del key }
    { s with rdc := s.rdc.del (rdcKey node g.1) }) s
  if ms then s.baseWrite ws else s.homeWrite ws

/-- A request of a copy's packet. -/
def State.copyAsk (s : State) (id : Nat) (c : Copy) (device off : Nat) (kind : ReqKind) : State × Nat :=
  s.send { gang := c.gang, lane := c.lane, pc := c.pc, device := device, seq := 0, offset := off, kind := kind,
           origin := .copy id, vmid := (s.ctxs.get {} c.ctx).vmid, secure := c.secure }

/-- A packet's bytes written to a destination of this device. -/
def State.copyPut (s : State) (c : Copy) (d : Site) (bs : List PByte) : State :=
  match d with
  | .va x =>
    match pageOf c.dPages x with
    | some p => s.copyWrite c.core (runAt (p.addr x) bs) p.ms
    | none => s
  | .ls m o => s.lsWrite m (runAt o bs)
  | .global _ _ => s

/-- RCTR's additions at the end of a `BULK`, once for each destination (R255). -/
def State.copyRctr (s : State) (c : Copy) : State :=
  if c.rctr = 0 then s
  else
    c.dsts.foldl (fun s _ =>
      match c.rctrPa, c.gang with
      | some pa, _ => s.countMem pa (BitVec.ofNat 32 c.len) false
      | none, some k =>
        (s.send (s.ask k c.lane c.pc (c.rctr.toNat / 2 ^ 43 % 2 ^ 18) (c.rctr.toNat % 2 ^ 43)
          (.count (BitVec.ofNat 32 c.len) false) .rctr)).1
      | none, none => s) s

/-- A copy finished: its slot is free, and its batch is looked at (R242). -/
def State.finishCopy (s : State) (id : Nat) (c : Copy) : State :=
  let s := { s with copies := s.copies.del id }
  match c.gang with
  | some k => s.settleBatches k
  | none => s

/-- Whether the target's window takes the RCTR additions of a copy that ends (R261). -/
def State.rctrRoom (s : State) (c : Copy) : Bool :=
  c.rctr == 0 || c.rctrPa.isSome || s.canSend (c.rctr.toNat / 2 ^ 43 % 2 ^ 18) c.dsts.length

/-- A copy put back, or finished when every byte has been performed (R235). -/
def State.endPiece (s : State) (id : Nat) (c : Copy) : State :=
  if c.row = c.rows && s.rctrRoom c then (s.copyRctr c).finishCopy id c else { s with copies := s.copies.put id c }

/-- A packet performed: counted, and taken off the piece; after the last the copy goes on to the next piece or finishes (R237,
R239). -/
def State.packetDone (s : State) (id : Nat) (c : Copy) (p : Packet) : State :=
  let s := c.counters.foldl (fun s x => s.countLs x.block x.off (BitVec.ofNat 32 p.len) false) s
  let c := { c with todo := c.todo.erase p, awaiting := none }
  if !c.todo.isEmpty then { s with copies := s.copies.put id c }
  else s.endPiece id { c with row := c.next.1, off := c.next.2, arrived := [] }

/-- The bytes that a packet carries, read where its source points. -/
def State.packetBytes (s : State) (c : Copy) (p : Packet) : State × List PByte :=
  match s.copySite c c.srcAt c.src false p.src with
  | .va x => s.copyRead c.sPages (pageRuns x p.len)
  | .ls m o => (s, s.lsRead m o p.len)
  | .global _ _ => (s, (c.arrived.find? p.src).getD [])

/-- One packet of a copy performed, or its request to another device sent, as far as that device's window takes it (R261). A
piece whose source is another device's is first brought here whole. -/
def State.doPacket (s : State) (id : Nat) (c : Copy) (p : Packet) : State :=
  let missing := c.todo.filter fun q => (c.arrived.find? q.src).isNone
  match s.copySite c c.srcAt c.src false ((missing.headD p).src), missing with
  | .global d o, q :: _ =>
    if !s.canSend d 1 then s
    else
      let (s, r) := s.copyAsk id c d o (.load q.len)
      { s with copies := s.copies.put id { c with awaiting := some r } }
  | .global _ _, [] | .va _, _ | .ls _ _, _ =>
    let (s, bs) := s.packetBytes c p
    match c.dsts.map fun d => s.copySite c d c.dst c.multi p.dst with
    | [.global d o] =>
      if bs.any (·.2) then
        { s with copies := s.copies.put id { c with
          fault := some (0x07, c.src + BitVec.ofNat 64 p.src, false, false), todo := [] } }
      else if !s.canSend d 1 then s
      else
        let (s, r) := s.copyAsk id c d o (.store (bs.mapIdx fun i b => (o + i, b.1)))
        { s with copies := s.copies.put id { c with awaiting := some r } }
    | ds => (ds.foldl (fun s d => s.copyPut c d bs) s).packetDone id c p

/-- `COPY_PACKET_PERFORMED` (R235, R237): the next piece is begun when none is under way, and one of its packets is
performed. -/
def execCopyPacketPerformed (copy : Nat) (s : State) : Host.Outcome State Fault Refusal :=
  let idle := (s.copies.find? copy).any fun c => c.fault.isNone && c.todo.isEmpty && c.row != c.rows
  let s := if idle then s.beginPiece copy else s
  match s.copies.find? copy with
  | none => .next s
  | some c =>
    if c.fault.isSome || c.awaiting.isSome then .next s
    else
      match c.todo[Config.freeNat s.ctr copy % c.todo.length]? with
      | none => .next (if c.row = c.rows then s.endPiece copy c else s)
      | some p => .next (s.doPacket copy c p)

/-- The reply to a copy's request. -/
def State.copyReply (s : State) (id req : Nat) (r : Request) (reply : ReplyKind) : State :=
  let s := { s with requests := s.requests.del req }
  match s.copies.find? id with
  | none => s
  | some c =>
    let stop := fun (cause : BitVec 8) =>
      let c := { c with fault := some (cause, r.addr, false, false), todo := [], awaiting := none, arrived := [] }
      { s with copies := s.copies.put id c }
    let asked := fun (base : Site) (addr : DWord) (multi : Bool) (o : Nat) =>
      s.copySite c base addr multi o == .global r.device r.offset
    if c.awaiting ≠ some req then s
    else
      match reply with
      | .ack =>
        match c.todo.find? fun p => c.dsts.any fun d => asked d c.dst c.multi p.dst with
        | some p => s.packetDone id c p
        | none => s
      | .data bs =>
        match c.todo.find? fun p => asked c.srcAt c.src false p.src with
        | some p => { s with copies := s.copies.put id { c with awaiting := none, arrived := c.arrived.put p.src bs } }
        | none => s
      | .fault cause => stop cause
      | .nack | .bound _ _ | .conv _ _ _ => s

-- Faulted copies (R247, R254, R351)

/-- The residual descriptor (Table 12.1). -/
def Copy.residual (c : Copy) (cause : BitVec 8) : List Byte :=
  let two := c.rows ≠ 1
  toBytes 8 (c.dst.toNat + c.dOff) ++ toBytes 8 (c.src.toNat + c.sOff) ++ toBytes 4 (c.rowLen - c.off) ++
    toBytes 2 (c.rows - 1 - c.row) ++ toBytes 2 (if two then c.dPitch / 16 else 0) ++
    toBytes 2 (if two then c.sPitch / 16 else 0) ++ toBytes 1 cause.toNat ++ toBytes 1 c.issuer ++
    toBytes 4 c.locator.toNat

/-- The copy that a residual stands for, to be issued anew. -/
def Copy.rest (c : Copy) : Copy :=
  { c with todo := [], dPages := [], sPages := [], held := [], awaiting := none, arrived := [] }

/-- The record of a copy fault (kind 3). -/
def State.copyRecord (s : State) (c : Copy) (cause : BitVec 8) (v : DWord) (host migrating : Bool) : List Byte :=
  let who := match c.gang with
    | some k => whoOf k c.lane
    | none => whoOf c.block 0
  mkRecord 3 cause.toNat ((if host then 1 else 0) + if migrating then 2 else 0) 3
    (((s.blocks.find? c.block).map (·.tag)).getD 0) who c.pc v (c.residual cause)

/-- The number of a token of a context's queue among the device's copy tokens. -/
def tokenKey (ctx tok : Nat) : Nat := (ctx + 1) * 2 ^ 64 + tok

/-- A faulted copy posted: the token that `FRESUME` takes, and a note for the `CPWAIT` of a gang that issued it. -/
def State.noteFault (s : State) (c : Copy) (tok : Nat) : State :=
  let s : State := match c.gang with
    | some k => s.onGang k fun G => { G with copyFaults := G.copyFaults ++ [⟨c.lane, c.batch, c.no, tok⟩] }
    | none => s
  { s with copyTokens := s.copyTokens.put (tokenKey c.ctx tok) ({ gang := c.gang, residual := c.rest } : CopyToken) }

/-- Whether a gang has a lane left. -/
def State.gangLives (s : State) (k : Nat) : Bool := ((s.gangs.find? k).map (·.live != 0)).getD false

/-- A stopped copy reported: its record posted to the context's queue, its slot freed. -/
def State.reportCopy (s : State) (id : Nat) (c : Copy) (cause : BitVec 8) (v : DWord) (host migrating : Bool) : State :=
  let node := coreNode c.core
  let q := c.ctx + 1
  if !s.canPost node q then s
  else
    match c.gang with
    | some k =>
      if !s.gangLives k then (s.postLate k c.lane 3 cause c.pc v (c.residual cause)).finishCopy id c
      else
        match s.post node q (s.copyRecord c cause v host migrating) with
        | (s, some t) => (s.noteFault c t.toNat).finishCopy id c
        | (s, none) =>
          let mine := fun (h : Held) => if h.id = s.heldNext - 1 then { h with gang := some k } else h
          let s := { s with overflow := s.overflow.adjust node (List.map mine) }
          (s.noteFault c (2 ^ 32 + (s.heldNext - 1))).finishCopy id c
    | none =>
      let (s, t) := s.post node q (s.copyRecord c cause v host migrating)
      let tok := (t.map (·.toNat)).getD (2 ^ 32 + (s.heldNext - 1))
      let s := s.onSeq c.block false fun q =>
        if q.copyFault.isSome || q.run != .running then q else { q with copyFault := some (c.pc, tok) }
      (s.noteFault c tok).finishCopy id c

/-- `COPY_FAULT` (R247): the copy meets the fault if it has not yet, and is reported. -/
def execCopyFault (copy : Nat) (s : State) : Host.Outcome State Fault Refusal :=
  let idle := (s.copies.find? copy).any fun c => c.fault.isNone && c.todo.isEmpty
  let s := if idle then s.beginPiece copy else s
  match s.copies.find? copy with
  | none => .next s
  | some c =>
    match c.fault with
    | none => .next s
    | some (cause, v, host, migrating) => .next (s.reportCopy copy c cause v host migrating)

end Sys2Proof.Machine
end

