-- ==== Sys2Proof/Machine/Fabric.lean ====
section
/-! DEFINITION. Events of the fabric and of what waits (R135, R217, R257 to R265, R293, R294): combining buffers, requests that
arrive and replies, NACKs and lost routes, links, monitors, refetches and translation walks. -/

namespace Sys2Proof.Machine

-- Requests and replies

/-- Whether a reply answers a request of a kind. -/
def suits (kind : ReqKind) (reply : ReplyKind) : Bool :=
  match reply with
  | .nack => true
  | .fault c =>
    match kind with
    | .conv _ => false
    | .load _ | .store _ | .atom _ _ _ | .cas _ _ _ | .red _ _ _ | .count _ _ | .seal => c == 0x05 || c == 0x06 || c == 0x0D
  | .ack =>
    match kind with
    | .store _ | .red _ _ _ | .count _ _ | .seal | .conv (.credit _ _ _) | .conv (.ended _ _ _)
    | .conv (.back _ _ _ _) => true
    | .load _ | .atom _ _ _ | .cas _ _ _ | .conv _ => false
  | .data bs =>
    match kind with
    | .load n => bs.length == n
    | .atom _ t _ | .cas t _ _ => bs.length == t.bytes
    | .store _ | .red _ _ _ | .count _ _ | .seal | .conv _ => false
  | .bound _ _ =>
    match kind with
    | .conv (.bind _ _ _ _ _) => true
    | .load _ | .store _ | .atom _ _ _ | .cas _ _ _ | .red _ _ _ | .count _ _ | .seal | .conv _ => false
  | .conv code _ _ =>
    match kind with
    | .conv (.bind _ _ _ _ _) => code != 0
    | .conv (.credit _ _ _) | .conv (.ended _ _ _) | .conv (.back _ _ _ _) => false
    | .conv _ => true
    | .load _ | .store _ | .atom _ _ _ | .cas _ _ _ | .red _ _ _ | .count _ _ | .seal => false

/-- A request answered, whoever issued it (R260). -/
def State.replied (s : State) (id : Nat) (r : Request) (reply : ReplyKind) : State :=
  match r.origin with
  | .copy c => s.copyReply c id r reply
  | .conv =>
    match r.kind with
    | .conv ask => s.convReply id r ask reply
    | .load _ | .store _ | .atom _ _ _ | .cas _ _ _ | .red _ _ _ | .count _ _ | .seal => s.answered id r reply
  | .load | .store | .atom | .red | .gsig | .rctr => s.answered id r reply

/-- A request performed at this device, with its reply; none where the reply comes later (R257, R304). -/
def State.arrived (s : State) (source vmid seq : Nat) (secure : Bool) (off : Nat) (kind : ReqKind) :
    State × Option ReplyKind :=
  match s.recordedReply source seq kind with
  | some r => (s, some r)
  | none =>
    match kind with
    | .conv ask =>
      match s.convAsked source seq vmid ask with
      | (s, some r) => (s.recordReply source seq kind r, some r)
      | (s, none) => (s, none)
    | .load _ | .store _ | .atom _ _ _ | .cas _ _ _ | .red _ _ _ | .count _ _ | .seal =>
      let (s, r) := s.perform vmid secure off kind
      (s.recordReply source seq kind r, some r)

/-- The store that has arrived last is one that this device sent itself: it is answered when it is performed. -/
def State.tieTorn (s : State) (id : Nat) : State :=
  { s with torn := s.torn.mapIdx fun i t => if i + 1 = s.torn.length then { t with request := some id } else t }

/-- REMOTE_REQUEST (R257, R261): a request of another device, or one that this device sent to its own window, which the reply
answers at once unless it is a store that is still being performed (R279). -/
def execRemoteRequest (source vmid seq : Nat) (secure : Bool) (offset : Nat) (kind : ReqKind) (s : State) :
    Host.Outcome State Fault Refusal :=
  .next (
    if source = Config.deviceNumber.toNat then
      match List.find? (fun (x : Nat × Request) => x.2.device == source && x.2.seq == seq && x.2.kind == kind) s.requests with
      | none => s
      | some (id, r) =>
        if s.torn.any (·.request == some id) then s
        else
          let n := s.torn.length
          match s.arrived source vmid seq secure offset kind with
          | (s, some reply) => if n < s.torn.length then s.tieTorn id else s.replied id r reply
          | (s, none) => s
    else (s.arrived source vmid seq secure offset kind).1)

/-- Stores that have arrived go on, and those that are performed whole are answered (R279). -/
def State.tear (s : State) : State :=
  if s.torn.isEmpty then s
  else
    let (s, ts) := s.tearAll 0 [] s.torn
    let s := { s with torn := ts.filter fun t => !t.writes.isEmpty }
    (ts.filter (·.writes.isEmpty)).foldl (fun s t =>
      match t.request.bind fun id => (s.requests.find? id).map fun r => (id, r) with
      | some (id, r) => s.replied id r .ack
      | none => s) s

/-- A NACK (R261): the request was not performed, and waits to be sent again. -/
def Request.turnedAway (r : Request) (now : Nat) : Request :=
  { r with nacked := some (r.nacked.getD now), idle := true, nackAt := now }

/-- REMOTE_REPLY (R260): the reply of another device. -/
def execRemoteReply (request : Nat) (reply : ReplyKind) (s : State) : Host.Outcome State Fault Refusal :=
  .next (match s.requests.find? request with
    | none => s
    | some r =>
      if r.idle || r.device == Config.deviceNumber.toNat || !suits r.kind reply then s
      else
        match reply with
        | .nack => { s with requests := s.requests.put request (r.turnedAway s.now) }
        | .ack | .data _ | .fault _ | .bound _ _ | .conv _ _ _ => s.replied request r reply)

/-- NACK_RESEND (R261): 1 µs after the NACK, with the same number. -/
def execNackResend (request : Nat) (s : State) : Host.Outcome State Fault Refusal :=
  .next (match s.requests.find? request with
    | none => s
    | some r =>
      if r.idle && r.nackAt + 1000 ≤ s.now then { s with requests := s.requests.put request { r with idle := false } }
      else s)

/-- ROUTE_TIMEOUT (R262): no route for 100 µs, or NACKs for 100 µs. What a home sends to a holder stays with the home
(R311). -/
def execRouteTimeout (request : Nat) (s : State) : Host.Outcome State Fault Refusal :=
  .next (match s.requests.find? request with
    | none => s
    | some r =>
      let nacked := r.nacked.any fun t => t + 100000 ≤ s.now
      let fromHome := match r.kind with
        | .conv (.deliver _ role _ _ _ _ _ _ _) | .conv (.ended _ role _) => decide (role < 16)
        | _ => false
      if fromHome || !s.undeliverable r then s else s.replied request r (.fault (r.lost nacked)))

/-- COMBINE_TIMEOUT (R258): an open entry is sent; while the target's window is full it waits (R261). -/
def execCombineTimeout (core entry : Nat) (s : State) : Host.Outcome State Fault Refusal :=
  .next (match (s.combine.get [] core)[entry]? with
    | none => s
    | some e => if s.canSend e.device 1 then s.closeEntry core entry else s)

-- Links (R264, R265)

/-- A link of another device, as a route notice names it (R263). -/
def isFarLink (l : Nat) : Bool :=
  let d := l / 4096 - 1
  4096 ≤ l && decide (d < 32 * Config.groups) && d != Config.deviceNumber.toNat &&
    (decide (l % 4096 < 31) || decide (32 ≤ l % 4096 ∧ l % 4096 < 288))

/-- FLIT_CRC_FAIL (R265): the replay is counted in its 1 ms window; at 16 an interrupt to H, at 256 retraining. -/
def execFlitCrcFail (link : Nat) (s : State) : Host.Outcome State Fault Refusal :=
  let l := s.links.get {} link
  if !isLink link then .fault .noSuchPart
  else .next (
    if !linkInUse link || l.dead || l.training then s
    else
      let w := s.now / 1000000
      let n := (if l.window = w then l.replays else 0) + 1
      let l := { l with window := w, replays := n, training := decide (256 ≤ n), attempts := 0 }
      let s := { s with links := s.links.put link l }
      if n = 16 then
        let r := mkRecord 12 0 0 7 0 0 0 ((Config.freeBits 0 (2 ^ 34 + 3) link).setWidth 64) (toBytes 4 link)
        (s.post 0 0 r).1
      else s)

/-- A request after a link's death: when its route led over the link it is sent again over another, with its number, or
there is no route from now on (R262, R265). `before` is the device as it was. -/
def State.reroute (s before : State) (r : Request) : Request :=
  let own := Config.deviceNumber.toNat
  if r.device = own || s.route own r.device = before.route own r.device then r
  else if (s.routeTo r.device).isSome then { r with sentAt := s.now }
  else { r with deadAt := some s.now }

/-- A link declared dead. -/
def State.linkDies (s : State) (link : Nat) (l : Link) : State :=
  let t := { s with links := s.links.put link { l with attempts := 3, training := false, dead := true, diedAt := s.now } }
  { t with requests := t.requests.mapV fun _ (r : Request) => t.reroute s r }

/-- LINK_RETRAIN (R262, R265): after a third failure the link is dead, and what was on it takes another route. A link of another
device dies by the notice of its route. -/
def execLinkRetrain (link : Nat) (ok : Bool) (s : State) : Host.Outcome State Fault Refusal :=
  let l := s.links.get {} link
  if isFarLink link then .next (if l.dead || ok then s else s.linkDies link l)
  else if !isLink link then .fault .noSuchPart
  else .next (
    if l.dead || !l.training then s
    else if ok then { s with links := s.links.put link { l with training := false, attempts := 0, replays := 0 } }
    else if l.attempts < 2 then { s with links := s.links.put link { l with attempts := l.attempts + 1 } }
    else s.linkDies link l)

-- Monitors (R293, R294)

/-- MONITOR_EVALUATE (R293). -/
def execMonitorEvaluate (monitor : Nat) (s : State) : Host.Outcome State Fault Refusal :=
  .next (match s.monitors.find? monitor with
    | none => s
    | some m => if m.pending && m.seat != .polling then (s.evaluate monitor).finishWaits else s)

/-- MONITOR_POLL (R293). -/
def execMonitorPoll (monitor : Nat) (s : State) : Host.Outcome State Fault Refusal :=
  .next (match s.monitors.find? monitor with
    | none => s
    | some m => if m.seat == .polling then (s.evaluate monitor).finishWaits else s)

/-- A waiter whose limit has passed: its condition wins if it holds, and else its wait ends with the word as read. -/
def MonWait.expire (w : MonWait) (counter : Nat) (word : DWord × Bool) (o : MonCond → Option DWord) : MonWait :=
  let w := w.evaluate o
  if w.ended.isNone && w.limit.any fun t => decide (t ≤ counter) then
    { w with ended := some (w.cond.value word.1, word.2) }
  else w

/-- WAITA_TIMEOUT (R294). -/
def execWaitaTimeout (gang lane : Nat) (s : State) : Host.Outcome State Fault Refusal :=
  let counter := (s.counter (coreNode (coreOf gang))).toNat
  let expire := fun (_ : Nat) (m : Monitor) =>
    { m with waiters := m.waiters.map fun w =>
        if w.who == .lane gang lane then w.expire counter (s.watched m.place) (s.outcome m.place) else w }
  .next ({ s with monitors := s.monitors.mapV expire } : State).finishWaits

-- Fetching and translating

/-- Lanes and sequencers of a core that wait for a line go on, and know that it was fetched again for them. -/
def State.unrefetch (s : State) (core tag : Nat) : State :=
  let free := fun (q : Seq) => if q.wait = .refetch tag then { q with wait := .none, refetched := some tag } else q
  let told := fun (G : Gang) =>
    (G.waits.filter fun w => w.kind == .refetch tag && w.lanes != 0).map fun w => (w.lanes, tag)
  { s with
    gangs := s.gangs.mapV fun k (G : Gang) =>
      if coreOf k = core then
        { G with waits := G.waits.filter fun w => w.kind != .refetch tag, refetched := G.refetched ++ told G }
      else G
    blocks := s.blocks.mapV fun _ (B : Block) =>
      if B.core = core then { B with mseq := free B.mseq, cseq := free B.cseq } else B }

/-- INSTRUCTION_REFETCH (R135): the line comes again from its home, and is checked where it is fetched. -/
def execInstructionRefetch (core line : Nat) (s : State) : Host.Outcome State Fault Refusal :=
  let (s, l) := s.lineAt line false
  .next ((s.icachePut core l).unrefetch core line)

/-- The outcome of a walk delivered to one of those that wait for it (R217). -/
def State.tellWalk (s : State) (id : Nat) (fault : Option WalkFault) (r : Requester) : State :=
  match r with
  | .lanes k m => s.onGang k fun G =>
    { G with
      waits := G.waits.filter fun w => w.kind != .walk id
      walkFaults := G.walkFaults ++ (fault.map fun f => { f with lanes := m }).toList }
  | .seq b matrix => s.onSeq b matrix fun q =>
    if q.wait = .walk id then { q with wait := .none, walkFaults := q.walkFaults ++ fault.toList } else q

/-- Whether a walk has one of the 16 walkers of its base die: they take the walks in the order in which these were asked for
(R217). -/
def State.walking (s : State) (w : Walk) : Bool :=
  (s.walks.filter fun (x : Nat × Walk) => x.2.node == w.node && decide (x.2.no < w.no)).length < 16

/-- TRANSLATION_WALK_DONE (R217). -/
def execTranslationWalkDone (walk : Nat) (s : State) : Host.Outcome State Fault Refusal :=
  .next (match s.walks.find? walk with
    | none => s
    | some w =>
      if !s.walking w then s
      else
      let ag : Agent := ⟨w.node, w.hyp, w.asid, w.vmid, w.secure, false⟩
      let (s, fault) := match fullWalk ag (w.page * 65536) s with
        | (s, .ok t) => (s.fillStlb w.node t, (none : Option WalkFault))
        | (s, .error f) => (s, some ⟨~~~0, w.page, w.hyp, f.cause, f.host, f.migrating⟩)
      let s := { s with walks := s.walks.del walk }
      w.requesters.foldl (fun s r => s.tellWalk walk fault r) s)

end Sys2Proof.Machine
end

