-- ==== Sys2Proof/Machine/System.lean ====
section
/-! DEFINITION. System instructions (R324 to R344): service calls and returns, privileged registers, `TLBINV`, tokens, and the
events of the fault queues and of parked lanes (R332 to R335). -/

namespace Sys2Proof.Machine

-- Service calls and returns (R331, R340)

/-- `SYS` (R340); in H mode it raises cause 0x03. -/
def execSys (g : Guard) (n : BitVec 16) (s : State) : Host.Outcome State Fault Refusal :=
  threadOp (.sys g n) s fun s k m =>
    (lanesOf m).foldl (fun s l =>
      let L := s.lane k l
      if L.mode = .hypervisor then s.trap k l 0x03 0 L.pc
      else s.trap k l 0x08 (n.setWidth 64) (succ L.pc)) s

/-- `HCALL` (R340). -/
def execHcall (g : Guard) (n : BitVec 16) (s : State) : Host.Outcome State Fault Refusal :=
  threadOp (.hcall g n) s fun s k m =>
    (lanesOf m).foldl (fun s l => s.trap k l 0x09 (n.setWidth 64) (succ (s.lane k l).pc)) s

/-- A return of each active lane to its own saved PC and mode; a lane that comes back to U mode counts again as arrived where it
has arrived (R284). -/
def returns (f : Lane → Lane) : ThreadBody := fun s k m =>
  (s.onGang k fun G => (lanesOf m).foldl (fun G l => G.putLane l (f (G.lane l))) (G.settled m)).settleAll k

/-- `SRET` (R331). -/
def execSret (g : Guard) (s : State) : Host.Outcome State Fault Refusal := threadOp (.sret g) s (returns Lane.sret)

/-- `HRET` (R331). -/
def execHret (g : Guard) (s : State) : Host.Outcome State Fault Refusal := threadOp (.hret g) s (returns Lane.hret)

-- Privileged registers (R328, R341)

/-- PASSCNT of a cluster (Table 8.1). -/
def State.passcnt (s : State) (c : Nat) : Word :=
  BitVec.ofNat 32 (4096 * s.floor c + 256 * (s.cluster c).hmin.toNat + 16 * (s.cluster c).bel.toNat + s.eff c)

/-- PWRSET as a word (Table 5.2). -/
def Pwrset.word (p : Pwrset) : Word := BitVec.ofNat 32 (65536 * p.step.toNat + 16 * p.weight.toNat + p.floor.toNat)

/-- PWRSET as a word stores it (Table 5.2). -/
def Pwrset.ofWord (v : Word) : Pwrset :=
  let w : BitVec 8 := v.extractLsb' 4 8
  { step := v.extractLsb' 16 8, weight := if w = 0 then 1 else w, floor := min2 (v.extractLsb' 0 2) }

/-- HELD of a gang's GHOLD: the hold is set, so every U lane is stopped (R329). -/
def Gang.ghold (G : Gang) : Word := if G.hold then 3 else 0

/-- A privileged register as lane `l` reads it (Table 16.2). -/
def State.privRead (s : State) (k : Nat) (G : Gang) (l n : Nat) : DWord :=
  let L := G.lane l
  let core := coreOf k
  let c := s.ctxOf core
  match n with
  | 0x00 => L.spc
  | 0x01 => L.scause.setWidth 64
  | 0x02 => L.stval
  | 0x03 => (G.sstat l).setWidth 64
  | 0x04 | 0x05 | 0x06 | 0x07 => L.sscratch.get 0 (n - 0x04)
  | 0x08 => L.ospc
  | 0x09 => L.oscause.setWidth 64
  | 0x0A => L.ostval
  | 0x0B => L.osstat.setWidth 64
  | 0x10 => L.hpc
  | 0x11 => L.hcause.setWidth 64
  | 0x12 => L.htval
  | 0x13 => L.hstat.setWidth 64
  | 0x14 | 0x15 | 0x16 | 0x17 => L.hscratch.get 0 (n - 0x14)
  | 0x20 => c.stvec
  | 0x21 => s.htvec
  | 0x22 => c.hdeleg.setWidth 64
  | 0x23 => BitVec.ofNat 64 c.asid
  | 0x24 => BitVec.ofNat 64 c.vmid
  | 0x25 => if (s.core core).secure then 1 else 0
  | 0x26 => (s.passcnt (clusterOf core)).setWidth 64
  | 0x27 => (s.core core).pwrset.word.setWidth 64
  | 0x28 => c.contpc.setWidth 64
  | 0x29 => G.ghold.setWidth 64
  | 0x2A => c.sfq
  | 0x2B => s.hfq
  | _ => 0

/-- `MFS` (R341). -/
def execMfs (g : Guard) (d num : BitVec 8) (s : State) : Host.Outcome State Fault Refusal :=
  threadOp (.mfs g d num) s fun s k m =>
    groupThread (fun G _ e l =>
      .results e (G.view l) false 0
        (wideTo (privWidth num.toNat == some 64) ⟨false, d⟩ (s.privRead k G l num.toNat))) s k m

/-- HDELEG as a word stores it (R328). -/
def hdelegOf (v : Word) : Word := (v ||| 0x100) &&& ~~~0xFFE10201

/-- A per-lane privileged register written; none where the register is not held per lane. OSSTAT, whose bits no table gives, is
stored whole (DESIGN CHOICE: log entry 88). -/
def Lane.privWrite (L : Lane) (n : Nat) (v : DWord) : Lane :=
  let w : Word := v.setWidth 32
  match n with
  | 0x00 => { L with spc := v }
  | 0x01 => { L with scause := w }
  | 0x02 => { L with stval := v }
  | 0x03 => { L with spm := low2 (w.extractLsb' 8 2) }
  | 0x04 | 0x05 | 0x06 | 0x07 => { L with sscratch := L.sscratch.write 0 (n - 0x04) v }
  | 0x08 => { L with ospc := v }
  | 0x09 => { L with oscause := w }
  | 0x0A => { L with ostval := v }
  | 0x0B => { L with osstat := w }
  | 0x10 => { L with hpc := v }
  | 0x11 => { L with hcause := w }
  | 0x12 => { L with htval := v }
  | 0x13 => { L with hpm := low2 (w.extractLsb' 8 2) }
  | 0x14 | 0x15 | 0x16 | 0x17 => { L with hscratch := L.hscratch.write 0 (n - 0x14) v }
  | _ => L

/-- The memberships that a write to SSTAT removes (RMEM is W1C). -/
def Gang.clearRmem (G : Gang) (l : Nat) (v : Word) : Gang :=
  let cut := fun (i : Nat) (e : Reconv) =>
    if v.getLsbD (16 + i) then
      { e with members := e.members &&& ~~~(laneBit l), arrived := e.arrived &&& ~~~(laneBit l) }
    else e
  { G with reconv := (G.reconv.mapV cut).filter fun e => e.2.members != 0 }.settleReconv

/-- A change made to the context that a die runs. -/
def State.onCtx (s : State) (node : Nat) (f : Ctx → Ctx) : State :=
  { s with ctxs := s.ctxs.put (s.ctxId node) (f (s.ctxs.get {} (s.ctxId node))) }

/-- A privileged register that is not held per lane written (R328, R341). -/
def State.privWriteShared (s : State) (k n : Nat) (v : DWord) : State :=
  let core := coreOf k
  let node := coreNode core
  let w : Word := v.setWidth 32
  match n with
  | 0x20 => s.onCtx node fun c => { c with stvec := v }
  | 0x21 => { s with htvec := v }
  | 0x22 => s.onCtx node fun c => { c with hdeleg := hdelegOf w }
  | 0x23 => s.onCtx node fun c => { c with asid := w.toNat % 1024 }
  | 0x24 => s.onCtx node fun c => { c with vmid := w.toNat % 64 }
  | 0x25 => s.setCore core { s.core core with secure := w.getLsbD 0 }
  | 0x26 =>
    let c := clusterOf core
    { s with clusters := s.clusters.put c { s.cluster c with hmin := min2 (w.extractLsb' 8 2) } }
  | 0x27 => s.setCore core { s.core core with pwrset := .ofWord w }
  | 0x28 => s.onCtx node fun c => { c with contpc := w.setWidth 2 }
  | 0x2A => s.onCtx node fun c => { c with sfq := v }
  | 0x2B => { s with hfq := v }
  | _ => s

/-- Whether a privileged register is held per lane (Table 16.2). -/
def privPerLane (n : Nat) : Bool := n ≤ 0x17

/-- The source of `MTS`: a pair for a 64-bit register. -/
def mtsSource (v : View) (n : Nat) (a : Reg) : DWord × Bool :=
  if privWidth n = some 64 then v.pair a else ((v.reg a).1.setWidth 64, (v.reg a).2)

/-- A write by the active lanes: each its own, or the highest lane's, for the lanes whose source is not poisoned. -/
def mtsWith (num : Nat) (a : Reg) (perLane : Bool) (lane : Gang → Nat → DWord → Gang)
    (shared : State → Nat → DWord → State) : ThreadBody := fun s k m =>
  match s.gangs.find? k with
  | none => s
  | some G =>
    let src := fun (l : Nat) => mtsSource (G.view l) num a
    let bad := (lanesOf m).filter fun l => (src l).2
    let good := (lanesOf m).filter fun l => !(src l).2
    let s := if perLane then good.foldl (fun s l => s.onGang k fun G => lane G l (src l).1) s
      else match good.getLast? with
        | some l => shared s k (src l).1
        | none => s
    (s.advance k (maskOf good)).trapAll k (maskOf bad) 0x07 0 s.curPc

/-- `MTS` (R341). -/
def execMts (g : Guard) (num : BitVec 8) (a : Reg) (s : State) : Host.Outcome State Fault Refusal :=
  threadOp (.mts g num a) s (mtsWith num.toNat a (privPerLane num.toNat)
    (fun G l v =>
      let G := G.putLane l ((G.lane l).privWrite num.toNat v)
      if num = 0x03 then G.clearRmem l (v.setWidth 32) else G)
    fun s k v => s.privWriteShared k num.toNat v)

/-- `MTS` to GHOLD (R329, R341): every U lane is stopped from the next issue on, so HELD is set at once. -/
def execMtsGhold (g : Guard) (a : Reg) (s : State) : Host.Outcome State Fault Refusal :=
  threadOp (.mtsGhold g a) s (mtsWith 0x29 a false (fun G _ _ => G)
    fun s k v => (s.onGang k fun G => { G with hold := v.getLsbD 0 }).settleAll k)

-- TLBINV (R342)

/-- What a `TLBINV` invalidates: tags and pages that satisfy `p`, given hyp, ASID, VMID and whether an address's page of
`2^bits` bytes is meant. Translations of H mode's accesses are those of VMID 0, in no ASID (R214, R217). -/
def State.invalidate (s : State) (p : Bool → Nat → Nat → (Nat → Nat → Bool) → Bool) : State :=
  let gone := fun (t : TlbEntry) => p t.hyp t.asid t.vmid fun va _ => va / 2 ^ t.bits == t.va / 2 ^ t.bits
  let goneWalk := fun (w : Walk) => p w.hyp w.asid w.vmid fun va _ => va / 65536 == w.page
  let dead := (s.walks.filter fun w => goneWalk w.2).map (·.1)
  let unwalk := fun (_ : Nat) (G : Gang) => { G with waits := G.waits.filter fun w => match w.kind with
    | .walk id => !dead.contains id
    | .refetch _ | .bar _ _ | .rdv _ | .grow _ _ | .cpwait _ | .again _ | .remote _ | .monitor _ _ _ _
    | .verdict _ _ _ | .home _ _ _ | .alone _
    | .recv _ _ _ | .parked _ | .rejoin _ _ => true }
  let free := fun (q : Seq) => match q.wait with
    | .walk id => if dead.contains id then { q with wait := .none } else q
    | .none | .rdv _ | .monitor _ _ | .gate | .refetch _ => q
  { s with
    stlb := s.stlb.mapV fun _ (ts : List TlbEntry) => ts.filter fun t => !gone t
    cores := s.cores.mapV fun _ (c : Core) => { c with utlb := c.utlb.filter fun t => !gone t }
    walks := s.walks.filter fun w => !goneWalk w.2
    gangs := s.gangs.mapV unwalk
    blocks := s.blocks.mapV fun _ (B : Block) => { B with mseq := free B.mseq, cseq := free B.cseq } }

/-- `TLBINV` of a group: the selector, the address, the bits the selector may have in S and in H mode, and the entries. -/
def tlbinv (sel addr : View → DWord × Bool) (sBits hBits : Word)
    (p : Bool → Word → DWord → Nat → Bool → Nat → Nat → (Nat → Nat → Bool) → Bool) : ThreadBody := fun s k m =>
  match s.gangs.find? k, (lanesOf m).head? with
  | some G, some l =>
    let h := (G.lane l).mode == .hypervisor
    let x := sel (G.view l)
    let a := addr (G.view l)
    let w : Word := x.1.setWidth 32
    if x.2 || a.2 then s.trapAll k m 0x07 0 s.curPc
    else if w &&& ~~~(if h then hBits else sBits) != 0 then s.trapAll k m 0x01 0 s.curPc
    else
      let vmid := if h then bits w.toNat 21 16 else (s.ctxOf (coreOf k)).vmid
      (((s.releaseAt (coreOf k) .pkg).invalidate (p h w a.1 vmid)).onGang k fun G => { G with walkFaults := [] }).advance
        k m
  | some _, none | none, _ => s

/-- No operand. -/
def noOperand : View → DWord × Bool := fun _ => (0, false)

/-- A selector register. -/
def selector (r : Reg) : View → DWord × Bool := fun v => ((v.reg r).1.setWidth 64, (v.reg r).2)

/-- `TLBINV.all` (R342). -/
def execTlbinvAll (g : Guard) (s : State) : Host.Outcome State Fault Refusal :=
  threadOp (.tlbinvAll g) s (tlbinv noOperand noOperand 0 0 fun h _ _ vmid _ _ vm _ => h || vm == vmid)

/-- `TLBINV.asid` (R342). -/
def execTlbinvAsid (g : Guard) (a : Reg) (s : State) : Host.Outcome State Fault Refusal :=
  threadOp (.tlbinvAsid g a) s (tlbinv (selector a) noOperand 0x3FF 0x3F03FF
    fun _ w _ vmid hyp asid vm _ => !hyp && vm == vmid && asid == w.toNat % 1024)

/-- `TLBINV.page` (R342). -/
def execTlbinvPage (g : Guard) (a b : Reg) (s : State) : Host.Outcome State Fault Refusal :=
  threadOp (.tlbinvPage g a b) s (tlbinv (selector b) (fun v => v.pair a) 0x3FF 0x3F03FF
    fun _ w va vmid hyp asid vm page => !hyp && vm == vmid && asid == w.toNat % 1024 && page va.toNat 0)

/-- `TLBINV.vmid` (R342), in H mode only. -/
def execTlbinvVmid (g : Guard) (a : Reg) (s : State) : Host.Outcome State Fault Refusal :=
  threadOp (.tlbinvVmid g a) s (tlbinv (selector a) noOperand 0x3F 0x3F
    fun _ w _ _ _ _ vm _ => vm == w.toNat % 64)

-- Tokens (R335, R343)

/-- The record that a token names, while its slot still holds the token: its physical address and its bytes. -/
def State.recordAt (s : State) (node : Nat) (tok : Nat) : State × Option (Nat × List Byte) :=
  let q := if 2 ^ 31 ≤ tok then 0 else s.ctxId node + 1
  let (ag, d) := s.queueAt node q
  match devReadClean ag d 32 s with
  | (s, .error _) => (s, none)
  | (s, .ok bs) =>
    let a := BitVec.ofNat 64 (field bs 0 8 + 128 * (tok % 2 ^ 31 % 2 ^ field bs 8 1))
    match translateNow ag .read a.toNat s with
    | (s, .error _) => (s, none)
    | (s, .ok t) =>
      match devReadClean ag a 128 s with
      | (s, .error _) => (s, none)
      | (s, .ok r) => (s, if field r 4 4 = tok then some (t.addr a.toNat, r) else none)

/-- What a token stands for in a gang: parked lanes, continuing lanes, a faulted copy. -/
inductive TokenUse where
  | parked (lanes : Mask)
  | continuing (lanes : Mask)
  | copy (c : Copy)

/-- The lanes of a gang that continue with a token. -/
def Gang.continuing (G : Gang) (tok : Nat) : Mask :=
  maskOf ((lanesOf G.live).filter fun l => (G.lane l).incont && (G.lane l).contToken.toNat == tok)

/-- What a token stands for in a gang, if it does (R343). A copy of the copy sequencer is that of every gang of its block. -/
def State.tokenUse (s : State) (k : Nat) (G : Gang) (tok : Nat) : Option TokenUse :=
  match G.waits.find? fun w => w.kind == .parked tok with
  | some w => some (.parked w.lanes)
  | none =>
    if G.continuing tok != 0 then some (.continuing (G.continuing tok))
    else
      match s.copyTokens.find? (tokenKey (s.ctxId (coreNode (coreOf k))) tok) with
      | some c =>
        let mine := match c.gang with
          | some k' => k' == k
          | none => c.residual.block == G.block
        if mine then some (.copy c.residual) else none
      | none => none

/-- A copy's token used up: an unreported fault of it is taken off `CPWAIT`'s list. -/
def State.dropToken (s : State) (k tok : Nat) : State :=
  { s with copyTokens := s.copyTokens.del (tokenKey (s.ctxId (coreNode (coreOf k))) tok) }.onGang k fun G =>
    { G with copyFaults := G.copyFaults.filter (·.token != tok) }

/-- A result in x[D] of one lane that goes on. -/
def State.laneResult (s : State) (k l : Nat) (d : BitVec 8) (r : Word) : State :=
  (s.onLane k l fun L => L.putX d.toNat r false).advance k (laneBit l)

/-- An instruction that acts on each active lane in turn with the token in x[A]; a lane that another's action has ended is
passed over. -/
def tokenOp (a : Reg) (f : State → Nat → Gang → Nat → Nat → State) : ThreadBody := fun s k m =>
  (lanesOf m).foldl (fun s l =>
    match s.gangs.find? k with
    | none => s
    | some G =>
      if (G.lane l).life = .exited then s
      else
        match (G.view l).reg a with
        | (_, true) => s.trap k l 0x07 0 (G.lane l).pc
        | (t, false) => f s k G l t.toNat) s

/-- A continuing lane's return to its record's PC, with x1 restored (R343). -/
def Lane.resume (L : Lane) : Lane :=
  { L.putX 1 L.contX1 L.contX1p with incont := false }

/-- `FRESUME` of one lane. -/
def freeResume (d : BitVec 8) (s : State) (k : Nat) (G : Gang) (l tok : Nat) : State :=
  match s.tokenUse k G tok, s.recordAt (coreNode (coreOf k)) tok with
  | some (.continuing m), (s, some (_, r)) =>
    let res := field r 0x60 8
    if !m.getLsbD l then s.laneResult k l d 3
    else if res = 0 then s.laneResult k l d 1
    else if res = 1 then s.onGang k fun G => (G.putLane l (G.lane l).resume).jump l (BitVec.ofNat 64 (field r 0x10 8))
    else s.killLane k l
  | some (.copy c), (s, some (_, r)) =>
    let res := field r 0x60 8
    if res = 0 then s.laneResult k l d 1
    else if res ≠ 1 then s.laneResult k l d 2
    else if s.freeSlots c.core = 0 then s.stall k (laneBit l) (.again "copy slot")
    else ((s.dropToken k tok).joinBatch k (if c.gang = some k then c.lane else l) { c with fault := none }).laneResult k l d 0
  | _, (s, _) => s.laneResult k l d 3

/-- `FRESUME` (R343). -/
def execFresume (g : Guard) (d : BitVec 8) (a : Reg) (s : State) : Host.Outcome State Fault Refusal :=
  threadOp (.fresume g d a) s (tokenOp a (freeResume d))

/-- `FKILL.tok` of one lane. -/
def killToken (d : BitVec 8) (s : State) (k : Nat) (G : Gang) (l tok : Nat) : State :=
  match s.tokenUse k G tok, s.recordAt (coreNode (coreOf k)) tok with
  | some (.parked m), (s, some _) | some (.continuing m), (s, some _) =>
    let s := (lanesOf m).foldl (fun s x => s.killLane k x) s
    if m.getLsbD l then s else s.laneResult k l d 0
  | some (.copy _), (s, some _) => (s.dropToken k tok).laneResult k l d 0
  | _, (s, _) => s.laneResult k l d 3

/-- `FKILL.tok` (R343). -/
def execFkillTok (g : Guard) (d : BitVec 8) (a : Reg) (s : State) : Host.Outcome State Fault Refusal :=
  threadOp (.fkillTok g d a) s (tokenOp a (killToken d))

/-- `FKILL.gang` (R343). -/
def execFkillGang (g : Guard) (d : BitVec 8) (a : Reg) (s : State) : Host.Outcome State Fault Refusal :=
  threadOp (.fkillGang g d a) s (tokenOp a fun s k _ l x =>
    let k' := 16 * coreOf k + x % 16
    let mine := ((s.blockOf k').map fun B => B.ctx == s.ctxId (coreNode (coreOf k))).getD false
    if mine && s.gangLives k' then
      let s := s.killGang k'
      if k' = k then s else s.laneResult k l d 0
    else s.laneResult k l d 1)

/-- `TOKWAIT` (R343): a lane whose token is lost goes on at once, the others wait together. -/
def execTokwait (g : Guard) (d : BitVec 8) (a : Reg) (s : State) : Host.Outcome State Fault Refusal :=
  threadOp (.tokwait g d a) s (blocking fun s k m =>
    let r := (lanesOf m).foldl (fun (r : State × List (Nat × Place × Bool × MonCond × Option Nat)) l =>
      match r.1.gangs.find? k with
      | none => r
      | some G =>
        match (G.view l).reg a with
        | (_, true) => (r.1.trap k l 0x07 0 (G.lane l).pc, r.2)
        | (t, false) =>
          match r.1.tokenUse k G t.toNat, r.1.recordAt (coreNode (coreOf k)) t.toNat with
          | some _, (s, some (pa, _)) =>
            (s, r.2 ++ [(l, Place.mem ((pa + 0x60) / 8), false, MonCond.resolve (t.setWidth 32), none)])
          | _, (s, _) => (s.laneResult k l d 3, r.2)) (s, [])
    r.1.watchAll k d false none r.2)

-- Events of the fault queues

/-- The first record of an overflow whose queue is available. -/
def State.nextHeld (s : State) (node : Nat) : List Held → Option Held
  | [] => none
  | h :: hs => if (s.queueOpen node h.queue).2.isSome then some h else s.nextHeld node hs

/-- What waits for a held record's token is given it: parked lanes, which now run the block's continuation if the record says
so, a faulted copy's note and residual, and the copy sequencer's stop. -/
def State.giveToken (s : State) (h : Held) (tok : Word) : State :=
  let old := 2 ^ 32 + h.id
  let s := { s with blocks := s.blocks.mapV fun _ (B : Block) => { B with cseq := { B.cseq with
    copyFault := B.cseq.copyFault.map fun (x : DWord × Nat) => (x.1, if x.2 = old then tok.toNat else x.2) } } }
  let s := match s.copyTokens.find? (tokenKey (h.queue - 1) old) with
    | some c =>
      { s with copyTokens := (s.copyTokens.del (tokenKey (h.queue - 1) old)).put (tokenKey (h.queue - 1) tok.toNat) c }
    | none => s
  match h.gang with
  | none => s
  | some k =>
    let cont := ((s.blockOf k).map (·.cont)).getD 0
    let s := s.onGang k fun G =>
      let m := (G.waits.filter fun w => w.kind == .parked old).foldl (fun m w => m ||| w.lanes) 0
      let note := fun (f : CopyFaultNote) => if f.token = old then { f with token := tok.toNat } else f
      let park := fun (w : Wait) => if w.kind = .parked old then { w with kind := .parked tok.toNat } else w
      let G := { G with copyFaults := G.copyFaults.map note }
      if (h.bytes.getD 2 0).getLsbD 3 then (lanesOf m).foldl (fun G l => G.redirect l cont tok) (G.unwait m)
      else { G with waits := G.waits.map park }
    s.settleBatches k

/-- `FAULT_OVERFLOW_POST` (R332). -/
def execFaultOverflowPost (node : Nat) (s : State) : Host.Outcome State Fault Refusal :=
  match s.nextHeld node (s.overflow.get [] node) with
  | none => .next s
  | some h =>
    match s.queueOpen node h.queue with
    | (_, none) => .next s
    | (s, some (base, size)) =>
      match s.postInto node h.queue base size h.bytes with
      | (s, none) => .next s
      | (s, some tok) =>
        let s := { s with overflow := s.overflow.write [] node ((s.overflow.get [] node).filter (·.id != h.id)) }
        .next (s.giveToken h tok)

/-- `PARKED_RESUME` (R334): the lanes of one wait, once their record is resolved. -/
def execParkedResume (gang index : Nat) (s : State) : Host.Outcome State Fault Refusal :=
  match (s.gangs.find? gang).bind fun G => G.waits[index]? with
  | some ⟨m, _, .parked tok⟩ =>
    match s.recordAt (coreNode (coreOf gang)) tok with
    | (s, none) => .next s
    | (s, some (_, r)) =>
      let res := field r 0x60 8
      if res = 0 then .next s
      else if res = 1 then
        .next ((s.onGang gang fun G =>
          (lanesOf m).foldl (fun G l => G.jump l (BitVec.ofNat 64 (field r 0x10 8))) (G.unwait m)).settleAll gang)
      else .next ((lanesOf m).foldl (fun s l => s.killLane gang l) s)
  | _ => .next s

end Sys2Proof.Machine
end

