-- ==== Sys2Proof/Machine/Placement.lean ====
section
/-! DEFINITION. Placement (R100 to R119) and retirement (R347 to R352): the walk of a launch, deferral and walk faults, ensembles,
the choice of a core, `WALKRES`, `TMOVE` and `TREPL`, migrations, and blocks that retire. -/

namespace Sys2Proof.Machine

/-- The element with the least measure, the first of them. -/
def leastBy {α : Type} (f : α → Nat) : List α → Option α
  | [] => none
  | x :: xs =>
    match leastBy f xs with
    | none => some x
    | some y => if f y < f x then some y else some x

-- Placement records (Table 2.5)

/-- A coordinate of a placement record. -/
def prCoord (r : List Byte) (i : Nat) : Nat := field r (2 * i) 2
/-- HOME. -/
def prHome (r : List Byte) : Nat := field r 8 1
/-- STATE. -/
def prState (r : List Byte) : Nat := field r 9 1
/-- HINT. -/
def prHint (r : List Byte) : Nat := field r 10 2
/-- GEN. -/
def prGen (r : List Byte) : Nat := field r 12 2
/-- REPL. -/
def prRepl (r : List Byte) : Nat := field r 15 1
/-- REPNODE of a slot. -/
def prNode (r : List Byte) (i : Nat) : Nat := field r (16 + i) 1
/-- CLAIM. -/
def prClaim (r : List Byte) : Nat := field r 20 4
/-- TADDR. -/
def prAddr (r : List Byte) : Nat := field r 24 8

/-- The valid replica slots of a record. -/
def prSlots (r : List Byte) : List Nat := (List.range 4).filter fun i => (prRepl r).testBit i

/-- The slot of the primary copy. -/
def prPrimary (r : List Byte) : Option Nat := (prSlots r).find? fun i => prNode r i == prHome r

/-- GEN raised by 1. -/
def prNext (r : List Byte) : List Byte := setField r 12 2 ((prGen r + 1) % 65536)

/-- Whether a record that names replicas names them as Table 2.6 wants. -/
def prReplicas (r : List Byte) : Bool := decide (2 ≤ (prSlots r).length) && (prPrimary r).isSome

/-- What R38 finds malformed in a record by itself. -/
def prBad (r : List Byte) : Bool :=
  let slots := prSlots r
  decide (127 < prHome r) || decide (4 < prState r) || decide (512 ≤ prHint r % 32768) || decide (15 < prRepl r) ||
    (List.range 4).any (fun i => if slots.contains i then decide (127 < prNode r i) else decide (prNode r i ≠ 0)) ||
    (match prState r with
      | 1 => decide (prRepl r ≠ 0)
      | 2 => decide (prRepl r ≠ 0) && !prReplicas r
      | 3 => !prReplicas r
      | 4 => decide (prRepl r ≠ 0) || decide (prAddr r ≠ 0)
      | _ => false) ||
    decide (prAddr r % (if prRepl r = 0 then 128 else 32) ≠ 0)

-- A launch's own record (Table 2.7)

/-- ENS of a dimension. -/
def Launch.ens (L : Launch) (i : Nat) : Nat := field L.lrec (0x50 + i) 1
/-- Whether the launch forms ensembles (R43). -/
def Launch.celled (L : Launch) : Bool := (List.range 4).any fun i => L.ens i != 1
/-- Product of ENS. -/
def Launch.cellSize (L : Launch) : Nat := ((List.range 4).map L.ens).foldl (· * ·) 1
/-- FLAGS. -/
def Launch.flag (L : Launch) (n : Nat) : Bool := (field L.lrec 0x55 1).testBit n
/-- WRDRIVE. -/
def Launch.wrdrive (L : Launch) : Bool := L.flag 1
/-- REGS, GANGS, LSB, BARS, EBARS, CBARS and ENG (Table 2.8). -/
def Launch.regs (L : Launch) : Nat := field L.lrec 0x40 2
/-- See `Launch.regs`. -/
def Launch.gangs (L : Launch) : Nat := field L.lrec 0x42 2
/-- See `Launch.regs`. -/
def Launch.lsb (L : Launch) : Nat := field L.lrec 0x44 4
/-- See `Launch.regs`. -/
def Launch.bars (L : Launch) : Nat := field L.lrec 0x48 1
/-- See `Launch.regs`. -/
def Launch.ebars (L : Launch) : Nat := field L.lrec 0x49 1
/-- See `Launch.regs`. -/
def Launch.cbars (L : Launch) : Nat := field L.lrec 0x4A 1
/-- See `Launch.regs`. -/
def Launch.eng (L : Launch) (n : Nat) : Bool := (field L.lrec 0x4B 1).testBit n
/-- COMP. -/
def Launch.comp (L : Launch) : DWord := BitVec.ofNat 64 (field L.lrec 0x60 8)
/-- The launch's completion record under the device's counters. -/
def Launch.key (L : Launch) : Nat := crecKey L.ctx L.comp
/-- TILE_COUNT of a dimension of the driving tensor. -/
def Launch.count (L : Launch) (i : Nat) : Nat := field L.drive (0x10 + 2 * i) 2
/-- RECORD_COUNT of the driving tensor. -/
def Launch.records (L : Launch) : Nat := field L.drive 0x24 4
/-- Virtual address of a placement record. -/
def Launch.recAddr (L : Launch) (i : Nat) : DWord := BitVec.ofNat 64 (field L.drive 0x28 8 + 32 * i)

/-- The cell of coordinates, as a number (R43). -/
def Launch.cellOf (L : Launch) (c : List (BitVec 16)) : Nat :=
  ((List.range 4).map fun i => (c.getD i 0).toNat / L.ens i * 65536 ^ i).foldl (· + ·) 0

/-- How many coordinates of a cell lie within TILE_COUNT. -/
def Launch.cellNeeds (L : Launch) (c : List (BitVec 16)) : Nat :=
  ((List.range 4).map fun i =>
    let base := (c.getD i 0).toNat / L.ens i * L.ens i
    Nat.min (L.ens i) (L.count i - base)).foldl (· * ·) 1

/-- A launch changed. -/
def State.onLaunch (s : State) (tag : Nat) (f : Launch → Launch) : State := { s with launches := s.launches.adjust tag f }

-- Atomic operations on records (R39, R116)

/-- One atomic read and write of the 32 bytes at a record's home; none where they are poisoned. -/
def State.prUpdate (s : State) (pa : Nat) (f : List Byte → Option (List Byte)) : State × Option (List Byte) :=
  let (s, old) := s.homeRead pa 32
  if old.any (·.2) then (s, none)
  else
    let r := old.map (·.1)
    match f r with
    | some r' => (s.baseWrite (runAt pa (clean r')), some r)
    | none => (s, some r)

/-- The home of a record tells Chanter of a commit, an abort or a release (R102). -/
def State.tellChanter (s : State) (pa : Nat) : State :=
  let note := fun (e : Deferred) => if e.pa = pa && !e.faulted then { e with noticed := true } else e
  { s with launches := s.launches.mapV fun _ (L : Launch) => { L with deferred := L.deferred.map note } }

-- Migrations of a record, and the release of its claim (R39, R116, R118, R119)

/-- A migration's destination, and the length of the tile. -/
def MigKind.target : MigKind → DWord × Nat
  | .move ta n => (ta, n)
  | .add ta _ n => (ta, n)
  | .drop _ => (0, 0)

/-- The agent that copies a tile: the executing context's, as accesses of S mode (R118). -/
def State.tileAgent (s : State) (m : Migration) : Agent :=
  let ag := ctxAgent (nodeOf m.pa) (s.ctxs.get {} m.ctx)
  { ag with secure := m.secure }

/-- Where the copy of a tile reads: TADDR, or the primary copy's entry of the replica vector. -/
def State.tileSource (s : State) (ag : Agent) (r : List Byte) : State × Option DWord :=
  let t := BitVec.ofNat 64 (prAddr r)
  if prState r ≠ 3 then (s, some t)
  else
    match prPrimary r, devReadClean ag t 32 s with
    | some i, (s, .ok v) => (s, some (BitVec.ofNat 64 (field v (8 * i) 8)))
    | _, (s, _) => (s, none)

/-- A migration started: the mark MOVING is written with the record's other changes, and the copy begins. -/
def State.startMove (s : State) (m : Migration) (r : List Byte) : State × Migration :=
  let (s, src) := s.tileSource (s.tileAgent m) r
  let s := s.baseWrite (runAt m.pa (clean (setField r 9 1 2)))
  (s, { m with pending := false, was := prState r, src := src.getD 0, faulted := src.isNone })

/-- The record after a drop of replica slots, with GEN raised; a record with one copy left is RESIDENT at its address. -/
def prDrop (r vec : List Byte) (slots : BitVec 4) : List Byte :=
  let left := (prSlots r).filter fun i => !slots.getLsbD i
  let keep := fun (i : Nat) => left.contains i
  let repl := (left.map (2 ^ ·)).foldl (· + ·) 0
  let node := fun (r : List Byte) (i : Nat) => if keep i then r else setField r (16 + i) 1 0
  let r := prNext ((List.range 4).foldl node (setField r 15 1 repl))
  match left with
  | [i] => setField (setField (setField (setField r 15 1 0) (16 + i) 1 0) 9 1 1) 24 8 (field vec (8 * i) 8)
  | _ => r

/-- A drop done: the entries of the vector cleared, then the record; none where the vector cannot be used. -/
def State.dropReplicas (s : State) (ag : Agent) (r : List Byte) (slots : BitVec 4) : State × Option (List Byte) :=
  let a := BitVec.ofNat 64 (prAddr r)
  match devReadClean ag a 32 s with
  | (s, .error _) => (s, none)
  | (s, .ok vec) =>
    let entry := fun (v : List Byte) (i : Nat) => if slots.getLsbD i then setField v (8 * i) 8 0 else v
    match devWrite ag a (clean ((List.range 4).foldl entry vec)) s with
    | (s, .error _) => (s, none)
    | (s, .ok _) => (s, some (prDrop r vec slots))

/-- A migration-abort record posted. -/
def State.postAbort (s : State) (m : Migration) : State :=
  (s.post (nodeOf m.pa) (m.ctx + 1) (mkRecord 5 0 0 3 0 0 0 m.recVa (toBytes 8 m.kind.target.1.toNat))).1

/-- A pending migration applied as the claim is released (Table 17.1): what is left of the record. -/
def State.applyPending (s : State) (r : List Byte) (m : Nat × Migration) : State × List Byte :=
  match m.2.kind with
  | .drop slots =>
    let s := { s with migrations := s.migrations.del m.1 }
    if prState r ≠ 3 then (s, r)
    else
      match s.dropReplicas (s.tileAgent m.2) r slots with
      | (s, some r') => (s, r')
      | (s, none) => (s, r)
  | .move _ _ | .add _ _ _ =>
    if prState r ≠ 1 then (({ s with migrations := s.migrations.del m.1 }).postAbort m.2, r)
    else
      let (s, m') := s.startMove m.2 r
      ({ s with migrations := s.migrations.put m.1 m' }, setField r 9 1 2)

/-- The migrations that wait for a record's claim, drops first (Table 17.1). -/
def State.pendingFor (s : State) (pa : Nat) : List (Nat × Migration) :=
  let mine := s.migrations.filter fun (m : Nat × Migration) => m.2.pa == pa && m.2.pending
  let drop := fun (m : Nat × Migration) => match m.2.kind with
    | .drop _ => true
    | .move _ _ | .add _ _ _ => false
  mine.filter drop ++ mine.filter fun m => !drop m

/-- The atomic write that releases a claim: the compare-and-clear of R39 with the other changes `f`, and what waited for the
claim (R116, Table 17.1). -/
def State.releaseClaim (s : State) (pa tag : Nat) (f : List Byte → List Byte) : State :=
  match s.prUpdate pa fun _ => none with
  | (s, none) => s
  | (s, some r) =>
    if prClaim r ≠ tag then s
    else
      let (s, r) := (s.pendingFor pa).foldl (fun (x : State × List Byte) m => x.1.applyPending x.2 m) (s, f (setField r 20 4 0))
      (s.baseWrite (runAt pa (clean r))).tellChanter pa

/-- A claim released without a block that retires. -/
def State.clearClaim (s : State) (pa tag : Nat) : State := s.releaseClaim pa tag id

-- The walk: reads (R100, R101)

/-- What Table 6.1 makes of a record at the atomic read; a fault carries its reason of Table 6.2. -/
inductive WalkRead where
  | fault (reason : Nat)
  | passed (coord : List (BitVec 16))
  | defer (pa : Nat) (coord : List (BitVec 16))
  | absent (coord : List (BitVec 16))
  | joins (coord : List (BitVec 16))
  | claimed (r : Routed)
  deriving DecidableEq, Repr

/-- Whether coordinates fall in a cell that has been formed. -/
def Launch.inFormed (L : Launch) (c : List (BitVec 16)) : Bool :=
  L.celled && ((L.cells.find? (L.cellOf c)).map (·.formed)).getD false

/-- Whether a whole deferred cell holds coordinates. -/
def Launch.cellDeferred (L : Launch) (c : List (BitVec 16)) : Bool :=
  L.celled && L.deferred.any fun e => !e.faulted && L.cellOf e.coord == L.cellOf c

/-- Blocks of a launch routed to a die or on it, those in save areas with them (R103). -/
def State.pendingOn (s : State) (tag : Nat) (L : Launch) (node : Nat) : Nat :=
  (L.streams.get [] node).length +
    ((L.cells.map fun (c : Nat × Cell) =>
      if c.2.placed then 0 else (c.2.members.filter (·.node == node)).length).foldl (· + ·) 0) +
    (s.blocks.filter fun (b : Nat × Block) => b.2.tag == tag && coreNode b.2.core == node && !b.2.retired).length +
    (s.images.filter fun (x : Nat × Saved) => x.2.out && x.2.block.tag == tag && coreNode x.2.block.core == node).length +
    (s.unplaced.filter fun (x : Nat × SavedEntry) => x.2.out && x.2.tag == tag && x.2.cell.isNone && x.2.block.node == node).length

/-- The replica chosen (R103): its node and address; none where the vector cannot be used. -/
def State.chooseReplica (s : State) (tag : Nat) (L : Launch) (r : List Byte) : State × Option (Nat × DWord) :=
  match devReadClean (s.lp L.ctx) (BitVec.ofNat 64 (prAddr r)) 32 s with
  | (s, .error _) => (s, none)
  | (s, .ok v) =>
    match leastBy (fun i => s.pendingOn tag L (prNode r i) * 128 + prNode r i) (prSlots r) with
    | none => (s, none)
    | some i =>
      let a := field v (8 * i) 8
      if a = 0 || a % 128 ≠ 0 then (s, none) else (s, some (prNode r i, BitVec.ofNat 64 a))

/-- Chanter's atomic read-and-claim of a record (R101, R362). -/
def State.readRecord (s : State) (tag : Nat) (L : Launch) (i : Nat) : State × WalkRead :=
  let a := L.recAddr i
  if a.toNat / 2 ^ 48 ≠ 0 then (s, .fault 1)
  else
    match translateNow (s.lp L.ctx) .readWrite a.toNat s with
    | (s, .error _) => (s, .fault 1)
    | (s, .ok t) =>
      let pa := t.addr a.toNat
      match s.prUpdate pa fun _ => none with
      | (s, none) => (s, .fault 2)
      | (s, some r) =>
        let coord := (List.range 4).map fun j => BitVec.ofNat 16 (prCoord r j)
        let members := ((L.cells.find? (L.cellOf coord)).map (·.members.length)).getD 0
        let st := prState r
        if st = 0 then (s, .fault 4)
        else if prBad r || (List.range 4).any (fun j => decide (L.count j ≤ prCoord r j)) || L.inFormed coord then
          (s, .fault 3)
        else if prClaim r = tag then (s, if L.cellDeferred coord then .joins coord else .passed coord)
        else if st = 2 || (st ≠ 4 && prClaim r ≠ 0) then (s, .defer pa coord)
        else if L.cellDeferred coord then (s, .joins coord)
        else if st = 4 then (s, .absent coord)
        else if L.celled && L.cellSize ≤ members then (s, .fault 3)
        else
          let (s, _) := s.prUpdate pa fun r => some (setField r 20 4 tag)
          let hint := if prHint r / 32768 = 1 then some (prHint r % 512) else none
          let take := fun (home : Nat) (tile : DWord) =>
            ({ index := i, coord := coord, tile := tile, pa := pa, home := home, node := home,
               hint := if home = prHome r then hint else none } : Routed)
          if st = 1 then (s, .claimed (take (prHome r) (BitVec.ofNat 64 (prAddr r))))
          else
            match s.chooseReplica tag L r with
            | (s, some (n, a)) => (s, .claimed (take n a))
            | (s, none) => (s.clearClaim pa tag, .fault 5)

-- The walk: streams and cells (R108, R112)

/-- The die that a block that is no ensemble member is routed to (R108). -/
def Launch.route (L : Launch) (home : Nat) : Nat :=
  let waiting := fun (n : Nat) => (L.streams.get [] n).length
  if field L.lrec 0x54 1 = 0 || waiting home ≤ 64 then home
  else
    match leastBy (fun n => waiting n * 128 + n) ((List.range 128).filter (adjacent home)) with
    | some n => if 2 * waiting n < waiting home then n else home
    | none => home

/-- Order of members: COORD[3] first and COORD[0] last, then the record's index (R112). -/
def memberRank (r : Routed) : Nat :=
  let c := fun (i : Nat) => (r.coord.getD i 0).toNat
  (((c 3 * 65536 + c 2) * 65536 + c 1) * 65536 + c 0) * 2 ^ 32 + r.index

/-- A list sorted by a measure, by insertion. -/
def insertBy {α : Type} (f : α → Nat) (x : α) : List α → List α
  | [] => [x]
  | y :: ys => if f x ≤ f y then x :: y :: ys else y :: insertBy f x ys

/-- See `insertBy`. -/
def sortBy {α : Type} (f : α → Nat) : List α → List α
  | [] => []
  | x :: xs => insertBy f x (sortBy f xs)

/-- The anchor die of a formed ensemble and its partner (R113). -/
def cellDies (members : List Routed) : Option (Nat × Option Nat) :=
  match members with
  | [] => none
  | m :: _ =>
    let near := (members.map (·.home)).filter (adjacent m.home)
    some (m.home, leastBy (fun n => (1024 - near.count n) * 128 + n) near)

/-- A cell formed (R112): its members in order, on the anchor die or the partner's. -/
def Cell.form (c : Cell) : Cell :=
  let ms := sortBy memberRank c.members
  match cellDies ms with
  | none => { c with formed := true, placed := true }
  | some (anchor, partner) =>
    let at_ := fun (m : Routed) =>
      let node := if partner = some m.home then m.home else anchor
      { m with node := node, hint := if node = m.home then m.hint else none }
    { c with formed := true, members := ms.map at_ }

/-- A coordinate of a cell reached, with a member or with none; a cell all of whose coordinates are reached is formed. A
record read that becomes no member is noted by its index. -/
def Launch.reach (L : Launch) (coord : List (BitVec 16)) (m : Option Routed) (read : Option Nat := none) : Launch :=
  if !L.celled then L
  else
    let key := L.cellOf coord
    let c := L.cells.get {} key
    if c.formed then L
    else
      let c := { c with reached := if c.reached.contains coord then c.reached else c.reached ++ [coord],
                        members := c.members ++ m.toList,
                        absent := c.absent ++ (read.map fun i => (i, coord)).toList }
      { L with cells := L.cells.put key (if L.cellNeeds coord ≤ c.reached.length then c.form else c) }

/-- A claimed record's block joins its die's stream, or its cell. -/
def Launch.join (L : Launch) (r : Routed) : Launch :=
  if L.celled then L.reach r.coord (some r)
  else
    let node := L.route r.home
    let r := { r with node := node, hint := if node = r.home then r.hint else none }
    { L with streams := L.streams.put node (L.streams.get [] node ++ [r]) }

/-- A deferred record goes onto the list; within an ensemble, with its whole cell, whose claims are cleared first (R112). -/
def State.deferRecord (s : State) (tag : Nat) (L : Launch) (i pa : Nat) (coord : List (BitVec 16)) : State :=
  if !L.celled then s.onLaunch tag fun L => { L with deferred := L.deferred ++ [⟨i, coord, pa, [], false, false, false⟩] }
  else
    let key := L.cellOf coord
    let c := L.cells.get {} key
    let s := c.members.foldl (fun s m => s.clearClaim m.pa tag) s
    let mine := fun (e : Deferred) => !e.faulted && L.cellOf e.coord == key
    let others := (c.members.map fun m => (m.index, m.coord)) ++ c.absent ++
      ((L.deferred.filter mine).map fun e => (e.index, e.coord) :: e.others).flatten
    let left := c.reached.filter fun x => !c.members.any (·.coord == x) && !c.absent.any (·.2 == x)
    s.onLaunch tag fun L => { L with
      cells := L.cells.put key { c with members := [], absent := [], reached := left }
      deferred := (L.deferred.filter fun e => !mine e) ++ [⟨i, coord, pa, others, false, false, false⟩] }

/-- A record that falls in a deferred cell waits with it. -/
def Launch.joinDeferred (L : Launch) (i : Nat) (coord : List (BitVec 16)) : Launch :=
  let key := L.cellOf coord
  { L with deferred := L.deferred.map fun e =>
      if !e.faulted && L.cellOf e.coord = key then { e with others := e.others ++ [(i, coord)] } else e }

/-- A record that was read without a fault (Table 6.1). -/
def State.takeRecord (s : State) (tag : Nat) (L : Launch) (i : Nat) : WalkRead → State
  | .fault _ => s
  | .passed c => s.onLaunch tag fun L => L.reach c none (some i)
  | .absent c => s.onLaunch tag fun L => L.reach c none (some i)
  | .defer pa c => s.deferRecord tag L i pa c
  | .joins c => s.onLaunch tag fun L => L.joinDeferred i c
  | .claimed r => s.onLaunch tag fun L => L.join r

-- The walk: faults and states (R105 to R107)

/-- A walk fault: the launch is WALK-FAULTED, and a record is posted (R105). -/
def State.walkFault (s : State) (tag : Nat) (L : Launch) (i reason : Nat) : State :=
  let s := s.onLaunch tag fun L => { L with walk := .faulted }
  let s := (s.onRec L.key fun c => { c with walkFault := true }).writeFlags L.key
  (s.post 0 (L.ctx + 1)
    (mkRecord 2 0x15 0 4 tag 0 0 (L.recAddr i) (toBytes 4 i ++ toBytes 1 reason))).1

/-- A walk past its last record forms the cells that no deferred record holds (R112). -/
def Launch.formRest (L : Launch) : Launch :=
  let held := fun (key : Nat) => L.deferred.any fun e => L.cellOf e.coord == key
  { L with cells := L.cells.mapV fun key (c : Cell) => if c.formed || held key then c else c.form }

/-- Whether an entry of a save area is a block of a launch that has not been created. -/
def SavedEntry.uncreated (e : SavedEntry) (tag : Nat) : Bool := e.out && e.tag == tag && e.cell.isNone && !e.block.created

/-- The walk moved on in Table 6.3; at COMPLETE the launch's OUT falls by one, and a cooperative barrier may complete. The
blocks of its streams are created before (DEDUCED: R92 counts each of them in OUT, which may not reach zero first). -/
def State.settleWalk (s : State) (tag : Nat) : State :=
  match s.launches.find? tag with
  | none => s
  | some L =>
    if L.walk = .complete || L.cursor < L.records || L.cursorFault then s
    else
      let L := if L.celled then L.formRest else L
      let L := if L.walk = .walking then { L with walk := .draining } else L
      let made := (L.streams.all fun (x : Nat × List Routed) => x.2.all (·.created)) &&
        !s.unplaced.any fun (x : Nat × SavedEntry) => x.2.uncreated tag
      if L.walk = .draining && L.deferred.isEmpty && made && L.cells.all (·.2.placed) then
        let s := { s with launches := s.launches.put tag { L with walk := .complete } }.bump L.key (-1) 0
        (List.range L.cbars).foldl (fun s n => s.settleBar (.coop tag n)) s
      else { s with launches := s.launches.put tag L }

/-- The cursor past an index that is done, and past the indices of the skip set (R100, R106). -/
def Launch.advance (L : Launch) : Nat → Launch
  | 0 => L
  | fuel + 1 =>
    if L.skip.contains L.cursor then
      { L with cursor := L.cursor + 1, skip := L.skip.erase L.cursor }.advance fuel
    else L

/-- A read at or beyond the cursor (R100, R105). -/
def State.cursorRead (s : State) (tag : Nat) (L : Launch) (i : Nat) : State :=
  match s.readRecord tag L i with
  | (s, .fault reason) =>
    if i = L.cursor then (s.walkFault tag L i reason).onLaunch tag fun L => { L with cursorFault := true } else s
  | (s, r) =>
    let s := (s.takeRecord tag L i r).onLaunch tag fun L => { L with skip := L.skip ++ [i] }
    if L.cursorFault then s
    else (s.onLaunch tag fun L => L.advance (L.skip.length + 1)).settleWalk tag

/-- New reads of records of one deferred entry, each by Table 6.1 as if for the first time (R102). What cannot be read because
a fault of it could not be posted stays on the list, ready (R332). -/
def State.deferredReads (s : State) (tag : Nat) : List (Nat × List (BitVec 16)) → State
  | [] => s
  | x :: xs =>
    match s.launches.find? tag with
    | none => s
    | some L =>
      if !s.canPost 0 (L.ctx + 1) then
        s.onLaunch tag fun L => { L with deferred := L.deferred ++ [⟨x.1, x.2, 0, xs, false, false, true⟩] }
      else
        match s.readRecord tag L x.1 with
        | (s, .fault reason) =>
          ((s.walkFault tag L x.1 reason).onLaunch tag fun L =>
            { L with deferred := L.deferred ++ [⟨x.1, x.2, 0, [], true, false, false⟩] }).deferredReads tag xs
        | (s, r) => (s.takeRecord tag L x.1 r).deferredReads tag xs

/-- The new reads of a deferred entry. -/
def State.deferredRead (s : State) (tag : Nat) (e : Deferred) : State :=
  let s := s.onLaunch tag fun L => { L with deferred := L.deferred.erase e }
  (s.deferredReads tag (sortBy (·.1) ((e.index, e.coord) :: e.others))).settleWalk tag

/-- `WALK_RECORD_READ` (R101): a read of the cursor's, or the new read of a deferred record. Walks stop while a fault record
could not be posted (R332). -/
def execWalkRecordRead (tag index : Nat) (s : State) : Host.Outcome State Fault Refusal :=
  match s.launches.find? tag with
  | none => .next s
  | some L =>
    if L.walk = .complete || L.cancelled || !s.canPost 0 (L.ctx + 1) then .next s
    else
      match L.deferred.find? fun e => e.index == index && e.ready with
      | some e => .next (s.deferredRead tag e)
      | none =>
        let free := L.cursor ≤ index && index < L.cursor + 16 && index < L.records && !L.skip.contains index &&
          L.deferred.length < 256
        if free && !(L.cursorFault && index = L.cursor) then .next (s.cursorRead tag L index) else .next s

/-- `DEFERRED_NOTIFY` (R102): Chanter is told, and issues the new read. -/
def execDeferredNotify (tag index : Nat) (s : State) : Host.Outcome State Fault Refusal :=
  .next (s.onLaunch tag fun L => { L with deferred := L.deferred.map fun e =>
    if e.index = index && e.noticed then { e with noticed := false, ready := true } else e })

/-- `BLOCK_CREATE` (R100, R92): the next block of a stream. -/
def execBlockCreate (tag node : Nat) (s : State) : Host.Outcome State Fault Refusal :=
  match s.launches.find? tag with
  | none => .next s
  | some L =>
    let rs := L.streams.get [] node
    match rs.findIdx? fun r => !r.created with
    | none => .next s
    | some i =>
      let s := s.onLaunch tag fun L =>
        { L with streams := L.streams.put node (rs.mapIdx fun j r => if j = i then { r with created := true } else r) }
      .next ((s.bump L.key 1 0).settleWalk tag)

-- Cores (R109 to R111)

/-- The blocks of a core. -/
def State.blocksOn (s : State) (core : Nat) : List (Nat × Block) :=
  s.blocks.filter fun (b : Nat × Block) => b.2.core == core

/-- A core's gang slots that no block holds. -/
def State.freeGangSlots (s : State) (core : Nat) : List Nat :=
  let used := ((s.blocksOn core).map (·.2.slots)).flatten
  (List.range 16).filter fun i => !used.contains i

/-- Whether everything that a launch's block declares is free on a core (R109). Registers go to waiting `GROW`s first (R149). -/
def State.fits (s : State) (L : Launch) (core : Nat) : Bool :=
  let bs := s.blocksOn core
  let sum := fun (f : Block → Nat) => (bs.map fun b => f b.2).foldl (· + ·) 0
  L.gangs ≤ (s.freeGangSlots core).length && (s.core core).grow.isEmpty &&
    L.gangs * 32 * L.regs ≤ s.freeRegs core && sum (·.lsb) + L.lsb ≤ 98304 &&
    sum (·.bars) + L.bars ≤ 64 && !(L.eng 0 && bs.any (·.2.claimsMatrix)) && !(L.eng 1 && bs.any (·.2.claimsCopy))

/-- The lowest-numbered core of a cluster that fits. -/
def fitIn (fits : Nat → Bool) (node cluster : Nat) : Option Nat :=
  (List.range 16).findSome? fun i =>
    let core := node * 512 + cluster * 16 + i
    if fits core then some core else none

/-- Whether a cluster's stacked pair is within 8 % current balance (R110). -/
def Die.balanced (d : Die) (cluster : Nat) : Bool :=
  let a := d.currents.getD (cluster / 2 * 2) 0
  let b := d.currents.getD (cluster / 2 * 2 + 1) 0
  100 * apart a b ≤ 8 * Nat.max a b

/-- What the dispatcher does with a block on a die: a core for it, or a gated cluster to wake for it. -/
inductive CoreChoice where
  | core (c : Nat)
  | wake (cluster : Nat)
  deriving DecidableEq, Repr

/-- The choice of R110 and R111. A block that has selected a gated cluster waits for its wake and is placed there; so does one
that selects a cluster that is waking. -/
def State.chooseCore (s : State) (fits : Nat → Bool) (node : Nat) (hint bound : Option Nat) : Option CoreChoice :=
  let die := s.dies.get {} node
  let cl := fun (c : Nat) => s.cluster (node * 32 + c)
  let there := bound.bind fun c => if (s.cluster c).waking then none else (fitIn fits node (c % 32)).map .core
  let hinted := hint.bind fun h =>
    let c := h / 16
    if !(cl c).gated && !(cl c).out && die.balanced c && fits (node * 512 + h) then some (node * 512 + h) else none
  if bound.any fun c => (s.cluster c).waking then none
  else
    match there, hinted with
    | some c, _ => some c
    | none, some c => some (.core c)
    | none, none =>
      let able := die.prefs.filter fun c => !(cl c).out && (fitIn fits node c).isSome
      match able.find? fun c => !(cl c).gated || (cl c).waking with
      | some c => if (cl c).waking then some (.wake (node * 32 + c)) else (fitIn fits node c).map .core
      | none => (able.head?).map fun c => .wake (node * 32 + c)

/-- A gated cluster selected for a dispatch: it wakes (Table 6.4). -/
def State.wakeCluster (s : State) (c : Nat) : State :=
  { s with clusters := s.clusters.put c { s.cluster c with waking := true } }

/-- PCLAIM of a cluster (R111): a block waits for its wake and is not placed yet. A block that is placed at once sets it and
clears it in one clk. -/
def State.pclaim (s : State) (c : Nat) : Bool :=
  (s.launches.any fun (l : Nat × Launch) =>
    (l.2.streams.any fun (x : Nat × List Routed) => x.2.any (·.bound == some c)) ||
      l.2.cells.any fun (x : Nat × Cell) => !x.2.placed && x.2.members.any (·.bound == some c)) ||
    s.images.any fun (x : Nat × Saved) => x.2.out && x.2.bound == some c

/-- Whether a die dispatches blocks of a context: it runs it, and no save is under way (R337). -/
def State.dispatches (s : State) (node ctx : Nat) : Bool :=
  s.dieCtx.find? node == some ctx && (s.saves.find? node).isNone

/-- The k registers of a block's gangs (R44). -/
def Launch.kRegs (L : Launch) (tag : Nat) (tile : DWord) : SMap Word :=
  let w := fun (a : DWord) (h : Nat) => a.extractLsb' (32 * h) 32
  let arg := BitVec.ofNat 64 (field L.lrec 0x70 8)
  let vs : List Word := [w arg 0, w arg 1, w L.addr 0, w L.addr 1, w tile 0, w tile 1, BitVec.ofNat 32 tag,
    BitVec.ofNat 32 L.gangs]
  (vs.mapIdx fun i v => (i, v)).filter (·.2 != 0)

/-- The first block of a launch that is placed on a core invalidates the core's instruction cache (R136). -/
def State.freshCode (s : State) (tag core : Nat) : State :=
  if (s.launches.find? tag).any fun L => L.ran.contains core then s
  else (s.setCore core { s.core core with icache := [] }).onLaunch tag fun L => { L with ran := core :: L.ran }

/-- A block placed on a core (R109): its resources are reserved, its window reads as zero, and its gangs start at ENTRY after
the acquire of Table 13.2. Answers the block's number. -/
def State.startBlock (s : State) (tag : Nat) (L : Launch) (r : Routed) (core : Nat) (ens : Option (Nat × Nat)) :
    State × Nat :=
  let slots := (s.freeGangSlots core).take L.gangs
  let b := 16 * core + slots.headD 0
  let B : Block :=
    { core := core, ctx := L.ctx, tag := tag, index := r.index, slots := slots, coord := r.coord, tile := r.tile,
      hint := r.hint, recPa := r.pa, tileNode := r.home, ens := ens.map (·.1), member := (ens.map (·.2)).getD 0, lsb := L.lsb,
      regs := L.regs, bars := L.bars, ebars := L.ebars, cbars := L.cbars, claimsMatrix := L.eng 0, claimsCopy := L.eng 1,
      cont := BitVec.ofNat 64 (field L.lrec 0x18 8) }
  let lane : Lane := { pc := BitVec.ofNat 64 (field L.lrec 0 8), checkTarget := true, checkEntry := true }
  let gang := fun (n : Nat) =>
    ({ block := b, number := n, lanes := List.replicate 32 lane, k := L.kRegs tag r.tile, alloc := L.regs } : Gang)
  let s := { s.freshCode tag core with blocks := s.blocks.put b B }
  let s := (slots.mapIdx fun n sl => (n, sl)).foldl (fun s x => s.setGang (16 * core + x.2) (gang x.1)) s
  (s.acquireAt core .sys, b)

/-- A cell whose ensemble is formed and waits to be placed. -/
def Cell.waits (c : Cell) : Bool := c.formed && !c.placed

/-- The members of an ensemble placed one after another: the blocks, or none if one does not fit. `wake` gathers the gated
clusters that members select, with the members' numbers. -/
def State.placeMembers (s : State) (tag : Nat) (L : Launch) (e : Nat) :
    List (Nat × Routed) → Option (State × List Nat × List (Nat × Nat))
  | [] => some (s, [], [])
  | (n, r) :: ms =>
    match s.chooseCore (s.fits L) r.node r.hint r.bound with
    | none => none
    | some (.wake c) =>
      let awake := { s with clusters := s.clusters.put c { s.cluster c with gated := false, waking := false } }
      (State.placeMembers awake tag L e ms).map fun x => (x.1, x.2.1, (n, c) :: x.2.2)
    | some (.core core) =>
      let (s, b) := s.startBlock tag L r core (some (e, n))
      (s.placeMembers tag L e ms).map fun x => (x.1, b :: x.2.1, x.2.2)

/-- An ensemble's placement in one step (R113); none where it does not fit. The clusters that members have to wait for, where
there are some, with the members' numbers. -/
def State.tryEnsemble (s : State) (tag : Nat) (L : Launch) (c : Cell) : Option (State × List (Nat × Nat)) :=
  match cellDies c.members with
  | none => none
  | some (anchor, partner) =>
    let used := ((s.ensembles.filter fun (e : Nat × Ensemble) => e.2.anchor == anchor).map fun e => e.2.ebars).foldl (· + ·) 0
    let dies := c.members.map (·.node)
    if 256 < used + L.ebars || c.members.any (·.away) || !dies.all (s.dispatches · L.ctx) then none
    else
      let e := (s.ensembles.freeFrom (s.ensembles.length + 1) 0).getD 0
      match s.placeMembers tag L e (c.members.mapIdx fun n r => (n, r)) with
      | none => none
      | some (t, bs, []) =>
        let members := (bs.zip dies).map fun x => (x.1, partner == some x.2)
        let E : Ensemble :=
          { tag := tag, anchor := anchor, partner := partner, members := members, lsb := L.lsb, ebars := L.ebars }
        some ({ t with ensembles := t.ensembles.put e E }, [])
      | some (_, _, cs) => some (s, cs)

/-- The place of a launch among those of its die (R90): the highest queue level first, and within it the launches in turn. -/
def Die.rank (d : Die) (tag level : Nat) : Nat := (3 - level) * 2 ^ 34 + (if tag ≤ d.turn then 2 ^ 33 else 0) + tag

/-- The waiting ensembles of a die that could be placed now: launch, level and cell. -/
def State.ensemblesFor (s : State) (node : Nat) : List (Nat × Nat × Nat) :=
  (s.launches.map fun (l : Nat × Launch) => l.2.cells.filterMap fun (c : Nat × Cell) =>
    if c.2.waits && c.2.members.any (·.node == node) && (s.tryEnsemble l.1 l.2 c.2).isSome then some (l.1, l.2.level, c.1)
    else none).flatten

/-- Whether an ensemble is the one that its dies place next: the first in the order of R90 on its anchor's die, and of no lower
level than any other on its partner's. -/
def State.ensembleNext (s : State) (tag cell : Nat) (L : Launch) (c : Cell) : Bool :=
  match cellDies c.members with
  | none => false
  | some (anchor, partner) =>
    let first := leastBy (fun (x : Nat × Nat × Nat) => (s.dies.get {} anchor).rank x.1 x.2.1) (s.ensemblesFor anchor)
    first.any (fun x => x.1 == tag && x.2.2 == cell) &&
      partner.all fun n => (s.ensemblesFor n).all fun x => decide (x.2.1 ≤ L.level)

/-- A die's turn taken by a launch (R90). -/
def State.takeTurn (s : State) (node tag : Nat) : State :=
  { s with dies := s.dies.put node { s.dies.get {} node with turn := tag } }

/-- `ENSEMBLE_PLACE` (R113, R90). -/
def execEnsemblePlace (tag cell : Nat) (s : State) : Host.Outcome State Fault Refusal :=
  match s.launches.find? tag with
  | none => .next s
  | some L =>
    match L.cells.find? cell with
    | none => .next s
    | some c =>
      if !c.waits || !s.ensembleNext tag cell L c then .next s
      else
        match s.tryEnsemble tag L c with
        | none => .next s
        | some (t, []) =>
          let t := t.onLaunch tag fun L => { L with cells := L.cells.put cell { c with placed := true } }
          let t := ((c.members.map (·.node)).dedup).foldl (fun t n => t.takeTurn n tag) t
          .next ((t.bump L.key c.members.length 0).settleWalk tag)
        | some (_, cs) =>
          let bind := fun (n : Nat) (r : Routed) => { r with bound := ((cs.find? (·.1 == n)).map (·.2)).or r.bound }
          let s := s.onLaunch tag fun L => { L with cells := L.cells.put cell { c with members := c.members.mapIdx bind } }
          .next (cs.foldl (fun s c => s.wakeCluster c.2) s)

/-- Whether a waiting ensemble of a die could be placed now: it goes before any single block (R113). -/
def State.ensembleFirst (s : State) (node : Nat) : Bool := !(s.ensemblesFor node).isEmpty

/-- The first created block of a launch's stream that the dispatcher can act on (R109). -/
def State.nextBlock (s : State) (L : Launch) (node : Nat) : Option (Routed × CoreChoice) :=
  (L.streams.get [] node).findSome? fun r =>
    if r.created then (s.chooseCore (s.fits L) node r.hint r.bound).map fun c => (r, c) else none

/-- The dispatcher's choice on a die (R90). -/
def State.placeChoice (s : State) (node : Nat) : Option (Nat × Routed × CoreChoice) :=
  if s.ensembleFirst node then none
  else
    let able := s.launches.filterMap fun (l : Nat × Launch) =>
      if s.dispatches node l.2.ctx then (s.nextBlock l.2 node).map fun x => (l.1, l.2.level, x) else none
    (leastBy (fun (x : Nat × Nat × Routed × CoreChoice) => (s.dies.get {} node).rank x.1 x.2.1) able).map fun x => (x.1, x.2.2)

/-- `BLOCK_PLACE` (R109 to R111). -/
def execBlockPlace (tag node index : Nat) (s : State) : Host.Outcome State Fault Refusal :=
  match s.placeChoice node, s.launches.find? tag with
  | some (t, r, choice), some L =>
    if t ≠ tag || r.index ≠ index then .next s
    else
      match choice with
      | .wake c =>
        let bind := fun (x : Routed) => if x = r then { x with bound := some c } else x
        .next ((s.onLaunch tag fun L => { L with streams := L.streams.adjust node (List.map bind) }).wakeCluster c)
      | .core core =>
        let s := (s.startBlock tag L r core none).1
        let s := s.onLaunch tag fun L => { L with streams := L.streams.write [] node ((L.streams.get [] node).erase r) }
        .next (s.takeTurn node tag)
  | some _, none | none, _ => .next s

/-- The preference list of a die from its layer currents (R110): clusters of lighter layers first, and within each group
the largest gap first. -/
def preferences (currents : List Nat) : List Nat :=
  let i := fun (c : Nat) => currents.getD c 0
  let other := fun (c : Nat) => if c % 2 = 0 then c + 1 else c - 1
  let gap := fun (c : Nat) => apart (i c) (i (other c))
  let top := currents.foldl Nat.max 0
  sortBy (fun c => ((if i c < i (other c) then 0 else 1) * (top + 1) + (top - gap c)) * 32 + c) (List.range 32)

/-- WEIGHT of the contexts whose work runs on a cluster: the lowest of its cores' (R86). -/
def State.weight (s : State) (cluster : Nat) : Nat :=
  ((List.range 16).map fun i => (s.core (16 * cluster + i)).pwrset.weight.toNat).foldl Nat.min 255

/-- Clusters in the order in which Bellows raises them: the lowest WEIGHT first, then the lowest number (R86). -/
def State.raiseOrder (s : State) (cs : List Nat) : List Nat := sortBy (fun c => s.weight c * 4096 + c) cs

/-- A cluster's pass count raised by Bellows, by one step or by two. -/
def State.raise_ (s : State) (c : Nat) : State :=
  let K := s.cluster c
  let code := Nat.min 2 (K.bel.toNat + 1 + Config.freeNat s.ctr (2 ^ 33 + c) % 2)
  { s with clusters := s.clusters.put c { K with bel := BitVec.ofNat 2 code } }

/-- The heavier clusters of the pairs of a die that are more than 10 % apart (R14). -/
def heavier (node : Nat) (currents : List Nat) : List Nat :=
  (List.range 16).filterMap fun p =>
    let a := currents.getD (2 * p) 0
    let b := currents.getD (2 * p + 1) 0
    if 100 * apart a b ≤ 10 * Nat.max a b then none else some (32 * node + 2 * p + if a < b then 1 else 0)

/-- Sum of a list. -/
def total (xs : List Nat) : Nat := xs.foldl (· + ·) 0

/-- The first of some clusters, in Bellows' order, whose pass count can still rise, raised. -/
def State.raiseFirst (s : State) (cs : List Nat) : State :=
  match (s.raiseOrder cs).find? fun c => (s.cluster c).bel.toNat < 2 with
  | some c => s.raise_ c
  | none => s

/-- The current-step limit that applies to the work of a context in a region, in units of 8 A: STEP lowers the region's
(R15, R86). -/
def State.stepLimit (s : State) (region : Nat) (step : Nat) : Nat :=
  let l := s.limits.get 0 region
  if step = 0 || l ≤ step then l else step

/-- By how much the summed current of some dies has risen in the last 200 ns, as their monitors have told Bellows, in A. -/
def State.rise (s : State) (nodes : List Nat) : Int :=
  (nodes.map fun n => let d := s.dies.get {} n; if s.now ≤ d.riseAt + 200 then d.rise else 0).foldl (· + ·) 0

/-- The rise of a region's current held within its limit, and that of a context's dies in it within the context's: Bellows
raises one of their clusters (R15, R86). -/
def State.holdStep (s : State) (node : Nat) : State :=
  let region := node / 8
  let all := (List.range 8).map (8 * region + ·)
  let mine := all.filter fun n => s.dieCtx.find? n == s.dieCtx.find? node
  let clusters := fun (ns : List Nat) => (ns.map fun n => (List.range 32).map (32 * n + ·)).flatten
  let limit := s.limits.get 0 region
  if limit = 0 then s
  else if 8 * (limit : Int) < s.rise all then s.raiseFirst (clusters all)
  else if 8 * (s.stepLimit region (s.core (node * 512)).pwrset.step.toNat : Int) < s.rise mine then s.raiseFirst (clusters mine)
  else s

/-- `PREFERENCE_REBUILD` (R14, R15, R86, R110): the list from the layers' currents, in A, and Bellows' demands. -/
def execPreferenceRebuild (node : Nat) (currents : List Nat) (s : State) : Host.Outcome State Fault Refusal :=
  if 128 ≤ node then .fault .noSuchPart
  else
    let die := s.dies.get {} node
    let die := { die with
      currents := currents, prefs := preferences currents, rise := (total currents : Int) - total die.currents, riseAt := s.now }
    let s := { s with dies := s.dies.put node die }
    .next (((s.raiseOrder (heavier node currents)).foldl (fun s c => s.raise_ c) s).holdStep node)

/-- Whether a cluster holds a gang. -/
def State.occupied (s : State) (c : Nat) : Bool := s.gangs.any fun (g : Nat × Gang) => clusterOf (coreOf g.1) == c

/-- `CLUSTER_GATE` (R111). -/
def execClusterGate (cluster : Nat) (s : State) : Host.Outcome State Fault Refusal :=
  if 4096 ≤ cluster then .fault .noSuchPart
  else
    let c := s.cluster cluster
    if c.gated || s.pclaim cluster || s.occupied cluster || s.now < c.idleSince + 20000 then .next s
    else .next { s with clusters := s.clusters.put cluster { c with gated := true } }

/-- `CLUSTER_WAKE` (R111). -/
def execClusterWake (cluster : Nat) (s : State) : Host.Outcome State Fault Refusal :=
  let c := s.cluster cluster
  if !c.waking then .next s
  else .next { s with clusters := s.clusters.put cluster { c with gated := false, waking := false, idleSince := s.now } }

-- WALKRES (R117)

/-- An outstanding walk fault resumed (R106). -/
def State.resumeWalk (s : State) (tag : Nat) (skip : Bool) : State :=
  let s := s.onLaunch tag fun L =>
    let out := L.deferred.filter (·.faulted)
    let L := if skip then
        out.foldl (fun L e => L.reach e.coord none) { L with deferred := L.deferred.filter fun e => !e.faulted }
      else
        { L with deferred := L.deferred.map fun e => if e.faulted then { e with faulted := false, ready := true } else e }
    let L := if L.cursorFault && skip then { L with cursor := L.cursor + 1 } else L
    let L := { L with cursorFault := false }.advance (L.skip.length + 1)
    { L with walk := if L.cursor < L.records then .walking else .draining }
  s.settleWalk tag

/-- `WALKRES` of a group. -/
def walkres (skip : Bool) (d a : BitVec 8) : ThreadBody :=
  tokenOp ⟨false, a⟩ fun s k _ l tag =>
    match s.launches.find? tag with
    | none => s.laneResult k l d 2
    | some L =>
      if L.ctx ≠ s.ctxId (coreNode (coreOf k)) then s.laneResult k l d 2
      else if L.cancelled || ((s.crecs.find? L.key).map (·.cancelReq)).getD false then s.laneResult k l d 3
      else if L.walk ≠ .faulted then s.laneResult k l d 1
      else (s.resumeWalk tag skip).laneResult k l d 0

/-- `WALKRES` (R117). -/
def execWalkres (g : Guard) (d a : BitVec 8) (s : State) : Host.Outcome State Fault Refusal :=
  threadOp (.walkres g d a) s (walkres false d a)

/-- `WALKRES.skip` (R117). -/
def execWalkresSkip (g : Guard) (d a : BitVec 8) (s : State) : Host.Outcome State Fault Refusal :=
  threadOp (.walkresSkip g d a) s (walkres true d a)

-- TMOVE and TREPL (R118, R119)

/-- An address operand of region 000 translated: a walk to wait for, a fault, or the physical address. -/
def State.operand (s : State) (k : Nat) (G : Gang) (l : Nat) (acc : Access) (a : DWord) :
    State × Except Nat (Except LaneFault Nat) :=
  if a.toNat / 2 ^ 48 ≠ 0 then (s, .ok (.error ⟨0x06, a, false, false⟩))
  else
    match s.lookup (s.asker k G (laneBit l) (G.lane l).mode) acc a.toNat with
    | (s, .wait id) => (s, .error id)
    | (s, .fault f) => (s, .ok (.error (f.at a)))
    | (s, .ok t) => (s, .ok (.ok (t.addr a.toNat)))

/-- A lane's operand, or the fault that stops it, once no walk is to be waited for. -/
abbrev Operand := Except LaneFault Nat

/-- The address operands of the active lanes: what each must be aligned to, and the access it makes. -/
def State.operands (s : State) (k : Nat) (G : Gang) (l : Nat) :
    List (DWord × Bool × Nat × Access) → State × Except Nat (List Operand)
  | [] => (s, .ok [])
  | (a, p, align, acc) :: xs =>
    let here : State × Except Nat Operand :=
      if p then (s, .ok (.error ⟨0x07, 0, false, false⟩))
      else if a.toNat % align ≠ 0 then (s, .ok (.error ⟨0x04, a, false, false⟩))
      else s.operand k G l acc a
    match here with
    | (s, .error id) => (s, .error id)
    | (s, .ok x) =>
      match s.operands k G l xs with
      | (s, .error id) => (s, .error id)
      | (s, .ok ys) => (s, .ok (x :: ys))

/-- The operands of every active lane. -/
def State.laneOperands (s : State) (k : Nat) (G : Gang) (f : View → List (DWord × Bool × Nat × Access)) :
    List Nat → State × Except Nat (List (Nat × List Operand))
  | [] => (s, .ok [])
  | l :: ls =>
    match s.operands k G l (f (G.view l)) with
    | (s, .error id) => (s, .error id)
    | (s, .ok xs) =>
      match s.laneOperands k G f ls with
      | (s, .error id) => (s, .error id)
      | (s, .ok ys) => (s, .ok ((l, xs) :: ys))

/-- The first fault among the first `need` operands: poison of any operand first, then alignment, then translation. -/
def firstFault (need : Nat) (xs : List Operand) : Option LaneFault :=
  let faults := fun (xs : List Operand) => xs.filterMap fun x => match x with
    | .error f => some f
    | .ok _ => none
  let fs := faults (xs.take need)
  match (faults xs).find? (·.cause == 0x07) with
  | some f => some f
  | none =>
    match fs.find? (·.cause == 0x04) with
    | some f => some f
    | none => fs.head?

/-- An instruction on placement records: each active lane in turn, with its operands translated; the answer is the lane's
result or its fault. -/
def recordOp (d : BitVec 8) (ops : View → List (DWord × Bool × Nat × Access)) (need : Nat)
    (f : State → Nat → Nat → View → List Operand → State × Except LaneFault Nat) : ThreadBody := fun s k m =>
  match s.gangs.find? k with
  | none => s
  | some G =>
    match s.laneOperands k G ops (lanesOf m) with
    | (s, .error id) => s.stall k m (.walk id)
    | (s, .ok xs) =>
      xs.foldl (fun s x =>
        let pc := (s.lane k x.1).pc
        match firstFault need x.2 with
        | some e => s.trap k x.1 e.cause e.v pc e.host e.migrating
        | none =>
          match f s k x.1 (G.view x.1) x.2 with
          | (s, .error e) => s.trap k x.1 e.cause e.v pc e.host e.migrating
          | (s, .ok r) => s.laneResult k x.1 d (BitVec.ofNat 32 r)) s

/-- Whether a tile length breaks R118. -/
def badLength (n : Nat) : Bool := n == 0 || n % 128 != 0 || decide (2 ^ 24 < n)

/-- Whether a migration waits for a record's claim. -/
def State.migrationPending (s : State) (pa : Nat) : Bool :=
  s.migrations.any fun (m : Nat × Migration) => m.2.pa == pa && m.2.pending

/-- Whether the pending table of a record's die is full. -/
def State.pendingFull (s : State) (pa : Nat) : Bool :=
  256 ≤ (s.migrations.filter fun (m : Nat × Migration) => m.2.pending && nodeOf m.2.pa == nodeOf pa).length

/-- A migration added to the device's tables. -/
def State.addMigration (s : State) (m : Migration) : State :=
  { s with migrations := s.migrations.put ((s.migrations.freeFrom (s.migrations.length + 1) 0).getD 0) m }

/-- What a lane's `TMOVE` or `TREPL.add` does once the record may migrate: at once, or held pending. -/
def State.migrate (s : State) (m : Migration) (r : List Byte) : State × Nat :=
  if prClaim r ≠ 0 then
    if s.pendingFull m.pa then (s, 5) else (s.addMigration m, 1)
  else
    let (s, m) := s.startMove m r
    (s.addMigration m, 0)

/-- The migration of a lane. -/
def State.migration (s : State) (k pa dn : Nat) (va : DWord) (kind : MigKind) : Migration :=
  let core := coreOf k
  { ctx := s.ctxId (coreNode core), secure := (s.core core).secure, pa := pa, recVa := va, kind := kind, pending := true,
    node := dn }

/-- `TMOVE` (R118). -/
def execTmove (g : Guard) (d a b : BitVec 8) (len : Word) (s : State) : Host.Outcome State Fault Refusal :=
  threadOp (.tmove g d a b len) s (recordOp d
    (fun v => [((v.pair ⟨false, a⟩).1, (v.pair ⟨false, a⟩).2, 32, .readWrite),
      ((v.pair ⟨false, b⟩).1, (v.pair ⟨false, b⟩).2, 128, .write)]) 2
    fun s k _ v xs =>
      match xs with
      | [.ok pa, .ok ta] =>
        let dn := nodeOf ta
        if badLength len.toNat then (s, .ok 4)
        else
          match s.prUpdate pa fun _ => none with
          | (s, none) => (s, .ok 7)
          | (s, some r) =>
            if prState r = 2 || s.migrationPending pa then (s, .ok 2)
            else if prBad r || prState r ≠ 1 then (s, .ok 3)
            else if dn = prHome r then (s, .ok 4)
            else
              let m := s.migration k pa dn (v.pair ⟨false, a⟩).1 (.move (v.pair ⟨false, b⟩).1 len.toNat)
              let (s, x) := s.migrate m r
              (s, .ok x)
      | _ => (s, .ok 7))

/-- `TREPL.add` (R119). The vector address counts only for a RESIDENT record. -/
def execTreplAdd (g : Guard) (d a b c : BitVec 8) (len : Word) (s : State) : Host.Outcome State Fault Refusal :=
  threadOp (.treplAdd g d a b c len) s (recordOp d
    (fun v => [((v.pair ⟨false, a⟩).1, (v.pair ⟨false, a⟩).2, 32, .readWrite),
      ((v.pair ⟨false, b⟩).1, (v.pair ⟨false, b⟩).2, 128, .write),
      ((v.pair ⟨false, c⟩).1, (v.pair ⟨false, c⟩).2, 32, .write)]) 2
    fun s k _ v xs =>
      match xs with
      | [.ok pa, .ok ta, vec] =>
        let dn := nodeOf ta
        if badLength len.toNat then (s, .ok 4)
        else
          match s.prUpdate pa fun _ => none with
          | (s, none) => (s, .ok 7)
          | (s, some r) =>
            let st := prState r
            if st = 2 || s.migrationPending pa then (s, .ok 2)
            else if prBad r || (st ≠ 1 && st ≠ 3) || prRepl r = 15 then (s, .ok 3)
            else if dn = prHome r || (prSlots r).any fun i => prNode r i == dn then (s, .ok 4)
            else
              let go := fun (s : State) =>
                let m := s.migration k pa dn (v.pair ⟨false, a⟩).1
                  (.add (v.pair ⟨false, b⟩).1 (v.pair ⟨false, c⟩).1 len.toNat)
                let (s, x) := s.migrate m r
                (s, (.ok x : Except LaneFault Nat))
              if st = 3 then go s
              else
                match vec with
                | .error f => if f.cause = 0x04 then (s, .ok 6) else (s, .error f)
                | .ok c' => if nodeOf c' ≠ prHome r then (s, .ok 6) else go s
      | _ => (s, .ok 7))

/-- `TREPL.drop` (R119). -/
def execTreplDrop (g : Guard) (d a : BitVec 8) (slots : BitVec 4) (s : State) : Host.Outcome State Fault Refusal :=
  threadOp (.treplDrop g d a slots) s (recordOp d
    (fun v => [((v.pair ⟨false, a⟩).1, (v.pair ⟨false, a⟩).2, 32, .readWrite)]) 1
    fun s k _ v xs =>
      match xs with
      | [.ok pa] =>
        match s.prUpdate pa fun _ => none with
        | (s, none) => (s, .ok 7)
        | (s, some r) =>
          let home := (prPrimary r).any fun i => slots.getLsbD i
          let invalid := (List.range 4).any fun i => slots.getLsbD i && !(prSlots r).contains i
          let m := s.migration k pa 0 (v.pair ⟨false, a⟩).1 (.drop slots)
          if prBad r || prState r ≠ 3 || home || invalid then (s, .ok 3)
          else if prClaim r ≠ 0 then
            if s.pendingFull pa then (s, .ok 5) else (s.addMigration m, .ok 1)
          else
            match s.dropReplicas (s.tileAgent m) r slots with
            | (s, none) => (s, .ok 7)
            | (s, some r') => ((s.baseWrite (runAt pa (clean r'))).tellChanter pa, .ok 0)
      | _ => (s, .ok 7))

-- Migrations (R118, R119)

/-- The next piece of a tile copied: up to the next page of the source and of the destination. -/
def State.copyTile (s : State) (id : Nat) (m : Migration) : State :=
  let (ta, n) := m.kind.target
  let src := m.src + BitVec.ofNat 64 m.done
  let dst := ta + BitVec.ofNat 64 m.done
  let len := Nat.min (n - m.done) (Nat.min (65536 - src.toNat % 65536) (65536 - dst.toNat % 65536))
  let fail := fun (s : State) => { s with migrations := s.migrations.put id { m with faulted := true } }
  match devRead (s.tileAgent m) src len s with
  | (s, .error _) => fail s
  | (s, .ok bs) =>
    match devWrite (s.tileAgent m) dst bs s with
    | (s, .error _) => fail s
    | (s, .ok _) => { s with migrations := s.migrations.put id { m with done := m.done + len } }

/-- The atomic write of a commit, with GEN raised. -/
def State.commit (s : State) (id : Nat) (m : Migration) (f : List Byte → List Byte) : State :=
  let s := (s.prUpdate m.pa fun r => some (prNext (f r))).1
  { s with migrations := s.migrations.del id }.tellChanter m.pa

/-- `MOVE_COMMIT` (R118): the copy goes on, and commits once it has ended without a fault. -/
def execMoveCommit (move : Nat) (s : State) : Host.Outcome State Fault Refusal :=
  match s.migrations.find? move with
  | some m =>
    match m.kind with
    | .move ta n =>
      if m.pending || m.faulted then .next s
      else if m.done < n then .next (s.copyTile move m)
      else
        .next (s.commit move m fun r =>
          setField (setField (setField (setField r 8 1 m.node) 24 8 ta.toNat) 10 2 0) 9 1 1)
    | .add _ _ _ | .drop _ => .next s
  | none => .next s

/-- The commit of a new replica (R119). -/
def State.commitReplica (s : State) (id : Nat) (m : Migration) (ta vec : DWord) : State :=
  let ag := s.tileAgent m
  let fail := fun (s : State) => { s with migrations := s.migrations.put id { m with faulted := true } }
  match s.prUpdate m.pa fun _ => none with
  | (s, none) => fail s
  | (s, some r) =>
    if m.was = 3 then
      match (List.range 4).find? fun i => !(prSlots r).contains i with
      | none => fail s
      | some i =>
        match devWrite ag (BitVec.ofNat 64 (prAddr r + 8 * i)) (clean (toBytes 8 ta.toNat)) s with
        | (s, .error _) => fail s
        | (s, .ok _) =>
          s.commit id m fun r => setField (setField (setField r (16 + i) 1 m.node) 15 1 (prRepl r + 2 ^ i)) 9 1 3
    else
      match devWrite ag vec (clean (toBytes 8 (prAddr r) ++ toBytes 8 ta.toNat ++ toBytes 16 0)) s with
      | (s, .error _) => fail s
      | (s, .ok _) =>
        s.commit id m fun r =>
          setField (setField (setField (setField (setField r 16 1 (prHome r)) 17 1 m.node) 15 1 3) 24 8 vec.toNat) 9 1 3

/-- `REPLICA_ADD_COMMIT` (R119). -/
def execReplicaAddCommit (move : Nat) (s : State) : Host.Outcome State Fault Refusal :=
  match s.migrations.find? move with
  | some m =>
    match m.kind with
    | .add ta vec n =>
      if m.pending || m.faulted then .next s
      else if m.done < n then .next (s.copyTile move m)
      else .next (s.commitReplica move m ta vec)
    | .move _ _ | .drop _ => .next s
  | none => .next s

/-- `MIGRATION_ABORT` (R118): the copy has faulted, and the record returns to its state, GEN unchanged. -/
def execMigrationAbort (move : Nat) (s : State) : Host.Outcome State Fault Refusal :=
  match s.migrations.find? move with
  | none => .next s
  | some m =>
    if !m.faulted || !s.canPost (nodeOf m.pa) (m.ctx + 1) then .next s
    else
      let s := (s.prUpdate m.pa fun r => some (setField r 9 1 m.was)).1
      .next ({ s with migrations := s.migrations.del move }.postAbort m |>.tellChanter m.pa)

-- Retirement (R348, R349)

/-- The retiring write on a block's record (Table 17.1). -/
def State.retiringWrite (s : State) (B : Block) : State :=
  let wr := ((s.launches.find? B.tag).map (·.wrdrive)).getD false
  s.releaseClaim B.recPa B.tag fun r =>
    if prState r = 3 && wr then
      prNext (setField (setField (setField (setField (setField r 9 1 1) 8 1 B.tileNode) 24 8 B.tile.toNat) 15 1 0) 16 4 0)
    else r

/-- A block's gangs, and the block, removed; what their loads still bring is dropped. -/
def State.removeBlock (s : State) (b : Nat) (B : Block) : State :=
  let mine := fun (r : Request) => (r.gang.map B.gangs.contains).getD false
  let s := { s with
    gangs := s.gangs.filter fun (g : Nat × Gang) => !B.gangs.contains g.1
    blocks := s.blocks.del b
    requests := s.requests.mapV fun _ (r : Request) => if mine r then { r with gang := none } else r
    copyTokens := s.copyTokens.filter fun (t : Nat × CopyToken) => t.2.residual.block != b }
  let c := clusterOf B.core
  let s := if s.occupied c then s else { s with clusters := s.clusters.put c { s.cluster c with idleSince := s.now } }
  s.grantGrow B.core (s.core B.core).grow

/-- Unreported copy faults of exited gangs posted (R351). -/
def State.postCopyFaults (s : State) (B : Block) : State :=
  B.gangs.foldl (fun s k =>
    match s.gangs.find? k with
    | none => s
    | some G =>
      G.copyFaults.foldl (fun s n =>
        match (s.copyTokens.find? (tokenKey B.ctx n.token)).bind fun t => t.residual.fault.map fun f => (t.residual, f) with
        | some (c, cause, v, _) => s.postLate k n.lane 3 cause c.pc v (c.residual cause)
        | none => s) s) s

/-- A block's resources given back; an ensemble member's with those of its whole ensemble (R349). -/
def State.freeBlock (s : State) (b : Nat) (B : Block) : State :=
  match B.ens.bind fun e => (s.ensembles.find? e).map fun E => (e, E) with
  | none => s.removeBlock b B
  | some (e, E) =>
    let E := { E with retired := E.retired ++ [b] }
    if E.members.all fun m => E.retired.contains m.1 then
      let s := E.members.foldl (fun s m =>
        match s.blocks.find? m.1 with
        | some B => s.removeBlock m.1 B
        | none => s) s
      { s with ensembles := s.ensembles.del e }
    else
      -- Barriers and engines come free with the block; gang slots, registers and local store stay with the ensemble.
      let B := { B with retired := true, bars := 0, claimsMatrix := false, claimsCopy := false }
      { s with ensembles := s.ensembles.put e E, blocks := s.blocks.put b B }

/-- Whether a block retires (R348). -/
def State.retires (s : State) (b : Nat) (B : Block) : Bool :=
  !B.retired && B.gangs.all (fun k => !s.gangLives k && s.outstanding k == 0) && B.mseq.run == .idle && B.cseq.run == .idle &&
    !s.copies.any fun c => c.2.block == b

/-- `BLOCK_RETIRE` (R348). A block whose retirement may post a record waits while none could be posted (R332). -/
def execBlockRetire (block : Nat) (s : State) : Host.Outcome State Fault Refusal :=
  match s.blocks.find? block with
  | none => .next s
  | some B =>
    let posts := !(s.pendingFor B.recPa).isEmpty || B.gangs.any fun k => (s.gangs.find? k).any (!·.copyFaults.isEmpty)
    if !s.retires block B || (posts && !(s.canPost (coreNode B.core) (B.ctx + 1) && s.canPost (nodeOf B.recPa) (B.ctx + 1))) then
      .next s
    else
      let s := s.releaseAt B.core .sys
      let s := ((s.postCopyFaults B).markFlags).retiringWrite B
      let s := s.freeBlock block B
      match s.launches.find? B.tag with
      | none => .next s
      | some L => .next ((List.range L.cbars).foldl (fun s n => s.settleBar (.coop B.tag n)) (s.bump L.key (-1) 1))

/-- `SEQUENCER_EXIT` (R195): once what it issued has completed; and a stop that no lane is left to take (R198). -/
def execSequencerExit (block : Nat) (matrix : Bool) (s : State) : Host.Outcome State Fault Refusal :=
  match s.blocks.find? block with
  | none => .next s
  | some B =>
    let q := B.seq matrix
    if q.exiting && s.copiesDone (·.ofSeq block matrix) then
      .next ((s.onSeq block matrix fun q => { q with run := .idle, exiting := false }).seqLeaves block matrix)
    else if (q.stop.bind (s.stopTarget B)).isNone then .next (s.deliverStop block matrix)
    else .next s

end Sys2Proof.Machine
end

