-- ==== Sys2Proof/Machine/LoadStore.lean ====
section
/-! DEFINITION. Memory instructions (R228 to R232): loads, stores, prefetches and the cache operations. -/

namespace Sys2Proof.Machine

-- Bytes and registers (R225, R228)

/-- The registers that a load of `n` elements writes, each poisoned when one of its bytes is. -/
def loadRegs (t : Ty) (d : Reg) (n : Nat) (bs : List PByte) : List (Reg × Word × Bool) :=
  let z := t.bytes
  ((List.range n).map fun i =>
    let e := (bs.drop (i * z)).take z
    let v := ofBytes (e.map (·.1))
    let r := fun (j : Nat) => (⟨d.k, d.n + BitVec.ofNat 8 j⟩ : Reg)
    if t.is64 then
      [(r (2 * i), BitVec.ofNat 32 v, (e.take 4).any (·.2)),
        (r (2 * i + 1), BitVec.ofNat 32 (v / 2 ^ 32), (e.drop 4).any (·.2))]
    else [(r i, BitVec.ofInt 32 (View.valOf t v), e.any (·.2))]).flatten

/-- The bytes that a store of `n` elements writes. -/
def storeBytesOf (v : View) (t : Ty) (b : Reg) (n : Nat) : List PByte :=
  let z := t.bytes
  ((List.range (n * t.regs)).map fun i =>
    let w := v.reg ⟨b.k, b.n + BitVec.ofNat 8 i⟩
    (toBytes (Nat.min z 4) w.1.toNat).map fun x => (x, w.2)).flatten

-- Loads from other devices (R258, R260)

/-- A lane's load from another device: the lane, the device, the offset. -/
abbrev FarLoad := Nat × Nat × Nat

/-- The pending bytes of a gang that a lane's load touches: by offset, byte and writer. -/
def State.pendingOf (s : State) (k : Nat) (f : FarLoad) (n : Nat) : List (Nat × Byte × Nat) :=
  (List.range n).filterMap fun i => (s.pendingByte k f.2.1 (f.2.2 + i)).map fun b => (f.2.2 + i, b)

/-- The unacknowledged `RED` requests of a gang that reach one of the bytes. -/
def State.redsOf (s : State) (k : Nat) (f : FarLoad) (n : Nat) : List Nat :=
  s.requests.filterMap fun r =>
    match r.2.kind with
    | .red _ ty _ =>
      if r.2.gang = some k ∧ r.2.device = f.2.1 ∧ overlaps r.2.offset ty.bytes f.2.2 n then some r.1 else none
    | _ => none

/-- The unacknowledged store requests of a gang that hold one of the bytes. -/
def State.storesOf (s : State) (k : Nat) (f : FarLoad) (n : Nat) : List Nat :=
  s.requests.filterMap fun r =>
    match r.2.kind, r.2.origin with
    | .store bs, .store =>
      if r.2.gang = some k ∧ r.2.device = f.2.1 ∧ bs.any (fun b => f.2.2 ≤ b.1 && b.1 < f.2.2 + n) then some r.1 else none
    | _, _ => none

/-- Whether a load needs pending bytes that another lane of its gang wrote, or that a `RED` changes. -/
def State.needsOthers (s : State) (k : Nat) (f : FarLoad) (n : Nat) : Bool :=
  (s.pendingOf k f n).any (·.2.2 != f.1) || !(s.redsOf k f n).isEmpty

/-- The first and last byte of each 128-byte block that accesses of `n` bytes touch, by block. -/
def touched (n : Nat) (pas : List Nat) : SMap (Nat × Nat) :=
  pas.foldl (fun (m : SMap (Nat × Nat)) pa =>
    match m.find? (pa / 128) with
    | some (lo, hi) => m.put (pa / 128) (Nat.min lo pa, Nat.max hi (pa + n - 1))
    | none => m.put (pa / 128) (pa, pa + n - 1)) []

/-- The smallest aligned grain of 16, 32, 64 or 128 bytes that covers the bytes from `lo` to `hi` of a block: its start and
its length (R223). -/
def grainOf (lo hi : Nat) : Nat × Nat :=
  if lo / 16 = hi / 16 then (lo / 16 * 16, 16)
  else if lo / 32 = hi / 32 then (lo / 32 * 32, 32)
  else if lo / 64 = hi / 64 then (lo / 64 * 64, 64)
  else (lo / 128 * 128, 128)

/-- What lanes' loads from other devices give: what the group has to wait for, or each lane's reply. -/
def State.farLoads (s : State) (k : Nat) (G : Gang) (pc : DWord) (fs : List FarLoad) (n : Nat) :
    State × Except WaitKind (List (Nat × ReplyKind)) :=
  let answer := fun (l : Nat) => (G.answers.find? (·.lane == l)).map (·.reply)
  let left := fs.filter fun f => (answer f.1).isNone
  let others := left.filter fun f => s.needsOthers k f n
  if !left.isEmpty && (!s.room (coreOf k) 64 || left.any (fun f => !s.canSend f.2.1 64)) then
    (s, .error (.again "fabric"))
  else if !others.isEmpty then
    let hit := fun (e : Combine) => e.gang == k && others.any fun f =>
      e.device == f.2.1 && e.bytes.any fun b => f.2.2 ≤ b.1 && b.1 < f.2.2 + n
    let s := s.closeWhere (coreOf k) hit 32
    (s, .error (.remote (others.map fun f => s.storesOf k f n ++ s.redsOf k f n).flatten))
  else
    let whole := fun (f : FarLoad) => (s.pendingOf k f n).length = n
    let ask := left.filter fun f => !whole f
    if ask.isEmpty then
      (s, .ok (fs.map fun f => (f.1, (answer f.1).getD (.data ((s.pendingOf k f n).map fun b => (b.2.1, false))))))
    else
      let devices := (ask.map (·.2.1)).dedup
      let r := (devices.map fun d => (touched n ((ask.filter (·.2.1 == d)).map (·.2.2))).map fun e => (d, e)).flatten.foldl
        (fun (r : State × List Nat) x =>
          let (d, block, lo, hi) := x
          let (off, len) := grainOf lo hi
          let mine := ask.filter fun f => f.2.1 == d && f.2.2 / 128 == block
          let part := fun (f : FarLoad) =>
            (f.1, ({ off := f.2.2, n := n, own := (r.1.pendingOf k f n).map fun b => (b.1, b.2.1) } : LoadPart))
          let (s, id) := r.1.send { r.1.ask k ((mine.head?.map (·.1)).getD 0) pc d off (.load len) .load with
            parts := mine.map part }
          (s, r.2 ++ [id])) (s, [])
      (r.1, .error (.remote r.2))

/-- The lanes' loads from other devices among their places. -/
def farOf (ps : List (Nat × DWord × Spot)) : List FarLoad :=
  ps.filterMap fun p => match p.2.2 with
    | .global d o => some (p.1, d, o)
    | .mem _ _ | .ls _ _ => none

-- LD and LDK (R230)

/-- Bytes of a place of this device as a core loads them. -/
def State.loadSpot (s : State) (core : Nat) (sp : Spot) (n : Nat) (sc : Scope) (pol : Policy) : State × List PByte :=
  match sp with
  | .mem pa ms => s.loadBytes core pa n sc pol ms
  | .ls b o => (s, s.lsRead b o n)
  | .global _ _ => (s, [])

/-- The grains of a group's loads of ordinary pages requested in ascending block address: the sectors, as read (R223). -/
def State.loadGrains (s : State) (core n : Nat) (sc : Scope) (pol : Policy) (pas : List Nat) :
    State × SMap (BitVec 256 × Bool) :=
  ((touched n pas).map fun e => let g := grainOf e.2.1 e.2.2; sectorsOf g.1 g.2).flatten.foldl (fun (r : State × SMap (BitVec 256 × Bool)) sec =>
    let (s, d, p) := r.1.loadSector core sec sc pol
    (s, r.2.put sec (d, p))) (s, [])

/-- The bytes of an access among sectors read. -/
def ofGrains (secs : SMap (BitVec 256 × Bool)) (pa n : Nat) : List PByte :=
  (List.range n).map fun i =>
    let x := secs.get (0, false) ((pa + i) / 32)
    (sectorByte x.1 ((pa + i) % 32), x.2)

/-- Addresses of ordinary pages among places. -/
def cachedOf (ps : List (Nat × DWord × Spot)) : List Nat :=
  ps.filterMap fun p => match p.2.2 with
    | .mem pa false => some pa
    | .mem _ true | .global _ _ | .ls _ _ => none

/-- A lane's bytes, once the grains are there, or the cause that a target gave. -/
def State.laneBytes (s : State) (n : Nat) (far : List (Nat × ReplyKind)) (secs : SMap (BitVec 256 × Bool))
    (p : Nat × DWord × Spot) : Except LaneFault (List PByte) :=
  match SMap.find? far p.1, p.2.2 with
  | some (.data bs), _ => .ok bs
  | some (.fault c), _ => .error ⟨c, p.2.1, false, false⟩
  | some .ack, _ | some .nack, _ | some (.bound _ _), _ | some (.conv _ _ _), _ =>
    .error ⟨0x0D, p.2.1, false, false⟩
  | none, .mem pa false => .ok (ofGrains secs pa n)
  | none, .mem pa true => .ok (s.dram pa n)
  | none, .ls b o => .ok (s.lsRead b o n)
  | none, .global _ _ => .ok []

/-- The lanes' bytes, or the causes that targets gave: one request for each block of ordinary pages (R223). -/
def State.loadLanes (s : State) (core n : Nat) (sc : Scope) (pol : Policy) (far : List (Nat × ReplyKind))
    (ps : List (Nat × DWord × Spot)) : State × List (Nat × Except LaneFault (List PByte)) :=
  let (s, secs) := s.loadGrains core n sc pol (cachedOf ps)
  (s, ps.map fun p => (p.1, s.laneBytes n far secs p))

/-- Loads of lanes that have their places: `put` writes a lane's bytes into the gang, and `m` are the lanes that go on or
trap with them. -/
def loadGo (n : Nat) (sc : Scope) (pol : Policy) (put : Gang → Nat → List PByte → Gang) (m : Mask)
    (ps : List (Nat × DWord × Spot)) (s : State) (k : Nat) (G : Gang) : State :=
  match s.farLoads k G ((s.cur.map (·.pc)).getD 0) (farOf ps) n with
  | (s, .error w) => s.stall k m w
  | (s, .ok far) =>
    let (s, xs) := s.loadLanes (coreOf k) n sc pol far ps
    let s := xs.foldl (fun s x =>
      match x.2 with
      | .ok bs => s.onGang k fun G => put G x.1 bs
      | .error _ => s) s
    let bad := xs.filterMap fun x => match x.2 with
      | .error f => some (x.1, f)
      | .ok _ => none
    (s.advance k (m &&& ~~~(maskOf (bad.map (·.1))))).raise k false bad

/-- The registers of a load written for a lane. -/
def putLoad (t : Ty) (d : Reg) (n : Nat) (G : Gang) (l : Nat) (bs : List PByte) : Gang :=
  (loadRegs t d n bs).foldl (fun G w => G.putReg l w.1 w.2.1 w.2.2) G

/-- `LD` (R230). -/
def execLd (g : Guard) (cnt : Count) (ty : Ty) (sc : Scope) (pol : Policy) (d : BitVec 8) (a : Reg) (off : Word)
    (s : State) : Host.Outcome State Fault Refusal :=
  let n := ty.bytes * cnt.n
  threadOp (.ld g cnt ty sc pol d a off) s (memory a off n n .read true fun s k G _ ps =>
    loadGo n sc pol (putLoad ty ⟨false, d⟩ cnt.n) (maskOf (ps.map (·.1))) ps s k G)

/-- `LDK` (R230): one access for the group, from k registers into k registers. -/
def execLdk (g : Guard) (cnt : Count) (ty : Ty) (sc : Scope) (d a : BitVec 8) (off : Word) (s : State) :
    Host.Outcome State Fault Refusal :=
  let n := ty.bytes * cnt.n
  threadOp (.ldk g cnt ty sc d a off) s (memory ⟨true, a⟩ off n n .read true fun s k G _ ps =>
    let m := maskOf (ps.map (·.1))
    match s.farLoads k G ((s.cur.map (·.pc)).getD 0) (farOf (ps.take 1)) n with
    | (s, .error w) => s.stall k m w
    | (s, .ok far) =>
      match s.loadLanes (coreOf k) n sc .normal far (ps.take 1) with
      | (s, (l, .ok bs) :: _) => (s.onGang k fun G => putLoad ty ⟨true, d⟩ cnt.n G l bs).advance k m
      | (s, (_, .error f) :: _) => s.raise k false ((lanesOf m).map (·, f))
      | (s, []) => s)

-- ST (R230)

/-- The stores of a group, collected: region 000 through the caches, memory-side pages, and each window. -/
structure Stores where
  mem : SMap PByte := []
  ms : SMap PByte := []
  ls : SMap (SMap PByte) := []

/-- Bytes at a place added to those of lower lanes. -/
def Stores.add (w : Stores) (sp : Spot) (bs : List PByte) : Stores :=
  let put := fun (m : SMap PByte) (a : Nat) => (runAt a bs).foldl (fun (m : SMap PByte) e => m.put e.1 e.2) m
  match sp with
  | .mem pa false => { w with mem := put w.mem pa }
  | .mem pa true => { w with ms := put w.ms pa }
  | .ls b o => { w with ls := w.ls.put b (put (w.ls.get [] b) o) }
  | .global _ _ => w

/-- The stores of a group performed. -/
def State.performStores (s : State) (core : Nat) (w : Stores) (sc : Scope) (pol : Policy) : State :=
  let s := if w.mem.isEmpty then s else s.storeBytes core w.mem sc pol false
  let s := if w.ms.isEmpty then s else s.storeBytes core w.ms sc pol true
  w.ls.foldl (fun s b => s.lsWrite b.1 b.2) s

/-- `ST` (R230). -/
def execSt (g : Guard) (cnt : Count) (ty : Ty) (sc : Scope) (pol : Policy) (a b : Reg) (off : Word) (s : State) :
    Host.Outcome State Fault Refusal :=
  let n := ty.bytes * cnt.n
  threadOp (.st g cnt ty sc pol a b off) s (memory a off n n .write true fun s k G _ ps =>
    let core := coreOf k
    let far := fun (p : Nat × DWord × Spot) => match p.2.2 with
      | .global _ _ => true
      | .mem _ _ | .ls _ _ => false
    let bytes := fun (l : Nat) => storeBytesOf (G.view l) ty b cnt.n
    let bad := ps.filter fun p => far p && (bytes p.1).any (·.2)
    let good := ps.filter fun p => !(far p && (bytes p.1).any (·.2))
    let full := !s.room core 64 || (farOf good).any fun f => !s.canSend f.2.1 64
    if !(farOf good).isEmpty && full then s.stall k (maskOf (ps.map (·.1))) (.again "fabric")
    else
      let pc := (s.cur.map (·.pc)).getD 0
      let s := s.performStores core (good.foldl (fun w p => w.add p.2.2 (bytes p.1)) {}) sc pol
      let s := (farOf good).foldl (fun s f => s.combineStore k f.1 pc f.2.1 f.2.2 ((bytes f.1).map (·.1))) s
      (s.advance k (maskOf (good.map (·.1)))).raise k false (bad.map fun p => (p.1, ⟨0x07, 0, false, false⟩)))

-- PREF, CFLUSH, CINV (R231, R232)

/-- The 128-byte lines of region 000 that lanes name on ordinary pages, each once. -/
def linesOf (ps : List (Nat × DWord × Spot)) : List Nat :=
  (ps.filterMap fun p => match p.2.2 with
    | .mem pa false => some (pa / 128)
    | .mem _ true | .global _ _ | .ls _ _ => none).dedup

/-- A line brought into the caches that a scope names (R231). -/
def State.prefetch (s : State) (core : Nat) (sc : Scope) (line : Nat) : State :=
  (lineSectors line).foldl (fun s x =>
    let s := (s.dieSector (coreNode core) x).1
    if sc.wide then s else (s.l1Sector core x).1) s

/-- `PREF` (R231): lanes whose address would fault do nothing. -/
def execPref (g : Guard) (sc : Scope) (a : Reg) (off : Word) (s : State) : Host.Outcome State Fault Refusal :=
  threadOp (.pref g sc a off) s fun s k m =>
    match s.gangs.find? k with
    | none => s
    | some G =>
      match s.blocks.find? G.block with
      | none => s
      | some B =>
        let (s, rs, w) := s.laneAddrs k G B (fun l => (G.view l).pair a) off 1 1 .readOrWrite (lanesOf m)
        match w with
        | some id => s.stall k m (.walk id)
        | none => ((linesOf (placesOf rs)).foldl (fun s x => s.prefetch (coreOf k) sc x) s).advance k m

/-- A line of a core's L1 dropped, as far as its sectors satisfy a test. -/
def State.dropL1 (s : State) (core line : Nat) (p : L1Sector → Bool) : State :=
  let secure := (s.core core).secure
  let gone := fun (e : Nat × L1Sector) => (lineSectors line).any (fun x => l1Key x secure == e.1) && p e.2
  s.setCore core { s.core core with l1 := (s.core core).l1.filter fun e => !gone e }

/-- A line of a node's RDC dropped. -/
def State.dropRdc (s : State) (node line : Nat) : State :=
  { s with rdc := s.rdc.filter fun e => !(lineSectors line).any fun x => rdcKey node x == e.1 }

/-- `CFLUSH` of one line (R232). -/
def State.flushLine (s : State) (core : Nat) (sc : Scope) (inv : Bool) (line : Nat) : State :=
  let node := coreNode core
  if !sc.wide then s
  else
    let s := (lineSectors line).foldl (fun s x => s.l1Flush core (l1Key x (s.core core).secure)) s
    let s := if sc.pkgWide then s.rdcFlushLine node line else s
    if inv then
      let s := s.dropL1 core line fun _ => true
      if sc.pkgWide then s.dropRdc node line else s
    else s

/-- `CINV` of one line (R232). -/
def State.invalidateLine (s : State) (core : Nat) (sc : Scope) (line : Nat) : State :=
  let node := coreNode core
  if !sc.wide then s
  else
    let s := s.dropL1 core line (·.dirty == 0)
    let clean := (lineSectors line).all fun x => ((s.rdc.find? (rdcKey node x)).map (·.dirty == 0)).getD true
    if sc.pkgWide && clean then s.dropRdc node line else s

/-- A cache operation on the lines that the lanes name. -/
def cacheOp (f : State → Nat → Nat → State) (a : Reg) (off : Word) : ThreadBody :=
  memory a off 1 1 .readOrWrite false fun s k _ _ ps =>
    ((linesOf ps).foldl (fun s x => f s (coreOf k) x) s).advance k (maskOf (ps.map (·.1)))

/-- `CFLUSH` (R232). -/
def execCflush (g : Guard) (sc : Scope) (a : Reg) (off : Word) (s : State) : Host.Outcome State Fault Refusal :=
  threadOp (.cflush g sc a off) s (cacheOp (fun s c x => s.flushLine c sc false x) a off)

/-- `CFLUSH.inv` (R232). -/
def execCflushInv (g : Guard) (sc : Scope) (a : Reg) (off : Word) (s : State) : Host.Outcome State Fault Refusal :=
  threadOp (.cflushInv g sc a off) s (cacheOp (fun s c x => s.flushLine c sc true x) a off)

/-- `CINV` (R232). -/
def execCinv (g : Guard) (sc : Scope) (a : Reg) (off : Word) (s : State) : Host.Outcome State Fault Refusal :=
  threadOp (.cinv g sc a off) s (cacheOp (fun s c x => s.invalidateLine c sc x) a off)

end Sys2Proof.Machine
end

