-- ==== Sys2Proof/Machine/Launching.lean ====
section
/-! DEFINITION. Launching (R48, R49, R85 to R99, R356): queues, acceptance, graphs, cancel, and the instructions `LAUNCH`, `GSIG`
and `CANCEL`. -/

namespace Sys2Proof.Machine

-- Acceptance checks (R34, R47, R49)

/-- Whether a format slot breaks R47. -/
def badSlot (b : List Byte) : Bool :=
  let fmt := field b 0 1
  let prec := field b 1 1
  let fl := b.getD 2 0
  let scale := field b 4 4
  let plain := prec == 0 && !fl.getLsbD 0 && !fl.getLsbD 1
  let ok : Bool :=
    if fmt = 1 ∨ fmt = 2 ∨ fmt = 3 ∨ fmt = 4 then prec == 0 && !fl.getLsbD 1 && !fl.getLsbD 3
    else if fmt = 8 ∨ fmt = 9 ∨ fmt = 10 then plain
    else if fmt = 0x10 then decide (1 ≤ prec ∧ prec ≤ 7)
    else if fmt = 0x18 then plain && !fl.getLsbD 2 && fl.extractLsb' 4 2 == 0
    else false
  if fmt = 0 then b.any (· != 0)
  else !ok || fl.extractLsb' 6 2 != 0 || (b.drop 8).any (· != 0) || b.getD 3 0 != 0 || decide (scale % 2 ^ 31 = 0) ||
    decide (scale / 2 ^ 23 % 256 = 255)

/-- The row span of a tensor whose tiles are `n` elements wide, in a format (R34). A reserved format, to which no table gives an
element size, counts as one of 1 byte, like an empty slot (DESIGN CHOICE: log entry 88). -/
def rowSpan (fmt n : Nat) : Nat :=
  if fmt = 0x18 then (n + 4) / 5
  else if fmt = 2 ∨ fmt = 9 ∨ fmt = 10 then 2 * n
  else if fmt = 3 ∨ fmt = 8 then 4 * n
  else if fmt = 4 then 8 * n
  else n

/-- Whether a format slot sets a field marked zero (Table 2.9). -/
def slotZero (b : List Byte) : Bool :=
  (b.getD 2 0).extractLsb' 6 2 != 0 || b.getD 3 0 != 0 || (b.drop 8).any (· != 0)

/-- Whether bytes of a record are all zero. -/
def zeroes (r : List Byte) (off n : Nat) : Bool := ((r.drop off).take n).all (· == 0)

/-- Whether a tensor record sets a field marked zero (code 0x02). -/
def tensorZero (t : List Byte) : Bool := decide (8 ≤ field t 1 1) || !zeroes t 2 6 || !zeroes t 0x30 16

/-- Whether a tensor record breaks Table 2.4 or R34, addresses apart (code 0x04), under a launch record's slots. -/
def badTensor (lrec t : List Byte) : Bool :=
  let rank := field t 0 1
  let fmt := field lrec (0x80 + 16 * (field t 1 1 % 8)) 1
  let shape := fun (i : Nat) => field t (8 + 2 * i) 2
  let count := fun (i : Nat) => field t (0x10 + 2 * i) 2
  let dim := fun (i : Nat) => shape i == 0 || count i == 0 || (decide (rank ≤ i) && (shape i != 1 || count i != 1))
  let p1 := field t 0x18 4
  let p2 := field t 0x1C 4
  let p3 := field t 0x20 4
  let product := count 0 * count 1 * count 2 * count 3
  rank == 0 || decide (4 < rank) || (List.range 4).any dim || p1 % 16 != 0 || decide (p1 < rowSpan fmt (shape 0)) ||
    p2 % 16 != 0 || decide (p2 < p1 * shape 1) || p3 % 16 != 0 || decide (p3 < p2 * shape 2) ||
    decide (2 ^ 32 ≤ product) || field t 0x24 4 != product

/-- The lowest code of Table 2.11 that a launch record earns: `unread` where a record could not be read or TAG written,
`ts` the tensor records that could be read, DRIVE's first. -/
def launchCode (r : List Byte) (a : DWord) (queue : Nat) (unread : Bool) (ts : List (List Byte)) : Nat :=
  let f := field r
  let res : Bool :=
    let regs := f 0x40 2
    let gangs := f 0x42 2
    let lsb := f 0x44 4
    let single := f 0x50 1 * f 0x51 1 * f 0x52 1 * f 0x53 1 == 1
    decide (regs < 8) || decide (256 < regs) || regs % 8 != 0 || gangs == 0 || decide (16 < gangs) || decide (98304 < lsb) ||
      lsb % 256 != 0 || decide (16 < f 0x48 1) || decide (4 < f 0x49 1) || (f 0x49 1 != 0 && single) ||
      decide (2 < f 0x4A 1) || (f 0x4A 1 != 0 && !(f 0x55 1).testBit 2) || decide (32768 < gangs * 32 * regs) ||
      (f 0x08 8 != 0 && !(f 0x4B 1).testBit 0) || (f 0x10 8 != 0 && !(f 0x4B 1).testBit 1)
  let rank := ((ts.head?).map fun t => field t 0 1).getD 4
  let ens := (List.range 4).map fun i => f (0x50 + i) 1
  let shape : Bool :=
    ens.any (fun e => e == 0 || decide (16 < e)) || decide (16 < ens.foldl (· * ·) 1) ||
      (List.range 4).any (fun i => decide (rank ≤ i) && ens.getD i 0 != 1) || decide (1 < f 0x54 1)
  let zero : Bool :=
    decide (8 ≤ f 0x55 1) || decide (4 ≤ f 0x56 1) || decide (64 ≤ f 0x57 1) || f 0x58 4 != 0 || !zeroes r 0x5C 4 ||
      !zeroes r 0x78 8 || decide (4 ≤ f 0x4B 1) || !zeroes r 0x4C 4 ||
      (List.range 8).any (fun i => slotZero ((r.drop (0x80 + 16 * i)).take 16)) || ts.any tensorZero
  let address : Bool :=
    a.toNat % 256 != 0 || f 0 8 == 0 || f 0x20 8 == 0 || f 0x60 8 == 0 ||
      [0, 8, 0x10, 0x18, 0x20, 0x28, 0x30, 0x38, 0x60, 0x68].any (fun o => f o 8 % 64 != 0) ||
      ts.any fun t => field t 0x28 8 % 32 != 0
  if unread then 1
  else if zero then 2
  else if address then 3
  else if ts.any (badTensor r) then 4
  else if res then 5
  else if shape then 6
  else if (List.range 8).any fun i => badSlot ((r.drop (0x80 + 16 * i)).take 16) then 7
  else if f 0x57 1 ≠ queue then 8
  else 0

/-- The tensor records at the addresses given, and whether one could not be read. -/
def State.readTensors (s : State) (ag : Agent) : List Nat → State × Bool × List (List Byte)
  | [] => (s, false, [])
  | a :: as =>
    match devReadRun ag (BitVec.ofNat 64 a) 64 s with
    | (s, .error _) =>
      let (s, _, ts) := s.readTensors ag as
      (s, true, ts)
    | (s, .ok t) =>
      let (s, u, ts) := s.readTensors ag as
      (s, u, t :: ts)

-- Completion records at acceptance (R92, R96, R360)

/-- Why a completion record cannot be used, if it cannot (R360). -/
def State.unusable (s : State) (ctx : Nat) (a : DWord) : State × Option (BitVec 8) :=
  if a = 0 then (s, some 0)
  else if a.toNat % 64 ≠ 0 then (s, some 0x04)
  else if a.toNat / 2 ^ 48 ≠ 0 then (s, some 0x06)
  else
    match translateNow (s.lp ctx) .write a.toNat s with
    | (s, .error f) => (s, some f.cause)
    | (s, .ok _) =>
      match devReadClean (s.lp ctx) a 64 s with
      | (s, .error f) => (s, some f.cause)
      | (s, .ok _) => (s, none)

/-- Whether CANCELREQ is set in a record or in one above it. -/
def State.chainCancelled (s : State) (ctx : Nat) (a : DWord) : Nat → State × Bool
  | 0 => (s, false)
  | fuel + 1 =>
    if a = 0 || a.toNat % 64 ≠ 0 then (s, false)
    else
      match s.fetchRec ctx a 0 with
      | (s, _, some _) => (s, false)
      | (s, c, none) =>
        if c.cancelReq then (s, true)
        else if c.orphan then (s, false)
        else s.chainCancelled ctx c.parent fuel

/-- A record that an entry of a queue ends in at once: with STATUS 2 and a code, or STATUS 3. -/
def State.endEntry (s : State) (ctx : Nat) (comp notify : DWord) (level status code : Nat) : State :=
  let (s, c, cause) := s.fetchRec ctx comp level
  let key := crecKey ctx comp
  let s := s.track { c with sealed := true, out := 0, notify := notify, cancelReq := c.cancelReq || status == 3 } cause
  let s := if status = 3 then s.startRec key else s
  ((s.writeFlags key).linkRec key).completeWith key status code

/-- A rejected entry (R49, R360): into its completion record, or nowhere. -/
def State.reject (s : State) (ctx : Nat) (entry comp notify : DWord) (level code : Nat) : State :=
  match s.unusable ctx comp with
  | (s, some cause) => s.reportRec ctx (if comp = 0 then entry else comp) cause 0 code
  | (s, none) => s.endEntry ctx comp notify level 2 code

-- Acceptance of a launch record (R48)

/-- A TAG that no launch of the device has: which one, the device chooses. -/
def State.newTag (s : State) : Nat :=
  let t := 1 + Config.freeNat s.ctr (2 ^ 34) % (2 ^ 32 - 1)
  if (s.launches.find? t).isNone then t else (s.launches.freeFrom (s.launches.length + 1) 1).getD 1

/-- Cooperative-barrier entries of the device that are reserved (Table 6.5). -/
def State.coopUsed (s : State) : Nat := (s.launches.map fun (l : Nat × Launch) => l.2.cbars).foldl (· + ·) 0

/-- A launch accepted: TAG written back, its record started, and its walk. -/
def State.accept (s : State) (ctx queue level : Nat) (a : DWord) (r drive : List Byte) (graph : Option DWord) :
    State × Nat :=
  let tag := s.newTag
  let lrec := setField r 0x58 4 tag
  let (s, _) := devWrite (s.lp ctx) (a + 0x58) (clean (toBytes 4 tag)) s
  let L : Launch :=
    { ctx := ctx, queue := queue, level := level, prio := Nat.min (field r 0x56 1 % 4) level, lrec := lrec, drive := drive,
      addr := a }
  let s := { s with launches := s.launches.put tag L }
  let (s, c, cause) := s.fetchRec ctx L.comp 1
  let stray := match graph with
    | some g => !c.unread && c.parent != g
    | none => false
  let s := s.track { c with out := 1, sealed := true, tag := tag, notify := BitVec.ofNat 64 (field r 0x68 8),
                            orphan := c.orphan || stray } cause
  let s := ((s.writeRec L.key 8 (toBytes 8 1)).writeFlags L.key).writeRec L.key 0x30 (toBytes 4 tag)
  (((s.startRec L.key).linkRec L.key).settleWalk tag, tag)

/-- What came of a launch record that is taken. -/
inductive Taken where
  | waits
  | retired
  | running (tag : Nat)
  deriving DecidableEq, Repr

/-- A launch record taken from a queue, or by a node of a graph (R48, R49, R96, Table 6.5). -/
def State.takeLaunch (s : State) (ctx queue level : Nat) (a : DWord) (graph : Option DWord) : State × Taken :=
  let ag := s.lp ctx
  match devReadRun ag a 256 s with
  | (s, .error f) => (s.reportRec ctx a f.cause 0 1, .retired)
  | (s, .ok r) =>
    let word := fun (o : Nat) => field r o 8
    let named := word 0x20 :: ([word 0x28, word 0x30, word 0x38].filter (· != 0))
    let (s, unread, ts) := s.readTensors ag (named.filter (· != 0))
    let (s, w) := translateNow ag .write a.toNat s
    let fixed := match w with
      | .ok _ => false
      | .error _ => true
    let code := launchCode r a queue (unread || fixed) ts
    let comp := BitVec.ofNat 64 (word 0x60)
    let notify := BitVec.ofNat 64 (word 0x68)
    if code ≠ 0 then (s.reject ctx a comp notify 1 code, .retired)
    else
      match s.chainCancelled ctx comp 5 with
      | (s, true) => (s.endEntry ctx comp notify 1 3 0, .retired)
      | (s, false) =>
        if 8 < s.coopUsed + field r 0x4A 1 then (s, .waits)
        else
          let (s, tag) := s.accept ctx queue level a r (ts.headD []) graph
          (s, .running tag)

-- Queues (R87 to R89)

/-- Number of a queue of a context. -/
def queueKey (ctx q : Nat) : Nat := 64 * ctx + q

/-- Address of a queue descriptor. -/
def State.queueAddr (s : State) (ctx q : Nat) : DWord := (s.ctxs.get {} ctx).qtable + BitVec.ofNat 64 (32 * q)

/-- A queue's descriptor, where EN is set and SIZE is one of Table 5.3. -/
def State.queueDesc (s : State) (ctx q : Nat) : State × Option (List Byte) :=
  match devReadClean (s.lp ctx) (s.queueAddr ctx q) 32 s with
  | (s, .error _) => (s, none)
  | (s, .ok d) =>
    if (d.getD 9 0).getLsbD 7 && decide (1 ≤ field d 8 1) && decide (field d 8 1 ≤ 16) then (s, some d) else (s, none)

/-- HEAD of a descriptor. -/
def qHead (d : List Byte) : Nat := field d 0x10 8
/-- TAIL of a descriptor. -/
def qTail (d : List Byte) : Nat := field d 0x18 8
/-- DEV. -/
def qDev (d : List Byte) : Bool := (d.getD 9 0).getLsbD 2
/-- GRAPH. -/
def qGraph (d : List Byte) : Bool := (d.getD 9 0).getLsbD 3
/-- Entries from HEAD to a TAIL. -/
def qLength (d : List Byte) (tail : Nat) : Nat := (tail + 2 ^ 64 - qHead d) % 2 ^ 64
/-- Address of an entry. -/
def qEntry (d : List Byte) (n : Nat) : DWord := BitVec.ofNat 64 (field d 0 8 + 256 * (n % 2 ^ field d 8 1))

/-- Whether a descriptor can be read and has EN clear. -/
def State.queueOff (s : State) (ctx q : Nat) : Bool :=
  match devReadClean (s.lp ctx) (s.queueAddr ctx q) 32 s with
  | (_, .error _) => false
  | (_, .ok d) => !(d.getD 9 0).getLsbD 7

/-- What the device keeps of a queue changed. -/
def State.onQueue (s : State) (ctx q : Nat) (f : QState → QState) : State :=
  let Q := s.queues.get {} (queueKey ctx q)
  if f Q = Q then s else { s with queues := s.queues.put (queueKey ctx q) (f Q) }

/-- TAIL of a queue as the device takes it: of a DEV queue its own, once it has looked at the queue since EN was set, so that a
host write that advances it is ignored (R88). -/
def State.tailOf (s : State) (ctx q : Nat) (d : List Byte) : Nat :=
  let Q := s.queues.get {} (queueKey ctx q)
  if qDev d && Q.known then Q.tail else qTail d

/-- The device looks at a queue's TAIL (R88): an overrun clears EN and is reported. A queue with EN clear is not read, and looked
at afresh once EN is set again. -/
def State.seeTail (s : State) (ctx q : Nat) : State :=
  match s.queueDesc ctx q with
  | (s, none) => if s.queueOff ctx q then s.onQueue ctx q fun Q => { Q with known := false } else s
  | (s, some d) =>
    if 2 ^ field d 8 1 < qLength d (s.tailOf ctx q d) then
      if !s.canPost 0 (ctx + 1) then s
      else
        let a := s.queueAddr ctx q
        let (s, _) := devWrite (s.lp ctx) (a + 9) (clean [(d.getD 9 0) &&& 0x7F]) s
        let s := s.onQueue ctx q fun Q => { Q with known := false }
        (s.post 0 (ctx + 1) (mkRecord 8 0 0 6 0 0 0 a [])).1
    else
      let tail := s.tailOf ctx q d
      s.onQueue ctx q fun Q => { Q with tail := tail, known := true }

/-- `DOORBELL` (R88): the queue of every context that the function's VMID owns. -/
def execDoorbell (vmid queue : Nat) (s : State) : Host.Outcome State Fault Refusal :=
  .next ((s.ctxs.filter fun (c : Nat × Ctx) => c.2.vmid == vmid).foldl (fun s c => s.seeTail c.1 (queue % 64)) s)

/-- `QUEUE_TAIL_POLL` (R88). -/
def execQueueTailPoll (ctx queue : Nat) (s : State) : Host.Outcome State Fault Refusal :=
  if (s.ctxs.find? ctx).isNone then .next s else .next (s.seeTail ctx (queue % 64))

/-- The pending entry at a queue's HEAD that may be accepted now (R89), once the queues are open (R22): the descriptor. -/
def State.acceptable (s : State) (ctx q : Nat) (graph : Bool) : State × Option (List Byte) :=
  match s.queues.find? (queueKey ctx q), s.queueDesc ctx q with
  | none, (s, _) | some _, (s, none) => (s, none)
  | some Q, (s, some d) =>
    let n := if qDev d then qLength d Q.tail else Nat.min (qLength d (qTail d)) (qLength d Q.tail)
    if s.boot.stage != 6 || !Q.known || n = 0 || 2 ^ field d 8 1 < n || qGraph d != graph || !s.canPost 0 (ctx + 1) then (s, none)
    else if Q.prevLaunch.isNone && Q.prevGraph.isNone then (s, some d)
    else
      let walked := (Q.prevLaunch.bind s.launches.find?).any (·.walk == .complete)
      match devReadClean (s.lp ctx) (qEntry d (qHead d) + 0x55) 1 s with
      | (s, .error _) => (s, none)
      | (s, .ok b) => if !graph && walked && (b.headD 0).getLsbD 0 then (s, some d) else (s, none)

/-- HEAD moved past an accepted entry, which is the queue's previous entry from now on. -/
def State.advanceHead (s : State) (ctx q : Nat) (d : List Byte) (launch graph : Option Nat) : State :=
  let (s, _) := devWrite (s.lp ctx) (s.queueAddr ctx q + 0x10) (clean (toBytes 8 (qHead d + 1))) s
  let Q := s.queues.get {} (queueKey ctx q)
  { s with queues := s.queues.put (queueKey ctx q) { Q with prevLaunch := launch, prevGraph := graph } }

/-- Priority level of a queue. -/
def qLevel (d : List Byte) : Nat := field d 9 1 % 4

/-- `LAUNCH_ACCEPT` (R89). -/
def execLaunchAccept (ctx queue : Nat) (s : State) : Host.Outcome State Fault Refusal :=
  match s.acceptable ctx queue false with
  | (_, none) => .next s
  | (s, some d) =>
    match s.takeLaunch ctx queue (qLevel d) (qEntry d (qHead d)) none with
    | (s, .waits) => .next s
    | (s, .retired) => .next (s.advanceHead ctx queue d none none)
    | (s, .running tag) => .next (s.advanceHead ctx queue d (some tag) none)

-- Graphs (R94, R95, R356)

/-- The code that a graph start record earns (R94). -/
def graphCode (r : List Byte) (queue : Nat) : Nat :=
  let n := field r 8 2
  let bad := fun (o : Nat) => field r o 8 == 0 || field r o 8 % 64 != 0
  if !zeroes r 0x0A 76 || !zeroes r 0x58 8 || !zeroes r 0x68 152 || 4 ≤ field r 0x56 1 || 64 ≤ field r 0x57 1 || n = 0 ||
      4096 < n then 2
  else if bad 0 || bad 0x60 then 3
  else if field r 0x57 1 ≠ queue then 8
  else 0

/-- The node records of a graph read; the first that cannot be, if there is one. -/
def State.readNodes (s : State) (ag : Agent) (base : DWord) : Nat → Nat → State × List (List Byte) × Option Nat
  | 0, _ => (s, [], none)
  | n + 1, i =>
    match devReadClean ag (base + BitVec.ofNat 64 (64 * i)) 64 s with
    | (s, .error _) => (s, [], some i)
    | (s, .ok r) =>
      let (s, rs, bad) := s.readNodes ag base n (i + 1)
      (s, r :: rs, bad)

/-- Field PRED, KIND and arguments of a node record (Table 5.5). -/
def ndPred (r : List Byte) : Nat := field r 1 1
/-- See `ndPred`. -/
def ndKind (r : List Byte) : Nat := field r 0 1
/-- See `ndPred`. -/
def ndArg (r : List Byte) (i : Nat) : Nat := field r (0x10 + 8 * i) 8
/-- See `ndPred`. -/
def ndSucc (r : List Byte) (i : Nat) : Nat := field r (8 + 2 * i) 2

/-- The successors of a node that are named. -/
def ndAll (r : List Byte) : List Nat := ((List.range 4).map (ndSucc r)).filter (· != 0xFFFF)

/-- One successor, if it is named. -/
def ndOne (r : List Byte) (i : Nat) : List Nat := if ndSucc r i = 0xFFFF then [] else [ndSucc r i]

/-- Whether running a node stops its graph at once (R95). -/
def badNode (g : Graph) (i : Nat) (r : List Byte) : Bool :=
  ndKind r == 0 || decide (6 < ndKind r) || (ndAll r).any (fun x => decide (g.recs.length ≤ x)) ||
    (ndKind r == 4 && (decide (g.recs.length ≤ ndArg r 1) || decide (i < ndArg r 1)))

/-- A graph's own completion record under the device's counters. -/
def Graph.key (g : Graph) : Nat := crecKey g.ctx g.comp

/-- Counts of released successors lowered; those that reach zero may run. -/
def Graph.release (g : Graph) (xs : List Nat) : Graph :=
  xs.foldl (fun g x =>
    match g.pend.find? x with
    | some 1 => { g with pend := g.pend.del x, ready := g.ready ++ [x] }
    | some n => { g with pend := g.pend.put x (n - 1) }
    | none => g) g

/-- A node finished: its successors are released unless the graph has stopped. -/
def Graph.finish (g : Graph) (i : Nat) (xs : List Nat) : Graph :=
  let g := { g with running := g.running.erase i, copied := g.copied.del i, launched := g.launched.del i }
  if g.stopped then g else g.release xs

/-- A graph changed. -/
def State.onGraph (s : State) (id : Nat) (f : Graph → Graph) : State := { s with graphs := s.graphs.adjust id f }

/-- A graph stopped by a node (R95). -/
def State.stopGraph (s : State) (id i : Nat) (cause : BitVec 8) (word : Nat) : State :=
  match s.graphs.find? id with
  | none => s
  | some g =>
    if g.stopped then s
    else
      let s := s.onGraph id fun g => { g with stopped := true }
      let s := (s.onRec g.key fun c => { c with cancelReq := true }).writeFlags g.key
      (s.post 0 (g.ctx + 1) (mkRecord 7 cause.toNat 0 6 0 0 0 (g.nodes + BitVec.ofNat 64 (64 * i))
        (toBytes 8 i ++ toBytes 8 word))).1

/-- Whether no node of a graph starts any more (R95, R96). -/
def State.graphHeld (s : State) (g : Graph) : Bool := g.stopped || ((s.crecs.find? g.key).map (·.cancelReq)).getD false

/-- A graph in which no node runs and none can run ends: its record is sealed (R95). -/
def State.settleGraph (s : State) (id : Nat) : State :=
  match s.graphs.find? id with
  | none => s
  | some g =>
    if g.ended || !g.running.isEmpty || !(g.ready.isEmpty || s.graphHeld g) then s
    else
      let s := s.onGraph id fun g => { g with ended := true }
      (s.onRec g.key fun c => { c with sealed := true }).writeFlags g.key

/-- A graph started (R92, R95): its record, and its nodes with their counts. -/
def State.startGraph (s : State) (ctx queue level : Nat) (r : List Byte) : State × Nat :=
  let comp := BitVec.ofNat 64 (field r 0x60 8)
  let key := crecKey ctx comp
  let (s, c, cause) := s.fetchRec ctx comp 2
  let s := ((s.track c cause).startRec key).linkRec key
  let nodes := BitVec.ofNat 64 (field r 0 8)
  let (s, recs, bad) := s.readNodes (s.lp ctx) nodes (field r 8 2) 0
  let id := (s.graphs.freeFrom (s.graphs.length + 1) 0).getD 0
  let preds := recs.mapIdx fun i n => (i, ndPred n)
  let g : Graph :=
    { ctx := ctx, queue := queue, level := level, comp := comp, nodes := nodes, recs := recs, pend := preds.filter (·.2 != 0),
      ready := (preds.filter (·.2 == 0)).map (·.1) }
  let s := { s with graphs := s.graphs.put id g }
  let s := match bad with
    | some i => s.stopGraph id i 0 0
    | none => s
  (s.settleGraph id, id)

/-- `GRAPH_START_ACCEPT` (R94). -/
def execGraphStartAccept (ctx queue : Nat) (s : State) : Host.Outcome State Fault Refusal :=
  match s.acceptable ctx queue true with
  | (_, none) => .next s
  | (s, some d) =>
    let a := qEntry d (qHead d)
    match devReadClean (s.lp ctx) a 256 s with
    | (s, .error f) => .next ((s.reportRec ctx a f.cause 0 1).advanceHead ctx queue d none none)
    | (s, .ok r) =>
      let comp := BitVec.ofNat 64 (field r 0x60 8)
      let code := graphCode r queue
      if code ≠ 0 then .next ((s.reject ctx a comp 0 2 code).advanceHead ctx queue d none none)
      else
        match s.chainCancelled ctx comp 5 with
        | (s, true) => .next ((s.endEntry ctx comp 0 2 3 0).advanceHead ctx queue d none none)
        | (s, false) =>
          let (s, id) := s.startGraph ctx queue (qLevel d) r
          .next (s.advanceHead ctx queue d none (some id))

/-- A node that starts running. -/
def Graph.begin (g : Graph) (i : Nat) : Graph := { g with ready := g.ready.erase i, running := g.running ++ [i] }

/-- One event of a node of a kind: `start` for a node that may run, `go` for one that runs. A node that R95 rejects stops the
graph. -/
def graphNode (kind id i : Nat) (start go : State → Graph → List Byte → State) (s : State) :
    Host.Outcome State Fault Refusal :=
  match s.graphs.find? id with
  | none => .next s
  | some g =>
    match g.recs[i]? with
    | none => .next s
    | some r =>
      if !s.canPost 0 (g.ctx + 1) then .next s
      else if g.running.contains i then if ndKind r = kind then .next ((go s g r).settleGraph id) else .next s
      else if !g.ready.contains i then .next s
      else if s.graphHeld g then .next (s.settleGraph id)
      else if badNode g i r then
        let s := (s.onGraph id (·.begin i)).stopGraph id i 0 0
        .next ((s.onGraph id (·.finish i [])).settleGraph id)
      else if ndKind r = kind then .next ((start s g r).settleGraph id)
      else .next s

/-- A node's word could not be used: the graph stops, and the node has finished. -/
def State.stopNode (s : State) (id i : Nat) (cause : BitVec 8) (word : Nat) : State :=
  (s.stopGraph id i cause word).onGraph id (·.finish i [])

/-- The completion record of a launch node's record prepared (R356). -/
def State.prepare (s : State) (ctx : Nat) (a comp : DWord) : State × Bool :=
  let ag := s.lp ctx
  match devUpdate ag (a + 0x58) 4 (fun _ => toBytes 4 0) s with
  | (s, .error _) => (s, false)
  | (s, .ok _) =>
    let blank := fun (r : List Byte) =>
      setField (setField (setField (setField (setField r 0 2 0) 3 1 0) 8 16 0) 0x20 16 0) 0x30 4 0
    match devUpdate ag comp 64 blank s with
    | (s, .error _) => (s, false)
    | (s, .ok _) => (s, true)

/-- Priority level of the queue that a graph came from (R45, R356): as the descriptor gives it now, whatever its EN; where it
cannot be read, as it was when the graph started (DESIGN CHOICE: log entry 88). -/
def State.levelOf (s : State) (g : Graph) : State × Nat :=
  match devReadClean (s.lp g.ctx) (s.queueAddr g.ctx g.queue) 32 s with
  | (s, .ok d) => (s, qLevel d)
  | (s, .error _) => (s, g.level)

/-- A launch node runs: its record is prepared once no launch of it is under way, and taken (R356). -/
def startLaunchNode (id i : Nat) (s : State) (g : Graph) (r : List Byte) : State :=
  let a := BitVec.ofNat 64 (ndArg r 0)
  let fail := fun (s : State) => (s.onGraph id (·.begin i)).stopNode id i 0 0
  match devReadRun (s.lp g.ctx) a 256 s with
  | (s, .error _) => fail s
  | (s, .ok lr) =>
    let comp := BitVec.ofNat 64 (field lr 0x60 8)
    match s.unusable g.ctx comp with
    | (s, some _) => fail s
    | (s, none) =>
      match s.fetchRec g.ctx comp 1 with
      | (s, _, some _) => fail s
      | (s, c, none) =>
        if !c.completed && c.sealed then s
        else
          match s.prepare g.ctx a comp with
          | (s, false) => fail s
          | (s, true) =>
            let (s, level) := s.levelOf g
            match s.takeLaunch g.ctx g.queue level a (some g.comp) with
            | (s, .waits) => s
            | (s, .retired) | (s, .running _) =>
              s.onGraph id fun g => { g.begin i with launched := g.launched.put i comp }

/-- `GRAPH_NODE_LAUNCH` (R356): the node finishes when the launch's record has completed. -/
def execGraphNodeLaunch (graph node : Nat) (s : State) : Host.Outcome State Fault Refusal :=
  graphNode 1 graph node (startLaunchNode graph node) (fun s g r =>
    match g.launched.find? node with
    | some comp =>
      if (s.crecs.find? (crecKey g.ctx comp)).isSome then s else s.onGraph graph (·.finish node (ndAll r))
    | none => s) s

/-- The next piece of a copy node: up to the next page of the source and of the destination. -/
def copyNode (id i : Nat) (s : State) (g : Graph) (r : List Byte) : State :=
  let done := g.copied.get 0 i
  let left := ndArg r 2 - done
  if left = 0 then s.onGraph id (·.finish i (ndAll r))
  else
    let src := BitVec.ofNat 64 (ndArg r 0 + done)
    let dst := BitVec.ofNat 64 (ndArg r 1 + done)
    let n := Nat.min left (Nat.min (65536 - src.toNat % 65536) (65536 - dst.toNat % 65536))
    match devRead (s.lp g.ctx) src n s with
    | (s, .error f) => s.stopNode id i f.cause src.toNat
    | (s, .ok bs) =>
      match devWrite (s.lp g.ctx) dst bs s with
      | (s, .error f) => s.stopNode id i f.cause dst.toNat
      | (s, .ok _) => s.onGraph id fun g => { g with copied := g.copied.put i (done + n) }

/-- `GRAPH_NODE_COPY` (R95); its writes are performed at the home, so the release at sys leaves nothing to write back. -/
def execGraphNodeCopy (graph node : Nat) (s : State) : Host.Outcome State Fault Refusal :=
  graphNode 2 graph node (fun s _ _ => s.onGraph graph (·.begin node)) (copyNode graph node) s

/-- A node's 64-bit word read at its home, and what then is done with it. -/
def wordNode (id i : Nat) (use : State → Nat → State) (s : State) (g : Graph) (r : List Byte) : State :=
  match devReadRun (s.lp g.ctx) (BitVec.ofNat 64 (ndArg r 0)) 8 s with
  | (s, .error f) => s.stopNode id i f.cause (ndArg r 0)
  | (s, .ok bs) => use s (ofBytes bs)

/-- `GRAPH_NODE_CONDITIONAL` (R95). -/
def execGraphNodeConditional (graph node : Nat) (s : State) : Host.Outcome State Fault Refusal :=
  graphNode 3 graph node (fun s g r =>
    wordNode graph node (fun s w => s.onGraph graph (·.finish node (ndOne r (if w ≠ 0 then 0 else 1))))
      (s.onGraph graph (·.begin node)) g r) (fun s _ _ => s) s

/-- The nodes of a loop reset to PRED, and its first node run (Table 5.6). -/
def Graph.again (g : Graph) (first i : Nat) : Graph :=
  let reset := fun (g : Graph) (j : Nat) => { g with pend := g.pend.write 0 j (((g.recs[j]?).map ndPred).getD 0) }
  let g := (List.range (i + 1 - first)).foldl (fun g j => reset g (first + j)) (g.finish i [])
  { g with pend := g.pend.del first, ready := g.ready ++ [first], repeats := g.repeats.put i (g.repeats.get 0 i + 1) }

/-- `GRAPH_NODE_LOOP` (R95). -/
def execGraphNodeLoop (graph node : Nat) (s : State) : Host.Outcome State Fault Refusal :=
  graphNode 4 graph node (fun s g r =>
    wordNode graph node (fun s w =>
      s.onGraph graph fun g =>
        if w ≠ 0 && (ndArg r 2 = 0 || g.repeats.get 0 node < ndArg r 2) then g.again (ndArg r 1) node
        else g.finish node (ndOne r 0))
      (s.onGraph graph (·.begin node)) g r) (fun s _ _ => s) s

/-- A wait node evaluated: it finishes once the phase has passed ARG1. -/
def waitNode (id i : Nat) : State → Graph → List Byte → State := fun s g r =>
  wordNode id i (fun s w =>
    if phasePassed (BitVec.ofNat 16 (w / 2 ^ 48)) (BitVec.ofNat 16 (ndArg r 1)) then s.onGraph id (·.finish i (ndAll r))
    else s) s g r

/-- `GRAPH_NODE_WAIT` (R95). -/
def execGraphNodeWait (graph node : Nat) (s : State) : Host.Outcome State Fault Refusal :=
  graphNode 5 graph node (fun s g r => waitNode graph node (s.onGraph graph (·.begin node)) g r) (waitNode graph node) s

/-- `GRAPH_NODE_SIGNAL` (R95). -/
def execGraphNodeSignal (graph node : Nat) (s : State) : Host.Outcome State Fault Refusal :=
  graphNode 6 graph node (fun s g r =>
    let s := s.onGraph graph (·.begin node)
    let add := fun (bs : List Byte) => toBytes 8 ((ofBytes bs + ndArg r 1) % 2 ^ 64)
    match devUpdate (s.lp g.ctx) (BitVec.ofNat 64 (ndArg r 0)) 8 add s with
    | (s, .error f) => s.stopNode graph node f.cause (ndArg r 0)
    | (s, .ok _) => s.onGraph graph (·.finish node (ndAll r))) (fun s _ _ => s) s

-- Cancel (R96, R99)

/-- Whether a record that the device counts is `a` or below it. -/
def State.chainHas (s : State) (ctx : Nat) (a at_ : DWord) : Nat → Bool
  | 0 => false
  | fuel + 1 =>
    at_ == a ||
      match s.crecs.find? (crecKey ctx at_) with
      | some c => !c.orphan && c.parent != 0 && s.chainHas ctx a c.parent fuel
      | none => false

/-- Whether a record's chain of parents reaches the context's job. -/
def State.reachesJob (s : State) (ctx : Nat) (job a : DWord) : Nat → State × Bool
  | 0 => (s, false)
  | fuel + 1 =>
    if a = 0 || a.toNat % 64 ≠ 0 then (s, false)
    else if a = job then (s, true)
    else
      match s.fetchRec ctx a 0 with
      | (s, _, some _) => (s, false)
      | (s, c, none) => if c.orphan then (s, false) else s.reachesJob ctx job c.parent fuel

/-- A walk that a cancel ends (Tables 5.7, 6.6): deferred records are dropped, the claims of ensembles that are not placed
are cleared, blocks in the streams are created, and it is COMPLETE. -/
def State.endWalk (s : State) (tag : Nat) : State :=
  match s.launches.find? tag with
  | none => s
  | some L =>
    if L.walk = .complete then s
    else
      let open_ := L.cells.filter fun (c : Nat × Cell) => !c.2.placed
      let s := open_.foldl (fun s c => c.2.members.foldl (fun s m => s.clearClaim m.pa tag) s) s
      let made := fun (_ : Nat) (rs : List Routed) => rs.map fun r => { r with created := true }
      let saved := fun (_ : Nat) (e : SavedEntry) =>
        if e.tag = tag ∧ e.cell = none then { e with block := { e.block with created := true } } else e
      let left : Nat := (L.streams.map fun (x : Nat × List Routed) => (x.2.filter (!·.created)).length).foldl (· + ·) 0 +
        (s.unplaced.filter fun (x : Nat × SavedEntry) => x.2.uncreated tag).length
      let s := { s with unplaced := s.unplaced.mapV saved }
      let s := s.onLaunch tag fun L => { L with
        walk := .complete, deferred := [], skip := [], streams := L.streams.mapV made,
        cells := L.cells.filter fun (c : Nat × Cell) => c.2.placed }
      (List.range L.cbars).foldl (fun s n => s.settleBar (.coop tag n)) (s.bump L.key ((left : Int) - 1) 0)

/-- A launch covered by a cancel: its walk ends, GRACE starts, and its lanes at blocking points take cause 0x14. -/
def State.coverLaunch (s : State) (tag : Nat) : State :=
  match s.launches.find? tag with
  | none => s
  | some L =>
    if L.cancelled then s
    else
      let grace := (s.ctxs.get {} L.ctx).grace
      let s := s.onLaunch tag fun L => { L with cancelled := true, graceEnd := some (s.now + 1000 * grace) }
      (s.endWalk tag).cancelLaunch tag

/-- The cancel of a record: CANCELREQ in it and in every record below it, and its effect on what it covers (R96). -/
def State.cancelBelow (s : State) (ctx : Nat) (a : DWord) (c : CRec) : State :=
  let key := crecKey ctx a
  let known := (s.crecs.find? key).isSome
  let s := if known then s else s.track c none
  let below := s.crecs.filter fun (r : Nat × CRec) => r.2.ctx == ctx && s.chainHas ctx a r.2.addr 5
  let s := below.foldl (fun s r =>
    if r.2.cancelReq then s else (s.onRec r.1 fun c => { c with cancelReq := true }).writeFlags r.1) s
  let s := (s.launches.filter fun (l : Nat × Launch) => below.any fun r => r.1 == l.2.key).foldl
    (fun s l => s.coverLaunch l.1) s
  let idle := ((s.crecs.find? key).map fun c => c.held.isEmpty).getD false
  if !known && idle then { s with crecs := s.crecs.del key } else s

/-- `CANCEL` of one lane at a record: its result, or none where the record is poisoned. -/
def State.cancelAt (s : State) (ctx : Nat) (a : DWord) : State × Option Nat :=
  match s.fetchRec ctx a 0 with
  | (s, _, some _) => (s, none)
  | (s, c, none) =>
    match s.reachesJob ctx (s.ctxs.get {} ctx).job a 5 with
    | (s, mine) =>
      if !mine || c.level = 0 || 4 < c.level then (s, some 3)
      else if c.completed then (s, some 1)
      else if c.cancelReq then (s, some 2)
      else (s.cancelBelow ctx a c, some 0)

/-- Lanes whose address is not aligned trap with cause 0x04 before any other check of it. -/
def aligned (a : Reg) (off : Word) (n : Nat) (body : ThreadBody) : ThreadBody := fun s k m =>
  match s.gangs.find? k with
  | none => s
  | some G =>
    let addr := fun (l : Nat) => ((G.view l).pair a).1 + off.signExtend 64
    let bad := (lanesOf m).filter fun l => !((G.view l).pair a).2 && (addr l).toNat % n != 0
    let good := m &&& ~~~(maskOf bad)
    let s := if good = 0 then s else body s k good
    s.after k good (maskOf bad) fun s => bad.foldl (fun s l => s.trap k l 0x04 (addr l) (s.lane k l).pc) s

/-- `CANCEL` (R99): the walkers of the covered launches have stopped when it retires. -/
def execCancel (g : Guard) (d : BitVec 8) (a : Reg) (off : Word) (s : State) : Host.Outcome State Fault Refusal :=
  threadOp (.cancel g d a off) s (blocking (aligned a off 64 (memoryWith false a off 64 64 .readWrite false fun s k _ _ ps =>
    let ctx := s.ctxId (coreNode (coreOf k))
    ps.foldl (fun s p =>
      match p.2.2 with
      | .mem _ _ =>
        match s.cancelAt ctx p.2.1 with
        | (s, some r) => s.laneResult k p.1 d (BitVec.ofNat 32 r)
        | (s, none) => s.trap k p.1 0x07 0 (s.lane k p.1).pc
      | .global _ _ | .ls _ _ => s.trap k p.1 0x06 p.2.1 (s.lane k p.1).pc) s)))

/-- A sequencer of a block stopped where it stands (Table 10.8). -/
def State.haltSeq (s : State) (b : Nat) (matrix : Bool) : State :=
  if ((s.blocks.find? b).map fun B => (B.seq matrix).run != .idle).getD false then
    ((s.onSeq b matrix fun q => { q with run := .idle, wait := .none, exiting := false, stop := none, copyFault := none }).unwatch
      (.seq b matrix)).seqLeaves b matrix
  else s

/-- `CANCEL_GRACE_EXPIRY` (R96, Table 10.8): every gang of the launch that is live is killed and its sequencers are stopped. Blocks
that come onto a core later, from a stream or a save area, meet it then. -/
def execCancelGraceExpiry (tag : Nat) (s : State) : Host.Outcome State Fault Refusal :=
  match s.launches.find? tag with
  | none => .next s
  | some L =>
    match L.graceEnd with
    | none => .next s
    | some t =>
      if s.now < t then .next s
      else
        let bs := s.blocks.filter fun (b : Nat × Block) => b.2.tag == tag
        let s := bs.foldl (fun s b => b.2.gangs.foldl (fun s k => s.killGang k) s) s
        .next (bs.foldl (fun s b => (s.haltSeq b.1 true).haltSeq b.1 false) s)

-- LAUNCH (R97)

/-- Whether the release of every path of the lanes waits for nothing; otherwise they wait. -/
def State.settled (s : State) (k : Nat) (m : Mask) : State × Bool :=
  match s.drain k m with
  | (s, false) => (s, false)
  | (s, true) => if s.pathsDone k m 0x1A then (s, true) else (s.stall k m (.again "paths"), false)

/-- `LAUNCH` of one lane with its record's bytes. -/
def State.submit (s : State) (k : Nat) (bs : List PByte) : State × Nat :=
  let ctx := s.ctxId (coreNode (coreOf k))
  let q := ((bs.getD 0x57 (0, false)).1.extractLsb' 0 6).toNat
  if bs.any (·.2) then (s, 4)
  else
    match (s.seeTail ctx q).queueDesc ctx q with
    | (s, none) => (s, 2)
    | (s, some d) =>
      let tail := s.tailOf ctx q d
      if !qDev d then (s, 3)
      else if 2 ^ field d 8 1 ≤ qLength d tail then (s, 1)
      else
        let s := s.releaseAt (coreOf k) .sys
        match devWrite (s.lp ctx) (qEntry d tail) bs s with
        | (s, .error _) => (s, 2)
        | (s, .ok _) =>
          let (s, _) := devWrite (s.lp ctx) (s.queueAddr ctx q + 0x18) (clean (toBytes 8 (tail + 1))) s
          (s.onQueue ctx q fun Q => { Q with tail := (tail + 1) % 2 ^ 64, known := true }, 0)

/-- `LAUNCH` (R97). -/
def execLaunch (g : Guard) (d : BitVec 8) (a : Reg) (off : Word) (s : State) : Host.Outcome State Fault Refusal :=
  threadOp (.launch g d a off) s (aligned a off 256 (memoryWith false a off 256 256 .read true fun s k G _ ps =>
    let own := ps.filter fun p => match p.2.2 with
      | .ls _ _ => false
      | .mem _ _ | .global _ _ => true
    let other := ps.filter fun p => !own.any (·.1 == p.1)
    let m := maskOf (own.map (·.1))
    match s.settled k m with
    | (s, false) => s
    | (s, true) =>
      match s.farLoads k G s.curPc (farOf own) 256 with
      | (s, .error w) => s.stall k m w
      | (s, .ok far) =>
        let (s, xs) := s.loadLanes (coreOf k) 256 .gang .normal far own
        let s := xs.foldl (fun s x =>
          match x.2 with
          | .error f => s.trap k x.1 f.cause f.v (s.lane k x.1).pc
          | .ok bs =>
            let (s, r) := s.submit k bs
            s.laneResult k x.1 d (BitVec.ofNat 32 r)) s
        other.foldl (fun s p => s.trap k p.1 0x06 p.2.1 (s.lane k p.1).pc) s))

-- GSIG (R98)

/-- `GSIG` of a group: what it does in this device's memory, what it asks of another device, and whether its operand is
poisoned. -/
def gsig (a : Reg) (off : Word) (n : Nat) (poison : View → Bool) (here : State → Nat → DWord → Nat → View → State)
    (far : View → ReqKind) : ThreadBody :=
  aligned a off n (memoryWith false a off n n .write true fun s k G _ ps =>
    let fault := fun (p : Nat × DWord × Spot) =>
      match p.2.2 with
      | .ls _ _ => some (⟨0x06, p.2.1, false, false⟩ : LaneFault)
      | .mem _ _ | .global _ _ => if poison (G.view p.1) then some ⟨0x07, 0, false, false⟩ else none
    let bad := ps.filterMap fun p => (fault p).map fun x => (p.1, x)
    let good := ps.filter fun p => (fault p).isNone
    let m := maskOf (good.map (·.1))
    let remote := farOf good
    if good.isEmpty then s.raise k false bad
    else if !remote.isEmpty && remote.any fun x => !s.canSend x.2.1 64 then s.stall k m (.again "fabric")
    else
      match s.settled k m with
      | (s, false) => s
      | (s, true) =>
        let s := s.releaseAt (coreOf k) .sys
        let s := good.foldl (fun s p =>
          match p.2.2 with
          | .mem pa _ => here s k p.2.1 pa (G.view p.1)
          | .global dv o => (s.send (s.ask k p.1 s.curPc dv o (far (G.view p.1)) .gsig)).1
          | .ls _ _ => s) s
        (s.advance k m).raise k false bad)

/-- `GSIG.arr` (R98). -/
def execGsigArr (g : Guard) (a b : Reg) (off : Word) (s : State) : Host.Outcome State Fault Refusal :=
  threadOp (.gsigArr g a b off) s (gsig a off 8 (fun v => (v.reg b).2)
    (fun s _ _ pa v => s.countMem pa (v.reg b).1 false) fun v => .count (v.reg b).1 false)

/-- `GSIG.ann` (R98). -/
def execGsigAnn (g : Guard) (a b : Reg) (off : Word) (s : State) : Host.Outcome State Fault Refusal :=
  threadOp (.gsigAnn g a b off) s (gsig a off 8 (fun v => (v.reg b).2)
    (fun s _ _ pa v => s.countMem pa (-(v.reg b).1) true) fun v => .count (-(v.reg b).1) true)

/-- `GSIG.seal` (R98). -/
def execGsigSeal (g : Guard) (a : Reg) (off : Word) (s : State) : Host.Outcome State Fault Refusal :=
  threadOp (.gsigSeal g a off) s (gsig a off 64 (fun _ => false)
    (fun s k va _ _ => s.sealRec (s.ctxId (coreNode (coreOf k))) va) fun _ => .seal)

end Sys2Proof.Machine
end

