-- ==== Sys2Proof/Machine/Saving.lean ====
section
/-! DEFINITION. Pre-emption and context switch (R336 to R338, R344): eviction of blocks into a save area, and their return. A
block's image is the device's own: its bytes are free, and it is known again by them. -/

namespace Sys2Proof.Machine

-- Numbers of evicted parts

/-- A gang's or block's number replaced in a barrier's name. -/
def BarRef.rename (g b : Nat → Nat) : BarRef → BarRef
  | .gang k => .gang (g k)
  | .blk k n => .blk (b k) n
  | .ens e n => .ens e n
  | .coop t n => .coop t n

/-- What a wait names, renumbered. -/
def WaitKind.rename (g b : Nat → Nat) : WaitKind → WaitKind
  | .bar r p => .bar (r.rename g b) p
  | .rejoin r p => .rejoin (r.rename g b) p
  | w => w

/-- A gang renumbered. -/
def Gang.rename (G : Gang) (g b : Nat → Nat) : Gang :=
  { G with block := b G.block, waits := G.waits.map fun w => { w with kind := w.kind.rename g b } }

/-- The arrivals at barriers, renumbered. -/
def renameArrivals (g : Nat → Nat) (bars : SMap Barrier) : SMap Barrier :=
  bars.mapV fun _ (x : Barrier) => { x with arrived := x.arrived.foldl (fun (m : SMap Mask) a => m.put (g a.1) a.2) [] }

/-- The arrivals at a block's own barriers, renumbered. -/
def Block.rename (B : Block) (g : Nat → Nat) : Block := { B with barriers := renameArrivals g B.barriers }

/-- A monitor's waiters and the window that it watches, renumbered. -/
def Monitor.rename (m : Monitor) (g b : Nat → Nat) : Monitor :=
  let who := fun (w : Waiter) => match w with
    | .lane k l => Waiter.lane (g k) l
    | .seq x matrix => .seq (b x) matrix
  let place := match m.place with
    | .ls x o => Place.ls (b x) o
    | .mem w => .mem w
  { m with place := place, waiters := m.waiters.map fun w => { w with who := who w.who } }

/-- What other parts of the device name of a block's gangs and of the block, renumbered: the holders of roles, copy tokens, the
members of an ensemble, the arrivals at barriers beyond the block, and the waiters of monitors. -/
def State.renameOthers (s : State) (g b : Nat → Nat) : State :=
  let holder := fun (h : Holder) => if h.device.isNone then { h with gang := g h.gang } else h
  let role := fun (R : Role) => { R with holder := R.holder.map holder }
  { s with
    homes := s.homes.mapV fun _ (H : Home) => { H with roles := H.roles.map role }
    copyTokens := s.copyTokens.mapV fun _ (t : CopyToken) =>
      { t with gang := t.gang.map g, residual := { t.residual with block := b t.residual.block } }
    ensembles := s.ensembles.mapV fun _ (E : Ensemble) =>
      { E with
        members := E.members.map fun m => (b m.1, m.2)
        retired := E.retired.map b
        barriers := renameArrivals g E.barriers }
    launches := s.launches.mapV fun _ (L : Launch) => { L with barriers := renameArrivals g L.barriers }
    monitors := s.monitors.mapV fun _ (m : Monitor) => m.rename g b }

-- Eviction (R336)

/-- Whether a remote load that lanes wait for has been outstanding for over 2 µs (Table 16.8). -/
def State.slowLoads (s : State) (ids : List Nat) : Bool :=
  ids.all fun i => match s.requests.find? i with
    | some r => r.origin == .load && r.sentAt + 2000 < s.now
    | none => true

/-- Whether a wait lets its lanes be evicted (Table 16.8). -/
def State.evictableWait (s : State) (w : Wait) : Bool :=
  match w.kind with
  | .verdict _ _ _ => false
  | .remote ids => s.slowLoads ids
  | .parked tok => tok < 2 ^ 32
  | k => k.blocking

/-- Whether a gang may be evicted (R336); what waits in the die's overflow for it is posted first. -/
def State.evictableGang (s : State) (G : Gang) : Bool :=
  let m := (G.waits.filter s.evictableWait).foldl (fun m w => m ||| w.lanes) 0
  G.live &&& ~~~m == 0 && (lanesOf G.live).all (fun l => (G.lane l).mode != .hypervisor) &&
    G.copyFaults.all fun f => f.token < 2 ^ 32

/-- Whether a sequencer lets its block be evicted. -/
def Seq.evictable (q : Seq) : Bool :=
  match q.run, q.wait with
  | .idle, _ | .stopped, _ => true
  | .running, .rdv _ | .running, .monitor _ _ | .running, .gate => !q.exiting && q.copyFault.isNone
  | .running, .none | .running, .walk _ | .running, .refetch _ => false

/-- Whether a block may be evicted (R336). -/
def State.evictable (s : State) (b : Nat) (B : Block) : Bool :=
  let dies := match B.ens.bind s.ensembles.find? with
    | some E => E.anchor :: E.partner.toList
    | none => [coreNode B.core]
  dies.all (fun n => (s.saves.find? n).any fun j => !j.load) &&
    B.gangs.all (fun k => (s.gangs.find? k).all s.evictableGang) && B.mseq.evictable && B.cseq.evictable &&
    !s.copies.any fun c => c.2.block == b

/-- Bytes of a block's image (R337). -/
def imageSize (B : Block) (gangs : List Gang) : Nat :=
  let regs := (gangs.map fun G => 1024 + 128 * G.alloc).foldl (· + ·) 0
  let n := 512 + regs + B.lsb + (if B.claimsMatrix then 26624 else 0) + if B.claimsCopy then 256 else 0
  (n + 4095) / 4096 * 4096

/-- The bytes that the device writes for an image or an entry in the step numbered `wrote`. -/
def savedBytes (wrote id n : Nat) : List Byte := (List.range n).map fun i => (Config.freeBits wrote (2 ^ 32 + id) i).setWidth 8

/-- The agent of a save or load: the hypervisor's accesses. -/
def saveAgent (node : Nat) (j : SaveJob) : Agent := ⟨node, true, 0, 0, j.secure, false⟩

/-- Bytes written for a save, piece by piece; `fuel` pieces at most. -/
def writePieces (ag : Agent) (a : DWord) (bs : List Byte) (s : State) : Nat → State × Except PageFault Unit
  | 0 => (s, .ok ())
  | fuel + 1 =>
    if bs.isEmpty then (s, .ok ())
    else
      let n := Nat.min bs.length (65536 - a.toNat % 65536)
      match devWrite ag a (clean (bs.take n)) s with
      | (s, .error f) => (s, .error f)
      | (s, .ok _) => writePieces ag (a + BitVec.ofNat 64 n) (bs.drop n) s fuel

/-- Pieces that the bytes of any image or list of entries take. -/
def pieceFuel : Nat := 256

/-- What a waiter's number in a block is: its gang's and lane, or its sequencer's. -/
def Block.waiterOf (B : Block) (b : Nat) : Waiter → Option (Option Nat × Nat)
  | .lane k l => if coreOf k = B.core then (B.slots.findIdx? (· == k % 16)).map fun g => (some g, l) else none
  | .seq b' matrix => if b' = b then some (none, if matrix then 1 else 0) else none

/-- The waiters of a block's lanes and sequencers on the monitors. -/
def State.waitersOf (s : State) (b : Nat) (B : Block) : List SavedWait :=
  let now := (s.counter (coreNode B.core)).toNat
  (s.monitors.map fun (m : Nat × Monitor) => m.2.waiters.filterMap fun w =>
    (B.waiterOf b w.who).map fun x =>
      let own := match m.2.place with
        | .ls b' _ => b' == b
        | .mem _ => false
      ({ gang := x.1, lane := x.2, place := m.2.place, own := own, free := m.2.seat == .free, cond := w.cond,
         left := w.limit.map (· - now), ended := w.ended } : SavedWait)).flatten

/-- The roles that a gang holds: register, handle, role, and the number under which another device's home knows it. -/
def Gang.roles (G : Gang) : List (Nat × Nat × Nat × Nat) :=
  G.h.filterMap fun r => (roleOf r.2).map fun x => (r.1, x.1, x.2, G.hids.get 0 r.1)

/-- Whether what gangs have to tell the homes of their roles on other devices can be sent. -/
def State.canTell (s : State) (gangs : List Gang) : Bool :=
  let devices := ((gangs.map fun G => G.roles.map (·.2.1)).flatten.filter fun h => !hOwn h).map hDevice
  devices.all fun d => s.canSend d (devices.count d)

/-- The entries of a gang's roles return to their homes (R312). -/
def State.returnEntries (s : State) (k : Nat) (G : Gang) : State :=
  G.roles.foldl (fun s r =>
    let key := convKey r.2.1 r.2.2.1
    if hOwn r.2.1 then
      { s with
        back := s.back.write [] key (s.back.get [] key ++ s.recv.get [] key)
        recv := s.recv.del key }
    else
      let taken := s.takenOf r.2.1 r.2.2.1
      (({ s with recv := s.recv.del key } : State).askHome k 0 r.2.1
        (.back (BitVec.ofNat 64 r.2.1) r.2.2.1 r.2.2.2 taken)).1) s

/-- A gang as its image holds it: its remote loads are to be performed again. -/
def Gang.atRest (G : Gang) : Gang :=
  { G with
    line := none
    answers := []
    walkFaults := []
    waits := G.waits.filter fun w => match w.kind with
      | .remote _ => false
      | _ => true }

/-- A block's state taken off the device and kept under an image's number. Its waiters on words outside its window keep their
monitors, without a limit. -/
def State.takeOff (s : State) (img pa size b : Nat) (B : Block) (gangs : List Gang) : State :=
  let still := fun (q : Seq) => { q with line := none, walkFaults := [] }
  let saved : Saved := {
    node := coreNode B.core, pa := pa, wrote := s.ctr, size := size, out := true,
    block := { B with mseq := still B.mseq, cseq := still B.cseq }, gangs := gangs.map Gang.atRest,
    waiters := s.waitersOf b B }
  let s := (B.gangs.zip gangs).foldl (fun s x => s.returnEntries x.1 x.2) s
  let mine := fun (w : Waiter) => (B.waiterOf b w).isSome
  let keep := fun (m : Monitor) => match m.place with
    | .ls x _ => if x = b then m.waiters.filter (fun (w : MonWait) => !mine w.who) else m.waiters
    | .mem _ => m.waiters
  let timeless := fun (w : MonWait) => if mine w.who then { w with limit := none } else w
  let s := { s with
    images := s.images.put img saved
    monitors := s.monitors.mapV fun _ (m : Monitor) =>
      { m with waiters := (keep m).map timeless } }
  let keys := B.gangs
  let s := s.freeMonitors.renameOthers (fun k => if keys.contains k then evictedId img k else k)
    fun x => if x = b then evictedId img x else x
  s.removeBlock b B

/-- `BLOCK_EVICT` (R336, R337): buffered stores are sent first; the image that cannot be written is not. -/
def execBlockEvict (block : Nat) (s : State) : Host.Outcome State Fault Refusal :=
  match s.blocks.find? block with
  | none => .next s
  | some B =>
    let node := coreNode B.core
    match s.saves.find? node with
    | none => .next s
    | some j =>
      if !s.evictable block B then .next s
      else if B.gangs.any fun k => s.outstanding k != 0 then
        .next (B.gangs.foldl (fun s k => if s.room B.core 32 then s.closeGang k else s) s)
      else if !s.canTell (B.gangs.filterMap s.gangs.find?) then .next s
      else
        let s := s.releaseAt B.core .pkg
        let gangs := B.gangs.filterMap s.gangs.find?
        let size := imageSize B gangs
        let img := (s.images.freeFrom (s.images.length + 1) 0).getD 0
        let at_ := j.area + BitVec.ofNat 64 j.used
        let ag := saveAgent node j
        match translateNow ag .write at_.toNat s with
        | (s, .error _) => .next s
        | (s, .ok t) =>
          match writePieces ag at_ (savedBytes s.ctr img size) s pieceFuel with
          | (s, .error _) => .next s
          | (s, .ok _) =>
            let s := s.takeOff img (t.addr at_.toNat) size block B gangs
            .next { s with saves := s.saves.put node { j with used := j.used + size, blocks := j.blocks + 1 } }

-- CTXSAVE (R337, R344)

/-- A block routed and not placed: its launch, the ensemble cell of a member, and the block. -/
abbrev Unplaced := Nat × Option Nat × Routed

/-- The blocks of a context that are routed to a die and not placed, the members of formed ensembles among them. -/
def State.routedTo (s : State) (node ctx : Nat) : List Unplaced :=
  ((s.launches.filter fun (l : Nat × Launch) => l.2.ctx == ctx).map fun (l : Nat × Launch) =>
    ((l.2.streams.get [] node).map fun r => (l.1, none, r)) ++
      (l.2.cells.map fun (c : Nat × Cell) =>
        if c.2.waits then (c.2.members.filter fun r => r.node == node && !r.away).map fun r => (l.1, some c.1, r)
        else []).flatten).flatten

/-- A member of an ensemble cell changed, by the index of its record. -/
def Launch.onMember (L : Launch) (cell index : Nat) (f : Routed → Routed) : Launch :=
  { L with cells := L.cells.adjust cell fun (c : Cell) =>
      { c with members := c.members.map fun r => if r.index = index then f r else r } }

/-- Whether a die has a block on one of its cores. -/
def State.blocksAt (s : State) (node : Nat) : List (Nat × Block) :=
  s.blocks.filter fun (b : Nat × Block) => coreNode b.2.core == node

/-- A block not placed taken out of its stream, or marked in its cell. -/
def Launch.takeAway (L : Launch) (node : Nat) (r : Unplaced) : Launch :=
  match r.2.1 with
  | none => { L with streams := L.streams.write [] node ((L.streams.get [] node).erase r.2.2) }
  | some c => L.onMember c r.2.2.index fun m => { m with away := true }

/-- The entries of blocks not placed taken away and written to a save area, the first as the entry numbered `at_`. -/
def State.saveEntries (s : State) (node : Nat) (ag : Agent) (area : DWord) (at_ : Nat) (rs : List Unplaced) : State :=
  let put := fun (x : State × Nat) (r : Unplaced) =>
    let id := (x.1.unplaced.freeFrom (x.1.unplaced.length + 1) 0).getD 0
    let e : SavedEntry := ⟨r.1, r.2.1, x.1.ctr, true, { r.2.2 with bound := none }⟩
    let s := ({ x.1 with unplaced := x.1.unplaced.put id e }).onLaunch r.1 fun L => L.takeAway node r
    let s := (writePieces ag (area + BitVec.ofNat 64 (64 + 64 * x.2)) (savedBytes s.ctr (2 ^ 32 + id) 64) s pieceFuel).1
    (s, x.2 + 1)
  (rs.foldl put (s, at_)).1

/-- Bytes before the first image of a save area that has so many entries, and the entries that they hold. -/
def entryBytes (entries : Nat) : Nat := (64 + 64 * entries + 4095) / 4096 * 4096
/-- See `entryBytes`. -/
def entryRoom (entries : Nat) : Nat := (entryBytes entries - 64) / 64

/-- A save begun by a lane of a core: the result of R344. -/
def State.ctxsave (s : State) (core : Nat) (area : DWord) : State × Word :=
  let node := coreNode core
  let ctx := s.ctxId node
  let secure := (s.core core).secure
  let ag : Agent := ⟨node, true, 0, 0, secure, false⟩
  if (s.saves.find? node).isSome then (s, 1)
  else if area.toNat % 4096 ≠ 0 || area.toNat / 2 ^ 48 ≠ 0 then (s, 2)
  else
    match translateNow ag .readWrite area.toNat s with
    | (s, .error _) => (s, 2)
    | (s, .ok _) =>
      let rs := s.routedTo node ctx
      let c := s.ctxs.get {} ctx
      let j : SaveJob := {
        load := false, ctx := ctx, area := area, secure := secure, pwrset := (s.core core).pwrset,
        used := entryBytes rs.length, graceEnd := s.now + 1000 * c.grace, entries := rs.length }
      let s := s.saveEntries node ag area 0 rs
      ({ s with saves := s.saves.put node j }, 0)

/-- `CTXSAVE` (R337, R344). -/
def execCtxsave (g : Guard) (d : BitVec 8) (a : Reg) (s : State) : Host.Outcome State Fault Refusal :=
  threadOp (.ctxsave g d a) s fun s k m =>
    (lanesOf m).foldl (fun s l =>
      match s.gangs.find? k with
      | none => s
      | some G =>
        match (G.view l).pair a with
        | (_, true) => s.trap k l 0x07 0 (G.lane l).pc
        | (area, false) =>
          let (s, r) := s.ctxsave (coreOf k) area
          s.laneResult k l d r) s

-- CTXLOAD (R85, R337, R344)

/-- Whether a context record keeps Table 5.1, apart from what its JOB names. -/
def contextOk (r : List Byte) : Bool :=
  field r 0 8 % 2048 == 0 && field r 0x18 8 % 64 == 0 && field r 0x08 2 / 1024 == 0 && field r 0x0A 1 / 64 == 0 && field r 0x0B 1 / 2 == 0 &&
    1 ≤ field r 0x10 4 && field r 0x10 4 ≤ 1000000 && field r 0x14 4 == 0 && field r 0x20 32 == 0

/-- Whether a save area's header is one (Table 16.9). -/
def headerOk (h : List Byte) : Bool := field h 0 4 == 0x4F4C4358 && field h 4 2 == 1 && field h 0x20 32 == 0

/-- A context as its record gives it (Table 5.1), with the registers of an earlier installation. -/
def Ctx.ofRecord (old : Ctx) (pa : Nat) (va : DWord) (r : List Byte) (power : Pwrset) : Ctx :=
  { old with
    record := pa, recordVa := va, qtable := BitVec.ofNat 64 (field r 0 8), asid := field r 0x08 2,
    vmid := field r 0x0A 1, secure := field r 0x0B 1 == 1, pwrset := power, grace := field r 0x10 4, job := BitVec.ofNat 64 (field r 0x18 8) }

/-- Whether the JOB of a context's record is a completion record of level 4, read in that context (Table 5.1). -/
def State.jobOk (s : State) (node : Nat) (c : Ctx) : State × Bool :=
  match devReadClean (ctxAgent node c) c.job 64 s with
  | (s, .ok j) => (s, field j 2 1 == 4)
  | (s, .error _) => (s, false)

/-- A context installed on a die's cores (R337, R338). -/
def State.install (s : State) (node ctx : Nat) (c : Ctx) : State :=
  let cores := (List.range 512).map (512 * node + ·)
  let s := cores.foldl (fun s core => s.setCore core { s.core core with secure := c.secure, pwrset := c.pwrset }) s
  { s with ctxs := s.ctxs.put ctx c, dieCtx := s.dieCtx.put node ctx }

/-- The number of the context of a record: that of an earlier installation, or a new one. -/
def State.ctxNumber (s : State) (pa : Nat) : Nat :=
  match List.find? (fun (c : Nat × Ctx) => c.1 != 0 && c.2.record == pa) s.ctxs with
  | some c => c.1
  | none => (s.ctxs.freeFrom (s.ctxs.length + 2) 1).getD 1

/-- What the device keeps of the queues of a context that is installed anew, with nothing of it left on the device. -/
def State.clearQueues (s : State) (idle : Bool) (ctx : Nat) : State :=
  if idle then
    { s with
      queues := s.queues.filter fun (q : Nat × QState) => q.1 / 64 != ctx
      fqTail := s.fqTail.del (ctx + 1) }
  else s

/-- A load begun by a lane of a core: the result of R344. -/
def State.ctxload (s : State) (core : Nat) (rec_ area : DWord) (fresh : Bool) : State × Word :=
  let node := coreNode core
  let secure := (s.core core).secure
  let ag : Agent := ⟨node, true, 0, 0, secure, false⟩
  if (s.saves.find? node).isSome then (s, 1)
  else if rec_.toNat % 64 ≠ 0 || (!fresh && area.toNat % 4096 ≠ 0) || rec_.toNat / 2 ^ 48 ≠ 0 then (s, 2)
  else
    match translateNow ag .read rec_.toNat s, devReadClean ag rec_ 64 s with
    | (_, .error _), _ => (s, 2)
    | _, (_, .error _) => (s, 2)
    | (_, .ok t), (s, .ok r) =>
      let pa := t.addr rec_.toNat
      let n := s.ctxNumber pa
      if (s.blocksAt node).any fun b => b.2.ctx != n then (s, 1)
      else if !contextOk r then (s, 2)
      else
        match if fresh then (s, .ok []) else devReadClean ag area 64 s with
        | (s, .error _) => (s, 2)
        | (s, .ok h) =>
          if !fresh && !headerOk h then (s, 3)
          else
            let power := Pwrset.ofWord (BitVec.ofNat 32 (if fresh then field r 0x0C 4 else field h 0x10 4))
            let running := s.dieCtx.any fun (x : Nat × Nat) => x.2 == n
            let old := if fresh && !running then {} else s.ctxs.get {} n
            let idle := fresh && !running && !(s.launches.any fun (l : Nat × Launch) => l.2.ctx == n) &&
              !s.graphs.any fun (x : Nat × Graph) => x.2.ctx == n
            let c := old.ofRecord pa rec_ r power
            match s.jobOk node c with
            | (s, false) => (s, 2)
            | (s, true) =>
              let s := (s.clearQueues idle n).install node n c
              let j : SaveJob := {
                load := true, ctx := n, area := area, secure := secure, todo := if fresh then 0 else field h 6 2,
                entries := if fresh then 0 else field h 0x16 2, used := entryBytes (field h 0x16 2) }
              ({ s with saves := s.saves.put node j }, 0)

/-- `CTXLOAD` (R337, R344); x0 as B loads the context fresh. -/
def execCtxload (g : Guard) (d : BitVec 8) (a b : Reg) (s : State) : Host.Outcome State Fault Refusal :=
  threadOp (.ctxload g d a b) s fun s k m =>
    (lanesOf m).foldl (fun s l =>
      match s.gangs.find? k with
      | none => s
      | some G =>
        match (G.view l).pair a, (G.view l).pair b with
        | (_, true), _ | _, (_, true) => s.trap k l 0x07 0 (G.lane l).pc
        | (r, false), (area, false) =>
          let (s, x) := s.ctxload (coreOf k) r area (!b.k && b.n == 0)
          s.laneResult k l d x) s

-- The images of a load (R337)

/-- A core of a die that takes a saved block: the choice of R109 to R111, with the registers that its gangs hold. -/
def State.coreFor (s : State) (L : Launch) (S : Saved) (node : Nat) : Option CoreChoice :=
  let regs := (S.gangs.map fun G => if G.live != 0 then 32 * G.alloc else 0).foldl (· + ·) 0
  let fits := fun (core : Nat) => s.fits L core && decide (regs ≤ s.freeRegs core)
  s.chooseCore fits node (if node = S.block.tileNode then S.block.hint else none) S.bound

/-- A waiter armed again on a restored block (Table 16.8); `ended` is how its wait has ended while it was away. -/
def State.rearm (s : State) (core b : Nat) (key : Nat → Nat) (w : SavedWait) (ended : Option (DWord × Bool)) : State :=
  let place := match w.place with
    | .ls b' o => if w.own then Place.ls b o else .ls b' o
    | .mem x => .mem x
  let who := match w.gang with
    | some g => Waiter.lane (key g) w.lane
    | none => .seq b (w.lane == 1)
  let limit := w.left.map ((s.counter (coreNode core)).toNat + ·)
  s.arm core place w.free ⟨who, w.cond, limit, ended.or w.ended⟩

/-- A waiter of an evicted block under its number. -/
def SavedWait.evicted (w : SavedWait) (img : Nat) (B : Block) : Waiter :=
  match w.gang with
  | some g => .lane (evictedId img (B.gangs.getD g 0)) w.lane
  | none => .seq (evictedId img (16 * B.core + B.slots.headD 0)) (w.lane == 1)

/-- The waiters of an evicted block taken off their monitors. -/
def State.dropWaiters (s : State) (img : Nat) (S : Saved) : State :=
  (S.waiters.foldl (fun s w => s.unwatch (w.evicted img S.block)) s).freeMonitors

/-- A saved block placed on a core: its gangs in the lowest free slots, its wake conditions re-armed (R337). -/
def State.restore (s : State) (img core : Nat) (S : Saved) : State :=
  let slots := (s.freeGangSlots core).take S.block.slots.length
  let b := 16 * core + slots.headD 0
  let key := fun (g : Nat) => 16 * core + slots.getD g 0
  let oldKeys := S.block.gangs
  let oldB := 16 * S.block.core + S.block.slots.headD 0
  let g := fun (k : Nat) => match oldKeys.findIdx? (· == k) with
    | some i => key i
    | none => k
  let bl := fun (x : Nat) => if x = oldB then b else x
  let B := { S.block.rename g with core := core, slots := slots }
  let waiters := S.waiters.map fun w => (w, s.endedOf (w.evicted img S.block))
  let s := s.dropWaiters img S
  let s := { s.freshCode B.tag core with blocks := s.blocks.put b B, images := s.images.put img { S with out := false } }
  let s := (S.gangs.mapIdx fun i G => (i, G)).foldl (fun s x => s.setGang (key x.1) (x.2.rename g bl)) s
  let back := fun (f : Nat → Nat) (x : Nat) => if x / 2 ^ 40 = img + 1 then f (x % 2 ^ 40) else x
  let s := s.renameOthers (back g) (back bl)
  let s := waiters.foldl (fun s w => s.rearm core b key w.1 w.2) s
  let s := B.gangs.foldl (fun (s : State) k => s.settleAll k) (s.acquireAt core .pkg)
  let s := if s.covered B then s.cancelLaunch B.tag else s
  s.finishWaits

/-- The next image of a load: the saved block whose bytes stand there; else the one that was written there, whose CRC
fails. -/
def State.imageAt (s : State) (ag : Agent) (a : DWord) : State × Option (Nat × Saved × Bool) :=
  match translateNow ag .read a.toNat s with
  | (s, .error _) => (s, none)
  | (s, .ok t) =>
    let pa := t.addr a.toNat
    let holds := fun (x : Nat × Saved) =>
      match readPieces ag a x.2.size s pieceFuel with
      | (_, .ok bs) => bs == savedBytes x.2.wrote x.1 x.2.size
      | (_, .error _) => false
    match List.find? (fun (x : Nat × Saved) => x.2.out && holds x) s.images with
    | some (i, S) => (s, some (i, S, true))
    | none => (s, (List.find? (fun (x : Nat × Saved) => x.2.out && x.2.pa == pa) s.images).map fun x => (x.1, x.2, false))

/-- A saved block killed at its load: it counts as retired, and its launch as one with killed gangs. -/
def State.loseImage (s : State) (img : Nat) (S : Saved) : State :=
  let B := S.block
  let s := ({ s with images := s.images.put img { S with out := false } }).dropWaiters img S
  let gone := fun (s : State) (h role uid : Nat) =>
    let c := s.ctxs.get {} B.ctx
    let r : Request := {
      gang := none, lane := 0, pc := 0, device := hDevice h, seq := 0, offset := 0,
      kind := .conv (.unbind (BitVec.ofNat 64 h) role uid (s.takenOf h role)), origin := .conv, vmid := c.vmid,
      secure := c.secure }
    ((s.forgetRole h role).send r).1
  let unbind := fun (s : State) (x : Nat × Gang) => x.2.roles.foldl (fun s r =>
    if hOwn r.2.1 then s.unbindAt r.2.1 r.2.2.1 ⟨none, evictedId img (B.gangs.getD x.1 0)⟩ []
    else gone s r.2.1 r.2.2.1 r.2.2.2) s
  let s := (S.gangs.mapIdx fun i G => (i, G)).foldl unbind s
  let s := { s with launches := s.launches.adjust B.tag fun L => { L with killed := L.killed + 1 } }
  let s := s.markFlags.retiringWrite B
  match s.launches.find? B.tag with
  | none => s
  | some L => (List.range L.cbars).foldl (fun s n => s.settleBar (.coop B.tag n)) (s.bump L.key (-1) 1)

/-- One step of a load: the next image, or none of it while no core takes its block, or homes cannot be told of its loss. -/
def State.loadImage (s : State) (node : Nat) (j : SaveJob) : State :=
  let a := j.area + BitVec.ofNat 64 j.used
  let past := fun (s : State) (size placed killed : Nat) =>
    let j := { j with
      todo := j.todo - 1, used := j.used + size, blocks := j.blocks + placed, killed := j.killed + killed }
    { s with saves := s.saves.put node j }
  match s.imageAt (saveAgent node j) a with
  | (s, none) =>
    let j := { j with todo := 0, killed := j.killed + j.todo }
    { s with saves := s.saves.put node j }
  | (s, some (img, S, false)) => if s.canTell S.gangs then past (s.loseImage img S) S.size 0 1 else s
  | (s, some (img, S, true)) =>
    match s.launches.find? S.block.tag with
    | none => past s S.size 0 1
    | some L =>
      match s.coreFor L S node with
      | none => s
      | some (.wake c) => ({ s with images := s.images.put img { S with bound := some c } }).wakeCluster c
      | some (.core core) => past (s.restore img core S) S.size 1 0

/-- A saved entry's block back on a die: in its launch's stream, or in its cell. -/
def Launch.bringBack (L : Launch) (node : Nat) (e : SavedEntry) : Launch :=
  match e.cell with
  | none => { L with streams := L.streams.put node (L.streams.get [] node ++ [{ e.block with node := node }]) }
  | some c => L.onMember c e.block.index fun m => { m with away := false, node := node }

/-- The entries of blocks not placed put back, known by their bytes. -/
def State.loadEntries (s : State) (node : Nat) (j : SaveJob) : State :=
  let one := fun (s : State) (i : Nat) =>
    match readPieces (saveAgent node j) (j.area + BitVec.ofNat 64 (64 + 64 * i)) 64 s 2 with
    | (s, .error _) => s
    | (s, .ok bs) =>
      match List.find? (fun (x : Nat × SavedEntry) => x.2.out && bs == savedBytes x.2.wrote (2 ^ 32 + x.1) 64) s.unplaced with
      | none => s
      | some (id, e) =>
        let s := { s with unplaced := s.unplaced.put id { e with out := false } }
        s.onLaunch e.tag fun L => L.bringBack node e
  (List.range j.entries).foldl one s

/-- The header of a finished save (Table 16.9). -/
def saveHeader (node : Nat) (j : SaveJob) (record : DWord) : List Byte :=
  toBytes 4 0x4F4C4358 ++ toBytes 2 1 ++ toBytes 2 j.blocks ++ toBytes 8 record.toNat ++ toBytes 4 j.pwrset.word.toNat ++
    toBytes 2 node ++ toBytes 2 j.entries ++ toBytes 8 j.used ++ List.replicate 32 0

/-- The record of a finished save or load (kinds 13 and 14), posted to HFQ. -/
def State.postSaved (s : State) (node : Nat) (j : SaveJob) : State :=
  (s.post node 0 (mkRecord (if j.load then 14 else 13) 0 0 0 0 0 0 j.area (toBytes 4 j.blocks ++ toBytes 4 j.killed))).1

/-- The end of a save: what has been routed to the die since it began goes into the room that is left for entries, then the
header is written. -/
def State.endSave (s : State) (node : Nat) (j : SaveJob) : State :=
  let ag := saveAgent node j
  let late := (s.routedTo node j.ctx).take (entryRoom j.entries - j.entries)
  let s := s.saveEntries node ag j.area j.entries late
  let j := { j with entries := j.entries + late.length }
  let s := (writePieces ag j.area (saveHeader node j (s.ctxs.get {} j.ctx).recordVa) s 2).1
  ({ s with saves := s.saves.del node, dieCtx := s.dieCtx.del node }).postSaved node j

/-- `CONTEXT_SAVE_COMPLETE` (R337): a save whose die holds no block any more; a load, image by image, then its end. It waits
while its record could not be posted (R332). -/
def execContextSaveComplete (node : Nat) (s : State) : Host.Outcome State Fault Refusal :=
  match s.saves.find? node with
  | none => .next s
  | some j =>
    if j.load then
      if j.todo ≠ 0 then .next (s.loadImage node j)
      else if !s.canPost node 0 then .next s
      else
        let s := s.loadEntries node j
        .next (({ s with saves := s.saves.del node } : State).postSaved node j)
    else if !(s.blocksAt node).isEmpty || !s.canPost node 0 then .next s
    else .next (s.endSave node j)

/-- `SAVE_GRACE_EXPIRY` (R337): the gangs still live are killed, with a kill report for each launch. -/
def execSaveGraceExpiry (node : Nat) (s : State) : Host.Outcome State Fault Refusal :=
  match s.saves.find? node with
  | none => .next s
  | some j =>
    if j.load || j.expired || s.now < j.graceEnd || !s.canPost node (j.ctx + 1) then .next s
    else
      let live := (s.gangs.filter fun (g : Nat × Gang) => coreNode (coreOf g.1) == node && g.2.live != 0).map (·.1)
      let tags := (live.map s.tagOf).dedup
      let reports := tags.map fun t => (t, (live.filter fun k => s.tagOf k == t).length)
      let s := live.foldl (fun s k => s.killGang k) s
      let s := reports.foldl (fun s r =>
        let comp := BitVec.ofNat 64 (((s.launches.find? r.1).map fun L => field L.lrec 0x60 8).getD 0)
        (s.post node (j.ctx + 1) (mkRecord 10 0 0 0 r.1 0 0 comp (toBytes 4 r.2))).1) s
      .next { s with saves := s.saves.put node { j with expired := true, killed := j.killed + live.length } }

end Sys2Proof.Machine
end

