-- ==== Sys2Proof/Machine/Board.lean ====
section
/-! DEFINITION. Bring-up, attestation, monitors, faults, self-test and the host (R3, R14 to R30, R147, R281). -/

namespace Sys2Proof.Machine

-- Reset (R16, R17)

/-- The device after power-up: the reset state, in the step of the run that the model is at. -/
def State.powerUp (s : State) : State := { State.reset with ctr := s.ctr, inputs := s.inputs }

/-- `POWER_UP_RESET` (R16). -/
def execPowerUpReset (s : State) : Host.Outcome State Fault Refusal := .next s.powerUp

/-- `INPUT_UNDERVOLTAGE` (R17): the device returns to power-up reset. -/
def execInputUndervoltage (s : State) : Host.Outcome State Fault Refusal := .next s.powerUp

-- Bring-up (R20 to R22)

/-- `BOOT_GO` (R20): ignored while STAGE is not 0 or LOCKED is set. -/
def execBootGo (len : DWord) (s : State) : Host.Outcome State Fault Refusal :=
  if s.boot.locked || s.boot.stage != 0 then .next s
  else
    let boot := { s.boot with length := some len.toNat }
    .next { s with boot := boot }

/-- Bytes of the staging window. -/
def Boot.bytes (b : Boot) (off n : Nat) : List Byte := (List.range n).map fun i => SMap.get emptyByte b.staging (off + i)

/-- A verified image: its SVN and the digest of R21. -/
structure Image where
  svn : Nat
  digest : List Byte
  deriving DecidableEq, Repr

/-- The checks of R21, in order: the error, or the image. -/
def Boot.verify (b : Boot) (len : Nat) : Except (BitVec 8) Image :=
  let word := fun (off n : Nat) => ofBytes (b.bytes off n)
  let key := b.bytes 0x010 1312
  let payload := word 0x008 8
  if Crypto.sha3 key != Config.fusedKeyHash then .error 0x02
  else if word 0x004 4 < Config.fusedMinSvn then .error 0x03
  else if word 0x000 4 ≠ 0x4F4C5346 || len ≠ 4096 + payload || 2 ^ 28 < len || word 0xEA4 348 ≠ 0 then .error 0x04
  else
    let digest := Crypto.sha3 (b.bytes 0 0x530 ++ b.bytes 4096 payload)
    if Crypto.verify key digest (b.bytes 0x530 2420) then .ok ⟨word 0x004 4, digest⟩ else .error 0x01

/-- BOOT_STATUS as it reads (Table 1.5). -/
def Boot.status (b : Boot) : Word :=
  BitVec.ofNat 32 ((if b.locked then 2 ^ 15 else 0) + 2 ^ 12 * b.attempts.toNat + 2 ^ 4 * b.error.toNat + b.stage.toNat)

/-- The boot ROM's end of a verification. -/
def Boot.verified (b : Boot) (len : Nat) : Boot :=
  match b.verify len with
  | .ok i => { b with length := none, stage := 1, svn := i.svn, measurement := i.digest }
  | .error e =>
    let b := { b with length := none, error := e, attempts := b.attempts + 1 }
    if b.attempts = 3 then { b with locked := true, stage := 0xF } else b

/-- `IMAGE_VERIFIED` (R21). -/
def execImageVerified (s : State) : Host.Outcome State Fault Refusal :=
  match s.boot.length with
  | none => .next s
  | some len =>
    let boot := s.boot.verified len
    .next { s with boot := boot }

/-- The neighbours of a node, by displacement of row and column (Table 12.3). -/
def neighbours : List (Int × Int) := [(-2, 0), (-1, -1), (-1, 1), (0, -2), (0, 2), (1, -1), (1, 1), (2, 0)]

/-- The node of a place on the panel, among the compute dies (R8, R9). -/
def nodeAt (row col : Int) : Option Nat :=
  (List.range 128).find? fun n => (((dieAt n).1 : Nat) : Int) == row && (((dieAt n).2 : Nat) : Int) == col

/-- The published offsets of a node's neighbours, in ps (Table 12.3). -/
def offsetRow (skew : SMap Int) (n : Nat) : List Byte :=
  (neighbours.map fun d =>
    match nodeAt (((dieAt n).1 : Nat) + d.1) (((dieAt n).2 : Nat) + d.2) with
    | some m => toBytes 4 (pat (skew.get 0 m - skew.get 0 n) 32)
    | none => toBytes 4 0x80000000).flatten

/-- The published time information (Table 12.3). -/
def timeInfo (counter : DWord) (skew : SMap Int) (bands : List (Nat × Nat × Nat)) : List Byte :=
  let band := fun (r : Nat) =>
    let b := if r = 0 || 18 ≤ r then (0, 0, 0) else bands.getD (r - 1) (0, 0, 0)
    toBytes 2 b.1 ++ toBytes 2 b.2.1 ++ toBytes 2 b.2.2 ++ toBytes 2 0
  toBytes 4 0x4F4C5449 ++ toBytes 2 1 ++ toBytes 2 0 ++ toBytes 8 counter.toNat ++ List.replicate 48 0 ++
    ((List.range 128).map (offsetRow skew)).flatten ++ ((List.range 32).map band).flatten

/-- The counters' offsets from node 0's as a bring-up finds them, within 8 ns (R16). -/
def skewOf (ps : List Int) : SMap Int :=
  (List.range 127).foldl (fun (m : SMap Int) i =>
    let v := ps.getD i 0
    m.write 0 (i + 1) (if v < -8000 then -8000 else if 8000 < v then 8000 else v)) []

/-- Whether a physical address is one of the device's memory (R215). -/
def physical (pa n : Nat) : Bool := nodeOf pa < 128 && pa % 2 ^ 36 + n ≤ nodeBytes

/-- Bytes written by firmware. -/
def State.firmwareWrite (s : State) (pa : Nat) (bs : List Byte) : State := s.homeWrite (runAt pa (clean bs))

/-- A page of a host stage mapped by firmware, readable and writable: a table that is missing on the way is put at `free`, where
memory is still zero, and the next one 4 KiB after it. -/
def State.mapPage (s : State) (ia out free : Nat) : List (Nat × Nat) → Nat → State
  | [], _ => s
  | (sh, n) :: rest, table =>
    let at_ := table + 8 * (ia / 2 ^ sh % 2 ^ n)
    let (s, bs) := s.homeRead at_ 8
    let e := ofBytes (bs.map (·.1))
    if rest.isEmpty then s.firmwareWrite at_ (toBytes 8 (out + 0xD))
    else if e % 4 = 3 then s.mapPage ia out free rest (e / 256 * 256)
    else (s.firmwareWrite at_ (toBytes 8 (free + 3))).mapPage ia out (free + 4096) rest free

/-- The mailbox mapped into VMID 0's host stage (R30, R214). -/
def State.mapMailbox (s : State) (h : HypLoad) : State :=
  let ia := h.mailbox % 2 ^ 48 / 65536 * 65536
  let free := h.tables / 4096 * 4096
  let (s, bs) := s.homeRead rootTable 8
  let root := ofBytes (bs.map (·.1))
  if root ≠ 0 then s.mapPage ia mailbox free levels root
  else (s.firmwareWrite rootTable (toBytes 8 free)).mapPage ia mailbox (free + 4096) levels free

/-- STAGE 4: the hypervisor's image goes to its place and is measured, and the mailbox is mapped (R22, R30). -/
def State.loadHypervisor (s : State) (h : HypLoad) : State :=
  let boot := { s.boot with hypervisor := Crypto.sha3 h.image }
  (({ s with boot := boot } : State).firmwareWrite h.base h.image).mapMailbox h

/-- The effect of a stage that completes, besides its number (R22). -/
def State.staged (s : State) (done : Nat) (skewPs : List Int) (bands : List (Nat × Nat × Nat)) (h : HypLoad) : State :=
  match done with
  | 2 => { s with links := [] }
  | 3 => { s with hbm := [], hbmPoison := [], elide := [], elideConst := [], l2 := [], l2Dirty := [], rdc := [] }
  | 4 => s.loadHypervisor h
  | 5 =>
    let skew := skewOf skewPs
    let info := timeInfo (s.counter 0) skew bands
    let s := { s with skew := skew, limits := (List.range 16).map fun r => (r, 30) }
    s.homeWrite (runAt 0x200000 (clean info))
  | _ => s

/-- Whether firmware loads the hypervisor into memory of the device. -/
def HypLoad.inMemory (h : HypLoad) : Bool := physical h.base h.image.length && physical (h.tables / 4096 * 4096) 16384

/-- `FIRMWARE_STAGE_COMPLETE` (R22). -/
def execFirmwareStageComplete (r : StageOutcome) (skewPs : List Int) (bands : List (Nat × Nat × Nat)) (s : State) :
    Host.Outcome State Fault Refusal :=
  let n := s.boot.stage.toNat
  let fail := fun (e : BitVec 8) =>
    let boot := { s.boot with stage := 0xF, error := e }
    { s with boot := boot }
  if n = 0 || 6 ≤ n then .next s
  else
    match r with
    | .pass h =>
      if n = 3 && !Sys2Proof.Machine.HypLoad.inMemory h then .next s
      else
        let s := s.staged (n + 1) skewPs bands h
        let boot := { s.boot with stage := BitVec.ofNat 4 (n + 1) }
        .next { s with boot := boot }
    | .trainFail => .next (if n = 1 then fail 0x05 else if n = 2 then fail 0x06 else s)
    | .selfTestFail => .next (fail 0x07)

/-- `PCIE_HOT_RESET` (R22). -/
def execPcieHotReset (s : State) : Host.Outcome State Fault Refusal :=
  if s.boot.locked then .next s
  else
    let boot := { s.boot with stage := 0, length := none }
    .next { s with boot := boot }

-- Attestation (R23, R30)

/-- The device identity (R23). -/
def identity : Crypto.Keys := Crypto.keyGen ((Config.identitySeed ++ List.replicate 32 0).take 32)

/-- The public half of the identity as the management port reads it, from STAGE 1 on (R30). -/
def Boot.identityRead (b : Boot) : Option (List Byte) :=
  if b.stage = 0 || b.stage = 0xF then none else some identity.pk

/-- `MAILBOX_STORE` (R30). -/
def execMailboxStore (addr : DWord) (s : State) : Host.Outcome State Fault Refusal :=
  let a := addr.toNat
  let served := 4 ≤ s.boot.stage.toNat && s.boot.stage != 0xF
  let readable := a % 64 = 0 && physical a 64 && !(s.homeRead a 64).2.any (·.2)
  if !served || !readable then .next s
  else if s.boot.request.isSome then .next (s.firmwareWrite (a + 4) (toBytes 4 3))
  else
    let boot := { s.boot with request := some a }
    .next { s with boot := boot }

/-- The attestation report (Table 1.9), signed with some randomness. -/
def Boot.report (b : Boot) (nonce random : List Byte) : List Byte :=
  let body := toBytes 4 0x4F4C4154 ++ toBytes 2 1 ++ toBytes 2 0 ++ nonce ++ toBytes 4 b.svn ++ toBytes 4 0 ++
    (b.measurement ++ List.replicate 32 0).take 32 ++ (b.hypervisor ++ List.replicate 32 0).take 32 ++
    (Config.fusedKeyHash ++ List.replicate 32 0).take 32 ++ identity.pk
  body ++ Crypto.sign identity (Crypto.sha3 body) ((random ++ List.replicate 32 0).take 32) ++ List.replicate 220 0

/-- Whether a request block is well formed (R30). A REPORT outside the device's memory counts as malformed (DESIGN CHOICE, log
entry 88: the rule does not list it). -/
def requestOk (b : List Byte) : Bool :=
  field b 0 4 == 1 && field b 0x30 16 == 0 && field b 0x28 8 % 4096 == 0 && physical (field b 0x28 8) 4096

/-- `ATTESTATION_REPORT` (R30). A request block that is poisoned by then counts as malformed (DESIGN CHOICE, log entry 88: the
rule does not speak of it). -/
def execAttestationReport (s : State) : Host.Outcome State Fault Refusal :=
  match s.boot.request with
  | none => .next s
  | some a =>
    let (s, bs) := s.homeRead a 64
    let b := bs.map (·.1)
    let boot := { s.boot with request := none }
    let s := { s with boot := boot }
    if bs.any (·.2) || !requestOk b then .next (s.firmwareWrite (a + 4) (toBytes 4 2))
    else
      let s := s.firmwareWrite (field b 0x28 8) (s.boot.report ((b.drop 8).take 32) (Config.signRandom s.ctr))
      .next (s.firmwareWrite (a + 4) (toBytes 4 1))

-- Monitors (R26)

/-- ADDR of a record that names a unit by class and number: the spec gives the codes of units no form. -/
def unitCode (cls n : Nat) : DWord := (Config.freeBits 0 (2 ^ 34 + cls) n).setWidth 64

/-- A record about a unit, posted to HFQ: the kind, the unit, and four bytes of DETAIL whose form the spec does not give. -/
def State.notifyUnit (s : State) (node kind cls n : Nat) : State :=
  (s.post node 0 (mkRecord kind 0 0 7 0 (whoOf (16 * 512 * node) 0) 0 (unitCode cls n)
    (if kind = 12 then toBytes 4 (Config.freeBits s.ctr (2 ^ 34 + cls) n).toNat else []))).1

/-- A cluster's registers changed. -/
def State.onCluster (s : State) (c : Nat) (f : Cluster → Cluster) : State :=
  { s with clusters := s.clusters.put c (f (s.cluster c)) }

/-- BEL raised to at least a code. -/
def Cluster.raise (c : Cluster) (code : BitVec 2) : Cluster := if c.bel.ult code then { c with bel := code } else c

/-- `TEMPERATURE_SAMPLE` (Table 1.6). A die's clock that has stopped at 110 °C stands until power-up reset (DESIGN CHOICE, log entry
88: the spec does not say when it starts again). -/
def execTemperatureSample (cluster : Nat) (celsius : Int) (s : State) : Host.Outcome State Fault Refusal :=
  if 4096 ≤ cluster then .fault .noSuchPart
  else
    let node := cluster / 32
    let s := s.onCluster cluster fun c => { c with celsius := celsius }
    let s := if 100 ≤ celsius then (s.onCluster cluster (·.raise 1)).notifyUnit node 12 0 cluster else s
    if 110 ≤ celsius then
      let die := s.dies.get {} node
      let s := { s with dies := s.dies.put node { die with stopped := true } }
      .next (s.notifyUnit node 11 0 cluster)
    else .next s

/-- The nodes of a power region (R15). -/
def regionNodes (region : Nat) : List Nat := (List.range 8).map (8 * region + ·)

/-- `LAYER_VOLTAGE_SAMPLE` (Table 1.6): a droop sets pass count 4 on every cluster of the region. -/
def execLayerVoltageSample (node pair : Nat) (upper : Bool) (millivolts : Nat) (s : State) :
    Host.Outcome State Fault Refusal :=
  if 128 ≤ node || 16 ≤ pair then .fault .noSuchPart
  else
    let die := s.dies.get {} node
    let read := die.millivolts.put (layerCluster pair upper) millivolts
    let s := { s with dies := s.dies.put node { die with millivolts := read } }
    if 600 ≤ millivolts then .next s
    else
      .next ((regionNodes (node / 8)).foldl (fun s n =>
        let die := s.dies.get {} n
        let s := { s with dies := s.dies.put n { die with droopAt := s.now } }
        (List.range 32).foldl (fun s c => s.onCluster (32 * n + c) (·.raise 2)) s) s)

/-- `MID_RAIL_SAMPLE` (Table 1.6). A shunt that has engaged lets go at the next sample within 40 mV (DESIGN CHOICE, log entry 88:
the spec says only when it engages). -/
def execMidRailSample (node pair : Nat) (offMillivolts : Nat) (s : State) : Host.Outcome State Fault Refusal :=
  if 128 ≤ node || 16 ≤ pair then .fault .noSuchPart
  else
    let die := s.dies.get {} node
    let bit : BitVec 16 := BitVec.ofNat 16 (2 ^ pair)
    let out := 40 < offMillivolts
    let shunts := if out then die.shunts ||| bit else die.shunts &&& ~~~bit
    let s := { s with dies := s.dies.put node { die with shunts := shunts, midRail := die.midRail.put pair offMillivolts } }
    .next (if out then s.notifyUnit node 12 1 (16 * node + pair) else s)

/-- `PROCESS_MONITOR_SAMPLE` (Table 1.6). -/
def execProcessMonitorSample (cluster count : Nat) (s : State) : Host.Outcome State Fault Refusal :=
  if 4096 ≤ cluster then .fault .noSuchPart else .next (s.onCluster cluster fun c => { c with ringCount := count })

/-- BEL one step lower, as far as the cluster's temperature lets it (Table 1.6). -/
def Cluster.restoreStep (c : Cluster) : Cluster :=
  let least : BitVec 2 := if 100 ≤ c.celsius then 1 else 0
  if least.ult c.bel then { c with bel := c.bel - 1 } else c

/-- `DROOP_RESTORE_STEP` (Table 1.6): 10 µs after the last droop or step. -/
def execDroopRestoreStep (region : Nat) (s : State) : Host.Outcome State Fault Refusal :=
  if 16 ≤ region then .fault .noSuchPart
  else if (regionNodes region).any fun n => s.now < (s.dies.get {} n).droopAt + 10000 then .next s
  else
    .next ((regionNodes region).foldl (fun s n =>
      let die := s.dies.get {} n
      let s := { s with dies := s.dies.put n { die with droopAt := s.now } }
      (List.range 32).foldl (fun s c =>
        if (s.cluster (32 * n + c)).bel = 0 then s else s.onCluster (32 * n + c) Cluster.restoreStep) s) s)

-- Self-test, scrubbing and single faults (R27 to R29)

/-- `SELF_TEST_SLOT` (R28): the cluster issues nothing. -/
def execSelfTestSlot (cluster : Nat) (s : State) : Host.Outcome State Fault Refusal :=
  if 4096 ≤ cluster then .fault .noSuchPart else .next (s.onCluster cluster fun c => { c with testing := true })

/-- `SELF_TEST_SLOT_END` (R28). -/
def execSelfTestSlotEnd (cluster : Nat) (pass : Bool) (s : State) : Host.Outcome State Fault Refusal :=
  if 4096 ≤ cluster then .fault .noSuchPart
  else if !(s.cluster cluster).testing then .next s
  else
    let s := s.onCluster cluster fun c => { c with testing := false, out := c.out || !pass }
    .next (if pass then s else s.notifyUnit (cluster / 32) 11 0 cluster)

/-- The protected word of a structure that an address lies in (Table 1.7): 8 bytes of an SRAM, two registers, a 32-byte sector of
HBM. -/
def faultWord : FaultUnit → Nat → Nat
  | .hbm, a | .elision, a => a / 32
  | .localStore, a | .l1, a | .rdc, a | .l2, a => a / 8
  | .register, a => a / 2
  | .line, a | .matrix, a | .tlb, a | .homeSram, a => a

/-- `SCRUB_PASS` (R29): a single error is corrected and counted. -/
def execScrubPass (unit : FaultUnit) (addr : Nat) (s : State) : Host.Outcome State Fault Refusal :=
  let w := (unit, faultWord unit addr)
  if s.latent.contains w then .next ({ s with latent := s.latent.erase w }.countCorrected (faultClass unit)) else .next s

/-- Both registers of a protected word poisoned; register 0 of x reads as zero. -/
def State.poisonRegisters (s : State) (addr : Nat) : State :=
  let put := fun (m : SMap Bool) (n : Nat) => (m.put (n / 2 * 2) true).put (n / 2 * 2 + 1) true
  if addr < 2 ^ 64 then
    s.onLane (addr / 256 / 32) (addr / 256 % 32) fun L => { L with xp := (put L.xp (addr % 256)).write false 0 false }
  else if addr < 2 ^ 65 then s.onGang (addr % 2 ^ 64 / 64) fun G => { G with kp := put G.kp (addr % 64) }
  else
    let n := addr % 2 ^ 65
    s.onSeq (n / 64) (n / 32 % 2 == 1) fun q => { q with rp := put q.rp (n % 32) }

/-- An uncorrectable word poisoned (R27, R225). -/
def State.poisonWord (s : State) (unit : FaultUnit) (addr : Nat) : State :=
  match unit with
  | .hbm =>
    let sec := addr / 32
    { s with hbmPoison := s.hbmPoison.put sec true, l2 := s.l2.adjust sec fun _ => true }
  | .elision =>
    (List.range 4).foldl (fun s i =>
      let sec := addr / 128 * 4 + i
      { s with hbmPoison := s.hbmPoison.put sec true, l2 := s.l2.adjust sec fun _ => true }) s
  | .localStore => s.onBlock (addr / 2 ^ 17) fun B => { B with lsPoison := B.lsPoison.put (addr % 2 ^ 17 / 32) true }
  | .register => s.poisonRegisters addr
  | .l1 =>
    let core := addr / 2 ^ 43
    let key := l1Key (addr % 2 ^ 43 / 32) (s.core core).secure
    s.setCore core { s.core core with l1 := (s.core core).l1.adjust key fun (x : L1Sector) => { x with poison := true } }
  | .rdc =>
    { s with rdc := s.rdc.adjust (rdcKey (addr / 2 ^ 43) (addr % 2 ^ 43 / 32)) fun (r : RdcSector) => { r with poison := true } }
  | .tlb =>
    let n := addr % 2 ^ 64 / 2 ^ 32
    let bad := fun (ts : List TlbEntry) => ts.mapIdx fun i t => if i = addr % 2 ^ 32 then { t with poison := true } else t
    if addr < 2 ^ 64 then { s with stlb := s.stlb.adjust n bad } else s.setCore n { s.core n with utlb := bad (s.core n).utlb }
  | .l2 => { s with l2 := s.l2.adjust (addr / 32) fun _ => true }
  | .homeSram => { s with homePoison := s.homePoison.put addr true }
  | .line | .matrix => s

/-- Whether a structure's part stands where a fault could strike it. -/
def State.strikes (s : State) (unit : FaultUnit) (addr : Nat) : Bool :=
  match unit with
  | .hbm | .elision => nodeOf addr < 128 && addr % 2 ^ 36 < nodeBytes
  | .localStore => (s.blocks.find? (addr / 2 ^ 17)).any fun B => addr % 2 ^ 17 < B.lsb
  | .register =>
    if addr < 2 ^ 64 then (s.gangs.find? (addr / 256 / 32)).any fun G => addr % 256 < G.alloc
    else if addr < 2 ^ 65 then (s.gangs.find? (addr % 2 ^ 64 / 64)).isSome
    else (s.blocks.find? (addr % 2 ^ 65 / 64)).isSome
  | .l1 =>
    let core := addr / 2 ^ 43
    ((s.core core).l1.find? (l1Key (addr % 2 ^ 43 / 32) (s.core core).secure)).isSome
  | .rdc => (s.rdc.find? (rdcKey (addr / 2 ^ 43) (addr % 2 ^ 43 / 32))).isSome
  | .tlb => if addr < 2 ^ 64 then addr / 2 ^ 32 < 128 else addr % 2 ^ 64 / 2 ^ 32 < 65536
  | .homeSram => addr / 2 ^ 32 < 128
  | .l2 => (s.l2.find? (addr / 32)).isSome
  | .line | .matrix => true

/-- One bit of a cached instruction line changed: the core, the line's tag and the bit. -/
def State.flipLine (s : State) (core tag bit : Nat) : State :=
  let flip := fun (l : Line) => if l.tag = tag then { l with data := l.data ^^^ BitVec.ofNat 512 (2 ^ bit) } else l
  s.setCore core { s.core core with icache := (s.core core).icache.map flip }

/-- The matrix engine of a core found an error of its residue check: an accumulator is poisoned (Table 1.7). -/
def State.residueError (s : State) (core : Nat) : State :=
  match List.find? (fun (b : Nat × Block) => b.2.core == core && b.2.claimsMatrix && b.2.mseq.run == .running) s.blocks with
  | none => s
  | some (b, _) =>
    let i := Config.freeNat s.ctr (2 ^ 32 + 9) % 4
    let s := s.onBlock b fun B => { B with acc := B.acc.put i { B.acc.get {} i with poison := true } }
    s.notifyUnit (coreNode core) 11 2 core

/-- `SINGLE_FAULT` (R27, Table 1.7): a first error of a word stays until it is corrected; a second makes the word
uncorrectable. -/
def execSingleFault (unit : FaultUnit) (addr : Nat) (s : State) : Host.Outcome State Fault Refusal :=
  match unit with
  | .line => .next (s.flipLine (addr / 512 / 2 ^ 43) (addr / 512 % 2 ^ 43) (addr % 512))
  | .matrix => .next (s.residueError addr)
  | .hbm | .localStore | .register | .l1 | .rdc | .elision | .tlb | .homeSram | .l2 =>
    let w := (unit, faultWord unit addr)
    if !s.strikes unit addr then .next s
    else if s.latent.contains w then .next ({ s with latent := s.latent.erase w }.poisonWord unit addr)
    else .next { s with latent := s.latent ++ [w] }

-- The host (R19, R24, R25, R281)

/-- Functions (R19): 0 and 1 are the PFs of the two ports, k + 1 is virtual function k. The VMID under which one runs. -/
def functionVmid (f : Nat) : Nat := f - 1

/-- TotalVFs of a port's PF: firmware splits the 63. -/
def totalVfs (port : Nat) : Nat := if port = 0 then Nat.min 63 Config.vfsOfPort0 else 63 - Nat.min 63 Config.vfsOfPort0

/-- The port at which a function is presented; port 0's virtual functions come first. -/
def functionPort (f : Nat) : Nat := if f < 2 then f else if f - 1 ≤ totalVfs 0 then 0 else 1

/-- The MSI-X vectors of a function (Table 1.3). -/
def functionVectors (f : Nat) : Nat := if f < 2 then 2048 else 32

/-- A host's address translated by its VMID's host stage; none where it faults or falls on a secure page. -/
def State.hostPlace (s : State) (vmid addr : Nat) (write : Bool) : State × Option (Nat × Bool) :=
  match hostWalk vmid addr s with
  | (s, .error _) => (s, none)
  | (s, .ok l) =>
    if l.e.getLsbD 9 || l.e.getLsbD 6 || !l.e.getLsbD (if write then 3 else 2) then (s, none)
    else (s, some (l.addr addr, l.e.getLsbD 7))

/-- The places of a host access, byte by byte; none where one of them cannot be reached. -/
def State.hostPlaces (s : State) (vmid : Nat) (write : Bool) : List Nat → State × Option (List (Nat × Bool))
  | [] => (s, some [])
  | a :: as =>
    match s.hostPlace vmid a write with
    | (s, none) => (s, none)
    | (s, some p) =>
      match s.hostPlaces vmid write as with
      | (s, none) => (s, none)
      | (s, some ps) => (s, some (p :: ps))

/-- Whether a host's address falls on a secure page (R25). -/
def State.hostSecure (s : State) (vmid addr : Nat) : Bool :=
  match (hostWalk vmid addr s).2 with
  | .ok l => l.e.getLsbD 6
  | .error _ => false

/-- A host access that was not performed: the first address of it that falls on a secure page is logged (R25). -/
def State.hostAborted (s : State) (vmid : Nat) (places : List Nat) : State :=
  match places.find? (s.hostSecure vmid) with
  | some a => { s with abortLog := s.abortLog ++ [(vmid, a)] }
  | none => s

/-- `HOST_MEMORY_ACCESS` (R281): at the lines' home, or in the staging window (R20). No function runs under a VMID above 63. -/
def execHostMemoryAccess (staging : Bool) (vmid addr len : Nat) (write : Option (List Byte)) (s : State) :
    Host.Outcome State Fault Refusal :=
  let n := (write.map List.length).getD len
  if 64 ≤ vmid then .fault .noSuchPart
  else if staging then
    match write with
    | none => .next s
    | some bs =>
      if 2 ^ 28 < addr + n then .next s
      else
        let put := fun (m : List Host.Cell) (x : Nat × Byte) => SMap.write emptyByte m (addr + x.1) x.2
        let boot := { s.boot with staging := (bs.mapIdx fun i b => (i, b)).foldl put s.boot.staging }
        .next { s with boot := boot }
  else
    let places := (List.range n).map (addr + ·)
    match s.hostPlaces vmid write.isSome places with
    | (_, none) => .next (s.hostAborted vmid places)
    | (s, some ps) =>
      match write with
      | none => .next (s.readPlaces ps).1
      | some bs => .next (s.writePlaces (ps.zip (clean bs)))

-- Register maps (R3, R4)

/-- What a mapped register reads as: its fields, and Reserved bits as zero; BOOT_GO, which is WO, reads as zero (R3, R4). -/
def State.registerRead (s : State) : MapReg → Word
  | .bootStatus => s.boot.status
  | .bootGo => 0
  | .passcnt c => s.passcnt c
  | .pwrset core => (s.core core).pwrset.word
  | .fflags k l => (s.lane k l).fflags.setWidth 32
  | .mflags b => ((s.blocks.find? b).map fun B => B.mseq.mflags.setWidth 32).getD 0
  | .stepLimit region => BitVec.ofNat 32 (s.limits.get 0 region)

/-- A reading of the monitors (R26). -/
inductive Reading where
  | temperature (cluster : Nat)
  | process (cluster : Nat)
  | layer (node pair : Nat) (upper : Bool)
  | midRail (node pair : Nat)
  deriving DecidableEq, Repr

/-- What the management port reads of a monitor: degrees Celsius, a count, millivolts, and millivolts from half the rail (R26). It
reads BOOT_STATUS too (`Boot.status`), and the identity (`Boot.identityRead`). -/
def State.managementRead (s : State) : Reading → Int
  | .temperature c => (s.cluster c).celsius
  | .process c => (s.cluster c).ringCount
  | .layer n pair upper => ((s.dies.get {} n).millivolts.get 0 (layerCluster pair upper) : Nat)
  | .midRail n pair => ((s.dies.get {} n).midRail.get 0 pair : Nat)

/-- `REGISTER_WRITE` (R3): fields that are RW are set, those marked RO or HW are not. -/
def execRegisterWrite (r : MapReg) (v : Word) (s : State) : Host.Outcome State Fault Refusal :=
  match r with
  | .bootStatus => .next s
  | .bootGo => execBootGo (v.setWidth 64) s
  | .passcnt c => .next (s.onCluster c fun c => { c with hmin := min2 (v.extractLsb' 8 2) })
  | .pwrset core => .next (s.setCore core { s.core core with pwrset := .ofWord v })
  | .fflags k l => .next (s.onLane k l fun L => { L with fflags := v.setWidth 7 })
  | .mflags b => .next (s.onSeq b true fun q => { q with mflags := v.setWidth 7 })
  | .stepLimit region =>
    .next (if region < 16 && 1 ≤ v.toNat && v.toNat ≤ 125 then { s with limits := s.limits.put region v.toNat } else s)

end Sys2Proof.Machine
end

