-- ==== Sys2Proof/Machine/Slots.lean ====
section
/-! DEFINITION. Format slots (R46, R47) and the conversions through them (R57 to R63): decoding, narrowing and widening with
a scale, and ternary packing. -/

namespace Sys2Proof.Machine

/-- What a format slot's FMT names (Table 2.9). -/
inductive SlotKind where
  | empty
  | int (width : Nat)
  | float (f : Num.Fmt)
  | ternary
  deriving DecidableEq, Repr

/-- A format slot (Table 2.9). -/
structure Slot where
  index : Nat
  kind : SlotKind
  signed : Bool
  sat : Bool
  trapInv : Bool
  rm : Rm
  /-- SCALE, an FP32 code. -/
  scale : Word
  /-- FMT and PREC as they stand. -/
  fmt : Nat
  prec : Nat
  deriving DecidableEq, Repr

/-- The rounding mode of a ROUND field. -/
def rmOf : Nat → Rm
  | 0 => .rne
  | 1 => .rtz
  | 2 => .rup
  | _ => .rdn

/-- A slot read from its 16 bytes; a reserved FMT, which no accepted launch has, counts as empty. -/
def Slot.ofBytes (n : Nat) (bs : List Byte) : Slot :=
  let fmt := field bs 0 1
  let prec := field bs 1 1
  let fl := bs.getD 2 0
  let kind := match fmt with
    | 0x01 => SlotKind.int 8
    | 0x02 => .int 16
    | 0x03 => .int 32
    | 0x04 => .int 64
    | 0x08 => .float Num.fp32
    | 0x09 => .float Num.bf16
    | 0x0A => .float Num.fp16
    | 0x10 => .float (Num.binary8 prec (fl.getLsbD 0) (fl.getLsbD 1))
    | 0x18 => .ternary
    | _ => .empty
  { index := n, kind := kind, signed := fl.getLsbD 0, sat := fl.getLsbD 2, trapInv := fl.getLsbD 3,
    rm := rmOf (fl.toNat / 16 % 4), scale := BitVec.ofNat 32 (field bs 4 4), fmt := fmt, prec := prec }

/-- Slot `n` of a block's launch record (R183). -/
def State.slot (s : State) (B : Block) (n : Nat) : Slot :=
  match s.launches.find? B.tag with
  | some L => .ofBytes n ((L.lrec.drop (0x80 + 16 * n)).take 16)
  | none => .ofBytes n []

/-- SCALE as an exact value. -/
def Slot.scaleVal (sl : Slot) : Num.Val := Num.decodeCode Num.fp32 sl.scale.toNat

/-- An exact value times 2^e. -/
def scale2 (v : Num.Val) (e : Int) : Num.Val :=
  match v with
  | .fin s n d => if 0 ≤ e then .fin s (n * 2 ^ e.toNat) d else .fin s n (d * 2 ^ (-e).toNat)
  | .inf s => .inf s
  | .nan q => .nan q

/-- An exact value times SCALE and 2^e: a NaN keeps its kind. -/
def Slot.up (sl : Slot) (v : Num.Val) (e : Int) : Num.Val :=
  match v, sl.scaleVal with
  | .fin x n d, .fin y m q => scale2 (.fin (x != y) (n * m) (d * q)) e
  | .inf x, y => .inf (x != y.neg)
  | v, _ => v

/-- An exact value divided by SCALE and 2^e. -/
def Slot.down (sl : Slot) (v : Num.Val) (e : Int) : Num.Val :=
  match v, sl.scaleVal with
  | .fin x n d, .fin y m q => scale2 (.fin (x != y) (n * q) (d * m)) (-e)
  | .inf x, y => .inf (x != y.neg)
  | v, _ => v

/-- A value to be converted: an integer, or a floating value. -/
inductive Source where
  | int (v : Int)
  | float (v : Num.Val)
  deriving DecidableEq, Repr

/-- The exact value of a source. -/
def Source.val : Source → Num.Val
  | .int v => Num.ofInt v
  | .float v => v

/-- Narrow (R60 to R63): the code of a value in a slot's format, and the flags raised. -/
def Slot.narrow (sl : Slot) (v : Source) (e : Int) : Nat × BitVec 7 :=
  match sl.kind with
  | .empty => (0, 0)
  | .int w =>
    let r := match v with
      | .int i => Num.toIntInt sl.signed w sl.sat i
      | .float f => Num.toIntFloat sl.signed w sl.rm sl.sat f
    (pat r.1 w, r.2)
  | .float f => Num.round f sl.rm sl.sat (sl.down v.val e)
  | .ternary => Num.toTrit (sl.down v.val e)

/-- The value of a trit code; code 3 does not occur. -/
def tritVal : Nat → Int
  | 1 => 1
  | 2 => -1
  | _ => 0

/-- Widen (R57 to R61) to FP32: an element's value times SCALE and 2^e, rounded under ROUND and SAT. -/
def Slot.widen (sl : Slot) (c : Nat) (e : Int) : Nat × BitVec 7 :=
  match sl.kind with
  | .float f => Num.round Num.fp32 sl.rm sl.sat (sl.up (Num.decodeCode f c) e)
  | .ternary => Num.round Num.fp32 sl.rm sl.sat (sl.up (Num.ofInt (tritVal c)) e)
  | .int _ | .empty => (0, 0)

/-- The trit codes of a ternary byte, and whether the byte is reserved (R57, R59). -/
def trits (b : Nat) : List Nat × Bool :=
  if 242 < b then ([0, 0, 0, 0, 0], true) else ([b % 3, b / 3 % 3, b / 9 % 3, b / 27 % 3, b / 81 % 3], false)

/-- The ternary byte of trit codes (R57). -/
def tritByte : List Nat → Nat
  | [] => 0
  | t :: ts => t + 3 * tritByte ts

/-- Elements of a packed register in a slot's format (Table 9.7); 0 where no run may use it. -/
def Slot.perReg (sl : Slot) : Nat :=
  match sl.kind with
  | .empty => 0
  | .int w => if w = 64 then 0 else 32 / w
  | .float f => 32 / f.width
  | .ternary => 5

/-- Width of one element in a packed register, ternary apart. -/
def Slot.elemBits (sl : Slot) : Nat := if sl.perReg = 0 then 32 else 32 / sl.perReg

/-- STVAL of cause 0x0F (R64): the slot's index and one of bits 8 to 10. -/
def Slot.stval (sl : Slot) (bit : Nat) : DWord := BitVec.ofNat 64 (sl.index + 2 ^ bit)

/-- The codes of a packed register, and whether a reserved ternary byte was read (Table 9.7). -/
def Slot.unpack (sl : Slot) (w : Word) : List Nat × Bool :=
  match sl.kind with
  | .ternary => trits (w.toNat % 256)
  | .empty | .int _ | .float _ =>
    ((List.range sl.perReg).map fun i => w.toNat / 2 ^ (sl.elemBits * i) % 2 ^ sl.elemBits, false)

/-- The packed register of codes (Table 9.7). -/
def Slot.pack (sl : Slot) (cs : List Nat) : Word :=
  match sl.kind with
  | .ternary => BitVec.ofNat 32 (tritByte cs)
  | .empty | .int _ | .float _ =>
    BitVec.ofNat 32 ((cs.mapIdx fun i c => c % 2 ^ sl.elemBits * 2 ^ (sl.elemBits * i)).foldl (· + ·) 0)

end Sys2Proof.Machine
end

