-- ==== Sys2Proof/Machine/Convert.lean ====
section
/-! DEFINITION. Conversions (R183 to R187): between the types, and of runs of registers through a format slot. -/

namespace Sys2Proof.Machine

/-- The value that `CVT` converts (R184), with its bits and poison. -/
def cvtSource (v : View) (t : Ty) (a : Reg) : Source × Word × Bool :=
  if t.isInt then (.int (v.val t a).1, (v.reg a).1, (v.val t a).2)
  else (.float (dec t ((v.reg a).1.toNat % 2 ^ t.width)), (v.reg a).1, (v.reg a).2)

/-- The register writes and flags of a value converted to a type that is not packed (R184). -/
def cvtTo (t : Ty) (d : Reg) (rm : Rm) (sat : Bool) (x : Source) : List (Reg × Word) × BitVec 7 :=
  if t.isInt then
    let r := match x with
      | .int i => Num.toIntInt t.signed t.width sat i
      | .float f => Num.toIntFloat t.signed t.width rm sat f
    (putTy t d r.1, r.2)
  else
    let r := Num.round (Num.ofTy t) rm sat x.val
    ([(d, BitVec.ofNat 32 r.1)], r.2)

/-- `CVT` of one value. -/
def convert (dty sty : Ty) (rm : Rm) (sat : Bool) (d a : Reg) : Env → View → Out := fun e v =>
  let x := cvtSource v sty a
  let r := cvtTo dty d rm sat x.1
  .results e v x.2.2 x.2.1 r.1 r.2

/-- `CVT`, direct form (R184). -/
def execCvt (g : Guard) (dty sty : Ty) (rm : Rm) (sat : Bool) (d a : Reg) (s : State) :
    Host.Outcome State Fault Refusal :=
  threadOp (.cvt g dty sty rm sat d a) s (aluThread (convert dty sty rm sat d a))

/-- `CVT` of two FP32 values to a packed pair (R184). -/
def execCvtPacked (g : Guard) (dty : Ty) (rm : Rm) (sat : Bool) (d a : Reg) (b : Src) (s : State) :
    Host.Outcome State Fault Refusal :=
  threadOp (.cvtPacked g dty rm sat d a b) s (aluThread fun e v =>
    let x := v.reg a
    let y := v.wordS b
    let f := fun (w : Word) => Num.round (Num.ofTy dty) rm sat (Num.decodeCode Num.fp32 w.toNat)
    .results e v (x.2 || y.2) (if x.2 then x.1 else y.1) [(d, ofElems [(f x.1).1, (f y.1).1])]
      ((f x.1).2 ||| (f y.1).2))

/-- An instruction of a group that reads a format slot of its block's launch record (R183). -/
def slotThread (n : BitVec 3) (f : Slot → Gang → Env → View → Out) : ThreadBody := fun s k m =>
  match s.blockOf k with
  | none => s
  | some B => groupThread (fun G _ e l => f (s.slot B n.toNat) G e (G.view l)) s k m

/-- A result that traps with cause 0x0F when TRAPINV is set and a condition holds; its flags are raised all the same
(R64). -/
def Out.trapIf (o : Out) (sl : Slot) (cond : Bool) (bit : Nat) : Out :=
  if sl.trapInv && cond then { flags := o.flags, trap := some (0x0F, sl.stval bit) } else o

/-- Whether NV is among the flags. -/
def raisesNv (f : BitVec 7) : Bool := f &&& Num.nv != 0

/-- `CVT`, slot form (R184): rounding mode, SAT and TRAPINV come from the slot. -/
def execCvtSlot (g : Guard) (dty sty : Ty) (slot : BitVec 3) (d a : Reg) (s : State) :
    Host.Outcome State Fault Refusal :=
  threadOp (.cvtSlot g dty sty slot d a) s (slotThread slot fun sl _ e v =>
    if sl.kind = .empty then { trap := some (0x0F, sl.stval 10) }
    else
      let o := convert dty sty sl.rm sl.sat d a e v
      o.trapIf sl (raisesNv o.flags) 9)

/-- The checks of R185 on a run that begins at `first`, in their order: the trap, if one is taken. `ok` says whether the
slot takes the instruction's type. -/
def runCheck (sl : Slot) (ok : Bool) (first alloc : Nat) : Option (BitVec 8 × DWord) :=
  if sl.perReg = 0 || !ok then some (0x0F, sl.stval 10)
  else if 255 < first + sl.perReg - 1 then some (0x01, 0)
  else if first != 0 && alloc < first + sl.perReg then some (0x12, BitVec.ofNat 64 (Nat.max first alloc))
  else none

/-- The exponent of a run (R185). -/
def runExp (w : Word) : Int := sext 8 w.toNat

/-- `CVTN` (R186). -/
def execCvtn (g : Guard) (ty : Ty) (slot : BitVec 3) (d : Reg) (a : BitVec 8) (c : Reg) (s : State) :
    Host.Outcome State Fault Refusal :=
  threadOp (.cvtn g ty slot d a c) s (slotThread slot fun sl G e v =>
    match runCheck sl true a.toNat G.alloc with
    | some t => { trap := some t }
    | none =>
      let x := v.reg c
      let src := (List.range sl.perReg).map fun i => v.reg ⟨false, a + BitVec.ofNat 8 i⟩
      let val := fun (w : Word) => if ty = .i32 then Source.int w.toInt else .float (Num.decodeCode Num.fp32 w.toNat)
      let rs := src.map fun w => sl.narrow (val w.1) (runExp x.1)
      let o := Out.results e v (x.2 || src.any (·.2)) (src.headD (0, false)).1 [(d, sl.pack (rs.map (·.1)))]
        (rs.foldl (fun f r => f ||| r.2) 0)
      o.trapIf sl (raisesNv o.flags) 9)

/-- Whether `CVTW` gives a slot's elements as the type (R187). -/
def Slot.widensTo (sl : Slot) (ty : Ty) : Bool :=
  match sl.kind with
  | .empty => false
  | .int _ => ty == .i32
  | .float _ => ty == .f32
  | .ternary => true

/-- One element that `CVTW` writes, with its flags (R187). -/
def Slot.wideElem (sl : Slot) (ty : Ty) (e : Int) (c : Nat) : Word × BitVec 7 :=
  if ty = .f32 then (BitVec.ofNat 32 (sl.widen c e).1, (sl.widen c e).2)
  else
    match sl.kind with
    | .int w => (BitVec.ofInt 32 (if sl.signed then sext w c else (c : Int)), 0)
    | .empty | .float _ | .ternary => (BitVec.ofInt 32 (tritVal c), 0)

/-- `CVTW` (R187). -/
def execCvtw (g : Guard) (ty : Ty) (slot : BitVec 3) (d : BitVec 8) (a c : Reg) (s : State) :
    Host.Outcome State Fault Refusal :=
  threadOp (.cvtw g ty slot d a c) s (slotThread slot fun sl G e v =>
    match runCheck sl (sl.widensTo ty) d.toNat G.alloc with
    | some t => { trap := some t }
    | none =>
      let x := v.reg c
      let y := v.reg a
      let (cs, reserved) := sl.unpack y.1
      let ws := cs.map fun k => sl.wideElem ty (runExp x.1) k
      let o := Out.results e v (x.2 || y.2) y.1 (ws.mapIdx fun i w => (⟨false, d + BitVec.ofNat 8 i⟩, w.1))
        ((ws.foldl (fun f w => f ||| w.2) 0) ||| if reserved then Num.tr else 0)
      (o.trapIf sl (reserved && !(x.2 || y.2)) 8).trapIf sl (raisesNv o.flags) 9)

end Sys2Proof.Machine
end

