-- ==== Sys2Proof/Machine/Integer.lean ====
section
/-! DEFINITION. Integer and address instructions (R164 to R174): each computes from its operands' values exactly and
writes the result by `Put`. -/

namespace Sys2Proof.Machine

/-- The word that stands for the poisoned source among two operands. -/
def poisonSrc (v : View) (t : Ty) (a : Reg) (b : Src) : Word :=
  BitVec.ofNat 32 (if (v.raw t a).2 then (v.raw t a).1 else (v.rawS t b).1)

/-- An instruction of two operands of type `t` (Table 9.2). -/
def int2 (t : Ty) (d a : Reg) (b : Src) (f : Int → Int → Int) : Env → View → Out := fun e v =>
  let x := v.val t a
  let y := v.valS t b
  .results e v (x.2 || y.2) (poisonSrc v t a b) (putTy t d (f x.1 y.1))

/-- A result that wraps, or is clamped to the type first (R165). -/
def satTo (t : Ty) (sat : Bool) (v : Int) : Int := if sat then Num.clamp t.signed t.width v else v

/-- A bitwise operation on the patterns of two operands. -/
def bitwise (t : Ty) (d a : Reg) (b : Src) (f : Nat → Nat → Nat) : Env → View → Out :=
  int2 t d a b fun x y => (f (pat x t.width) (pat y t.width) : Nat)

/-- An instruction of an operand of type `t` and a 32-bit control operand. -/
def ctl2 (t : Ty) (d a : Reg) (b : Src) (f : Int → Nat → Int) : Env → View → Out := fun e v =>
  let x := v.val t a
  let y := v.wordS b
  .results e v (x.2 || y.2) (if x.2 then BitVec.ofNat 32 (v.raw t a).1 else y.1) (putTy t d (f x.1 y.1.toNat))

/-- A pattern of `w` bits rotated left by `n` (R170). -/
def rotl (w p n : Nat) : Nat := (p * 2 ^ (n % w) + p * 2 ^ (n % w) / 2 ^ w) % 2 ^ w

/-- The relations of `CMP`. -/
def relHolds : Rel → Int → Int → Bool
  | .eq, a, b => a == b
  | .ne, a, b => a != b
  | .lt, a, b => a < b
  | .le, a, b => a ≤ b
  | .gt, a, b => b < a
  | .ge, a, b => b ≤ a

/-- The number of bits of a field of control operand `b` within width `w` (R173). -/
def fieldLen (w b : Nat) : Nat := Nat.min (b / 256 % 256) (w - b % 256)

/-- `BFE` (R173). -/
def extract (t : Ty) (a : Int) (b : Nat) : Int :=
  let n := fieldLen t.width b
  if n = 0 then 0
  else
    let f := pat a t.width / 2 ^ (b % 256) % 2 ^ n
    if t.signed then sext n f else f

/-- `BFI` (R173): the low bits of `a` put into `c`. -/
def insert (t : Ty) (a c : Int) (b : Nat) : Int :=
  let n := fieldLen t.width b
  let pos := b % 256
  let p := pat c t.width
  if n = 0 then p
  else (p - p / 2 ^ pos % 2 ^ n * 2 ^ pos + pat a t.width % 2 ^ n * 2 ^ pos : Nat)

/-- Ones of a pattern. -/
def popcount : Nat → Nat → Nat
  | 0, _ => 0
  | w + 1, p => p % 2 + popcount w (p / 2)

/-- The bits of a pattern of `w` bits in the other order. -/
def reverse : Nat → Nat → Nat
  | 0, _ => 0
  | w + 1, p => p % 2 * 2 ^ w + reverse w (p / 2)

/-- Zeros above the highest one of a pattern of `w` bits. -/
def leadingZeros (w p : Nat) : Nat := if p = 0 then w else w - 1 - Nat.log2 p

/-- Zeros below the lowest one of a pattern. -/
def trailingZeros : Nat → Nat → Nat
  | 0, _ => 0
  | w + 1, p => if p % 2 = 1 then 0 else 1 + trailingZeros w (p / 2)

/-- A count of `BITC`, written as `.n32` to one register (R172). -/
def countBits (t : Ty) (d a : Reg) (f : Nat → Nat → Nat) : Env → View → Out := fun e v =>
  let x := v.val t a
  .results e v x.2 (BitVec.ofNat 32 (v.raw t a).1) (putTy .n32 d (f t.width (pat x.1 t.width) : Nat))

/-- The 64-bit type of a 32-bit one (R170). -/
def widened (t : Ty) : Ty := if t.signed then .i64 else .n64

/-- `MOV` (Table 9.2). -/
def execMov (g : Guard) (ty : Ty) (d : Reg) (b : Src) (s : State) : Host.Outcome State Fault Refusal :=
  alu (.mov g ty d b) s fun e v =>
    let x := v.valS ty b
    .results e v x.2 (BitVec.ofNat 32 (v.rawS ty b).1) (putTy ty d x.1)

/-- `ADD` (Table 9.2). -/
def execAdd (g : Guard) (ty : Ty) (sat : Bool) (d a : Reg) (b : Src) (s : State) : Host.Outcome State Fault Refusal :=
  alu (.add g ty sat d a b) s (int2 ty d a b fun x y => satTo ty sat (x + y))

/-- `SUB` (Table 9.2). -/
def execSub (g : Guard) (ty : Ty) (sat : Bool) (d a : Reg) (b : Src) (s : State) : Host.Outcome State Fault Refusal :=
  alu (.sub g ty sat d a b) s (int2 ty d a b fun x y => satTo ty sat (x - y))

/-- `MUL` (Table 9.2). -/
def execMul (g : Guard) (ty : Ty) (sat : Bool) (d a : Reg) (b : Src) (s : State) : Host.Outcome State Fault Refusal :=
  alu (.mul g ty sat d a b) s (int2 ty d a b fun x y => satTo ty sat (x * y))

/-- `MAD` (Table 9.2). -/
def execMad (g : Guard) (ty : Ty) (d a : Reg) (b : Src) (c : Reg) (s : State) : Host.Outcome State Fault Refusal :=
  alu (.mad g ty d a b c) s fun e v =>
    let x := v.val ty a
    let y := v.valS ty b
    let z := v.val ty c
    let src := if x.2 || y.2 then poisonSrc v ty a b else BitVec.ofNat 32 (v.raw ty c).1
    .results e v (x.2 || y.2 || z.2) src (putTy ty d (x.1 * y.1 + z.1))

/-- `MAD.wide` (Table 9.2). -/
def execMadWide (g : Guard) (ty : Ty) (d a : Reg) (b : Src) (c : Reg) (s : State) : Host.Outcome State Fault Refusal :=
  alu (.madWide g ty d a b c) s fun e v =>
    let x := v.val ty a
    let y := v.valS ty b
    let z := v.val (widened ty) c
    let src := if x.2 || y.2 then poisonSrc v ty a b else (v.pair c).1.setWidth 32
    .results e v (x.2 || y.2 || z.2) src (putTy (widened ty) d (x.1 * y.1 + z.1))

/-- `MULHI` (Table 9.2). -/
def execMulhi (g : Guard) (ty : Ty) (d a : Reg) (b : Src) (s : State) : Host.Outcome State Fault Refusal :=
  alu (.mulhi g ty d a b) s (int2 ty d a b fun x y => x * y / 2 ^ ty.width)

/-- `DIV` (R171). -/
def execDiv (g : Guard) (ty : Ty) (d a : Reg) (b : Src) (s : State) : Host.Outcome State Fault Refusal :=
  alu (.div g ty d a b) s (int2 ty d a b fun x y => if y = 0 then -1 else x.tdiv y)

/-- `REM` (R171). -/
def execRem (g : Guard) (ty : Ty) (d a : Reg) (b : Src) (s : State) : Host.Outcome State Fault Refusal :=
  alu (.rem g ty d a b) s (int2 ty d a b fun x y => if y = 0 then x else x.tmod y)

/-- `AND` (Table 9.2). -/
def execAnd (g : Guard) (ty : Ty) (d a : Reg) (b : Src) (s : State) : Host.Outcome State Fault Refusal :=
  alu (.and g ty d a b) s (bitwise ty d a b fun x y => x &&& y)

/-- `OR` (Table 9.2). -/
def execOr (g : Guard) (ty : Ty) (d a : Reg) (b : Src) (s : State) : Host.Outcome State Fault Refusal :=
  alu (.or g ty d a b) s (bitwise ty d a b fun x y => x ||| y)

/-- `XOR` (Table 9.2). -/
def execXor (g : Guard) (ty : Ty) (d a : Reg) (b : Src) (s : State) : Host.Outcome State Fault Refusal :=
  alu (.xor g ty d a b) s (bitwise ty d a b fun x y => x ^^^ y)

/-- `SHF.shl` (Table 9.2). -/
def execShfShl (g : Guard) (ty : Ty) (d a : Reg) (b : Src) (s : State) : Host.Outcome State Fault Refusal :=
  alu (.shfShl g ty d a b) s (ctl2 ty d a b fun x y => x * 2 ^ (y % 256))

/-- `SHF.shr` (Table 9.2): arithmetic for the `.i` types, whose values are signed. -/
def execShfShr (g : Guard) (ty : Ty) (d a : Reg) (b : Src) (s : State) : Host.Outcome State Fault Refusal :=
  alu (.shfShr g ty d a b) s (ctl2 ty d a b fun x y => x / 2 ^ (y % 256))

/-- `SHF.rotl` (Table 9.2). -/
def execShfRotl (g : Guard) (ty : Ty) (d a : Reg) (b : Src) (s : State) : Host.Outcome State Fault Refusal :=
  alu (.shfRotl g ty d a b) s (ctl2 ty d a b fun x y => (rotl ty.width (pat x ty.width) (y % 256) : Nat))

/-- `SHF.rotr` (Table 9.2). -/
def execShfRotr (g : Guard) (ty : Ty) (d a : Reg) (b : Src) (s : State) : Host.Outcome State Fault Refusal :=
  alu (.shfRotr g ty d a b) s (ctl2 ty d a b fun x y =>
    (rotl ty.width (pat x ty.width) (ty.width - y % 256 % ty.width) : Nat))

/-- `CMP` (Table 9.2). -/
def execCmp (g : Guard) (rel : Rel) (ty : Ty) (d : BitVec 3) (a : Reg) (b : Src) (s : State) : Host.Outcome State Fault Refusal :=
  alu (.cmp g rel ty d a b) s fun e v =>
    let x := v.val ty a
    let y := v.valS ty b
    .predicate e (x.2 || y.2) d (relHolds rel x.1 y.1)

/-- `SEL` (Table 9.2). -/
def execSel (g : Guard) (ty : Ty) (d a : Reg) (b : Src) (c : BitVec 3) (s : State) : Host.Outcome State Fault Refusal :=
  alu (.sel g ty d a b c) s fun e v =>
    let x := v.val ty a
    let y := v.valS ty b
    let p := v.pred c
    .results e v (x.2 || y.2 || p.2) (poisonSrc v ty a b) (putTy ty d (if p.1 then x.1 else y.1))

/-- `MIN` (Table 9.2). -/
def execMin (g : Guard) (ty : Ty) (d a : Reg) (b : Src) (s : State) : Host.Outcome State Fault Refusal :=
  alu (.min g ty d a b) s (int2 ty d a b fun x y => if x ≤ y then x else y)

/-- `MAX` (Table 9.2). -/
def execMax (g : Guard) (ty : Ty) (d a : Reg) (b : Src) (s : State) : Host.Outcome State Fault Refusal :=
  alu (.max g ty d a b) s (int2 ty d a b fun x y => if x ≤ y then y else x)

/-- `ABS` (Table 9.2). -/
def execAbs (g : Guard) (ty : Ty) (sat : Bool) (d a : Reg) (s : State) : Host.Outcome State Fault Refusal :=
  alu (.abs g ty sat d a) s fun e v =>
    let x := v.val ty a
    .results e v x.2 (BitVec.ofNat 32 (v.raw ty a).1) (putTy ty d (satTo ty sat x.1.natAbs))

/-- `BITC.popc` (R172). -/
def execBitcPopc (g : Guard) (ty : Ty) (d a : Reg) (s : State) : Host.Outcome State Fault Refusal :=
  alu (.bitcPopc g ty d a) s (countBits ty d a popcount)

/-- `BITC.clz` (R172). -/
def execBitcClz (g : Guard) (ty : Ty) (d a : Reg) (s : State) : Host.Outcome State Fault Refusal :=
  alu (.bitcClz g ty d a) s (countBits ty d a leadingZeros)

/-- `BITC.ctz` (R172). -/
def execBitcCtz (g : Guard) (ty : Ty) (d a : Reg) (s : State) : Host.Outcome State Fault Refusal :=
  alu (.bitcCtz g ty d a) s (countBits ty d a trailingZeros)

/-- `BITC.brev` (R172). -/
def execBitcBrev (g : Guard) (ty : Ty) (d a : Reg) (s : State) : Host.Outcome State Fault Refusal :=
  alu (.bitcBrev g ty d a) s fun e v =>
    let x := v.val ty a
    .results e v x.2 (BitVec.ofNat 32 (v.raw ty a).1)
      (putTy ty d (reverse ty.width (pat x.1 ty.width) : Nat))

/-- `BFE` (R173). -/
def execBfe (g : Guard) (ty : Ty) (d a : Reg) (b : Src) (s : State) : Host.Outcome State Fault Refusal :=
  alu (.bfe g ty d a b) s (ctl2 ty d a b (extract ty))

/-- `BFI` (R173). -/
def execBfi (g : Guard) (ty : Ty) (d a : Reg) (b : Src) (c : Reg) (s : State) : Host.Outcome State Fault Refusal :=
  alu (.bfi g ty d a b c) s fun e v =>
    let x := v.val ty a
    let y := v.wordS b
    let z := v.val ty c
    let src := if x.2 then BitVec.ofNat 32 (v.raw ty a).1 else if y.2 then y.1 else BitVec.ofNat 32 (v.raw ty c).1
    .results e v (x.2 || y.2 || z.2) src (putTy ty d (insert ty x.1 z.1 y.1.toNat))

/-- `LEA` (R174). -/
def execLea (g : Guard) (ty : Ty) (d a : Reg) (b : Src) (sh : BitVec 4) (s : State) : Host.Outcome State Fault Refusal :=
  alu (.lea g ty d a b sh) s fun e v =>
    let x := v.pair a
    let y := v.valS ty b
    let src := if x.2 then x.1.setWidth 32 else BitVec.ofNat 32 (v.rawS ty b).1
    .results e v (x.2 || y.2) src (putTy .n64 d ((x.1.toNat : Int) + y.1 * 2 ^ sh.toNat))

end Sys2Proof.Machine
end

