-- ==== Sys2Proof/Machine/Matrix.lean ====
section
/-! DEFINITION. The matrix engine (R199 to R210, R66 to R68): latch loads, accumulation in k-groups, and drains. -/

namespace Sys2Proof.Machine

-- Operands in local store (R199)

/-- A stop of a sequencer instruction: cause and SEQTVAL. -/
abbrev Stop := BitVec 8 × Word

/-- `SV` of R199: a register used as an offset, a pitch or a record address. -/
def Seq.sv (q : Seq) (n : BitVec 8) : Except Stop Word :=
  match q.view.reg ⟨false, n⟩ with
  | (_, true) => .error (0x07, 0)
  | (w, false) => .ok w

/-- A base offset in 32 bits, and whether adding the immediate wrapped below 0 (R199, R202). -/
def baseOf (a off : Word) : Nat × Bool := ((a + off).toNat, (a.toNat : Int) + off.toInt < 0)

/-- `Chk` of R199: alignment, then the window. -/
def chk (B : Block) (wrap : Bool) (o n al : Nat) : Option Stop :=
  if o % al ≠ 0 then some (0x04, BitVec.ofNat 32 o)
  else if wrap || B.lsb < o + n then some (0x06, BitVec.ofNat 32 o)
  else none

/-- The first stop among the checks of several ranges. -/
def chkAll (B : Block) (wrap : Bool) (al : Nat) (rs : List (Nat × Nat)) : Option Stop :=
  rs.findSome? fun r => chk B wrap r.1 r.2 al

/-- The 32 rows at a pitch. -/
def rowsAt (o p n : Nat) : List (Nat × Nat) := (List.range 32).map fun m => (o + m * p, n)

/-- Whether a copy in flight holds one of several ranges of a block's window (R197, R246). -/
def State.heldRows (s : State) (b : Nat) (B : Block) (rs : List (Nat × Nat)) : Bool :=
  rs.any fun r => s.held B.core 0 (.ls b r.1) r.2

/-- The stop for a slot that is empty or of another format (R200). -/
def slotStop (n : Nat) : Stop := (0x0F, BitVec.ofNat 32 (0x400 + n))

-- Latches (R200)

/-- Classes of latch formats (Table 10.4). -/
inductive LatchClass where
  | half | bin8 | int8 | tern | other
  deriving DecidableEq, Repr

/-- The class of a slot's format. -/
def Slot.cls (sl : Slot) : LatchClass :=
  match sl.kind with
  | .float f => if !f.ieee then .bin8 else if f.width = 16 then .half else .other
  | .int w => if w = 8 then .int8 else .other
  | .ternary => .tern
  | .empty => .other

/-- K and the row's bytes of a class and form (Table 10.3); none where the form does not take it. -/
def rowForm (c : LatchClass) (tern long : Bool) : Option (Nat × Nat) :=
  match c, long with
  | .half, false => some (32, 64)
  | .bin8, false | .int8, false => some (64, 64)
  | .bin8, true | .int8, true => some (160, 160)
  | .tern, false => if tern then some (160, 32) else none
  | .half, true | .tern, true | .other, _ => none

/-- Whether a row of a ternary latch holds a reserved byte code (R59); a poisoned byte counts as none (R65). -/
def reservedRow (bs : List PByte) : Bool := bs.any fun b => 242 < b.1.toNat && !b.2

/-- A latch with its loaded rows; a reserved ternary code raises TR, and stops the sequencer when the slot traps. -/
def State.fillLatch (s : State) (b : Nat) (latchA : Bool) (sl : Slot) (k : Nat) (long : Bool) (e : Int)
    (poison : Bool) (rows : List (List PByte)) : State :=
  let bad := sl.cls == .tern && rows.any reservedRow
  let s := if bad then s.onSeq b true fun q => { q with mflags := q.mflags ||| Num.tr } else s
  if bad && sl.trapInv then s.seqTrap b true 0x0F (BitVec.ofNat 32 (0x100 + sl.index))
  else
    let l : Latch :=
      { loaded := true, rows := rows.map fun r => r.map (·.1), slot := BitVec.ofNat 3 sl.index, exp := e, k := k,
        long := long, poison := poison || rows.any fun r => r.any (·.2) }
    (s.onBlock b fun B => if latchA then { B with latchA := l } else { B with latchB := l }).onSeq b true Seq.advance

/-- A body of a matrix instruction that may stop. -/
def matrixSeq (f : State → Nat → Block → Except Stop State) (s : State) (b : Nat) : State :=
  match s.blocks.find? b with
  | none => s
  | some B =>
    match f s b B with
    | .error (c, v) => s.seqTrap b true c v
    | .ok s => s

/-- A latch load of 32 rows at a pitch (R204). -/
def loadLatch (latchA long : Bool) (slot : BitVec 3) (a b c : BitVec 8) (off : Word) : State → Nat → State :=
  matrixSeq fun s k B => do
    let q := B.mseq
    let av ← q.sv a
    let p ← q.sv b
    let (o, wrap) := baseOf av off
    let sl := s.slot B slot.toNat
    if p.toNat % 16 ≠ 0 then .error (0x04, p)
    else
      match rowForm sl.cls latchA long with
      | none => .error (slotStop sl.index)
      | some (kk, rb) =>
        let rs := rowsAt o p.toNat rb
        match chkAll B wrap 16 rs with
        | some x => .error x
        | none =>
          if s.heldRows k B rs then .ok s
          else
            let e := q.view.reg ⟨false, c⟩
            .ok (s.fillLatch k latchA sl kk long (sext 8 e.1.toNat) e.2 (rs.map fun r => B.lsRead r.1 r.2))

/-- `MLDA` (R204). -/
def execMlda (g : Guard) (slot : BitVec 3) (a b c : BitVec 8) (off : Word) (s : State) :
    Host.Outcome State Fault Refusal :=
  seqOp (.mlda g slot a b c off) true s (loadLatch true false slot a b c off)

/-- `MLDB` (R204). -/
def execMldb (g : Guard) (slot : BitVec 3) (a b c : BitVec 8) (off : Word) (s : State) :
    Host.Outcome State Fault Refusal :=
  seqOp (.mldb g slot a b c off) true s (loadLatch false false slot a b c off)

/-- `MLDB.long` (R204). -/
def execMldbLong (g : Guard) (slot : BitVec 3) (a b c : BitVec 8) (off : Word) (s : State) :
    Host.Outcome State Fault Refusal :=
  seqOp (.mldbLong g slot a b c off) true s (loadLatch false true slot a b c off)

/-- `MGATH` (R205). -/
def execMgath (g : Guard) (slot : BitVec 3) (a b c : BitVec 8) (off : Word) (s : State) :
    Host.Outcome State Fault Refusal :=
  seqOp (.mgath g slot a b c off) true s (matrixSeq fun s k B => do
    let q := B.mseq
    let v ← q.sv b
    let sl := s.slot B slot.toNat
    match rowForm sl.cls true false, chk B false v.toNat 128 16 with
    | none, _ => .error (slotStop sl.index)
    | some _, some x => .error x
    | some (kk, rb), none =>
      let ixs := B.lsRead v.toNat 128
      if s.heldRows k B [(v.toNat, 128)] then .ok s
      else if ixs.any (·.2) then .error (0x07, 0)
      else
        let av ← q.sv a
        let (o, wrap) := baseOf av off
        let ix := (List.range 32).map fun m => field (ixs.map (·.1)) (4 * m) 4
        let rs := (ix.filter (· < 2 ^ 31)).map fun i => (o + i, rb)
        match chkAll B wrap 16 rs with
        | some x => .error x
        | none =>
          if s.heldRows k B rs then .ok s
          else
            let e := q.view.reg ⟨false, c⟩
            let row := fun (i : Nat) => if i < 2 ^ 31 then B.lsRead (o + i) rb else List.replicate rb (0, false)
            .ok (s.fillLatch k true sl kk false (sext 8 e.1.toNat) e.2 (ix.map row)))

-- MCONV (R206, R207)

/-- A shape record (Table 10.6). -/
structure ConvShape where
  inW : Nat
  inH : Nat
  outW : Nat
  outH : Nat
  sx : Nat
  sy : Nat
  dx : Nat
  dy : Nat
  px : Nat
  py : Nat
  ch : Nat
  cpitch : Nat
  padval : Nat
  exp : Int

/-- A shape record read from its bytes. -/
def ConvShape.ofBytes (r : List Byte) : ConvShape :=
  { inW := field r 0 2, inH := field r 2 2, outW := field r 4 2, outH := field r 6 2, sx := field r 8 1 % 16 + 1,
    sy := field r 9 1 % 16 + 1, dx := field r 10 1 % 16 + 1, dy := field r 11 1 % 16 + 1, px := field r 12 1,
    py := field r 13 1, ch := field r 14 2, cpitch := field r 16 4, padval := field r 20 2,
    exp := sext 8 (field r 22 1) }

/-- An element of a latch row: a constant code, or a place in the window. -/
inductive ConvElem where
  | code (c : Nat)
  | at (o : Nat)
  deriving DecidableEq, Repr

/-- The elements of row `i` of a tap (R207). -/
def ConvShape.row (r : ConvShape) (b z kk q tx ty c0 : Nat) : List ConvElem :=
  if r.outW * r.outH ≤ q then List.replicate kk (.code 0)
  else
    let iy : Int := (q / r.outW * r.sy + ty * r.dy : Nat) - (r.py : Int)
    let ix : Int := (q % r.outW * r.sx + tx * r.dx : Nat) - (r.px : Int)
    (List.range kk).map fun k =>
      if r.ch ≤ c0 + k then .code 0
      else if iy < 0 || (r.inH : Int) ≤ iy || ix < 0 || (r.inW : Int) ≤ ix then .code r.padval
      else .at (b + (iy.toNat * r.inW + ix.toNat) * r.cpitch + (c0 + k) * z)

/-- The bytes of an element. -/
def ConvElem.bytes (B : Block) (z : Nat) : ConvElem → List PByte
  | .code c => clean (toBytes z c)
  | .at o => B.lsRead o z

/-- `MCONV` (R207). -/
def execMconv (g : Guard) (slot : BitVec 3) (a b c : BitVec 8) (off : Word) (s : State) :
    Host.Outcome State Fault Refusal :=
  seqOp (.mconv g slot a b c off) true s (matrixSeq fun s k B => do
    let q := B.mseq
    let r ← q.sv b
    let sl := s.slot B slot.toNat
    match rowForm sl.cls false false, chk B false r.toNat 32 16 with
    | none, _ => .error (slotStop sl.index)
    | some _, some x => .error x
    | some (kk, rb), none =>
      let bs := B.lsRead r.toNat 32
      let p0 := q.view.reg ⟨false, c⟩
      let t := q.view.reg ⟨false, c + 1⟩
      if s.heldRows k B [(r.toNat, 32)] then .ok s
      else if bs.any (·.2) || p0.2 || t.2 then .error (0x07, 0)
      else
        let av ← q.sv a
        let (o, wrap) := baseOf av off
        let x := ConvShape.ofBytes (bs.map (·.1))
        let z := rb / kk
        if o % z ≠ 0 || x.cpitch % z ≠ 0 then .error (0x04, BitVec.ofNat 32 o)
        else
          let tap := t.1.toNat
          let rows := (List.range 32).map fun i =>
            x.row o z kk (p0.1.toNat + i) (bits tap 7 0) (bits tap 15 8) (bits tap 31 16)
          let rs := rows.flatten.filterMap fun e => match e with
            | .at o => some (o, z)
            | .code _ => none
          match chkAll B wrap z rs with
          | some x => .error x
          | none =>
            if s.heldRows k B rs then .ok s
            else .ok (s.fillLatch k true sl kk false x.exp false
              (rows.map fun r => (r.map (ConvElem.bytes B z)).flatten)))

-- MMA (R66 to R68, R201, R208)

/-- The element codes of a latch row. -/
def latchCodes (c : LatchClass) (r : List Byte) : List Nat :=
  match c with
  | .half => (List.range 32).map fun i => field r (2 * i) 2
  | .tern => (r.map fun b => (trits b.toNat).1).flatten
  | .bin8 | .int8 | .other => r.map (·.toNat)

/-- A latch element's exact value. -/
def Slot.elem (sl : Slot) (c : Nat) : Num.Val :=
  match sl.kind with
  | .float f => Num.decodeCode f c
  | .ternary => Num.ofInt (tritVal c)
  | .int w => Num.ofInt (if sl.signed then sext w c else (c : Int))
  | .empty => Num.ofInt 0

/-- A latch element on the integer path. -/
def Slot.elemInt (sl : Slot) (c : Nat) : Int :=
  match sl.kind with
  | .ternary => tritVal c
  | .int w => if sl.signed then sext w c else c
  | .float _ | .empty => 0

/-- Whether a pairing is one of Table 10.4, and whether it takes the floating path. -/
def pairing (a b : LatchClass) (bLong : Bool) : Option Bool :=
  match a, b, bLong with
  | .half, .half, false | .bin8, .bin8, false | .tern, .bin8, true => some true
  | .int8, .int8, false | .tern, .int8, true => some false
  | _, _, _ => none

/-- A list cut into pieces of `n`; `fuel` pieces at most. -/
def chunks {α : Type} (n : Nat) : Nat → List α → List (List α)
  | 0, _ => []
  | fuel + 1, xs => if xs.isEmpty then [] else xs.take n :: chunks n fuel (xs.drop n)

/-- The exact sum of a k-group's products, and the flags they raise (R66, R67). -/
def groupSum (ps : List (Num.Val × Num.FlagSet)) : Num.Val × Num.FlagSet :=
  let fl := ps.foldl (fun f p => f ||| p.2) 0
  let has := fun (v : Num.Val) => ps.any (·.1 == v)
  let clash := has (.inf false) && has (.inf true)
  if clash then (.nan false, fl ||| Num.nv)
  else if ps.any (·.1.isNan) then (.nan false, fl)
  else
    match ps with
    | [] => (Num.ofInt 0, fl)
    | p :: ps => (ps.foldl (fun v x => (Num.add .rne v x.1).1) p.1, fl)

/-- One k-group added to an FP32 accumulator word (R66). -/
def groupFloat (scale : Num.Val → Num.Val) (t : Word) (a b : List Num.Val) : Word × Num.FlagSet :=
  let (v, f) := groupSum ((a.zip b).map fun x => Num.mul x.1 x.2)
  let (c, f') := Num.finish Num.fp32 .rne (Num.add .rne (Num.decodeCode Num.fp32 t.toNat) (scale v))
  (BitVec.ofNat 32 c, f ||| f')

/-- One k-group added to an INT32 accumulator word (R68). -/
def groupInt (t : Word) (a b : List Int) : Word × Num.FlagSet :=
  let v := t.toInt + ((a.zip b).map fun x => x.1 * x.2).foldl (· + ·) 0
  (BitVec.ofInt 32 v, if v < -2 ^ 31 || 2 ^ 31 ≤ v then Num.io else 0)

/-- The words of a product: each word of the accumulator with its k-groups added in ascending order. -/
def product {α : Type} (step : Word → List α → List α → Word × Num.FlagSet) (group : Nat) (acc : SMap Word)
    (a b : List (List α)) : SMap Word × Num.FlagSet :=
  let ga := a.map (chunks group 20)
  let gb := b.map (chunks group 20)
  let cell := fun (m n : Nat) =>
    ((ga.getD m []).zip (gb.getD n [])).foldl (fun (r : Word × Num.FlagSet) g =>
      let (w, f) := step r.1 g.1 g.2
      (w, r.2 ||| f)) (acc.get 0 (32 * m + n), 0)
  let cells := (List.range 1024).map fun i => (i, cell (i / 32) (i % 32))
  ((cells.filter (·.2.1 != 0)).map fun c => (c.1, c.2.1), cells.foldl (fun f c => f ||| c.2.2) 0)

/-- The combined scale of R66 applied to a group's sum. -/
def combined (a b : Slot) (e : Int) (v : Num.Val) : Num.Val :=
  scale2 (Num.mul (Num.mul v a.scaleVal).1 b.scaleVal).1 e

/-- `MMA`'s words and flags. -/
def mmaWords (sa sb : Slot) (la lb : Latch) (float : Bool) (acc : SMap Word) : SMap Word × Num.FlagSet :=
  let group := if sa.cls = .tern then 10 else 8
  let codes := fun (sl : Slot) (l : Latch) => l.rows.map (latchCodes sl.cls)
  if float then
    product (groupFloat (combined sa sb (la.exp + lb.exp))) group acc
      ((codes sa la).map fun r => r.map sa.elem) ((codes sb lb).map fun r => r.map sb.elem)
  else
    product groupInt group acc ((codes sa la).map fun r => r.map sa.elemInt)
      ((codes sb lb).map fun r => r.map sb.elemInt)

/-- A block with an accumulator replaced. -/
def Block.putAcc (B : Block) (d : Nat) (a : Acc) : Block := { B with acc := B.acc.write {} d a }

/-- `MMA` (R208). -/
def execMma (g : Guard) (d : BitVec 2) (s : State) : Host.Outcome State Fault Refusal :=
  seqOp (.mma g d) true s (matrixSeq fun s k B =>
    let la := B.latchA
    let lb := B.latchB
    let sa := s.slot B la.slot.toNat
    let sb := s.slot B lb.slot.toNat
    match la.loaded, lb.loaded, la.k == lb.k, pairing sa.cls sb.cls lb.long with
    | true, true, true, some float =>
      let acc := B.acc.get {} d.toNat
      if la.poison || lb.poison then
        .ok (s.setBlock k { B.putAcc d.toNat { acc with poison := true } with mseq := B.mseq.advance })
      else
        let (ws, f) := mmaWords sa sb la lb float acc.words
        let s := s.onSeq k true fun q => { q with mflags := q.mflags ||| f }
        if f &&& Num.nv != 0 && (sa.trapInv || sb.trapInv) then
          .ok (s.seqTrap k true 0x0F (BitVec.ofNat 32 (0x200 + if sa.trapInv then sa.index else sb.index)))
        else .ok ((s.onBlock k fun B => B.putAcc d.toNat { acc with words := ws }).onSeq k true Seq.advance)
    | _, _, _, _ => .error (slotStop (if la.loaded then la.slot.toNat else 0)))

/-- `MZERO` (R203). -/
def execMzero (g : Guard) (d : BitVec 2) (s : State) : Host.Outcome State Fault Refusal :=
  seqOp (.mzero g d) true s fun s b => (s.onBlock b fun B => B.putAcc d.toNat {}).onSeq b true Seq.advance

/-- `MACCL` (R209). -/
def execMaccl (g : Guard) (d : BitVec 2) (a b : BitVec 8) (off : Word) (s : State) :
    Host.Outcome State Fault Refusal :=
  seqOp (.maccl g d a b off) true s (matrixSeq fun s k B => do
    let av ← B.mseq.sv a
    let p ← B.mseq.sv b
    let (o, wrap) := baseOf av off
    let rs := rowsAt o p.toNat 128
    if p.toNat % 16 ≠ 0 then .error (0x04, p)
    else
      match chkAll B wrap 16 rs with
      | some x => .error x
      | none =>
        if s.heldRows k B rs then .ok s
        else
          let bs := (rs.map fun r => B.lsRead r.1 r.2).flatten
          let raw := bs.map (·.1)
          let ws := (List.range 1024).filterMap fun i =>
            let w : Word := BitVec.ofNat 32 (field raw (4 * i) 4)
            if w = 0 then none else some (i, w)
          .ok ((s.onBlock k fun B => B.putAcc d.toNat ⟨ws, bs.any (·.2)⟩).onSeq k true Seq.advance))

-- MDRAIN (R210)

/-- Bytes of an element of a slot's format; none where the slot is empty, and ternary rows are packed. -/
def Slot.elemBytes (sl : Slot) : Option Nat :=
  match sl.kind with
  | .int w => some (w / 8)
  | .float f => some (f.width / 8)
  | .ternary => some 0
  | .empty => none

/-- The bytes of a drained row of codes. -/
def Slot.rowBytes (sl : Slot) (cs : List Nat) : List Byte :=
  match sl.elemBytes with
  | some 0 => (chunks 5 8 cs).map fun ts => BitVec.ofNat 8 (tritByte ts)
  | some z => (cs.map (toBytes z)).flatten
  | none => []

/-- A drained row with its bytes poisoned: each bit is 0, a bit of what stood there, or of the row (R361). -/
def poisonRow (ctr m : Nat) (old new : List Byte) : List PByte :=
  new.mapIdx fun i b =>
    let f := fun (j : Nat) => ((Config.freeBits ctr (8192 + m) (2 * i + j)).setWidth 8 : Byte)
    ((f 0 &&& old.getD i 0) ||| (f 1 &&& b), true)

/-- Rows written to a window in ascending order. -/
def State.lsRows (s : State) (b : Nat) (rows : List (Nat × List PByte)) : State :=
  rows.foldl (fun s r => s.lsWrite b (runAt r.1 r.2)) s

/-- `MDRAIN`: `float` reads the words as FP32, otherwise as INT32. -/
def drain (float : Bool) (slot : BitVec 3) (d : BitVec 2) (a b c : BitVec 8) (off : Word) : State → Nat → State :=
  matrixSeq fun s k B => do
    let q := B.mseq
    let av ← q.sv a
    let p ← q.sv b
    let (o, wrap) := baseOf av off
    let sl := s.slot B slot.toNat
    if p.toNat % 16 ≠ 0 then .error (0x04, p)
    else
      match sl.elemBytes with
      | none => .error (slotStop sl.index)
      | some z =>
        let n := if z = 0 then 7 else 32 * z
        let rs := rowsAt o p.toNat n
        match chkAll B wrap 16 rs with
        | some x => .error x
        | none =>
          if s.heldRows k B rs then .ok s
          else
            let e := q.view.reg ⟨false, c⟩
            let acc := B.acc.get {} d.toNat
            let src := fun (i : Nat) =>
              let w := acc.words.get 0 i
              if float then Source.float (Num.decodeCode Num.fp32 w.toNat) else .int w.toInt
            let out := (List.range 1024).map fun i => sl.narrow (src i) (sext 8 e.1.toNat)
            let rows := (chunks 32 32 (out.map (·.1))).map sl.rowBytes
            if acc.poison || e.2 then
              let bad := (rs.zip rows).mapIdx fun m r =>
                (r.1.1, poisonRow s.ctr m ((B.lsRead r.1.1 n).map (·.1)) r.2)
              .ok ((s.lsRows k bad).onSeq k true Seq.advance)
            else
              let f := out.foldl (fun f x => f ||| x.2) 0
              let s := s.onSeq k true fun q => { q with mflags := q.mflags ||| f }
              if f &&& Num.nv != 0 && sl.trapInv then
                .ok (s.seqTrap k true 0x0F (BitVec.ofNat 32 (0x200 + sl.index)))
              else .ok ((s.lsRows k ((rs.zip rows).map fun r => (r.1.1, clean r.2))).onSeq k true Seq.advance)

/-- `MDRAIN.f32` (R210). -/
def execMdrainF32 (g : Guard) (slot : BitVec 3) (d : BitVec 2) (a b c : BitVec 8) (off : Word) (s : State) :
    Host.Outcome State Fault Refusal :=
  seqOp (.mdrainF32 g slot d a b c off) true s (drain true slot d a b c off)

/-- `MDRAIN.i32` (R210). -/
def execMdrainI32 (g : Guard) (slot : BitVec 3) (d : BitVec 2) (a b c : BitVec 8) (off : Word) (s : State) :
    Host.Outcome State Fault Refusal :=
  seqOp (.mdrainI32 g slot d a b c off) true s (drain false slot d a b c off)

end Sys2Proof.Machine
end

