-- ==== Sys2Proof/Machine/Dispatch.lean ====
section
/-! DEFINITION. The dispatcher: one arm for each constructor of `Instr`, each one call of its meaning. -/

namespace Sys2Proof.Machine

/-- What the device does when an instruction is executed, or an event happens. -/
def exec (i : Instr) (s : State) : Host.Outcome State Fault Refusal :=
  match i with
  | .nop g => Sys2Proof.Machine.execNop g s
  | .isync g => Sys2Proof.Machine.execIsync g s
  | .bra g off => Sys2Proof.Machine.execBra g off s
  | .brx g a => Sys2Proof.Machine.execBrx g a s
  | .call g d off => Sys2Proof.Machine.execCall g d off s
  | .callx g d a => Sys2Proof.Machine.execCallx g d a s
  | .ret g a => Sys2Proof.Machine.execRet g a s
  | .reconvImm g mask => Sys2Proof.Machine.execReconvImm g mask s
  | .reconvReg g a => Sys2Proof.Machine.execReconvReg g a s
  | .exit g => Sys2Proof.Machine.execExit g s
  | .fork g d m c gangs => Sys2Proof.Machine.execFork g d m c gangs s
  | .rdv g n => Sys2Proof.Machine.execRdv g n s
  | .voteAny g w d a => Sys2Proof.Machine.execVoteAny g w d a s
  | .voteAll g w d a => Sys2Proof.Machine.execVoteAll g w d a s
  | .voteBallot g w d a => Sys2Proof.Machine.execVoteBallot g w d a s
  | .voteEq g w d a => Sys2Proof.Machine.execVoteEq g w d a s
  | .voteCnt g w d a => Sys2Proof.Machine.execVoteCnt g w d a s
  | .shflPick g w d a b c => Sys2Proof.Machine.execShflPick g w d a b c s
  | .shflFwd g w d a b c => Sys2Proof.Machine.execShflFwd g w d a b c s
  | .shflBack g w d a b c => Sys2Proof.Machine.execShflBack g w d a b c s
  | .shflFlip g w d a b c => Sys2Proof.Machine.execShflFlip g w d a b c s
  | .shflRot g w d a b c => Sys2Proof.Machine.execShflRot g w d a b c s
  | .redux g op ty d a => Sys2Proof.Machine.execRedux g op ty d a s
  | .bmaskSelf g d => Sys2Proof.Machine.execBmaskSelf g d s
  | .bmaskPre g w d => Sys2Proof.Machine.execBmaskPre g w d s
  | .bmaskPost g w d => Sys2Proof.Machine.execBmaskPost g w d s
  | .bmaskSeg g w d => Sys2Proof.Machine.execBmaskSeg g w d s
  | .bmaskGrp g d => Sys2Proof.Machine.execBmaskGrp g d s
  | .bmaskSpan g d b => Sys2Proof.Machine.execBmaskSpan g d b s
  | .grow g d n => Sys2Proof.Machine.execGrow g d n s
  | .growTry g d n => Sys2Proof.Machine.execGrowTry g d n s
  | .shrink g n => Sys2Proof.Machine.execShrink g n s
  | .gets g wide d num => Sys2Proof.Machine.execGets g wide d num s
  | .sets g num a => Sys2Proof.Machine.execSets g num a s
  | .plogAnd g d a b => Sys2Proof.Machine.execPlogAnd g d a b s
  | .plogOr g d a b => Sys2Proof.Machine.execPlogOr g d a b s
  | .plogXor g d a b => Sys2Proof.Machine.execPlogXor g d a b s
  | .plogAndn g d a b => Sys2Proof.Machine.execPlogAndn g d a b s
  | .plogOrn g d a b => Sys2Proof.Machine.execPlogOrn g d a b s
  | .plogNot g d a => Sys2Proof.Machine.execPlogNot g d a s
  | .plogSet g d v => Sys2Proof.Machine.execPlogSet g d v s
  | .mov g ty d b => Sys2Proof.Machine.execMov g ty d b s
  | .add g ty sat d a b => Sys2Proof.Machine.execAdd g ty sat d a b s
  | .sub g ty sat d a b => Sys2Proof.Machine.execSub g ty sat d a b s
  | .mul g ty sat d a b => Sys2Proof.Machine.execMul g ty sat d a b s
  | .mad g ty d a b c => Sys2Proof.Machine.execMad g ty d a b c s
  | .madWide g ty d a b c => Sys2Proof.Machine.execMadWide g ty d a b c s
  | .mulhi g ty d a b => Sys2Proof.Machine.execMulhi g ty d a b s
  | .div g ty d a b => Sys2Proof.Machine.execDiv g ty d a b s
  | .rem g ty d a b => Sys2Proof.Machine.execRem g ty d a b s
  | .and g ty d a b => Sys2Proof.Machine.execAnd g ty d a b s
  | .or g ty d a b => Sys2Proof.Machine.execOr g ty d a b s
  | .xor g ty d a b => Sys2Proof.Machine.execXor g ty d a b s
  | .shfShl g ty d a b => Sys2Proof.Machine.execShfShl g ty d a b s
  | .shfShr g ty d a b => Sys2Proof.Machine.execShfShr g ty d a b s
  | .shfRotl g ty d a b => Sys2Proof.Machine.execShfRotl g ty d a b s
  | .shfRotr g ty d a b => Sys2Proof.Machine.execShfRotr g ty d a b s
  | .cmp g rel ty d a b => Sys2Proof.Machine.execCmp g rel ty d a b s
  | .sel g ty d a b c => Sys2Proof.Machine.execSel g ty d a b c s
  | .min g ty d a b => Sys2Proof.Machine.execMin g ty d a b s
  | .max g ty d a b => Sys2Proof.Machine.execMax g ty d a b s
  | .abs g ty sat d a => Sys2Proof.Machine.execAbs g ty sat d a s
  | .bitcPopc g ty d a => Sys2Proof.Machine.execBitcPopc g ty d a s
  | .bitcClz g ty d a => Sys2Proof.Machine.execBitcClz g ty d a s
  | .bitcCtz g ty d a => Sys2Proof.Machine.execBitcCtz g ty d a s
  | .bitcBrev g ty d a => Sys2Proof.Machine.execBitcBrev g ty d a s
  | .bfe g ty d a b => Sys2Proof.Machine.execBfe g ty d a b s
  | .bfi g ty d a b c => Sys2Proof.Machine.execBfi g ty d a b c s
  | .lea g ty d a b sh => Sys2Proof.Machine.execLea g ty d a b sh s
  | .fadd g rm ty d a b => Sys2Proof.Machine.execFadd g rm ty d a b s
  | .fsub g rm ty d a b => Sys2Proof.Machine.execFsub g rm ty d a b s
  | .fmul g rm ty d a b => Sys2Proof.Machine.execFmul g rm ty d a b s
  | .ffma g rm ty d a b c => Sys2Proof.Machine.execFfma g rm ty d a b c s
  | .fmin g ty d a b => Sys2Proof.Machine.execFmin g ty d a b s
  | .fmax g ty d a b => Sys2Proof.Machine.execFmax g ty d a b s
  | .fcmp g rel ty d a b => Sys2Proof.Machine.execFcmp g rel ty d a b s
  | .fsgnNeg g ty d a => Sys2Proof.Machine.execFsgnNeg g ty d a s
  | .fsgnAbs g ty d a => Sys2Proof.Machine.execFsgnAbs g ty d a s
  | .fsgnCopy g ty d a b => Sys2Proof.Machine.execFsgnCopy g ty d a b s
  | .fsgnXor g ty d a b => Sys2Proof.Machine.execFsgnXor g ty d a b s
  | .fdiv g rm ty d a b => Sys2Proof.Machine.execFdiv g rm ty d a b s
  | .fsqrt g rm ty d a => Sys2Proof.Machine.execFsqrt g rm ty d a s
  | .frcp g d a => Sys2Proof.Machine.execFrcp g d a s
  | .frsq g d a => Sys2Proof.Machine.execFrsq g d a s
  | .fexp2 g d a => Sys2Proof.Machine.execFexp2 g d a s
  | .flog2 g d a => Sys2Proof.Machine.execFlog2 g d a s
  | .fsin g d a => Sys2Proof.Machine.execFsin g d a s
  | .fcos g d a => Sys2Proof.Machine.execFcos g d a s
  | .fclass g ty d a => Sys2Proof.Machine.execFclass g ty d a s
  | .frnd g rm ty d a => Sys2Proof.Machine.execFrnd g rm ty d a s
  | .cvt g dty sty rm sat d a => Sys2Proof.Machine.execCvt g dty sty rm sat d a s
  | .cvtPacked g dty rm sat d a b => Sys2Proof.Machine.execCvtPacked g dty rm sat d a b s
  | .cvtSlot g dty sty slot d a => Sys2Proof.Machine.execCvtSlot g dty sty slot d a s
  | .cvtn g ty slot d a c => Sys2Proof.Machine.execCvtn g ty slot d a c s
  | .cvtw g ty slot d a c => Sys2Proof.Machine.execCvtw g ty slot d a c s
  | .ld g cnt ty sc pol d a off => Sys2Proof.Machine.execLd g cnt ty sc pol d a off s
  | .st g cnt ty sc pol a b off => Sys2Proof.Machine.execSt g cnt ty sc pol a b off s
  | .ldk g cnt ty sc d a off => Sys2Proof.Machine.execLdk g cnt ty sc d a off s
  | .pref g sc a off => Sys2Proof.Machine.execPref g sc a off s
  | .cflush g sc a off => Sys2Proof.Machine.execCflush g sc a off s
  | .cflushInv g sc a off => Sys2Proof.Machine.execCflushInv g sc a off s
  | .cinv g sc a off => Sys2Proof.Machine.execCinv g sc a off s
  | .cpy g a b c loc => Sys2Proof.Machine.execCpy g a b c loc s
  | .cpseal g => Sys2Proof.Machine.execCpseal g s
  | .cpwait g n => Sys2Proof.Machine.execCpwait g n s
  | .stage g n => Sys2Proof.Machine.execStage g n s
  | .bulk g a b => Sys2Proof.Machine.execBulk g a b s
  | .outst g d => Sys2Proof.Machine.execOutst g d s
  | .arrive g sc a b off => Sys2Proof.Machine.execArrive g sc a b off s
  | .arriveAnn g sc a b c off => Sys2Proof.Machine.execArriveAnn g sc a b c off s
  | .await g sc d a b off => Sys2Proof.Machine.execAwait g sc d a b off s
  | .xfer g a b c loc => Sys2Proof.Machine.execXfer g a b c loc s
  | .xfer2d g a b c loc => Sys2Proof.Machine.execXfer2d g a b c loc s
  | .xslide g a b c loc => Sys2Proof.Machine.execXslide g a b c loc s
  | .xgate g n => Sys2Proof.Machine.execXgate g n s
  | .xbump g d b => Sys2Proof.Machine.execXbump g d b s
  | .xbumpRing g d a b => Sys2Proof.Machine.execXbumpRing g d a b s
  | .fence g sc => Sys2Proof.Machine.execFence g sc s
  | .fencex g sc n => Sys2Proof.Machine.execFencex g sc n s
  | .barGang g => Sys2Proof.Machine.execBarGang g s
  | .barBlk g n => Sys2Proof.Machine.execBarBlk g n s
  | .barBlkArv g n => Sys2Proof.Machine.execBarBlkArv g n s
  | .barEns g n => Sys2Proof.Machine.execBarEns g n s
  | .barEnsArv g n => Sys2Proof.Machine.execBarEnsArv g n s
  | .barCoop g n => Sys2Proof.Machine.execBarCoop g n s
  | .atom g op ty ord sc ms scope d a b off => Sys2Proof.Machine.execAtom g op ty ord sc ms scope d a b off s
  | .atomCas g ty ord sc ms scope d a b c off => Sys2Proof.Machine.execAtomCas g ty ord sc ms scope d a b c off s
  | .red g op ty rel sc ms scope a b off => Sys2Proof.Machine.execRed g op ty rel sc ms scope a b off s
  | .waita g cond ty scope d a b c off => Sys2Proof.Machine.execWaita g cond ty scope d a b c off s
  | .cbind g d h b c => Sys2Proof.Machine.execCbind g d h b c s
  | .csend g scope h b kind => Sys2Proof.Machine.execCsend g scope h b kind s
  | .crecv g scope d h => Sys2Proof.Machine.execCrecv g scope d h s
  | .ctry g scope d h => Sys2Proof.Machine.execCtry g scope d h s
  | .cdeleg g h b => Sys2Proof.Machine.execCdeleg g h b s
  | .cstateHome g d h => Sys2Proof.Machine.execCstateHome g d h s
  | .cstateRole g d h => Sys2Proof.Machine.execCstateRole g d h s
  | .cclose g h => Sys2Proof.Machine.execCclose g h s
  | .cload g d a b c => Sys2Proof.Machine.execCload g d a b c s
  | .mzero g d => Sys2Proof.Machine.execMzero g d s
  | .mlda g slot a b c off => Sys2Proof.Machine.execMlda g slot a b c off s
  | .mldb g slot a b c off => Sys2Proof.Machine.execMldb g slot a b c off s
  | .mldbLong g slot a b c off => Sys2Proof.Machine.execMldbLong g slot a b c off s
  | .mgath g slot a b c off => Sys2Proof.Machine.execMgath g slot a b c off s
  | .mconv g slot a b c off => Sys2Proof.Machine.execMconv g slot a b c off s
  | .mma g d => Sys2Proof.Machine.execMma g d s
  | .maccl g d a b off => Sys2Proof.Machine.execMaccl g d a b off s
  | .mdrainF32 g slot d a b c off => Sys2Proof.Machine.execMdrainF32 g slot d a b c off s
  | .mdrainI32 g slot d a b c off => Sys2Proof.Machine.execMdrainI32 g slot d a b c off s
  | .launch g d a off => Sys2Proof.Machine.execLaunch g d a off s
  | .gsigArr g a b off => Sys2Proof.Machine.execGsigArr g a b off s
  | .gsigAnn g a b off => Sys2Proof.Machine.execGsigAnn g a b off s
  | .gsigSeal g a off => Sys2Proof.Machine.execGsigSeal g a off s
  | .cancel g d a off => Sys2Proof.Machine.execCancel g d a off s
  | .sys g n => Sys2Proof.Machine.execSys g n s
  | .sret g => Sys2Proof.Machine.execSret g s
  | .hcall g n => Sys2Proof.Machine.execHcall g n s
  | .hret g => Sys2Proof.Machine.execHret g s
  | .mfs g d num => Sys2Proof.Machine.execMfs g d num s
  | .mts g num a => Sys2Proof.Machine.execMts g num a s
  | .mtsGhold g a => Sys2Proof.Machine.execMtsGhold g a s
  | .tlbinvAll g => Sys2Proof.Machine.execTlbinvAll g s
  | .tlbinvAsid g a => Sys2Proof.Machine.execTlbinvAsid g a s
  | .tlbinvPage g a b => Sys2Proof.Machine.execTlbinvPage g a b s
  | .tlbinvVmid g a => Sys2Proof.Machine.execTlbinvVmid g a s
  | .fresume g d a => Sys2Proof.Machine.execFresume g d a s
  | .fkillTok g d a => Sys2Proof.Machine.execFkillTok g d a s
  | .fkillGang g d a => Sys2Proof.Machine.execFkillGang g d a s
  | .tokwait g d a => Sys2Proof.Machine.execTokwait g d a s
  | .ctxsave g d a => Sys2Proof.Machine.execCtxsave g d a s
  | .ctxload g d a b => Sys2Proof.Machine.execCtxload g d a b s
  | .walkres g d a => Sys2Proof.Machine.execWalkres g d a s
  | .walkresSkip g d a => Sys2Proof.Machine.execWalkresSkip g d a s
  | .tmove g d a b len => Sys2Proof.Machine.execTmove g d a b len s
  | .treplAdd g d a b c len => Sys2Proof.Machine.execTreplAdd g d a b c len s
  | .treplDrop g d a slots => Sys2Proof.Machine.execTreplDrop g d a slots s
  | .bootGo len => Sys2Proof.Machine.execBootGo len s
  | .firmwareStageComplete r skewPs bands => Sys2Proof.Machine.execFirmwareStageComplete r skewPs bands s
  | .pcieHotReset => Sys2Proof.Machine.execPcieHotReset s
  | .mailboxStore addr => Sys2Proof.Machine.execMailboxStore addr s
  | .attestationReport => Sys2Proof.Machine.execAttestationReport s
  | .temperatureSample cluster celsius => Sys2Proof.Machine.execTemperatureSample cluster celsius s
  | .layerVoltageSample node pair upper millivolts => Sys2Proof.Machine.execLayerVoltageSample node pair upper millivolts s
  | .midRailSample node pair offMillivolts => Sys2Proof.Machine.execMidRailSample node pair offMillivolts s
  | .processMonitorSample cluster count => Sys2Proof.Machine.execProcessMonitorSample cluster count s
  | .droopRestoreStep region => Sys2Proof.Machine.execDroopRestoreStep region s
  | .selfTestSlot cluster => Sys2Proof.Machine.execSelfTestSlot cluster s
  | .selfTestSlotEnd cluster pass => Sys2Proof.Machine.execSelfTestSlotEnd cluster pass s
  | .scrubPass unit addr => Sys2Proof.Machine.execScrubPass unit addr s
  | .hostMemoryAccess staging vmid addr len write => Sys2Proof.Machine.execHostMemoryAccess staging vmid addr len write s
  | .registerWrite r v => Sys2Proof.Machine.execRegisterWrite r v s
  | .doorbell vmid queue => Sys2Proof.Machine.execDoorbell vmid queue s
  | .queueTailPoll ctx queue => Sys2Proof.Machine.execQueueTailPoll ctx queue s
  | .launchAccept ctx queue => Sys2Proof.Machine.execLaunchAccept ctx queue s
  | .graphStartAccept ctx queue => Sys2Proof.Machine.execGraphStartAccept ctx queue s
  | .recordComplete addr => Sys2Proof.Machine.execRecordComplete addr s
  | .heldWriteRetry => Sys2Proof.Machine.execHeldWriteRetry s
  | .seal vmid addr => Sys2Proof.Machine.execSeal vmid addr s
  | .graphNodeLaunch graph node => Sys2Proof.Machine.execGraphNodeLaunch graph node s
  | .graphNodeCopy graph node => Sys2Proof.Machine.execGraphNodeCopy graph node s
  | .graphNodeConditional graph node => Sys2Proof.Machine.execGraphNodeConditional graph node s
  | .graphNodeLoop graph node => Sys2Proof.Machine.execGraphNodeLoop graph node s
  | .graphNodeWait graph node => Sys2Proof.Machine.execGraphNodeWait graph node s
  | .graphNodeSignal graph node => Sys2Proof.Machine.execGraphNodeSignal graph node s
  | .cancelGraceExpiry tag => Sys2Proof.Machine.execCancelGraceExpiry tag s
  | .walkRecordRead tag index => Sys2Proof.Machine.execWalkRecordRead tag index s
  | .deferredNotify tag index => Sys2Proof.Machine.execDeferredNotify tag index s
  | .blockCreate tag node => Sys2Proof.Machine.execBlockCreate tag node s
  | .blockPlace tag node index => Sys2Proof.Machine.execBlockPlace tag node index s
  | .ensemblePlace tag cell => Sys2Proof.Machine.execEnsemblePlace tag cell s
  | .preferenceRebuild node currents => Sys2Proof.Machine.execPreferenceRebuild node currents s
  | .clusterGate cluster => Sys2Proof.Machine.execClusterGate cluster s
  | .clusterWake cluster => Sys2Proof.Machine.execClusterWake cluster s
  | .moveCommit move => Sys2Proof.Machine.execMoveCommit move s
  | .replicaAddCommit move => Sys2Proof.Machine.execReplicaAddCommit move s
  | .migrationAbort move => Sys2Proof.Machine.execMigrationAbort move s
  | .instructionRefetch core line => Sys2Proof.Machine.execInstructionRefetch core line s
  | .translationWalkDone walk => Sys2Proof.Machine.execTranslationWalkDone walk s
  | .copyPacketPerformed copy => Sys2Proof.Machine.execCopyPacketPerformed copy s
  | .copyFault copy => Sys2Proof.Machine.execCopyFault copy s
  | .combineTimeout core entry => Sys2Proof.Machine.execCombineTimeout core entry s
  | .remoteRequest source vmid seq secure offset kind => Sys2Proof.Machine.execRemoteRequest source vmid seq secure offset kind s
  | .remoteReply request reply => Sys2Proof.Machine.execRemoteReply request reply s
  | .nackResend request => Sys2Proof.Machine.execNackResend request s
  | .routeTimeout request => Sys2Proof.Machine.execRouteTimeout request s
  | .flitCrcFail link => Sys2Proof.Machine.execFlitCrcFail link s
  | .linkRetrain link ok => Sys2Proof.Machine.execLinkRetrain link ok s
  | .monitorEvaluate monitor => Sys2Proof.Machine.execMonitorEvaluate monitor s
  | .monitorPoll monitor => Sys2Proof.Machine.execMonitorPoll monitor s
  | .waitaTimeout gang lane => Sys2Proof.Machine.execWaitaTimeout gang lane s
  | .sendJudge home => Sys2Proof.Machine.execSendJudge home s
  | .creditReturn home role => Sys2Proof.Machine.execCreditReturn home role s
  | .messageDelivery home role => Sys2Proof.Machine.execMessageDelivery home role s
  | .entryReturn home role => Sys2Proof.Machine.execEntryReturn home role s
  | .deliveryStall home role => Sys2Proof.Machine.execDeliveryStall home role s
  | .deliveryResume home role => Sys2Proof.Machine.execDeliveryResume home role s
  | .faultOverflowPost node => Sys2Proof.Machine.execFaultOverflowPost node s
  | .parkedResume gang index => Sys2Proof.Machine.execParkedResume gang index s
  | .blockEvict block => Sys2Proof.Machine.execBlockEvict block s
  | .contextSaveComplete node => Sys2Proof.Machine.execContextSaveComplete node s
  | .saveGraceExpiry node => Sys2Proof.Machine.execSaveGraceExpiry node s
  | .blockRetire block => Sys2Proof.Machine.execBlockRetire block s
  | .sequencerExit block matrix => Sys2Proof.Machine.execSequencerExit block matrix s
  | .singleFault unit addr => Sys2Proof.Machine.execSingleFault unit addr s
  | .powerUpReset => Sys2Proof.Machine.execPowerUpReset s
  | .inputUndervoltage => Sys2Proof.Machine.execInputUndervoltage s
  | .imageVerified => Sys2Proof.Machine.execImageVerified s

end Sys2Proof.Machine
end

