-- ==== Sys2Proof/Decode.lean ====
section
/-! DEFINITION. The 96-bit encoding (R127 to R133): an instruction word split into its fields, the field values of every
form (Tables 8.4, 9.1, 9.3, 10.5, 11.5, 12.2, 15.8, 16.10 and the entries of the chapters), decoding, which rejects by
name, and encoding. A field that a form does not use is zero, and a word is read as a form only where
its every field is that form's. -/

namespace Sys2Proof

/-- A 96-bit instruction, its first byte the least significant (R120). -/
abbrev IWord := BitVec 96

/-- The fields of Tables 7.4 and 7.5. SUB is split into its variant [7:4] and type [3:0] (R129), MOD into [11:8],
[7:5] and its five single bits (R128). -/
structure Fields where
  op : BitVec 8 := 0
  var : BitVec 4 := 0
  ty : BitVec 4 := 0
  pn : Bool := false
  pg : BitVec 3 := 0
  d : BitVec 8 := 0
  a : BitVec 8 := 0
  b : BitVec 8 := 0
  c : BitVec 8 := 0
  m : BitVec 4 := 0
  sc : BitVec 3 := 0
  immb : Bool := false
  bsc : Bool := false
  bsb : Bool := false
  bsa : Bool := false
  bsd : Bool := false
  imm : BitVec 32 := 0
  deriving DecidableEq, Repr

/-- One bit as a vector. -/
def bit1 (b : Bool) : BitVec 1 := BitVec.ofBool b

/-- The word of the fields, the most significant field first (Table 7.4). -/
def Fields.word (f : Fields) : IWord :=
  f.op ++ f.var ++ f.ty ++ bit1 f.pn ++ f.pg ++ f.d ++ f.a ++ f.b ++ f.c ++ f.m ++ f.sc ++ bit1 f.immb ++
    bit1 f.bsc ++ bit1 f.bsb ++ bit1 f.bsa ++ bit1 f.bsd ++ f.imm

/-- The fields of a word (Table 7.4). -/
def IWord.fields (w : IWord) : Fields :=
  { op := w.extractLsb' 88 8, var := w.extractLsb' 84 4, ty := w.extractLsb' 80 4, pn := w.getLsbD 79,
    pg := w.extractLsb' 76 3, d := w.extractLsb' 68 8, a := w.extractLsb' 60 8, b := w.extractLsb' 52 8,
    c := w.extractLsb' 44 8, m := w.extractLsb' 40 4, sc := w.extractLsb' 37 3, immb := w.getLsbD 36,
    bsc := w.getLsbD 35, bsb := w.getLsbD 34, bsa := w.getLsbD 33, bsd := w.getLsbD 32,
    imm := w.extractLsb' 0 32 }

/-- Type codes (Table 7.6). -/
def Ty.code : Ty → BitVec 4
  | .i8 => 0x0 | .i16 => 0x1 | .i32 => 0x2 | .i64 => 0x3 | .n8 => 0x4 | .n16 => 0x5 | .n32 => 0x6 | .n64 => 0x7
  | .f32 => 0x8 | .bf16 => 0x9 | .f16 => 0xA | .bf16x2 => 0xB | .f16x2 => 0xC

/-- The type of a code; 0xD to 0xF are reserved (Table 7.6). -/
def Ty.ofCode (c : BitVec 4) : Option Ty :=
  match c.toNat with
  | 0x0 => some .i8 | 0x1 => some .i16 | 0x2 => some .i32 | 0x3 => some .i64 | 0x4 => some .n8 | 0x5 => some .n16
  | 0x6 => some .n32 | 0x7 => some .n64 | 0x8 => some .f32 | 0x9 => some .bf16 | 0xA => some .f16
  | 0xB => some .bf16x2 | 0xC => some .f16x2
  | _ => none

/-- Rounding modes as variants (R175). -/
def Rm.code : Rm → BitVec 4
  | .rne => 0 | .rtz => 1 | .rup => 2 | .rdn => 3

/-- The rounding mode of a variant. -/
def Rm.ofCode (c : BitVec 4) : Option Rm :=
  match c.toNat with
  | 0 => some .rne | 1 => some .rtz | 2 => some .rup | 3 => some .rdn
  | _ => none

/-- Scope codes (Table 7.5). -/
def Scope.code : Scope → BitVec 3
  | .gang => 0 | .blk => 1 | .die => 2 | .pkg => 3 | .sys => 4

/-- The scope of a code; 5 to 7 raise cause 0x01. -/
def Scope.ofCode (c : BitVec 3) : Option Scope :=
  match c.toNat with
  | 0 => some .gang | 1 => some .blk | 2 => some .die | 3 => some .pkg | 4 => some .sys
  | _ => none

/-- Policy codes (R228). -/
def Policy.code : Policy → BitVec 4
  | .normal => 0 | .stream => 1 | .nc => 2

/-- The policy of a code. -/
def Policy.ofCode (c : BitVec 4) : Option Policy :=
  match c.toNat with
  | 0 => some .normal | 1 => some .stream | 2 => some .nc
  | _ => none

/-- Count variants (R228). -/
def Count.code : Count → BitVec 4
  | .one => 0 | .v2 => 1 | .v4 => 2

/-- The count of a variant. -/
def Count.ofCode (c : BitVec 4) : Option Count :=
  match c.toNat with
  | 0 => some .one | 1 => some .v2 | 2 => some .v4
  | _ => none

/-- Variants of CMP (Table 9.1). -/
def Rel.code : Rel → BitVec 4
  | .eq => 0 | .ne => 1 | .lt => 2 | .le => 3 | .gt => 4 | .ge => 5

/-- The relation of a variant of CMP. -/
def Rel.ofCode (c : BitVec 4) : Option Rel :=
  match c.toNat with
  | 0 => some .eq | 1 => some .ne | 2 => some .lt | 3 => some .le | 4 => some .gt | 5 => some .ge
  | _ => none

/-- Variants of FCMP (Table 9.5). -/
def FRel.code : FRel → BitVec 4
  | .eq => 0 | .ne => 1 | .lt => 2 | .le => 3 | .gt => 4 | .ge => 5 | .un => 6 | .ord => 7

/-- The relation of a variant of FCMP. -/
def FRel.ofCode (c : BitVec 4) : Option FRel :=
  match c.toNat with
  | 0 => some .eq | 1 => some .ne | 2 => some .lt | 3 => some .le | 4 => some .gt | 5 => some .ge
  | 6 => some .un | 7 => some .ord
  | _ => none

/-- Operations of REDUX (R158). -/
def RedOp.code : RedOp → BitVec 4
  | .add => 0 | .min => 1 | .max => 2 | .and => 3 | .or => 4 | .xor => 5

/-- The operation of a variant of REDUX. -/
def RedOp.ofCode (c : BitVec 4) : Option RedOp :=
  match c.toNat with
  | 0 => some .add | 1 => some .min | 2 => some .max | 3 => some .and | 4 => some .or | 5 => some .xor
  | _ => none

/-- Operations of ATOM and RED (Table 14.2); 7 is cas. -/
def AtomOp.code : AtomOp → BitVec 4
  | .add => 0 | .min => 1 | .max => 2 | .and => 3 | .or => 4 | .xor => 5 | .exch => 6

/-- The operation of a variant of ATOM. -/
def AtomOp.ofCode (c : BitVec 4) : Option AtomOp :=
  match c.toNat with
  | 0 => some .add | 1 => some .min | 2 => some .max | 3 => some .and | 4 => some .or | 5 => some .xor
  | 6 => some .exch
  | _ => none

/-- Orders MOD[9:8] (R289). -/
def Order.code : Order → BitVec 2
  | .relaxed => 0 | .acq => 1 | .rel => 2 | .acqrel => 3

/-- The order of MOD[9:8]. -/
def Order.ofCode (c : BitVec 2) : Order :=
  match c.toNat with
  | 1 => .acq | 2 => .rel | 3 => .acqrel
  | _ => .relaxed

/-- MOD[11:8] of an atomic: `.ms`, `.sc`, order (R289). -/
def atomMod (ms sc : Bool) (o : Order) : BitVec 4 := bit1 ms ++ bit1 sc ++ o.code

/-- Conditions of WAITA (R294). -/
def WCond.code : WCond → BitVec 4
  | .ne => 0 | .eq => 1 | .ge => 2 | .lt => 3

/-- The condition of a variant of WAITA. -/
def WCond.ofCode (c : BitVec 4) : Option WCond :=
  match c.toNat with
  | 0 => some .ne | 1 => some .eq | 2 => some .ge | 3 => some .lt
  | _ => none

namespace Fields

/-- The guard's fields (R131). -/
def withG (f : Fields) (g : Guard) : Fields := { f with pn := g.neg, pg := g.p }
/-- A D operand in either bank. -/
def withD (f : Fields) (r : Reg) : Fields := { f with d := r.n, bsd := r.k }
/-- An A operand in either bank. -/
def withA (f : Fields) (r : Reg) : Fields := { f with a := r.n, bsa := r.k }
/-- A B operand in either bank. -/
def withB (f : Fields) (r : Reg) : Fields := { f with b := r.n, bsb := r.k }
/-- A C operand in either bank. -/
def withC (f : Fields) (r : Reg) : Fields := { f with c := r.n, bsc := r.k }
/-- A B operand that may be immediate (R128, R164). -/
def withS (f : Fields) : Src → Fields
  | .reg r => { f with b := r.n, bsb := r.k }
  | .imm v => { f with immb := true, imm := v }
/-- A predicate or role in the D field. -/
def withPD (f : Fields) (p : BitVec 3) : Fields := { f with d := p.setWidth 8 }
/-- A predicate or role in the A field. -/
def withPA (f : Fields) (p : BitVec 3) : Fields := { f with a := p.setWidth 8 }
/-- The type code of SUB[3:0]. -/
def withT (f : Fields) (t : Ty) : Fields := { f with ty := t.code }

/-- The D operand read back. -/
def rd (f : Fields) : Reg := ⟨f.bsd, f.d⟩
/-- The A operand read back. -/
def ra (f : Fields) : Reg := ⟨f.bsa, f.a⟩
/-- The B operand read back. -/
def rb (f : Fields) : Reg := ⟨f.bsb, f.b⟩
/-- The C operand read back. -/
def rc (f : Fields) : Reg := ⟨f.bsc, f.c⟩
/-- The B operand that may be immediate, read back. -/
def rs (f : Fields) : Src := if f.immb then .imm f.imm else .reg f.rb
/-- The guard read back. -/
def rg (f : Fields) : Guard := ⟨f.pn, f.pg⟩
/-- A predicate or role read back from D. -/
def pd (f : Fields) : BitVec 3 := f.d.setWidth 3
/-- A predicate or role read back from A. -/
def pa (f : Fields) : BitVec 3 := f.a.setWidth 3

end Fields

/-- The field values of an instruction's form; device events have none. -/
def Instr.fields (i : Instr) : Option Fields :=
  let F : Fields := ({ op := i.op } : Fields).withG i.guard
  match i with
  -- Table 8.4 and R137, R138, R192, R194
  | .nop _ | .isync _ => some F
  | .bra _ off => some { F with imm := off }
  | .brx _ a | .ret _ a => some (F.withA a)
  | .call _ d off => some { F with d := d, imm := off }
  | .callx _ d a => some { F.withA a with d := d }
  | .reconvImm _ m => some { F with imm := m }
  | .reconvReg _ a => some { F.withA a with ty := 1 }
  | .exit _ => some F
  | .fork _ d m c gangs => some { F with d := d, imm := gangs ++ (0 : BitVec 14) ++ bit1 c ++ bit1 m }
  | .rdv _ n => some { F with imm := n.setWidth 32 }
  | .voteAny _ w d a => some { (F.withPD d).withPA a with m := w }
  | .voteAll _ w d a => some { (F.withPD d).withPA a with m := w, ty := 1 }
  | .voteBallot _ w d a => some { F.withPA a with d := d, m := w, ty := 2 }
  | .voteEq _ w d a => some { (F.withPD d).withA a with m := w, ty := 3 }
  | .voteCnt _ w d a => some { F.withPA a with d := d, m := w, ty := 4 }
  | .shflPick _ w d a b c => some { ((F.withA a).withC c).withS b with d := d, m := w }
  | .shflFwd _ w d a b c => some { ((F.withA a).withC c).withS b with d := d, m := w, ty := 1 }
  | .shflBack _ w d a b c => some { ((F.withA a).withC c).withS b with d := d, m := w, ty := 2 }
  | .shflFlip _ w d a b c => some { ((F.withA a).withC c).withS b with d := d, m := w, ty := 3 }
  | .shflRot _ w d a b c => some { ((F.withA a).withC c).withS b with d := d, m := w, ty := 4 }
  | .redux _ op t d a => some { (F.withA a).withT t with d := d, var := op.code }
  | .bmaskSelf _ d => some { F with d := d }
  | .bmaskPre _ w d => some { F with d := d, m := w, ty := 1 }
  | .bmaskPost _ w d => some { F with d := d, m := w, ty := 2 }
  | .bmaskSeg _ w d => some { F with d := d, m := w, ty := 3 }
  | .bmaskGrp _ d => some { F with d := d, ty := 4 }
  | .bmaskSpan _ d b => some { F.withS b with d := d, ty := 5 }
  | .grow _ d n => some { F.withPD d with imm := n }
  | .growTry _ d n => some { F.withPD d with imm := n, ty := 1 }
  | .shrink _ n => some { F with imm := n }
  | .gets _ w d num => some { F with d := d, a := num, ty := if w then 1 else 0 }
  | .sets _ num a => some { F.withA a with d := num }
  | .plogAnd _ d a b => some { (F.withPD d).withPA a with b := b.setWidth 8 }
  | .plogOr _ d a b => some { (F.withPD d).withPA a with b := b.setWidth 8, ty := 1 }
  | .plogXor _ d a b => some { (F.withPD d).withPA a with b := b.setWidth 8, ty := 2 }
  | .plogAndn _ d a b => some { (F.withPD d).withPA a with b := b.setWidth 8, ty := 3 }
  | .plogOrn _ d a b => some { (F.withPD d).withPA a with b := b.setWidth 8, ty := 4 }
  | .plogNot _ d a => some { (F.withPD d).withPA a with ty := 5 }
  | .plogSet _ d v => some { F.withPD d with ty := 6, imm := (bit1 v).setWidth 32 }
  -- Table 9.1
  | .mov _ t d b => some (((F.withT t).withD d).withS b)
  | .add _ t sat d a b | .sub _ t sat d a b | .mul _ t sat d a b =>
    some { (((F.withT t).withD d).withA a).withS b with var := (bit1 sat).setWidth 4 }
  | .mad _ t d a b c => some ((((F.withT t).withD d).withA a).withC c |>.withS b)
  | .madWide _ t d a b c => some { ((((F.withT t).withD d).withA a).withC c).withS b with var := 1 }
  | .mulhi _ t d a b | .div _ t d a b | .rem _ t d a b | .and _ t d a b | .or _ t d a b | .xor _ t d a b
  | .shfShl _ t d a b | .min _ t d a b | .max _ t d a b | .bfe _ t d a b =>
    some ((((F.withT t).withD d).withA a).withS b)
  | .shfShr _ t d a b => some { (((F.withT t).withD d).withA a).withS b with var := 1 }
  | .shfRotl _ t d a b => some { (((F.withT t).withD d).withA a).withS b with var := 2 }
  | .shfRotr _ t d a b => some { (((F.withT t).withD d).withA a).withS b with var := 3 }
  | .cmp _ rel t d a b => some { (((F.withT t).withPD d).withA a).withS b with var := rel.code }
  | .sel _ t d a b c => some { (((F.withT t).withD d).withA a).withS b with c := c.setWidth 8 }
  | .abs _ t sat d a => some { ((F.withT t).withD d).withA a with var := (bit1 sat).setWidth 4 }
  | .bitcPopc _ t d a => some (((F.withT t).withD d).withA a)
  | .bitcClz _ t d a => some { ((F.withT t).withD d).withA a with var := 1 }
  | .bitcCtz _ t d a => some { ((F.withT t).withD d).withA a with var := 2 }
  | .bitcBrev _ t d a => some { ((F.withT t).withD d).withA a with var := 3 }
  | .bfi _ t d a b c => some ((((F.withT t).withD d).withA a).withC c |>.withS b)
  | .lea _ t d a b sh => some { (((F.withT t).withD d).withA a).withS b with m := sh }
  -- Table 9.3
  | .fadd _ rm t d a b | .fsub _ rm t d a b | .fmul _ rm t d a b | .fdiv _ rm t d a b =>
    some { (((F.withT t).withD d).withA a).withS b with var := rm.code }
  | .ffma _ rm t d a b c => some { ((((F.withT t).withD d).withA a).withC c).withS b with var := rm.code }
  | .fmin _ t d a b | .fmax _ t d a b => some ((((F.withT t).withD d).withA a).withS b)
  | .fcmp _ rel t d a b => some { (((F.withT t).withPD d).withA a).withS b with var := rel.code }
  | .fsgnNeg _ t d a => some (((F.withT t).withD d).withA a)
  | .fsgnAbs _ t d a => some { ((F.withT t).withD d).withA a with var := 1 }
  | .fsgnCopy _ t d a b => some { (((F.withT t).withD d).withA a).withS b with var := 2 }
  | .fsgnXor _ t d a b => some { (((F.withT t).withD d).withA a).withS b with var := 3 }
  | .fsqrt _ rm t d a | .frnd _ rm t d a => some { ((F.withT t).withD d).withA a with var := rm.code }
  | .frcp _ d a | .frsq _ d a | .fexp2 _ d a | .flog2 _ d a | .fsin _ d a | .fcos _ d a =>
    some (((F.withT .f32).withD d).withA a)
  | .fclass _ t d a => some (((F.withT t).withD d).withA a)
  -- R183 and R185
  | .cvt _ dt sty rm sat d a =>
    some { ((F.withT dt).withD d).withA a with var := bit1 false ++ bit1 sat ++ rm.code.setWidth 2, m := sty.code }
  | .cvtPacked _ dt rm sat d a b =>
    some { (((F.withT dt).withD d).withA a).withS b with
      var := bit1 false ++ bit1 sat ++ rm.code.setWidth 2, m := Ty.code .f32 }
  | .cvtSlot _ dt sty slot d a => some { ((F.withT dt).withD d).withA a with var := 8, m := sty.code, sc := slot }
  | .cvtn _ t slot d a c => some { ((F.withT t).withD d).withC c with a := a, sc := slot }
  | .cvtw _ t slot d a c => some { ((F.withT t).withA a).withC c with d := d, sc := slot }
  -- Table 11.5
  | .ld _ cnt t s pol d a off =>
    some { (F.withT t).withA a with d := d, var := cnt.code, sc := s.code, m := pol.code, imm := off }
  | .st _ cnt t s pol a b off =>
    some { ((F.withT t).withA a).withB b with var := cnt.code, sc := s.code, m := pol.code, imm := off }
  | .ldk _ cnt t s d a off =>
    some { F.withT t with d := d, bsd := true, a := a, bsa := true, var := cnt.code, sc := s.code, imm := off }
  | .pref _ s a off | .cflush _ s a off | .cinv _ s a off => some { F.withA a with sc := s.code, imm := off }
  | .cflushInv _ s a off => some { F.withA a with ty := 1, sc := s.code, imm := off }
  -- Table 12.2
  | .cpy _ a b c loc => some { ((F.withA a).withB b).withC c with imm := loc }
  | .cpseal _ => some F
  | .cpwait _ n => some { F with imm := n.setWidth 32 }
  | .stage _ n | .xgate _ n => some { F with imm := n.setWidth 32 }
  | .bulk _ a b => some { F.withS b with a := a, bsa := true }
  | .outst _ d => some { F with d := d }
  | .arrive _ s a b off => some { (F.withA a).withB b with sc := s.code, imm := off }
  | .arriveAnn _ s a b c off => some { ((F.withA a).withB b).withC c with ty := 1, sc := s.code, imm := off }
  | .await _ s d a b off => some { (F.withA a).withB b with d := d, sc := s.code, imm := off }
  | .xfer _ a b c loc => some { F with a := a, b := b, c := c, imm := loc }
  | .xfer2d _ a b c loc => some { F with a := a, b := b, c := c, imm := loc, ty := 1 }
  | .xslide _ a b c loc => some { F with a := a, b := b, c := c, imm := loc }
  | .xbump _ d b => some { F.withS b with d := d }
  | .xbumpRing _ d a b => some { F.withS b with d := d, a := a, ty := 1 }
  -- R286 to R289, R294
  | .fence _ s => some { F with sc := s.code }
  | .fencex _ s n => some { F with sc := s.code, imm := n.setWidth 32 }
  | .barGang _ => some F
  | .barBlk _ n => some { F with ty := 1, imm := n.setWidth 32 }
  | .barBlkArv _ n => some { F with ty := 2, imm := n.setWidth 32 }
  | .barEns _ n => some { F with ty := 3, imm := n.setWidth 32 }
  | .barEnsArv _ n => some { F with ty := 4, imm := n.setWidth 32 }
  | .barCoop _ n => some { F with ty := 5, imm := n.setWidth 32 }
  | .atom _ op t ord sc ms s d a b off =>
    some { (((F.withT t).withD d).withA a).withB b with
      var := op.code, m := atomMod ms sc ord, sc := s.code, imm := off }
  | .atomCas _ t ord sc ms s d a b c off =>
    some { ((((F.withT t).withD d).withA a).withB b).withC c with
      var := 7, m := atomMod ms sc ord, sc := s.code, imm := off }
  | .red _ op t rel sc ms s a b off =>
    some { ((F.withT t).withA a).withB b with
      var := op.code, m := atomMod ms sc (if rel then .rel else .relaxed), sc := s.code, imm := off }
  | .waita _ cond t s d a b c off =>
    some { (((F.withT t).withA a).withB b).withC c with d := d, var := cond.code, sc := s.code, imm := off }
  -- Table 15.8
  | .cbind _ d h b c => some { ((F.withPA h).withB b).withC c with d := d }
  | .csend _ s h b kind => some { (F.withPA h).withB b with sc := s.code, imm := kind.setWidth 32 }
  | .crecv _ s d h | .ctry _ s d h => some { F.withPA h with d := d, sc := s.code }
  | .cdeleg _ h b => some ((F.withPA h).withB b)
  | .cstateHome _ d h => some { F.withPA h with d := d }
  | .cstateRole _ d h => some { F.withPA h with d := d, ty := 1 }
  | .cclose _ h => some (F.withPA h)
  | .cload _ d a b c => some { ((F.withA a).withB b).withC c with d := d }
  -- Table 10.5
  | .mzero _ d | .mma _ d => some { F with d := d.setWidth 8 }
  | .mlda _ n a b c off | .mldb _ n a b c off | .mgath _ n a b c off | .mconv _ n a b c off =>
    some { F with a := a, b := b, c := c, sc := n, imm := off }
  | .mldbLong _ n a b c off => some { F with a := a, b := b, c := c, sc := n, imm := off, ty := 1 }
  | .maccl _ d a b off => some { F with d := d.setWidth 8, a := a, b := b, imm := off }
  | .mdrainF32 _ n d a b c off =>
    some { F with d := d.setWidth 8, a := a, b := b, c := c, sc := n, imm := off }
  | .mdrainI32 _ n d a b c off =>
    some { F with d := d.setWidth 8, a := a, b := b, c := c, sc := n, imm := off, ty := 1 }
  -- R97 to R99
  | .launch _ d a off | .cancel _ d a off => some { F.withA a with d := d, imm := off }
  | .gsigArr _ a b off => some { (F.withA a).withB b with imm := off }
  | .gsigAnn _ a b off => some { (F.withA a).withB b with imm := off, ty := 1 }
  | .gsigSeal _ a off => some { F.withA a with imm := off, ty := 2 }
  -- Table 16.10
  | .sys _ n | .hcall _ n => some { F with imm := n.setWidth 32 }
  | .sret _ | .hret _ => some F
  | .mfs _ d num => some { F with d := d, a := num }
  | .mts _ num a => some { F.withA a with d := num }
  | .mtsGhold _ a => some { F.withA a with d := gholdNumber }
  | .tlbinvAll _ => some F
  | .tlbinvAsid _ a => some { F.withA a with ty := 1 }
  | .tlbinvPage _ a b => some { (F.withA a).withB b with ty := 2 }
  | .tlbinvVmid _ a => some { F.withA a with ty := 3 }
  | .fresume _ d a | .fkillTok _ d a | .tokwait _ d a | .ctxsave _ d a => some { F.withA a with d := d }
  | .fkillGang _ d a => some { F.withA a with d := d, ty := 1 }
  | .ctxload _ d a b => some { (F.withA a).withB b with d := d }
  -- R117 to R119
  | .walkres _ d a => some { F with d := d, a := a }
  | .walkresSkip _ d a => some { F with d := d, a := a, ty := 1 }
  | .tmove _ d a b n => some { F with d := d, a := a, b := b, imm := n }
  | .treplAdd _ d a b c n => some { F with d := d, a := a, b := b, c := c, imm := n }
  | .treplDrop _ d a n => some { F with d := d, a := a, ty := 1, imm := n.setWidth 32 }
  -- device events
  | .powerUpReset | .inputUndervoltage | .bootGo _ | .imageVerified | .firmwareStageComplete _ _ _ | .pcieHotReset
  | .mailboxStore _ | .attestationReport | .temperatureSample _ _ | .layerVoltageSample _ _ _ _ | .midRailSample _ _ _
  | .processMonitorSample _ _ | .droopRestoreStep _ | .selfTestSlot _ | .selfTestSlotEnd _ _ | .scrubPass _ _
  | .hostMemoryAccess _ _ _ _ _ | .registerWrite _ _ | .doorbell _ _ | .queueTailPoll _ _ | .launchAccept _ _
  | .graphStartAccept _ _ | .recordComplete _ | .heldWriteRetry | .seal _ _ | .graphNodeLaunch _ _
  | .graphNodeCopy _ _ | .graphNodeConditional _ _ | .graphNodeLoop _ _ | .graphNodeWait _ _ | .graphNodeSignal _ _
  | .cancelGraceExpiry _ | .walkRecordRead _ _ | .deferredNotify _ _ | .blockCreate _ _ | .blockPlace _ _ _
  | .ensemblePlace _ _ | .preferenceRebuild _ _ | .clusterGate _ | .clusterWake _ | .moveCommit _
  | .replicaAddCommit _ | .migrationAbort _ | .instructionRefetch _ _ | .translationWalkDone _ | .copyPacketPerformed _
  | .copyFault _ | .combineTimeout _ _ | .remoteRequest _ _ _ _ _ _ | .remoteReply _ _ | .nackResend _
  | .routeTimeout _ | .flitCrcFail _ | .linkRetrain _ _ | .monitorEvaluate _ | .monitorPoll _ | .waitaTimeout _ _
  | .sendJudge _ | .creditReturn _ _ | .messageDelivery _ _ | .entryReturn _ _ | .deliveryStall _ _
  | .deliveryResume _ _ | .faultOverflowPost _ | .parkedResume _ _ | .blockEvict _ | .contextSaveComplete _
  | .saveGraceExpiry _ | .blockRetire _ | .sequencerExit _ _ | .singleFault _ _ => none

/-! Reading a form from the fields: by OP, then SUB. A value read from fields that the form does not use is not the
form's word, which `decodeFields` refuses. -/

/-- Forms of OP 0x00 to 0x13 (Table 8.4, R137, R138, R192, R194). -/
def readControl (f : Fields) (n : Nat) : Option Instr :=
  match n, f.ty.toNat with
  | 0x00, 0 => some (.nop f.rg)
  | 0x01, 0 => some (.bra f.rg f.imm)
  | 0x02, 0 => some (.brx f.rg f.ra)
  | 0x03, 0 => some (.call f.rg f.d f.imm)
  | 0x04, 0 => some (.callx f.rg f.d f.ra)
  | 0x05, 0 => some (.ret f.rg f.ra)
  | 0x06, 0 => some (.reconvImm f.rg f.imm)
  | 0x06, 1 => some (.reconvReg f.rg f.ra)
  | 0x07, 0 => some (.exit f.rg)
  | 0x08, 0 => some (.fork f.rg f.d (f.imm.getLsbD 0) (f.imm.getLsbD 1) (f.imm.extractLsb' 16 16))
  | 0x09, 0 => some (.rdv f.rg (f.imm.setWidth 4))
  | 0x0A, 0 => some (.voteAny f.rg f.m f.pd f.pa)
  | 0x0A, 1 => some (.voteAll f.rg f.m f.pd f.pa)
  | 0x0A, 2 => some (.voteBallot f.rg f.m f.d f.pa)
  | 0x0A, 3 => some (.voteEq f.rg f.m f.pd f.ra)
  | 0x0A, 4 => some (.voteCnt f.rg f.m f.d f.pa)
  | 0x0B, 0 => some (.shflPick f.rg f.m f.d f.ra f.rs f.rc)
  | 0x0B, 1 => some (.shflFwd f.rg f.m f.d f.ra f.rs f.rc)
  | 0x0B, 2 => some (.shflBack f.rg f.m f.d f.ra f.rs f.rc)
  | 0x0B, 3 => some (.shflFlip f.rg f.m f.d f.ra f.rs f.rc)
  | 0x0B, 4 => some (.shflRot f.rg f.m f.d f.ra f.rs f.rc)
  | 0x0D, 0 => some (.bmaskSelf f.rg f.d)
  | 0x0D, 1 => some (.bmaskPre f.rg f.m f.d)
  | 0x0D, 2 => some (.bmaskPost f.rg f.m f.d)
  | 0x0D, 3 => some (.bmaskSeg f.rg f.m f.d)
  | 0x0D, 4 => some (.bmaskGrp f.rg f.d)
  | 0x0D, 5 => some (.bmaskSpan f.rg f.d f.rs)
  | 0x0E, 0 => some (.grow f.rg f.pd f.imm)
  | 0x0E, 1 => some (.growTry f.rg f.pd f.imm)
  | 0x0F, 0 => some (.shrink f.rg f.imm)
  | 0x10, 0 => some (.gets f.rg false f.d f.a)
  | 0x10, 1 => some (.gets f.rg true f.d f.a)
  | 0x11, 0 => some (.sets f.rg f.d f.ra)
  | 0x12, 0 => some (.plogAnd f.rg f.pd f.pa (f.b.setWidth 3))
  | 0x12, 1 => some (.plogOr f.rg f.pd f.pa (f.b.setWidth 3))
  | 0x12, 2 => some (.plogXor f.rg f.pd f.pa (f.b.setWidth 3))
  | 0x12, 3 => some (.plogAndn f.rg f.pd f.pa (f.b.setWidth 3))
  | 0x12, 4 => some (.plogOrn f.rg f.pd f.pa (f.b.setWidth 3))
  | 0x12, 5 => some (.plogNot f.rg f.pd f.pa)
  | 0x12, 6 => some (.plogSet f.rg f.pd (f.imm.getLsbD 0))
  | 0x13, 0 => some (.isync f.rg)
  | _, _ => none

/-- Integer and address forms of type `t`: OP 0x20 to 0x34 (Table 9.1). -/
def readInteger (f : Fields) (n : Nat) (t : Ty) : Option Instr :=
  match n, f.var.toNat with
  | 0x20, 0 => some (.mov f.rg t f.rd f.rs)
  | 0x21, 0 => some (.add f.rg t false f.rd f.ra f.rs)
  | 0x21, 1 => some (.add f.rg t true f.rd f.ra f.rs)
  | 0x22, 0 => some (.sub f.rg t false f.rd f.ra f.rs)
  | 0x22, 1 => some (.sub f.rg t true f.rd f.ra f.rs)
  | 0x23, 0 => some (.mul f.rg t false f.rd f.ra f.rs)
  | 0x23, 1 => some (.mul f.rg t true f.rd f.ra f.rs)
  | 0x24, 0 => some (.mad f.rg t f.rd f.ra f.rs f.rc)
  | 0x24, 1 => some (.madWide f.rg t f.rd f.ra f.rs f.rc)
  | 0x25, 0 => some (.mulhi f.rg t f.rd f.ra f.rs)
  | 0x26, 0 => some (.div f.rg t f.rd f.ra f.rs)
  | 0x27, 0 => some (.rem f.rg t f.rd f.ra f.rs)
  | 0x28, 0 => some (.and f.rg t f.rd f.ra f.rs)
  | 0x29, 0 => some (.or f.rg t f.rd f.ra f.rs)
  | 0x2A, 0 => some (.xor f.rg t f.rd f.ra f.rs)
  | 0x2B, 0 => some (.shfShl f.rg t f.rd f.ra f.rs)
  | 0x2B, 1 => some (.shfShr f.rg t f.rd f.ra f.rs)
  | 0x2B, 2 => some (.shfRotl f.rg t f.rd f.ra f.rs)
  | 0x2B, 3 => some (.shfRotr f.rg t f.rd f.ra f.rs)
  | 0x2C, _ => (Rel.ofCode f.var).map fun r => .cmp f.rg r t f.pd f.ra f.rs
  | 0x2D, 0 => some (.sel f.rg t f.rd f.ra f.rs (f.c.setWidth 3))
  | 0x2E, 0 => some (.min f.rg t f.rd f.ra f.rs)
  | 0x2F, 0 => some (.max f.rg t f.rd f.ra f.rs)
  | 0x30, 0 => some (.abs f.rg t false f.rd f.ra)
  | 0x30, 1 => some (.abs f.rg t true f.rd f.ra)
  | 0x31, 0 => some (.bitcPopc f.rg t f.rd f.ra)
  | 0x31, 1 => some (.bitcClz f.rg t f.rd f.ra)
  | 0x31, 2 => some (.bitcCtz f.rg t f.rd f.ra)
  | 0x31, 3 => some (.bitcBrev f.rg t f.rd f.ra)
  | 0x32, 0 => some (.bfe f.rg t f.rd f.ra f.rs)
  | 0x33, 0 => some (.bfi f.rg t f.rd f.ra f.rs f.rc)
  | 0x34, 0 => some (.lea f.rg t f.rd f.ra f.rs f.m)
  | _, _ => none

/-- Floating-point and conversion forms of type `t`: OP 0x50 to 0x64, and REDUX (Table 9.3, R158, R183, R185). -/
def readFloat (f : Fields) (n : Nat) (t : Ty) : Option Instr :=
  match n with
  | 0x0C => (RedOp.ofCode f.var).map fun op => .redux f.rg op t f.d f.ra
  | 0x50 => (Rm.ofCode f.var).map fun rm => .fadd f.rg rm t f.rd f.ra f.rs
  | 0x51 => (Rm.ofCode f.var).map fun rm => .fsub f.rg rm t f.rd f.ra f.rs
  | 0x52 => (Rm.ofCode f.var).map fun rm => .fmul f.rg rm t f.rd f.ra f.rs
  | 0x53 => (Rm.ofCode f.var).map fun rm => .ffma f.rg rm t f.rd f.ra f.rs f.rc
  | 0x54 => some (.fmin f.rg t f.rd f.ra f.rs)
  | 0x55 => some (.fmax f.rg t f.rd f.ra f.rs)
  | 0x56 => (FRel.ofCode f.var).map fun r => .fcmp f.rg r t f.pd f.ra f.rs
  | 0x57 =>
    match f.var.toNat with
    | 0 => some (.fsgnNeg f.rg t f.rd f.ra)
    | 1 => some (.fsgnAbs f.rg t f.rd f.ra)
    | 2 => some (.fsgnCopy f.rg t f.rd f.ra f.rs)
    | 3 => some (.fsgnXor f.rg t f.rd f.ra f.rs)
    | _ => none
  | 0x58 => (Rm.ofCode f.var).map fun rm => .fdiv f.rg rm t f.rd f.ra f.rs
  | 0x59 => (Rm.ofCode f.var).map fun rm => .fsqrt f.rg rm t f.rd f.ra
  | 0x5A => some (.frcp f.rg f.rd f.ra)
  | 0x5B => some (.frsq f.rg f.rd f.ra)
  | 0x5C => some (.fexp2 f.rg f.rd f.ra)
  | 0x5D => some (.flog2 f.rg f.rd f.ra)
  | 0x5E => some (.fsin f.rg f.rd f.ra)
  | 0x5F => some (.fcos f.rg f.rd f.ra)
  | 0x60 => some (.fclass f.rg t f.rd f.ra)
  | 0x61 => (Rm.ofCode f.var).map fun rm => .frnd f.rg rm t f.rd f.ra
  | 0x62 =>
    if f.var.getLsbD 3 then (Ty.ofCode f.m).map fun sty => .cvtSlot f.rg t sty f.sc f.rd f.ra
    else
      match Rm.ofCode (f.var &&& 3), t.packed with
      | some rm, true => some (.cvtPacked f.rg t rm (f.var.getLsbD 2) f.rd f.ra f.rs)
      | some rm, false => (Ty.ofCode f.m).map fun sty => .cvt f.rg t sty rm (f.var.getLsbD 2) f.rd f.ra
      | none, _ => none
  | 0x63 => some (.cvtn f.rg t f.sc f.rd f.a f.rc)
  | 0x64 => some (.cvtw f.rg t f.sc f.d f.ra f.rc)
  | _ => none

/-- Memory and atomic forms of type `t`: OP 0x80 to 0x82, 0xA3 to 0xA5 (Table 11.5, R289, R294). -/
def readTyped (f : Fields) (n : Nat) (t : Ty) (s : Scope) : Option Instr :=
  match n with
  | 0x80 => (Count.ofCode f.var).bind fun c => (Policy.ofCode f.m).map fun p => .ld f.rg c t s p f.d f.ra f.imm
  | 0x81 => (Count.ofCode f.var).bind fun c => (Policy.ofCode f.m).map fun p => .st f.rg c t s p f.ra f.rb f.imm
  | 0x82 => (Count.ofCode f.var).map fun c => .ldk f.rg c t s f.d f.a f.imm
  | 0xA3 =>
    if f.var = 7 then
      some (.atomCas f.rg t (Order.ofCode (f.m.setWidth 2)) (f.m.getLsbD 2) (f.m.getLsbD 3) s f.rd f.ra f.rb f.rc f.imm)
    else
      (AtomOp.ofCode f.var).map fun op =>
        .atom f.rg op t (Order.ofCode (f.m.setWidth 2)) (f.m.getLsbD 2) (f.m.getLsbD 3) s f.rd f.ra f.rb f.imm
  | 0xA4 =>
    (AtomOp.ofCode f.var).map fun op =>
      .red f.rg op t (f.m.getLsbD 1) (f.m.getLsbD 2) (f.m.getLsbD 3) s f.ra f.rb f.imm
  | 0xA5 => (WCond.ofCode f.var).map fun c => .waita f.rg c t s f.d f.ra f.rb f.rc f.imm
  | _ => none

/-- Forms with a scope and no type: OP 0x83 to 0x85, 0x96, 0x97, 0xA0, 0xA1, 0xB1 to 0xB3. -/
def readScoped (f : Fields) (n : Nat) (s : Scope) : Option Instr :=
  match n, f.ty.toNat with
  | 0x83, 0 => some (.pref f.rg s f.ra f.imm)
  | 0x84, 0 => some (.cflush f.rg s f.ra f.imm)
  | 0x84, 1 => some (.cflushInv f.rg s f.ra f.imm)
  | 0x85, 0 => some (.cinv f.rg s f.ra f.imm)
  | 0x96, 0 => some (.arrive f.rg s f.ra f.rb f.imm)
  | 0x96, 1 => some (.arriveAnn f.rg s f.ra f.rb f.rc f.imm)
  | 0x97, 0 => some (.await f.rg s f.d f.ra f.rb f.imm)
  | 0xA0, 0 => some (.fence f.rg s)
  | 0xA1, 0 => some (.fencex f.rg s (f.imm.setWidth 5))
  | 0xB1, 0 => some (.csend f.rg s f.pa f.rb (f.imm.setWidth 8))
  | 0xB2, 0 => some (.crecv f.rg s f.d f.pa)
  | 0xB3, 0 => some (.ctry f.rg s f.d f.pa)
  | _, _ => none

/-- Copy, barrier, conversation and matrix forms with neither type nor scope (Tables 12.2, 15.8, 10.5, R286). -/
def readUnits (f : Fields) (n : Nat) : Option Instr :=
  match n, f.ty.toNat with
  | 0x90, 0 => some (.cpy f.rg f.ra f.rb f.rc f.imm)
  | 0x91, 0 => some (.cpseal f.rg)
  | 0x92, 0 => some (.cpwait f.rg (f.imm.setWidth 4))
  | 0x93, 0 => some (.stage f.rg (f.imm.setWidth 8))
  | 0x94, 0 => some (.bulk f.rg f.a f.rs)
  | 0x95, 0 => some (.outst f.rg f.d)
  | 0x98, 0 => some (.xfer f.rg f.a f.b f.c f.imm)
  | 0x98, 1 => some (.xfer2d f.rg f.a f.b f.c f.imm)
  | 0x99, 0 => some (.xslide f.rg f.a f.b f.c f.imm)
  | 0x9A, 0 => some (.xgate f.rg (f.imm.setWidth 8))
  | 0x9B, 0 => some (.xbump f.rg f.d f.rs)
  | 0x9B, 1 => some (.xbumpRing f.rg f.d f.a f.rs)
  | 0xA2, 0 => some (.barGang f.rg)
  | 0xA2, 1 => some (.barBlk f.rg (f.imm.setWidth 4))
  | 0xA2, 2 => some (.barBlkArv f.rg (f.imm.setWidth 4))
  | 0xA2, 3 => some (.barEns f.rg (f.imm.setWidth 4))
  | 0xA2, 4 => some (.barEnsArv f.rg (f.imm.setWidth 4))
  | 0xA2, 5 => some (.barCoop f.rg (f.imm.setWidth 4))
  | 0xB0, 0 => some (.cbind f.rg f.d f.pa f.rb f.rc)
  | 0xB4, 0 => some (.cdeleg f.rg f.pa f.rb)
  | 0xB5, 0 => some (.cstateHome f.rg f.d f.pa)
  | 0xB5, 1 => some (.cstateRole f.rg f.d f.pa)
  | 0xB6, 0 => some (.cclose f.rg f.pa)
  | 0xB7, 0 => some (.cload f.rg f.d f.ra f.rb f.rc)
  | 0xC0, 0 => some (.mzero f.rg (f.d.setWidth 2))
  | 0xC1, 0 => some (.mlda f.rg f.sc f.a f.b f.c f.imm)
  | 0xC2, 0 => some (.mldb f.rg f.sc f.a f.b f.c f.imm)
  | 0xC2, 1 => some (.mldbLong f.rg f.sc f.a f.b f.c f.imm)
  | 0xC3, 0 => some (.mgath f.rg f.sc f.a f.b f.c f.imm)
  | 0xC4, 0 => some (.mconv f.rg f.sc f.a f.b f.c f.imm)
  | 0xC5, 0 => some (.mma f.rg (f.d.setWidth 2))
  | 0xC6, 0 => some (.maccl f.rg (f.d.setWidth 2) f.a f.b f.imm)
  | 0xC7, 0 => some (.mdrainF32 f.rg f.sc (f.d.setWidth 2) f.a f.b f.c f.imm)
  | 0xC7, 1 => some (.mdrainI32 f.rg f.sc (f.d.setWidth 2) f.a f.b f.c f.imm)
  | _, _ => none

/-- Launch and system forms: OP 0xD0 to 0xEE (R97 to R99, R117 to R119, Table 16.10). -/
def readSystem (f : Fields) (n : Nat) : Option Instr :=
  match n, f.ty.toNat with
  | 0xD0, 0 => some (.launch f.rg f.d f.ra f.imm)
  | 0xD1, 0 => some (.gsigArr f.rg f.ra f.rb f.imm)
  | 0xD1, 1 => some (.gsigAnn f.rg f.ra f.rb f.imm)
  | 0xD1, 2 => some (.gsigSeal f.rg f.ra f.imm)
  | 0xD2, 0 => some (.cancel f.rg f.d f.ra f.imm)
  | 0xE0, 0 => some (.sys f.rg (f.imm.setWidth 16))
  | 0xE1, 0 => some (.sret f.rg)
  | 0xE2, 0 => some (.hcall f.rg (f.imm.setWidth 16))
  | 0xE3, 0 => some (.hret f.rg)
  | 0xE4, 0 => some (.mfs f.rg f.d f.a)
  | 0xE5, 0 => if f.d = gholdNumber then some (.mtsGhold f.rg f.ra) else some (.mts f.rg f.d f.ra)
  | 0xE6, 0 => some (.tlbinvAll f.rg)
  | 0xE6, 1 => some (.tlbinvAsid f.rg f.ra)
  | 0xE6, 2 => some (.tlbinvPage f.rg f.ra f.rb)
  | 0xE6, 3 => some (.tlbinvVmid f.rg f.ra)
  | 0xE7, 0 => some (.fresume f.rg f.d f.ra)
  | 0xE8, 0 => some (.fkillTok f.rg f.d f.ra)
  | 0xE8, 1 => some (.fkillGang f.rg f.d f.ra)
  | 0xE9, 0 => some (.tokwait f.rg f.d f.ra)
  | 0xEA, 0 => some (.ctxsave f.rg f.d f.ra)
  | 0xEB, 0 => some (.ctxload f.rg f.d f.ra f.rb)
  | 0xEC, 0 => some (.walkres f.rg f.d f.a)
  | 0xEC, 1 => some (.walkresSkip f.rg f.d f.a)
  | 0xED, 0 => some (.tmove f.rg f.d f.a f.b f.imm)
  | 0xEE, 0 => some (.treplAdd f.rg f.d f.a f.b f.c f.imm)
  | 0xEE, 1 => some (.treplDrop f.rg f.d f.a (f.imm.setWidth 4))
  | _, _ => none

/-- The form that OP and SUB name, its operands taken from the fields; none where SUB is not listed (R129). -/
def readForm (f : Fields) : Option Instr :=
  let n := f.op.toNat
  if n < 0x20 then
    if n = 0x0C then (Ty.ofCode f.ty).bind (readFloat f n) else readControl f n
  else if n < 0x50 then (Ty.ofCode f.ty).bind (readInteger f n)
  else if n < 0x80 then (Ty.ofCode f.ty).bind (readFloat f n)
  else if n ∈ [0x80, 0x81, 0x82, 0xA3, 0xA4, 0xA5] then
    (Ty.ofCode f.ty).bind fun t => (Scope.ofCode f.sc).bind (readTyped f n t)
  else if n ∈ [0x83, 0x84, 0x85, 0x96, 0x97, 0xA0, 0xA1, 0xB1, 0xB2, 0xB3] then
    (Scope.ofCode f.sc).bind (readScoped f n)
  else if n < 0xD0 then readUnits f n
  else readSystem f n

/-- Why a word is not an instruction of an engine: rows 1 to 3 of Table 7.9. Each raises cause 0x01. -/
inductive DecodeError where
  /-- Row 1: the OP is unassigned or reserved. -/
  | opUnassigned
  /-- Row 1: the OP is not executed by the line's engine. -/
  | notThisEngine
  /-- Row 2: SUB is not listed for the OP, or the SCOPE, policy or order is reserved. -/
  | subNotListed
  /-- Row 3: a field that the form does not use is nonzero. -/
  | fieldNonzero
  /-- Rows 2 and 3: a register field outside Table 7.7, an odd pair, a type or a value that the entry does not admit. -/
  | operandOutOfRange
  deriving DecidableEq, Repr

/-- Decoding from the fields, with the checks of rows 1 to 3 of Table 7.9 in their order. -/
def decodeFields (e : Engine) (f : Fields) : Except DecodeError Instr :=
  match opEngines f.op.toNat with
  | [] => .error .opUnassigned
  | es =>
    if !es.contains e then .error .notThisEngine
    else
      match readForm f with
      | none => .error .subNotListed
      | some i =>
        if i.fields ≠ some f then .error .fieldNonzero
        else if i.wf e then .ok i else .error .operandOutOfRange

/-- Decoding a 96-bit instruction from a line of an engine's kind (R132). -/
def decode (e : Engine) (w : IWord) : Except DecodeError Instr := decodeFields e w.fields

/-- The 96-bit word of an instruction; device events have none. -/
def encode (i : Instr) : Option IWord := i.fields.map Fields.word

/-- The instruction that the engines' decoders read from a word, in the order thread, matrix sequencer, copy sequencer:
an OP of Table 7.10 that several engines execute is read as a thread's. -/
def decodeAny (w : IWord) : Option (Engine × Instr) :=
  match decode .thread w with
  | .ok i => some (.thread, i)
  | .error _ =>
    match decode .matrix w with
    | .ok i => some (.matrix, i)
    | .error _ =>
      match decode .copy w with
      | .ok i => some (.copy, i)
      | .error _ => none

/-- The instruction whose bits are `w` (bit 0 the least significant bit of the first byte). Every instruction has 96
bits (R127); the opcode table gives its rows none. -/
def decodeTableWord (nbits w : Nat) : Option Instr :=
  (decodeAny (BitVec.ofNat 96 (w % 2 ^ nbits))).map (·.2)

end Sys2Proof
end

