-- ==== Sys2Proof/Machine/Events.lean ====
section
/-! DEFINITION. The internal events of the device that may happen next in a state: those whose effect is one, of the parts of
the device that have work. What the environment decides (samples, faults, links, the host, Bellows' rebuilds) comes as an
input instead. -/

namespace Sys2Proof.Machine

/-- The effect of an event. -/
abbrev Effect := State → Host.Outcome State Fault Refusal

/-- An event, if it changes the state. -/
def State.offer (s : State) (i : Instr) (f : Effect) : List Instr :=
  match f s with
  | .next t => if t = s then [] else [i]
  | .fault _ | .refused _ => []

/-- Events of the queues of a context (R88, R89, R94). -/
def State.queueEvents (s : State) (c : Nat) : List Instr :=
  ((List.range 64).map fun q =>
    s.offer (.queueTailPoll c q) (execQueueTailPoll c q) ++ s.offer (.launchAccept c q) (execLaunchAccept c q) ++
      s.offer (.graphStartAccept c q) (execGraphStartAccept c q)).flatten

/-- The event of a node of a graph, by its kind (Table 5.6); a node of a reserved kind has the first. -/
def State.nodeEvents (s : State) (g i kind : Nat) : List Instr :=
  if kind = 2 then s.offer (.graphNodeCopy g i) (execGraphNodeCopy g i)
  else if kind = 3 then s.offer (.graphNodeConditional g i) (execGraphNodeConditional g i)
  else if kind = 4 then s.offer (.graphNodeLoop g i) (execGraphNodeLoop g i)
  else if kind = 5 then s.offer (.graphNodeWait g i) (execGraphNodeWait g i)
  else if kind = 6 then s.offer (.graphNodeSignal g i) (execGraphNodeSignal g i)
  else s.offer (.graphNodeLaunch g i) (execGraphNodeLaunch g i)

/-- Events of a graph: its nodes that may run or run. -/
def State.graphEvents (s : State) (id : Nat) (g : Graph) : List Instr :=
  ((g.ready ++ g.running).map fun i => s.nodeEvents id i (((g.recs[i]?).map ndKind).getD 0)).flatten

/-- Events of a launch: its walk, its streams and its ensembles, and the end of its GRACE. -/
def State.launchEvents (s : State) (tag : Nat) (L : Launch) : List Instr :=
  let window := (List.range (if L.walk == .complete then 0 else 16)).map (L.cursor + ·)
  let reads := window ++ (L.deferred.filter (·.ready)).map (·.index)
  (reads.map fun i => s.offer (.walkRecordRead tag i) (execWalkRecordRead tag i)).flatten ++
    ((L.deferred.filter (·.noticed)).map fun e => s.offer (.deferredNotify tag e.index) (execDeferredNotify tag e.index)).flatten ++
    (L.streams.map fun (x : Nat × List Routed) => s.offer (.blockCreate tag x.1) (execBlockCreate tag x.1)).flatten ++
    (L.cells.map fun (c : Nat × Cell) =>
      if c.2.waits then s.offer (.ensemblePlace tag c.1) (execEnsemblePlace tag c.1) else []).flatten ++
    if L.graceEnd.isSome then s.offer (.cancelGraceExpiry tag) (execCancelGraceExpiry tag) else []

/-- Events of a die: a dispatch (R109), fault records in its overflow, a save or load under way. -/
def State.dieEvents (s : State) : List Instr :=
  (s.dieCtx.map fun (d : Nat × Nat) =>
    match s.placeChoice d.1 with
    | some (t, r, _) => s.offer (.blockPlace t d.1 r.index) (execBlockPlace t d.1 r.index)
    | none => []).flatten ++
    (s.overflow.map fun (d : Nat × List Held) => s.offer (.faultOverflowPost d.1) (execFaultOverflowPost d.1)).flatten ++
    (s.saves.map fun (d : Nat × SaveJob) =>
      s.offer (.contextSaveComplete d.1) (execContextSaveComplete d.1) ++
        s.offer (.saveGraceExpiry d.1) (execSaveGraceExpiry d.1)).flatten

/-- Events of a cluster that has held a gang: its gating and its wake (R111), and Bellows' steps back down (R26). -/
def State.clusterEvents (s : State) (c : Nat) (K : Cluster) : List Instr :=
  (if K.waking then s.offer (.clusterWake c) (execClusterWake c) else s.offer (.clusterGate c) (execClusterGate c)) ++
    if K.bel ≠ 0 then
      ((List.range 16).map fun r =>
        if (regionNodes r).contains (c / 32) then s.offer (.droopRestoreStep r) (execDroopRestoreStep r) else []).flatten
    else []

/-- Events of a block: its retirement, its eviction, and its sequencers' ends. -/
def State.blockEvents (s : State) (b : Nat) (B : Block) : List Instr :=
  (if s.retires b B then [.blockRetire b] else []) ++
    (if s.evictable b B then s.offer (.blockEvict b) (execBlockEvict b) else []) ++
    [true, false].flatMap fun m =>
      if (B.seq m).exiting || (B.seq m).stop.isSome then s.offer (.sequencerExit b m) (execSequencerExit b m) else []

/-- Lines that a wait of a gang or of a sequencer of a core needs again (R135). -/
def State.refetches (s : State) : List (Nat × Nat) :=
  let ofGang := fun (g : Nat × Gang) => g.2.waits.filterMap fun w => match w.kind with
    | .refetch t => some (coreOf g.1, t)
    | .walk _ | .bar _ _ | .rdv _ | .grow _ _ | .cpwait _ | .again _ | .alone _ | .remote _ | .monitor _ _ _ _
    | .verdict _ _ _ | .home _ _ _ | .recv _ _ _ | .parked _ | .rejoin _ _ => none
  let ofSeq := fun (core : Nat) (q : Seq) => match q.wait with
    | .refetch t => [(core, t)]
    | .none | .rdv _ | .monitor _ _ | .gate | .walk _ => []
  ((s.gangs.map ofGang).flatten ++ (s.blocks.map fun b => ofSeq b.2.core b.2.mseq ++ ofSeq b.2.core b.2.cseq).flatten).dedup

/-- Parked lanes of a gang whose record may be resolved (R334). -/
def State.parkedEvents (s : State) (k : Nat) (G : Gang) : List Instr :=
  ((G.waits.mapIdx fun i w => (i, w)).filterMap fun x => match x.2.kind with
    | .parked _ => some (s.offer (.parkedResume k x.1) (execParkedResume k x.1))
    | .refetch _ | .walk _ | .bar _ _ | .rdv _ | .grow _ _ | .cpwait _ | .again _ | .alone _ | .remote _ | .monitor _ _ _ _
    | .verdict _ _ _ | .home _ _ _ | .recv _ _ _ | .rejoin _ _ => none).flatten

/-- Events of a request: its arrival, where this device is the target and no earlier access of one of its lanes to the same byte
is still to be performed (R257, R275); its return after a NACK; the end of a request that cannot be delivered. -/
def State.requestEvents (s : State) (id : Nat) (r : Request) : List Instr :=
  let dv := Config.deviceNumber.toNat
  let before := s.requests.any fun (x : Nat × Request) =>
    decide (x.2.no < r.no) && x.2.device == r.device && x.2.gang == r.gang && x.2.marks.any r.marks.contains
  (if r.device = dv && !before then
      s.offer (.remoteRequest dv r.vmid r.seq r.secure r.offset r.kind)
        (execRemoteRequest dv r.vmid r.seq r.secure r.offset r.kind)
    else []) ++
    s.offer (.nackResend id) (execNackResend id) ++
    if s.undeliverable r then s.offer (.routeTimeout id) (execRouteTimeout id) else []

/-- Events of a monitor (R293, R294). -/
def State.monitorEvents (s : State) (id : Nat) (m : Monitor) : List Instr :=
  s.offer (.monitorEvaluate id) (execMonitorEvaluate id) ++ s.offer (.monitorPoll id) (execMonitorPoll id) ++
    (m.waiters.filterMap fun w => match w.who, w.limit with
      | .lane k l, some _ => some (s.offer (.waitaTimeout k l) (execWaitaTimeout k l))
      | .lane _ _, none | .seq _ _, _ => none).flatten

/-- Events of a conversation home (R303 to R307, R311). -/
def State.homeEvents (s : State) (h : Nat) (H : Home) : List Instr :=
  s.offer (.sendJudge h) (execSendJudge h) ++
    ((List.range H.roles.length).map fun r =>
      s.offer (.creditReturn h r) (execCreditReturn h r) ++ s.offer (.messageDelivery h r) (execMessageDelivery h r) ++
        s.offer (.entryReturn h r) (execEntryReturn h r) ++ s.offer (.deliveryStall h r) (execDeliveryStall h r) ++
        s.offer (.deliveryResume h r) (execDeliveryResume h r)).flatten

/-- Events of a migration (R118, R119). -/
def State.migrationEvents (s : State) (m : Nat) : List Instr :=
  s.offer (.moveCommit m) (execMoveCommit m) ++ s.offer (.replicaAddCommit m) (execReplicaAddCommit m) ++
    s.offer (.migrationAbort m) (execMigrationAbort m)

/-- The events that the device's own parts may perform next, whichever is first. -/
def State.events (s : State) : List Instr :=
  (s.ctxs.map fun (c : Nat × Ctx) => s.queueEvents c.1).flatten ++
    (s.crecs.map fun (c : Nat × CRec) => s.offer (.recordComplete c.1) (execRecordComplete c.1)).flatten ++
    (if s.crecs.isEmpty then [] else s.offer .heldWriteRetry execHeldWriteRetry) ++
    (s.graphs.map fun (g : Nat × Graph) => s.graphEvents g.1 g.2).flatten ++
    (s.launches.map fun (l : Nat × Launch) => s.launchEvents l.1 l.2).flatten ++
    s.dieEvents ++
    (s.clusters.map fun (c : Nat × Cluster) => s.clusterEvents c.1 c.2).flatten ++
    (s.migrations.map fun (m : Nat × Migration) => s.migrationEvents m.1).flatten ++
    (s.refetches.map fun x => .instructionRefetch x.1 x.2) ++
    (s.walks.map fun (w : Nat × Walk) => .translationWalkDone w.1) ++
    (s.copies.map fun (c : Nat × Copy) =>
      s.offer (.copyPacketPerformed c.1) (execCopyPacketPerformed c.1) ++ s.offer (.copyFault c.1) (execCopyFault c.1)).flatten ++
    (s.combine.map fun (c : Nat × List Combine) => (List.range c.2.length).flatMap fun e =>
      s.offer (.combineTimeout c.1 e) (execCombineTimeout c.1 e)).flatten ++
    (s.requests.map fun (r : Nat × Request) => s.requestEvents r.1 r.2).flatten ++
    (s.monitors.map fun (m : Nat × Monitor) => s.monitorEvents m.1 m.2).flatten ++
    (s.homes.map fun (h : Nat × Home) => s.homeEvents h.1 h.2).flatten ++
    (s.gangs.map fun (g : Nat × Gang) => s.parkedEvents g.1 g.2).flatten ++
    (s.blocks.map fun (b : Nat × Block) => s.blockEvents b.1 b.2).flatten ++
    (if s.boot.length.isSome then [.imageVerified] else []) ++
    if s.boot.request.isSome then [.attestationReport] else []

end Sys2Proof.Machine
end

