-- ==== Sys2Proof/Machine/Scoreboard.lean ====
section
/-! DEFINITION. The scoreboard of a gang (R143) and pairing (R125): the registers that an instruction reads and writes, the
instructions of a gang that are in flight, and when one holds up an issue group. -/

namespace Sys2Proof.Machine

/-- Whether the first register use of an instruction is its destination. -/
def Instr.writesFirst : Instr → Bool
  | .brx _ _ | .ret _ _ | .reconvReg _ _ | .voteEq _ _ _ _ | .sets _ _ _ | .cmp _ _ _ _ _ _ | .fcmp _ _ _ _ _ _
  | .st _ _ _ _ _ _ _ _ | .pref _ _ _ _ | .cflush _ _ _ _ | .cflushInv _ _ _ _ | .cinv _ _ _ _ | .cpy _ _ _ _ _
  | .bulk _ _ _ | .arrive _ _ _ _ _ | .arriveAnn _ _ _ _ _ _ | .red _ _ _ _ _ _ _ _ _ _ | .csend _ _ _ _ _
  | .cdeleg _ _ _ | .gsigArr _ _ _ _ | .gsigAnn _ _ _ _ | .gsigSeal _ _ _ | .mts _ _ _ | .mtsGhold _ _
  | .tlbinvAsid _ _ | .tlbinvVmid _ _ | .tlbinvPage _ _ _ => false
  | _ => true

/-- The general registers that a thread instruction writes. -/
def Instr.writes (i : Instr) : List RegUse := if Instr.writesFirst i then (i.regs .thread).take 1 else []

/-- The general registers that a thread instruction reads. -/
def Instr.reads (i : Instr) : List RegUse := (i.regs .thread).drop (Instr.writes i).length

/-- Whether two uses share a register. -/
def RegUse.meets (u v : RegUse) : Bool := u.k == v.k && decide (u.n < v.n + v.count) && decide (v.n < u.n + u.count)

/-- Whether two lists of uses share a register. -/
def meet (us vs : List RegUse) : Bool := us.any fun u => vs.any (RegUse.meets u)

/-- The role register of an instruction, and whether it writes it (Table 15.5). -/
def Instr.role : Instr → Option (BitVec 3 × Bool)
  | .cbind _ _ h _ _ | .cdeleg _ h _ | .cclose _ h => some (h, true)
  | .csend _ _ h _ _ | .crecv _ _ _ h | .ctry _ _ _ h | .cstateHome _ _ h | .cstateRole _ _ h => some (h, false)
  | _ => none

/-- The access of an instruction that may reach local store: base, offset and bytes. -/
def Instr.access : Instr → Option (Reg × Word × Nat)
  | .ld _ c t _ _ _ a o | .st _ c t _ _ a _ o => some (a, o, t.bytes * c.n)
  | .ldk _ c t _ _ a o => some (⟨true, a⟩, o, t.bytes * c.n)
  | .atom _ _ t _ _ _ _ _ a _ o | .atomCas _ t _ _ _ _ _ a _ _ o | .red _ _ t _ _ _ _ a _ o
  | .waita _ _ t _ _ a _ _ o => some (a, o, t.bytes)
  | .arrive _ _ a _ o | .arriveAnn _ _ a _ _ o | .await _ _ _ a _ o => some (a, o, 8)
  | _ => none

/-- The ranges of the block's own local store that an instruction reaches on lanes of a gang. -/
def Gang.ranges (G : Gang) (i : Instr) (m : Mask) : List (Nat × Nat) :=
  match Instr.access i with
  | none => []
  | some (a, o, n) =>
    (lanesOf m).filterMap fun l =>
      let v := ((G.view l).pair a).1 + o.signExtend 64
      if region v = 3 then some (v.toNat % 2 ^ 61, n) else none

/-- Whether a wait is for the scoreboard: its instruction has not issued. -/
def WaitKind.isOperand : WaitKind → Bool
  | .again r => r == "operand"
  | .walk _ | .refetch _ | .bar _ _ | .rdv _ | .grow _ _ | .cpwait _ | .remote _ | .monitor _ _ _ _ | .verdict _ _ _
  | .home _ _ _ | .alone _ | .recv _ _ _ | .parked _ | .rejoin _ _ => false

/-- The instructions of a gang in flight, with the lanes that wait at them. -/
def Gang.pending (G : Gang) : List (Mask × Instr) :=
  let waits := (G.waits.filter fun w => !w.kind.isOperand).foldl (fun m w => m ||| w.lanes) 0
  (G.flight.map fun f => (maskOf ((lanesOf (f.lanes &&& waits)).filter fun l => (G.lane l).pc == f.pc), f.instr)).filter
    (·.1 != 0)

/-- Whether a gang waits in `GROW` (R160). -/
def Gang.growing (G : Gang) : Bool := G.waits.any fun w => w.kind.isGrow

/-- Whether an instruction in flight on lanes `jm` holds up instruction `i` of lanes `m` (R143, Table 8.3): a k or h register
that one of them writes, the allocation, or a local-store range. x registers, predicates and flags are a lane's own, and a
lane waits at its own instruction. -/
def Gang.blocks (G : Gang) (i : Instr) (m : Mask) (j : Mask × Instr) : Bool :=
  let k := fun (us : List RegUse) => us.filter (·.k)
  let shrinks := fun (x y : Instr) => match x with
    | .shrink _ n => (beyondAlloc (G.alloc - n.toNat) (y.regs .thread)).isSome
    | _ => false
  meet (k (Instr.writes i)) (j.2.regs .thread) || meet (k (Instr.writes j.2)) (i.regs .thread) ||
    (match Instr.role i, Instr.role j.2 with
      | some (h, w), some (h', w') => h == h' && (w || w')
      | _, _ => false) ||
    shrinks i j.2 ||
    (G.ranges i m).any fun x => (G.ranges j.2 j.1).any fun y => overlaps x.1 x.2 y.1 y.2

/-- Whether the scoreboard holds up an instruction of lanes of a gang. -/
def Gang.holdsUp (G : Gang) (i : Instr) (m : Mask) : Bool :=
  (G.growing && ((beyondAlloc G.alloc (i.regs .thread)).isSome || match i with
    | .grow _ _ _ | .growTry _ _ _ | .shrink _ _ => true
    | .gets _ _ _ n => n == 0x12
    | _ => false)) ||
    G.pending.any fun j => j.1 &&& m == 0 && G.blocks i m j

/-- Waits for the scoreboard that are still held up; the others are over. -/
def Gang.stillHeld (G : Gang) (w : Wait) : Bool :=
  (G.flight.find? fun f => f.lanes &&& w.lanes != 0 && f.pc == w.pc).any fun f => G.holdsUp f.instr w.lanes

-- Pairs (R125)

/-- Class of an OP in Table 7.3: 0 I, 1 F, 2 M, 3 B. -/
def pairClass (op : Nat) : Option Nat :=
  if (0x20 ≤ op && op ≤ 0x25) || (0x28 ≤ op && op ≤ 0x34) then some 0
  else if (0x50 ≤ op && op ≤ 0x57) || op = 0x60 || op = 0x61 then some 1
  else if 0x80 ≤ op && op ≤ 0x82 then some 2
  else if op = 0x01 then some 3
  else none

/-- Whether two classes may pair (Table 7.3). -/
def classesPair : Option Nat → Option Nat → Bool
  | some 3, _ | none, _ | _, none => false
  | some a, some b => a == 0 || a != b

/-- The predicates that an instruction reads. -/
def Instr.predReads (i : Instr) : List (BitVec 3) :=
  i.guard.p :: match i with
    | .sel _ _ _ _ _ c => [c]
    | _ => []

/-- Whether the second of two instructions may issue with the first (R125). -/
def mayPair (i j : Instr) : Bool :=
  classesPair (pairClass i.op.toNat) (pairClass j.op.toNat) &&
    !meet (Instr.writes i) (j.regs .thread) &&
    !i.predDest.any fun d => (Instr.predReads j).contains d || j.predDest == some d

end Sys2Proof.Machine
end

