-- ==== Sys2Proof/Machine/Issue.lean ====
section
/-! DEFINITION. What happens next: the groups of a core and the choice among them (R140, R141), the fetch and decoding of an
instruction for a group or a sequencer (R122 to R132), and the choice among the parts of the device, which the spec leaves
open where they run side by side. -/

namespace Sys2Proof.Machine

-- Groups (R140)

/-- Lanes of a gang that may issue (R140); a held gang's U lanes may not (R329). -/
def Gang.runnable (G : Gang) : Mask :=
  let m := G.live &&& ~~~(G.converging ||| G.waiting)
  if G.hold then maskOf ((lanesOf m).filter fun l => (G.lane l).mode != .user) else m

/-- Lanes of one gang at one PC in one mode. -/
structure Group where
  pc : DWord
  mode : Mode
  lanes : Mask
  deriving DecidableEq, Repr

/-- The issue groups of a gang. -/
def Gang.groups (G : Gang) : List Group :=
  (lanesOf G.runnable).foldl (fun gs l =>
    let L := G.lane l
    if gs.any (fun g => g.pc == L.pc && g.mode == L.mode) then
      gs.map fun g => if g.pc == L.pc && g.mode == L.mode then { g with lanes := g.lanes ||| laneBit l } else g
    else gs ++ [⟨L.pc, L.mode, laneBit l⟩]) []

/-- The element of a list with the greatest measure, the first of them. -/
def bestBy {α : Type} (f : α → Nat) : List α → Option α
  | [] => none
  | x :: xs =>
    match bestBy f xs with
    | none => some x
    | some y => if f x < f y then some y else some x

/-- The group that R141 takes within a gang. -/
def Gang.chooseGroup (G : Gang) : Option Group :=
  let gs := G.groups
  let wait := fun (g : Group) => ((lanesOf g.lanes).map fun l => (G.lane l).waited).foldl Nat.max 0
  let lowPc := fun (g : Group) => 2 ^ 64 - g.pc.toNat
  match bestBy (fun g => wait g * 2 ^ 65 + lowPc g) (gs.filter fun g => 256 ≤ wait g) with
  | some g => some g
  | none => bestBy (fun g => (g.mode.rank * 64 + (lanesOf g.lanes).length) * 2 ^ 65 + lowPc g) gs

/-- Effective issue priority of a gang (R45). -/
def State.prioOf (s : State) (G : Gang) : Nat :=
  (((s.blocks.find? G.block).bind fun B => s.launches.find? B.tag).map (·.prio)).getD 0

/-- Rank of a gang in R141: 4 with a group in S or H mode, else its priority. -/
def State.rank (s : State) (G : Gang) : Nat := if G.groups.any (·.mode != .user) then 4 else s.prioOf G

/-- Whether a core's gangs and sequencers may issue: its cluster is not in a self-test slot and the die's clock runs. -/
def State.clocked (s : State) (core : Nat) : Bool :=
  !(s.cluster (clusterOf core)).testing && !(s.dies.get {} (coreNode core)).stopped

/-- The gangs of a core that have an issuable group, by slot. -/
def State.ready (s : State) (core : Nat) : List (Nat × Gang) :=
  if s.clocked core then s.gangs.filter fun g => coreOf g.1 = core && !g.2.groups.isEmpty else []

/-- The gang that R141 takes on a core. -/
def State.chooseGang (s : State) (core : Nat) : Option (Nat × Gang) :=
  let gs := s.ready core
  let lowSlot := fun (g : Nat × Gang) => 16 - g.1 % 16
  match bestBy (fun g => g.2.waited * 32 + lowSlot g) (gs.filter fun g => 64 ≤ g.2.waited) with
  | some g => some g
  | none =>
    let turn := fun (g : Nat × Gang) => 16 - (g.1 % 16 + 16 - ((s.core core).last.getD (s.rank g.2) 15 + 1) % 16) % 16
    bestBy (fun g => s.rank g.2 * 32 + turn g) gs

/-- Clk that an issue of a group holds the lane datapath: one for each pass of the cluster that has an active lane, and one
where there is none (R142, R146). `eff` is the code of the pass count. -/
def passes (eff : Nat) (act : Mask) : Nat :=
  let w := 32 / 2 ^ eff
  Nat.max 1 ((List.range (2 ^ eff)).filter fun j => (lanesOf act).any fun l => l / w == j).length

/-- The counts of R141 after a core has issued a group for `clk`: those of the gang and the lanes that issued start again, and
those of the others that could have issued rise. `old` are the gangs as they stood when it was chosen. -/
def State.counted (s : State) (old : SMap Gang) (core k : Nat) (g : Group) (r clk : Nat) : State :=
  let lane := fun (G : Gang) (mine : Bool) (l : Nat) (L : Lane) =>
    if mine && g.lanes.getLsbD l then { L with waited := 0 }
    else if G.runnable.getLsbD l then { L with waited := L.waited + clk }
    else { L with waited := 0 }
  let gang := fun (n : Nat) (G : Gang) =>
    match if coreOf n = core then old.find? n else none with
    | none => G
    | some O =>
      { G with
        lanes := G.lanes.mapIdx (lane O (n == k))
        waited := if n = k || O.groups.isEmpty then 0 else G.waited + clk }
  let K := s.core core
  { s.setCore core { K with last := K.last.set r (k % 16) } with gangs := s.gangs.mapV gang }

-- Fetching for a group

/-- The check of Table 7.2 that a lane fails on reaching its instruction. -/
def Lane.entryFault (L : Lane) (line : Line) : Option LaneFault :=
  if slotOf L.pc = 5 || (L.checkEntry && slotOf L.pc != 0) then some ⟨0x04, L.pc, false, false⟩
  else if L.checkTarget && !line.target L.pc then some ⟨0x02, L.pc, false, false⟩
  else none

/-- A group's instruction fetched and decoded. The lanes that fail a check trap; for the others the cursor is set and the
instruction is given. -/
def State.fetchGroup (s : State) (k : Nat) (G : Gang) (g : Group) : State × Option Instr :=
  let core := coreOf k
  let at_ := fun (m : Mask) => some (⟨.thread, core, k, m, g.pc⟩ : Cursor)
  let s := { s with cur := at_ g.lanes }
  match s.fetchLine (s.asker k G g.lanes g.mode) .thread G.line g.pc with
  | (s, .walk id) => (s.stall k g.lanes (.walk id), none)
  | (s, .refetch tag) => (s.stall k g.lanes (.refetch tag), none)
  | (s, .fault c f) => (s.raise k false ((lanesOf g.lanes).map fun l => (l, fetchFault c f g.pc)), none)
  | (s, .ok line) =>
    let s := s.onGang k fun G => { G with line := some line }
    let bad := (lanesOf g.lanes).filterMap fun l => ((G.lane l).entryFault line).map fun f => (l, f)
    let good := g.lanes &&& ~~~(maskOf (bad.map (·.1)))
    let s := s.raise k false bad
    let s := (lanesOf good).foldl (fun s l => s.onLane k l fun L => { L with checkTarget := false, checkEntry := false }) s
    let s := { s with cur := at_ good }
    if good = 0 then (s, none)
    else
      match decode .thread (line.slot (slotOf g.pc)) with
      | .error _ => (s.trapAll k good 0x01 0 g.pc, none)
      | .ok i => (s, some i)

/-- The second instruction of a pair that a core is issuing, if its lanes still stand at it and may issue (R125). -/
def State.pairedGroup (s : State) (core : Nat) : Option (Nat × Gang × Group) :=
  match (s.core core).pair with
  | none => none
  | some (k, m, pc) =>
    (s.gangs.find? k).bind fun G => (G.groups.find? fun g => g.pc == pc && g.lanes == m).map fun g => (k, G, g)

/-- The group that a core issues next: the rest of a pair, or R141's choice; and whether it is the rest of a pair. -/
def State.chooseIssue (s : State) (core : Nat) : Option (Nat × Gang × Group × Bool) :=
  match s.pairedGroup core with
  | some (k, G, g) => some (k, G, g, true)
  | none => (s.chooseGang core).bind fun x => x.2.chooseGroup.map fun g => (x.1, x.2, g, false)

/-- The pair that an instruction of a group opens: the PAIR bit of its slot, and the instruction of the next (R125). -/
def Line.opensPair (l : Line) (pc : DWord) (i : Instr) : Bool :=
  slotOf pc < 4 && l.lword.getLsbD (5 + slotOf pc) &&
    match decode .thread (l.slot (slotOf pc + 1)) with
    | .ok j => mayPair i j
    | .error _ => false

/-- What an issue leaves before the instruction's own effect: the counts of R141, in which a pair is one issue; the pair that
it opens; the instruction as in flight for its lanes; and the next line fetched ahead (R134). `old` are the gangs as they
stood when the group was chosen, of rank `r`. -/
def State.issued (s : State) (old : SMap Gang) (core k : Nat) (g : Group) (r : Nat) (second : Bool) (i : Instr) : State :=
  match s.gangs.find? k with
  | none => s
  | some G =>
    let m := ((s.cur.map (·.lanes)).getD g.lanes)
    let s := if second then s
      else s.counted old core k g r (passes (s.eff (clusterOf core)) (G.guardMasks i.guard m).2)
    let opens := !second && G.line.any fun l => l.opensPair g.pc i
    let s := if opens || (s.core core).pair.isSome then
        s.setCore core { s.core core with pair := if opens then some (k, m, succ g.pc) else none }
      else s
    let others := (G.flight.map fun f => { f with lanes := f.lanes &&& ~~~m }).filter (·.lanes != 0)
    (s.onGang k fun G => { G with flight := ⟨m, g.pc, i⟩ :: others }).fetchAhead (s.asker k G m g.mode) g.pc

/-- A core's next issue. A group whose operands are pending waits until they are there (R143). -/
def State.issueThread (s : State) (core : Nat) : State × Option Instr :=
  match s.chooseIssue core with
  | none => (s, none)
  | some (k, G, g, second) =>
    let r := s.rank G
    let old := s.gangs
    match s.fetchGroup k G g with
    | (s, none) => (s, none)
    | (s, some i) =>
      if G.holdsUp i g.lanes then
        let late : Flight := ⟨g.lanes, g.pc, i⟩
        ((s.onGang k fun G => { G with flight := late :: G.flight.filter (·.lanes &&& g.lanes == 0) }).stall k g.lanes
          (.again "operand"), none)
      else (s.issued old core k g r second i, some i)

/-- Whether a sequencer may issue. -/
def Seq.ready (q : Seq) : Bool :=
  q.run == .running && q.wait == .none && !q.exiting && !q.copyFault.any fun f => decide (2 ^ 32 ≤ f.2)

/-- A sequencer's next issue. -/
def State.issueSeq (s : State) (b : Nat) (matrix : Bool) : State × Option Instr :=
  match s.blocks.find? b with
  | none => (s, none)
  | some B =>
    let q := B.seq matrix
    let e := seqEngine matrix
    let s := { s with cur := some ⟨e, B.core, b, 0, q.pc⟩ }
    match q.copyFault with
    | some (pc, tok) =>
      ((s.onSeq b matrix fun q => { q with pc := pc, copyFault := none }).seqTrap b matrix 0x13 (BitVec.ofNat 32 tok), none)
    | none =>
    match s.fetchLine (s.seqAsker b B matrix) e q.line q.pc with
    | (s, .walk id) => (s.onSeq b matrix fun q => { q with wait := .walk id }, none)
    | (s, .refetch tag) => (s.onSeq b matrix fun q => { q with wait := .refetch tag }, none)
    | (s, .fault c f) => (s.seqFault b matrix (fetchFault c f q.pc), none)
    | (s, .ok line) =>
      let s := s.onSeq b matrix fun q => { q with line := some line, walkFaults := [], checkTarget := false }
      let s := s.fetchAhead (s.seqAsker b B matrix) q.pc
      if slotOf q.pc = 5 || (q.checkTarget && slotOf q.pc != 0) then
        (s.seqTrap b matrix 0x04 (q.pc.setWidth 32), none)
      else if q.checkTarget && !line.target q.pc then (s.seqTrap b matrix 0x02 (q.pc.setWidth 32), none)
      else
        match decode e (line.slot (slotOf q.pc)) with
        | .error _ => (s.seqTrap b matrix 0x01 0, none)
        | .ok i => (s, some i)

-- The choice of a step

/-- What the device may do next: an event from outside, one of its own, an issue of a core or of a sequencer. -/
inductive Action where
  | input
  | own (i : Instr)
  | thread (core : Nat)
  | seq (block : Nat) (matrix : Bool)
  deriving DecidableEq, Repr

/-- The cores that hold a gang, each once. -/
def State.busyCores (s : State) : List Nat := (s.gangs.map fun g => coreOf g.1).dedup

/-- Everything that may happen next. -/
def State.actions (s : State) : List Action :=
  (if s.inputs.isEmpty then [] else [.input]) ++ s.events.map .own ++
    ((s.busyCores.filter fun c => !(s.ready c).isEmpty).map .thread) ++
    (s.blocks.map fun b =>
      (if b.2.mseq.ready && s.clocked b.2.core then [Action.seq b.1 true] else []) ++
        if b.2.cseq.ready && s.clocked b.2.core then [Action.seq b.1 false] else []).flatten

/-- Lanes that wait for a condition of the device are let run their instruction again; those that the scoreboard holds up, once
it does not (R143). -/
def Gang.retryWaits (G : Gang) : Gang :=
  { G with waits := G.waits.filter fun w => match w.kind with
    | .again _ => w.kind.isOperand && G.stillHeld w
    | .alone _ => false
    | .walk _ | .refetch _ | .bar _ _ | .rdv _ | .grow _ _ | .cpwait _ | .remote _ | .monitor _ _ _ _
    | .verdict _ _ _ | .home _ _ _
    | .recv _ _ _ | .parked _ | .rejoin _ _ => true }

/-- A gang's hold ends when none of its lanes remains in S or H mode (R329). -/
def Gang.endHold (G : Gang) : Gang :=
  if G.hold && (lanesOf G.live).all fun l => (G.lane l).mode == .user then { G with hold := false } else G

/-- The gangs whose hold ends, by number. -/
def State.released (s : State) : List Nat :=
  (s.gangs.filter fun (g : Nat × Gang) => g.2.hold && !g.2.endHold.hold).map (·.1)

/-- The passing of a step: its number and the time advance, the caches may evict, stores that have arrived go on, and what waits
for a condition of the device looks again. -/
def State.tick (s : State) : State :=
  let free := s.released
  let s := { s with
    ctr := s.ctr + 1
    now := s.now + Config.stepNs s.ctr
    cur := none
    gangs := s.gangs.mapV fun _ G => G.retryWaits.endHold }
  let s := free.foldl (fun (s : State) k => s.settleAll k) s
  let s := s.cores.foldl (fun s c => if c.2.grow.isEmpty then s else s.grantGrow c.1 c.2.grow) s
  s.evictions.tear.finishWaits.markFlags.serveConvs

/-- The instruction that runs next, or the event that happens next, with the state in which it does. A proof unfolds it by
its equation. -/
@[irreducible] def nextAction (s : State) : State × Option Instr :=
  let s := s.tick
  let act := match s.actions with
    | [] => none
    | [a] => some a
    | as => as[Config.schedule s.ctr % as.length]?
  match act with
  | none => (s, none)
  | some .input => ({ s with inputs := s.inputs.tail }, s.inputs.head?)
  | some (.own i) => (s, some i)
  | some (.thread c) => s.issueThread c
  | some (.seq b m) => s.issueSeq b m

-- Placing one instruction to be fetched

/-- A line of an engine's kind with an instruction in slot 0 and its parity bits (R120, R121). -/
def lineOf (e : Engine) (w : BitVec 96) : BitVec 512 :=
  let par : Nat := if oddOnes w then 2 ^ 9 else 0
  let lw : BitVec 32 := BitVec.ofNat 32 (1 + par + 2 ^ 14 * (lineKind e).toNat)
  let lw := if oddOnes lw then lw ||| 0x80000000 else lw
  w.setWidth 512 ||| (lw.setWidth 512 <<< 480)

/-- Where `placed` puts the instruction: its virtual address and its place on node 0. -/
def placedVa : Nat := 0x100000000000
/-- See `placedVa`. -/
def placedPa : Nat := 0x200000000

/-- The translation of the placed line, for a mode's tags. -/
def placedEntry (hyp : Bool) : TlbEntry :=
  { hyp := hyp, asid := 0, vmid := 0, secure := false, va := placedVa, bits := 16, pa := placedPa, gR := true,
    gW := true, gX := true, gU := true, hR := true, hW := true, hX := true, s := false, ms := false }

/-- The 12 bytes of an instruction stored in a line at `placedPa`, and a unit that is to fetch it next: a gang of 32 lanes
of a block on core 0 in the least mode that may issue it, or the block's sequencer. -/
def State.placed (s : State) (w : BitVec 96) : State :=
  let (e, mode) := match decodeAny w with
    | some (e, i) => (e, i.leastMode)
    | none => (Engine.thread, Mode.user)
  let bytes := (List.range 64).map fun i => ((lineOf e w).extractLsb' (8 * i) 8 : Byte)
  let s := s.dramWrite (runAt placedPa (clean bytes))
  let s := s.setCore 0 { s.core 0 with utlb := [placedEntry (mode == .hypervisor)] }
  let pc : DWord := BitVec.ofNat 64 placedVa
  let seq : Seq := { run := .running, pc := pc }
  let B : Block := { core := 0, ctx := 0, tag := 0, index := 0, slots := [], regs := 256, bars := 16, lsb := 98304 }
  match e with
  | .thread =>
    { s with
      blocks := s.blocks.put 0 { B with slots := [0] }
      gangs := s.gangs.put 0
        { block := 0, number := 0, lanes := List.replicate 32 { pc := pc, mode := mode }, alloc := 256 } }
  | .matrix => { s with blocks := s.blocks.put 0 { B with claimsMatrix := true, mseq := seq } }
  | .copy => { s with blocks := s.blocks.put 0 { B with claimsCopy := true, cseq := seq } }

end Sys2Proof.Machine
end

