-- ==== Sys2Proof/Machine/Step.lean ====
section
/-! DEFINITION. One step of the device: what happens next, and its effect. -/

namespace Sys2Proof.Machine

/-- One step: an event happens, or an instruction is fetched, decoded and executed. -/
def step (s : State) : Host.Outcome State Fault Refusal :=
  match nextAction s with
  | (s, some i) => exec i s
  | (s, none) => .next s

/-- The state with an instruction placed where the next step fetches. -/
def State.withFetchWord (s : State) (nbits w : Nat) : State := s.placed (BitVec.ofNat 96 (w % 2 ^ nbits))

end Sys2Proof.Machine
end

