-- ==== Sys2Proof/Safety.lean ====
section
/-! DEFINITION. What counts as a safe run, and the terms that claims use: when an instruction executes for an issue group
or a sequencer, what a result writes and what it leaves alone, and the canonical form of a state. -/

namespace Sys2Proof.Machine

/-- A step's outcome is a next state whose memories are in canonical form. -/
def safeOutcome : Host.Outcome State Fault Refusal → Prop
  | .next s => s.memoryWf = true
  | .fault _ => False
  | .refused _ => False

-- When an instruction executes

/-- The group of lanes `m` of gang `k`, which is `G`, executes instruction `i` at `pc`, with its guard holding on the lanes
`act`: it passes every check of Table 7.9, no guard is poisoned, and its lanes run and do not wait. -/
structure Executes (i : Instr) (s : State) (k : Nat) (G : Gang) (m act : Mask) (pc : DWord) : Prop where
  cur : s.cur = some ⟨.thread, coreOf k, k, m, pc⟩
  gang : s.gangs.find? k = some G
  wf : i.wf .thread = true
  alloc : beyondAlloc G.alloc (i.regs .thread) = none
  mode : ∀ l ∈ lanesOf m, i.leastMode.rank ≤ (G.lane l).mode.rank
  running : ∀ l ∈ lanesOf m, (G.lane l).life = .running
  here : ∀ l ∈ lanesOf m, (G.lane l).pc = pc
  free : ∀ w ∈ G.waits, w.lanes &&& m = 0
  guard : G.guardMasks i.guard m = (0, act)
  some : act ≠ 0

/-- The sequencer of block `b`, which is `B`, executes instruction `i`: it is well formed for the engine, and its guard
holds and is not poisoned. -/
structure SeqExecutes (i : Instr) (matrix : Bool) (s : State) (b : Nat) (B : Block) : Prop where
  cur : s.cur = some ⟨seqEngine matrix, B.core, b, 0, (B.seq matrix).pc⟩
  block : s.blocks.find? b = some B
  wf : i.wf (seqEngine matrix) = true
  guard : (B.seq matrix).view.guard i.guard = (true, false)

-- What results write

/-- The highest lane of a mask. -/
def topLane (m : Mask) : Nat := (lanesOf m).getLastD 0

/-- Gang `H` is gang `G` after its lanes `m` have executed an instruction that wrote the results `o` on the active lanes
`act`. An x register holds its own lane's result, a k register that of the highest active lane (R144), x0 and p7 discard
(R130); every other register, predicate and flag, and everything else of the gang and its lanes, is as it was. -/
structure Wrote (G H : Gang) (m act : Mask) (o : Nat → Out) : Prop where
  x : ∀ l ∈ lanesOf act, ∀ w ∈ (o l).regs, w.1.k = false → w.1.n ≠ 0 → (H.view l).reg w.1 = w.2
  k : ∀ l, ∀ w ∈ (o (topLane act)).regs, w.1.k = true → (H.view l).reg w.1 = w.2
  keepX : ∀ l n, (l ∈ lanesOf act → ∀ w ∈ (o l).regs, w.1 ≠ ⟨false, n⟩) →
    (H.view l).reg ⟨false, n⟩ = (G.view l).reg ⟨false, n⟩
  keepK : ∀ l n, (∀ j ∈ lanesOf act, ∀ w ∈ (o j).regs, w.1 ≠ ⟨true, n⟩) →
    (H.view l).reg ⟨true, n⟩ = (G.view l).reg ⟨true, n⟩
  p : ∀ l ∈ lanesOf act, ∀ w ∈ (o l).preds, w.1 ≠ 7 → (H.view l).pred w.1 = w.2
  keepP : ∀ l n, (l ∈ lanesOf act → ∀ w ∈ (o l).preds, w.1 ≠ n) → (H.view l).pred n = (G.view l).pred n
  flags : ∀ l, (H.lane l).fflags = (G.lane l).fflags ||| if l ∈ lanesOf act then (o l).flags else 0
  pc : ∀ l, (H.lane l).pc = if l ∈ lanesOf m then succ (G.lane l).pc else (G.lane l).pc
  lanes : ∀ l, { H.lane l with
    x := (G.lane l).x, xp := (G.lane l).xp, p := (G.lane l).p, pp := (G.lane l).pp, fflags := (G.lane l).fflags,
    pc := (G.lane l).pc } = G.lane l
  gang : { H with
    lanes := G.lanes, k := G.k, kp := G.kp, walkFaults := G.walkFaults, refetched := G.refetched, answers := G.answers } = G

/-- Gang `H` is gang `G` after its group `m` has executed an instruction that turned each active lane `l` into `f l` of it:
the other lanes of the group go on, and everything else of the gang is as it was. -/
structure Moved (G H : Gang) (m act : Mask) (f : Nat → Lane → Lane) : Prop where
  lanes : ∀ l, H.lane l =
    if l ∈ lanesOf act then f l (G.lane l)
    else if l ∈ lanesOf m then { G.lane l with pc := succ (G.lane l).pc } else G.lane l
  gang : { H with lanes := G.lanes, walkFaults := G.walkFaults, refetched := G.refetched, answers := G.answers } = G

/-- Wherever a group executes `i` and `pre` holds on each active lane, the next state differs from the state before in
gang `k` alone, and there in the lanes: `f` says what an active lane becomes. -/
def Moves (i : Instr) (pre : Gang → Nat → Prop) (f : State → Gang → Nat → Lane → Lane) : Prop :=
  ∀ s k G m act pc, Executes i s k G m act pc → (∀ l ∈ lanesOf act, pre G l) →
    ∃ H, exec i s = .next (s.setGang k H) ∧ Moved G H m act (f s G)

/-- A sequencer's state `q'` is `q` after an instruction that wrote the result `o`. -/
structure SeqWrote (q q' : Seq) (o : Out) : Prop where
  regs : ∀ w ∈ o.regs, q'.view.reg ⟨false, w.1.n⟩ = w.2
  keep : ∀ n, (∀ w ∈ o.regs, w.1.n ≠ n) → q'.view.reg ⟨false, n⟩ = q.view.reg ⟨false, n⟩
  p : ∀ w ∈ o.preds, w.1 ≠ 7 → q'.view.pred w.1 = w.2
  keepP : ∀ n, (∀ w ∈ o.preds, w.1 ≠ n) → q'.view.pred n = q.view.pred n
  pc : q'.pc = succ q.pc
  rest : { q' with r := q.r, rp := q.rp, p := q.p, pp := q.pp, pc := q.pc, walkFaults := q.walkFaults, refetched := q.refetched } = q

/-- The unpoisoned result of a value of type `t` in the register `d`, extended as R50 says. -/
def Out.reg (t : Ty) (d : Reg) (v : Int) (flags : BitVec 7 := 0) : Out :=
  { regs := (putTy t d v).map fun w => (w.1, w.2, false), flags := flags }

/-- The unpoisoned result of one 32-bit word. -/
def Out.word (d : BitVec 8) (w : Word) : Out := { regs := [(⟨false, d⟩, w, false)] }

/-- The unpoisoned result of a predicate. -/
def Out.pred (d : BitVec 3) (b : Bool) (flags : BitVec 7 := 0) : Out := { preds := [(d, b, false)], flags := flags }

/-- Element `j` of an operand word of a floating type (R51, R165): one of two halves, the low half, or the word. -/
def elemOf (t : Ty) (w : Word) (j : Nat) : Nat :=
  if t.packed then w.toNat / 65536 ^ j % 65536 else if t.half then w.toNat % 65536 else w.toNat

/-- The unpoisoned result of a floating instruction, computed element by element; the flags of a packed type are the union
of the two elements' (R176). -/
def Out.elems (t : Ty) (d : Reg) (f : Nat → Nat × BitVec 7) : Out :=
  if t.packed then
    { regs := [(d, BitVec.ofNat 32 ((f 0).1 + 65536 * (f 1).1), false)], flags := (f 0).2 ||| (f 1).2 }
  else { regs := [(d, BitVec.ofNat 32 (f 0).1, false)], flags := (f 0).2 }

/-- Wherever a group executes `i` and `pre` holds on each active lane, the next state differs from the state before in
gang `k` alone, and there in the results `out` of the active lanes. -/
def GivesAt (i : Instr) (pre : State → Gang → Mask → Nat → Prop) (out : State → Gang → Mask → Nat → Out) : Prop :=
  ∀ s k G m act pc, Executes i s k G m act pc → (∀ l ∈ lanesOf act, pre s G act l) →
    ∃ H, exec i s = .next (s.setGang k H) ∧ Wrote G H m act (out s G act)

/-- `GivesAt` for results that each lane computes from its own registers. -/
def Gives (i : Instr) (pre : View → Prop) (out : View → Out) : Prop :=
  GivesAt i (fun _ G _ l => pre (G.view l)) fun _ G _ l => out (G.view l)

/-- Wherever a sequencer executes `i` and `pre` holds of its registers, the next state differs from the state before in
that sequencer alone, and there in the result. -/
def SeqGives (i : Instr) (matrix : Bool) (pre : View → Prop) (out : View → Out) : Prop :=
  ∀ s b B, SeqExecutes i matrix s b B → pre (B.seq matrix).view →
    ∃ q, exec i s = .next (s.setBlock b (B.putSeq matrix q)) ∧ SeqWrote (B.seq matrix) q (out (B.seq matrix).view)

-- What accesses reach and write

/-- Whether a place is a byte of this device's memory, or of a window that is not saved. -/
def Spot.onDevice : Spot → Bool
  | .mem _ _ => true
  | .ls b _ => decide (b < 2 ^ 40)
  | .global _ _ => false

/-- The addresses that the lanes `act` form from the pair `base` and `imm` pass every check of R229, and their
translation, which changes `s` to `s₁`, is at hand: lane `l` accesses the `n` bytes at `A l`, which stand at the place
`P l` of this device. -/
structure Placed (s s₁ : State) (k : Nat) (G : Gang) (act : Mask) (base : Reg) (imm : Word) (n align : Nat) (acc : Access)
    (A : Nat → DWord) (P : Nat → Spot) : Prop where
  addrs : ∃ B, s.blocks.find? G.block = some B ∧
    s.laneAddrs k G B (fun l => (G.view l).pair base) imm n align acc (lanesOf act) =
      (s₁, (lanesOf act).map fun l => (l, .at (A l) (P l)), none)
  here : ∀ l ∈ lanesOf act, (P l).onDevice = true

/-- No copy in flight holds a byte that the lanes access (R246). -/
def Unheld (s : State) (k : Nat) (act : Mask) (n : Nat) (A : Nat → DWord) (P : Nat → Spot) : Prop :=
  ∀ l ∈ lanesOf act, s.held (coreOf k) (A l) (P l) n = false

/-- The byte that a group's store leaves at `a`, if one of its lanes `act` stores to it: lane `l` stores `bytes l` from
`at_ l` on, and of several lanes the highest wins (R227). -/
def storedAt (act : Mask) (at_ : Nat → Option Nat) (bytes : Nat → List PByte) (a : Nat) : Option PByte :=
  (lanesOf act).reverse.findSome? fun l => (at_ l).bind fun x => if x ≤ a then (bytes l)[a - x]? else none

/-- A byte of region 000 as a core's load at a scope and policy reads it. -/
def State.byteSeen (s : State) (core : Nat) (sc : Scope) (pol : Policy) (pa : Nat) : List Byte :=
  (s.loadBytes core pa 1 sc pol false).2.map (·.1)

-- Waits and copies

/-- Where the 8-byte word of a place of this device stands, and the place's offset in it. -/
def wordAt : Spot → Place × Nat
  | .mem pa _ => (.mem (pa / 8), pa % 8)
  | .ls b o => (.ls b (o / 8), o % 8)
  | .global _ _ => (.mem 0, 0)

/-- A lane is no waiter of any monitor. -/
def State.unwatched (s : State) (k l : Nat) : Prop := ∀ m ∈ s.monitors, ∀ w ∈ m.2.waiters, w.who ≠ .lane k l

/-- The copies in flight `D` are those of `C` and `cs`, each under a number of its own. What a copy holds of windows, and
its place in the order of issue, are left open. -/
structure Gained (C D : SMap Copy) (cs : List Copy) : Prop where
  old : ∀ id c, C.find? id = some c → D.find? id = some c
  new : ∃ ids : List Nat, ids.Nodup ∧ List.Forall₂ (fun id c => C.find? id = none ∧
    ∃ d, D.find? id = some d ∧ { d with lsHeld := [], no := 0 } = c) ids cs
  only : D.length = C.length + cs.length

-- Latches

/-- A loaded latch of a class holds 32 rows of the length that Table 10.3 gives its K. -/
def Latch.shaped (l : Latch) (c : LatchClass) : Prop :=
  l.rows.length = 32 ∧ ∃ n, (∀ r ∈ l.rows, r.length = n) ∧
    (c = .half ∧ l.k = 32 ∧ n = 64 ∨ (c = .bin8 ∨ c = .int8) ∧ l.k = n ∧ (n = 64 ∨ n = 160) ∨
      c = .tern ∧ l.k = 160 ∧ n = 32)

/-- The code of element `k` of row `m` of a latch (R58, R200); a reserved ternary byte reads as zeros (R59). -/
def Latch.code (l : Latch) (c : LatchClass) (m k : Nat) : Nat :=
  let byte := fun (i : Nat) => (((l.rows.getD m []).getD i 0 : Byte)).toNat
  match c with
  | .half => byte (2 * k) + 256 * byte (2 * k + 1)
  | .tern => if 242 < byte (k / 5) then 0 else byte (k / 5) / 3 ^ (k % 5) % 3
  | .bin8 | .int8 | .other => byte k

end Sys2Proof.Machine
end

