-- ==== Sys2Proof/Certificates/Slice0/Obligations.lean ====
section
/-! DEFINITION. The statements about this machine, from the numbered rules of the spec. -/

open Sys2Proof Sys2Proof.Machine

-- Integer and address instructions

/-- R170, Table 9.2: the integer results `Put` of exact values, sat variants clamped first; R171's two cases. -/
def Obligations.IntegerArithmeticResults : Prop :=
  ∀ g ty sat d a b c,
    let clean := fun (v : View) => (v.val ty a).2 = false ∧ (v.valS ty b).2 = false
    let x := fun (v : View) => (v.val ty a).1
    let y := fun (v : View) => (v.valS ty b).1
    let z := fun (v : View) => (v.val ty c).1
    let lim := fun (n : Int) => if sat then Sys2Proof.Num.clamp ty.signed ty.width n else n
    let w := ty.width
    Gives (.mov g ty d b) (fun v => (v.valS ty b).2 = false) (fun v => .reg ty d (y v)) ∧
    Gives (.add g ty sat d a b) clean (fun v => .reg ty d (lim (x v + y v))) ∧
    Gives (.sub g ty sat d a b) clean (fun v => .reg ty d (lim (x v - y v))) ∧
    Gives (.mul g ty sat d a b) clean (fun v => .reg ty d (lim (x v * y v))) ∧
    Gives (.mad g ty d a b c) (fun v => clean v ∧ (v.val ty c).2 = false) (fun v => .reg ty d (x v * y v + z v)) ∧
    Gives (.madWide g .i32 d a b c)
      (fun v => (v.reg a).2 = false ∧ (v.valS .i32 b).2 = false ∧ (v.pair c).2 = false)
      (fun v => .reg .i64 d ((v.val .i32 a).1 * (v.valS .i32 b).1 + (v.val .i64 c).1)) ∧
    Gives (.madWide g .n32 d a b c)
      (fun v => (v.reg a).2 = false ∧ (v.valS .n32 b).2 = false ∧ (v.pair c).2 = false)
      (fun v => .reg .n64 d ((v.val .n32 a).1 * (v.valS .n32 b).1 + (v.val .n64 c).1)) ∧
    Gives (.mulhi g ty d a b) clean (fun v => .reg ty d ((x v * y v).fdiv (2 ^ w))) ∧
    Gives (.div g ty d a b) clean (fun v => .reg ty d (if y v = 0 then -1 else (x v).tdiv (y v))) ∧
    Gives (.rem g ty d a b) clean (fun v => .reg ty d (x v - y v * (if y v = 0 then 0 else (x v).tdiv (y v)))) ∧
    Gives (.min g ty d a b) clean (fun v => .reg ty d (Min.min (x v) (y v))) ∧
    Gives (.max g ty d a b) clean (fun v => .reg ty d (Max.max (x v) (y v))) ∧
    Gives (.abs g ty sat d a) (fun v => (v.val ty a).2 = false) (fun v => .reg ty d (lim |x v|))

/-- R170, Table 9.2: the bitwise operations, the shifts and rotations by s = Pat(b, 8), the comparisons and `SEL`. -/
def Obligations.BitwiseShiftAndCompareResults : Prop :=
  ∀ g ty d p c a b,
    let clean := fun (v : View) => (v.val ty a).2 = false ∧ (v.valS ty b).2 = false
    let ctl := fun (v : View) => (v.val ty a).2 = false ∧ (v.wordS b).2 = false
    let x := fun (v : View) => (v.val ty a).1
    let y := fun (v : View) => (v.valS ty b).1
    let n := fun (v : View) => (v.wordS b).1.toNat % 256
    let w := ty.width
    let p' := fun (v : View) => pat (x v) w
    let q' := fun (v : View) => pat (y v) w
    Gives (.and g ty d a b) clean (fun v => .reg ty d (p' v &&& q' v : Nat)) ∧
    Gives (.or g ty d a b) clean (fun v => .reg ty d (p' v ||| q' v : Nat)) ∧
    Gives (.xor g ty d a b) clean (fun v => .reg ty d (p' v ^^^ q' v : Nat)) ∧
    Gives (.shfShl g ty d a b) ctl (fun v => .reg ty d (x v * 2 ^ n v)) ∧
    Gives (.shfShr g ty d a b) ctl (fun v => .reg ty d ((x v).fdiv (2 ^ n v))) ∧
    Gives (.shfRotl g ty d a b) ctl
      (fun v => .reg ty d (pat (x v) w * 2 ^ (n v % w) + pat (x v) w / 2 ^ (w - n v % w) : Nat)) ∧
    Gives (.shfRotr g ty d a b) ctl
      (fun v => .reg ty d (pat (x v) w / 2 ^ (n v % w) + pat (x v) w * 2 ^ (w - n v % w) : Nat)) ∧
    Gives (.cmp g .eq ty p a b) clean (fun v => .pred p (x v = y v)) ∧
    Gives (.cmp g .ne ty p a b) clean (fun v => .pred p (x v ≠ y v)) ∧
    Gives (.cmp g .lt ty p a b) clean (fun v => .pred p (x v < y v)) ∧
    Gives (.cmp g .le ty p a b) clean (fun v => .pred p (x v ≤ y v)) ∧
    Gives (.cmp g .gt ty p a b) clean (fun v => .pred p (x v > y v)) ∧
    Gives (.cmp g .ge ty p a b) clean (fun v => .pred p (x v ≥ y v)) ∧
    Gives (.sel g ty d a b c) (fun v => clean v ∧ (v.pred c).2 = false)
      (fun v => .reg ty d (if (v.pred c).1 then x v else y v))

/-- R172, R173, R174: counting and reversing bits, fields, and addresses. -/
def Obligations.BitFieldAndAddressResults : Prop :=
  ∀ g ty d a b c sh,
    let w := ty.width
    let p := fun (v : View) => pat (v.val ty a).1 w
    let one := fun (v : View) => (v.val ty a).2 = false
    let ctl := fun (v : View) => (v.val ty a).2 = false ∧ (v.wordS b).2 = false
    let pos := fun (v : View) => (v.wordS b).1.toNat % 2 ^ 8
    let n := fun (v : View) => Nat.min ((v.wordS b).1.toNat / 2 ^ 8 % 2 ^ 8) (w - pos v)
    let fld := fun (v : View) => p v / 2 ^ pos v % 2 ^ n v
    Gives (.bitcPopc g ty d a) one
      (fun v => .reg .n32 d ((List.range w).countP fun i => (p v).testBit i : Nat)) ∧
    Gives (.bitcClz g ty d a) one
      (fun v => .reg .n32 d (((List.range w).reverse.takeWhile fun i => !(p v).testBit i).length : Nat)) ∧
    Gives (.bitcCtz g ty d a) one
      (fun v => .reg .n32 d (((List.range w).takeWhile fun i => !(p v).testBit i).length : Nat)) ∧
    Gives (.bitcBrev g ty d a) one
      (fun v => .reg ty d (((List.range w).map fun i => if (p v).testBit i then 2 ^ (w - 1 - i) else 0).sum : Nat)) ∧
    Gives (.bfe g ty d a b) ctl (fun v => .reg ty d
      (if ty.signed ∧ n v ≠ 0 ∧ (fld v).testBit (n v - 1) then (fld v : Int) - 2 ^ n v else fld v)) ∧
    Gives (.bfi g ty d a b c) (fun v => ctl v ∧ (v.val ty c).2 = false) (fun v => .reg ty d
      (let q := pat (v.val ty c).1 w
       q / 2 ^ (pos v + n v) * 2 ^ (pos v + n v) + p v % 2 ^ n v * 2 ^ pos v + q % 2 ^ pos v : Nat)) ∧
    Gives (.lea g ty d a b sh) (fun v => (v.pair a).2 = false ∧ (v.valS ty b).2 = false)
      (fun v => .reg .n64 d ((v.pair a).1.toNat + (v.valS ty b).1 * 2 ^ sh.toNat))

-- Floating-point instructions

/-- R176: each element is the exact result of its operands' values, rounded once by FRound. -/
def Obligations.RoundedFloatResults : Prop :=
  ∀ g rm ty d a b c,
    let clean := fun (v : View) => (v.reg a).2 = false ∧ (v.wordS b).2 = false
    let x := fun (v : View) j => Sys2Proof.Num.decodeCode (Sys2Proof.Num.ofTy ty) (elemOf ty (v.reg a).1 j)
    let y := fun (v : View) j => Sys2Proof.Num.decodeCode (Sys2Proof.Num.ofTy ty) (elemOf ty (v.wordS b).1 j)
    let z := fun (v : View) j => Sys2Proof.Num.decodeCode (Sys2Proof.Num.ofTy ty) (elemOf ty (v.reg c).1 j)
    let once := Sys2Proof.Num.finish (Sys2Proof.Num.ofTy ty) rm
    Gives (.fadd g rm ty d a b) clean (fun v => .elems ty d fun j => once (Sys2Proof.Num.add rm (x v j) (y v j))) ∧
    Gives (.fsub g rm ty d a b) clean (fun v => .elems ty d fun j => once (Sys2Proof.Num.add rm (x v j) (y v j).opp)) ∧
    Gives (.fmul g rm ty d a b) clean (fun v => .elems ty d fun j => once (Sys2Proof.Num.mul (x v j) (y v j))) ∧
    Gives (.ffma g rm ty d a b c) (fun v => clean v ∧ (v.reg c).2 = false)
      (fun v => .elems ty d fun j => once (Sys2Proof.Num.fma rm (x v j) (y v j) (z v j))) ∧
    Gives (.fdiv g rm ty d a b) clean (fun v => .elems ty d fun j => once (Sys2Proof.Num.div (x v j) (y v j))) ∧
    Gives (.fsqrt g rm ty d a) (fun v => (v.reg a).2 = false)
      (fun v => .elems ty d fun j => once (Sys2Proof.Num.sqrt (x v j)))

/-- Table 9.4: the special operands of the exact operations behind `FADD`, `FMUL`, `FFMA`, `FDIV` and `FSQRT`. -/
def Obligations.SpecialOperandsOfRoundedInstructions : Prop :=
  ∀ (rm : Rm) (s t q : Bool) (n d m e : Nat) (v : Sys2Proof.Num.Val),
    Sys2Proof.Num.add rm (.inf s) (.inf !s) = (.nan false, Sys2Proof.Num.nv) ∧
    Sys2Proof.Num.mul (.fin s 0 d) (.inf t) = (.nan false, Sys2Proof.Num.nv) ∧
    Sys2Proof.Num.fma rm (.fin s 0 d) (.inf t) v = (.nan false, Sys2Proof.Num.nv) ∧
    (n ≠ 0 → Sys2Proof.Num.div (.fin s n d) (.fin t 0 e) = (.inf (s != t), Sys2Proof.Num.dz)) ∧
    Sys2Proof.Num.div (.fin s 0 d) (.fin t 0 e) = (.nan false, Sys2Proof.Num.nv) ∧
    Sys2Proof.Num.div (.inf s) (.inf t) = (.nan false, Sys2Proof.Num.nv) ∧
    Sys2Proof.Num.div (.fin s n d) (.inf t) = (.fin (s != t) 0 1, 0) ∧
    Sys2Proof.Num.sqrt (.fin true 0 d) = (.fin true 0 1, 0) ∧
    (n ≠ 0 → Sys2Proof.Num.sqrt (.fin true n d) = (.nan false, Sys2Proof.Num.nv)) ∧
    Sys2Proof.Num.sqrt (.inf true) = (.nan false, Sys2Proof.Num.nv) ∧
    Sys2Proof.Num.add rm (.nan q) (.fin t m e) = (.nan false, if q then Sys2Proof.Num.nv else 0) ∧
    (d ≠ 0 → e ≠ 0 → n * e = m * d → n ≠ 0 →
      Sys2Proof.Num.add rm (.fin s n d) (.fin (!s) m e) = (.fin (rm = .rdn) 0 1, 0))

/-- R60, step 1, toward zero: the code that FP32, BF16 and FP16 take for a positive magnitude n / d is the greatest whose
value does not exceed it. -/
def Obligations.RoundTowardZeroIsTheGreatestCodeNotAbove : Prop :=
  ∀ (f : Sys2Proof.Num.Fmt) (n d : Nat), f = Sys2Proof.Num.fp32 ∨ f = Sys2Proof.Num.bf16 ∨ f = Sys2Proof.Num.fp16 → n ≠ 0 → d ≠ 0 →
    let c := (Sys2Proof.Num.roundMag f .rtz false n d).1
    let val := fun (c : Nat) => match Sys2Proof.Num.magnitude f false c with
      | .fin _ m e => (m : Rat) / e
      | _ => 0
    val c ≤ (n : Rat) / d ∧ (n : Rat) / d < val (c + 1)

/-- R177 to R181: the lesser and the greater operand as they stand, the relations of Table 9.5 with their flags, the sign
bit alone, the classes, and rounding to an integral value. -/
def Obligations.UnroundedFloatResults : Prop :=
  ∀ g rm ty d p a b,
    let clean := fun (v : View) => (v.reg a).2 = false ∧ (v.wordS b).2 = false
    let one := fun (v : View) => (v.reg a).2 = false
    let f := Sys2Proof.Num.ofTy ty
    let i := fun (v : View) j => elemOf ty (v.reg a).1 j
    let k := fun (v : View) j => elemOf ty (v.wordS b).1 j
    let x := fun (v : View) j => Sys2Proof.Num.decodeCode f (i v j)
    let y := fun (v : View) j => Sys2Proof.Num.decodeCode f (k v j)
    let top := 2 ^ (f.width - 1)
    let less := fun (u w : Sys2Proof.Num.Val) => Sys2Proof.Num.cmp u w = .lt ∨ Sys2Proof.Num.cmp u w = .eq ∧ u.neg = true ∧ w.neg = false
    let snan := fun (u w : Sys2Proof.Num.Val) => if u.isSnan || w.isSnan then Sys2Proof.Num.nv else 0
    let nan := fun (u w : Sys2Proof.Num.Val) => if u.isNan || w.isNan then Sys2Proof.Num.nv else 0
    let ord := fun (v : View) => (x v 0).isNan = false ∧ (y v 0).isNan = false
    Gives (.fmin g ty d a b) clean (fun v => .elems ty d fun j =>
      (if (x v j).isNan then (if (y v j).isNan then Sys2Proof.Num.nanCode f else k v j)
        else if (y v j).isNan then i v j
        else if less (x v j) (y v j) then i v j else k v j, snan (x v j) (y v j))) ∧
    Gives (.fmax g ty d a b) clean (fun v => .elems ty d fun j =>
      (if (x v j).isNan then (if (y v j).isNan then Sys2Proof.Num.nanCode f else k v j)
        else if (y v j).isNan then i v j
        else if less (x v j) (y v j) then k v j else i v j, snan (x v j) (y v j))) ∧
    Gives (.fcmp g .eq ty p a b) clean
      (fun v => .pred p (ord v ∧ Sys2Proof.Num.cmp (x v 0) (y v 0) = .eq) (snan (x v 0) (y v 0))) ∧
    Gives (.fcmp g .ne ty p a b) clean
      (fun v => .pred p (¬ord v ∨ Sys2Proof.Num.cmp (x v 0) (y v 0) ≠ .eq) (snan (x v 0) (y v 0))) ∧
    Gives (.fcmp g .lt ty p a b) clean
      (fun v => .pred p (ord v ∧ Sys2Proof.Num.cmp (x v 0) (y v 0) = .lt) (nan (x v 0) (y v 0))) ∧
    Gives (.fcmp g .le ty p a b) clean
      (fun v => .pred p (ord v ∧ Sys2Proof.Num.cmp (x v 0) (y v 0) ≠ .gt) (nan (x v 0) (y v 0))) ∧
    Gives (.fcmp g .gt ty p a b) clean
      (fun v => .pred p (ord v ∧ Sys2Proof.Num.cmp (x v 0) (y v 0) = .gt) (nan (x v 0) (y v 0))) ∧
    Gives (.fcmp g .ge ty p a b) clean
      (fun v => .pred p (ord v ∧ Sys2Proof.Num.cmp (x v 0) (y v 0) ≠ .lt) (nan (x v 0) (y v 0))) ∧
    Gives (.fcmp g .un ty p a b) clean (fun v => .pred p (¬ord v) (snan (x v 0) (y v 0))) ∧
    Gives (.fcmp g .ord ty p a b) clean (fun v => .pred p (ord v) (snan (x v 0) (y v 0))) ∧
    Gives (.fsgnNeg g ty d a) one (fun v => .elems ty d fun j => (i v j ^^^ top, 0)) ∧
    Gives (.fsgnAbs g ty d a) one (fun v => .elems ty d fun j => (i v j % top, 0)) ∧
    Gives (.fsgnCopy g ty d a b) clean (fun v => .elems ty d fun j => (i v j % top + k v j / top * top, 0)) ∧
    Gives (.fsgnXor g ty d a b) clean (fun v => .elems ty d fun j => (i v j ^^^ (k v j / top * top), 0)) ∧
    Gives (.fclass g ty d a) one (fun v => .elems ty d fun _ => (match x v 0 with
      | .inf true => 2 ^ 0
      | .inf false => 2 ^ 7
      | .nan true => 2 ^ 8
      | .nan false => 2 ^ 9
      | .fin s n _ =>
        if n = 0 then (if s then 2 ^ 3 else 2 ^ 4)
        else if i v 0 % top < 2 ^ (f.p - 1) then (if s then 2 ^ 2 else 2 ^ 5)
        else if s then 2 ^ 1 else 2 ^ 6, 0)) ∧
    Gives (.frnd g rm ty d a) one (fun v => .elems ty d fun j => match x v j with
      | .nan q => (Sys2Proof.Num.nanCode f, if q then Sys2Proof.Num.nv else 0)
      | .inf s => (Sys2Proof.Num.infCode f s, 0)
      | .fin s n e => ((Sys2Proof.Num.round f .rne false (.fin s (Sys2Proof.Num.roundInt rm s n e).1.natAbs 1)).1, 0))

/-- R182, Table 9.6: `FRCP` of a positive normal number whose reciprocal is a normal number lies within one unit in the last
place of the exact reciprocal. -/
def Obligations.ReciprocalIsWithinOneUlp : Prop :=
  ∀ x n d, 0x00800000 ≤ x → x < 0x7E800000 → Sys2Proof.Num.decodeCode Sys2Proof.Num.fp32 x = .fin false n d →
    let c := (rcp x).1
    let val := fun (c : Nat) => match Sys2Proof.Num.magnitude Sys2Proof.Num.fp32 false c with
      | .fin _ m e => (m : Rat) / e
      | _ => 0
    val (c - 1) ≤ (d : Rat) / n ∧ (d : Rat) / n ≤ val (c + 1)

/-- R182: each transcendental is a fixed function of its operand, which gives a NaN operand the canonical NaN and the exact
and special inputs of Table 9.6 their results. -/
def Obligations.TranscendentalResults : Prop :=
  ∀ g d a,
    let one := fun (v : View) => (v.reg a).2 = false
    let gives := fun (i : Instr) (f : Nat → Nat × BitVec 7) =>
      Gives i one (fun v => .elems .f32 d fun _ => f (v.reg a).1.toNat)
    gives (.frcp g d a) rcp ∧ gives (.frsq g d a) rsq ∧ gives (.fexp2 g d a) exp2 ∧ gives (.flog2 g d a) flog2 ∧
      gives (.fsin g d a) fsin ∧ gives (.fcos g d a) fcos ∧
    (∀ f ∈ [rcp, rsq, exp2, flog2, fsin, fcos], ∀ x q, Sys2Proof.Num.decodeCode Sys2Proof.Num.fp32 x = .nan q →
      f x = (0x7FC00000, if q then Sys2Proof.Num.nv else 0)) ∧
    rcp 0x00000000 = (0x7F800000, Sys2Proof.Num.dz) ∧ rcp 0x80000000 = (0xFF800000, Sys2Proof.Num.dz) ∧
    rcp 0x7F800000 = (0x00000000, 0) ∧ rcp 0xFF800000 = (0x80000000, 0) ∧ rcp 0x40000000 = (0x3F000000, 0) ∧
    (∀ x, x ≠ 0 → x < 0x00200000 → rcp x = (0x7F800000, Sys2Proof.Num.of ||| Sys2Proof.Num.nx)) ∧
    rsq 0x00000000 = (0x7F800000, Sys2Proof.Num.dz) ∧ rsq 0x80000000 = (0xFF800000, Sys2Proof.Num.dz) ∧ rsq 0x7F800000 = (0, 0) ∧
    (∀ x, 0x80000000 < x → x ≤ 0xFF800000 → rsq x = (0x7FC00000, Sys2Proof.Num.nv)) ∧ rsq 0x40800000 = (0x3F000000, 0) ∧
    exp2 0xFF800000 = (0, 0) ∧ exp2 0x7F800000 = (0x7F800000, 0) ∧ exp2 0x40400000 = (0x41000000, 0) ∧
    (∀ x, 0x43000000 ≤ x → x < 0x7F800000 → exp2 x = (0x7F800000, Sys2Proof.Num.of ||| Sys2Proof.Num.nx)) ∧
    (∀ x, 0xC3170000 ≤ x → x < 0xFF800000 → exp2 x = (0, Sys2Proof.Num.uf ||| Sys2Proof.Num.nx)) ∧
    flog2 0x00000000 = (0xFF800000, Sys2Proof.Num.dz) ∧ flog2 0x80000000 = (0xFF800000, Sys2Proof.Num.dz) ∧
    flog2 0x7F800000 = (0x7F800000, 0) ∧ flog2 0x3F800000 = (0, 0) ∧ flog2 0x41000000 = (0x40400000, 0) ∧
    (∀ x, 0x80000000 < x → x ≤ 0xFF800000 → flog2 x = (0x7FC00000, Sys2Proof.Num.nv)) ∧
    (∀ x ∈ [0x7F800000, 0xFF800000], fsin x = (0x7FC00000, Sys2Proof.Num.nv) ∧ fcos x = (0x7FC00000, Sys2Proof.Num.nv)) ∧
    fsin 0x80000000 = (0x80000000, 0) ∧ fsin 0x3F000000 = (0x3F800000, 0) ∧ fsin 0x3FC00000 = (0xBF800000, 0) ∧
    fcos 0x3F800000 = (0xBF800000, 0) ∧ fcos 0x40000000 = (0x3F800000, 0) ∧ fcos 0x3F000000 = (0, 0)

-- Conversions

/-- R184: the results of `CVT` between any two types that are not packed, and to a packed pair. -/
def Obligations.ConversionResults : Prop :=
  ∀ g dt st rm sat d a b,
    let int := fun (v : View) => (v.val st a).1
    let flt := fun (v : View) => Sys2Proof.Num.decodeCode (Sys2Proof.Num.ofTy st) (elemOf st (v.reg a).1 0)
    let clean := fun (v : View) => (v.val st a).2 = false ∧ (v.reg a).2 = false
    let lo := Sys2Proof.Num.intMin dt.signed dt.width
    let hi := Sys2Proof.Num.intMax dt.signed dt.width
    let limit := fun (n : Int) => if n < lo then lo else if n > hi then hi else n
    (dt.isInt = true → st.isInt = true → Gives (.cvt g dt st rm sat d a) clean (fun v =>
      if lo ≤ int v ∧ int v ≤ hi then .reg dt d (int v)
      else if sat then .reg dt d (limit (int v)) Sys2Proof.Num.nx else .reg dt d (int v) Sys2Proof.Num.io)) ∧
    (dt.isInt = true → st.isInt = false → Gives (.cvt g dt st rm sat d a) clean (fun v => match flt v with
      | .nan _ => .reg dt d 0 Sys2Proof.Num.nv
      | .inf s => .reg dt d (if s then lo else hi) (if sat then Sys2Proof.Num.nx else Sys2Proof.Num.nv)
      | .fin s n e =>
        let r := Sys2Proof.Num.roundInt rm s n e
        .reg dt d (limit r.1)
          (if lo ≤ r.1 ∧ r.1 ≤ hi then (if r.2 then Sys2Proof.Num.nx else 0) else if sat then Sys2Proof.Num.nx else Sys2Proof.Num.nv))) ∧
    (dt.scalarFloat = true → st.isInt = true → Gives (.cvt g dt st rm sat d a) clean (fun v =>
      .elems dt d fun _ => Sys2Proof.Num.round (Sys2Proof.Num.ofTy dt) rm sat (Sys2Proof.Num.ofInt (int v)))) ∧
    (dt.scalarFloat = true → st.isInt = false → Gives (.cvt g dt st rm sat d a) clean (fun v =>
      .elems dt d fun _ => Sys2Proof.Num.round (Sys2Proof.Num.ofTy dt) rm sat (flt v))) ∧
    Gives (.cvtPacked g dt rm sat d a b) (fun v => (v.reg a).2 = false ∧ (v.wordS b).2 = false) (fun v =>
      .elems dt d fun j => Sys2Proof.Num.round (Sys2Proof.Num.ofTy dt) rm sat
        (Sys2Proof.Num.decodeCode Sys2Proof.Num.fp32 (if j = 0 then (v.reg a).1 else (v.wordS b).1).toNat))

/-- R184 to R187: the conversions through a slot of the launch record that is not empty, which does not trap on NV or whose
operands raise none: `CVT` takes its rounding mode and SAT from the slot; `CVTN` packs the codes of a run; `CVTW` writes the
elements of a packed register to a run. -/
def Obligations.SlotConversionResults : Prop :=
  ∀ g dt st slot d a c (r r' : BitVec 8) (sl : Slot),
    let has := fun (s : State) (G : Gang) => ∃ B, s.blocks.find? G.block = some B ∧ s.slot B slot.toNat = sl
    let run := fun (G : Gang) (first : BitVec 8) => sl.perReg ≠ 0 ∧ first.toNat + sl.perReg ≤ 256 ∧
      (first = 0 ∨ first.toNat + sl.perReg ≤ G.alloc)
    let e := fun (v : View) => sext 8 (v.reg c).1.toNat
    let src := fun (v : View) => (List.range sl.perReg).map fun i => v.reg ⟨false, r + BitVec.ofNat 8 i⟩
    let val := fun (w : Word) => if dt = .i32 then Source.int w.toInt else .float (Sys2Proof.Num.decodeCode Sys2Proof.Num.fp32 w.toNat)
    let codes := fun (v : View) => (src v).map fun w => sl.narrow (val w.1) (e v)
    let flagsOf := fun (fs : List (BitVec 7)) => fs.foldl (· ||| ·) 0
    let quiet := fun (f : BitVec 7) => sl.trapInv = false ∨ f.getLsbD 4 = false
    let wide := fun (v : View) => (sl.unpack (v.reg a).1).1.map fun k => sl.wideElem dt (e v) k
    (∀ s G k m act pc, Executes (.cvtSlot g dt st slot d a) s k G m act pc → has s G → sl.kind ≠ .empty →
      (∀ l ∈ lanesOf act, ((G.view l).val st a).2 = false ∧ ((G.view l).reg a).2 = false ∧
        quiet (convert dt st sl.rm sl.sat d a ⟨s.ctr, l⟩ (G.view l)).flags) →
      ∃ H, exec (.cvtSlot g dt st slot d a) s = .next (s.setGang k H) ∧
        Wrote G H m act fun l => convert dt st sl.rm sl.sat d a ⟨s.ctr, l⟩ (G.view l)) ∧
    GivesAt (.cvtn g dt slot d r c)
      (fun s G _ l => has s G ∧ run G r ∧ ((G.view l).reg c).2 = false ∧ (∀ w ∈ src (G.view l), w.2 = false) ∧
        quiet (flagsOf ((codes (G.view l)).map (·.2))))
      (fun _ G _ l =>
        { regs := [(d, sl.pack ((codes (G.view l)).map (·.1)), false)],
          flags := flagsOf ((codes (G.view l)).map (·.2)) }) ∧
    GivesAt (.cvtw g dt slot r' a c)
      (fun s G _ l => has s G ∧ sl.widensTo dt = true ∧ run G r' ∧ ((G.view l).reg c).2 = false ∧
        ((G.view l).reg a).2 = false ∧ (sl.unpack ((G.view l).reg a).1).2 = false ∧
        quiet (flagsOf ((wide (G.view l)).map (·.2))))
      (fun _ G _ l =>
        { regs := (wide (G.view l)).mapIdx fun i w => (⟨false, r' + BitVec.ofNat 8 i⟩, w.1, false),
          flags := flagsOf ((wide (G.view l)).map (·.2)) })

-- Predicates, special registers, and the instructions that look across lanes

/-- R162: the predicate of `PLOG`. -/
def Obligations.PredicateLogicResults : Prop :=
  ∀ g d a b x,
    let clean := fun (v : View) => (v.pred a).2 = false ∧ (v.pred b).2 = false
    let p := fun (v : View) => (v.pred a).1
    let q := fun (v : View) => (v.pred b).1
    Gives (.plogAnd g d a b) clean (fun v => .pred d (p v && q v)) ∧
    Gives (.plogOr g d a b) clean (fun v => .pred d (p v || q v)) ∧
    Gives (.plogXor g d a b) clean (fun v => .pred d (p v != q v)) ∧
    Gives (.plogAndn g d a b) clean (fun v => .pred d (p v && !q v)) ∧
    Gives (.plogOrn g d a b) clean (fun v => .pred d (p v || !q v)) ∧
    Gives (.plogNot g d a) (fun v => (v.pred a).2 = false) (fun v => .pred d (!p v)) ∧
    Gives (.plogSet g d x) (fun _ => True) (fun _ => .pred d x)

/-- R161, Table 8.2: `GETS` copies a special register into D, a pair for the 64-bit form, and what each number reads; `SETS`
writes bits [6:0] of its source to `fflags` of each active lane, and changes nothing else. -/
def Obligations.SpecialRegisterAccess : Prop :=
  (∀ g num a, Moves (.sets g num a) (fun G l => ((G.view l).reg a).2 = false) (fun _ G l L =>
    { L with fflags := ((G.view l).reg a).1.setWidth 7, pc := succ L.pc })) ∧
  (∀ g wide d num (B : Block), GivesAt (.gets g wide d num)
    (fun s G _ _ => s.blocks.find? G.block = some B)
    (fun s G _ l =>
      let v := s.special G B l num.toNat
      { regs := (⟨false, d⟩, v.setWidth 32, false) ::
          if wide then [(⟨false, d + 1⟩, v.extractLsb' 32 32, false)] else [] })) ∧
  ∀ (s : State) (G : Gang) (B : Block) (l : Nat),
    let node := B.core / 512
    s.special G B l 0x00 = BitVec.ofNat 64 l ∧ s.special G B l 0x01 = BitVec.ofNat 64 G.number ∧
    s.special G B l 0x02 = BitVec.ofNat 64 (B.core % 512) ∧ s.special G B l 0x03 = BitVec.ofNat 64 node ∧
    s.special G B l 0x04 = BitVec.ofNat 64 (B.core % 512 / 16) ∧
    s.special G B l 0x05 = BitVec.ofNat 64 (2 ^ s.eff (node * 32 + B.core % 512 / 16)) ∧
    s.special G B l 0x06 = s.counter node ∧ s.special G B l 0x07 = Config.deviceNumber.setWidth 64 ∧
    (∀ j < 4, s.special G B l (0x08 + j) = (B.coord.getD j 0).setWidth 64) ∧
    s.special G B l 0x0C = BitVec.ofNat 64 B.member ∧
    s.special G B l 0x0D = BitVec.ofNat 64 (G.lane l).mode.rank ∧
    s.special G B l 0x0E = (if s.covered B then 1 else 0) ∧
    s.special G B l 0x10 = (G.lane l).fflags.setWidth 64 ∧ s.special G B l 0x12 = BitVec.ofNat 64 G.alloc ∧
    s.special G B l 0x13 = if (s.core B.core).secure then 1 else 0

/-- R156 to R159: `VOTE` combines a value over the active lanes of each segment of N = 2^w lanes; `SHFL` gives each active
lane the value of its source lane, or the fill; `REDUX` reduces a register over the active lanes, lowest first; `BMASK`
writes a lane mask. -/
def Obligations.CrossLaneResults : Prop :=
  (∀ g w d p a r,
      let S := fun (act : Mask) (l : Nat) => (lanesOf act).filter fun j => j / 2 ^ w.toNat = l / 2 ^ w.toNat
      let clean := fun (_ : State) (G : Gang) act l => ∀ j ∈ S act l, ((G.view j).pred a).2 = false
      let holds := fun (G : Gang) j => ((G.view j).pred a).1
      GivesAt (.voteAny g w p a) clean (fun _ G act l => .pred p ((S act l).any (holds G))) ∧
      GivesAt (.voteAll g w p a) clean (fun _ G act l => .pred p ((S act l).all (holds G))) ∧
      GivesAt (.voteBallot g w d a) clean (fun _ G act l => .word d (maskOf ((S act l).filter (holds G)))) ∧
      GivesAt (.voteEq g w p r) (fun _ G act l => ∀ j ∈ S act l, ((G.view j).reg r).2 = false)
        (fun _ G act l => .pred p ((S act l).all fun i => (S act l).all fun j =>
          ((G.view i).reg r).1 == ((G.view j).reg r).1)) ∧
      GivesAt (.voteCnt g w d a) clean (fun _ G act l => .word d (BitVec.ofNat 32 ((S act l).countP (holds G))))) ∧
  (∀ g w d a b c,
      let N := 2 ^ w.toNat
      let base := fun l => N * (l / N)
      let clean := fun (_ : State) (G : Gang) (_ : Mask) l => ((G.view l).wordS b).2 = false
      let i := fun (G : Gang) l => ((G.view l).wordS b).1.toNat
      let from_ := fun (src : Nat → Nat → Int) (_ : State) (G : Gang) (act : Mask) (l : Nat) =>
        let x := src l (i G l)
        let r := if 0 ≤ x ∧ x.toNat ∈ lanesOf act ∧ x.toNat / N = l / N then (G.view x.toNat).reg a
          else (G.view l).reg c
        ({ regs := [(⟨false, d⟩, r.1, false)] } : Out)
      let ok := fun (src : Nat → Nat → Int) (s : State) (G : Gang) (act : Mask) (l : Nat) =>
        clean s G act l ∧ ((G.view l).reg c).2 = false ∧ ∀ j, src l (i G l) = (j : Nat) → ((G.view j).reg a).2 = false
      let gives := fun (j : Instr) (src : Nat → Nat → Int) => GivesAt j (ok src) (from_ src)
      gives (.shflPick g w d a b c) (fun l b => (base l + b % N : Nat)) ∧
      gives (.shflFwd g w d a b c) (fun l b => (l : Int) - b) ∧
      gives (.shflBack g w d a b c) (fun l b => (l : Int) + b) ∧
      gives (.shflFlip g w d a b c) (fun l b => (l ^^^ b % N : Nat)) ∧
      gives (.shflRot g w d a b c) (fun l b => (base l + (l - base l + b) % N : Nat))) ∧
  (∀ g w d a b,
      let clean := fun (_ : State) (G : Gang) act (_ : Nat) => ∀ j ∈ lanesOf act, ((G.view j).reg a).2 = false
      let xs := fun (G : Gang) act => (lanesOf act).map fun j => ((G.view j).reg a).1
      let int := fun (op : RedOp) (ty : Ty) (f : Word → Word → Word) => GivesAt (.redux g op ty d a) clean
        (fun _ G act _ => .word d ((xs G act).tail.foldl f ((xs G act).headD 0)))
      let f32 := fun (x : Word) => Sys2Proof.Num.decodeCode Sys2Proof.Num.fp32 x.toNat
      let same := fun l i => i < 32 ∧ i / 2 ^ w.toNat = l / 2 ^ w.toNat
      let mask := fun (i : Instr) (p : Mask → Nat → Nat → Prop) => ∀ s k G m act pc, Executes i s k G m act pc →
        ∃ H, exec i s = .next (s.setGang k H) ∧ ∃ M : Nat → Mask, Wrote G H m act (fun l => .word d (M l)) ∧
          ∀ l ∈ lanesOf act, ∀ j, j < 32 → ((M l).getLsbD j = true ↔ p act l j)
      (∀ ty ∈ [Ty.i32, .n32], int .add ty (· + ·) ∧ int .and ty (· &&& ·) ∧ int .or ty (· ||| ·) ∧
        int .xor ty (· ^^^ ·)) ∧
      int .min .i32 (fun x y => if x.toInt < y.toInt then x else y) ∧
      int .max .i32 (fun x y => if x.toInt < y.toInt then y else x) ∧
      int .min .n32 (fun x y => if x.toNat < y.toNat then x else y) ∧
      int .max .n32 (fun x y => if x.toNat < y.toNat then y else x) ∧
      GivesAt (.redux g .add .f32 d a) clean (fun _ G act _ =>
        let r := (xs G act).tail.foldl (fun (r : Word × BitVec 7) y =>
          let z := Sys2Proof.Num.finish Sys2Proof.Num.fp32 .rne (Sys2Proof.Num.add .rne (f32 r.1) (f32 y))
          (BitVec.ofNat 32 z.1, r.2 ||| z.2)) ((xs G act).headD 0, 0)
        { regs := [(⟨false, d⟩, r.1, false)], flags := r.2 }) ∧
      (∀ greater, GivesAt (.redux g (if greater then .max else .min) .f32 d a) clean (fun _ G act _ =>
        let r := (xs G act).tail.foldl (fun (r : Word × BitVec 7) y =>
          let z := pickCode .f32 greater r.1.toNat y.toNat
          (BitVec.ofNat 32 z.1, r.2 ||| z.2)) ((xs G act).headD 0, 0)
        { regs := [(⟨false, d⟩, r.1, false)], flags := r.2 })) ∧
      mask (.bmaskSelf g d) (fun _ l i => i = l) ∧
      mask (.bmaskPre g w d) (fun _ l i => same l i ∧ i < l) ∧
      mask (.bmaskPost g w d) (fun _ l i => same l i ∧ i > l) ∧
      mask (.bmaskSeg g w d) (fun _ l i => same l i) ∧
      mask (.bmaskGrp g d) (fun act _ i => i ∈ lanesOf act) ∧
      ∀ s k G m act pc, Executes (.bmaskSpan g d b) s k G m act pc →
        (∀ l ∈ lanesOf act, ((G.view l).wordS b).2 = false) →
        ∃ H, exec (.bmaskSpan g d b) s = .next (s.setGang k H) ∧
          ∃ M : Nat → Mask, Wrote G H m act (fun l => .word d (M l)) ∧ ∀ l ∈ lanesOf act, ∀ j, j < 32 →
            ((M l).getLsbD j = true ↔
              let b := ((G.view l).wordS b).1.toNat
              b % 32 ≤ j ∧ j < b % 32 + b / 32 % 64))

-- Control: advancing, transfers, reconvergence, starting and meeting the sequencers, leaving, the allocation

/-- R137, R138: `NOP` has no effect on any engine and does not read its guard; `ISYNC`, once every earlier instruction of the
gang has retired, empties the core's instruction cache and the gang's line buffer. Nothing else changes. -/
def Obligations.NopAndIsyncGoOn : Prop :=
  (∀ g s k G m pc, Executes (.nop ⟨false, 7⟩) s k G m m pc →
    ∃ H, exec (.nop g) s = .next (s.setGang k H) ∧ Moved G H m m fun _ L => { L with pc := succ L.pc }) ∧
  (∀ g matrix s b B, SeqExecutes (.nop ⟨false, 7⟩) matrix s b B →
    ∃ q, exec (.nop g) s = .next (s.setBlock b (B.putSeq matrix q)) ∧ SeqWrote (B.seq matrix) q {}) ∧
  ∀ g s k G m act pc, Executes (.isync g) s k G m act pc → G.inFlight = false →
    ∃ H, exec (.isync g) s = .next
        ((s.setCore (coreOf k) { s.core (coreOf k) with icache := [] }).setGang k { H with line := none }) ∧
      Moved G H m act fun _ L => { L with pc := succ L.pc }

/-- R123, R152, R153: where no lane's target gives a fault, `BRA`, `BRX`, `CALL` and `CALLX` send each active lane to its
target, a call with the successor of its own address in the pair D; `RET` sends each to the address of its pair, whose
checks are those of its next fetch. A target outside a slot, and a call's outside slot 0, gives cause 0x04, and one whose
TARGET bit is clear cause 0x02. -/
def Obligations.TransferResults : Prop :=
  (∀ g (d : BitVec 8) (a : Reg) (off : Word),
    let goes := fun (i : Instr) (call : Bool) (clean : Gang → Nat → Prop) (target : Gang → Nat → DWord) =>
      ∀ s k G m act pc s₁ rs, Executes i s k G m act pc → (∀ l ∈ lanesOf act, clean G l) →
        s.checkTargets k G call ((lanesOf act).map fun l => (l, target G l)) = (s₁, rs, none) →
        (∀ r ∈ rs, r.2.2 = none) →
        ∃ H, exec i s = .next (s₁.setGang k H) ∧ Moved G H m act fun l L =>
          let M := if call then (L.putX d.toNat ((succ pc).setWidth 32) false).putX (d.toNat + 1)
            ((succ pc).extractLsb' 32 32) false else L
          { M with pc := target G l, checkTarget := false, checkEntry := false }
    let direct := fun (G : Gang) l => (G.lane l).pc + off.signExtend 64
    let pair := fun (G : Gang) l => ((G.view l).pair a).1
    let clean := fun (G : Gang) l => ((G.view l).pair a).2 = false
    goes (.bra g off) false (fun _ _ => True) direct ∧ goes (.call g d off) true (fun _ _ => True) direct ∧
    goes (.brx g a) false clean pair ∧ goes (.callx g d a) true clean pair ∧
    Moves (.ret g a) clean fun _ G l L => { L with pc := pair G l, checkTarget := false, checkEntry := false }) ∧
  ∀ (s : State) a e buf t entry s₁ line, s.fetchLine a e buf t = (s₁, .ok line) →
    s.checkTarget a e buf t entry = (s₁, .ok
      (if t.toNat % 64 % 12 ≠ 0 ∨ t.toNat % 64 = 60 ∨ (entry = true ∧ t.toNat % 64 ≠ 0) then some ⟨0x04, t, false, false⟩
      else if line.data.getLsbD (480 + t.toNat % 64 / 12) then none
      else some ⟨0x02, t, false, false⟩))

/-- R145, R154: the lanes of a group arrive at the entry for the address of their `RECONV`, or the first of them that is in
its own mask takes a new entry, with that mask; the lanes that are no members go on. Then each entry is freed in which
every member that has not exited has arrived, and its arrived lanes continue behind its address. -/
def Obligations.ReconvergenceResults : Prop :=
  ∀ (i : Instr) s k G m act pc (own : Nat → Word) (j : Nat) (e : Reconv) (arr : Mask),
    Executes i s k G m act pc → G.converging &&& m = 0 →
    (∃ g, (∃ M, i = .reconvImm g M ∧ ∀ l, own l = M) ∨ ∃ a, i = .reconvReg g a ∧ ∀ l, own l = ((G.view l).reg a).1) →
    -- the entry, as it stood or as it is taken, and who arrives
    (List.find? (fun x => x.2.addr == pc) G.reconv = some (j, e) ∧ arr = e.members &&& act ∨
      List.find? (fun x => x.2.addr == pc) G.reconv = none ∧
        (∀ g a, i = .reconvReg g a → ∀ l ∈ lanesOf act, ((G.view l).reg a).2 = false) ∧
        (∃ l₀, (lanesOf act).find? (fun l => (own l).getLsbD l) = some l₀ ∧ e = ⟨pc, own l₀, 0⟩ ∧
          arr = own l₀ &&& act &&& maskOf ((List.range 32).filter (l₀ ≤ ·))) ∧
        j < 8 ∧ SMap.find? G.reconv j = none ∧ ∀ n < j, (SMap.find? G.reconv n).isSome) →
    let R : SMap Reconv := if arr = 0 then G.reconv else SMap.put G.reconv j { e with arrived := e.arrived ||| arr }
    let complete := fun (x : Reconv) => x.members &&& G.live &&& ~~~x.arrived == 0
    ∃ H, exec i s = .next (s.setGang k H) ∧ H.reconv = R.filter (fun x => !complete x.2) ∧
      (∀ l < G.lanes.length, (∀ x ∈ R, complete x.2 → x.2.arrived.getLsbD l = false) →
        H.lane l = if l ∈ lanesOf m ∧ arr.getLsbD l = false then { G.lane l with pc := succ pc } else G.lane l) ∧
      (∀ l < G.lanes.length, ∀ x ∈ R, complete x.2 → x.2.arrived.getLsbD l → ∃ y ∈ R, complete y.2 ∧
        y.2.arrived.getLsbD l ∧ H.lane l = { G.lane l with pc := succ y.2.addr }) ∧
      { H with
        lanes := G.lanes, reconv := G.reconv, walkFaults := G.walkFaults, refetched := G.refetched, answers := G.answers } = G

/-- R191, R192: `FORK` answers 3 for a gang that the block does not have, 2 for a sequencer that it does not claim or that
has no entry, 1 while either sequencer is not IDLE, and otherwise 0: then the party set is formed and each named sequencer
starts at its entry, with registers 0 to 7 from k0 to k7 of the lowest gang of the set and everything else 0. -/
def Obligations.ForkResults : Prop :=
  ∀ g d matrix copy gangs s k G m act pc B, Executes (.fork g d matrix copy gangs) s k G m act pc →
    s.blocks.find? G.block = some B →
    let M : BitVec 16 := gangs ||| BitVec.ofNat 16 (2 ^ G.number)
    let usable := fun (x : Bool) => (if x then B.claimsMatrix else B.claimsCopy) && s.seqEntry B x != 0
    let r : Word :=
      if (List.range 16).any (fun n => M.getLsbD n && B.slots.length ≤ n) then 3
      else if (matrix && !usable true) || (copy && !usable false) then 2
      else if B.mseq.run ≠ .idle ∨ B.cseq.run ≠ .idle then 1
      else 0
    ∃ H B', exec (.fork g d matrix copy gangs) s = .next ((s.setBlock G.block B').setGang k H) ∧
      Wrote G H m act (fun _ => .word d r) ∧ (r ≠ 0 → B' = B) ∧
      (r = 0 → B'.party = some ⟨M, matrix, copy, []⟩ ∧ { B' with party := B.party, mseq := B.mseq, cseq := B.cseq } = B ∧
        ∀ x : Bool, if (if x then matrix else copy) = true then
            (B'.seq x).run = .running ∧ (B'.seq x).pc = s.seqEntry B x ∧ (B'.seq x).stop = none ∧
            (∀ n, (B'.seq x).view.pred n = (decide (n = 7), false)) ∧
            ∀ low sl L, M.getLsbD low → (∀ n < low, M.getLsbD n = false) → B.slots[low]? = some sl →
              s.gangs.find? (16 * B.core + sl) = some L → ∀ n,
              (B'.seq x).view.reg ⟨false, n⟩ = if n < 8 then (L.view 0).reg ⟨true, n⟩ else (0, false)
          else B'.seq x = B.seq x)

/-- R193, R194: a gang outside the party set passes `RDV`; otherwise the lanes arrive at the point and wait, until every
party of the set has arrived: then the point's record is cleared and every lane that waits at it goes on. -/
def Obligations.RendezvousResults : Prop :=
  ∀ g (n : BitVec 4) s k G m act pc B, Executes (.rdv g n) s k G m act pc →
    s.blocks.find? G.block = some B → B.mseq.stop = none → B.cseq.stop = none →
    ((∀ P, B.party = some P → P.gangs.getLsbD G.number = false) →
      ∃ H, exec (.rdv g n) s = .next (s.setGang k H) ∧ Moved G H m act fun _ L => { L with pc := succ L.pc }) ∧
    ∀ P, B.party = some P → P.gangs.getLsbD G.number = true → s.covered B = false →
      B.core = coreOf k → B.slots[G.number]? = some (k % 16) →
      s.copiesDone (fun c => c.gang == some k && c.touchesLs) = true →
      let old := P.points.get [] n.toNat
      let mine := SMap.get 0 old G.number ||| act
      let all := (∀ x ∈ s.partyGangs B P, ∀ sl L, B.slots[x]? = some sl → s.gangs.find? (16 * B.core + sl) = some L →
          L.arrived (if x = G.number then mine else SMap.get 0 old x) = true) ∧
        (P.matrix = true → (SMap.find? old 16).isSome) ∧ (P.copy = true → (SMap.find? old 17).isSome)
      ∃ t H C, exec (.rdv g n) s = .next t ∧ t.gangs.find? k = some H ∧ t.blocks.find? G.block = some C ∧
        { t with gangs := s.gangs, blocks := s.blocks } = s ∧
        (∀ n l, ∃ p, t.lane n l = { s.lane n l with pc := p }) ∧ { C with party := B.party, mseq := B.mseq, cseq := B.cseq } = B ∧
        (¬all → (∃ Q, C.party = some Q ∧ SMap.get 0 (Q.points.get [] n.toNat) G.number = mine) ∧
          ⟨act, pc, .rdv n.toNat⟩ ∈ H.waits ∧ ∀ l ∈ lanesOf act, H.lane l = G.lane l) ∧
        (all → (∀ Q, C.party = some Q → Q.points.find? n.toNat = none) ∧ (∀ w ∈ H.waits, w.kind = .rdv n.toNat → w.lanes = 0) ∧
          C.mseq.wait ≠ .rdv n.toNat ∧ C.cseq.wait ≠ .rdv n.toNat ∧
          ∀ l ∈ lanesOf act, H.lane l = { G.lane l with pc := succ pc })

/-- R155, R347: once the gang's outstanding count is zero and no stop or held fault is due, `EXIT` ends each active lane,
with its trap depth and its stay in H mode over; other lanes may be released by that, and keep everything but their
address. A sequencer's `EXIT` waits for what it has issued (R195). -/
def Obligations.ExitEndsLanes : Prop :=
  (∀ g s k G m act pc B, Executes (.exit g) s k G m act pc → s.blocks.find? G.block = some B →
    B.mseq.stop = none → B.cseq.stop = none → s.drain k act = (s, true) →
    (∀ h ∈ G.heldFaults, act.getLsbD h.lane = false) →
    ∃ t, exec (.exit g) s = .next t ∧ (∀ n, t.gangs.find? n = none ↔ s.gangs.find? n = none) ∧
      ∀ n l, ∃ p, t.lane n l =
        if n = k ∧ l ∈ lanesOf act then
          { s.lane n l with life := .exited, depth := 0, hd := false, incont := false, pc := p }
        else { s.lane n l with pc := p }) ∧
  ∀ g matrix s b B, SeqExecutes (.exit g) matrix s b B →
    exec (.exit g) s = .next (s.setBlock b (B.putSeq matrix { B.seq matrix with exiting := true }))

/-- R149, R160: `GROW` grants n registers per thread where the total stays at most 256 and the core's pool has them free,
and sets its predicate; where it cannot ever be granted it clears the predicate, and where the registers are not free yet
`GROW.try` clears it and the group of a `GROW` waits, also behind the core's older requests. `SHRINK` returns n registers, which lose their
contents. -/
def Obligations.AllocationResults : Prop :=
  (∀ g d n try_ s k G m act pc, let i := if try_ then Instr.growTry g d n else .grow g d n
    Executes i s k G m act pc →
    let never := 256 < G.alloc + n.toNat ∨ 32768 - s.reservedRegs (coreOf k) < 32 * n.toNat
    let free := 32 * n.toNat ≤ s.freeRegs (coreOf k) ∧ (s.core (coreOf k)).grow = []
    ∃ H, (¬never → free → Wrote G H m act (fun _ => .pred d true) ∧
        exec i s = .next (s.setGang k { H with alloc := G.alloc + n.toNat })) ∧
      (never ∨ (¬free ∧ try_ = true) → Wrote G H m act (fun _ => .pred d false) ∧ exec i s = .next (s.setGang k H)) ∧
      (¬never → ¬free → try_ = false →
        exec i s = .next ((s.setCore (coreOf k) { s.core (coreOf k) with
            grow := (s.core (coreOf k)).grow ++ [⟨k % 16, act, n.toNat, d, m &&& ~~~act⟩] }).setGang k
          { G with waits := G.waits ++ [⟨act ||| (m &&& ~~~act), pc, .grow n.toNat d⟩] }))) ∧
  ∀ g n s k G m act pc, Executes (.shrink g n) s k G m act pc → n.toNat + 8 ≤ G.alloc → (s.core (coreOf k)).grow = [] →
    ∃ H, exec (.shrink g n) s = .next ((s.setCore (coreOf k) (s.core (coreOf k))).setGang k H) ∧
      H.alloc = G.alloc - n.toNat ∧ (∀ l r, (H.view l).reg ⟨false, r⟩ =
        if r.toNat < G.alloc - n.toNat then (G.view l).reg ⟨false, r⟩ else (0, false)) ∧
      (∀ l, { H.lane l with x := (G.lane l).x, xp := (G.lane l).xp } =
        if l ∈ lanesOf m then { G.lane l with pc := succ pc } else G.lane l) ∧
      { H with
        alloc := G.alloc, lanes := G.lanes, walkFaults := G.walkFaults, refetched := G.refetched, answers := G.answers } = G

-- Memory instructions

/-- R223, R225, R228, R230: `LD` writes each active lane's elements from the bytes at its address, as a load of the byte alone
sees them, with their poison; `LDK` reads once, at the address in k registers, and writes k registers. A load from a window or a memory-side
page takes the bytes as they stand and changes nothing else; a load through the caches changes caches alone, and at scopes
gang and blk only these. -/
def Obligations.LoadResults : Prop :=
  ∀ g cnt ty sc pol d a off (s s₁ s₂ : State) k G m act pc A P (bs : Nat → List PByte),
    let n := ty.bytes * cnt.n
    let quiet := fun (t : State) =>
      { t with cores := s₁.cores, l2 := s₁.l2, l2Dirty := s₁.l2Dirty, rdc := s₁.rdc, hbm := s₁.hbm,
               hbmPoison := s₁.hbmPoison, elide := s₁.elide, monitors := s₁.monitors, inputs := s₁.inputs } = s₁
    (Executes (.ld g cnt ty sc pol d a off) s k G m act pc → Placed s s₁ k G act a off n n .read A P → Unheld s₁ k act n A P →
      s₁.loadLanes (coreOf k) n sc pol [] ((lanesOf act).map fun l => (l, A l, P l)) =
        (s₂, (lanesOf act).map fun l => (l, .ok (bs l))) →
      ∃ H, exec (.ld g cnt ty sc pol d a off) s = .next (s₂.setGang k H) ∧
        Wrote G H m act (fun l => { regs := loadRegs ty ⟨false, d⟩ cnt.n (bs l) }) ∧ quiet s₂ ∧
        (sc = .gang ∨ sc = .blk → pol ≠ .nc → { s₂ with cores := s₁.cores, l2 := s₁.l2, rdc := s₁.rdc } = s₁) ∧
        (∀ l ∈ lanesOf act, ∀ pa, P l = .mem pa false → ∀ i < n,
          [((bs l).map (·.1))[i]?] = (s₁.byteSeen (coreOf k) sc pol (pa + i)).map some) ∧
        ((∀ l ∈ lanesOf act, ∀ pa, P l ≠ .mem pa false) → s₂ = s₁ ∧ ∀ l ∈ lanesOf act, bs l =
          match P l with
          | .ls b o => s₁.lsRead b o n
          | .mem pa _ => s₁.dram pa n
          | .global _ _ => [])) ∧
    ∀ ka : BitVec 8, Executes (.ldk g cnt ty sc d ka off) s k G m act pc → Placed s s₁ k G act ⟨true, ka⟩ off n n .read A P →
      Unheld s₁ k act n A P →
      (let l := (lanesOf act).headD 0
       s₁.loadLanes (coreOf k) n sc .normal [] [(l, A l, P l)] = (s₂, [(l, .ok (bs 0))])) →
      ∃ H, exec (.ldk g cnt ty sc d ka off) s = .next (s₂.setGang k H) ∧
        Wrote G H m act (fun _ => { regs := loadRegs ty ⟨true, d⟩ cnt.n (bs 0) }) ∧ quiet s₂

/-- R227, R230: `ST` writes each active lane's elements, with their poison, to the bytes at its address, the highest lane
winning where lanes share a byte; no register changes, and every other byte of a window, of the memory as the core reads it
at any scope, or of a memory-side page reads as before. -/
def Obligations.StoreResults : Prop :=
  ∀ g cnt ty sc pol a b off (s s₁ : State) k G m act pc A P, let n := ty.bytes * cnt.n
    Executes (.st g cnt ty sc pol a b off) s k G m act pc → Placed s s₁ k G act a off n n .write A P →
    Unheld s₁ k act n A P →
    let bytes := fun l => storeBytesOf (G.view l) ty b cnt.n
    let W := (lanesOf act).foldl (fun w l => w.add (P l) (bytes l)) ({} : Stores)
    ∃ H, exec (.st g cnt ty sc pol a b off) s = .next ((s₁.performStores (coreOf k) W sc pol).setGang k H) ∧
      let t := (s₁.performStores (coreOf k) W sc pol).setGang k H
      Moved G H m act (fun _ L => { L with pc := succ L.pc }) ∧
      { t with gangs := s.gangs.put k H, blocks := s.blocks, cores := s.cores, l2 := s.l2, l2Dirty := s.l2Dirty,
               rdc := s.rdc, hbm := s.hbm, hbmPoison := s.hbmPoison, elide := s.elide, elideConst := s.elideConst, monitors := s.monitors,
               inputs := s.inputs } = { s with gangs := s.gangs.put k H } ∧
      (∀ w o, (s.blocks.find? w).isSome → (t.lsRead w o 1).map (·.1) =
        [((storedAt act (fun l => match P l with | .ls w' x => if w' = w then some x else none | _ => none) bytes o).map
          (·.1)).getD (((s.lsRead w o 1).map (·.1)).headD 0)]) ∧
      ((∀ l ∈ lanesOf act, ∃ pa, P l = .mem pa false) → ∀ sc' pol' pa, t.byteSeen (coreOf k) sc' pol' pa =
        [((storedAt act (fun l => match P l with | .mem x _ => some x | _ => none) bytes pa).map (·.1)).getD
          ((s.byteSeen (coreOf k) sc' pol' pa).headD 0)]) ∧
      ((∀ l ∈ lanesOf act, ∃ pa, P l = .mem pa true) → ∀ pa, t.dramByte pa =
        ((storedAt act (fun l => match P l with | .mem x _ => some x | _ => none) bytes pa).map (·.1)).getD
          (s.dramByte pa))

/-- R229: an address is refused for its poisoned base with cause 0x07, then for its region or limit with cause 0x06, then for
its alignment with cause 0x04, and STVAL is the address; a lane in U or S mode whose address of a load or store is refused,
but for a page that is not valid, takes that trap at once, and the others of the group execute. -/
def Obligations.AddressFaults : Prop :=
  (∀ (s : State) b B (base : DWord × Bool) (imm : Word) n align,
    let a := base.1 + imm.signExtend 64
    s.form b B base imm n align =
      if base.2 then .error ⟨0x07, 0, false, false⟩
      else match s.site b B a 1, s.site b B a n with
        | none, _ => .error ⟨0x06, a, false, false⟩
        | some _, none => .error ⟨if a.toNat % align ≠ 0 then 0x04 else 0x06, a, false, false⟩
        | some _, some x => if a.toNat % align ≠ 0 then .error ⟨0x04, a, false, false⟩ else .ok (a, x)) ∧
  ∀ g cnt ty sc pol d a b off (s s₁ : State) k G m act pc B (f : Nat → LaneFault), let n := ty.bytes * cnt.n
    ∀ i acc, (i = .ld g cnt ty sc pol d a off ∧ acc = .read ∨ i = .st g cnt ty sc pol a b off ∧ acc = .write) →
    Executes i s k G m act pc → s.blocks.find? G.block = some B →
    s.laneAddrs k G B (fun l => (G.view l).pair a) off n n acc (lanesOf act) =
      (s₁, (lanesOf act).map fun l => (l, .bad (f l)), none) →
    (∀ l ∈ lanesOf act, (f l).cause ≠ 0x05 ∧ (G.lane l).mode ≠ .hypervisor) →
    ∃ t, exec i s = .next t ∧ { t with gangs := s₁.gangs } = s₁ ∧ (∀ n ≠ k, t.gangs.find? n = s.gangs.find? n) ∧
      ∀ l, t.lane k l =
        if l ∈ lanesOf act then (s₁.trap k l (f l).cause (f l).v pc (f l).host (f l).migrating).lane k l
        else if l ∈ lanesOf m then { G.lane l with pc := succ pc } else G.lane l

/-- R231, R232: `PREF` brings each lane's line into the caches of its scope and never faults; `CFLUSH` writes a line's dirty
bytes back, `CFLUSH.inv` also drops it, `CINV` drops what is clean of it; at scopes gang and blk the last three do nothing. -/
def Obligations.CacheOperationResults : Prop :=
  (∀ g sc a off (s s₁ : State) k G m act pc,
    (∀ i f, (i = .cflush g sc a off ∧ f = (fun s x => State.flushLine s (coreOf k) sc false x) ∨
        i = .cflushInv g sc a off ∧ f = (fun s x => State.flushLine s (coreOf k) sc true x) ∨
        i = .cinv g sc a off ∧ f = (fun s x => State.invalidateLine s (coreOf k) sc x)) →
      ∀ A P, Executes i s k G m act pc → Placed s s₁ k G act a off 1 1 .readOrWrite A P →
      let lines := ((lanesOf act).filterMap fun l => match P l with | .mem pa false => some (pa / 128) | _ => none).dedup
      ∃ H, exec i s = .next ((lines.foldl f s₁).setGang k H) ∧ Moved G H m act fun _ L => { L with pc := succ L.pc }) ∧
    ∀ B rs, Executes (.pref g sc a off) s k G m act pc → s.blocks.find? G.block = some B →
      s.laneAddrs k G B (fun l => (G.view l).pair a) off 1 1 .readOrWrite (lanesOf act) = (s₁, rs, none) →
      let lines := (rs.filterMap fun r => match r.2 with | .at _ (.mem pa false) => some (pa / 128) | _ => none).dedup
      ∃ H, exec (.pref g sc a off) s =
          .next ((lines.foldl (fun s x => s.prefetch (coreOf k) sc x) s₁).setGang k H) ∧
        Moved G H m act fun _ L => { L with pc := succ L.pc }) ∧
  ∀ (s : State) c sc line x, x / 4 = line →
    let l1 := fun (t : State) => (t.core c).l1.find? (l1Key x (s.core c).secure)
    let rdc := fun (t : State) => t.rdc.find? (rdcKey (c / 512) x)
    (sc = .gang ∨ sc = .blk → ∀ inv, s.flushLine c sc inv line = s ∧ s.invalidateLine c sc line = s) ∧
    (sc ≠ .gang → sc ≠ .blk →
      (∀ e, l1 (s.flushLine c sc false line) = some e → e.dirty = 0) ∧ l1 (s.flushLine c sc true line) = none ∧
      (∀ e, l1 (s.invalidateLine c sc line) = some e → e.dirty ≠ 0) ∧
      (∀ e, l1 s = some e → e.dirty ≠ 0 → l1 (s.invalidateLine c sc line) = some e)) ∧
    (sc = .pkg ∨ sc = .sys → (∀ e, rdc (s.flushLine c sc false line) = some e → e.dirty = 0) ∧
      rdc (s.flushLine c sc true line) = none) ∧
    (sc = .gang ∨ sc = .blk → (l1 (s.prefetch c sc line)).isSome) ∧
    (sc = .gang ∨ sc = .blk ∨ sc = .die → if x / 2 ^ 31 = c / 512 then ((s.prefetch c sc line).l2.find? x).isSome else
      (rdc (s.prefetch c sc line)).isSome)

/-- R219, R226, R228, R230: a byte that a core has stored at one scope and policy, it reads at any scope and policy; and every
byte that it has not stored it reads as before. -/
def Obligations.CoreReadsItsOwnStores : Prop :=
  ∀ (s : State) core (ws : SMap PByte) sc pol sc' pol' pa, ws.sorted = true →
    (s.storeBytes core ws sc pol false).byteSeen core sc' pol' pa =
      match ws.find? pa with
      | some b => [b.1]
      | none => s.byteSeen core sc' pol' pa

/-- R220: an acquire at die scope or wider leaves the core's L1 empty, at pkg scope or wider also the die's RDC; a release at
die scope or wider leaves no dirty sector in the L1 whose tag is narrower than die, and at pkg scope or wider no dirty byte in
the die's RDC. At gang and blk scope both do nothing. -/
def Obligations.ReleaseAndAcquireActions : Prop :=
  ∀ (s : State) c sc,
    (sc = .gang ∨ sc = .blk → s.releaseAt c sc = s ∧ s.acquireAt c sc = s) ∧
    (sc ≠ .gang → sc ≠ .blk → ((s.acquireAt c sc).core c).l1 = [] ∧
      ∀ key x, ((s.releaseAt c sc).core c).l1.find? key = some x → x.tag = .gang ∨ x.tag = .blk → x.dirty = 0) ∧
    (sc = .pkg ∨ sc = .sys → (∀ e ∈ (s.acquireAt c sc).rdc, e.1 / 2 ^ 40 ≠ c / 512) ∧
      ∀ key r, (s.releaseAt c sc).rdc.find? key = some r → key / 2 ^ 40 = c / 512 → r.dirty = 0)

-- Fences, barriers, atomics, waiting

/-- R287, R288: once what a fence waits for is done and no active lane has a held fault due, `FENCE` and `FENCEX` make the
cache actions of a release and then of an acquire at their scope, for `FENCEX` pkg at least where it names the thread path
with the copy, bulk or conversation path, and the group goes on. -/
def Obligations.FenceResults : Prop :=
  ∀ g sc (n : BitVec 5),
    let e := if n.getLsbD 0 ∧ (n.getLsbD 1 ∨ n.getLsbD 3 ∨ n.getLsbD 4) ∧ sc ≠ .sys then Scope.pkg else sc
    let fences := fun (i : Instr) (at_ : Scope) (done : State → Nat → Mask → Prop) =>
      ∀ s k G m act pc, Executes i s k G m act pc → done s k act →
        (∀ h ∈ G.heldFaults, act.getLsbD h.lane = false) →
        ∃ H, exec i s = .next (((s.releaseAt (coreOf k) at_).acquireAt (coreOf k) at_).setGang k H) ∧
          Moved G H m act fun _ L => { L with pc := succ L.pc }
    fences (.fence g sc) sc (fun s k act => s.drain k act = (s, true)) ∧
    fences (.fencex g sc n) e (fun s k act => s.drain k act = (s, true) ∧ s.pathsDone k act n = true) ∧
    ∀ i matrix at_ s b B, (i = .fence g sc ∧ at_ = sc ∧ s.copiesDone (·.ofSeq b matrix) = true ∨
        i = .fencex g sc n ∧ at_ = e ∧ (n.getLsbD 1 = true → s.copiesDone (·.ofSeq b matrix) = true)) →
      SeqExecutes i matrix s b B → ∃ q, exec i s =
        .next (((s.releaseAt B.core at_).acquireAt B.core at_).setBlock b (B.putSeq matrix q)) ∧
        SeqWrote (B.seq matrix) q {}

/-- R283 to R286: lanes that arrive at a barrier in its current phase are counted, and wait, or with `.arv` go on at once.
When every member has arrived the phase ends: the next begins with no arrivals, and the lanes that wait continue. No other
register, predicate or flag of any lane changes. -/
def Obligations.BarrierResults : Prop :=
  ∀ g (n : BitVec 4) (i : Instr) (r : BarRef) (wait : Bool) s k G m act pc B, Executes i s k G m act pc →
    s.blocks.find? G.block = some B →
    (i = .barGang g ∧ r = .gang k ∧ wait = true ∨
      (i = .barBlk g n ∧ wait = true ∨ i = .barBlkArv g n ∧ wait = false) ∧ r = .blk G.block n.toNat ∧ n.toNat < B.bars ∨
      (i = .barEns g n ∧ wait = true ∨ i = .barEnsArv g n ∧ wait = false) ∧ n.toNat < B.ebars ∧
        (∃ e, B.ens = some e ∧ r = .ens e n.toNat ∧ (s.ensembles.find? e).isSome) ∨
      i = .barCoop g n ∧ wait = true ∧ r = .coop B.tag n.toNat ∧ n.toNat < B.cbars ∧ (s.launches.find? B.tag).isSome) →
    (wait = true → B.mseq.stop = none ∧ B.cseq.stop = none ∧ s.covered B = false) → s.drain k act = (s, true) →
    k ∈ s.members r → (s.barrier r).arrived.get 0 k &&& act = 0 →
    let b := s.barrier r
    let b' := { b with arrived := b.arrived.write 0 k (b.arrived.get 0 k ||| act) }
    let all := (s.members r).all (s.gangArrived b') && s.coopReady r
    ∃ t H, exec i s = .next t ∧ t.gangs.find? k = some H ∧
      (∀ n l, ∃ p, t.lane n l = { s.lane n l with pc := p }) ∧
      t.barrier r = (if all then ⟨b.phase + 1, []⟩ else b') ∧
      (all = false → wait = true → ⟨act, pc, .bar r b.phase⟩ ∈ H.waits ∧ ∀ l ∈ lanesOf act, (H.lane l).pc = pc) ∧
      (all = true ∨ wait = false → (∀ l ∈ lanesOf act, (H.lane l).pc = succ pc) ∧ ∀ w ∈ H.waits, w.lanes &&& act = 0) ∧
      (all = true → ∀ x ∈ s.members r, ∀ X, t.gangs.find? x = some X → ∀ w ∈ X.waits, w.kind = .bar r b.phase → w.lanes = 0)

/-- R289 to R292: `ATOM` and `RED` update the word of each active lane, lowest lane first, at its place, between the release
and the acquire that the order asks for; `ATOM` returns the old value to D. Of an unpoisoned word and operand, the update
leaves the operation's value. -/
def Obligations.AtomicResults : Prop :=
  ∀ g op ty ord rel sc ms scope d a b c off (s s₁ : State) k G m act pc A P,
    let x := fun l => (G.view l).raw ty b
    let y := fun l => (G.view l).raw ty c
    let step := fun (u : Nat → Update) (r : State × (Nat → List PByte)) l =>
      let z := r.1.atomAt (coreOf k) ⟨ty, scope, sc, ms, false, false, true⟩ (P l) ((u l).bytes ⟨s.ctr, l⟩)
      (z.1, fun j => if j = l then z.2 else r.2 j)
    let gives := fun (i : Instr) (relq acq returns : Bool) (u : Nat → Update) =>
      Executes i s k G m act pc → Placed s s₁ k G act a off ty.bytes ty.bytes .readWrite A P →
      Unheld s₁ k act ty.bytes A P → (relq = true → s₁.drain k act = (s₁, true)) →
      let s₂ := if relq then s₁.releaseAt (coreOf k) scope else s₁
      let r := (lanesOf act).foldl (step u) (s₂, fun _ => [])
      ∃ H, exec i s = .next ((if acq then r.1.acquireAt (coreOf k) scope else r.1).setGang k H) ∧
        Wrote G H m act (fun l => if returns then { regs := oldRegs ty d (r.2 l) } else {})
    gives (.atom g op ty ord sc ms scope d a b off) (ord == .rel || ord == .acqrel || sc)
      (ord == .acq || ord == .acqrel || sc) true (fun l => ⟨fun v => atomValue op ty v (x l).1, (x l).1, (x l).2⟩) ∧
    gives (.atomCas g ty ord sc ms scope d a b c off) (ord == .rel || ord == .acqrel || sc)
      (ord == .acq || ord == .acqrel || sc) true
      (fun l => ⟨fun v => if v = (y l).1 then (x l).1 else v, (x l).1, (x l).2 || (y l).2⟩) ∧
    gives (.red g op ty rel sc ms scope a b off) (rel || sc) sc false
      (fun l => ⟨fun v => atomValue op ty v (x l).1, (x l).1, (x l).2⟩)

/-- R289, R290: an atomic update whose operand and word are not poisoned replaces the word at its place by the operation's
value and answers the word as it was; one with `.sc` takes the next ticket. -/
def Obligations.AtomicUpdatesItsWord : Prop :=
  ∀ (s : State) core (f : AtomForm) (sp : Spot) (u : Update) e, u.poison = false →
    let n := f.ty.bytes
    let r := s.atomAt core f sp (u.bytes e)
    r.1.ticket = s.ticket + (if f.sc then 1 else 0) ∧
    (∀ w o, sp = .ls w o → (s.blocks.find? w).isSome → (s.lsRead w o n).any (·.2) = false →
      r.2 = s.lsRead w o n ∧
        (r.1.lsRead w o n).map (·.1) = toBytes n (u.f (ofBytes ((s.lsRead w o n).map (·.1))))) ∧
    (∀ pa ms, sp = .mem pa ms → pa % n = 0 → r.2.any (·.2) = false → (f.ms || ms) = true →
      let s₁ := s.l1Flush core (l1Key (pa / 32) (s.core core).secure)
      let s₂ := if pa / 2 ^ 36 = core / 512 then s₁ else s₁.rdcFlush (core / 512) (pa / 32)
      r.2.map (·.1) = (List.range n).map (fun j => s₂.dramByte (pa + j)) ∧
      (List.range n).map (fun j => r.1.dramByte (pa + j)) = toBytes n (u.f (ofBytes (r.2.map (·.1))))) ∧
    ∀ pa sc', sp = .mem pa false → f.ms = false → pa % n = 0 → r.2.any (·.2) = false →
      (if f.sc then sc'.pkgWide else f.scope = sc') = true →
      r.2.map (·.1) = ((s.loadBytes core pa n sc' .normal false).2).map (·.1) ∧
      ((r.1.loadBytes core pa n sc' .normal false).2).map (·.1) = toBytes n (u.f (ofBytes (r.2.map (·.1))))

/-- R241, R271, R293, R294: the lanes of `WAITA` and `AWAIT` are armed on their words, to which the core's own dirty bytes are
brought home, where no stop and no cancel is due. If each lane's word is clean and meets its condition, the group goes on at
once: D receives the value read, of which the core's copies are refreshed, and the acquire is made.
Otherwise the group waits, each lane as a waiter of a monitor of its core on its word. -/
def Obligations.WordWaitResults : Prop :=
  ∀ g cond ty sc d a b c off (s s₁ : State) k G m act pc A P B,
    s.blocks.find? G.block = some B → B.mseq.stop = none → B.cseq.stop = none → s.covered B = false →
    s.monitors.sorted = true → (∀ l ∈ lanesOf act, s.unwatched k l) →
    let s₂ := (lanesOf act).foldl (fun s l => s.bringHome (coreOf k) (wordAt (P l)).1) s₁
    let s₃ := (lanesOf act).foldl (fun s l => s.refreshAt (coreOf k) (wordAt (P l)).1) s₂
    let word := fun l => s₂.watched (wordAt (P l)).1
    let waits := fun (i : Instr) (wide : Bool) (value : Nat → DWord) (met : Nat → Prop) (cond : Nat → MonCond)
        (limit : Nat → Option Nat) =>
      ((∀ l ∈ lanesOf act, (word l).2 = false ∧ met l) →
        ∃ t H M, exec i s = .next t ∧ { t with monitors := M } =
            { (s₃.acquireAt (coreOf k) sc).setGang k H with monitors := M } ∧
          Wrote G H m act (fun l => { regs := (⟨false, d⟩, (value l).setWidth 32, false) ::
            if wide then [(⟨false, d + 1⟩, (value l).extractLsb' 32 32, false)] else [] })) ∧
      ((∃ l ∈ lanesOf act, (word l).2 = true ∨ ¬met l) →
        ∃ t H M id, exec i s = .next t ∧ t = { s₂.setGang k H with monitors := M } ∧
          Moved G { H with waits := G.waits } m act (fun _ L => L) ∧
          H.waits = G.waits ++ [⟨act, pc, .monitor id d wide (some sc)⟩] ∧
          ∀ l ∈ lanesOf act, ∃ x ∈ M, x.2.core = coreOf k ∧ x.2.place = (wordAt (P l)).1 ∧
            ∃ w ∈ x.2.waiters, w.who = .lane k l ∧ w.cond = cond l ∧ w.limit = limit l)
    let v := fun l => BitVec.ofNat 64 ((word l).1.toNat / 2 ^ (8 * (wordAt (P l)).2) % 2 ^ ty.width)
    let x := fun l => ((G.view l).raw ty b).1
    let val := fun (n : Nat) => View.valOf ty n
    (Executes (.waita g cond ty sc d a b c off) s k G m act pc →
      Placed s s₁ k G act a off ty.bytes ty.bytes .read A P → Unheld s₁ k act ty.bytes A P →
      (∀ l ∈ lanesOf act, ((G.view l).raw ty b).2 = false ∧ ((G.view l).reg c).2 = false) →
      waits (.waita g cond ty sc d a b c off) ty.is64 v
        (fun l => match cond with
          | .ne => val (v l).toNat ≠ val (x l)
          | .eq => val (v l).toNat = val (x l)
          | .ge => val (v l).toNat ≥ val (x l)
          | .lt => val (v l).toNat < val (x l))
        (fun l => .waita cond ty (BitVec.ofNat 64 (x l)) (wordAt (P l)).2)
        (fun l => if ((G.view l).reg c).1 = 0 then none
          else some ((s₁.counter (coreOf k / 512)).toNat + ((G.view l).reg c).1.toNat))) ∧
    (Executes (.await g sc d a b off) s k G m act pc → Placed s s₁ k G act a off 8 8 .read A P →
      Unheld s₁ k act 8 A P → (∀ l ∈ lanesOf act, ∀ pa, P l ≠ .mem pa false) →
      (∀ l ∈ lanesOf act, ((G.view l).reg b).2 = false) →
      waits (.await g sc d a b off) false (fun l => ((word l).1.extractLsb' 48 16).setWidth 64)
        (fun l => let n := ((word l).1.extractLsb' 48 16 - ((G.view l).reg b).1.setWidth 16 : BitVec 16).toNat
          1 ≤ n ∧ n ≤ 0x7FFF)
        (fun l => .await (((G.view l).reg b).1.setWidth 16)) (fun _ => none))

/-- R239, R240: each active lane of `ARRIVE` adds to the counter at its place, lowest lane first, after a release; with
`.ann` the total is taken off and announced. An update of a clean counter word adds to COUNT, keeps or sets ANN, and ends the
phase when ANN is set and COUNT is zero; a poisoned word stays. A sequencer adds once, to a counter of the block's window, after
the copies that it issued and the release. -/
def Obligations.ArrivalResults : Prop :=
  ∀ g sc a b c off,
    let count := fun (ann : Bool) (v : View) => if ann then (v.reg c).1 - (v.reg b).1 else (v.reg b).1
    let clean := fun (ann : Bool) (v : View) => (v.reg b).2 = false ∧ (ann = true → (v.reg c).2 = false)
    let op := fun (ann : Bool) => if ann then Instr.arriveAnn g sc a b c off else .arrive g sc a b off
    (∀ ann (s s₁ : State) k G m act pc A P, Executes (op ann) s k G m act pc →
      Placed s s₁ k G act a off 8 8 .readWrite A P → Unheld s₁ k act 8 A P →
      (∀ l ∈ lanesOf act, ∀ pa, P l ≠ .mem pa false) → (∀ l ∈ lanesOf act, clean ann (G.view l)) →
      s₁.drain k act = (s₁, true) →
      ∃ H, exec (op ann) s = .next (((lanesOf act).foldl (fun s l => s.arriveAt (P l) (count ann (G.view l)) ann)
          (s₁.releaseAt (coreOf k) sc)).setGang k H) ∧
        Moved G H m act fun _ L => { L with pc := succ L.pc }) ∧
    (∀ ann matrix s n B, SeqExecutes (op ann) matrix s n B → clean ann (B.seq matrix).view →
      ((B.seq matrix).view.reg a).2 = false →
      let o := (((B.seq matrix).view.reg a).1 + off).toNat
      o % 8 = 0 → o + 8 ≤ B.lsb → s.copiesDone (·.ofSeq n matrix) = true → s.held B.core 0 (.ls n o) 8 = false →
      ∃ t C q, exec (op ann) s = .next t ∧ t.blocks.find? n = some C ∧ C.seq matrix = q ∧
        SeqWrote (B.seq matrix) q {} ∧
        { t with blocks := s.blocks, monitors := s.monitors } = { s.releaseAt B.core sc with monitors := s.monitors } ∧
        ∀ w x, (t.lsRead w x 1).map (·.1) =
          ((s.arriveAt (.ls n o) (count ann (B.seq matrix).view) ann).lsRead w x 1).map (·.1)) ∧
    ∀ (s : State) (sp : Spot) (add : Word) (ann : Bool) (old : List PByte), 
      (∃ w o, sp = .ls w o ∧ (s.blocks.find? w).isSome ∧ old = s.lsRead w o 8) ∨ (∃ pa, sp = .mem pa true ∧ old = s.dram pa 8) →
      let t := s.arriveAt sp add ann
      let v : DWord := BitVec.ofNat 64 (ofBytes (old.map (·.1)))
      let n := v.extractLsb' 0 32 + add
      let a' := ann || v.getLsbD 32
      let phase := v.extractLsb' 48 16
      let new : DWord := if a' ∧ n = 0 then (phase + 1) ++ (0 : BitVec 48) else phase ++ ((0 : BitVec 15) ++ (BitVec.ofBool a' ++ n))
      if old.any (·.2) then t = s else
        (∀ w o, sp = .ls w o → (t.lsRead w o 8).map (·.1) = toBytes 8 new.toNat) ∧
        (∀ pa, sp = .mem pa true → (t.dram pa 8).map (·.1) = toBytes 8 new.toNat)

/-- R235, R236, R242, R243, R255: `CPY` puts one copy in flight for each active lane, lowest first, and `BULK` one for the
group, in the gang's open batch, once the core has the slots; they name what their registers name. No register changes. -/
def Obligations.CopyIssueResults : Prop :=
  (∀ g a b c loc s k G m act pc B (cs : List CounterAt), Executes (.cpy g a b c loc) s k G m act pc →
    s.blocks.find? G.block = some B → s.counterOf G.block B loc = .ok cs →
    let dst := fun l => ((G.view l).pair a).1
    let src := fun l => ((G.view l).pair b).1
    let len := fun l => ((G.view l).reg c).1.toNat
    (∀ l ∈ lanesOf act, ((G.view l).pair a).2 = false ∧ ((G.view l).pair b).2 = false ∧ ((G.view l).reg c).2 = false ∧
      s.copyCheck G.block B (dst l) (src l) { rowLen := len l } (2 ^ 24) = none) →
    (lanesOf act).length ≤ 32 - (s.copies.filter (·.2.core == B.core)).length →
    ∃ H D, exec (.cpy g a b c loc) s = .next ({ s with copies := D }.setGang k
        { H with openCopies := G.openCopies + (lanesOf act).length }) ∧
      Moved G H m act (fun _ L => { L with pc := succ L.pc }) ∧
      Gained s.copies D ((lanesOf act).map fun l =>
        { core := B.core, block := G.block, ctx := s.ctxId (B.core / 512), issuer := 0, gang := some k, lane := l,
          batch := G.batch, pc := pc, mode := (G.lane l).mode, secure := (s.core B.core).secure, dst := dst l, src := src l,
          dsts := (s.site G.block B (dst l) 1).toList, srcAt := (s.site G.block B (src l) 1).getD (.va 0),
          rowLen := len l, rows := 1, dPitch := 0, sPitch := 0, no := 0, len := len l, locator := loc, counters := cs })) ∧
  ∀ g a b (s s₁ : State) k G m act pc B x c pa, Executes (.bulk g a b) s k G m act pc →
    s.blocks.find? G.block = some B → let low := (lanesOf act).headD 0
    bulkFields (G.view low) a b = .ok x → s.bulkCopy G.block B x pc (G.lane low).mode = .ok c →
    s.bulkRctr (s.asker k G act (G.lane low).mode) x.rctr = (s₁, .ok (.ok pa)) →
    (s.copies.filter (·.2.core == B.core)).length < 32 →
    let r := fun (i : BitVec 8) => ((G.view low).reg ⟨true, a + i⟩).1
    (∃ H D, exec (.bulk g a b) s = .next ({ s₁ with copies := D }.setGang k { H with openCopies := G.openCopies + 1 }) ∧
      Moved G H m act (fun _ L => { L with pc := succ L.pc }) ∧
      Gained s.copies D [{ c with gang := some k, lane := low, batch := G.batch, rctrPa := pa, lsHeld := [], no := 0 }]) ∧
    c.issuer = 1 ∧ c.dst = r 1 ++ r 0 ∧ c.src = r 3 ++ r 2 ∧ c.rowLen = (r 4).toNat ∧ c.rows = 1 ∧ c.locator = r 5 ∧
    c.rctr = r 7 ++ r 6 ∧ x.mask = ((G.view low).wordS b).1 ∧
    (x.mask = 0 → c.dsts = (s.site G.block B c.dst 1).toList ∧ c.multi = false) ∧
    (x.mask ≠ 0 → c.multi = true ∧ ∀ E, B.ens.bind s.ensembles.find? = some E →
      c.dsts = ((List.range 16).filter fun i => x.mask.getLsbD i).filterMap fun i =>
        (E.members[i]?).map fun M => .ls M.1 (c.dst.toNat % 2 ^ 23))

/-- R242, R244, R245, R249, R256: `CPSEAL` seals an open batch that is not empty; `CPWAIT` waits for all but n of the sealed
batches, and reports the oldest fault of a finished one, with cause 0x13, to its lane; `STAGE` adds stage credits; `OUTST`
reads the outstanding count. -/
def Obligations.BatchResults : Prop :=
  ∀ g s k G m act pc,
    let onward := fun (_ : Nat) (L : Lane) => { L with pc := succ L.pc }
    (Executes (.cpseal g) s k G m act pc →
      (G.openCopies = 0 → ∃ H, exec (.cpseal g) s = .next (s.setGang k H) ∧ Moved G H m act onward) ∧
      (G.openCopies ≠ 0 → G.sealed.length < 16 → (∀ w ∈ G.waits, ∀ n, w.kind ≠ .cpwait n) →
        let busy := fun n => s.copies.any fun c => c.2.gang == some k && c.2.batch == n
        ∃ H, exec (.cpseal g) s = .next (s.setGang k H) ∧ H.batch = (G.batch + 1) % 65536 ∧ H.openCopies = 0 ∧
          Moved G { H with batch := G.batch, openCopies := G.openCopies, sealed := G.sealed } m act onward ∧
          ∃ done, done ++ H.sealed = G.sealed ++ [G.batch] ∧ (∀ n ∈ done, busy n = false) ∧
            ∀ n, H.sealed.head? = some n → busy n = true) ∧
      (G.openCopies ≠ 0 → 16 ≤ G.sealed.length → ∃ H, exec (.cpseal g) s = .next (s.setGang k H) ∧
        ∃ why, H = { G with
          waits := G.waits ++ List.filter (·.lanes != 0) [⟨act, pc, .again why⟩, ⟨m &&& ~~~act, pc, .again why⟩] })) ∧
    (∀ n B, Executes (.cpwait g n) s k G m act pc → s.blocks.find? G.block = some B → B.mseq.stop = none →
      B.cseq.stop = none → s.covered B = false → (∀ f, G.oldestFault = some f → f.token < 2 ^ 32) →
      (n.toNat < G.sealed.length → ∃ H, exec (.cpwait g n) s =
          .next (s.setGang k { H with waits := G.waits ++ [⟨act, pc, .cpwait n.toNat⟩] }) ∧ Moved G H m act fun _ L => L) ∧
      (G.sealed.length ≤ n.toNat → (∀ f, G.oldestFault = some f → act.getLsbD f.lane = false) →
        ∃ H, exec (.cpwait g n) s = .next (s.setGang k H) ∧ Moved G H m act onward) ∧
      (∀ f, G.sealed.length ≤ n.toNat → G.oldestFault = some f → f.lane ∈ lanesOf act →
        (G.lane f.lane).mode ≠ .hypervisor → ∃ H, exec (.cpwait g n) s = .next (s.setGang k H) ∧
          H.copyFaults = G.copyFaults.erase f ∧ (∀ l, H.lane l =
            if l = f.lane then (s.trap k l 0x13 (BitVec.ofNat 64 f.token) pc).lane k l
            else if l ∈ lanesOf m then onward l (G.lane l) else G.lane l))) ∧
    (∀ n B, Executes (.stage g n) s k G m act pc → s.blocks.find? G.block = some B →
      (B.claimsCopy = false → ∃ H, exec (.stage g n) s = .next (s.setGang k H) ∧ Moved G H m act onward) ∧
      (B.claimsCopy = true → B.credits + n.toNat ≤ 65535 → ∃ H, exec (.stage g n) s = .next ((s.setBlock G.block
          { B with credits := B.credits + n.toNat,
                   cseq := { B.cseq with wait := if B.cseq.wait = .gate then .none else B.cseq.wait } }).setGang k H) ∧
        Moved G H m act onward)) ∧
    ∀ d, Executes (.outst g d) s k G m act pc → ∃ H, exec (.outst g d) s = .next (s.setGang k H) ∧
      Wrote G H m act fun _ => .word d (BitVec.ofNat 32 (s.outstanding k))

/-- R250 to R253: `XFER`, `XFER.2d` and `XSLIDE` put the copy that their registers name in flight and the copy sequencer goes
on; `XGATE` takes n stage credits, or waits for them; `XBUMP` advances an address pair, or a register round its ring. -/
def Obligations.CopySequencerResults : Prop :=
  ∀ g a b c d loc src (n : BitVec 8),
    let addr := fun (r : BitVec 8) (v : View) => (v.pair ⟨false, r⟩).1
    let word := fun (r : BitVec 8) (v : View) => (v.reg ⟨false, r⟩).1
    let field := fun (v : View) (lo w : Nat) => (addr c v).toNat / 2 ^ lo % 2 ^ w
    let issues := fun (i : Instr) (issuer : Nat) (dst from_ : View → DWord) (shape : View → Shape) (max : Nat)
        (pre : View → Prop) => ∀ s k B cs, SeqExecutes i false s k B → let v := B.cseq.view
      pre v → s.copyCheck k B (dst v) (from_ v) (shape v) max = none → s.counterOf k B loc = .ok cs →
      (s.copies.filter (·.2.core == B.core)).length < 32 →
      ∃ q D, exec i s = .next ({ s with copies := D }.setBlock k { B with cseq := q }) ∧ SeqWrote B.cseq q {} ∧
        Gained s.copies D [
          { core := B.core, block := k, ctx := s.ctxId (B.core / 512), issuer := issuer, gang := none, lane := 0,
            batch := 0, pc := B.cseq.pc, mode := .user, secure := (s.core B.core).secure, dst := dst v,
            src := from_ v, dsts := (s.site k B (dst v) 1).toList, srcAt := (s.site k B (from_ v) 1).getD (.va 0),
            rowLen := (shape v).rowLen, rows := (shape v).rows, dPitch := (shape v).dPitch, sPitch := (shape v).sPitch,
            no := 0, len := (shape v).rowLen * (shape v).rows, locator := loc, counters := cs }]
    let clean := fun (v : View) => (v.pair ⟨false, a⟩).2 = false ∧ (v.pair ⟨false, b⟩).2 = false
    issues (.xfer g a b c loc) 2 (addr a) (addr b) (fun v => { rowLen := (word c v).toNat }) (2 ^ 24)
      (fun v => clean v ∧ (v.reg ⟨false, c⟩).2 = false) ∧
    issues (.xfer2d g a b c loc) 2 (addr a) (addr b)
      (fun v => { rowLen := field v 0 24, rows := field v 24 8 + 1, dPitch := 16 * field v 32 16, sPitch := 16 * field v 48 16 })
      (2 ^ 24 - 16) (fun v => clean v ∧ (v.pair ⟨false, c⟩).2 = false) ∧
    issues (.xslide g a b c loc) 3 (fun v => 0x6000000000000000 + (word a v).setWidth 64)
      (fun v => addr b v + BitVec.ofNat 64 (64 * field v 16 16))
      (fun v => { rowLen := 64, rows := field v 0 16, dPitch := 64, sPitch := (field v 48 8 + 1) * field v 32 16 }) 64
      (fun v => (v.reg ⟨false, a⟩).2 = false ∧ (v.pair ⟨false, b⟩).2 = false ∧ (v.pair ⟨false, c⟩).2 = false ∧
        1 ≤ field v 0 16 ∧ field v 0 16 ≤ 1024 ∧ field v 56 8 = 0 ∧ (word a v).toNat % 64 = 0 ∧ field v 32 16 % 16 = 0) ∧
    (∀ s k B, SeqExecutes (.xgate g n) false s k B →
      (B.credits < n.toNat →
        exec (.xgate g n) s = .next (s.setBlock k { B with cseq := { B.cseq with wait := .gate } })) ∧
      (n.toNat ≤ B.credits → ∃ q, exec (.xgate g n) s =
        .next (s.setBlock k { B with credits := B.credits - n.toNat, cseq := q }) ∧ SeqWrote B.cseq q {})) ∧
    SeqGives (.xbump g d src) false (fun v => (v.pair ⟨false, d⟩).2 = false ∧ (v.wordS src).2 = false) (fun v =>
      let r := addr d v + (v.wordS src).1.signExtend 64
      { regs := [(⟨false, d⟩, r.setWidth 32, false), (⟨false, d + 1⟩, r.extractLsb' 32 32, false)] }) ∧
    SeqGives (.xbumpRing g d a src) false
      (fun v => (v.reg ⟨false, d⟩).2 = false ∧ (v.reg ⟨false, a⟩).2 = false ∧ (v.wordS src).2 = false)
      (fun v => .word d (BitVec.ofInt 32
        (((word d v).toNat + (v.wordS src).1.toInt) % (if word a v = 0 then 2 ^ 32 else (word a v).toNat))))

-- Conversations

/-- R315, R318 to R320, where the home stands on this device and the core's die has a route to it: `CBIND` answers the first code of R315's table that applies,
and 0 binds the role; `CDELEG` hands the role on under a token, with its entries; `CCLOSE` closes the conversation and gives
the role up; `CSTATE.home` and `CSTATE.role` read the home and the role register. A home on another device is asked, and the
lanes wait. -/
def Obligations.RoleResults : Prop :=
  ∀ g d (h : BitVec 3) b c s k G m act pc,
    let low := (lanesOf act).headD 0
    let x := ((G.view low).pair b).1
    let r := ((G.view low).reg c).1
    let onward := fun (_ : Nat) (L : Lane) => { L with pc := succ L.pc }
    let changes := fun (t : State) H => t.gangs = s.gangs.put k H ∧ { t with
      gangs := s.gangs, homes := s.homes, recv := s.recv, back := s.back, convEnded := s.convEnded } = s
    let asks := fun (i : Instr) (d : BitVec 8) (hd : Nat) (ask : ConvAsk) => hOwn hd = false → s.canSend (hDevice hd) 1 = true →
      ∃ t H id q, exec i s = .next t ∧ t.gangs = s.gangs.put k H ∧
        Moved G { H with waits := G.waits } m act (fun _ L => L) ∧
        H.waits = G.waits ++ [⟨act, pc, .home (2 * id + 1) d h⟩] ∧ s.requests.find? id = none ∧
        t.requests.find? id = some q ∧ q.kind = .conv ask ∧ q.device = hDevice hd ∧ q.gang = some k
    let hd := x.toNat
    let role := r.toNat % 16
    let R := (s.home hd).role role
    (Executes (.cbind g d h b c) s k G m act pc → ((G.view low).pair b).2 = false → ((G.view low).reg c).2 = false →
      let bad := r.toNat / 16 % 4096 ≠ 0 ∨ hd / 2 ^ 57 ≠ 0
      let code : Word :=
        if (G.role h.toNat).isSome then 3
        else if bad then 7
        else if (s.home hd).status ≠ .opened ∨ (s.home hd).gen ≠ hd / 65536 % 65536 then 2
        else if (s.home hd).vmid ≠ (s.ctxOf (coreOf k)).vmid then 6
        else if (s.home hd).roles.length ≤ role then 4
        else if R.holder.isSome ∨ R.token ≠ r.extractLsb' 16 16 then 1
        else if s.freeEntries (coreOf k / 512) < 8 then 5
        else 0
      (hOwn hd = true ∧ s.joinedTo (coreOf k) hd = true ∧ s.awaitsRole k h = false ∨ code = 3 ∨ code = 7 →
        ∃ t H, exec (.cbind g d h b c) s = .next t ∧ changes t H ∧
          Wrote G { H with h := G.h, hids := G.hids } m act (fun _ => .word d code) ∧
          H.role h.toNat = (if code = 0 then some (hd, role) else G.role h.toNat) ∧
          ((t.home hd).role role).holder = (if code = 0 then some ⟨none, k⟩ else R.holder)) ∧
      ((G.role h.toNat).isNone → ¬bad → s.awaitsRole k h = false →
        asks (.cbind g d h b c) d hd (.bind x role (r.extractLsb' 16 16) (s.bindId (coreOf k / 512))
          (8 ≤ s.freeEntries (coreOf k / 512))))) ∧
    ∀ hd role, G.role h.toNat = some (hd, role) →
      let R := (s.home hd).role role
      let joined := hOwn hd = true ∧ s.joinedTo (coreOf k) hd = true
      (Executes (.cdeleg g h b) s k G m act pc → ((G.view low).reg b).2 = false →
        ((G.view low).reg b).1.extractLsb' 16 16 = 0 → s.awaiting k hd role = false →
        joined → (s.home hd).status = .opened → (s.home hd).gen = hd / 65536 % 65536 → R.holder = some ⟨none, k⟩ →
        ∃ t H, exec (.cdeleg g h b) s = .next t ∧ changes t H ∧ Moved G { H with h := G.h, hids := G.hids } m act onward ∧
          H.role h.toNat = none ∧ ((t.home hd).role role).holder = none ∧
          ((t.home hd).role role).token = ((G.view low).reg b).1.setWidth 16 ∧
          t.back.get [] (convKey hd role) = s.back.get [] (convKey hd role) ++ s.recv.get [] (convKey hd role) ∧
          t.recv.get [] (convKey hd role) = []) ∧
      (Executes (.cdeleg g h b) s k G m act pc → ((G.view low).reg b).2 = false →
        ((G.view low).reg b).1.extractLsb' 16 16 = 0 → s.awaiting k hd role = false → asks (.cdeleg g h b) 0 hd
          (.deleg (BitVec.ofNat 64 hd) role (G.hids.get 0 h.toNat) (((G.view low).reg b).1.setWidth 16) (s.takenOf hd role))) ∧
      (Executes (.cclose g h) s k G m act pc →
        (joined → ∃ t H, exec (.cclose g h) s = .next t ∧ changes t H ∧
          Moved G { H with h := G.h, hids := G.hids } m act onward ∧ H.role h.toNat = none ∧ (t.home hd).openFor hd = false ∧
          (R.holder = some ⟨none, k⟩ → (s.home hd).keeps hd = true → ((t.home hd).role role).holder = none)) ∧
        asks (.cclose g h) 0 hd (.close (BitVec.ofNat 64 hd) role (G.hids.get 0 h.toNat) (s.takenOf hd role))) ∧
      (Executes (.cstateHome g d h) s k G m act pc →
        (joined → ∃ t H lo hi, exec (.cstateHome g d h) s = .next t ∧ changes t H ∧
          Wrote G H m act (fun _ => { regs := [(⟨false, d⟩, lo, false), (⟨false, d + 1⟩, hi, false)] }) ∧
          ((s.home hd).keeps hd = false → lo = 0x1000 ∧ hi = 0) ∧
          ((s.home hd).keeps hd = true → (s.home hd).st < 256 → (s.home hd).roles.length ≤ 16 →
            hi = (s.home hd).seq ∧ (lo.extractLsb' 0 8).toNat = (s.home hd).st ∧
            (lo.extractLsb' 8 4).toNat = rowSender (ptRow (s.home hd).table (s.home hd).st) ∧
            lo.getLsbD 12 = ((s.home hd).status == .closed) ∧ lo.getLsbD 13 = ((s.home hd).stalled != 0) ∧
            ∀ j < 16, lo.getLsbD (16 + j) = ((s.home hd).role j).holder.isSome)) ∧
        asks (.cstateHome g d h) d hd (.query (BitVec.ofNat 64 hd))) ∧
      (Executes (.cstateRole g d h) s k G m act pc →
        let w := G.h.get 0 h.toNat
        ∃ H, exec (.cstateRole g d h) s = .next (s.setGang k H) ∧ Wrote G H m act (fun _ =>
          { regs := [(⟨false, d⟩, w.setWidth 32, false), (⟨false, d + 1⟩, w.extractLsb' 32 32, false)] }))

/-- R308, R309, R316, R317, where the home stands on this device and the core's die has a route to it: `CSEND` makes its release, hands the home the words of its
lanes, and waits for the verdict; `CRECV` and `CTRY` take the entry of the lowest SEQ, each lane its word and the status word,
and owe the home one credit; where there is none, `CTRY` says so, and `CRECV` waits, or takes cause 0x0C when none can come. -/
def Obligations.MessageResults : Prop :=
  ∀ g sc d (h : BitVec 3) b kind s k G m act pc B hd role, G.role h.toNat = some (hd, role) → hOwn hd = true →
    s.joinedTo (coreOf k) hd = true → s.blocks.find? G.block = some B → B.mseq.stop = none → B.cseq.stop = none → s.covered B = false →
    let key := convKey hd role
    let ended := s.convOver (coreOf k) hd role
    let status := fun (e : Entry) l => BitVec.ofNat 32 (e.kind.toNat + 256 * e.sender.toNat +
      (if e.notice = false ∧ e.mask.getLsbD l then 2 ^ 16 else 0) + if e.notice then 2 ^ 17 else 0)
    let takes := fun (i : Instr) => Executes i s k G m act pc → ∀ e rest, s.recv.get [] key = e :: rest →
      ∃ t H, exec i s = .next t ∧ t.gangs = s.gangs.put k H ∧ t.blocks = s.blocks ∧ t.recv.get [] key = rest ∧
        Wrote G H m act (fun l => { regs := [
          (⟨false, d⟩, if e.notice = false ∧ e.mask.getLsbD l then e.words.get 0 l else 0, false),
          (⟨false, d + 1⟩, status e l, false)] }) ∧
        ((s.home hd).keeps hd = true → role < (s.home hd).roles.length →
          ((t.home hd).role role).owed = ((s.home hd).role role).owed + 1)
    (Executes (.csend g sc h b kind) s k G m act pc → (∀ l ∈ lanesOf act, ((G.view l).reg b).2 = false) →
      s.drain k act = (s, true) → s.regionDone k hd role = true →
      ∃ H M id words, exec (.csend g sc h b kind) s =
          .next ({ s.releaseConv (coreOf k) hd role sc with homes := M }.setGang k H) ∧
        Moved G { H with waits := G.waits } m act (fun _ L => L) ∧
        H.waits = G.waits ++ [⟨act, pc, .verdict id 0 h⟩] ∧
        (SMap.get ({} : Sys2Proof.Machine.Home) M (homeKey hd)).sends = (s.home hd).sends ++ [⟨id, ⟨none, k⟩, act, hGen hd, role, kind, words⟩] ∧
        ∀ l ∈ lanesOf act, words.find? l = some ((G.view l).reg b).1) ∧
    takes (.crecv g sc d h) ∧ takes (.ctry g sc d h) ∧
    (s.recv.get [] key = [] →
      (Executes (.ctry g sc d h) s k G m act pc → ∃ H, exec (.ctry g sc d h) s = .next (s.setGang k H) ∧
        Wrote G H m act fun _ => { regs := [(⟨false, d⟩, 0, false),
          (⟨false, d + 1⟩, if ended then 0xC0000 else 0x40000, false)] }) ∧
      (Executes (.crecv g sc d h) s k G m act pc →
        (ended = false → ∃ H, exec (.crecv g sc d h) s =
            .next (s.setGang k { H with waits := G.waits ++ [⟨act, pc, .recv d h sc⟩] }) ∧
          Moved G H m act fun _ L => L) ∧
        (ended = true → (∀ l ∈ lanesOf act, (G.lane l).mode ≠ .hypervisor) → ∃ H, exec (.crecv g sc d h) s =
            .next (s.setGang k H) ∧ ∀ l ∈ lanesOf act,
          H.lane l = (s.trap k l 0x0C (BitVec.ofNat 64 (hd % 2 ^ 32)) pc).lane k l)))

/-- R321: the lanes of `CLOAD` load their homes in turn, and D is the new handle, or bit 63 and the code of the failure. A
success opens a FREE home of this device in state 0, with SEQ 0, the next GEN, the context's VMID and no role bound; a handle
that breaks R300 or names another device fails with code 5, a home that is not FREE with code 1, and both leave everything as
it was. -/
def Obligations.ProtocolLoadResults : Prop :=
  (∀ g d a b c s s₁ k G m act pc (xs : Nat → DWord), Executes (.cload g d a b c) s k G m act pc →
    (∀ l ∈ lanesOf act, ((G.view l).pair a).2 = false ∧ ((G.view l).pair b).2 = false ∧ ((G.view l).pair c).2 = false) →
    (lanesOf act).foldlM (fun (s : State) l =>
      match s.cload (s.agent (coreOf k) (G.lane l).mode) (coreOf k) ((G.view l).pair a).1 ((G.view l).pair b).1
        ((G.view l).pair c).1 with
      | (s', .ok x) => if x = xs l then some s' else none
      | (_, .error _) => none) s = some s₁ →
    ∃ H, exec (.cload g d a b c) s = .next (s₁.setGang k H) ∧ Wrote G H m act (fun l => { regs :=
      [(⟨false, d⟩, (xs l).setWidth 32, false), (⟨false, d + 1⟩, (xs l).extractLsb' 32 32, false)] })) ∧
  ∀ (s : State) ag core (a b c : DWord), b.toNat % 32 = 0 → c.toNat % 64 = 0 →
    let H := s.home a.toNat
    if a.toNat / 2 ^ 57 ≠ 0 ∨ hOwn a.toNat = false then s.cload ag core a b c = (s, .ok 0x8000000000000005)
    else if H.status ≠ .free then s.cload ag core a b c = (s, .ok 0x8000000000000001)
    else ∀ s₁ x, s.cload ag core a b c = (s₁, .ok x) → x.getLsbD 63 = false →
      let N := s₁.home x.toNat
      N.status = .opened ∧ N.st = 0 ∧ N.seq = 0 ∧ N.gen = (H.gen + 1) % 65536 ∧ N.gen = x.toNat / 65536 % 65536 ∧
      N.vmid = (s.ctxOf core).vmid ∧ N.roles.length = ptRoles N.table ∧ ptInvalid N.table = none ∧
      (∀ R ∈ N.roles, R.holder = none ∧ R.credits = 8 ∧ R.queue = []) ∧ homeKey x.toNat = homeKey a.toNat

-- The matrix sequencer

/-- R199, R200, R204 to R207: with its registers clean and its ranges aligned and inside the window, a latch load fills its
latch with 32 rows of the window: `MLDA` and `MLDB` at a pitch, `MGATH` at 32 offsets, `MCONV` one tap of a convolution. The
latch keeps the slot, K and the exponent, and is poisoned if a byte of it or the exponent register is. -/
def Obligations.LatchLoadResults : Prop :=
  ∀ g (slot : BitVec 3) a b c off s k B,
    let reg := fun (r : BitVec 8) => B.mseq.view.reg ⟨false, r⟩
    let sl := s.slot B slot.toNat
    let o := ((reg a).1 + off).toNat
    let p := (reg b).1.toNat
    let e := ((reg c).1.setWidth 8).toInt
    let good := fun (al x n : Nat) => x % al = 0 ∧ x + n ≤ B.lsb ∧ s.held B.core 0 (.ls k x) n = false
    let ready := fun i => SeqExecutes i true s k B ∧ (reg a).2 = false ∧ (reg b).2 = false ∧
      0 ≤ ((reg a).1.toNat : Int) + off.toInt
    let form := fun (latchA long : Bool) (kk rb : Nat) =>
      sl.cls = .half ∧ long = false ∧ kk = 32 ∧ rb = 64 ∨
      (sl.cls = .bin8 ∨ sl.cls = .int8) ∧ kk = rb ∧ rb = (if long then 160 else 64) ∨
      sl.cls = .tern ∧ latchA = true ∧ long = false ∧ kk = 160 ∧ rb = 32
    let fills := fun i (latchA long : Bool) (kk : Nat) (e : Int) (row : Nat → List PByte) (poison : Bool) =>
      let rows := (List.range 32).map row
      (sl.cls = .tern → ∀ r ∈ rows, ∀ x ∈ r, x.2 = false → x.1.toNat ≤ 242) →
      let l : Latch := { loaded := true, rows := rows.map fun r => r.map (·.1), slot := slot, exp := e, k := kk,
                         long := long, poison := poison || rows.any fun r => r.any (·.2) }
      ∃ q, exec i s = .next (s.setBlock k
          (if latchA then { B with latchA := l, mseq := q } else { B with latchB := l, mseq := q })) ∧
        SeqWrote B.mseq q {}
    let pitched := fun i latchA long => ∀ kk rb, ready i → form latchA long kk rb → p % 16 = 0 →
      (∀ m < 32, good 16 (o + m * p) rb) → fills i latchA long kk e (fun m => B.lsRead (o + m * p) rb) (reg c).2
    pitched (.mlda g slot a b c off) true false ∧
    pitched (.mldb g slot a b c off) false false ∧
    pitched (.mldbLong g slot a b c off) false true ∧
    (∀ kk rb, ready (.mgath g slot a b c off) → form true false kk rb → good 16 p 128 →
      (∀ x ∈ B.lsRead p 128, x.2 = false) →
      let ix := fun m => ofBytes ((B.lsRead (p + 4 * m) 4).map (·.1))
      (∀ m < 32, ix m < 2 ^ 31 → good 16 (o + ix m) rb) →
      fills (.mgath g slot a b c off) true false kk e
        (fun m => if ix m < 2 ^ 31 then B.lsRead (o + ix m) rb else List.replicate rb (0, false)) (reg c).2) ∧
    ∀ kk rb, ready (.mconv g slot a b c off) → form false false kk rb → good 16 p 32 →
      (∀ x ∈ B.lsRead p 32, x.2 = false) → (reg c).2 = false → (reg (c + 1)).2 = false →
      let rec_ := fun at_ n => ofBytes ((B.lsRead (p + at_) n).map (·.1))
      let small := fun at_ => rec_ at_ 1 % 16 + 1
      let z := rb / kk
      let t := (reg (c + 1)).1.toNat
      let q := fun m => (reg c).1.toNat + m
      let iy := fun m => ((q m / rec_ 4 2 * small 9 + t / 256 % 256 * small 11 : Nat) : Int) - rec_ 13 1
      let ix := fun m => ((q m % rec_ 4 2 * small 8 + t % 256 * small 10 : Nat) : Int) - rec_ 12 1
      let ch := fun k => t / 65536 + k
      let out := fun m => rec_ 4 2 * rec_ 6 2 ≤ q m
      let pad := fun m => iy m < 0 ∨ rec_ 2 2 ≤ iy m ∨ ix m < 0 ∨ rec_ 0 2 ≤ ix m
      let at_ := fun m k => o + ((iy m).toNat * rec_ 0 2 + (ix m).toNat) * rec_ 16 4 + ch k * z
      o % z = 0 → rec_ 16 4 % z = 0 →
      (∀ m < 32, ∀ k < kk, ¬out m → ch k < rec_ 14 2 → ¬pad m → good z (at_ m k) z) →
      fills (.mconv g slot a b c off) true false kk (BitVec.ofNat 8 (rec_ 22 1)).toInt (fun m =>
        ((List.range kk).map fun k =>
          if out m ∨ rec_ 14 2 ≤ ch k then List.replicate z (0, false)
          else if pad m then (toBytes z (rec_ 20 2)).map fun b => (b, false)
          else B.lsRead (at_ m k) z).flatten) false

/-- R66 to R68, R203, R208, R209: `MZERO` clears an accumulator, `MACCL` loads its words from 32 rows of the window, and `MMA`
adds to each word (m, n), k-group by k-group, the products of row m of latch A and row n of latch B: on the floating path with
one RNE rounding a group, on the integer path modulo 2^32. A poisoned latch poisons the accumulator; NV under TRAPINV stops
the sequencer and leaves the accumulator. -/
def Obligations.AccumulatorResults : Prop :=
  ∀ g (d : BitVec 2) s k B,
    let gives := fun i (F : BitVec 7) (X : Acc → Prop) => ∃ q A, exec i s = .next (s.setBlock k { B with acc := A, mseq := q }) ∧
      SeqWrote { B.mseq with mflags := F } q {} ∧ X (A.get {} d.toNat) ∧ ∀ j ≠ d.toNat, A.get {} j = B.acc.get {} j
    let acc := B.acc.get {} d.toNat
    (SeqExecutes (.mzero g d) true s k B → gives (.mzero g d) B.mseq.mflags fun A => A = {}) ∧
    (∀ a b off, SeqExecutes (.maccl g d a b off) true s k B →
      let reg := fun (r : BitVec 8) => B.mseq.view.reg ⟨false, r⟩
      let o := ((reg a).1 + off).toNat
      let p := (reg b).1.toNat
      (reg a).2 = false → (reg b).2 = false → 0 ≤ ((reg a).1.toNat : Int) + off.toInt → p % 16 = 0 →
      (∀ m < 32, (o + m * p) % 16 = 0 ∧ o + m * p + 128 ≤ B.lsb ∧ s.held B.core 0 (.ls k (o + m * p)) 128 = false) →
      gives (.maccl g d a b off) B.mseq.mflags fun A =>
        (∀ m < 32, ∀ n < 32, A.words.get 0 (32 * m + n) =
          BitVec.ofNat 32 (ofBytes ((B.lsRead (o + m * p + 4 * n) 4).map (·.1)))) ∧
        A.poison = (List.range 32).any fun m => (B.lsRead (o + m * p) 128).any (·.2)) ∧
    ∀ float, SeqExecutes (.mma g d) true s k B →
      let la := B.latchA
      let lb := B.latchB
      let sa := s.slot B la.slot.toNat
      let sb := s.slot B lb.slot.toNat
      la.loaded = true → lb.loaded = true → la.k = lb.k → pairing sa.cls sb.cls lb.long = some float →
      (la.poison = true ∨ lb.poison = true → gives (.mma g d) B.mseq.mflags fun A => A = { acc with poison := true }) ∧
      (la.poison = false → lb.poison = false → la.shaped sa.cls → lb.shaped sb.cls →
        let G := if sa.cls = .tern then 10 else 8
        let x := fun m j => (List.range G).map fun i => sa.elem (la.code sa.cls m (G * j + i))
        let y := fun n j => (List.range G).map fun i => sb.elem (lb.code sb.cls n (G * j + i))
        let xi := fun m k => sa.elemInt (la.code sa.cls m k)
        let yi := fun n k => sb.elemInt (lb.code sb.cls n k)
        let add := fun m n (r : Word × BitVec 7) j =>
          let w := if float then groupFloat (combined sa sb (la.exp + lb.exp)) r.1 (x m j) (y n j)
            else
              let v := r.1.toInt + ((List.range G).map fun i => xi m (G * j + i) * yi n (G * j + i)).sum
              (BitVec.ofInt 32 v, if v < -2 ^ 31 ∨ 2 ^ 31 ≤ v then Sys2Proof.Num.io else 0)
          (w.1, r.2 ||| w.2)
        let run := fun m n => (List.range (la.k / G)).foldl (add m n) (acc.words.get 0 (32 * m + n), 0)
        let flags := (List.range 1024).foldl (fun f i => f ||| (run (i / 32) (i % 32)).2) B.mseq.mflags
        let nv := (List.range 1024).any fun i => (run (i / 32) (i % 32)).2 &&& Sys2Proof.Num.nv != 0
        (nv = false ∨ sa.trapInv = false ∧ sb.trapInv = false → gives (.mma g d) flags fun A =>
          A.poison = acc.poison ∧ ∀ m < 32, ∀ n < 32, A.words.get 0 (32 * m + n) = (run m n).1) ∧
        (nv = true → sa.trapInv = true ∨ sb.trapInv = true → exec (.mma g d) s = .next ((s.setBlock k
            { B with mseq := { B.mseq with mflags := flags } }).seqTrap k true 0x0F
          (512 + if sa.trapInv then la.slot.setWidth 32 else lb.slot.setWidth 32))) ∧
        (float = false → ∀ m < 32, ∀ n < 32, (run m n).1 = acc.words.get 0 (32 * m + n) +
          BitVec.ofInt 32 ((List.range la.k).map fun k => xi m k * yi n k).sum))

/-- R210, R361: `MDRAIN` narrows the words of an accumulator, read as FP32 or INT32, through a slot, and writes them as 32 rows
of the window in ascending order; the accumulator stays. A poisoned accumulator or exponent poisons every byte written. -/
def Obligations.DrainResults : Prop :=
  ∀ g slot (d : BitVec 2) a b c off s k B float i,
    (i = .mdrainF32 g slot d a b c off ∧ float = true ∨ i = .mdrainI32 g slot d a b c off ∧ float = false) →
    SeqExecutes i true s k B →
    let reg := fun (r : BitVec 8) => B.mseq.view.reg ⟨false, r⟩
    let sl := s.slot B slot.toNat
    let o := ((reg a).1 + off).toNat
    let p := (reg b).1.toNat
    let e := ((reg c).1.setWidth 8).toInt
    let acc := B.acc.get {} d.toNat
    let n := if sl.kind = .ternary then 7 else 32 * sl.elemBytes.getD 0
    (reg a).2 = false → (reg b).2 = false → 0 ≤ ((reg a).1.toNat : Int) + off.toInt → p % 16 = 0 → sl.kind ≠ .empty →
    (∀ m < 32, (o + m * p) % 16 = 0 ∧ o + m * p + n ≤ B.lsb ∧ s.held B.core 0 (.ls k (o + m * p)) n = false) →
    let code := fun m j =>
      let w := acc.words.get 0 (32 * m + j)
      sl.narrow (if float then .float (Sys2Proof.Num.decodeCode Sys2Proof.Num.fp32 w.toNat) else .int w.toInt) e
    let z := sl.elemBytes.getD 0
    let byte := fun m x => (BitVec.ofNat 8 (
      if sl.kind = .ternary then
        (((List.range 5).filter (fun j => 5 * x + j < 32)).map fun j => 3 ^ j * (code m (5 * x + j)).1).sum
      else (code m (x / z)).1 / 256 ^ (x % z)) : Byte)
    let row := fun x => (List.range 32).reverse.find? fun m => o + m * p ≤ x && x < o + m * p + n
    let flags := (List.range 1024).foldl (fun f i => f ||| (code (i / 32) (i % 32)).2) B.mseq.mflags
    let nv := (List.range 1024).any fun i => (code (i / 32) (i % 32)).2 &&& Sys2Proof.Num.nv != 0
    let writes := fun (F : BitVec 7) (X : State → Prop) => ∃ t C, exec i s = .next t ∧ t.blocks = s.blocks.put k C ∧
      { t with blocks := s.blocks, monitors := s.monitors } = s ∧
      { C with ls := B.ls, lsPoison := B.lsPoison, mseq := B.mseq } = B ∧
      SeqWrote { B.mseq with mflags := F } C.mseq {} ∧ X t ∧
      ∀ x, row x = none → (t.lsRead k x 1).map (·.1) = (s.lsRead k x 1).map (·.1)
    (acc.poison = true ∨ (reg c).2 = true →
      writes B.mseq.mflags fun t => ∀ x m, row x = some m → (t.lsRead k x 1).map (·.2) = [true]) ∧
    (acc.poison = false → (reg c).2 = false →
      (nv = false ∨ sl.trapInv = false →
        writes flags fun t => ∀ x m, row x = some m → (t.lsRead k x 1).map (·.1) = [byte m (x - (o + m * p))]) ∧
      (nv = true → sl.trapInv = true → exec i s = .next ((s.setBlock k
        { B with mseq := { B.mseq with mflags := flags } }).seqTrap k true 0x0F (512 + slot.setWidth 32))))

-- Launching

/-- R97: each active lane of `LAUNCH`, with its record read, gets the code of what became of it. A record that is poisoned
gives 4, a queue that is not enabled 2, one without DEV 3, a full one 1; otherwise, after the release at sys scope, the record
stands in the entry at TAIL, TAIL has risen by one, and the code is 0. The device looks at the queue first, and TAIL of a queue
that it has looked at since EN was set is its own (R88). -/
def Obligations.LaunchResults : Prop :=
  (∀ g d a off (s s₁ s₂ : State) k G m act pc A P (bs : Nat → List PByte),
    Executes (.launch g d a off) s k G m act pc → Placed s s₁ k G act a off 256 256 .read A P →
    Unheld s₁ k act 256 A P → (∀ l ∈ lanesOf act, ∃ pa ms, P l = .mem pa ms) → s₁.settled k act = (s₁, true) →
    s₁.loadLanes (coreOf k) 256 .gang .normal [] ((lanesOf act).map fun l => (l, A l, P l)) =
      (s₂, (lanesOf act).map fun l => (l, .ok (bs l))) →
    ∃ t H, ∃ r : Nat → Nat, exec (.launch g d a off) s = .next t ∧ t.gangs = s.gangs.put k H ∧
      Wrote G H m act (fun l => .word d (BitVec.ofNat 32 (r l))) ∧
      ∀ l, lanesOf act = [l] → t = { (s₂.submit k (bs l)).1 with gangs := t.gangs } ∧ r l = (s₂.submit k (bs l)).2) ∧
  ∀ (s : State) k (bs : List PByte),
    let ctx := s.ctxId (coreOf k / 512)
    let q := ((bs.getD 0x57 (0, false)).1.toNat) % 64
    (bs.any (·.2) = true → s.submit k bs = (s, 4)) ∧
    (bs.any (·.2) = false →
      (∀ u, (s.seeTail ctx q).queueDesc ctx q = (u, none) → s.submit k bs = (u, 2)) ∧
      ∀ u D, (s.seeTail ctx q).queueDesc ctx q = (u, some D) →
        let own := u.queues.get {} (64 * ctx + q)
        let head := ofBytes ((D.drop 0x10).take 8)
        let tail := if (D.getD 9 0).getLsbD 2 ∧ own.known then own.tail else ofBytes ((D.drop 0x18).take 8)
        let size := 2 ^ (D.getD 8 0).toNat
        let used := (tail + 2 ^ 64 - head) % 2 ^ 64
        ((D.getD 9 0).getLsbD 2 = false → s.submit k bs = (u, 3)) ∧
        ((D.getD 9 0).getLsbD 2 = true →
          (size ≤ used → s.submit k bs = (u, 1)) ∧
          (used < size →
            let v := u.releaseAt (coreOf k) .sys
            let entry := BitVec.ofNat 64 (ofBytes (D.take 8) + 256 * (tail % size))
            ∀ w, devWrite (v.lp ctx) entry bs v = (w, .ok ()) →
              let x := (devWrite (w.lp ctx) (w.queueAddr ctx q + 0x18) (clean (toBytes 8 (tail + 1))) w).1
              let next := (tail + 1) % 2 ^ 64
              s.submit k bs = (x.onQueue ctx q fun Q => { Q with tail := next, known := true }, 0))))

/-- R96, R98, R99: `GSIG` makes a release at sys scope and then, lane by lane, changes the counter at its address or seals the
record there. `CANCEL` gives 3 where LEVEL is outside 1 to 4 or the record is not in the context's job, 1 where the record has
completed, 2 where CANCELREQ stands; otherwise 0, and every launch whose record is that one or below it is covered. -/
def Obligations.SignalAndCancelResults : Prop :=
  ∀ g d a b off (s s₁ : State) k G m act pc A P, (∀ l ∈ lanesOf act, ∃ pa ms, P l = .mem pa ms) →
    let ctx := s₁.ctxId (coreOf k / 512)
    let place := fun l => match P l with | .mem pa _ => pa | _ => 0
    let signals := fun (i : Instr) (n : Nat) (f : State → Nat → State) =>
      Executes i s k G m act pc → Placed s s₁ k G act a off n n .write A P → Unheld s₁ k act n A P →
      s₁.settled k act = (s₁, true) →
      ∃ H, exec i s = .next (((lanesOf act).foldl f (s₁.releaseAt (coreOf k) .sys)).setGang k H) ∧
        Moved G H m act fun _ L => { L with pc := succ L.pc }
    ((∀ l ∈ lanesOf act, ((G.view l).reg b).2 = false) →
      signals (.gsigArr g a b off) 8 (fun t l => t.countMem (place l) ((G.view l).reg b).1 false) ∧
      signals (.gsigAnn g a b off) 8 (fun t l => t.countMem (place l) (0 - ((G.view l).reg b).1) true)) ∧
    signals (.gsigSeal g a off) 64 (fun t l => t.sealRec ctx (A l)) ∧
    ∀ B l, lanesOf act = [l] → Executes (.cancel g d a off) s k G m act pc → G.converging &&& act = 0 → s.blocks.find? G.block = some B →
      B.mseq.stop = none → B.cseq.stop = none → s.covered B = false → Placed s s₁ k G act a off 64 64 .readWrite A P →
      ∀ s₂ c s₃ mine, s₁.fetchRec ctx (A l) 0 = (s₂, c, none) →
        s₂.reachesJob ctx (s₂.ctxs.get {} ctx).job (A l) 5 = (s₃, mine) → c.ctx = ctx → c.addr = A l →
        let code := if mine = false ∨ c.level = 0 ∨ 4 < c.level then 3 else if c.completed then 1
          else if c.cancelReq then 2 else 0
        (code ≠ 0 → ∃ H, exec (.cancel g d a off) s = .next (s₃.setGang k H) ∧
          Wrote G H m act fun _ => .word d (BitVec.ofNat 32 code)) ∧
        (code = 0 → ∃ t H, exec (.cancel g d a off) s = .next t ∧ t.gangs.find? k = some H ∧
          (d ≠ 0 → (H.view l).reg ⟨false, d⟩ = (0, false)) ∧ (H.lane l).pc = succ pc ∧
          ∀ tag L L', s₃.launches.find? tag = some L → L.key = crecKey ctx (A l) → s₃.crecs.find? L.key = some c →
            t.launches.find? tag = some L' → L'.cancelled = true)

-- System instructions

/-- R331, R340: `SYS` takes cause 0x08 and `HCALL` cause 0x09 on each active lane, with the operand in STVAL and the saved PC
behind the instruction; `SRET` and `HRET` return each active lane to its own saved PC and mode, and the barriers and points at
which the gang may now have arrived are looked at again (R193, R284), which changes no lane but in its address. -/
def Obligations.SystemCallResults : Prop :=
  ∀ g (n : BitVec 16) s k G m act pc,
    let calls := fun (i : Instr) (c : BitVec 8) =>
      Executes i s k G m act pc → (∀ l ∈ lanesOf act, (G.lane l).mode ≠ .hypervisor) →
      ∃ H, exec i s = .next (s.setGang k H) ∧ ∀ l, H.lane l =
        if l ∈ lanesOf act then (s.trap k l c (n.setWidth 64) (succ pc)).lane k l
        else if l ∈ lanesOf m then { G.lane l with pc := succ pc } else G.lane l
    let mode := fun (c : BitVec 2) => if c = 0 then Mode.user else .supervisor
    let code := fun (c : BitVec 2) => if c.getLsbD 1 then (1 : BitVec 2) else c
    calls (.sys g n) 0x08 ∧ calls (.hcall g n) 0x09 ∧
    (Executes (.sys g n) s k G m act pc → (∀ l ∈ lanesOf act, (G.lane l).mode = .hypervisor) →
      ∃ t, exec (.sys g n) s = .next t ∧ ∀ l ∈ lanesOf act, (t.lane k l).life = .exited) ∧
    let returns := fun (i : Instr) (f : Lane → Lane) => Executes i s k G m act pc →
      ∃ H, let t := (s.setGang k H).settleAll k
        exec i s = .next (t.advance k (m &&& ~~~act)) ∧ Moved G H act act (fun _ => f) ∧
        ∀ n l, ∃ p, t.lane n l = { (s.setGang k H).lane n l with pc := p }
    returns (.sret g) (fun L =>
      if L.depth = 2 then
        { L with spc := L.ospc, scause := L.oscause, stval := L.ostval, spm := code (L.osstat.extractLsb' 8 2),
                 depth := if L.osstat.extractLsb' 10 2 = 3 then 2 else L.osstat.extractLsb' 10 2,
                 incont := L.osstat.getLsbD 0, mode := mode L.spm, pc := L.spc, checkTarget := false, checkEntry := false }
      else { L with depth := 0, mode := mode L.spm, pc := L.spc, checkTarget := false, checkEntry := false }) ∧
    returns (.hret g) (fun L =>
      { L with hd := false, depth := if L.hpm ≠ 0 ∧ L.depth = 0 then 1 else L.depth, mode := mode L.hpm, pc := L.hpc,
               checkTarget := false, checkEntry := false })

/-- R328, R329, R341: `MFS` reads a privileged register into D. `MTS` writes one: a per-lane register each lane its own, a
shared one the highest active lane's value; it then reads as what Table 16.2 stores, and every other one reads as before.
`MTS` to GHOLD sets or clears the gang's hold, and the barriers and points at which the gang may now have arrived are looked at
again (R193, R284). -/
def Obligations.PrivilegedRegisterResults : Prop :=
  ∀ g d (num : BitVec 8) a s k G m act pc,
    let n := num.toNat
    let src := fun l => mtsSource (G.view l) n a
    let onward := fun (_ : Nat) (L : Lane) => { L with pc := succ L.pc }
    let shared := [0x20, 0x21, 0x22, 0x23, 0x24, 0x25, 0x27, 0x28, 0x2A, 0x2B]
    (Executes (.mfs g d num) s k G m act pc → ∃ H, exec (.mfs g d num) s = .next (s.setGang k H) ∧
      Wrote G H m act fun l => let v := s.privRead k G l n
        { regs := (⟨false, d⟩, v.setWidth 32, false) ::
            if privWidth n = some 64 then [(⟨false, d + 1⟩, v.extractLsb' 32 32, false)] else [] }) ∧
    (Executes (.mts g num a) s k G m act pc → (∀ l ∈ lanesOf act, (src l).2 = false) →
      (n ≤ 0x17 → n ≠ 3 → ∃ H, exec (.mts g num a) s = .next (s.setGang k H) ∧
        Moved G H m act (fun l L => onward l (L.privWrite n (src l).1)) ∧
        (∀ l ∈ lanesOf act, n ≠ 0x13 → s.privRead k H l n =
          if privWidth n = some 64 then (src l).1 else (src l).1 % 2 ^ 32) ∧
        ∀ l j, j ≠ n → s.privRead k H l j = s.privRead k G l j) ∧
      (n ∈ shared ∨ n = 0x26 → ∃ H, exec (.mts g num a) s =
          .next ((s.privWriteShared k n (src (topLane act)).1).setGang k H) ∧ Moved G H m act onward)) ∧
    (∀ l ∈ lanesOf act, (G.lane l).mode ≠ .user → (src l).2 = false → Executes (.mts g 0x03 a) s k G m act pc →
      lanesOf act = [l] → ∃ t H, exec (.mts g 0x03 a) s = .next t ∧ t.gangs.find? k = some H ∧
        ∀ v, mtsSource (G.view l) 3 a = (v, false) → (H.lane l).spm = (if v.getLsbD 9 then 1 else v.extractLsb' 8 2) ∧
          ∀ i e, v.getLsbD (16 + i) = true → H.reconv.find? i = some e → e.members.getLsbD l = false) ∧
    (Executes (.mtsGhold g a) s k G m act pc → (∀ l ∈ lanesOf act, (mtsSource (G.view l) 0x29 a).2 = false) →
      let b := (mtsSource (G.view (topLane act)) 0x29 a).1.getLsbD 0
      let t := (s.setGang k { G with hold := b }).settleAll k
      exec (.mtsGhold g a) s = .next ((t.advance k act).advance k (m &&& ~~~act)) ∧
        (∀ x, t.gangs.find? k = some x → x.hold = b) ∧ ∀ n l, ∃ p, t.lane n l = { s.lane n l with pc := p }) ∧
    ∀ v j, n ∈ shared →
      let t := s.privWriteShared k n v
      t.privRead k G 0 n = (match n with
        | 0x22 => (v ||| 0x100) &&& 0x1EFDFE
        | 0x23 => v % 1024
        | 0x24 => v % 64
        | 0x25 => v % 2
        | 0x27 => (v &&& 0xFF0000) ||| (if (v / 16) % 256 = 0 then 16 else v &&& 0xFF0) |||
            (if v % 4 = 3 then 2 else v % 4)
        | 0x28 => v % 4
        | _ => v) ∧
      (j ≠ n → j ≠ 0x26 → t.privRead k G 0 j = s.privRead k G 0 j)

/-- R342: `TLBINV` makes a release at pkg scope, drops the translations that its form names, with the walks for them, and
keeps the others: those of the context's VMID, of one ASID, of one page, or, in H mode, of everything, or of the VMID that
the selector names. -/
def Obligations.TlbInvalidationResults : Prop :=
  ∀ g a b s k G m act pc,
    let low := (lanesOf act).headD 0
    let h := (G.lane low).mode = .hypervisor
    let w := fun (r : Reg) => ((G.view low).reg r).1
    let drops := fun (i : Instr) (hyp : Bool) (keep : TlbEntry → Bool) (page : Walk → Bool) =>
      Executes i s k G m act pc → (hyp = true → h) →
      ∃ t H, exec i s = .next t ∧ t.gangs.find? k = some H ∧
        Moved G { H with waits := G.waits } m act (fun _ L => { L with pc := succ L.pc }) ∧
        (∀ n, t.stlb.get [] n = (s.stlb.get [] n).filter keep) ∧ (∀ c, (t.core c).utlb = (s.core c).utlb.filter keep) ∧
        t.walks = s.walks.filter (fun x => page x.2) ∧
        (∀ j x y, j ≠ k → s.gangs.find? j = some x → t.gangs.find? j = some y → { y with waits := x.waits } = x) ∧
        let r := s.releaseAt (coreOf k) .pkg
        { t with stlb := r.stlb, cores := r.cores, walks := r.walks, gangs := r.gangs, blocks := r.blocks } = r
    let vmid := fun (r : Reg) => if h then (w r).toNat / 65536 % 64 else (s.ctxOf (coreOf k)).vmid
    let user := fun (asid vm : Nat) (hyp : Bool) (x y : Nat) => hyp = false ∧ y = vm ∧ x = asid
    let clean := fun (r : Reg) => ((G.view low).reg r).2 = false
    let bits := fun (r : Reg) => (w r).toNat / 2 ^ 22 = 0 ∧ (w r).toNat / 1024 % 64 = 0 ∧ (¬h → (w r).toNat < 1024)
    drops (.tlbinvAll g) false
      (fun e => !(decide h || e.vmid == (s.ctxOf (coreOf k)).vmid))
      (fun x => !(decide h || x.vmid == (s.ctxOf (coreOf k)).vmid)) ∧
    (clean a → bits a → drops (.tlbinvAsid g a) false
      (fun e => !decide (user ((w a).toNat % 1024) (vmid a) e.hyp e.asid e.vmid))
      (fun x => !decide (user ((w a).toNat % 1024) (vmid a) x.hyp x.asid x.vmid))) ∧
    (clean b → bits b → ((G.view low).pair a).2 = false →
      let va := ((G.view low).pair a).1.toNat
      drops (.tlbinvPage g a b) false
        (fun e => !decide (user ((w b).toNat % 1024) (vmid b) e.hyp e.asid e.vmid ∧ va / 2 ^ e.bits = e.va / 2 ^ e.bits))
        (fun x => !decide (user ((w b).toNat % 1024) (vmid b) x.hyp x.asid x.vmid ∧ va / 65536 = x.page))) ∧
    (clean a → (w a).toNat < 64 → drops (.tlbinvVmid g a) true
      (fun e => !decide (e.vmid = (w a).toNat)) (fun x => !decide (x.vmid = (w a).toNat)))

/-- R343: what `FRESUME`, `FKILL.tok`, `FKILL.gang` and `TOKWAIT` of one lane do with the token, or gang slot, in x[A], and
the code they give. -/
def Obligations.TokenResults : Prop :=
  ∀ g d a s k G m act pc l B, lanesOf act = [l] → ((G.view l).reg a).2 = false → s.blocks.find? G.block = some B →
    B.mseq.stop = none → B.cseq.stop = none → s.covered B = false → G.converging &&& act = 0 →
    let tok := ((G.view l).reg a).1.toNat
    let use := s.tokenUse k G tok
    let key := tokenKey (s.ctxId (coreOf k / 512)) tok
    ∀ s₁ R, s.recordAt (coreOf k / 512) tok = (s₁, R) →
      let gives := fun (i : Instr) (n : Word) => ∃ H, exec i s = .next (s₁.setGang k H) ∧ Wrote G H m act fun _ => .word d n
      let acts := fun (i : Instr) (P : State → Prop) => ∃ t H, exec i s = .next t ∧ t.gangs.find? k = some H ∧
        (d ≠ 0 → (H.view l).reg ⟨false, d⟩ = (0, false)) ∧ (H.lane l).pc = succ pc ∧ P t
      let kills := fun (i : Instr) => ∃ t, exec i s = .next t ∧ (t.lane k l).life = .exited
      let lost := (∀ x, use ≠ some x) ∨ R = none
      (Executes (.fresume g d a) s k G m act pc →
        (lost → gives (.fresume g d a) 3) ∧
        ∀ pa r, R = some (pa, r) →
          let res := ofBytes ((r.drop 0x60).take 8)
          ((∃ x, use = some (.parked x)) → gives (.fresume g d a) 3) ∧
          (∀ x, use = some (.continuing x) →
            (l ∉ lanesOf x → gives (.fresume g d a) 3) ∧ (l ∈ lanesOf x → res = 0 → gives (.fresume g d a) 1) ∧
            (l ∈ lanesOf x → res = 1 → ∃ H, exec (.fresume g d a) s = .next (s₁.setGang k H) ∧
              Moved G H m act fun _ L => { L.putX 1 L.contX1 L.contX1p with
                incont := false, pc := BitVec.ofNat 64 (ofBytes ((r.drop 0x10).take 8)), checkTarget := false,
                checkEntry := false }) ∧
            (l ∈ lanesOf x → 2 ≤ res → kills (.fresume g d a))) ∧
          ∀ c, use = some (.copy c) →
            (res = 0 → gives (.fresume g d a) 1) ∧ (2 ≤ res → gives (.fresume g d a) 2) ∧
            (res = 1 → s₁.freeSlots c.core ≠ 0 → acts (.fresume g d a) fun t => t.copyTokens.find? key = none ∧
              (s₁.copies.length < t.copies.length))) ∧
      (Executes (.fkillTok g d a) s k G m act pc →
        (lost → gives (.fkillTok g d a) 3) ∧
        (R.isSome → (∀ x, use = some (.parked x) →
            acts (.fkillTok g d a) fun t => ∀ j ∈ lanesOf x, (t.lane k j).life = .exited) ∧
          (∀ x, use = some (.continuing x) → (l ∈ lanesOf x → kills (.fkillTok g d a)) ∧
            (l ∉ lanesOf x → acts (.fkillTok g d a) fun t => ∀ j ∈ lanesOf x, (t.lane k j).life = .exited)) ∧
          ∀ c, use = some (.copy c) → acts (.fkillTok g d a) fun t => t.copyTokens.find? key = none ∧ t.copies = s.copies)) ∧
      (Executes (.fkillGang g d a) s k G m act pc →
        let k' := 16 * coreOf k + tok % 16
        let mine := ∃ B', s.blockOf k' = some B' ∧ B'.ctx = s.ctxId (coreOf k / 512) ∧ s.gangLives k' = true
        (¬mine → ∃ H, exec (.fkillGang g d a) s = .next (s.setGang k H) ∧ Wrote G H m act fun _ => .word d 1) ∧
        (mine → k' ≠ k → acts (.fkillGang g d a) fun t => ∀ j < 32, (t.lane k' j).life = .exited) ∧
        (mine → k' = k → ∃ t, exec (.fkillGang g d a) s = .next t ∧ ∀ j < 32, (t.lane k j).life = .exited)) ∧
      (Executes (.tokwait g d a) s k G m act pc →
        (lost → gives (.tokwait g d a) 3) ∧
        ∀ pa r x, R = some (pa, r) → pa % 8 = 0 → use = some x → s.monitors.sorted = true → s.unwatched k l →
          let s₂ := s₁.bringHome (coreOf k) (.mem ((pa + 0x60) / 8))
          let s₃ := s₂.refreshAt (coreOf k) (.mem ((pa + 0x60) / 8))
          let w := s₂.watched (.mem ((pa + 0x60) / 8))
          (w.2 = false → w.1 ≠ 0 → ∃ H M, exec (.tokwait g d a) s = .next { s₃.setGang k H with monitors := M } ∧
            Wrote G H m act fun _ => .word d (if w.1 = 1 then 1 else 2)) ∧
          (w.2 = true ∨ w.1 = 0 → ∃ H M id, exec (.tokwait g d a) s = .next { s₂.setGang k H with monitors := M } ∧
            Moved G { H with waits := G.waits } m act (fun _ L => L) ∧
            H.waits = G.waits ++ [⟨act, pc, .monitor id d false none⟩]))

/-- R117 to R119, R337, R344: the codes of `WALKRES`, `CTXSAVE`, `CTXLOAD`, `TMOVE`, `TREPL.add` and `TREPL.drop` of one lane
with clean and usable operands, and what they begin: a launch's faulted walk goes on, a save or load of the die is under way,
a migration is listed, or a replica is dropped. -/
def Obligations.SystemRecordResults : Prop :=
  ∀ g d a b c s k G m act pc l, lanesOf act = [l] →
    let gives := fun (i : Instr) (t : State) (n : Word) => ∃ H, exec i s = .next (t.setGang k H) ∧
      Wrote G H m act fun _ => .word d n
    let node := coreOf k / 512
    let ctx := s.ctxId node
    (∀ skip i, (i = .walkres g d a ∧ skip = false ∨ i = .walkresSkip g d a ∧ skip = true) →
      Executes i s k G m act pc → ((G.view l).reg ⟨false, a⟩).2 = false →
      let tag := ((G.view l).reg ⟨false, a⟩).1.toNat
      ((s.launches.find? tag = none ∨ ∃ L, s.launches.find? tag = some L ∧ L.ctx ≠ ctx) → gives i s 2) ∧
      ∀ L, s.launches.find? tag = some L → L.ctx = ctx →
        let ended := L.cancelled = true ∨ ∃ r, s.crecs.find? L.key = some r ∧ r.cancelReq = true
        (ended → gives i s 3) ∧ (¬ended → L.walk ≠ .faulted → gives i s 1) ∧
        (¬ended → L.walk = .faulted → ∃ t H, exec i s = .next t ∧ t.gangs.find? k = some H ∧
          (d ≠ 0 → (H.view l).reg ⟨false, d⟩ = (0, false)) ∧ (H.lane l).pc = succ pc ∧
          ∀ L', t.launches.find? tag = some L' → L'.walk ≠ .faulted ∧ L'.cursorFault = false ∧
            (skip = false → L.skip = [] → L'.cursor = L.cursor) ∧
            (skip = true → L.cursorFault = true → L.skip = [] → L'.cursor = L.cursor + 1) ∧
            ∀ e ∈ L'.deferred, e.faulted = false)) ∧
    (∀ r : Reg, Executes (.ctxsave g d r) s k G m act pc → ((G.view l).pair r).2 = false →
      let x := s.ctxsave (coreOf k) ((G.view l).pair r).1
      (∃ H, exec (.ctxsave g d r) s = .next (x.1.setGang k H) ∧ Wrote G H m act fun _ => .word d x.2) ∧
      ((s.saves.find? node).isSome → x = (s, 1)) ∧
      ((s.saves.find? node).isNone → ((G.view l).pair r).1.toNat % 4096 ≠ 0 → x = (s, 2)) ∧
      (x.2 = 0 → ∃ j, x.1.saves.find? node = some j ∧ j.load = false ∧ j.ctx = ctx ∧ j.area = ((G.view l).pair r).1 ∧
        j.graceEnd = s.now + 1000 * (s.ctxs.get {} ctx).grace)) ∧
    (∀ q r : Reg, Executes (.ctxload g d q r) s k G m act pc → ((G.view l).pair q).2 = false → ((G.view l).pair r).2 = false →
      let fresh := !r.k && r.n == 0
      let x := s.ctxload (coreOf k) ((G.view l).pair q).1 ((G.view l).pair r).1 fresh
      (∃ H, exec (.ctxload g d q r) s = .next (x.1.setGang k H) ∧ Wrote G H m act fun _ => .word d x.2) ∧
      ((s.saves.find? node).isSome → x = (s, 1)) ∧
      (x.2 = 0 → ∃ j C, x.1.saves.find? node = some j ∧ j.load = true ∧ x.1.dieCtx.find? node = some j.ctx ∧
        x.1.ctxs.find? j.ctx = some C ∧ C.recordVa = ((G.view l).pair q).1 ∧
        ∀ n < 512, (x.1.core (512 * node + n)).secure = C.secure ∧ (x.1.core (512 * node + n)).pwrset = C.pwrset)) ∧
    (∀ (len : Word) i kind s₁ pa ta vec s₂ r, Executes i s k G m act pc →
      let rec_ := (G.view l).pair ⟨false, a⟩
      let tile := (G.view l).pair ⟨false, b⟩
      let vector := (G.view l).pair ⟨false, c⟩
      let n := len.toNat
      (i = .tmove g d a b len ∧ kind = .move tile.1 n ∧
        s.operands k G l [(rec_.1, rec_.2, 32, .readWrite), (tile.1, tile.2, 128, .write)] = (s₁, .ok [.ok pa, .ok ta]) ∨
       i = .treplAdd g d a b c len ∧ kind = .add tile.1 vector.1 n ∧
        s.operands k G l [(rec_.1, rec_.2, 32, .readWrite), (tile.1, tile.2, 128, .write), (vector.1, vector.2, 32, .write)] =
          (s₁, .ok [.ok pa, .ok ta, .ok vec])) →
      s₁.prUpdate pa (fun _ => none) = (s₂, some r) →
      let add := i ≠ .tmove g d a b len
      let M := s₂.migration k pa (nodeOf ta) rec_.1 kind
      let at_ := nodeOf ta = prHome r ∨ add ∧ ∃ j ∈ prSlots r, prNode r j = nodeOf ta
      (n = 0 ∨ n % 128 ≠ 0 ∨ 2 ^ 24 < n → gives i s₁ 4) ∧
      (0 < n → n % 128 = 0 → n ≤ 2 ^ 24 →
        (prState r = 2 ∨ s₂.migrationPending pa = true → gives i s₂ 2) ∧
        (prState r ≠ 2 → s₂.migrationPending pa = false →
          (prBad r = true ∨ prState r ≠ 1 ∧ (add → prState r ≠ 3) ∨ add ∧ prRepl r = 15 → gives i s₂ 3) ∧
          (prBad r = false → prState r = 1 ∨ add ∧ prState r = 3 → (add → prRepl r ≠ 15) →
            (at_ → gives i s₂ 4) ∧
            (¬at_ → (add → prState r = 1 → nodeOf vec = prHome r) →
              (prClaim r ≠ 0 → s₂.pendingFull pa = true → gives i s₂ 5) ∧
              (prClaim r ≠ 0 → s₂.pendingFull pa = false → gives i (s₂.addMigration M) 1) ∧
              (prClaim r = 0 → let z := s₂.startMove M r; gives i (z.1.addMigration z.2) 0)))))) ∧
    ∀ (slots : BitVec 4) s₁ pa s₂ r, Executes (.treplDrop g d a slots) s k G m act pc →
      let rec_ := (G.view l).pair ⟨false, a⟩
      s.operands k G l [(rec_.1, rec_.2, 32, .readWrite)] = (s₁, .ok [.ok pa]) →
      s₁.prUpdate pa (fun _ => none) = (s₂, some r) →
      let M := s₂.migration k pa 0 rec_.1 (.drop slots)
      let wrong := prBad r = true ∨ prState r ≠ 3 ∨ (∃ j, prPrimary r = some j ∧ slots.getLsbD j = true) ∨
        ∃ j < 4, slots.getLsbD j = true ∧ (prRepl r).testBit j = false
      (wrong → gives (.treplDrop g d a slots) s₂ 3) ∧
      (¬wrong → prClaim r ≠ 0 → s₂.pendingFull pa = true → gives (.treplDrop g d a slots) s₂ 5) ∧
      (¬wrong → prClaim r ≠ 0 → s₂.pendingFull pa = false → gives (.treplDrop g d a slots) (s₂.addMigration M) 1) ∧
      (¬wrong → prClaim r = 0 → ∀ u v, s₂.dropReplicas (s₂.tileAgent M) r slots = (u, some v) →
        gives (.treplDrop g d a slots) ((u.baseWrite (runAt pa (clean v))).tellChanter pa) 0)

-- Events of the device

/-- R3, R14 to R30, R111, R281: what reset, bring-up, attestation, the monitors, self-test, single faults, gating and the
host's accesses leave. An event that names a unit the device does not have stops as `noSuchPart`. -/
def Obligations.BoardEventResults : Prop :=
  ∀ s : State,
    let boots := fun (i : Instr) (b : Boot) => exec i s = .next { s with boot := b }
    let byte := fun off n => s.boot.bytes off n
    let word := fun off n => ofBytes (s.boot.bytes off n)
    let onOne := fun (i : Instr) (c : Nat) (K : Cluster) => exec i s = .next { s with clusters := s.clusters.put c K }
    (∀ i, (i = .powerUpReset ∨ i = .inputUndervoltage) →
      exec i s = .next { State.reset with ctr := s.ctr, inputs := s.inputs }) ∧
    (∀ len, (s.boot.locked = false → s.boot.stage = 0 → boots (.bootGo len) { s.boot with length := some len.toNat }) ∧
      (s.boot.locked = true ∨ s.boot.stage ≠ 0 → exec (.bootGo len) s = .next s)) ∧
    (∀ len, s.boot.length = some len →
      let key := byte 0x010 1312
      let payload := word 0x008 8
      let fails := fun (e : BitVec 8) => let n := s.boot.attempts + 1
        boots .imageVerified { s.boot with
          length := none, error := e, attempts := n, locked := s.boot.locked || n == 3,
          stage := if n = 3 then 0xF else s.boot.stage }
      let digest := Crypto.sha3 (byte 0 0x530 ++ byte 4096 payload)
      let formed := word 0 4 = 0x4F4C5346 ∧ len = 4096 + payload ∧ len ≤ 2 ^ 28 ∧ word 0xEA4 348 = 0
      (Crypto.sha3 key ≠ Config.fusedKeyHash → fails 2) ∧
      (Crypto.sha3 key = Config.fusedKeyHash →
        (word 4 4 < Config.fusedMinSvn → fails 3) ∧
        (Config.fusedMinSvn ≤ word 4 4 →
          (¬formed → fails 4) ∧
          (formed → (Crypto.verify key digest (byte 0x530 2420) = false → fails 1) ∧
            (Crypto.verify key digest (byte 0x530 2420) = true → boots .imageVerified
              { s.boot with length := none, stage := 1, svn := word 4 4, measurement := digest }))))) ∧
    (∀ skew bands (h : HypLoad), 1 ≤ s.boot.stage.toNat → s.boot.stage.toNat ≤ 5 →
      let n := s.boot.stage.toNat + 1
      (n = 4 → Sys2Proof.Machine.HypLoad.inMemory h = false → exec (.firmwareStageComplete (.pass h) skew bands) s = .next s) ∧
      ((n = 4 → Sys2Proof.Machine.HypLoad.inMemory h = true) → ∃ t, exec (.firmwareStageComplete (.pass h) skew bands) s = .next t ∧
        t.boot = { s.boot with
          stage := BitVec.ofNat 4 n, hypervisor := if n = 4 then Crypto.sha3 h.image else s.boot.hypervisor } ∧
        (n = 2 → { t with boot := s.boot, links := s.links } = s ∧ t.links = []) ∧
        (n = 3 → t.hbm = [] ∧ t.l2 = [] ∧ t.rdc = []) ∧ (n = 5 → ∀ d, -8000 ≤ t.skew.get 0 d ∧ t.skew.get 0 d ≤ 8000) ∧
        (n = 6 → { t with boot := s.boot } = s)) ∧
      (n = 2 → boots (.firmwareStageComplete .trainFail skew bands) { s.boot with stage := 0xF, error := 5 }) ∧
      (n = 3 → boots (.firmwareStageComplete .trainFail skew bands) { s.boot with stage := 0xF, error := 6 }) ∧
      (4 ≤ n → exec (.firmwareStageComplete .trainFail skew bands) s = .next s) ∧
      boots (.firmwareStageComplete .selfTestFail skew bands) { s.boot with stage := 0xF, error := 7 }) ∧
    (s.boot.locked = false → boots .pcieHotReset { s.boot with stage := 0, length := none }) ∧
    (s.boot.locked = true → exec .pcieHotReset s = .next s) ∧
    (∀ addr, let a := addr.toNat
      4 ≤ s.boot.stage.toNat → s.boot.stage ≠ 0xF → a % 64 = 0 → physical a 64 = true →
      (∀ x ∈ (s.homeRead a 64).2, x.2 = false) →
      (s.boot.request = none → boots (.mailboxStore addr) { s.boot with request := some a }) ∧
      (s.boot.request ≠ none →
        exec (.mailboxStore addr) s = .next (s.homeWrite (runAt (a + 4) (clean (toBytes 4 3)))))) ∧
    (∀ a, s.boot.request = some a →
      let r := s.homeRead a 64
      let u := { r.1 with boot := { r.1.boot with request := none } }
      let status := fun (t : State) n => exec .attestationReport s = .next (t.homeWrite (runAt (a + 4) (clean (toBytes 4 n))))
      let b := r.2.map (·.1)
      (r.2.any (·.2) = true ∨ requestOk b = false → status u 2) ∧
      (r.2.any (·.2) = false → requestOk b = true →
        status (u.homeWrite (runAt (ofBytes ((b.drop 0x28).take 8)) (clean (u.boot.report ((b.drop 8).take 32)
          (Config.signRandom u.ctr))))) 1)) ∧
    (∀ c, 4096 ≤ c → ∀ i, (∃ x, i = .temperatureSample c x ∨ (∃ n, i = .processMonitorSample c n) ∨ i = .selfTestSlot c ∨
      (∃ ok, i = .selfTestSlotEnd c ok) ∨ i = .clusterGate c) → exec i s = .fault .noSuchPart) ∧
    (∀ n p, 128 ≤ n ∨ 16 ≤ p → ∀ i, ((∃ u v, i = .layerVoltageSample n p u v) ∨ ∃ v, i = .midRailSample n p v) →
      exec i s = .fault .noSuchPart) ∧
    (∀ r, 16 ≤ r → exec (.droopRestoreStep r) s = .fault .noSuchPart) ∧
    (∀ n x, 128 ≤ n → exec (.preferenceRebuild n x) s = .fault .noSuchPart) ∧
    (∀ c < 4096, let K := s.cluster c
      (∀ x, ∃ t, exec (.temperatureSample c x) s = .next t ∧
        t.cluster c = { K with celsius := x, bel := if 100 ≤ x ∧ K.bel = 0 then 1 else K.bel } ∧
        (∀ d ≠ c, t.cluster d = s.cluster d) ∧ (x < 100 → { t with clusters := s.clusters } = s) ∧
        (t.dies.get {} (c / 32)).stopped = ((s.dies.get {} (c / 32)).stopped || decide (110 ≤ x))) ∧
      (∀ n, onOne (.processMonitorSample c n) c { K with ringCount := n }) ∧
      onOne (.selfTestSlot c) c { K with testing := true } ∧
      (∀ ok, (K.testing = false → exec (.selfTestSlotEnd c ok) s = .next s) ∧
        (K.testing = true → ∃ t, exec (.selfTestSlotEnd c ok) s = .next t ∧
          t.cluster c = { K with testing := false, out := K.out || !ok } ∧ (ok = true → { t with clusters := s.clusters } = s))) ∧
      (let gates := K.gated = false ∧ s.pclaim c = false ∧ s.occupied c = false ∧ K.idleSince + 20000 ≤ s.now;
        (gates → onOne (.clusterGate c) c { K with gated := true }) ∧ (¬gates → exec (.clusterGate c) s = .next s)) ∧
      (K.waking = false → exec (.clusterWake c) s = .next s) ∧
      (K.waking = true → onOne (.clusterWake c) c { K with gated := false, waking := false, idleSince := s.now })) ∧
    (∀ n < 128, ∀ p < 16, ∀ (upper : Bool) mv,
      (∃ t, exec (.layerVoltageSample n p upper mv) s = .next t ∧
        (t.dies.get {} n).millivolts = (s.dies.get {} n).millivolts.put (2 * p + if upper then 0 else 1) mv ∧
        (600 ≤ mv → { t with dies := s.dies } = s) ∧ { t with dies := s.dies, clusters := s.clusters } = s ∧
        ∀ c, t.cluster c =
          if mv < 600 ∧ c / 256 = n / 8 ∧ (s.cluster c).bel.toNat < 2 then { s.cluster c with bel := 2 } else s.cluster c) ∧
      ∃ t, exec (.midRailSample n p mv) s = .next t ∧
        (∀ j < 16, (t.dies.get {} n).shunts.getLsbD j = if j = p then decide (40 < mv) else (s.dies.get {} n).shunts.getLsbD j) ∧
        (t.dies.get {} n).midRail = (s.dies.get {} n).midRail.put p mv ∧
        (mv ≤ 40 → { t with dies := s.dies } = s)) ∧
    (∀ r < 16, (∀ n < 8, (s.dies.get {} (8 * r + n)).droopAt + 10000 ≤ s.now) → ∃ t, exec (.droopRestoreStep r) s = .next t ∧
      { t with dies := s.dies, clusters := s.clusters } = s ∧ ∀ c, t.cluster c =
        let K := s.cluster c
        if c / 256 = r ∧ (if 100 ≤ K.celsius then 1 else 0) < K.bel.toNat then { K with bel := K.bel - 1 } else K) ∧
    (∀ n < 128, ∀ x, ∃ t, exec (.preferenceRebuild n x) s = .next t ∧
      { t with dies := s.dies, clusters := s.clusters } = s ∧ (t.dies.get {} n).currents = x ∧
      let I := fun c => x.getD c 0
      let J := fun c => if c % 2 = 0 then I (c + 1) else I (c - 1)
      let gap := fun c => (I c - J c) + (J c - I c)
      let list := (t.dies.get {} n).prefs
      (list.Perm (List.range 32) ∧ list.Pairwise fun c d => (I d < J d → I c < J c) ∧
        ((I c < J c ↔ I d < J d) → gap d < gap c ∨ gap c = gap d ∧ c < d)) ∧
      (s.limits.get 0 (n / 8) = 0 → ∀ c, let K := s.cluster c
        let heavy := c / 32 = n ∧ J (c % 32) < I (c % 32) ∧ 10 * I (c % 32) < 100 * gap (c % 32)
        { t.cluster c with bel := K.bel } = K ∧ (¬heavy → t.cluster c = K) ∧
        (heavy → Nat.min 2 (K.bel.toNat + 1) ≤ (t.cluster c).bel.toNat ∧ (t.cluster c).bel.toNat ≤ 2))) ∧
    (∀ unit addr, let w := (unit, faultWord unit addr)
      (w ∈ s.latent → exec (.scrubPass unit addr) s = .next ({ s with latent := s.latent.erase w }.countCorrected (faultClass unit))) ∧
      (w ∉ s.latent → exec (.scrubPass unit addr) s = .next s) ∧
      (unit ≠ .line → unit ≠ .matrix → s.strikes unit addr = true →
        (w ∉ s.latent → exec (.singleFault unit addr) s = .next { s with latent := s.latent ++ [w] }) ∧
        (w ∈ s.latent → exec (.singleFault unit addr) s = .next ({ s with latent := s.latent.erase w }.poisonWord unit addr)))) ∧
    (∀ st vmid addr len w, 64 ≤ vmid → exec (.hostMemoryAccess st vmid addr len w) s = .fault .noSuchPart) ∧
    (∀ bs addr vmid len, vmid < 64 → addr + bs.length ≤ 2 ^ 28 → ∃ b, boots (.hostMemoryAccess true vmid addr len (some bs)) b ∧
      { b with staging := s.boot.staging } = s.boot ∧
      ∀ a, b.bytes a 1 = if addr ≤ a ∧ a < addr + bs.length then [bs.getD (a - addr) 0] else s.boot.bytes a 1) ∧
    (∀ vmid < 64, ∀ addr len t ps, (∀ bs, s.hostPlaces vmid true ((List.range bs.length).map (addr + ·)) = (t, some ps) →
        exec (.hostMemoryAccess false vmid addr len (some bs)) s = .next (t.writePlaces (ps.zip (clean bs)))) ∧
      (s.hostPlaces vmid false ((List.range len).map (addr + ·)) = (t, some ps) →
        exec (.hostMemoryAccess false vmid addr len none) s = .next (t.readPlaces ps).1)) ∧
    (∀ vmid < 64, ∀ addr len w a, let places := (List.range ((w.map List.length).getD len)).map (addr + ·)
      (s.hostPlaces vmid w.isSome places).2 = none → places.find? (s.hostSecure vmid) = some a →
      exec (.hostMemoryAccess false vmid addr len w) s = .next { s with abortLog := s.abortLog ++ [(vmid, a)] }) ∧
    ∀ v : Word, let two := fun (c : BitVec 2) => if c = 3 then (2 : BitVec 2) else c
      (let w := s.registerRead .bootStatus;
        w.extractLsb' 0 4 = s.boot.stage ∧ w.extractLsb' 4 8 = s.boot.error ∧ w.extractLsb' 12 2 = s.boot.attempts ∧
          w.extractLsb' 14 1 = 0 ∧ w.getLsbD 15 = s.boot.locked ∧ w.extractLsb' 16 16 = 0 ∧ s.registerRead .bootGo = 0) ∧
      exec (.registerWrite .bootStatus v) s = .next s ∧
      exec (.registerWrite .bootGo v) s = exec (.bootGo (v.setWidth 64)) s ∧
      (∀ c, onOne (.registerWrite (.passcnt c) v) c { s.cluster c with hmin := two (v.extractLsb' 8 2) }) ∧
      (∀ c, exec (.registerWrite (.pwrset c) v) s = .next (s.setCore c { s.core c with pwrset :=
        { step := v.extractLsb' 16 8, weight := if v.extractLsb' 4 8 = 0 then 1 else v.extractLsb' 4 8,
          floor := two (v.extractLsb' 0 2) } })) ∧
      (∀ k l G, s.gangs.find? k = some G → ∃ H, exec (.registerWrite (.fflags k l) v) s = .next (s.setGang k H) ∧
        { H with lanes := G.lanes } = G ∧ (l < G.lanes.length → (H.lane l).fflags = v.setWidth 7)) ∧
      (∀ b B, s.blocks.find? b = some B → exec (.registerWrite (.mflags b) v) s =
        .next (s.setBlock b { B with mseq := { B.mseq with mflags := v.setWidth 7 } })) ∧
      ∀ r, exec (.registerWrite (.stepLimit r) v) s = .next
        (if r < 16 ∧ 1 ≤ v.toNat ∧ v.toNat ≤ 125 then { s with limits := s.limits.put r v.toNat } else s)

/-- R39, R88 to R109, R116 to R118, R348, R356: what the events of queues, graphs, records, walks, placement, migration and
retirement leave, where they apply. -/
def Obligations.LaunchEventResults : Prop :=
  ∀ s : State,
    let onL := fun (i : Instr) tag (P : State → Launch → Prop) => ∃ t, exec i s = .next t ∧ ∀ L', t.launches.find? tag = some L' → P t L'
    (∀ c q u d, (s.ctxs.find? c).isSome → s.queueDesc c (q % 64) = (u, some d) → qDev d = false →
      let tail := ofBytes ((d.drop 0x18).take 8)
      (tail + 2 ^ 64 - ofBytes ((d.drop 0x10).take 8)) % 2 ^ 64 ≤ 2 ^ (d.getD 8 0).toNat →
      (∃ t, exec (.queueTailPoll c q) s = .next t ∧ (t.queues.get {} (64 * c + q % 64)).tail = tail ∧
        (t.queues.get {} (64 * c + q % 64)).known = true ∧ { t with queues := u.queues } = u) ∧
      ∀ vmid C, s.ctxs = [(c, C)] → C.vmid = vmid → exec (.doorbell vmid q) s = exec (.queueTailPoll c q) s) ∧
    (∀ c q u d, (s.ctxs.find? c).isSome → s.queueDesc c (q % 64) = (u, some d) → qDev d = true →
      let Q := s.queues.get {} (64 * c + q % 64)
      Q.known = true → (Q.tail + 2 ^ 64 - ofBytes ((d.drop 0x10).take 8)) % 2 ^ 64 ≤ 2 ^ (d.getD 8 0).toNat →
      exec (.queueTailPoll c q) s = .next u) ∧
    (∀ c q u d, s.acceptable c q false = (u, some d) → ∀ v,
      let a := BitVec.ofNat 64 (ofBytes (d.take 8) + 256 * (ofBytes ((d.drop 0x10).take 8) % 2 ^ (d.getD 8 0).toNat))
      (u.takeLaunch c q ((d.getD 9 0).toNat % 4) a none = (v, .waits) → exec (.launchAccept c q) s = .next v) ∧
      ∀ tag, (u.takeLaunch c q ((d.getD 9 0).toNat % 4) a none = (v, .running tag) →
        ∃ t, exec (.launchAccept c q) s = .next t ∧ (t.queues.get {} (64 * c + q)).prevLaunch = some tag ∧
          (t.queues.get {} (64 * c + q)).prevGraph = none ∧ t.launches = v.launches)) ∧
    (∀ c q u d r v t₁ id, s.acceptable c q true = (u, some d) →
      devReadClean (u.lp c) (qEntry d (qHead d)) 256 u = (v, .ok r) → graphCode r q = 0 → ∀ w,
      v.chainCancelled c (BitVec.ofNat 64 (ofBytes ((r.drop 0x60).take 8))) 5 = (w, false) → w.startGraph c q ((d.getD 9 0).toNat % 4) r = (t₁, id) →
      ∃ t, exec (.graphStartAccept c q) s = .next t ∧ (t.queues.get {} (64 * c + q)).prevGraph = some id ∧
        (t.queues.get {} (64 * c + q)).prevLaunch = none ∧ t.graphs = t₁.graphs) ∧
    (∀ key c, s.crecs.find? key = some c →
      let late := c.level = 1 ∧ s.lateHeld c.tag = true
      (¬late → c.sealed = true → c.out = 0 → c.completed = false → ∃ t, exec (.recordComplete key) s = .next t ∧
        t = s.completeWith key (if c.cancelReq then 3 else 1) 0 ∧ ∀ x, t.crecs.find? key = some x → x.completed = true) ∧
      (late ∨ c.sealed = false ∨ c.out ≠ 0 ∨ c.completed = true → exec (.recordComplete key) s = .next s)) ∧
    ((∀ c ∈ s.crecs, c.2.unread = false ∧ c.2.held = []) → exec .heldWriteRetry s = .next s) ∧
    (∀ key c off bs u, s.crecs = [(key, c)] → c.unread = false → c.completed = false → c.held = [(off, bs)] →
      s.tryRec c off bs = (u, none) → ∃ t, exec .heldWriteRetry s = .next t ∧
        t = { u with crecs := [(key, { c with held := [] })] }) ∧
    (∀ c C vmid a, s.ctxs = [(c, C)] → C.vmid = vmid → exec (.seal vmid a) s = .next (s.sealRec c a) ∧
      ∀ r, s.crecs.find? (crecKey c a) = some r → a ≠ 0 → a.toNat % 64 = 0 → r.completed = false → r.unread = false →
        r.level = 3 ∨ r.level = 4 → r.addr = a → r.ctx = c → r.notify = 0 →
        ∀ x, (s.sealRec c a).crecs.find? (crecKey c a) = some x → x.sealed = true) ∧
    (∀ id i g r, s.graphs.find? id = some g → g.recs[i]? = some r → s.canPost 0 (g.ctx + 1) = true →
      s.graphHeld g = false →
      let word := fun (n : Nat) => ofBytes ((r.drop n).take 8)
      let succ_ := fun (j : Nat) => ofBytes ((r.drop (8 + 2 * j)).take 2)
      let all := ((List.range 4).map succ_).filter (· != 0xFFFF)
      let one := fun j => if succ_ j = 0xFFFF then [] else [succ_ j]
      let reads := fun (i : Instr) (f : Nat → Graph) => ∀ u bs, devReadRun (s.lp g.ctx) (BitVec.ofNat 64 (word 0x10)) 8 s =
        (u, .ok bs) → ∃ t x, exec i s = .next t ∧ t.graphs.find? id = some x ∧ { x with ended := g.ended } = f (ofBytes bs)
      (i ∈ g.running → (r.getD 0 0).toNat = 1 → ∀ comp, g.launched.find? i = some comp →
        s.crecs.find? (crecKey g.ctx comp) = none → ∃ t x, exec (.graphNodeLaunch id i) s = .next t ∧
          t.graphs.find? id = some x ∧ { x with ended := g.ended } = g.finish i all) ∧
      (i ∈ g.running → (r.getD 0 0).toNat = 2 → g.copied.get 0 i = word 0x20 → ∃ t x, exec (.graphNodeCopy id i) s = .next t ∧
          t.graphs.find? id = some x ∧ { x with ended := g.ended } = g.finish i all) ∧
      (i ∉ g.running → i ∈ g.ready → badNode g i r = false →
        ((r.getD 0 0).toNat = 2 → ∃ t x, exec (.graphNodeCopy id i) s = .next t ∧ t.graphs.find? id = some x ∧
          { x with ended := g.ended } = g.begin i) ∧
        ((r.getD 0 0).toNat = 3 → reads (.graphNodeConditional id i)
          (fun w => (g.begin i).finish i (if w ≠ 0 then one 0 else one 1))) ∧
        ((r.getD 0 0).toNat = 4 → reads (.graphNodeLoop id i) (fun w =>
          if w ≠ 0 ∧ (word 0x20 = 0 ∨ g.repeats.get 0 i < word 0x20) then (g.begin i).again (word 0x18) i
          else (g.begin i).finish i (one 0))) ∧
        ((r.getD 0 0).toNat = 5 → reads (.graphNodeWait id i) (fun w =>
          let n := ((BitVec.ofNat 16 (w / 2 ^ 48) - BitVec.ofNat 16 (word 0x18) : BitVec 16)).toNat
          if 1 ≤ n ∧ n ≤ 0x7FFF then (g.begin i).finish i all else g.begin i)) ∧
        ((r.getD 0 0).toNat = 6 → ∀ u bs, devUpdate (s.lp g.ctx) (BitVec.ofNat 64 (word 0x10)) 8
            (fun bs => toBytes 8 ((ofBytes bs + word 0x18) % 2 ^ 64)) s = (u, .ok bs) →
          ∃ t x, exec (.graphNodeSignal id i) s = .next t ∧ t.graphs.find? id = some x ∧
            { x with ended := g.ended } = (g.begin i).finish i all ∧ (g.running ≠ [] → t.hbm = u.hbm)))) ∧
    (∀ tag L e, s.launches.find? tag = some L → L.graceEnd = some e → e ≤ s.now →
      ∃ t, exec (.cancelGraceExpiry tag) s = .next t ∧ ∀ b B, s.blocks.find? b = some B → B.tag = tag →
        (∀ k ∈ B.gangs, ∀ l < 32, (t.lane k l).life = .exited) ∧
        ∃ B', t.blocks.find? b = some B' ∧ ∀ m, (B'.seq m).run = .idle) ∧
    (∀ tag L u, s.launches.find? tag = some L → L.walk = .walking → L.cancelled = false → s.canPost 0 (L.ctx + 1) = true →
      L.skip = [] → L.deferred = [] → L.cursorFault = false → L.cursor < L.records → L.celled = false →
      (∀ reason, s.readRecord tag L L.cursor = (u, .fault reason) → onL (.walkRecordRead tag L.cursor) tag fun _ L' =>
        L'.walk = .faulted ∧ L'.cursorFault = true ∧ L'.cursor = L.cursor ∧ L'.streams = L.streams) ∧
      (∀ x, s.readRecord tag L L.cursor = (u, .claimed x) → onL (.walkRecordRead tag L.cursor) tag fun _ L' =>
        let n := L.route x.home
        L'.cursor = L.cursor + 1 ∧ L'.cursorFault = false ∧
        (L'.streams.get [] n).map (·.index) = (L.streams.get [] n).map (·.index) ++ [x.index])) ∧
    (∀ tag i L, s.launches.find? tag = some L → exec (.deferredNotify tag i) s = .next { s with
      launches := s.launches.put tag { L with deferred := L.deferred.map fun e =>
        if e.index = i ∧ e.noticed = true then { e with noticed := false, ready := true } else e } }) ∧
    (∀ tag n L x xs ys, s.launches.find? tag = some L → L.cursor < L.records → L.streams.get [] n = xs ++ x :: ys →
      (∀ y ∈ xs, y.created = true) → x.created = false →
      ∃ t, exec (.blockCreate tag n) s = .next t ∧ t.launches = s.launches.put tag
          { L with streams := L.streams.put n (xs ++ { x with created := true } :: ys) } ∧
        ∀ r, s.crecs.find? L.key = some r → ∃ r', t.crecs.find? L.key = some r' ∧ r'.out = (r.out + 1) % 2 ^ 64) ∧
    (∀ tag n r c L, s.placeChoice n = some (tag, r, .core c) → s.launches.find? tag = some L →
      ∃ t b B, exec (.blockPlace tag n r.index) s = .next t ∧ t.blocks.find? b = some B ∧ B.core = c ∧ B.tag = tag ∧
        B.index = r.index ∧ B.coord = r.coord ∧ B.tile = r.tile ∧ B.lsb = L.lsb ∧ B.regs = L.regs ∧ B.ls = [] ∧
        ∀ sl ∈ B.slots, ∃ G, t.gangs.find? (16 * c + sl) = some G ∧ G.block = b ∧ G.alloc = L.regs ∧
          ∀ l < 32, (G.lane l).pc = BitVec.ofNat 64 (ofBytes (L.lrec.take 8)) ∧ (G.lane l).life = .running ∧
            (G.lane l).mode = .user) ∧
    (∀ tag cell L C u, s.launches.find? tag = some L → L.cells.find? cell = some C → C.formed = true → C.placed = false →
      s.ensembleNext tag cell L C = true → s.tryEnsemble tag L C = some (u, []) → onL (.ensemblePlace tag cell) tag fun t L' =>
        (∀ C', L'.cells.find? cell = some C' → C'.placed = true) ∧ t.ensembles = u.ensembles) ∧
    (∀ b B, s.blocks.find? b = some B → s.retires b B = true → B.ens = none →
      s.canPost (B.core / 512) (B.ctx + 1) = true → s.canPost (nodeOf B.recPa) (B.ctx + 1) = true → ∃ t, exec (.blockRetire b) s = .next t ∧
      t.blocks.find? b = none ∧ ∀ k ∈ B.gangs, t.gangs.find? k = none) ∧
    (∀ b B m, s.blocks.find? b = some B → (B.seq m).exiting = true → (s.copies.all fun c => !c.2.ofSeq b m) = true →
      ∃ t B', exec (.sequencerExit b m) s = .next t ∧ t.blocks.find? b = some B' ∧ (B'.seq m).run = .idle ∧
        (B'.seq m).exiting = false) ∧
    (∀ id m ta n u r, s.migrations.find? id = some m → m.pending = false → m.faulted = false →
      (m.kind = .move ta n → n ≤ m.done → s.prUpdate m.pa (fun r => some (setField (setField (setField (setField (setField r 8 1
          m.node) 24 8 ta.toNat) 10 2 0) 9 1 1) 12 2 ((ofBytes ((r.drop 12).take 2) + 1) % 65536))) = (u, some r) →
        ∃ t, exec (.moveCommit id) s = .next t ∧ t = { u with migrations := u.migrations.del id }.tellChanter m.pa) ∧
      (∀ vec v, m.kind = .add ta vec n → n ≤ m.done → m.was ≠ 3 → s.prUpdate m.pa (fun _ => none) = (u, some r) →
        devWrite (u.tileAgent m) vec (clean (toBytes 8 (prAddr r) ++ toBytes 8 ta.toNat ++ toBytes 16 0)) u = (v, .ok ()) →
        ∃ t, exec (.replicaAddCommit id) s = .next t ∧ t.migrations.find? id = none)) ∧
    ∀ id m, s.migrations.find? id = some m → m.faulted = true → s.canPost (nodeOf m.pa) (m.ctx + 1) = true →
      ∃ t, exec (.migrationAbort id) s = .next t ∧ t.migrations.find? id = none

/-- R135, R217, R235, R247, R257 to R265, R293, R294: what the events of refetches, walks, copies, requests, links and
monitors leave, where they apply. -/
def Obligations.FabricEventResults : Prop :=
  ∀ s : State,
    (∀ c line, ∃ t L, exec (.instructionRefetch c line) s = .next t ∧ (t.core c).icache.head? = some L ∧ L.tag = line ∧
      L.data = BitVec.ofNat 512 (ofBytes ((s.dram (64 * (line / 2)) 64).map (·.1))) ∧
      (∀ k G, t.gangs.find? k = some G → k / 16 = c → ∀ w ∈ G.waits, w.kind ≠ .refetch line) ∧
      ∀ x ∈ (t.core c).icache.tail, x.tag ≠ line ∧ x ∈ (s.core c).icache) ∧
    (∀ id w, s.walks.find? id = some w → s.walking w = false → exec (.translationWalkDone id) s = .next s) ∧
    (∀ id w, s.walks.find? id = some w → s.walking w = true → ∃ t, exec (.translationWalkDone id) s = .next t ∧ t.walks.find? id = none ∧
      ∀ k m, .lanes k m ∈ w.requesters → ∀ G, t.gangs.find? k = some G → ∀ x ∈ G.waits, x.kind ≠ .walk id) ∧
    (∀ id c p w x v y, s.copies.find? id = some c → c.fault = none → c.awaiting = none → c.arrived = [] →
      c.counters = [] → c.todo[Config.freeNat s.ctr id % c.todo.length]? = some p →
      (∀ q ∈ c.todo, ∀ d o, s.copySite c c.srcAt c.src false q.src ≠ .global d o) →
      s.copySite c c.srcAt c.src false p.src = .ls w x →
      c.dsts.map (fun d => s.copySite c d c.dst c.multi p.dst) = [.ls v y] → (s.blocks.find? v).isSome →
      ∃ t, exec (.copyPacketPerformed id) s = .next t ∧ ∀ a, (t.lsRead v a 1).map (·.1) =
        if y ≤ a ∧ a < y + p.len then (s.lsRead w (x + (a - y)) 1).map (·.1) else (s.lsRead v a 1).map (·.1)) ∧
    (∀ id c cause v host mig k u tok, s.copies.find? id = some c → c.fault = some (cause, v, host, mig) → c.gang = some k →
      s.canPost (c.core / 512) (c.ctx + 1) = true → s.gangLives k = true →
      s.post (c.core / 512) (c.ctx + 1) (s.copyRecord c cause v host mig) = (u, some tok) →
      ∃ t, exec (.copyFault id) s = .next t ∧ t.copies = s.copies.del id ∧ (t.copyTokens.find? (tokenKey c.ctx tok.toNat)).isSome) ∧
    (∀ c i e, (s.combine.get [] c)[i]? = some e → (s.canSend e.device 1 = true → ∃ t q, exec (.combineTimeout c i) s = .next t ∧
        t.combine.get [] c = (s.combine.get [] c).eraseIdx i ∧ (∃ id, s.requests.find? id = none ∧ t.requests.find? id = some q) ∧
        q.kind = .store e.bytes ∧ q.device = e.device ∧ q.offset = e.base ∧ q.gang = some e.gang) ∧
      (s.canSend e.device 1 = false → exec (.combineTimeout c i) s = .next s)) ∧
    (∀ source vmid seq secure off kind, source ≠ Config.deviceNumber.toNat →
      (∀ r, s.recordedReply source seq kind = some r → exec (.remoteRequest source vmid seq secure off kind) s = .next s) ∧
      (∀ bs u ag base v ps, kind = .store bs → s.recordedReply source seq kind = none →
        s.binding vmid secure = (u, some (ag, base)) → u.windowBytes ag .write base (bs.map (·.1)) = (v, .ok ps) →
        exec (.remoteRequest source vmid seq secure off kind) s =
          .next (({ v with torn := v.torn ++ [⟨ps.zip (bs.map fun b => (b.2, false)), none⟩] } : State).recordReply source seq kind .ack))) ∧
    (∀ id r, s.requests.find? id = some r →
      (r.idle = false → r.device ≠ Config.deviceNumber.toNat → exec (.remoteReply id .nack) s = .next { s with
        requests := s.requests.put id { r with nacked := some (r.nacked.getD s.now), idle := true, nackAt := s.now } }) ∧
      (∀ n bs k G, r.idle = false → r.device ≠ Config.deviceNumber.toNat → r.kind = .load n → r.origin = .load →
        bs.length = n → (∀ p ∈ r.parts, p.2.own = []) → r.gang = some k → s.gangs.find? k = some G →
        ∃ t H, exec (.remoteReply id (.data bs)) s = .next t ∧ t.requests = s.requests.del id ∧ t.gangs.find? k = some H ∧
          H.answers = G.answers ++ (r.parts.filter fun p => (G.lane p.1).life == .running).map (fun p =>
            ⟨p.1, id, .data ((bs.drop (p.2.off - r.offset)).take p.2.n)⟩) ∧ H.lanes = G.lanes) ∧
      (r.idle = true → r.nackAt + 1000 ≤ s.now →
        exec (.nackResend id) s = .next { s with requests := s.requests.put id { r with idle := false } }) ∧
      (∀ n k G, s.undeliverable r = true → r.kind = .load n → r.origin = .load → r.gang = some k →
        s.gangs.find? k = some G → ∃ t H, exec (.routeTimeout id) s = .next t ∧
          t.requests = s.requests.del id ∧ t.gangs.find? k = some H ∧
          H.answers = G.answers ++ (r.parts.filter fun p => (G.lane p.1).life == .running).map (fun p => ⟨p.1, id, .fault 0x0D⟩) ∧
          H.lanes = G.lanes) ∧
      (s.undeliverable r = false → exec (.routeTimeout id) s = .next s)) ∧
    (∀ k, isLink k = false → exec (.flitCrcFail k) s = .fault .noSuchPart ∧
      (isFarLink k = false → ∀ ok, exec (.linkRetrain k ok) s = .fault .noSuchPart)) ∧
    (∀ k, isLink k = true → isFarLink k = false → let l := s.links.get {} k
      (linkInUse k = true → l.dead = false → l.training = false → ∃ t, exec (.flitCrcFail k) s = .next t ∧
        let n := (if l.window = s.now / 1000000 then l.replays else 0) + 1
        (t.links.get {} k).replays = n ∧ (t.links.get {} k).training = decide (256 ≤ n) ∧
        (n ≠ 16 → { t with links := s.links } = s)) ∧
      (l.dead = false → l.training = true →
        exec (.linkRetrain k true) s = .next { s with links := s.links.put k { l with training := false, attempts := 0, replays := 0 } } ∧
        (l.attempts < 2 → exec (.linkRetrain k false) s =
          .next { s with links := s.links.put k { l with attempts := l.attempts + 1 } }) ∧
        (2 ≤ l.attempts → ∃ t, exec (.linkRetrain k false) s = .next t ∧ (t.links.get {} k).dead = true ∧
          ∀ id r, s.requests.find? id = some r → ∃ r', t.requests.find? id = some r' ∧
            let own := Config.deviceNumber.toNat
            r' = if r.device = own ∨ t.route own r.device = s.route own r.device then r
              else if (t.routeTo r.device).isSome then { r with sentAt := s.now } else { r with deadAt := some s.now }))) ∧
    ∀ id M, s.monitors.find? id = some M → (∀ m ∈ s.monitors, ∀ w ∈ m.2.waiters, w.ended = none) →
      let word := s.watched M.place
      let lost := fun (w : MonWait) => s.lost M.place w.cond = true
      let meets := fun (w : MonWait) => lost w ∨ word.2 = false ∧ w.cond.holds word.1 = true
      let value := fun (w : MonWait) => if s.lost M.place w.cond then 3 else w.cond.value word.1
      (∀ i, (i = .monitorEvaluate id ∧ M.pending = true ∧ M.seat ≠ .polling ∨ i = .monitorPoll id ∧ M.seat = .polling) →
        ((∀ w ∈ M.waiters, ¬meets w) →
          exec i s = .next { s with monitors := s.monitors.put id { M with pending := false } }) ∧
        ∀ w k l G pc n d, M.waiters = [w] → meets w → w.who = .lane k l → l < 32 → s.gangs = [(k, G)] → s.blocks = [] →
          G.waits = [⟨laneBit l, pc, .monitor n d false none⟩] → s.monitors = [(id, M)] → (G.lane l).life = .running →
          ∃ t H, exec i s = .next t ∧ t.gangs = [(k, H)] ∧ H.waits = [] ∧ (H.lane l).pc = succ (G.lane l).pc ∧
            (d ≠ 0 → (H.view l).reg ⟨false, d⟩ = ((value w).setWidth 32, false))) ∧
      ∀ w k l G pc n d x, M.waiters = [w] → ¬meets w → w.who = .lane k l → l < 32 → w.limit = some x →
        s.gangs = [(k, G)] → s.blocks = [] → G.waits = [⟨laneBit l, pc, .monitor n d false none⟩] → s.monitors = [(id, M)] →
        (G.lane l).life = .running →
        ((s.counter (k / 16 / 512)).toNat < x → exec (.waitaTimeout k l) s = .next s) ∧
        (x ≤ (s.counter (k / 16 / 512)).toNat → ∃ t H, exec (.waitaTimeout k l) s = .next t ∧ t.gangs = [(k, H)] ∧
          H.waits = [] ∧ (H.lane l).pc = succ (G.lane l).pc ∧
          (d ≠ 0 → (H.view l).reg ⟨false, d⟩ = ((w.cond.value word.1).setWidth 32, word.2)))

/-- R303 to R307, R311, R332, R334, R336, R337: what the events of homes, of the fault queues and of saves leave, where they
apply; a send is judged as R305 says. -/
def Obligations.ConversationAndSaveEventResults : Prop :=
  (∀ (H : Home) (m : Send),
    let row := ptRow H.table H.st
    let turn := (ptTurnsOf H.table H.st).find? fun v => turnKind v == m.kind.toNat
    (H.status ≠ .opened ∨ m.gen ≠ H.gen → H.judge m = some (1, H)) ∧
    (H.status = .opened → m.gen = H.gen →
      (H.roles.length ≤ m.role ∨ (H.role m.role).holder ≠ some m.who → H.judge m = some (2, H)) ∧
      (m.role < H.roles.length → (H.role m.role).holder = some m.who →
        (turn = none ∨ rowCount row = 0 ∨ rowSender row ≠ m.role → H.judge m = some (3, H)) ∧
        ∀ v, turn = some v → rowCount row ≠ 0 → rowSender row = m.role →
          let next := turnNext v
          let to_ := addressee H.table H.st next
          let gets := fun r => to_ = some r ∨ r ∈ observers H.table H.st to_
          ((∃ r, gets r ∧ (H.role r).credits = 0) → H.judge m = none) ∧
          ((∀ r, gets r → (H.role r).credits ≠ 0 ∧ r < H.roles.length) → ∃ N, H.judge m = some (0, N) ∧ N.st = next ∧
            N.seq = H.seq + 1 ∧ N.status = (if rowCount (ptRow H.table next) = 0 then .closed else .opened) ∧
            ∀ r, (¬gets r → N.role r = H.role r) ∧
              (to_ = some r → N.role r = { H.role r with
                credits := (H.role r).credits - 1, queue := (H.role r).queue ++
                  [⟨H.seq + 1, false, BitVec.ofNat 4 m.role, m.kind, m.lanes, m.words⟩] }) ∧
              (r ∈ observers H.table H.st to_ → N.role r = { H.role r with
                credits := (H.role r).credits - 1, queue := (H.role r).queue ++
                  [⟨H.seq + 1, true, BitVec.ofNat 4 m.role, m.kind, 0, []⟩] }))))) ∧
  ∀ s : State,
    (∀ key H, s.homes.find? key = some H →
      (∀ m rest, H.sends = m :: rest → (H.judge m = none → exec (.sendJudge key) s = .next s) ∧
        ∀ code N, H.judge m = some (code, N) → N.spilled = false → key / 65536 < 128 → m.gen < 65536 → ∃ t N', exec (.sendJudge key) s = .next t ∧
          t.homes.find? key = some N' ∧ { N' with used := N.used } = { N with sends := rest }) ∧
      ∀ r < H.roles.length,
        ((H.role r).owed ≠ 0 → key / 65536 < 128 → H.gen < 65536 → ∃ t N, exec (.creditReturn key r) s = .next t ∧
          { t with homes := s.homes } = s ∧ t.homes.find? key = some N ∧
          { N with used := H.used, spilled := H.spilled } = { H with
            roles := H.roles.set r { H.role r with owed := (H.role r).owed - 1, credits := (H.role r).credits + 1 } }) ∧
        (∀ k e rest, (H.role r).holder = some ⟨none, k⟩ → (H.role r).queue = e :: rest → (s.gangs.find? k).isSome →
          s.joinedTo (k / 16) (H.handle key) = true →
          s.back.get [] (convKey (H.handle key) r) = [] → ∃ t, exec (.messageDelivery key r) s = .next t ∧
            t.recv.get [] (convKey (H.handle key) r) = s.recv.get [] (convKey (H.handle key) r) ++ [e] ∧
            (key / 65536 < 128 → H.gen < 65536 → ∃ N, t.homes.find? key = some N ∧ (N.role r).queue = rest ∧
              (r < 16 → N.stalled.getLsbD r = false))) ∧
        (s.back.get [] (convKey (H.handle key) r) ≠ [] → key / 65536 < 128 → H.gen < 65536 → ∃ t N, exec (.entryReturn key r) s = .next t ∧
          t.homes.find? key = some N ∧ t.back.get [] (convKey (H.handle key) r) = [] ∧
          (N.role r).queue.length = (H.role r).queue.length + (s.back.get [] (convKey (H.handle key) r)).length) ∧
        (r < 16 → (s.stallsNow key r = true → key / 65536 < 128 → H.gen < 65536 → ∃ t N,
            exec (.deliveryStall key r) s = .next t ∧ t.homes.find? key = some N ∧
            { N with used := H.used, spilled := H.spilled } = { H with stalled := H.stalled ||| (1#16 <<< r) }) ∧
          (s.stallsNow key r = false → exec (.deliveryStall key r) s = .next s) ∧
          (H.stalled.getLsbD r = true → (s.cannotDeliver key r H = true → exec (.deliveryResume key r) s = .next s) ∧
            (s.cannotDeliver key r H = false → exec (.deliveryResume key r) s = .next { s with
              homes := s.homes.put key { H with stalled := H.stalled &&& ~~~(1#16 <<< r) } })))) ∧
    (∀ node h u v base size tok, s.nextHeld node (s.overflow.get [] node) = some h →
      h.gang = none → s.queueOpen node h.queue = (u, some (base, size)) → u.postInto node h.queue base size h.bytes = (v, some tok) →
      ∃ t, exec (.faultOverflowPost node) s = .next t ∧ t.fqTail = v.fqTail ∧
        ∀ x ∈ t.overflow.get [] node, x.id ≠ h.id) ∧
    (∀ k G i m pc tok u pa r, s.gangs.find? k = some G → G.waits[i]? = some ⟨m, pc, .parked tok⟩ →
      s.recordAt (k / 16 / 512) tok = (u, some (pa, r)) →
      let res := ofBytes ((r.drop 0x60).take 8)
      (res = 0 → exec (.parkedResume k i) s = .next u) ∧
      (res = 1 → ∃ H, exec (.parkedResume k i) s = .next ((u.setGang k H).settleAll k) ∧ ∀ l < G.lanes.length, H.lane l =
        if l ∈ lanesOf m then { G.lane l with
          pc := BitVec.ofNat 64 (ofBytes ((r.drop 0x10).take 8)), checkTarget := false, checkEntry := false } else G.lane l) ∧
      (2 ≤ res → ∃ t, exec (.parkedResume k i) s = .next t ∧ ∀ l ∈ lanesOf m, (t.lane k l).life = .exited)) ∧
    (∀ b B j u t₁ v, s.blocks.find? b = some B → s.saves.find? (B.core / 512) = some j → s.evictable b B = true →
      (∀ k ∈ B.gangs, s.outstanding k = 0) → s.canTell (B.gangs.filterMap s.gangs.find?) = true →
      let r := s.releaseAt B.core .pkg
      let a := j.area + BitVec.ofNat 64 j.used
      let size := imageSize B (B.gangs.filterMap r.gangs.find?)
      translateNow (saveAgent (B.core / 512) j) .write a.toNat r = (u, .ok t₁) →
      writePieces (saveAgent (B.core / 512) j) a (savedBytes u.ctr ((u.images.freeFrom (u.images.length + 1) 0).getD 0) size) u
        pieceFuel = (v, .ok ()) →
      ∃ t img S, exec (.blockEvict b) s = .next t ∧ t.blocks.find? b = none ∧ t.images.find? img = some S ∧ S.out = true ∧
        S.pa = t₁.addr a.toNat ∧ S.size = size ∧ { S.block with mseq := B.mseq, cseq := B.cseq } = B ∧
        t.saves.find? (B.core / 512) = some { j with used := j.used + size, blocks := j.blocks + 1 }) ∧
    ∀ node j, s.saves.find? node = some j →
      (j.load = false → s.blocksAt node = [] → s.canPost node 0 = true → ∃ t, exec (.contextSaveComplete node) s = .next t ∧ t.saves.find? node = none ∧
        t.dieCtx.find? node = none) ∧
      (j.load = true → j.todo = 0 → s.canPost node 0 = true → ∃ t, exec (.contextSaveComplete node) s = .next t ∧ t.saves.find? node = none ∧
        t.dieCtx = s.dieCtx) ∧
      (j.load = false → j.expired = false → j.graceEnd ≤ s.now → s.canPost node (j.ctx + 1) = true → ∃ t J, exec (.saveGraceExpiry node) s = .next t ∧
        t.saves.find? node = some J ∧ J.expired = true ∧ { J with expired := j.expired, killed := j.killed } = j ∧
        ∀ k G, s.gangs.find? k = some G → k / 16 / 512 = node → G.live ≠ 0 → ∀ l < 32, (t.lane k l).life = .exited)

-- Traps, the checks at issue, encodings, steps and reset

/-- R326, deferral and parking apart: what a trap of a running lane saves and where it goes. The rest of the lane, the other
lanes and the rest of the state are as they were, but that the lane no longer waits: one that did has its arrivals withdrawn and
is on no monitor any more (R193, R284, R294). In H mode the lane is killed, after the record of a machine check. -/
def Obligations.TrapEntry : Prop :=
  ∀ (s : State) k G l c v pc host mig, s.gangs.find? k = some G → (G.lane l).life = .running →
    let L := G.lane l
    let x := s.ctxOf (coreOf k)
    let code : Word := (c.setWidth 32) ||| (if mig = true then 0x100 else 0) ||| (if host = true then 0x200 else 0)
    let from_ : BitVec 2 := if L.mode = .supervisor then 1 else 0
    let at_ := fun (vec : DWord) => BitVec.ofNat 64 (vec.toNat / 64 * 64)
    let toH := c = 0x09 ∨ c = 0x10 ∨ host = true ∨ (c ≠ 0x08 ∧ x.hdeleg.getLsbD c.toNat = false) ∨
      (L.mode = .supervisor ∧ L.depth = 2)
    (L.mode ≠ .hypervisor → ∃ H, let t := s.callAway k l; s.trap k l c v pc host mig = t.setGang k H ∧
      ((∀ w ∈ G.waits, w.lanes.getLsbD l = false) → t = s) ∧
      { t with blocks := s.blocks, ensembles := s.ensembles, launches := s.launches, monitors := s.monitors } = s ∧
      (∀ j, j ≠ l → H.lane j = G.lane j) ∧
      (∀ w ∈ H.waits, w.lanes.getLsbD l = false) ∧
      { H with
        lanes := G.lanes, waits := G.waits, walkFaults := G.walkFaults, refetched := G.refetched, answers := G.answers } = G ∧
      (toH → H.lane l = { L with
        hpc := pc, hcause := code, htval := v, hpm := from_, sdep := L.depth,
        esc := decide (L.mode = .supervisor ∧ L.depth = 2 ∧ c ≠ 0x09), hd := true,
        mode := .hypervisor, pc := at_ s.htvec, checkTarget := false, checkEntry := false }) ∧
      (¬toH → H.lane l = { L with
        ospc := if L.depth = 1 then L.spc else L.ospc, oscause := if L.depth = 1 then L.scause else L.oscause,
        ostval := if L.depth = 1 then L.stval else L.ostval, osstat := if L.depth = 1 then G.sstat l else L.osstat,
        spc := pc, scause := code, stval := v, spm := from_, depth := L.depth + 1,
        mode := .supervisor, pc := at_ x.stvec, checkTarget := false, checkEntry := false })) ∧
    (L.mode = .hypervisor →
      let rec_ := mkRecord 11 c.toNat (if host = true then 1 else 0) 0 (s.tagOf k) (whoOf k l) pc v []
      s.trap k l c v pc host mig = ((s.post (coreNode (coreOf k)) 0 rec_).1).killLane k l ∧
      ((s.trap k l c v pc host mig).lane k l).life = .exited)

/-- Table 7.9 and R131: the checks of an instruction of a group, each on every lane, in their order: its form (0x01), the
mode (0x03), the allocation (0x12, with the lowest register in STVAL), the guard's poison (0x07); and a group whose guard
holds nowhere only goes on. -/
def Obligations.ChecksOfTable79 : Prop :=
  ∀ i s k G m pc mode, i.fields.isSome → (opEngines i.op.toNat).contains .thread = true →
    s.cur = some ⟨.thread, coreOf k, k, m, pc⟩ → s.gangs.find? k = some G → m ≠ 0 →
    (∀ l ∈ lanesOf m, (G.lane l).mode = mode) →
    let traps := fun (c : BitVec 8) (v : DWord) => exec i s = .next (s.trapAll k m c v pc)
    (i.wf .thread = false → traps 0x01 0) ∧
    (i.wf .thread = true →
      (mode.rank < i.leastMode.rank → traps 0x03 0) ∧
      (i.leastMode.rank ≤ mode.rank →
        (∀ n, beyondAlloc G.alloc (i.regs .thread) = some n →
          traps 0x12 (BitVec.ofNat 64 n) ∧ (∃ r ∈ i.regs .thread, r.beyond G.alloc = some n) ∧
            ∀ r ∈ i.regs .thread, ∀ j, r.beyond G.alloc = some j → n ≤ j) ∧
        (beyondAlloc G.alloc (i.regs .thread) = none → ∀ bad, G.guardMasks i.guard m = (bad, 0) →
          exec i s = .next ((s.trapAll k bad 0x07 0 pc).advance k (m &&& ~~~bad)))))

/-- R127 to R133, Tables 7.4 to 7.7 and the forms of the chapters: a word decodes to an instruction on an engine's line
exactly when the instruction is well formed for that engine and the word is its encoding, so that decoding the encoding
of an instruction gives it back and no bit of an encoding is dropped. -/
def Obligations.DecodingInvertsEncoding : Prop :=
  ∀ e w i, decode e w = .ok i ↔ i.wf e = true ∧ encode i = some w

/-- Every step keeps the canonical form of every byte memory of the device (the model's own form of memory, log entry 2). -/
def Obligations.StepKeepsMemoryCanonical : Prop :=
  ∀ s t, s.memoryWf = true → step s = .next t → t.memoryWf = true

/-- R120 to R123, R132, R140: a step that an event takes is that event's effect; a step that a group or a sequencer takes
executes the instruction that its line holds in the slot of its pc, and a word that decodes to nothing traps with cause
0x01; the line is the 64 bytes of memory at the pc, where it is not cached. What an issue adds around the instruction, the counts of
R141, the instructions in flight and the line fetched ahead (R134, R143), changes no register; a group whose operands are pending
waits (R143). Which of the things that may happen does is the
model's free choice (log entry 1). -/
def Obligations.StepRunsTheDecodedInstruction : Prop :=
  ∀ s : State,
    let u := s.tick
    let picks := fun (a : Action) => u.actions[Config.schedule u.ctr % u.actions.length]? = some a
    (u.actions = [] → step s = .next u) ∧
    (∀ i, picks (.own i) → step s = exec i u) ∧
    (∀ i is, picks .input → u.inputs = i :: is → step s = exec i { u with inputs := is }) ∧
    (∀ c k G g second line t G', picks (.thread c) → u.chooseIssue c = some (k, G, g, second) →
      let v := { u with cur := some ⟨.thread, coreOf k, k, g.lanes, g.pc⟩ }
      v.fetchLine (v.asker k G g.lanes g.mode) .thread G.line g.pc = (t, .ok line) → g.lanes ≠ 0 →
      slotOf g.pc < 5 → (∀ l ∈ lanesOf g.lanes, ((G.lane l).checkEntry = true → slotOf g.pc = 0) ∧
        ((G.lane l).checkTarget = true → line.target g.pc = true) ∧ (G.lane l).pc = g.pc) →
      t.gangs.find? k = some G' →
      ∃ w H, w = { t.setGang k H with cur := v.cur } ∧ H.line = some line ∧
        { H with line := G'.line, lanes := G'.lanes } = G' ∧
        (∀ l, H.lane l =
          if l ∈ lanesOf g.lanes then { G'.lane l with checkTarget := false, checkEntry := false } else G'.lane l) ∧
        (∀ i, decode .thread (line.slot (slotOf g.pc)) = .ok i → G.holdsUp i g.lanes = false → ∃ x K,
          step s = exec i x ∧ x = w.issued u.gangs c k g (u.rank G) second i ∧ x.cur = w.cur ∧
          x.gangs.find? k = some K ∧ { K with lanes := H.lanes, waited := H.waited, flight := H.flight } = H ∧
          ∀ l, { K.lane l with waited := (H.lane l).waited } = H.lane l) ∧
        (∀ i, decode .thread (line.slot (slotOf g.pc)) = .ok i → G.holdsUp i g.lanes = true → ∃ x K, step s = .next x ∧
          x.gangs.find? k = some K ∧ K.lanes = H.lanes ∧ g.lanes &&& ~~~K.waiting = 0 ∧ x.hbm = w.hbm) ∧
        ∀ e, decode .thread (line.slot (slotOf g.pc)) = .error e → step s = .next (w.trapAll k g.lanes 0x01 0 g.pc)) ∧
    (∀ b m B line t B', picks (.seq b m) → u.blocks.find? b = some B → (B.seq m).copyFault = none →
      let pc := (B.seq m).pc
      let v := { u with cur := some ⟨seqEngine m, B.core, b, 0, pc⟩ }
      v.fetchLine (v.seqAsker b B m) (seqEngine m) (B.seq m).line pc = (t, .ok line) →
      slotOf pc < 5 → ((B.seq m).checkTarget = true → slotOf pc = 0 ∧ line.target pc = true) →
      t.blocks.find? b = some B' →
      let y := t.setBlock b (B'.putSeq m { B'.seq m with line := some line, walkFaults := [], checkTarget := false })
      let w := y.fetchAhead (y.seqAsker b B m) pc
      (∀ i, decode (seqEngine m) (line.slot (slotOf pc)) = .ok i → step s = exec i w) ∧
      ∀ e, decode (seqEngine m) (line.slot (slotOf pc)) = .error e → step s = .next (w.seqTrap b m 0x01 0)) ∧
    ∀ a e pc T v x bs, pc.toNat < 2 ^ 48 → s.lookup a .exec pc.toNat = (v, .ok T) →
      let at_ := T.addr pc.toNat / 64
      let tag := 2 * at_ + if a.ag.secure = true then 1 else 0
      (∀ l ∈ (v.core a.core).icache, l.tag ≠ tag) → T.ms = false → v.homeRead (64 * at_) 64 = (x, bs) →
      let line : Line := ⟨tag, BitVec.ofNat 512 (ofBytes (bs.map (·.1))), false⟩
      (∀ y ∈ bs, y.2 = false) → line.parityOk (slotOf pc) = true → line.lword.extractLsb' 16 15 = 0 →
      line.lword.extractLsb' 14 2 = lineKind e →
      ∃ t, s.fetchLine a e none pc = (t, .ok line)

/-- R4, R16, R328, Tables 1.5, 3.4, 5.2, 8.1, 15.5, 16.3 to 16.5: the values that power-up reset leaves, and the defaults
of a lane, a gang, a sequencer and a context; and the memory of the reset state is in canonical form. -/
def Obligations.ResetValues : Prop :=
  let s := State.reset
  let L : Lane := {}
  s.boot.locked = false ∧ s.boot.attempts = 0 ∧ s.boot.error = 0 ∧ s.boot.stage = 0 ∧
  s.counter 0 = 0 ∧ s.htvec = 0 ∧ s.hfq = 0 ∧
  (∀ c, (s.cluster c).hmin = 0 ∧ (s.cluster c).bel = 0) ∧
  (∀ c, (s.core c).secure = false ∧ (s.core c).pwrset.step = 0 ∧ (s.core c).pwrset.weight = 0x10 ∧
    (s.core c).pwrset.floor = 0) ∧
  (∀ c, (s.ctxOf c).hdeleg = 0x100 ∧ (s.ctxOf c).contpc = 0 ∧ (s.ctxOf c).stvec = 0 ∧ (s.ctxOf c).sfq = 0 ∧
    (s.ctxOf c).asid = 0 ∧ (s.ctxOf c).vmid = 0) ∧
  L.mode = .user ∧ L.fflags = 0 ∧ L.hstat = 0 ∧ L.spc = 0 ∧ L.scause = 0 ∧ L.stval = 0 ∧ L.hpc = 0 ∧ L.hcause = 0 ∧
  L.htval = 0 ∧ L.depth = 0 ∧ L.spm = 0 ∧ L.incont = false ∧ ({} : Seq).mflags = 0 ∧ ({} : Seq).run = .idle ∧
  s.gangs = [] ∧ s.blocks = [] ∧ s.inputs = [] ∧ s.memoryWf = true

/-- Tables 10.9 and 16.13 and the examples of the chapters: words written out in the spec decode to the instructions they
stand for. -/
def Obligations.WorkedWordsDecode : Prop :=
  let p : Guard := ⟨false, 7⟩
  let x := fun (n : BitVec 8) => (⟨false, n⟩ : Reg)
  decode .thread 0x210270A0A000001000000064 = .ok (.add p .i32 false (x 10) (x 10) (.imm 100)) ∧
  decode .thread 0x2C4270106000001000000000 = .ok (.cmp p .gt .i32 1 (x 6) (.imm 0)) ∧
  decode .thread 0x0100100000000000FFFFFFA8 = .ok (.bra ⟨false, 1⟩ 0xFFFFFFA8) ∧
  decode .thread 0x530B70A08070600000000000 = .ok (.ffma p .rne .bf16x2 (x 10) (x 8) (.reg (x 7)) (x 6)) ∧
  decode .thread 0x630870C04000002000000000 = .ok (.cvtn p .f32 1 (x 12) 4 (x 0)) ∧
  decode .thread 0x802671404000000200000000 = .ok (.ld p .v4 .n32 .gang .normal 20 ⟨true, 4⟩ 0) ∧
  decode .thread 0xA3767050A060016000000000 = .ok (.atomCas p .n32 .acq false false .pkg (x 5) (x 10) (x 6) (x 0) 0) ∧
  decode .thread 0xA5167070A000006000000000 = .ok (.waita p .eq .n32 .pkg 7 (x 10) (x 0) (x 0) 0) ∧
  decode .thread 0x9000100100C0E00000000000 = .ok (.cpy ⟨false, 1⟩ (x 16) (x 12) (x 14) 0) ∧
  decode .matrix 0xC6007000B0C0000000000000 = .ok (.maccl p 0 11 12 0) ∧
  decode .matrix 0xC7007000D090E02000000000 = .ok (.mdrainF32 p 1 0 13 9 14 0) ∧
  decode .thread 0xE40070A02000000000000000 = .ok (.mfs p 10 2) ∧
  decode .thread 0x070070000000000000000000 = .ok (.exit p) ∧
  decode .thread 0xA10070000000006000000009 = .ok (.fencex p .pkg 9) ∧
  decode .thread 0xB10070000050002000000001 = .ok (.csend p .blk 0 (x 5) 1) ∧
  decode .thread 0xB20071400000002000000000 = .ok (.crecv p .blk 20 0) ∧
  decode .thread 0x910070000000000000000000 = .ok (.cpseal p) ∧
  decode .thread 0x920070000000000000000000 = .ok (.cpwait p 0) ∧
  decode .matrix 0x910070000000000000000000 = .error .notThisEngine
end

