-- ==== Sys2Proof/Laws/Table.lean ====
section
/-! SUPPORT. Laws of sparse tables: reading after a write, and the canonical form. -/

namespace Sys2Proof.SMap

variable {α : Type}

@[simp] theorem find?_nil (n : Nat) : find? ([] : SMap α) n = none := rfl

/-- What was put under a number is found there. -/
@[simp] theorem find?_put_self (m : SMap α) (n : Nat) (v : α) : find? (put m n v) n = some v := by
  induction m with
  | nil => simp [put, find?]
  | cons e m ih =>
    obtain ⟨k, w⟩ := e
    simp only [put]
    split
    · simp [find?]
    · split
      · simp [find?]
      · have : k ≠ n := fun h => by simp_all
        simp [find?, this, ih]

/-- A put leaves every other number alone. -/
theorem find?_put_of_ne (m : SMap α) {n n' : Nat} (v : α) (h : n' ≠ n) : find? (put m n v) n' = find? m n' := by
  induction m with
  | nil => simp [put, find?, h.symm]
  | cons e m ih =>
    obtain ⟨k, w⟩ := e
    simp only [put]
    split
    · simp [find?, h.symm]
    · split
      · subst_vars
        simp [find?, h.symm]
      · simp [find?, ih]

/-- Two puts under one number are the second. -/
@[simp] theorem put_put (m : SMap α) (n : Nat) (v w : α) : put (put m n v) n w = put m n w := by
  induction m with
  | nil => simp [put]
  | cons e m ih =>
    obtain ⟨k, u⟩ := e
    simp only [put]
    split
    · simp [put]
    · split
      · simp [put]
      · simp_all [put]

theorem find?_del_of_ne (m : SMap α) {n n' : Nat} (h : n' ≠ n) : find? (del m n) n' = find? m n' := by
  induction m with
  | nil => simp [del]
  | cons e m ih =>
    obtain ⟨k, w⟩ := e
    simp only [del]
    split
    · subst_vars
      simp [find?, ih, h.symm]
    · simp [find?, ih]

/-- Nothing at or below the bound stands in a table above it. -/
theorem find?_above {m : SMap α} {b n : Nat} (h : above b m = true) (hn : n ≤ b) : find? m n = none := by
  induction m generalizing b with
  | nil => rfl
  | cons e m ih =>
    obtain ⟨k, w⟩ := e
    simp only [above, Bool.and_eq_true, decide_eq_true_eq] at h
    have : k ≠ n := by omega
    simp [find?, this, ih h.2 (by omega : n ≤ k)]

theorem above_mono {m : SMap α} {b c : Nat} (h : above b m = true) (hc : c ≤ b) : above c m = true := by
  cases m with
  | nil => rfl
  | cons e m =>
    simp only [above, Bool.and_eq_true, decide_eq_true_eq] at h ⊢
    exact ⟨by omega, h.2⟩

theorem above_put {m : SMap α} {b n : Nat} (v : α) (h : above b m = true) (hn : b < n) : above b (put m n v) = true := by
  induction m generalizing b with
  | nil => simp [put, above, hn]
  | cons e m ih =>
    obtain ⟨k, w⟩ := e
    simp only [above, Bool.and_eq_true, decide_eq_true_eq] at h
    simp only [put]
    split
    · simp_all [above]
    · split
      · simp_all [above]
      · simp only [above, Bool.and_eq_true, decide_eq_true_eq]
        exact ⟨h.1, ih h.2 (by omega)⟩

theorem above_del {m : SMap α} {b : Nat} (n : Nat) (h : above b m = true) : above b (del m n) = true := by
  induction m generalizing b with
  | nil => rfl
  | cons e m ih =>
    obtain ⟨k, w⟩ := e
    simp only [above, Bool.and_eq_true, decide_eq_true_eq] at h
    simp only [del]
    split
    · exact above_mono (ih h.2) (by omega)
    · simp only [above, Bool.and_eq_true, decide_eq_true_eq]
      exact ⟨h.1, ih h.2⟩

theorem sorted_put {m : SMap α} (n : Nat) (v : α) (h : sorted m = true) : sorted (put m n v) = true := by
  cases m with
  | nil => rfl
  | cons e m =>
    obtain ⟨k, w⟩ := e
    simp only [sorted] at h
    simp only [put]
    split
    · simp_all [sorted, above]
    · split
      · simp_all [sorted]
      · exact above_put v h (by omega)

theorem sorted_of_above {m : SMap α} {b : Nat} (h : above b m = true) : sorted m = true := by
  cases m with
  | nil => rfl
  | cons e m =>
    simp only [above, Bool.and_eq_true] at h
    exact h.2

theorem sorted_del {m : SMap α} (n : Nat) (h : sorted m = true) : sorted (del m n) = true := by
  cases m with
  | nil => rfl
  | cons e m =>
    obtain ⟨k, w⟩ := e
    simp only [sorted] at h
    simp only [del]
    split
    · exact sorted_of_above (above_del n h)
    · exact above_del n h

/-- Nothing is found under a number that was deleted. -/
@[simp] theorem find?_del_self (m : SMap α) (n : Nat) : find? (del m n) n = none := by
  induction m with
  | nil => rfl
  | cons e m ih =>
    obtain ⟨k, w⟩ := e
    simp only [del]
    split
    · exact ih
    · simp [find?, *]

theorem mem_put {m : SMap α} {n : Nat} {v : α} {e : Nat × α} (h : e ∈ put m n v) : e = (n, v) ∨ e ∈ m := by
  induction m with
  | nil => simpa [put] using h
  | cons x m ih =>
    obtain ⟨k, w⟩ := x
    simp only [put] at h
    split at h
    · simpa using h
    · split at h
      · rcases List.mem_cons.mp h with h | h <;> simp [h]
      · rcases List.mem_cons.mp h with h | h
        · simp [h]
        · rcases ih h with h | h <;> simp [h]

theorem mem_del {m : SMap α} {n : Nat} {e : Nat × α} (h : e ∈ del m n) : e ∈ m := by
  induction m with
  | nil => simp [del] at h
  | cons x m ih =>
    obtain ⟨k, w⟩ := x
    simp only [del] at h
    split at h
    · simp [ih h]
    · rcases List.mem_cons.mp h with h | h
      · simp [h]
      · simp [ih h]

variable [DecidableEq α]

/-- A write keeps the canonical form. -/
theorem wf_write {d : α} {m : SMap α} (n : Nat) (v : α) (h : wf d m = true) : wf d (write d m n v) = true := by
  simp only [wf, Bool.and_eq_true, List.all_eq_true, decide_eq_true_eq] at h ⊢
  simp only [write]
  split
  · exact ⟨sorted_del n h.1, fun e he => h.2 e (mem_del he)⟩
  · refine ⟨sorted_put n v h.1, fun e he => ?_⟩
    rcases mem_put he with he | he
    · simpa [he] using ‹¬v = d›
    · exact h.2 e he

/-- Writing a list of values keeps the canonical form. -/
theorem wf_foldl_write {β : Type} {d : α} (f : β → Nat) (g : β → α) (es : List β) {m : SMap α} (h : wf d m = true) :
    wf d (es.foldl (fun m e => write d m (f e) (g e)) m) = true := by
  induction es generalizing m with
  | nil => exact h
  | cons e es ih => exact ih (wf_write (f e) (g e) h)

theorem get_write_of_ne {d : α} (m : SMap α) {n n' : Nat} (v : α) (h : n' ≠ n) :
    get d (write d m n v) n' = get d m n' := by
  simp only [get, write]
  split
  · rw [find?_del_of_ne m h]
  · rw [find?_put_of_ne m v h]

/-- A table reads what was last written. -/
@[simp] theorem get_write_self (d : α) (m : SMap α) (n : Nat) (v : α) : get d (write d m n v) n = v := by
  simp only [get, write]
  split <;> simp [*]

end Sys2Proof.SMap
end

