-- ==== Sys2Proof/Laws/Lanes.lean ====
section
/-! SUPPORT. Laws of lane masks, of the lanes of a gang, and of writing one lane's registers. -/

namespace Sys2Proof.Machine

-- Masks

theorem mem_lanesOf {m : Mask} {l : Nat} : l ∈ lanesOf m ↔ m.getLsbD l = true := by
  simp only [lanesOf, List.mem_filter, List.mem_range]
  exact ⟨fun h => h.2, fun h => ⟨BitVec.lt_of_getLsbD h, h⟩⟩

theorem lanesOf_lt {m : Mask} {l : Nat} (h : l ∈ lanesOf m) : l < 32 := by
  simp only [lanesOf, List.mem_filter, List.mem_range] at h
  exact h.1

theorem lanesOf_nodup (m : Mask) : (lanesOf m).Nodup := List.Nodup.filter _ List.nodup_range

@[simp] theorem lanesOf_zero : lanesOf 0#32 = [] := by decide

theorem getLsbD_laneBit {l j : Nat} (hl : l < 32) : (laneBit l).getLsbD j = decide (l = j) := by
  simp only [laneBit, BitVec.getLsbD_ofNat, Nat.testBit_two_pow]
  by_cases h : l = j
  · subst h; simp [hl]
  · simp [h]

theorem getLsbD_foldl_laneBit (ls : List Nat) (h : ∀ l ∈ ls, l < 32) (m : Mask) (j : Nat) :
    (ls.foldl (fun m l => m ||| laneBit l) m).getLsbD j = (m.getLsbD j || decide (j ∈ ls)) := by
  induction ls generalizing m with
  | nil => simp
  | cons l ls ih =>
    have hl : l < 32 := h l (by simp)
    rw [List.foldl_cons, ih (fun x hx => h x (by simp [hx]))]
    simp only [BitVec.getLsbD_or, getLsbD_laneBit hl, List.mem_cons, Bool.decide_or, eq_comm (a := l)]
    cases m.getLsbD j <;> simp

/-- A lane belongs to the mask of a list of lanes when it stands in the list. -/
theorem getLsbD_maskOf (ls : List Nat) (h : ∀ l ∈ ls, l < 32) (j : Nat) : (maskOf ls).getLsbD j = decide (j ∈ ls) := by
  simp [maskOf, getLsbD_foldl_laneBit ls h]

/-- The mask of the lanes of a mask that pass a test. -/
theorem getLsbD_maskOf_filter (m : Mask) (p : Nat → Bool) (j : Nat) :
    (maskOf ((lanesOf m).filter p)).getLsbD j = (m.getLsbD j && p j) := by
  rw [getLsbD_maskOf _ fun l hl => lanesOf_lt (List.mem_of_mem_filter hl)]
  simp [List.mem_filter, mem_lanesOf]

/-- The mask of a mask's lanes is the mask. -/
@[simp] theorem maskOf_lanesOf (m : Mask) : maskOf (lanesOf m) = m := by
  refine BitVec.eq_of_getLsbD_eq fun j _ => ?_
  rw [getLsbD_maskOf _ fun l hl => lanesOf_lt hl]
  simp [mem_lanesOf]

@[simp] theorem maskOf_nil : maskOf [] = 0#32 := rfl

theorem topLane_mem {m : Mask} (h : m ≠ 0) : topLane m ∈ lanesOf m := by
  have hne : lanesOf m ≠ [] := fun he => h (by rw [← maskOf_lanesOf m, he]; rfl)
  simp only [topLane, List.getLastD_eq_getLast?, List.getLast?_eq_some_getLast hne, Option.getD_some]
  exact List.getLast_mem hne

-- Lanes of a gang

theorem lane_eq_exited {G : Gang} {l : Nat} (h : G.lanes.length ≤ l) : G.lane l = { life := .exited } := by
  simp [Gang.lane, List.getD_eq_getElem?_getD, List.getElem?_eq_none h]

/-- A lane that runs is one of the gang's lanes. -/
theorem lt_of_running {G : Gang} {l : Nat} (h : (G.lane l).life = .running) : l < G.lanes.length := by
  by_contra hc
  rw [lane_eq_exited (by omega)] at h
  simp at h

@[simp] theorem lanes_putLane (G : Gang) (l : Nat) (L : Lane) : (G.putLane l L).lanes = G.lanes.set l L := rfl

theorem length_putLane (G : Gang) (l : Nat) (L : Lane) : (G.putLane l L).lanes.length = G.lanes.length := by simp

theorem lane_putLane_self {G : Gang} {l : Nat} (L : Lane) (h : l < G.lanes.length) : (G.putLane l L).lane l = L := by
  simp [Gang.lane, Gang.putLane, List.getD_eq_getElem?_getD, h]

theorem lane_putLane_of_ne (G : Gang) {l j : Nat} (L : Lane) (h : j ≠ l) : (G.putLane l L).lane j = G.lane j := by
  simp [Gang.lane, Gang.putLane, List.getD_eq_getElem?_getD, List.getElem?_set_ne h.symm]

/-- What a lane is after another, or it itself, has been replaced. -/
theorem lane_putLane (G : Gang) (l j : Nat) (L : Lane) :
    (G.putLane l L).lane j = if j = l ∧ l < G.lanes.length then L else G.lane j := by
  by_cases h : j = l
  · subst h
    by_cases hl : j < G.lanes.length
    · simp [lane_putLane_self L hl, hl]
    · simp [Gang.lane, Gang.putLane, List.getD_eq_getElem?_getD, hl]
  · simp [lane_putLane_of_ne G L h, h]

/-- A change made to each lane of a list, each once, changes those lanes and no other. -/
theorem lane_foldl_putLane (f : Lane → Lane) (ls : List Nat) (hn : ls.Nodup) (G : Gang) (j : Nat) :
    (ls.foldl (fun G l => G.putLane l (f (G.lane l))) G).lane j =
      if j ∈ ls ∧ j < G.lanes.length then f (G.lane j) else G.lane j := by
  induction ls generalizing G with
  | nil => simp
  | cons l ls ih =>
    obtain ⟨hl, hls⟩ := List.nodup_cons.mp hn
    rw [List.foldl_cons, ih hls, length_putLane, lane_putLane]
    by_cases h : j = l
    · subst h
      by_cases hlen : j < G.lanes.length <;> simp [hl, hlen]
    · simp [h]

/-- A change made to lanes one by one leaves the gang's other fields alone. -/
theorem foldl_putLane_eq (f : Lane → Lane) (ls : List Nat) (G : Gang) :
    ls.foldl (fun G l => G.putLane l (f (G.lane l))) G =
      { G with lanes := (ls.foldl (fun G l => G.putLane l (f (G.lane l))) G).lanes } := by
  induction ls generalizing G with
  | nil => rfl
  | cons l ls ih =>
    rw [List.foldl_cons, ih]
    rfl

theorem length_foldl_putLane (f : Lane → Lane) (ls : List Nat) (G : Gang) :
    (ls.foldl (fun G l => G.putLane l (f (G.lane l))) G).lanes.length = G.lanes.length := by
  induction ls generalizing G with
  | nil => rfl
  | cons l ls ih => rw [List.foldl_cons, ih]; simp

-- Moving lanes on

@[simp] theorem lane_settled (G : Gang) (m : Mask) (j : Nat) : (G.settled m).lane j = G.lane j := rfl

/-- A lane moved on to the successor of its instruction. -/
def onward (L : Lane) : Lane := { L with pc := succ L.pc }

@[simp] theorem onward_x (L : Lane) : (onward L).x = L.x := rfl
@[simp] theorem onward_xp (L : Lane) : (onward L).xp = L.xp := rfl
@[simp] theorem onward_p (L : Lane) : (onward L).p = L.p := rfl
@[simp] theorem onward_pp (L : Lane) : (onward L).pp = L.pp := rfl
@[simp] theorem onward_pc (L : Lane) : (onward L).pc = succ L.pc := rfl
@[simp] theorem onward_mode (L : Lane) : (onward L).mode = L.mode := rfl
@[simp] theorem onward_life (L : Lane) : (onward L).life = L.life := rfl
@[simp] theorem onward_fflags (L : Lane) : (onward L).fflags = L.fflags := rfl

/-- Lanes moved on stand at the successors of their instructions; nothing else of any lane changes. -/
theorem lane_advance (G : Gang) (m : Mask) (j : Nat) :
    (G.advance m).lane j =
      if j ∈ lanesOf m ∧ j < G.lanes.length then onward (G.lane j) else G.lane j := by
  exact lane_foldl_putLane onward _ (lanesOf_nodup m) (G.settled m) j

/-- Moving lanes on changes the lanes, and drops what walks and other devices had told them. -/
theorem advance_eq (G : Gang) (m : Mask) :
    G.advance m = { G with
      lanes := (G.advance m).lanes, walkFaults := (G.settled m).walkFaults, refetched := (G.settled m).refetched,
      answers := (G.settled m).answers } := by
  exact foldl_putLane_eq onward (lanesOf m) (G.settled m)

theorem length_advance (G : Gang) (m : Mask) : (G.advance m).lanes.length = G.lanes.length := by
  exact length_foldl_putLane onward (lanesOf m) (G.settled m)

-- Writing registers of one lane

@[simp] theorem view_reg_x (G : Gang) (l : Nat) (n : BitVec 8) :
    (G.view l).reg ⟨false, n⟩ =
      if n = 0 then (0, false) else ((G.lane l).x.get 0 n.toNat, (G.lane l).xp.get false n.toNat) := by
  simp [View.reg, Gang.view]

@[simp] theorem view_reg_k (G : Gang) (l : Nat) (n : BitVec 8) :
    (G.view l).reg ⟨true, n⟩ = (G.k.get 0 n.toNat, G.kp.get false n.toNat) := by
  simp [View.reg, Gang.view]

@[simp] theorem view_pred (G : Gang) (l : Nat) (p : BitVec 3) :
    (G.view l).pred p = if p = 7 then (true, false) else ((G.lane l).p.getLsbD p.toNat, (G.lane l).pp.getLsbD p.toNat) := by
  simp [View.pred, Gang.view]

/-- A predicate byte reads what was put into it, and elsewhere what stood there. -/
theorem getLsbD_setBit8 (v : BitVec 8) (p q : BitVec 3) (b : Bool) (hp : p ≠ 7) :
    (setBit8 v p b).getLsbD q.toNat = if q = p then b else v.getLsbD q.toNat := by
  revert v p q b
  decide +revert

end Sys2Proof.Machine
end

