-- ==== Sys2Proof/Laws/Results.lean ====
section
/-! SUPPORT. What writing results does to a gang, and the law of the instructions that only compute: executed by a group
or a sequencer, each writes its results and changes nothing else. -/

namespace Sys2Proof.Machine

-- One register

theorem toNat_eq_zero_iff {n : BitVec 8} : n.toNat = 0 ↔ n = 0 := by
  constructor
  · intro h; exact BitVec.eq_of_toNat_eq (by simpa using h)
  · rintro rfl; rfl

/-- A register reads what was written to it, and every other register what it held. -/
theorem view_reg_putReg (G : Gang) (l j : Nat) (r r' : Reg) (w : Word) (p : Bool) :
    ((G.putReg l r w p).view j).reg r' =
      if r' = r ∧ (r.k = true ∨ (j = l ∧ l < G.lanes.length ∧ r.n ≠ 0)) then (w, p) else (G.view j).reg r' := by
  obtain ⟨rk, rn⟩ := r
  obtain ⟨rk', rn'⟩ := r'
  cases rk <;> cases rk' <;> simp only [Gang.putReg, view_reg_x, view_reg_k, Reg.mk.injEq]
  · by_cases h0 : rn = 0
    · subst h0
      simp [Lane.putX, lane_putLane]
      by_cases hj : j = l <;> simp [hj]
    · have hn : rn.toNat ≠ 0 := fun h => h0 (toNat_eq_zero_iff.mp h)
      by_cases hj : j = l ∧ l < G.lanes.length
      · obtain ⟨rfl, hlen⟩ := hj
        by_cases hr : rn' = rn
        · subst hr
          have h0' : ¬rn' = 0#8 := h0
          simp [lane_putLane, hlen, Lane.putX, hn, h0']
        · have hne : rn'.toNat ≠ rn.toNat := fun h => hr (BitVec.eq_of_toNat_eq h)
          simp [lane_putLane, hlen, Lane.putX, hn, hr, SMap.get_write_of_ne _ _ hne]
      · have : (G.putLane l ((G.lane l).putX rn.toNat w p)).lane j = G.lane j := by
          rw [lane_putLane, if_neg hj]
        simp [this]
        intro _ h1 h2
        exact absurd ⟨h1, h2⟩ hj
  · simp [Gang.putLane]
  · simp [Gang.putK, Gang.lane]
  · by_cases hr : rn' = rn
    · subst hr
      simp [Gang.putK]
    · have hne : rn'.toNat ≠ rn.toNat := fun h => hr (BitVec.eq_of_toNat_eq h)
      simp [Gang.putK, hr, SMap.get_write_of_ne _ _ hne]

/-- Writing a register leaves every predicate, and everything of a lane but its x registers, alone. -/
theorem lane_putReg (G : Gang) (l j : Nat) (r : Reg) (w : Word) (p : Bool) :
    (G.putReg l r w p).lane j =
      { G.lane j with x := ((G.putReg l r w p).lane j).x, xp := ((G.putReg l r w p).lane j).xp } := by
  simp only [Gang.putReg]
  split
  · rfl
  · rw [lane_putLane]
    split
    · next h => obtain ⟨rfl, _⟩ := h; simp only [Lane.putX]; split <;> rfl
    · rfl

theorem putReg_eq (G : Gang) (l : Nat) (r : Reg) (w : Word) (p : Bool) :
    G.putReg l r w p = { G with
      lanes := (G.putReg l r w p).lanes, k := (G.putReg l r w p).k, kp := (G.putReg l r w p).kp } := by
  simp only [Gang.putReg]
  split <;> rfl

theorem length_putReg (G : Gang) (l : Nat) (r : Reg) (w : Word) (p : Bool) :
    (G.putReg l r w p).lanes.length = G.lanes.length := by
  simp only [Gang.putReg]
  split <;> simp [Gang.putK]

-- The registers of one lane's result

/-- The writes of a list, one after another. -/
def putRegs (G : Gang) (l : Nat) (ws : List (Reg × Word × Bool)) : Gang :=
  ws.foldl (fun G w => G.putReg l w.1 w.2.1 w.2.2) G

theorem length_putRegs (G : Gang) (l : Nat) (ws : List (Reg × Word × Bool)) :
    (putRegs G l ws).lanes.length = G.lanes.length := by
  induction ws generalizing G with
  | nil => rfl
  | cons w ws ih => rw [putRegs, List.foldl_cons, ← putRegs, ih, length_putReg]

theorem view_putRegs_keep (G : Gang) (l j : Nat) (r : Reg) (ws : List (Reg × Word × Bool))
    (h : ∀ w ∈ ws, w.1 = r → r.k = false ∧ ¬(j = l ∧ l < G.lanes.length ∧ r.n ≠ 0)) :
    ((putRegs G l ws).view j).reg r = (G.view j).reg r := by
  induction ws generalizing G with
  | nil => rfl
  | cons w ws ih =>
    rw [putRegs, List.foldl_cons, ← putRegs, ih _ fun x hx he => by
      rw [length_putReg]; exact h x (by simp [hx]) he]
    rw [view_reg_putReg, if_neg]
    rintro ⟨he, hk⟩
    have := h w (by simp) he.symm
    rw [← he] at hk
    rcases hk with hk | hk
    · simp [this.1] at hk
    · exact this.2 hk

theorem view_putRegs (G : Gang) (l j : Nat) (ws : List (Reg × Word × Bool)) (hn : (ws.map (·.1)).Nodup)
    (w : Reg × Word × Bool) (hw : w ∈ ws) (h : w.1.k = true ∨ (j = l ∧ l < G.lanes.length ∧ w.1.n ≠ 0)) :
    ((putRegs G l ws).view j).reg w.1 = w.2 := by
  induction ws generalizing G with
  | nil => simp at hw
  | cons x ws ih =>
    rw [List.map_cons, List.nodup_cons] at hn
    rw [putRegs, List.foldl_cons, ← putRegs]
    rcases List.mem_cons.mp hw with rfl | hw
    · rw [view_putRegs_keep, view_reg_putReg, if_pos ⟨rfl, h⟩]
      intro y hy he
      exact absurd (List.mem_map.mpr ⟨y, hy, he⟩) hn.1
    · exact ih _ hn.2 hw (by rwa [length_putReg])

theorem lane_putRegs (G : Gang) (l j : Nat) (ws : List (Reg × Word × Bool)) :
    (putRegs G l ws).lane j =
      { G.lane j with x := ((putRegs G l ws).lane j).x, xp := ((putRegs G l ws).lane j).xp } := by
  induction ws generalizing G with
  | nil => rfl
  | cons w ws ih =>
    rw [putRegs, List.foldl_cons, ← putRegs, ih, lane_putReg]

theorem putRegs_eq (G : Gang) (l : Nat) (ws : List (Reg × Word × Bool)) :
    putRegs G l ws = { G with
      lanes := (putRegs G l ws).lanes, k := (putRegs G l ws).k, kp := (putRegs G l ws).kp } := by
  induction ws generalizing G with
  | nil => rfl
  | cons w ws ih =>
    rw [putRegs, List.foldl_cons, ← putRegs, ih, putReg_eq]

-- The predicates of one lane's result

/-- The predicate writes of a list, one after another. -/
def putPs (L : Lane) (ws : List (BitVec 3 × Bool × Bool)) : Lane := ws.foldl (fun L w => L.putP w.1 w.2.1 w.2.2) L

theorem putPs_eq (L : Lane) (ws : List (BitVec 3 × Bool × Bool)) :
    putPs L ws = { L with p := (putPs L ws).p, pp := (putPs L ws).pp } := by
  induction ws generalizing L with
  | nil => rfl
  | cons w ws ih =>
    rw [putPs, List.foldl_cons, ← putPs, ih]
    rfl

theorem putP_p (L : Lane) (p : BitVec 3) (b x : Bool) : (L.putP p b x).p = setBit8 L.p p b := rfl
theorem putP_pp (L : Lane) (p : BitVec 3) (b x : Bool) : (L.putP p b x).pp = setBit8 L.pp p x := rfl

theorem setBit8_seven (v : BitVec 8) (b : Bool) : setBit8 v 7 b = v := by simp [setBit8]

theorem putPs_keep (L : Lane) (q : BitVec 3) (ws : List (BitVec 3 × Bool × Bool)) (h : ∀ w ∈ ws, w.1 ≠ q) :
    (putPs L ws).p.getLsbD q.toNat = L.p.getLsbD q.toNat ∧
      (putPs L ws).pp.getLsbD q.toNat = L.pp.getLsbD q.toNat := by
  induction ws generalizing L with
  | nil => exact ⟨rfl, rfl⟩
  | cons w ws ih =>
    rw [putPs, List.foldl_cons, ← putPs]
    obtain ⟨h1, h2⟩ := ih (L.putP w.1 w.2.1 w.2.2) fun x hx => h x (by simp [hx])
    have hw : w.1 ≠ q := h w (by simp)
    rw [h1, h2, putP_p, putP_pp]
    by_cases h7 : w.1 = 7
    · rw [h7, setBit8_seven, setBit8_seven]
      exact ⟨rfl, rfl⟩
    · simp [getLsbD_setBit8 _ _ _ _ h7, hw.symm]

theorem putPs_get (L : Lane) (ws : List (BitVec 3 × Bool × Bool)) (hn : (ws.map (·.1)).Nodup)
    (w : BitVec 3 × Bool × Bool) (hw : w ∈ ws) (h7 : w.1 ≠ 7) :
    (putPs L ws).p.getLsbD w.1.toNat = w.2.1 ∧ (putPs L ws).pp.getLsbD w.1.toNat = w.2.2 := by
  induction ws generalizing L with
  | nil => simp at hw
  | cons x ws ih =>
    rw [List.map_cons, List.nodup_cons] at hn
    rw [putPs, List.foldl_cons, ← putPs]
    rcases List.mem_cons.mp hw with rfl | hw
    · obtain ⟨h1, h2⟩ := putPs_keep (L.putP w.1 w.2.1 w.2.2) w.1 ws fun y hy he =>
        hn.1 (List.mem_map.mpr ⟨y, hy, he⟩)
      rw [h1, h2, putP_p, putP_pp]
      simp [getLsbD_setBit8 _ _ _ _ h7]
    · exact ih _ hn.2 hw

-- One lane's result

theorem putOut_eq (G : Gang) (l : Nat) (o : Out) (ht : o.trap = none) :
    G.putOut l o =
      (let G := G.putLane l { G.lane l with fflags := (G.lane l).fflags ||| o.flags }
       let G := putRegs G l o.regs
       G.putLane l (putPs (G.lane l) o.preds)) := by
  simp [Gang.putOut, ht, putRegs, putPs]

theorem length_putOut (G : Gang) (l : Nat) (o : Out) (ht : o.trap = none) :
    (G.putOut l o).lanes.length = G.lanes.length := by
  simp [putOut_eq G l o ht, length_putRegs]

/-- What another lane's result does to a lane: nothing. -/
theorem lane_putOut_of_ne (G : Gang) {l j : Nat} (o : Out) (ht : o.trap = none) (h : j ≠ l) :
    (G.putOut l o).lane j = G.lane j := by
  rw [putOut_eq G l o ht]
  simp only
  rw [lane_putLane_of_ne _ _ h]
  have : ∀ (ws : List (Reg × Word × Bool)) (H : Gang), (putRegs H l ws).lane j = H.lane j := by
    intro ws
    induction ws with
    | nil => intro H; rfl
    | cons w ws ih =>
      intro H
      rw [putRegs, List.foldl_cons, ← putRegs, ih]
      simp only [Gang.putReg]
      split
      · rfl
      · exact lane_putLane_of_ne _ _ h
  rw [this, lane_putLane_of_ne _ _ h]

/-- What its own result does to a lane. -/
theorem lane_putOut_self (G : Gang) {l : Nat} (o : Out) (ht : o.trap = none) (hl : l < G.lanes.length) :
    (G.putOut l o).lane l = { G.lane l with
      x := ((G.putOut l o).lane l).x, xp := ((G.putOut l o).lane l).xp,
      p := (putPs (G.lane l) o.preds).p, pp := (putPs (G.lane l) o.preds).pp,
      fflags := (G.lane l).fflags ||| o.flags } := by
  have hps : ∀ (ws : List (BitVec 3 × Bool × Bool)) (L L' : Lane), L.p = L'.p → L.pp = L'.pp →
      (putPs L ws).p = (putPs L' ws).p ∧ (putPs L ws).pp = (putPs L' ws).pp := by
    intro ws
    induction ws with
    | nil => intro L L' h1 h2; exact ⟨h1, h2⟩
    | cons w ws ih =>
      intro L L' h1 h2
      exact ih (L.putP w.1 w.2.1 w.2.2) (L'.putP w.1 w.2.1 w.2.2) (by simp [putP_p, h1]) (by simp [putP_pp, h2])
  rw [putOut_eq G l o ht]
  simp only
  rw [lane_putLane_self _ (by simpa [length_putRegs] using hl), putPs_eq, lane_putRegs,
    lane_putLane_self _ hl]
  have := hps o.preds
    { { G.lane l with fflags := (G.lane l).fflags ||| o.flags } with
      x := ((putRegs (G.putLane l { G.lane l with fflags := (G.lane l).fflags ||| o.flags }) l o.regs).lane l).x,
      xp := ((putRegs (G.putLane l { G.lane l with fflags := (G.lane l).fflags ||| o.flags }) l o.regs).lane l).xp }
    (G.lane l) rfl rfl
  simp only at this ⊢
  rw [this.1, this.2]

theorem putOut_frame (G : Gang) (l : Nat) (o : Out) (ht : o.trap = none) :
    G.putOut l o = { G with lanes := (G.putOut l o).lanes, k := (G.putOut l o).k, kp := (G.putOut l o).kp } := by
  rw [putOut_eq G l o ht]
  simp only
  rw [putRegs_eq]
  rfl

/-- The registers that a lane's result writes; those of other lanes and numbers stay. -/
theorem view_putOut (G : Gang) {l : Nat} (j : Nat) (o : Out) (ht : o.trap = none) (hl : l < G.lanes.length) (r : Reg) :
    ((G.putOut l o).view j).reg r =
      ((putRegs (G.putLane l { G.lane l with fflags := (G.lane l).fflags ||| o.flags }) l o.regs).view j).reg r := by
  rw [putOut_eq G l o ht]
  simp only
  obtain ⟨rk, rn⟩ := r
  cases rk
  · simp only [view_reg_x]
    by_cases hj : j = l
    · subst hj
      rw [lane_putLane_self _ (by simpa [length_putRegs] using hl), putPs_eq]
    · rw [lane_putLane_of_ne _ _ hj]
  · simp [view_reg_k, Gang.putLane]

theorem view_putLane_flags (G : Gang) (l j : Nat) (f : BitVec 7) (r : Reg) :
    ((G.putLane l { G.lane l with fflags := f }).view j).reg r = (G.view j).reg r := by
  obtain ⟨rk, rn⟩ := r
  cases rk
  · simp only [view_reg_x]
    by_cases hj : j = l ∧ l < G.lanes.length
    · obtain ⟨rfl, h⟩ := hj
      rw [lane_putLane_self _ h]
    · rw [lane_putLane, if_neg hj]
  · simp [view_reg_k, Gang.putLane]

theorem view_putOut_keep (G : Gang) {l : Nat} (j : Nat) (o : Out) (ht : o.trap = none) (hl : l < G.lanes.length)
    (r : Reg) (h : ∀ w ∈ o.regs, w.1 = r → r.k = false ∧ ¬(j = l ∧ r.n ≠ 0)) :
    ((G.putOut l o).view j).reg r = (G.view j).reg r := by
  rw [view_putOut G j o ht hl, view_putRegs_keep, view_putLane_flags]
  intro w hw he
  obtain ⟨h1, h2⟩ := h w hw he
  exact ⟨h1, fun h3 => h2 ⟨h3.1, h3.2.2⟩⟩

theorem view_putOut_get (G : Gang) {l : Nat} (j : Nat) (o : Out) (ht : o.trap = none) (hl : l < G.lanes.length)
    (hn : (o.regs.map (·.1)).Nodup) (w : Reg × Word × Bool) (hw : w ∈ o.regs)
    (h : w.1.k = true ∨ (j = l ∧ w.1.n ≠ 0)) : ((G.putOut l o).view j).reg w.1 = w.2 := by
  rw [view_putOut G j o ht hl, view_putRegs _ _ _ _ hn w hw]
  rcases h with h | h
  · exact .inl h
  · exact .inr ⟨h.1, by simpa using hl, h.2⟩

-- The results of a group

/-- Results written lane by lane. -/
def putAll (G : Gang) (ls : List Nat) (o : Nat → Out) : Gang := ls.foldl (fun G l => G.putOut l (o l)) G

variable {o : Nat → Out} (ht : ∀ l, (o l).trap = none)
include ht

theorem length_putAll (ls : List Nat) (G : Gang) : (putAll G ls o).lanes.length = G.lanes.length := by
  induction ls generalizing G with
  | nil => rfl
  | cons l ls ih => rw [putAll, List.foldl_cons, ← putAll, ih, length_putOut _ _ _ (ht l)]

theorem lane_putAll_keep (ls : List Nat) (G : Gang) (j : Nat) (hj : j ∉ ls) : (putAll G ls o).lane j = G.lane j := by
  induction ls generalizing G with
  | nil => rfl
  | cons l ls ih =>
    simp only [List.mem_cons, not_or] at hj
    rw [putAll, List.foldl_cons, ← putAll, ih _ hj.2, lane_putOut_of_ne _ _ (ht l) hj.1]

theorem lane_putAll (ls : List Nat) (hn : ls.Nodup) (G : Gang) (j : Nat) (hj : j ∈ ls) (hl : j < G.lanes.length) :
    (putAll G ls o).lane j = { G.lane j with
      x := ((putAll G ls o).lane j).x, xp := ((putAll G ls o).lane j).xp,
      p := (putPs (G.lane j) (o j).preds).p, pp := (putPs (G.lane j) (o j).preds).pp,
      fflags := (G.lane j).fflags ||| (o j).flags } := by
  induction ls generalizing G with
  | nil => simp at hj
  | cons l ls ih =>
    obtain ⟨h1, h2⟩ := List.nodup_cons.mp hn
    rw [putAll, List.foldl_cons, ← putAll]
    by_cases hjl : j = l
    · subst hjl
      rw [lane_putAll_keep ht ls _ j h1, lane_putOut_self _ _ (ht j) hl]
    · have hm : j ∈ ls := by simpa [hjl] using hj
      rw [ih h2 _ hm (by rwa [length_putOut _ _ _ (ht l)]), lane_putOut_of_ne _ _ (ht l) hjl]

theorem putAll_frame (ls : List Nat) (G : Gang) :
    putAll G ls o = { G with lanes := (putAll G ls o).lanes, k := (putAll G ls o).k, kp := (putAll G ls o).kp } := by
  induction ls generalizing G with
  | nil => rfl
  | cons l ls ih =>
    rw [putAll, List.foldl_cons, ← putAll, ih, putOut_frame _ _ _ (ht l)]

theorem view_putAll_keep (ls : List Nat) (G : Gang) (hlen : ∀ l ∈ ls, l < G.lanes.length) (j : Nat) (r : Reg)
    (h : ∀ l ∈ ls, ∀ w ∈ (o l).regs, w.1 = r → r.k = false ∧ ¬(j = l ∧ r.n ≠ 0)) :
    ((putAll G ls o).view j).reg r = (G.view j).reg r := by
  induction ls generalizing G with
  | nil => rfl
  | cons l ls ih =>
    rw [putAll, List.foldl_cons, ← putAll, ih, view_putOut_keep _ _ _ (ht l) (hlen l (by simp)) _ (h l (by simp))]
    · intro x hx; rw [length_putOut _ _ _ (ht l)]; exact hlen x (by simp [hx])
    · exact fun x hx => h x (by simp [hx])

theorem view_putAll_x (ls : List Nat) (hn : ls.Nodup) (G : Gang) (hlen : ∀ l ∈ ls, l < G.lanes.length) (j : Nat)
    (hj : j ∈ ls) (hr : ((o j).regs.map (·.1)).Nodup) (w : Reg × Word × Bool) (hw : w ∈ (o j).regs)
    (hk : w.1.k = false) (h0 : w.1.n ≠ 0) : ((putAll G ls o).view j).reg w.1 = w.2 := by
  induction ls generalizing G with
  | nil => simp at hj
  | cons l ls ih =>
    obtain ⟨h1, h2⟩ := List.nodup_cons.mp hn
    rw [putAll, List.foldl_cons, ← putAll]
    have hlen' : ∀ x ∈ ls, x < (G.putOut l (o l)).lanes.length := fun x hx => by
      rw [length_putOut _ _ _ (ht l)]; exact hlen x (by simp [hx])
    by_cases hjl : j = l
    · subst hjl
      rw [view_putAll_keep ht ls _ hlen' j, view_putOut_get _ _ _ (ht j) (hlen j (by simp)) hr w hw (.inr ⟨rfl, h0⟩)]
      intro l hl _ _ _
      refine ⟨hk, ?_⟩
      rintro ⟨rfl, _⟩
      exact h1 hl
    · exact ih h2 _ hlen' (by simpa [hjl] using hj)

theorem view_putAll_k (ls : List Nat) (G : Gang) (hlen : ∀ l ∈ ls, l < G.lanes.length) (t : Nat)
    (htop : ls.getLast? = some t) (hr : ((o t).regs.map (·.1)).Nodup) (j : Nat) (w : Reg × Word × Bool)
    (hw : w ∈ (o t).regs) (hk : w.1.k = true) : ((putAll G ls o).view j).reg w.1 = w.2 := by
  obtain ⟨ls', rfl⟩ := List.getLast?_eq_some_iff.mp htop
  rw [putAll, List.foldl_append, List.foldl_cons, List.foldl_nil, ← putAll]
  exact view_putOut_get _ _ _ (ht t) (by rw [length_putAll ht]; exact hlen t (by simp)) hr w hw (.inl hk)

end Sys2Proof.Machine
end

