-- ==== Sys2Proof/Laws/Compute.lean ====
section
/-! SUPPORT. The law of running an instruction (Table 7.9's checks passed, the body runs on the active lanes and the other
lanes go on), and the laws of the instructions that only compute, for groups and for sequencers. -/

namespace Sys2Proof.Machine

-- State updates by gang and block

@[simp] theorem setGang_find (s : State) (k : Nat) (G : Gang) : (s.setGang k G).gangs.find? k = some G := by
  simp [State.setGang]

@[simp] theorem setGang_setGang (s : State) (k : Nat) (G H : Gang) : (s.setGang k G).setGang k H = s.setGang k H := by
  simp [State.setGang]

theorem onGang_of_find {s : State} {k : Nat} {G : Gang} (h : s.gangs.find? k = some G) (f : Gang → Gang) :
    s.onGang k f = s.setGang k (f G) := by
  simp [State.onGang, h]

@[simp] theorem onGang_setGang (s : State) (k : Nat) (G : Gang) (f : Gang → Gang) :
    (s.setGang k G).onGang k f = s.setGang k (f G) := by
  simp [State.onGang]

@[simp] theorem advance_setGang (s : State) (k : Nat) (G : Gang) (m : Mask) :
    (s.setGang k G).advance k m = s.setGang k (G.advance m) := by
  simp [State.advance]

@[simp] theorem setBlock_find (s : State) (b : Nat) (B : Block) : (s.setBlock b B).blocks.find? b = some B := by
  simp [State.setBlock]

theorem onBlock_of_find {s : State} {b : Nat} {B : Block} (h : s.blocks.find? b = some B) (f : Block → Block) :
    s.onBlock b f = s.setBlock b (f B) := by
  simp [State.onBlock, h]

@[simp] theorem trapAll_zero (s : State) (k : Nat) (c : BitVec 8) (v pc : DWord) (h mg : Bool) :
    s.trapAll k 0 c v pc h mg = s := by
  simp [State.trapAll]

-- Running an instruction for a group

theorem head_lanesOf {m : Mask} (h : m ≠ 0) : ∃ l, (lanesOf m).head? = some l ∧ l ∈ lanesOf m := by
  cases hl : lanesOf m with
  | nil => exact absurd (by rw [← maskOf_lanesOf m, hl]; rfl) h
  | cons a t => exact ⟨a, rfl, by simp⟩

variable {i : Instr} {s : State} {k : Nat} {G : Gang} {m act : Mask} {pc : DWord}

/-- The active lanes are lanes of the group. -/
theorem Executes.sub (h : Executes i s k G m act pc) {l : Nat} (hl : l ∈ lanesOf act) : l ∈ lanesOf m := by
  have hg := h.guard
  simp only [Gang.guardMasks, Prod.mk.injEq] at hg
  rw [mem_lanesOf, ← hg.2, getLsbD_maskOf_filter] at hl
  simp only [Bool.and_eq_true] at hl
  exact mem_lanesOf.mpr hl.1

theorem Executes.lt (h : Executes i s k G m act pc) {l : Nat} (hl : l ∈ lanesOf m) : l < G.lanes.length :=
  lt_of_running (h.running l hl)

theorem Executes.group (h : Executes i s k G m act pc) : m ≠ 0 := by
  rintro rfl
  obtain ⟨l, _, hl⟩ := head_lanesOf h.some
  simpa using h.sub hl

/-- The body of an instruction that a group executes runs on the active lanes, and the others go on. -/
theorem runThread_executes (h : Executes i s k G m act pc) (body : ThreadBody) :
    runThread i s ⟨.thread, coreOf k, k, m, pc⟩ G body =
      (body s k act).after k act (m &&& ~~~act) (·.advance k (m &&& ~~~act)) := by
  obtain ⟨l, hl, hm⟩ := head_lanesOf h.group
  have hmode : ¬(G.lane l).mode.rank < i.leastMode.rank := by have := h.mode l hm; omega
  have hz : (0 : Mask) ||| act = act := by simp
  simp only [runThread, hl, h.wf, Bool.not_true, Bool.false_eq_true, if_false, Option.map_some, Option.getD_some, hmode,
    h.alloc, h.guard, trapAll_zero, if_neg h.some, hz]

theorem threadOp_executes (h : Executes i s k G m act pc) (body : ThreadBody) :
    threadOp i s body = .next ((body s k act).after k act (m &&& ~~~act) (·.advance k (m &&& ~~~act))) := by
  simp only [threadOp, h.cur, h.gang, runThread_executes h]

theorem anyOp_executes (h : Executes i s k G m act pc) (body : ThreadBody) (seq : Bool → State → Nat → State) :
    anyOp i s body seq = .next ((body s k act).after k act (m &&& ~~~act) (·.advance k (m &&& ~~~act))) := by
  simp only [anyOp, h.cur, h.gang, runThread_executes h]

/-- Where the gang's waits are as they were, no active lane has to run the instruction again. -/
theorem after_of_waits (h : Executes i s k G m act pc) {t : State} {H : Gang} (ht : t.gangs.find? k = some H)
    (hw : H.waits = G.waits) (rest : Mask) (go : State → State) : t.after k act rest go = go t := by
  have hnone : (H.waits.find? fun w => (w.kind.retry || w.kind.isGrow) && w.lanes &&& act != 0) = none := by
    rw [List.find?_eq_none]
    intro w hwm
    have hf := h.free w (hw ▸ hwm)
    have : w.lanes &&& act = 0 := by
      refine BitVec.eq_of_getLsbD_eq fun j _ => ?_
      have hj := congrArg (·.getLsbD j) hf
      by_cases ha : act.getLsbD j = true
      · have := mem_lanesOf.mp (h.sub (mem_lanesOf.mpr ha))
        simp only [BitVec.getLsbD_and, this, Bool.and_true] at hj
        simp [hj]
      · simp [Bool.eq_false_iff.mpr ha]
    simp [this]
  simp only [State.after, ht, Option.bind_some, hnone]

theorem after_setGang (h : Executes i s k G m act pc) (t : State) {H : Gang} (hw : H.waits = G.waits) (rest : Mask)
    (go : State → State) : (t.setGang k H).after k act rest go = go (t.setGang k H) :=
  after_of_waits h (setGang_find t k H) hw rest go

-- Instructions that only compute

theorem trapping_of_none (os : List (Nat × Out)) (h : ∀ o ∈ os, o.2.trap = none) : trapping os = 0 := by
  have : os.filter (·.2.trap.isSome) = [] := by
    rw [List.filter_eq_nil_iff]
    intro o ho
    simp [h o ho]
  simp [trapping, this]

theorem foldl_no_trap (k : Nat) (os : List (Nat × Out)) (h : ∀ o ∈ os, o.2.trap = none) (s : State) :
    os.foldl (fun s o =>
      match o.2.trap with
      | some (c, v) => s.trap k o.1 c v (s.lane k o.1).pc
      | none => s) s = s := by
  induction os generalizing s with
  | nil => rfl
  | cons o os ih =>
    rw [List.foldl_cons, h o (by simp)]
    exact ih (fun x hx => h x (by simp [hx])) s

/-- Results of which none traps are written, and the active lanes go on. -/
theorem putOuts_of_none (s : State) (k : Nat) (G : Gang) (m : Mask) (o : Nat → Out) (ls : List Nat)
    (h : ∀ l ∈ ls, (o l).trap = none) :
    s.putOuts k G m (ls.map fun l => (l, o l)) = s.setGang k ((putAll G ls o).advance m) := by
  have h' : ∀ x ∈ ls.map fun l => (l, o l), x.2.trap = none := by
    intro x hx
    obtain ⟨l, hl, rfl⟩ := List.mem_map.mp hx
    exact h l hl
  have hg : G.putOuts (ls.map fun l => (l, o l)) = putAll G ls o := by
    simp [Gang.putOuts, putAll, List.foldl_map]
  simp only [State.putOuts, trapping_of_none _ h', hg]
  refine (foldl_no_trap k _ h' _).trans ?_
  have hz : m &&& ~~~(0 : Mask) = m := by
    refine BitVec.eq_of_getLsbD_eq fun j hj => ?_
    rw [BitVec.getLsbD_and, BitVec.getLsbD_not]
    simp [hj]
  rw [hz]

/-- A gang whose active lanes have written their results and whose group has moved on. -/
theorem wrote_putAll (h : Executes i s k G m act pc) {o : Nat → Out} (ht : ∀ l, (o l).trap = none)
    (hr : ∀ l ∈ lanesOf act, ((o l).regs.map (·.1)).Nodup) (hp : ∀ l ∈ lanesOf act, ((o l).preds.map (·.1)).Nodup) :
    Wrote G (((putAll G (lanesOf act) o).advance act).advance (m &&& ~~~act)) m act o := by
  have hlen : ∀ l ∈ lanesOf act, l < G.lanes.length := fun l hl => h.lt (h.sub hl)
  have hlm : ∀ l, l ∈ lanesOf (m &&& ~~~act) ↔ l ∈ lanesOf m ∧ l ∉ lanesOf act := by
    intro l
    simp only [mem_lanesOf, BitVec.getLsbD_and, BitVec.getLsbD_not, Bool.and_eq_true, decide_eq_true_eq,
      Bool.not_eq_true']
    constructor
    · rintro ⟨h1, _, h2⟩; exact ⟨h1, by simp [h2]⟩
    · rintro ⟨h1, h2⟩; exact ⟨h1, BitVec.lt_of_getLsbD h1, by simpa using h2⟩
  have hlane : ∀ l, (((putAll G (lanesOf act) o).advance act).advance (m &&& ~~~act)).lane l =
      if l ∈ lanesOf m then onward ((putAll G (lanesOf act) o).lane l) else (putAll G (lanesOf act) o).lane l := by
    intro l
    rw [lane_advance, lane_advance, length_advance, length_putAll ht]
    by_cases hm : l ∈ lanesOf m
    · have hl := h.lt hm
      by_cases ha : l ∈ lanesOf act
      · simp [hlm l, hm, ha, hl]
      · simp [hlm l, hm, ha, hl]
    · have ha : l ∉ lanesOf act := fun ha => hm (h.sub ha)
      simp [hlm l, hm, ha]
  have hview : ∀ l r, ((((putAll G (lanesOf act) o).advance act).advance (m &&& ~~~act)).view l).reg r =
      ((putAll G (lanesOf act) o).view l).reg r := by
    rintro l ⟨rk, rn⟩
    cases rk
    · simp only [view_reg_x, hlane]
      by_cases hm : l ∈ lanesOf m <;> simp [hm]
    · simp only [view_reg_k]
      rw [advance_eq, advance_eq]
  have hbase : ∀ l, (putAll G (lanesOf act) o).lane l = { G.lane l with
      x := ((putAll G (lanesOf act) o).lane l).x, xp := ((putAll G (lanesOf act) o).lane l).xp,
      p := if l ∈ lanesOf act then (putPs (G.lane l) (o l).preds).p else (G.lane l).p,
      pp := if l ∈ lanesOf act then (putPs (G.lane l) (o l).preds).pp else (G.lane l).pp,
      fflags := (G.lane l).fflags ||| if l ∈ lanesOf act then (o l).flags else 0 } := by
    intro l
    by_cases ha : l ∈ lanesOf act
    · rw [lane_putAll ht _ (lanesOf_nodup act) G l ha (hlen l ha)]
      simp [ha]
    · rw [lane_putAll_keep ht _ G l ha]
      simp [ha]
  have hpred : ∀ l n, ((((putAll G (lanesOf act) o).advance act).advance (m &&& ~~~act)).view l).pred n =
      if n = 7 then (true, false) else
        (if l ∈ lanesOf act then (putPs (G.lane l) (o l).preds).p.getLsbD n.toNat else (G.lane l).p.getLsbD n.toNat,
          if l ∈ lanesOf act then (putPs (G.lane l) (o l).preds).pp.getLsbD n.toNat
          else (G.lane l).pp.getLsbD n.toNat) := by
    intro l n
    rw [view_pred, hlane, hbase]
    by_cases hm : l ∈ lanesOf m <;> by_cases ha : l ∈ lanesOf act <;> simp [hm, ha]
  constructor
  · intro l hl w hw hk h0
    rw [hview]
    exact view_putAll_x ht _ (lanesOf_nodup act) G hlen l hl (hr l hl) w hw hk h0
  · intro l w hw hk
    rw [hview]
    have htop := topLane_mem h.some
    refine view_putAll_k ht _ G hlen (topLane act) ?_ (hr _ htop) l w hw hk
    have hne : lanesOf act ≠ [] := List.ne_nil_of_mem htop
    simp [topLane, List.getLastD_eq_getLast?, List.getLast?_eq_some_getLast hne]
  · intro l n hw
    rw [hview, view_putAll_keep ht _ G hlen]
    intro j hj w hwj he
    refine ⟨rfl, ?_⟩
    rintro ⟨rfl, _⟩
    exact hw hj w hwj he
  · intro l n hw
    rw [hview, view_putAll_keep ht _ G hlen]
    intro j hj w hwj he
    exact absurd he (hw j hj w hwj)
  · intro l hl w hw h7
    rw [hpred, if_neg h7]
    obtain ⟨h1, h2⟩ := putPs_get (G.lane l) _ (hp l hl) w hw h7
    simp [hl, h1, h2]
  · intro l n hw
    rw [hpred, view_pred]
    by_cases h7 : n = 7
    · simp [h7]
    · by_cases ha : l ∈ lanesOf act
      · obtain ⟨h1, h2⟩ := putPs_keep (G.lane l) n _ (hw ha)
        rw [if_neg h7, if_neg h7, if_pos ha, if_pos ha, h1, h2]
      · rw [if_neg h7, if_neg h7, if_neg ha, if_neg ha]
  · intro l
    rw [hlane, hbase]
    split <;> rfl
  · intro l
    rw [hlane, hbase]
    split <;> rfl
  · intro l
    rw [hlane, hbase]
    split <;> rfl
  · rw [advance_eq, advance_eq, putAll_frame ht]

/-- What was written depends on the active lanes' results alone. -/
theorem Wrote.congr {G H : Gang} {m act : Mask} {o o' : Nat → Out} (ha : act ≠ 0)
    (ho : ∀ l ∈ lanesOf act, o l = o' l) (w : Wrote G H m act o) : Wrote G H m act o' where
  x := fun l hl => by rw [← ho l hl]; exact w.x l hl
  k := fun l => by rw [← ho _ (topLane_mem ha)]; exact w.k l
  keepX := fun l n h => w.keepX l n fun hl => by rw [ho l hl]; exact h hl
  keepK := fun l n h => w.keepK l n fun j hj => by rw [ho j hj]; exact h j hj
  p := fun l hl => by rw [← ho l hl]; exact w.p l hl
  keepP := fun l n h => w.keepP l n fun hl => by rw [ho l hl]; exact h hl
  flags := fun l => by
    rw [w.flags]
    by_cases hl : l ∈ lanesOf act
    · simp [hl, ho l hl]
    · simp [hl]
  pc := w.pc
  lanes := w.lanes
  gang := w.gang

/-- Results of the active lanes, none of which traps, are written and the group goes on. -/
theorem putOuts_after (h : Executes i s k G m act pc) (o : Nat → Out) (ht : ∀ l ∈ lanesOf act, (o l).trap = none)
    (hr : ∀ l ∈ lanesOf act, ((o l).regs.map (·.1)).Nodup) (hp : ∀ l ∈ lanesOf act, ((o l).preds.map (·.1)).Nodup) :
    ∃ H, (s.putOuts k G act ((lanesOf act).map fun l => (l, o l))).after k act (m &&& ~~~act)
        (·.advance k (m &&& ~~~act)) = s.setGang k H ∧ Wrote G H m act o := by
  let o' : Nat → Out := fun l => if l ∈ lanesOf act then o l else {}
  have ho : ∀ l ∈ lanesOf act, o' l = o l := fun l hl => by simp [o', hl]
  have ht' : ∀ l, (o' l).trap = none := fun l => by
    by_cases hl : l ∈ lanesOf act
    · rw [ho l hl]; exact ht l hl
    · simp [o', hl]
  have hmap : ((lanesOf act).map fun l => (l, o l)) = (lanesOf act).map fun l => (l, o' l) :=
    List.map_congr_left fun l hl => by rw [ho l hl]
  refine ⟨_, ?_, (wrote_putAll h ht' (fun l hl => by rw [ho l hl]; exact hr l hl)
    (fun l hl => by rw [ho l hl]; exact hp l hl)).congr h.some ho⟩
  rw [hmap, putOuts_of_none s k G act o' _ (fun l _ => ht' l), after_setGang h, advance_setGang]
  rw [advance_eq, putAll_frame ht']

/-- An instruction that each lane computes from its own registers. -/
theorem alu_executes (h : Executes i s k G m act pc) (f : Env → View → Out)
    (ht : ∀ l ∈ lanesOf act, (f ⟨s.ctr, l⟩ (G.view l)).trap = none)
    (hr : ∀ l ∈ lanesOf act, ((f ⟨s.ctr, l⟩ (G.view l)).regs.map (·.1)).Nodup)
    (hp : ∀ l ∈ lanesOf act, ((f ⟨s.ctr, l⟩ (G.view l)).preds.map (·.1)).Nodup) :
    ∃ H, alu i s f = .next (s.setGang k H) ∧ Wrote G H m act fun l => f ⟨s.ctr, l⟩ (G.view l) := by
  obtain ⟨H, h1, h2⟩ := putOuts_after h _ ht hr hp
  refine ⟨H, ?_, h2⟩
  rw [alu, anyOp_executes h, ← h1]
  simp only [aluThread, h.gang, Gang.outs]

/-- An instruction that each lane computes from its own registers, of the threads alone. -/
theorem aluThread_executes (h : Executes i s k G m act pc) (f : Env → View → Out)
    (ht : ∀ l ∈ lanesOf act, (f ⟨s.ctr, l⟩ (G.view l)).trap = none)
    (hr : ∀ l ∈ lanesOf act, ((f ⟨s.ctr, l⟩ (G.view l)).regs.map (·.1)).Nodup)
    (hp : ∀ l ∈ lanesOf act, ((f ⟨s.ctr, l⟩ (G.view l)).preds.map (·.1)).Nodup) :
    ∃ H, threadOp i s (aluThread f) = .next (s.setGang k H) ∧ Wrote G H m act fun l => f ⟨s.ctr, l⟩ (G.view l) := by
  obtain ⟨H, h1, h2⟩ := putOuts_after h _ ht hr hp
  refine ⟨H, ?_, h2⟩
  rw [threadOp_executes h, ← h1]
  simp only [aluThread, h.gang, Gang.outs]

/-- An instruction that lanes compute from the registers of the whole group. -/
theorem group_executes (h : Executes i s k G m act pc) (f : Gang → Mask → Env → Nat → Out)
    (ht : ∀ l ∈ lanesOf act, (f G act ⟨s.ctr, l⟩ l).trap = none)
    (hr : ∀ l ∈ lanesOf act, ((f G act ⟨s.ctr, l⟩ l).regs.map (·.1)).Nodup)
    (hp : ∀ l ∈ lanesOf act, ((f G act ⟨s.ctr, l⟩ l).preds.map (·.1)).Nodup) :
    ∃ H, threadOp i s (groupThread f) = .next (s.setGang k H) ∧ Wrote G H m act fun l => f G act ⟨s.ctr, l⟩ l := by
  obtain ⟨H, h1, h2⟩ := putOuts_after h (fun l => f G act ⟨s.ctr, l⟩ l) ht hr hp
  refine ⟨H, ?_, h2⟩
  rw [threadOp_executes h, ← h1]
  simp only [groupThread, h.gang]

-- Sequencers

@[simp] theorem seq_putSeq (B : Block) (mx : Bool) (q : Seq) : (B.putSeq mx q).seq mx = q := by
  cases mx <;> rfl

/-- The writes of a sequencer's result. -/
theorem seqWrote_putOut (q : Seq) (o : Out) (ht : o.trap = none) (hr : (o.regs.map (·.1.n)).Nodup)
    (hp : (o.preds.map (·.1)).Nodup) : SeqWrote q (q.putOut o).advance o := by
  have hreg : ∀ (ws : List (Reg × Word × Bool)) (q : Seq), ∃ r rp,
      ws.foldl (fun q w => q.putR w.1.n.toNat w.2.1 w.2.2) q = { q with r := r, rp := rp } ∧
        (∀ n : BitVec 8, (∀ w ∈ ws, w.1.n ≠ n) →
          r.get 0 n.toNat = q.r.get 0 n.toNat ∧ rp.get false n.toNat = q.rp.get false n.toNat) ∧
        ((ws.map (·.1.n)).Nodup → ∀ w ∈ ws, r.get 0 w.1.n.toNat = w.2.1 ∧ rp.get false w.1.n.toNat = w.2.2) := by
    intro ws
    induction ws with
    | nil => intro q; exact ⟨q.r, q.rp, rfl, fun _ _ => ⟨rfl, rfl⟩, fun _ w hw => by simp at hw⟩
    | cons w ws ih =>
      intro q
      obtain ⟨r, rp, h1, h2, h3⟩ := ih (q.putR w.1.n.toNat w.2.1 w.2.2)
      refine ⟨r, rp, by rw [List.foldl_cons, h1]; rfl, fun n hn => ?_, fun hd x hx => ?_⟩
      · obtain ⟨h4, h5⟩ := h2 n fun x hx => hn x (by simp [hx])
        have hne : n.toNat ≠ w.1.n.toNat := fun he => hn w (by simp) (BitVec.eq_of_toNat_eq he).symm
        rw [h4, h5]
        exact ⟨SMap.get_write_of_ne _ _ hne, SMap.get_write_of_ne _ _ hne⟩
      · rw [List.map_cons, List.nodup_cons] at hd
        rcases List.mem_cons.mp hx with rfl | hx
        · obtain ⟨h4, h5⟩ := h2 x.1.n fun y hy he => hd.1 (List.mem_map.mpr ⟨y, hy, he⟩)
          rw [h4, h5]
          exact ⟨SMap.get_write_self _ _ _ _, SMap.get_write_self _ _ _ _⟩
        · exact h3 hd.2 x hx
  have hpr : ∀ (ws : List (BitVec 3 × Bool × Bool)) (q : Seq), ∃ p pp,
      ws.foldl (fun (q : Seq) w => { q with p := setBit8 q.p w.1 w.2.1, pp := setBit8 q.pp w.1 w.2.2 }) q =
        { q with p := p, pp := pp } ∧
        (∀ n : BitVec 3, (∀ w ∈ ws, w.1 ≠ n) →
          p.getLsbD n.toNat = q.p.getLsbD n.toNat ∧ pp.getLsbD n.toNat = q.pp.getLsbD n.toNat) ∧
        ((ws.map (·.1)).Nodup → ∀ w ∈ ws, w.1 ≠ 7 →
          p.getLsbD w.1.toNat = w.2.1 ∧ pp.getLsbD w.1.toNat = w.2.2) := by
    intro ws
    induction ws with
    | nil => intro q; exact ⟨q.p, q.pp, rfl, fun _ _ => ⟨rfl, rfl⟩, fun _ w hw => by simp at hw⟩
    | cons w ws ih =>
      intro q
      obtain ⟨p, pp, h1, h2, h3⟩ := ih { q with p := setBit8 q.p w.1 w.2.1, pp := setBit8 q.pp w.1 w.2.2 }
      refine ⟨p, pp, by rw [List.foldl_cons, h1], fun n hn => ?_, fun hd x hx h7 => ?_⟩
      · obtain ⟨h4, h5⟩ := h2 n fun x hx => hn x (by simp [hx])
        have hne : w.1 ≠ n := hn w (by simp)
        rw [h4, h5]
        by_cases h7 : w.1 = 7
        · rw [h7, setBit8_seven, setBit8_seven]; exact ⟨rfl, rfl⟩
        · simp [getLsbD_setBit8 _ _ _ _ h7, hne.symm]
      · rw [List.map_cons, List.nodup_cons] at hd
        rcases List.mem_cons.mp hx with rfl | hx
        · obtain ⟨h4, h5⟩ := h2 x.1 fun y hy he => hd.1 (List.mem_map.mpr ⟨y, hy, he⟩)
          rw [h4, h5]
          simp [getLsbD_setBit8 _ _ _ _ h7]
        · exact h3 hd.2 x hx h7
  obtain ⟨r, rp, h1, h2, h3⟩ := hreg o.regs q
  obtain ⟨p, pp, h4, h5, h6⟩ := hpr o.preds { q with r := r, rp := rp }
  have he : q.putOut o = { q with r := r, rp := rp, p := p, pp := pp } := by
    simp only [Seq.putOut, ht, Option.isSome_none, Bool.false_eq_true, if_false, h1, h4]
  rw [he]
  constructor
  · intro w hw
    obtain ⟨h7, h8⟩ := h3 hr w hw
    exact Prod.ext h7 h8
  · intro n hn
    obtain ⟨h7, h8⟩ := h2 n hn
    exact Prod.ext h7 h8
  · intro w hw h7
    obtain ⟨h8, h9⟩ := h6 hp w hw h7
    have h7' : (w.1 == 7) = false := by simpa using h7
    simp only [Seq.advance, Seq.view, View.pred, h7', h8, h9]
    rfl
  · intro n hn
    obtain ⟨h8, h9⟩ := h5 n hn
    simp only [Seq.advance, Seq.view, View.pred, h8, h9]
  · rfl
  · rfl

/-- What an instruction that only computes does when a sequencer executes it. -/
theorem alu_seqExecutes {mx : Bool} {b : Nat} {B : Block} (h : SeqExecutes i mx s b B) (f : Env → View → Out)
    (ht : (f ⟨s.ctr, 0⟩ (B.seq mx).view).trap = none)
    (hr : ((f ⟨s.ctr, 0⟩ (B.seq mx).view).regs.map (·.1.n)).Nodup)
    (hp : ((f ⟨s.ctr, 0⟩ (B.seq mx).view).preds.map (·.1)).Nodup) :
    ∃ q, alu i s f = .next (s.setBlock b (B.putSeq mx q)) ∧
      SeqWrote (B.seq mx) q (f ⟨s.ctr, 0⟩ (B.seq mx).view) := by
  refine ⟨_, ?_, seqWrote_putOut _ _ ht hr hp⟩
  have hc := h.cur
  have hw := h.wf
  have hg := h.guard
  cases mx <;>
    simp only [seqEngine, Bool.false_eq_true, if_false, if_true] at hc hw hg ⊢ <;>
    simp only [alu, anyOp, hc, h.block, runSeq, hw, hg, Bool.not_true, Bool.false_eq_true, if_false, aluSeq, ht]

-- Claims in the terms of Safety

/-- A result that can be written: it does not trap, and names each register and predicate once. -/
def Out.plain (o : Out) : Prop := o.trap = none ∧ (o.regs.map (·.1)).Nodup ∧ (o.preds.map (·.1)).Nodup

theorem next_ne_self (n : BitVec 8) : n + 1 ≠ n := by
  intro h
  have := congrArg BitVec.toNat h
  rw [BitVec.toNat_add] at this
  simp at this
  omega

/-- `Put` names each register once. -/
theorem putTy_nodup (t : Ty) (d : Reg) (v : Int) : ((putTy t d v).map (·.1)).Nodup := by
  simp only [putTy]
  split
  · have : d ≠ ⟨d.k, d.n + 1⟩ := fun h => next_ne_self d.n (congrArg Reg.n h).symm
    rw [List.map_cons, List.map_cons, List.map_nil, List.nodup_cons]
    exact ⟨by rw [List.mem_singleton]; exact this, List.nodup_singleton _⟩
  · simp

theorem plain_reg (t : Ty) (d : Reg) (v : Int) (f : BitVec 7) : (Out.reg t d v f).plain := by
  refine ⟨rfl, ?_, by simp [Out.reg]⟩
  have : (List.map (fun x : Reg × Word × Bool => x.1) (Out.reg t d v f).regs) = (putTy t d v).map (·.1) := by
    simp [Out.reg, List.map_map, Function.comp_def]
  rw [this]
  exact putTy_nodup t d v

theorem plain_word (d : BitVec 8) (w : Word) : (Out.word d w).plain := ⟨rfl, by simp [Out.word], by simp [Out.word]⟩

theorem plain_pred (d : BitVec 3) (b : Bool) (f : BitVec 7) : (Out.pred d b f).plain :=
  ⟨rfl, by simp [Out.pred], by simp [Out.pred]⟩

@[simp] theorem results_clean (e : Env) (v : View) (src : Word) (t : Ty) (d : Reg) (n : Int) (f : BitVec 7) :
    Out.results e v false src (putTy t d n) f = Out.reg t d n f := rfl

@[simp] theorem results_word (e : Env) (v : View) (src : Word) (d : BitVec 8) (w : Word) :
    Out.results e v false src [(⟨false, d⟩, w)] = Out.word d w := rfl

@[simp] theorem predicate_clean (e : Env) (d : BitVec 3) (b : Bool) (f : BitVec 7) :
    Out.predicate e false d b f = Out.pred d b f := rfl

/-- An instruction that each lane computes from its own registers gives its results. -/
theorem gives_of_alu {f : Env → View → Out} {pre : View → Prop} {out : View → Out} (he : ∀ s, exec i s = alu i s f)
    (hf : i.wf .thread = true → ∀ e v, pre v → f e v = out v) (ho : ∀ v, pre v → (out v).plain) : Gives i pre out := by
  intro s k G m act pc h hp
  have hl : ∀ l ∈ lanesOf act, f ⟨s.ctr, l⟩ (G.view l) = out (G.view l) := fun l hl => hf h.wf _ _ (hp l hl)
  obtain ⟨H, h1, h2⟩ := alu_executes h f (fun l hm => by rw [hl l hm]; exact (ho _ (hp l hm)).1)
    (fun l hm => by rw [hl l hm]; exact (ho _ (hp l hm)).2.1) fun l hm => by rw [hl l hm]; exact (ho _ (hp l hm)).2.2
  exact ⟨H, by rw [he, h1], h2.congr h.some hl⟩

/-- The same for the instructions of the threads alone. -/
theorem gives_of_aluThread {f : Env → View → Out} {pre : View → Prop} {out : View → Out}
    (he : ∀ s, exec i s = threadOp i s (aluThread f)) (hf : i.wf .thread = true → ∀ e v, pre v → f e v = out v)
    (ho : ∀ v, pre v → (out v).plain) : Gives i pre out := by
  intro s k G m act pc h hp
  have hl : ∀ l ∈ lanesOf act, f ⟨s.ctr, l⟩ (G.view l) = out (G.view l) := fun l hl => hf h.wf _ _ (hp l hl)
  obtain ⟨H, h1, h2⟩ := aluThread_executes h f (fun l hm => by rw [hl l hm]; exact (ho _ (hp l hm)).1)
    (fun l hm => by rw [hl l hm]; exact (ho _ (hp l hm)).2.1) fun l hm => by rw [hl l hm]; exact (ho _ (hp l hm)).2.2
  exact ⟨H, by rw [he, h1], h2.congr h.some hl⟩

/-- An instruction that lanes compute from the registers of the whole group gives its results. -/
theorem givesAt_of_group {f : Gang → Mask → Env → Nat → Out} {pre : State → Gang → Mask → Nat → Prop}
    {out : State → Gang → Mask → Nat → Out} (he : ∀ s, exec i s = threadOp i s (groupThread f))
    (hf : ∀ s G act l, (∀ j ∈ lanesOf act, pre s G act j) → l ∈ lanesOf act → f G act ⟨s.ctr, l⟩ l = out s G act l)
    (ho : ∀ s G act l, pre s G act l → (out s G act l).plain) : GivesAt i pre out := by
  intro s k G m act pc h hp
  have hl : ∀ l ∈ lanesOf act, f G act ⟨s.ctr, l⟩ l = out s G act l := fun l hl => hf _ _ _ _ hp hl
  obtain ⟨H, h1, h2⟩ := group_executes h f (fun l hm => by rw [hl l hm]; exact (ho _ _ _ _ (hp l hm)).1)
    (fun l hm => by rw [hl l hm]; exact (ho _ _ _ _ (hp l hm)).2.1)
    fun l hm => by rw [hl l hm]; exact (ho _ _ _ _ (hp l hm)).2.2
  exact ⟨H, by rw [he, h1], h2.congr h.some hl⟩

/-- An instruction that only computes gives its result to a sequencer. -/
theorem seqGives_of_alu {mx : Bool} {f : Env → View → Out} {pre : View → Prop} {out : View → Out}
    (he : ∀ s, exec i s = alu i s f) (hf : ∀ e v, pre v → f e v = out v)
    (ho : ∀ v, pre v → (out v).trap = none ∧ ((out v).regs.map (·.1.n)).Nodup ∧ ((out v).preds.map (·.1)).Nodup) :
    SeqGives i mx pre out := by
  intro s b B h hp
  have hl := hf ⟨s.ctr, 0⟩ _ hp
  obtain ⟨h3, h4, h5⟩ := ho _ hp
  obtain ⟨q, h1, h2⟩ := alu_seqExecutes h f (by rw [hl]; exact h3) (by rw [hl]; exact h4) (by rw [hl]; exact h5)
  exact ⟨q, by rw [he, h1], by rw [hl] at h2; exact h2⟩

end Sys2Proof.Machine
end

