-- ==== Sys2Proof/Machine/Loader.lean ====
section
/-! DEFINITION. The kernel image and its loader (R31, R32, R81): header and section table, relocations, and what the loader copies
into memory. -/

namespace Sys2Proof.Machine

/-- Section kinds (Table 2.3). -/
inductive SecKind where
  | thread | mseq | cseq | rodata | data | launch | tensor | proto | reloc
  deriving DecidableEq, Repr

/-- The code of a section kind. -/
def SecKind.code : SecKind → Nat
  | .thread => 1 | .mseq => 2 | .cseq => 3 | .rodata => 4 | .data => 5 | .launch => 6 | .tensor => 7 | .proto => 8 | .reloc => 9

/-- The section kind of a code. -/
def SecKind.ofCode (n : Nat) : Option SecKind :=
  [SecKind.thread, .mseq, .cseq, .rodata, .data, .launch, .tensor, .proto, .reloc].find? fun k => k.code == n

/-- The engine that a code section's lines are for. -/
def SecKind.engine : SecKind → Option Engine
  | .thread => some .thread
  | .mseq => some .matrix
  | .cseq => some .copy
  | .rodata | .data | .launch | .tensor | .proto | .reloc => none

/-- A section of an image: its kind, its required load alignment as a power of two, its contents. -/
structure Section where
  kind : SecKind
  align : Nat
  bytes : List Byte
  deriving DecidableEq, Repr

/-- A relocation entry (Table 4.6): where it writes, its kind, its base, and the addend. -/
structure Reloc where
  off : Nat
  target : Nat
  kind : Nat
  base : Nat
  add : DWord
  deriving DecidableEq, Repr

/-- A kernel image: its name, its sections in table order, the relocation section's imports and entries. -/
structure KernelImage where
  name : List Byte
  sections : List Section
  imports : List (List Byte) := []
  relocs : List Reloc := []
  deriving DecidableEq, Repr

/-- Why the loader refuses an image. The first is for bytes that are no image of this format version. -/
inductive LoadError where
  | notAnImage
  | unknownKind
  | codeSize
  | outside
  | nonzero
  | badTable
  | relocKind
  | relocIndex
  | relocField
  | misplaced
  | noImport
  deriving DecidableEq, Repr

-- Writing an image

/-- Bytes up to the next multiple of 64. -/
def pad64 (bs : List Byte) : List Byte := bs ++ List.replicate ((64 - bs.length % 64) % 64) 0

/-- The bytes of a relocation entry (Table 4.6). An import index above 255, for which the one byte of Base has no room, is cut to
its low byte (R81 names no error. DESIGN CHOICE: log entry 88). -/
def Reloc.bytes (r : Reloc) : List Byte :=
  toBytes 4 r.off ++ toBytes 1 r.target ++ toBytes 1 r.kind ++ toBytes 1 r.base ++ [0] ++ toBytes 8 r.add.toNat

/-- A relocation section (R81); none where there is nothing to tell the loader. -/
def KernelImage.relocSection (m : KernelImage) : List Section :=
  if m.imports = [] ∧ m.relocs = [] then []
  else
    let name := fun (n : List Byte) => (n ++ List.replicate 32 0).take 32
    [⟨.reloc, 6, toBytes 2 m.imports.length ++ toBytes 4 m.relocs.length ++ [0, 0] ++ (m.imports.map name).flatten ++
      (m.relocs.map Reloc.bytes).flatten⟩]

/-- The offsets of the sections' contents, each a multiple of 64, from `at_`. -/
def placeContents : Nat → List Section → List Nat
  | _, [] => []
  | at_, s :: ss => at_ :: placeContents (at_ + (pad64 s.bytes).length) ss

/-- The bytes of an image (R31). -/
def KernelImage.bytes (m : KernelImage) : List Byte :=
  let ss := m.sections ++ m.relocSection
  let head := (64 + 16 * ss.length + 63) / 64 * 64
  let offs := placeContents head ss
  let row := fun (x : Section × Nat) =>
    toBytes 1 x.1.kind.code ++ [0, 0, 0] ++ toBytes 4 x.2 ++ toBytes 4 x.1.bytes.length ++ toBytes 4 x.1.align
  let body := (ss.map fun s => pad64 s.bytes).flatten
  let name := (m.name ++ List.replicate 32 0).take 32
  pad64 (toBytes 4 0x4F4C4B49 ++ toBytes 2 1 ++ toBytes 2 ss.length ++ toBytes 8 (head + body.length) ++ name ++
    List.replicate 16 0 ++ ((ss.zip offs).map row).flatten) ++ body

-- Reading an image

/-- The refusals of a list of section-table rows, and their sections. -/
def readSections (img : List Byte) (length : Nat) : List (List Byte) → Except LoadError (List Section)
  | [] => .ok []
  | r :: rs =>
    let off := field r 4 4
    let size := field r 8 4
    let align := field r 12 4
    match SecKind.ofCode (field r 0 1) with
    | none => .error .unknownKind
    | some k =>
      if field r 1 3 ≠ 0 then .error .nonzero
      else if k.engine.isSome ∧ size % 64 ≠ 0 then .error .codeSize
      else if length < off + size then .error .outside
      else if off % 64 ≠ 0 ∨ align < 6 ∨ 30 < align then .error .badTable
      else do .ok (⟨k, align, (img.drop off).take size⟩ :: (← readSections img length rs))

/-- The relocation sections' heads, imports and entries. -/
def readRelocs : List Section → Except LoadError (List (List Byte) × List Reloc)
  | [] => .ok ([], [])
  | s :: ss =>
    if s.kind ≠ .reloc then readRelocs ss
    else
      let n := field s.bytes 0 2
      let e := field s.bytes 2 4
      if s.bytes.length < 8 + 32 * n + 16 * e then .error .outside
      else if field s.bytes 6 2 ≠ 0 then .error .nonzero
      else
        let entry := fun (i : Nat) =>
          let r := (s.bytes.drop (8 + 32 * n + 16 * i)).take 16
          (field r 7 1, ({ off := field r 0 4, target := field r 4 1, kind := field r 5 1, base := field r 6 1,
                           add := BitVec.ofNat 64 (field r 8 8) } : Reloc))
        let es := (List.range e).map entry
        if es.any (·.1 != 0) then .error .nonzero
        else do
          let (ns, rs) ← readRelocs ss
          .ok ((List.range n).map (fun i => (s.bytes.drop (8 + 32 * i)).take 32) ++ ns, es.map (·.2) ++ rs)

/-- An image read from its bytes (R31, R32). Relocation sections keep their places in the table. -/
def KernelImage.read (img : List Byte) : Except LoadError KernelImage :=
  let n := field img 6 2
  let length := field img 8 8
  if field img 0 4 ≠ 0x4F4C4B49 ∨ field img 4 2 ≠ 1 ∨ n = 0 ∨ 64 < n ∨ img.length < length ∨ length < 64 + 16 * n then
    .error .notAnImage
  else if field img 0x30 16 ≠ 0 then .error .nonzero
  else do
    let ss ← readSections img length ((List.range n).map fun i => (img.drop (64 + 16 * i)).take 16)
    let (ns, rs) ← readRelocs ss
    .ok { name := (img.drop 0x10).take 32, sections := ss, imports := ns, relocs := rs }

/-- Whether the line kind of every line of the code sections matches its section (R32). -/
def KernelImage.linesMatch (m : KernelImage) : Bool :=
  m.sections.all fun s =>
    match s.kind.engine with
    | none => true
    | some e => (List.range (s.bytes.length / 64)).all fun i => field s.bytes (64 * i + 60) 4 / 2 ^ 14 % 4 == (lineKind e).toNat

-- Relocation

/-- A line with its parity bits computed anew (R121). -/
def reparity (line : BitVec 512) : BitVec 512 :=
  let l : Line := { tag := 0, data := line, poison := false }
  let par : Nat := ((List.range 5).map fun i => if oddOnes (l.slot i) then 2 ^ (9 + i) else 0).foldl (· + ·) 0
  let lw : BitVec 32 := (l.lword &&& ~~~0x80003E00#32) ||| BitVec.ofNat 32 par
  let lw := if oddOnes lw then lw ||| 0x80000000 else lw
  line.extractLsb' 0 480 |>.setWidth 512 |>.or (lw.setWidth 512 <<< 480)

/-- The bytes of a code section with the parity of the line at an offset computed anew. -/
def reparityAt (bs : List Byte) (off : Nat) : List Byte :=
  let a := off / 64 * 64
  setField bs a 64 (reparity (BitVec.ofNat 512 (field bs a 64))).toNat

/-- Where the loader has placed the sections, and what an import's name stands for. -/
structure Placing where
  bases : List DWord
  imports : List (List Byte × DWord)

/-- One relocation (R81). -/
def KernelImage.relocate (m : KernelImage) (p : Placing) (r : Reloc) : Except LoadError KernelImage :=
  let imp := 4 ≤ r.kind
  let base : Except LoadError DWord :=
    if imp then
      match m.imports[r.base]? with
      | none => .error .relocIndex
      | some n => match p.imports.lookup n with
        | some v => .ok v
        | none => .error .noImport
    else
      match m.sections[r.base]?, p.bases[r.base]? with
      | some _, some v => .ok v
      | _, _ => .error .relocIndex
  if r.kind = 0 ∨ 6 < r.kind then .error .relocKind
  else do
    let v := (← base) + r.add
    match m.sections[r.target]? with
    | none => .error .relocIndex
    | some s =>
      let which := (r.kind - 1) % 3
      let n := if which = 0 then 8 else 4
      let isImm := s.kind.engine.isSome && decide (r.off % 64 < 60) && r.off % 64 % 12 == 0
      let isData := s.kind.engine.isNone && r.off % 4 == 0
      if n = 4 ∧ !(isImm || isData) then .error .relocField
      else if s.bytes.length < r.off + n then .error .outside
      else
        let w := if which = 2 then v.toNat / 2 ^ 32 else v.toNat
        let bs := setField s.bytes r.off n w
        let bs := if isImm then reparityAt bs r.off else bs
        .ok { m with sections := m.sections.set r.target { s with bytes := bs } }

/-- All relocations applied, in their order. -/
def KernelImage.relocateAll (m : KernelImage) (p : Placing) : List Reloc → Except LoadError KernelImage
  | [] => .ok m
  | r :: rs => do (← m.relocate p r).relocateAll p rs

/-- What the loader does with an image: the sections that it copies, with the addresses it places them at, once every
relocation has been applied. The relocation section itself is not copied. -/
def KernelImage.load (m : KernelImage) (p : Placing) : Except LoadError (List (DWord × Section)) :=
  if p.bases.length ≠ m.sections.length ∨
      (m.sections.zip p.bases).any (fun x => x.1.kind ≠ .reloc && x.2.toNat % 2 ^ x.1.align ≠ 0) then .error .misplaced
  else do
    let m ← m.relocateAll p m.relocs
    .ok ((p.bases.zip m.sections).filter fun x => x.2.kind ≠ .reloc)

/-- The host accesses by which a function of a VMID copies the sections (R281). -/
def loadAccesses (vmid : Nat) (copies : List (DWord × Section)) : List Instr :=
  copies.map fun c => .hostMemoryAccess false vmid c.1.toNat 0 (some c.2.bytes)

end Sys2Proof.Machine
end

