-- ==== Sys2Proof/Laws/Loader.lean ====
section
/-! SUPPORT. What the loader's relocations can do to an image: a relocation changes the contents of its target section, and nothing
else of the image. -/

namespace Sys2Proof.Laws

open Sys2Proof.Machine

/-- A relocation that is carried out replaces the contents of its target section. -/
theorem relocate_cases {m t : KernelImage} {p : Placing} {r : Reloc} (h : m.relocate p r = .ok t) :
    ∃ s bs, m.sections[r.target]? = some s ∧ t = { m with sections := m.sections.set r.target { s with bytes := bs } } := by
  revert h
  unfold KernelImage.relocate
  dsimp only
  split
  · simp
  · simp only [bind, Except.bind]
    split
    · simp
    · split
      · simp
      · rename_i s hs
        intro h
        repeat' split at h
        all_goals first
          | exact ⟨s, _, hs, (Except.ok.inj h).symm⟩
          | cases h

/-- A section that is not the target stays as it is. -/
theorem relocate_other {m t : KernelImage} {p : Placing} {r : Reloc} (h : m.relocate p r = .ok t) {i : Nat} (hi : i ≠ r.target) :
    t.sections[i]? = m.sections[i]? := by
  obtain ⟨s, bs, -, rfl⟩ := relocate_cases h
  exact List.getElem?_set_ne (Ne.symm hi)

/-- Every section keeps its kind and its alignment. -/
theorem relocate_kinds {m t : KernelImage} {p : Placing} {r : Reloc} (h : m.relocate p r = .ok t) :
    t.sections.map (fun s => (s.kind, s.align)) = m.sections.map fun s => (s.kind, s.align) := by
  obtain ⟨s, bs, hs, rfl⟩ := relocate_cases h
  apply List.ext_getElem?
  intro i
  by_cases hi : i = r.target
  · subst hi
    obtain ⟨hl, he⟩ := List.getElem?_eq_some_iff.1 hs
    simp [hl, he]
  · simp [List.getElem?_set_ne (Ne.symm hi)]

/-- Nor do all the relocations change them. -/
theorem relocateAll_kinds {m t : KernelImage} {p : Placing} {rs : List Reloc} (h : m.relocateAll p rs = .ok t) :
    t.sections.map (fun s => (s.kind, s.align)) = m.sections.map fun s => (s.kind, s.align) := by
  induction rs generalizing m with
  | nil => simp only [KernelImage.relocateAll, Except.ok.injEq] at h; rw [h]
  | cons r rs ih =>
    simp only [KernelImage.relocateAll, bind, Except.bind] at h
    split at h
    · simp at h
    · rename_i hm
      rw [ih h, relocate_kinds hm]

end Sys2Proof.Laws
end

