-- ==== Sys2Proof/Laws/State.lean ====
section
/-! SUPPORT. What the named updates of the state, of a gang, of a block and of a sequencer leave in each field: one lemma
for each field. -/

namespace Sys2Proof.Machine

-- The state

@[simp] theorem State.setGang_ctr (s : State) (k : Nat) (G : Gang) : (s.setGang k G).ctr = s.ctr := rfl
@[simp] theorem State.setGang_inputs (s : State) (k : Nat) (G : Gang) : (s.setGang k G).inputs = s.inputs := rfl
@[simp] theorem State.setGang_now (s : State) (k : Nat) (G : Gang) : (s.setGang k G).now = s.now := rfl
@[simp] theorem State.setGang_hbm (s : State) (k : Nat) (G : Gang) : (s.setGang k G).hbm = s.hbm := rfl
@[simp] theorem State.setGang_hbmPoison (s : State) (k : Nat) (G : Gang) : (s.setGang k G).hbmPoison = s.hbmPoison := rfl
@[simp] theorem State.setGang_elide (s : State) (k : Nat) (G : Gang) : (s.setGang k G).elide = s.elide := rfl
@[simp] theorem State.setGang_elideConst (s : State) (k : Nat) (G : Gang) : (s.setGang k G).elideConst = s.elideConst := rfl
@[simp] theorem State.setGang_l2 (s : State) (k : Nat) (G : Gang) : (s.setGang k G).l2 = s.l2 := rfl
@[simp] theorem State.setGang_l2Dirty (s : State) (k : Nat) (G : Gang) : (s.setGang k G).l2Dirty = s.l2Dirty := rfl
@[simp] theorem State.setGang_rdc (s : State) (k : Nat) (G : Gang) : (s.setGang k G).rdc = s.rdc := rfl
@[simp] theorem State.setGang_stlb (s : State) (k : Nat) (G : Gang) : (s.setGang k G).stlb = s.stlb := rfl
@[simp] theorem State.setGang_walks (s : State) (k : Nat) (G : Gang) : (s.setGang k G).walks = s.walks := rfl
@[simp] theorem State.setGang_cores (s : State) (k : Nat) (G : Gang) : (s.setGang k G).cores = s.cores := rfl
@[simp] theorem State.setGang_blocks (s : State) (k : Nat) (G : Gang) : (s.setGang k G).blocks = s.blocks := rfl
@[simp] theorem State.setGang_ctxs (s : State) (k : Nat) (G : Gang) : (s.setGang k G).ctxs = s.ctxs := rfl
@[simp] theorem State.setGang_dieCtx (s : State) (k : Nat) (G : Gang) : (s.setGang k G).dieCtx = s.dieCtx := rfl
@[simp] theorem State.setGang_cur (s : State) (k : Nat) (G : Gang) : (s.setGang k G).cur = s.cur := rfl
@[simp] theorem State.setGang_monitors (s : State) (k : Nat) (G : Gang) : (s.setGang k G).monitors = s.monitors := rfl
@[simp] theorem State.setGang_copies (s : State) (k : Nat) (G : Gang) : (s.setGang k G).copies = s.copies := rfl
@[simp] theorem State.setGang_ensembles (s : State) (k : Nat) (G : Gang) : (s.setGang k G).ensembles = s.ensembles := rfl
@[simp] theorem State.setGang_htvec (s : State) (k : Nat) (G : Gang) : (s.setGang k G).htvec = s.htvec := rfl
@[simp] theorem State.setGang_hfq (s : State) (k : Nat) (G : Gang) : (s.setGang k G).hfq = s.hfq := rfl
@[simp] theorem State.setGang_fqTail (s : State) (k : Nat) (G : Gang) : (s.setGang k G).fqTail = s.fqTail := rfl
@[simp] theorem State.setGang_overflow (s : State) (k : Nat) (G : Gang) : (s.setGang k G).overflow = s.overflow := rfl
@[simp] theorem State.setGang_launches (s : State) (k : Nat) (G : Gang) : (s.setGang k G).launches = s.launches := rfl
@[simp] theorem State.setGang_crecs (s : State) (k : Nat) (G : Gang) : (s.setGang k G).crecs = s.crecs := rfl
@[simp] theorem State.setGang_graphs (s : State) (k : Nat) (G : Gang) : (s.setGang k G).graphs = s.graphs := rfl
@[simp] theorem State.setGang_queues (s : State) (k : Nat) (G : Gang) : (s.setGang k G).queues = s.queues := rfl
@[simp] theorem State.setGang_migrations (s : State) (k : Nat) (G : Gang) : (s.setGang k G).migrations = s.migrations := rfl
@[simp] theorem State.setGang_ticket (s : State) (k : Nat) (G : Gang) : (s.setGang k G).ticket = s.ticket := rfl
@[simp] theorem State.setGang_combine (s : State) (k : Nat) (G : Gang) : (s.setGang k G).combine = s.combine := rfl
@[simp] theorem State.setGang_requests (s : State) (k : Nat) (G : Gang) : (s.setGang k G).requests = s.requests := rfl
@[simp] theorem State.setGang_torn (s : State) (k : Nat) (G : Gang) : (s.setGang k G).torn = s.torn := rfl
@[simp] theorem State.setGang_seqNext (s : State) (k : Nat) (G : Gang) : (s.setGang k G).seqNext = s.seqNext := rfl
@[simp] theorem State.setGang_dups (s : State) (k : Nat) (G : Gang) : (s.setGang k G).dups = s.dups := rfl
@[simp] theorem State.setGang_links (s : State) (k : Nat) (G : Gang) : (s.setGang k G).links = s.links := rfl
@[simp] theorem State.setGang_boot (s : State) (k : Nat) (G : Gang) : (s.setGang k G).boot = s.boot := rfl
@[simp] theorem State.setGang_clusters (s : State) (k : Nat) (G : Gang) : (s.setGang k G).clusters = s.clusters := rfl
@[simp] theorem State.setGang_dies (s : State) (k : Nat) (G : Gang) : (s.setGang k G).dies = s.dies := rfl
@[simp] theorem State.setGang_limits (s : State) (k : Nat) (G : Gang) : (s.setGang k G).limits = s.limits := rfl
@[simp] theorem State.setGang_skew (s : State) (k : Nat) (G : Gang) : (s.setGang k G).skew = s.skew := rfl
@[simp] theorem State.setGang_corrected (s : State) (k : Nat) (G : Gang) : (s.setGang k G).corrected = s.corrected := rfl
@[simp] theorem State.setGang_latent (s : State) (k : Nat) (G : Gang) : (s.setGang k G).latent = s.latent := rfl
@[simp] theorem State.setGang_msix (s : State) (k : Nat) (G : Gang) : (s.setGang k G).msix = s.msix := rfl
@[simp] theorem State.setGang_homePoison (s : State) (k : Nat) (G : Gang) : (s.setGang k G).homePoison = s.homePoison := rfl
@[simp] theorem State.setGang_abortLog (s : State) (k : Nat) (G : Gang) : (s.setGang k G).abortLog = s.abortLog := rfl
@[simp] theorem State.setGang_homes (s : State) (k : Nat) (G : Gang) : (s.setGang k G).homes = s.homes := rfl
@[simp] theorem State.setGang_recv (s : State) (k : Nat) (G : Gang) : (s.setGang k G).recv = s.recv := rfl
@[simp] theorem State.setGang_back (s : State) (k : Nat) (G : Gang) : (s.setGang k G).back = s.back := rfl
@[simp] theorem State.setGang_convEnded (s : State) (k : Nat) (G : Gang) : (s.setGang k G).convEnded = s.convEnded := rfl
@[simp] theorem State.setGang_convRegion (s : State) (k : Nat) (G : Gang) : (s.setGang k G).convRegion = s.convRegion := rfl
@[simp] theorem State.setGang_copyTokens (s : State) (k : Nat) (G : Gang) : (s.setGang k G).copyTokens = s.copyTokens := rfl
@[simp] theorem State.setGang_heldNext (s : State) (k : Nat) (G : Gang) : (s.setGang k G).heldNext = s.heldNext := rfl
@[simp] theorem State.setGang_saves (s : State) (k : Nat) (G : Gang) : (s.setGang k G).saves = s.saves := rfl
@[simp] theorem State.setGang_images (s : State) (k : Nat) (G : Gang) : (s.setGang k G).images = s.images := rfl
@[simp] theorem State.setGang_unplaced (s : State) (k : Nat) (G : Gang) : (s.setGang k G).unplaced = s.unplaced := rfl
@[simp] theorem State.setGang_gangs (s : State) (k : Nat) (G : Gang) : (s.setGang k G).gangs = s.gangs.put k G := rfl

@[simp] theorem State.setBlock_ctr (s : State) (b : Nat) (B : Block) : (s.setBlock b B).ctr = s.ctr := rfl
@[simp] theorem State.setBlock_inputs (s : State) (b : Nat) (B : Block) : (s.setBlock b B).inputs = s.inputs := rfl
@[simp] theorem State.setBlock_now (s : State) (b : Nat) (B : Block) : (s.setBlock b B).now = s.now := rfl
@[simp] theorem State.setBlock_hbm (s : State) (b : Nat) (B : Block) : (s.setBlock b B).hbm = s.hbm := rfl
@[simp] theorem State.setBlock_hbmPoison (s : State) (b : Nat) (B : Block) : (s.setBlock b B).hbmPoison = s.hbmPoison := rfl
@[simp] theorem State.setBlock_elide (s : State) (b : Nat) (B : Block) : (s.setBlock b B).elide = s.elide := rfl
@[simp] theorem State.setBlock_elideConst (s : State) (b : Nat) (B : Block) : (s.setBlock b B).elideConst = s.elideConst := rfl
@[simp] theorem State.setBlock_l2 (s : State) (b : Nat) (B : Block) : (s.setBlock b B).l2 = s.l2 := rfl
@[simp] theorem State.setBlock_l2Dirty (s : State) (b : Nat) (B : Block) : (s.setBlock b B).l2Dirty = s.l2Dirty := rfl
@[simp] theorem State.setBlock_rdc (s : State) (b : Nat) (B : Block) : (s.setBlock b B).rdc = s.rdc := rfl
@[simp] theorem State.setBlock_stlb (s : State) (b : Nat) (B : Block) : (s.setBlock b B).stlb = s.stlb := rfl
@[simp] theorem State.setBlock_walks (s : State) (b : Nat) (B : Block) : (s.setBlock b B).walks = s.walks := rfl
@[simp] theorem State.setBlock_cores (s : State) (b : Nat) (B : Block) : (s.setBlock b B).cores = s.cores := rfl
@[simp] theorem State.setBlock_gangs (s : State) (b : Nat) (B : Block) : (s.setBlock b B).gangs = s.gangs := rfl
@[simp] theorem State.setBlock_ctxs (s : State) (b : Nat) (B : Block) : (s.setBlock b B).ctxs = s.ctxs := rfl
@[simp] theorem State.setBlock_dieCtx (s : State) (b : Nat) (B : Block) : (s.setBlock b B).dieCtx = s.dieCtx := rfl
@[simp] theorem State.setBlock_cur (s : State) (b : Nat) (B : Block) : (s.setBlock b B).cur = s.cur := rfl
@[simp] theorem State.setBlock_monitors (s : State) (b : Nat) (B : Block) : (s.setBlock b B).monitors = s.monitors := rfl
@[simp] theorem State.setBlock_copies (s : State) (b : Nat) (B : Block) : (s.setBlock b B).copies = s.copies := rfl
@[simp] theorem State.setBlock_ensembles (s : State) (b : Nat) (B : Block) : (s.setBlock b B).ensembles = s.ensembles := rfl
@[simp] theorem State.setBlock_htvec (s : State) (b : Nat) (B : Block) : (s.setBlock b B).htvec = s.htvec := rfl
@[simp] theorem State.setBlock_hfq (s : State) (b : Nat) (B : Block) : (s.setBlock b B).hfq = s.hfq := rfl
@[simp] theorem State.setBlock_fqTail (s : State) (b : Nat) (B : Block) : (s.setBlock b B).fqTail = s.fqTail := rfl
@[simp] theorem State.setBlock_overflow (s : State) (b : Nat) (B : Block) : (s.setBlock b B).overflow = s.overflow := rfl
@[simp] theorem State.setBlock_launches (s : State) (b : Nat) (B : Block) : (s.setBlock b B).launches = s.launches := rfl
@[simp] theorem State.setBlock_crecs (s : State) (b : Nat) (B : Block) : (s.setBlock b B).crecs = s.crecs := rfl
@[simp] theorem State.setBlock_graphs (s : State) (b : Nat) (B : Block) : (s.setBlock b B).graphs = s.graphs := rfl
@[simp] theorem State.setBlock_queues (s : State) (b : Nat) (B : Block) : (s.setBlock b B).queues = s.queues := rfl
@[simp] theorem State.setBlock_migrations (s : State) (b : Nat) (B : Block) : (s.setBlock b B).migrations = s.migrations := rfl
@[simp] theorem State.setBlock_ticket (s : State) (b : Nat) (B : Block) : (s.setBlock b B).ticket = s.ticket := rfl
@[simp] theorem State.setBlock_combine (s : State) (b : Nat) (B : Block) : (s.setBlock b B).combine = s.combine := rfl
@[simp] theorem State.setBlock_requests (s : State) (b : Nat) (B : Block) : (s.setBlock b B).requests = s.requests := rfl
@[simp] theorem State.setBlock_torn (s : State) (b : Nat) (B : Block) : (s.setBlock b B).torn = s.torn := rfl
@[simp] theorem State.setBlock_seqNext (s : State) (b : Nat) (B : Block) : (s.setBlock b B).seqNext = s.seqNext := rfl
@[simp] theorem State.setBlock_dups (s : State) (b : Nat) (B : Block) : (s.setBlock b B).dups = s.dups := rfl
@[simp] theorem State.setBlock_links (s : State) (b : Nat) (B : Block) : (s.setBlock b B).links = s.links := rfl
@[simp] theorem State.setBlock_boot (s : State) (b : Nat) (B : Block) : (s.setBlock b B).boot = s.boot := rfl
@[simp] theorem State.setBlock_clusters (s : State) (b : Nat) (B : Block) : (s.setBlock b B).clusters = s.clusters := rfl
@[simp] theorem State.setBlock_dies (s : State) (b : Nat) (B : Block) : (s.setBlock b B).dies = s.dies := rfl
@[simp] theorem State.setBlock_limits (s : State) (b : Nat) (B : Block) : (s.setBlock b B).limits = s.limits := rfl
@[simp] theorem State.setBlock_skew (s : State) (b : Nat) (B : Block) : (s.setBlock b B).skew = s.skew := rfl
@[simp] theorem State.setBlock_corrected (s : State) (b : Nat) (B : Block) : (s.setBlock b B).corrected = s.corrected := rfl
@[simp] theorem State.setBlock_latent (s : State) (b : Nat) (B : Block) : (s.setBlock b B).latent = s.latent := rfl
@[simp] theorem State.setBlock_msix (s : State) (b : Nat) (B : Block) : (s.setBlock b B).msix = s.msix := rfl
@[simp] theorem State.setBlock_homePoison (s : State) (b : Nat) (B : Block) : (s.setBlock b B).homePoison = s.homePoison := rfl
@[simp] theorem State.setBlock_abortLog (s : State) (b : Nat) (B : Block) : (s.setBlock b B).abortLog = s.abortLog := rfl
@[simp] theorem State.setBlock_homes (s : State) (b : Nat) (B : Block) : (s.setBlock b B).homes = s.homes := rfl
@[simp] theorem State.setBlock_recv (s : State) (b : Nat) (B : Block) : (s.setBlock b B).recv = s.recv := rfl
@[simp] theorem State.setBlock_back (s : State) (b : Nat) (B : Block) : (s.setBlock b B).back = s.back := rfl
@[simp] theorem State.setBlock_convEnded (s : State) (b : Nat) (B : Block) : (s.setBlock b B).convEnded = s.convEnded := rfl
@[simp] theorem State.setBlock_convRegion (s : State) (b : Nat) (B : Block) : (s.setBlock b B).convRegion = s.convRegion := rfl
@[simp] theorem State.setBlock_copyTokens (s : State) (b : Nat) (B : Block) : (s.setBlock b B).copyTokens = s.copyTokens := rfl
@[simp] theorem State.setBlock_heldNext (s : State) (b : Nat) (B : Block) : (s.setBlock b B).heldNext = s.heldNext := rfl
@[simp] theorem State.setBlock_saves (s : State) (b : Nat) (B : Block) : (s.setBlock b B).saves = s.saves := rfl
@[simp] theorem State.setBlock_images (s : State) (b : Nat) (B : Block) : (s.setBlock b B).images = s.images := rfl
@[simp] theorem State.setBlock_unplaced (s : State) (b : Nat) (B : Block) : (s.setBlock b B).unplaced = s.unplaced := rfl
@[simp] theorem State.setBlock_blocks (s : State) (b : Nat) (B : Block) : (s.setBlock b B).blocks = s.blocks.put b B := rfl

@[simp] theorem State.setCore_ctr (s : State) (c : Nat) (K : Core) : (s.setCore c K).ctr = s.ctr := rfl
@[simp] theorem State.setCore_inputs (s : State) (c : Nat) (K : Core) : (s.setCore c K).inputs = s.inputs := rfl
@[simp] theorem State.setCore_now (s : State) (c : Nat) (K : Core) : (s.setCore c K).now = s.now := rfl
@[simp] theorem State.setCore_hbm (s : State) (c : Nat) (K : Core) : (s.setCore c K).hbm = s.hbm := rfl
@[simp] theorem State.setCore_hbmPoison (s : State) (c : Nat) (K : Core) : (s.setCore c K).hbmPoison = s.hbmPoison := rfl
@[simp] theorem State.setCore_elide (s : State) (c : Nat) (K : Core) : (s.setCore c K).elide = s.elide := rfl
@[simp] theorem State.setCore_elideConst (s : State) (c : Nat) (K : Core) : (s.setCore c K).elideConst = s.elideConst := rfl
@[simp] theorem State.setCore_l2 (s : State) (c : Nat) (K : Core) : (s.setCore c K).l2 = s.l2 := rfl
@[simp] theorem State.setCore_l2Dirty (s : State) (c : Nat) (K : Core) : (s.setCore c K).l2Dirty = s.l2Dirty := rfl
@[simp] theorem State.setCore_rdc (s : State) (c : Nat) (K : Core) : (s.setCore c K).rdc = s.rdc := rfl
@[simp] theorem State.setCore_stlb (s : State) (c : Nat) (K : Core) : (s.setCore c K).stlb = s.stlb := rfl
@[simp] theorem State.setCore_walks (s : State) (c : Nat) (K : Core) : (s.setCore c K).walks = s.walks := rfl
@[simp] theorem State.setCore_gangs (s : State) (c : Nat) (K : Core) : (s.setCore c K).gangs = s.gangs := rfl
@[simp] theorem State.setCore_blocks (s : State) (c : Nat) (K : Core) : (s.setCore c K).blocks = s.blocks := rfl
@[simp] theorem State.setCore_ctxs (s : State) (c : Nat) (K : Core) : (s.setCore c K).ctxs = s.ctxs := rfl
@[simp] theorem State.setCore_dieCtx (s : State) (c : Nat) (K : Core) : (s.setCore c K).dieCtx = s.dieCtx := rfl
@[simp] theorem State.setCore_cur (s : State) (c : Nat) (K : Core) : (s.setCore c K).cur = s.cur := rfl
@[simp] theorem State.setCore_monitors (s : State) (c : Nat) (K : Core) : (s.setCore c K).monitors = s.monitors := rfl
@[simp] theorem State.setCore_copies (s : State) (c : Nat) (K : Core) : (s.setCore c K).copies = s.copies := rfl
@[simp] theorem State.setCore_ensembles (s : State) (c : Nat) (K : Core) : (s.setCore c K).ensembles = s.ensembles := rfl
@[simp] theorem State.setCore_htvec (s : State) (c : Nat) (K : Core) : (s.setCore c K).htvec = s.htvec := rfl
@[simp] theorem State.setCore_hfq (s : State) (c : Nat) (K : Core) : (s.setCore c K).hfq = s.hfq := rfl
@[simp] theorem State.setCore_fqTail (s : State) (c : Nat) (K : Core) : (s.setCore c K).fqTail = s.fqTail := rfl
@[simp] theorem State.setCore_overflow (s : State) (c : Nat) (K : Core) : (s.setCore c K).overflow = s.overflow := rfl
@[simp] theorem State.setCore_launches (s : State) (c : Nat) (K : Core) : (s.setCore c K).launches = s.launches := rfl
@[simp] theorem State.setCore_crecs (s : State) (c : Nat) (K : Core) : (s.setCore c K).crecs = s.crecs := rfl
@[simp] theorem State.setCore_graphs (s : State) (c : Nat) (K : Core) : (s.setCore c K).graphs = s.graphs := rfl
@[simp] theorem State.setCore_queues (s : State) (c : Nat) (K : Core) : (s.setCore c K).queues = s.queues := rfl
@[simp] theorem State.setCore_migrations (s : State) (c : Nat) (K : Core) : (s.setCore c K).migrations = s.migrations := rfl
@[simp] theorem State.setCore_ticket (s : State) (c : Nat) (K : Core) : (s.setCore c K).ticket = s.ticket := rfl
@[simp] theorem State.setCore_combine (s : State) (c : Nat) (K : Core) : (s.setCore c K).combine = s.combine := rfl
@[simp] theorem State.setCore_requests (s : State) (c : Nat) (K : Core) : (s.setCore c K).requests = s.requests := rfl
@[simp] theorem State.setCore_torn (s : State) (c : Nat) (K : Core) : (s.setCore c K).torn = s.torn := rfl
@[simp] theorem State.setCore_seqNext (s : State) (c : Nat) (K : Core) : (s.setCore c K).seqNext = s.seqNext := rfl
@[simp] theorem State.setCore_dups (s : State) (c : Nat) (K : Core) : (s.setCore c K).dups = s.dups := rfl
@[simp] theorem State.setCore_links (s : State) (c : Nat) (K : Core) : (s.setCore c K).links = s.links := rfl
@[simp] theorem State.setCore_boot (s : State) (c : Nat) (K : Core) : (s.setCore c K).boot = s.boot := rfl
@[simp] theorem State.setCore_clusters (s : State) (c : Nat) (K : Core) : (s.setCore c K).clusters = s.clusters := rfl
@[simp] theorem State.setCore_dies (s : State) (c : Nat) (K : Core) : (s.setCore c K).dies = s.dies := rfl
@[simp] theorem State.setCore_limits (s : State) (c : Nat) (K : Core) : (s.setCore c K).limits = s.limits := rfl
@[simp] theorem State.setCore_skew (s : State) (c : Nat) (K : Core) : (s.setCore c K).skew = s.skew := rfl
@[simp] theorem State.setCore_corrected (s : State) (c : Nat) (K : Core) : (s.setCore c K).corrected = s.corrected := rfl
@[simp] theorem State.setCore_latent (s : State) (c : Nat) (K : Core) : (s.setCore c K).latent = s.latent := rfl
@[simp] theorem State.setCore_msix (s : State) (c : Nat) (K : Core) : (s.setCore c K).msix = s.msix := rfl
@[simp] theorem State.setCore_homePoison (s : State) (c : Nat) (K : Core) : (s.setCore c K).homePoison = s.homePoison := rfl
@[simp] theorem State.setCore_abortLog (s : State) (c : Nat) (K : Core) : (s.setCore c K).abortLog = s.abortLog := rfl
@[simp] theorem State.setCore_homes (s : State) (c : Nat) (K : Core) : (s.setCore c K).homes = s.homes := rfl
@[simp] theorem State.setCore_recv (s : State) (c : Nat) (K : Core) : (s.setCore c K).recv = s.recv := rfl
@[simp] theorem State.setCore_back (s : State) (c : Nat) (K : Core) : (s.setCore c K).back = s.back := rfl
@[simp] theorem State.setCore_convEnded (s : State) (c : Nat) (K : Core) : (s.setCore c K).convEnded = s.convEnded := rfl
@[simp] theorem State.setCore_convRegion (s : State) (c : Nat) (K : Core) : (s.setCore c K).convRegion = s.convRegion := rfl
@[simp] theorem State.setCore_copyTokens (s : State) (c : Nat) (K : Core) : (s.setCore c K).copyTokens = s.copyTokens := rfl
@[simp] theorem State.setCore_heldNext (s : State) (c : Nat) (K : Core) : (s.setCore c K).heldNext = s.heldNext := rfl
@[simp] theorem State.setCore_saves (s : State) (c : Nat) (K : Core) : (s.setCore c K).saves = s.saves := rfl
@[simp] theorem State.setCore_images (s : State) (c : Nat) (K : Core) : (s.setCore c K).images = s.images := rfl
@[simp] theorem State.setCore_unplaced (s : State) (c : Nat) (K : Core) : (s.setCore c K).unplaced = s.unplaced := rfl
@[simp] theorem State.setCore_cores (s : State) (c : Nat) (K : Core) : (s.setCore c K).cores = s.cores.put c K := rfl

@[simp] theorem State.putL1_ctr (s : State) (c n : Nat) (x : L1Sector) : (s.putL1 c n x).ctr = s.ctr := rfl
@[simp] theorem State.putL1_inputs (s : State) (c n : Nat) (x : L1Sector) : (s.putL1 c n x).inputs = s.inputs := rfl
@[simp] theorem State.putL1_now (s : State) (c n : Nat) (x : L1Sector) : (s.putL1 c n x).now = s.now := rfl
@[simp] theorem State.putL1_hbm (s : State) (c n : Nat) (x : L1Sector) : (s.putL1 c n x).hbm = s.hbm := rfl
@[simp] theorem State.putL1_hbmPoison (s : State) (c n : Nat) (x : L1Sector) : (s.putL1 c n x).hbmPoison = s.hbmPoison := rfl
@[simp] theorem State.putL1_elide (s : State) (c n : Nat) (x : L1Sector) : (s.putL1 c n x).elide = s.elide := rfl
@[simp] theorem State.putL1_elideConst (s : State) (c n : Nat) (x : L1Sector) : (s.putL1 c n x).elideConst = s.elideConst := rfl
@[simp] theorem State.putL1_l2 (s : State) (c n : Nat) (x : L1Sector) : (s.putL1 c n x).l2 = s.l2 := rfl
@[simp] theorem State.putL1_l2Dirty (s : State) (c n : Nat) (x : L1Sector) : (s.putL1 c n x).l2Dirty = s.l2Dirty := rfl
@[simp] theorem State.putL1_rdc (s : State) (c n : Nat) (x : L1Sector) : (s.putL1 c n x).rdc = s.rdc := rfl
@[simp] theorem State.putL1_stlb (s : State) (c n : Nat) (x : L1Sector) : (s.putL1 c n x).stlb = s.stlb := rfl
@[simp] theorem State.putL1_walks (s : State) (c n : Nat) (x : L1Sector) : (s.putL1 c n x).walks = s.walks := rfl
@[simp] theorem State.putL1_gangs (s : State) (c n : Nat) (x : L1Sector) : (s.putL1 c n x).gangs = s.gangs := rfl
@[simp] theorem State.putL1_blocks (s : State) (c n : Nat) (x : L1Sector) : (s.putL1 c n x).blocks = s.blocks := rfl
@[simp] theorem State.putL1_ctxs (s : State) (c n : Nat) (x : L1Sector) : (s.putL1 c n x).ctxs = s.ctxs := rfl
@[simp] theorem State.putL1_dieCtx (s : State) (c n : Nat) (x : L1Sector) : (s.putL1 c n x).dieCtx = s.dieCtx := rfl
@[simp] theorem State.putL1_cur (s : State) (c n : Nat) (x : L1Sector) : (s.putL1 c n x).cur = s.cur := rfl
@[simp] theorem State.putL1_monitors (s : State) (c n : Nat) (x : L1Sector) : (s.putL1 c n x).monitors = s.monitors := rfl
@[simp] theorem State.putL1_copies (s : State) (c n : Nat) (x : L1Sector) : (s.putL1 c n x).copies = s.copies := rfl
@[simp] theorem State.putL1_ensembles (s : State) (c n : Nat) (x : L1Sector) : (s.putL1 c n x).ensembles = s.ensembles := rfl
@[simp] theorem State.putL1_htvec (s : State) (c n : Nat) (x : L1Sector) : (s.putL1 c n x).htvec = s.htvec := rfl
@[simp] theorem State.putL1_hfq (s : State) (c n : Nat) (x : L1Sector) : (s.putL1 c n x).hfq = s.hfq := rfl
@[simp] theorem State.putL1_fqTail (s : State) (c n : Nat) (x : L1Sector) : (s.putL1 c n x).fqTail = s.fqTail := rfl
@[simp] theorem State.putL1_overflow (s : State) (c n : Nat) (x : L1Sector) : (s.putL1 c n x).overflow = s.overflow := rfl
@[simp] theorem State.putL1_launches (s : State) (c n : Nat) (x : L1Sector) : (s.putL1 c n x).launches = s.launches := rfl
@[simp] theorem State.putL1_crecs (s : State) (c n : Nat) (x : L1Sector) : (s.putL1 c n x).crecs = s.crecs := rfl
@[simp] theorem State.putL1_graphs (s : State) (c n : Nat) (x : L1Sector) : (s.putL1 c n x).graphs = s.graphs := rfl
@[simp] theorem State.putL1_queues (s : State) (c n : Nat) (x : L1Sector) : (s.putL1 c n x).queues = s.queues := rfl
@[simp] theorem State.putL1_migrations (s : State) (c n : Nat) (x : L1Sector) : (s.putL1 c n x).migrations = s.migrations := rfl
@[simp] theorem State.putL1_ticket (s : State) (c n : Nat) (x : L1Sector) : (s.putL1 c n x).ticket = s.ticket := rfl
@[simp] theorem State.putL1_combine (s : State) (c n : Nat) (x : L1Sector) : (s.putL1 c n x).combine = s.combine := rfl
@[simp] theorem State.putL1_requests (s : State) (c n : Nat) (x : L1Sector) : (s.putL1 c n x).requests = s.requests := rfl
@[simp] theorem State.putL1_torn (s : State) (c n : Nat) (x : L1Sector) : (s.putL1 c n x).torn = s.torn := rfl
@[simp] theorem State.putL1_seqNext (s : State) (c n : Nat) (x : L1Sector) : (s.putL1 c n x).seqNext = s.seqNext := rfl
@[simp] theorem State.putL1_dups (s : State) (c n : Nat) (x : L1Sector) : (s.putL1 c n x).dups = s.dups := rfl
@[simp] theorem State.putL1_links (s : State) (c n : Nat) (x : L1Sector) : (s.putL1 c n x).links = s.links := rfl
@[simp] theorem State.putL1_boot (s : State) (c n : Nat) (x : L1Sector) : (s.putL1 c n x).boot = s.boot := rfl
@[simp] theorem State.putL1_clusters (s : State) (c n : Nat) (x : L1Sector) : (s.putL1 c n x).clusters = s.clusters := rfl
@[simp] theorem State.putL1_dies (s : State) (c n : Nat) (x : L1Sector) : (s.putL1 c n x).dies = s.dies := rfl
@[simp] theorem State.putL1_limits (s : State) (c n : Nat) (x : L1Sector) : (s.putL1 c n x).limits = s.limits := rfl
@[simp] theorem State.putL1_skew (s : State) (c n : Nat) (x : L1Sector) : (s.putL1 c n x).skew = s.skew := rfl
@[simp] theorem State.putL1_corrected (s : State) (c n : Nat) (x : L1Sector) : (s.putL1 c n x).corrected = s.corrected := rfl
@[simp] theorem State.putL1_latent (s : State) (c n : Nat) (x : L1Sector) : (s.putL1 c n x).latent = s.latent := rfl
@[simp] theorem State.putL1_msix (s : State) (c n : Nat) (x : L1Sector) : (s.putL1 c n x).msix = s.msix := rfl
@[simp] theorem State.putL1_homePoison (s : State) (c n : Nat) (x : L1Sector) : (s.putL1 c n x).homePoison = s.homePoison := rfl
@[simp] theorem State.putL1_abortLog (s : State) (c n : Nat) (x : L1Sector) : (s.putL1 c n x).abortLog = s.abortLog := rfl
@[simp] theorem State.putL1_homes (s : State) (c n : Nat) (x : L1Sector) : (s.putL1 c n x).homes = s.homes := rfl
@[simp] theorem State.putL1_recv (s : State) (c n : Nat) (x : L1Sector) : (s.putL1 c n x).recv = s.recv := rfl
@[simp] theorem State.putL1_back (s : State) (c n : Nat) (x : L1Sector) : (s.putL1 c n x).back = s.back := rfl
@[simp] theorem State.putL1_convEnded (s : State) (c n : Nat) (x : L1Sector) : (s.putL1 c n x).convEnded = s.convEnded := rfl
@[simp] theorem State.putL1_convRegion (s : State) (c n : Nat) (x : L1Sector) : (s.putL1 c n x).convRegion = s.convRegion := rfl
@[simp] theorem State.putL1_copyTokens (s : State) (c n : Nat) (x : L1Sector) : (s.putL1 c n x).copyTokens = s.copyTokens := rfl
@[simp] theorem State.putL1_heldNext (s : State) (c n : Nat) (x : L1Sector) : (s.putL1 c n x).heldNext = s.heldNext := rfl
@[simp] theorem State.putL1_saves (s : State) (c n : Nat) (x : L1Sector) : (s.putL1 c n x).saves = s.saves := rfl
@[simp] theorem State.putL1_images (s : State) (c n : Nat) (x : L1Sector) : (s.putL1 c n x).images = s.images := rfl
@[simp] theorem State.putL1_unplaced (s : State) (c n : Nat) (x : L1Sector) : (s.putL1 c n x).unplaced = s.unplaced := rfl

@[simp] theorem State.wake_ctr (s : State) (p : Place → Bool) : (s.wake p).ctr = s.ctr := rfl
@[simp] theorem State.wake_inputs (s : State) (p : Place → Bool) : (s.wake p).inputs = s.inputs := rfl
@[simp] theorem State.wake_now (s : State) (p : Place → Bool) : (s.wake p).now = s.now := rfl
@[simp] theorem State.wake_hbm (s : State) (p : Place → Bool) : (s.wake p).hbm = s.hbm := rfl
@[simp] theorem State.wake_hbmPoison (s : State) (p : Place → Bool) : (s.wake p).hbmPoison = s.hbmPoison := rfl
@[simp] theorem State.wake_elide (s : State) (p : Place → Bool) : (s.wake p).elide = s.elide := rfl
@[simp] theorem State.wake_elideConst (s : State) (p : Place → Bool) : (s.wake p).elideConst = s.elideConst := rfl
@[simp] theorem State.wake_l2 (s : State) (p : Place → Bool) : (s.wake p).l2 = s.l2 := rfl
@[simp] theorem State.wake_l2Dirty (s : State) (p : Place → Bool) : (s.wake p).l2Dirty = s.l2Dirty := rfl
@[simp] theorem State.wake_rdc (s : State) (p : Place → Bool) : (s.wake p).rdc = s.rdc := rfl
@[simp] theorem State.wake_stlb (s : State) (p : Place → Bool) : (s.wake p).stlb = s.stlb := rfl
@[simp] theorem State.wake_walks (s : State) (p : Place → Bool) : (s.wake p).walks = s.walks := rfl
@[simp] theorem State.wake_cores (s : State) (p : Place → Bool) : (s.wake p).cores = s.cores := rfl
@[simp] theorem State.wake_gangs (s : State) (p : Place → Bool) : (s.wake p).gangs = s.gangs := rfl
@[simp] theorem State.wake_blocks (s : State) (p : Place → Bool) : (s.wake p).blocks = s.blocks := rfl
@[simp] theorem State.wake_ctxs (s : State) (p : Place → Bool) : (s.wake p).ctxs = s.ctxs := rfl
@[simp] theorem State.wake_dieCtx (s : State) (p : Place → Bool) : (s.wake p).dieCtx = s.dieCtx := rfl
@[simp] theorem State.wake_cur (s : State) (p : Place → Bool) : (s.wake p).cur = s.cur := rfl
@[simp] theorem State.wake_copies (s : State) (p : Place → Bool) : (s.wake p).copies = s.copies := rfl
@[simp] theorem State.wake_ensembles (s : State) (p : Place → Bool) : (s.wake p).ensembles = s.ensembles := rfl
@[simp] theorem State.wake_htvec (s : State) (p : Place → Bool) : (s.wake p).htvec = s.htvec := rfl
@[simp] theorem State.wake_hfq (s : State) (p : Place → Bool) : (s.wake p).hfq = s.hfq := rfl
@[simp] theorem State.wake_fqTail (s : State) (p : Place → Bool) : (s.wake p).fqTail = s.fqTail := rfl
@[simp] theorem State.wake_overflow (s : State) (p : Place → Bool) : (s.wake p).overflow = s.overflow := rfl
@[simp] theorem State.wake_launches (s : State) (p : Place → Bool) : (s.wake p).launches = s.launches := rfl
@[simp] theorem State.wake_crecs (s : State) (p : Place → Bool) : (s.wake p).crecs = s.crecs := rfl
@[simp] theorem State.wake_graphs (s : State) (p : Place → Bool) : (s.wake p).graphs = s.graphs := rfl
@[simp] theorem State.wake_queues (s : State) (p : Place → Bool) : (s.wake p).queues = s.queues := rfl
@[simp] theorem State.wake_migrations (s : State) (p : Place → Bool) : (s.wake p).migrations = s.migrations := rfl
@[simp] theorem State.wake_ticket (s : State) (p : Place → Bool) : (s.wake p).ticket = s.ticket := rfl
@[simp] theorem State.wake_combine (s : State) (p : Place → Bool) : (s.wake p).combine = s.combine := rfl
@[simp] theorem State.wake_requests (s : State) (p : Place → Bool) : (s.wake p).requests = s.requests := rfl
@[simp] theorem State.wake_torn (s : State) (p : Place → Bool) : (s.wake p).torn = s.torn := rfl
@[simp] theorem State.wake_seqNext (s : State) (p : Place → Bool) : (s.wake p).seqNext = s.seqNext := rfl
@[simp] theorem State.wake_dups (s : State) (p : Place → Bool) : (s.wake p).dups = s.dups := rfl
@[simp] theorem State.wake_links (s : State) (p : Place → Bool) : (s.wake p).links = s.links := rfl
@[simp] theorem State.wake_boot (s : State) (p : Place → Bool) : (s.wake p).boot = s.boot := rfl
@[simp] theorem State.wake_clusters (s : State) (p : Place → Bool) : (s.wake p).clusters = s.clusters := rfl
@[simp] theorem State.wake_dies (s : State) (p : Place → Bool) : (s.wake p).dies = s.dies := rfl
@[simp] theorem State.wake_limits (s : State) (p : Place → Bool) : (s.wake p).limits = s.limits := rfl
@[simp] theorem State.wake_skew (s : State) (p : Place → Bool) : (s.wake p).skew = s.skew := rfl
@[simp] theorem State.wake_corrected (s : State) (p : Place → Bool) : (s.wake p).corrected = s.corrected := rfl
@[simp] theorem State.wake_latent (s : State) (p : Place → Bool) : (s.wake p).latent = s.latent := rfl
@[simp] theorem State.wake_msix (s : State) (p : Place → Bool) : (s.wake p).msix = s.msix := rfl
@[simp] theorem State.wake_homePoison (s : State) (p : Place → Bool) : (s.wake p).homePoison = s.homePoison := rfl
@[simp] theorem State.wake_abortLog (s : State) (p : Place → Bool) : (s.wake p).abortLog = s.abortLog := rfl
@[simp] theorem State.wake_homes (s : State) (p : Place → Bool) : (s.wake p).homes = s.homes := rfl
@[simp] theorem State.wake_recv (s : State) (p : Place → Bool) : (s.wake p).recv = s.recv := rfl
@[simp] theorem State.wake_back (s : State) (p : Place → Bool) : (s.wake p).back = s.back := rfl
@[simp] theorem State.wake_convEnded (s : State) (p : Place → Bool) : (s.wake p).convEnded = s.convEnded := rfl
@[simp] theorem State.wake_convRegion (s : State) (p : Place → Bool) : (s.wake p).convRegion = s.convRegion := rfl
@[simp] theorem State.wake_copyTokens (s : State) (p : Place → Bool) : (s.wake p).copyTokens = s.copyTokens := rfl
@[simp] theorem State.wake_heldNext (s : State) (p : Place → Bool) : (s.wake p).heldNext = s.heldNext := rfl
@[simp] theorem State.wake_saves (s : State) (p : Place → Bool) : (s.wake p).saves = s.saves := rfl
@[simp] theorem State.wake_images (s : State) (p : Place → Bool) : (s.wake p).images = s.images := rfl
@[simp] theorem State.wake_unplaced (s : State) (p : Place → Bool) : (s.wake p).unplaced = s.unplaced := rfl

@[simp] theorem State.dramPoison_ctr (s : State) (ws : SMap PByte) : (s.dramPoison ws).ctr = s.ctr := rfl
@[simp] theorem State.dramPoison_inputs (s : State) (ws : SMap PByte) : (s.dramPoison ws).inputs = s.inputs := rfl
@[simp] theorem State.dramPoison_now (s : State) (ws : SMap PByte) : (s.dramPoison ws).now = s.now := rfl
@[simp] theorem State.dramPoison_hbm (s : State) (ws : SMap PByte) : (s.dramPoison ws).hbm = s.hbm := rfl
@[simp] theorem State.dramPoison_elide (s : State) (ws : SMap PByte) : (s.dramPoison ws).elide = s.elide := rfl
@[simp] theorem State.dramPoison_elideConst (s : State) (ws : SMap PByte) : (s.dramPoison ws).elideConst = s.elideConst := rfl
@[simp] theorem State.dramPoison_l2 (s : State) (ws : SMap PByte) : (s.dramPoison ws).l2 = s.l2 := rfl
@[simp] theorem State.dramPoison_l2Dirty (s : State) (ws : SMap PByte) : (s.dramPoison ws).l2Dirty = s.l2Dirty := rfl
@[simp] theorem State.dramPoison_rdc (s : State) (ws : SMap PByte) : (s.dramPoison ws).rdc = s.rdc := rfl
@[simp] theorem State.dramPoison_stlb (s : State) (ws : SMap PByte) : (s.dramPoison ws).stlb = s.stlb := rfl
@[simp] theorem State.dramPoison_walks (s : State) (ws : SMap PByte) : (s.dramPoison ws).walks = s.walks := rfl
@[simp] theorem State.dramPoison_cores (s : State) (ws : SMap PByte) : (s.dramPoison ws).cores = s.cores := rfl
@[simp] theorem State.dramPoison_gangs (s : State) (ws : SMap PByte) : (s.dramPoison ws).gangs = s.gangs := rfl
@[simp] theorem State.dramPoison_blocks (s : State) (ws : SMap PByte) : (s.dramPoison ws).blocks = s.blocks := rfl
@[simp] theorem State.dramPoison_ctxs (s : State) (ws : SMap PByte) : (s.dramPoison ws).ctxs = s.ctxs := rfl
@[simp] theorem State.dramPoison_dieCtx (s : State) (ws : SMap PByte) : (s.dramPoison ws).dieCtx = s.dieCtx := rfl
@[simp] theorem State.dramPoison_cur (s : State) (ws : SMap PByte) : (s.dramPoison ws).cur = s.cur := rfl
@[simp] theorem State.dramPoison_monitors (s : State) (ws : SMap PByte) : (s.dramPoison ws).monitors = s.monitors := rfl
@[simp] theorem State.dramPoison_copies (s : State) (ws : SMap PByte) : (s.dramPoison ws).copies = s.copies := rfl
@[simp] theorem State.dramPoison_ensembles (s : State) (ws : SMap PByte) : (s.dramPoison ws).ensembles = s.ensembles := rfl
@[simp] theorem State.dramPoison_htvec (s : State) (ws : SMap PByte) : (s.dramPoison ws).htvec = s.htvec := rfl
@[simp] theorem State.dramPoison_hfq (s : State) (ws : SMap PByte) : (s.dramPoison ws).hfq = s.hfq := rfl
@[simp] theorem State.dramPoison_fqTail (s : State) (ws : SMap PByte) : (s.dramPoison ws).fqTail = s.fqTail := rfl
@[simp] theorem State.dramPoison_overflow (s : State) (ws : SMap PByte) : (s.dramPoison ws).overflow = s.overflow := rfl
@[simp] theorem State.dramPoison_launches (s : State) (ws : SMap PByte) : (s.dramPoison ws).launches = s.launches := rfl
@[simp] theorem State.dramPoison_crecs (s : State) (ws : SMap PByte) : (s.dramPoison ws).crecs = s.crecs := rfl
@[simp] theorem State.dramPoison_graphs (s : State) (ws : SMap PByte) : (s.dramPoison ws).graphs = s.graphs := rfl
@[simp] theorem State.dramPoison_queues (s : State) (ws : SMap PByte) : (s.dramPoison ws).queues = s.queues := rfl
@[simp] theorem State.dramPoison_migrations (s : State) (ws : SMap PByte) : (s.dramPoison ws).migrations = s.migrations := rfl
@[simp] theorem State.dramPoison_ticket (s : State) (ws : SMap PByte) : (s.dramPoison ws).ticket = s.ticket := rfl
@[simp] theorem State.dramPoison_combine (s : State) (ws : SMap PByte) : (s.dramPoison ws).combine = s.combine := rfl
@[simp] theorem State.dramPoison_requests (s : State) (ws : SMap PByte) : (s.dramPoison ws).requests = s.requests := rfl
@[simp] theorem State.dramPoison_torn (s : State) (ws : SMap PByte) : (s.dramPoison ws).torn = s.torn := rfl
@[simp] theorem State.dramPoison_seqNext (s : State) (ws : SMap PByte) : (s.dramPoison ws).seqNext = s.seqNext := rfl
@[simp] theorem State.dramPoison_dups (s : State) (ws : SMap PByte) : (s.dramPoison ws).dups = s.dups := rfl
@[simp] theorem State.dramPoison_links (s : State) (ws : SMap PByte) : (s.dramPoison ws).links = s.links := rfl
@[simp] theorem State.dramPoison_boot (s : State) (ws : SMap PByte) : (s.dramPoison ws).boot = s.boot := rfl
@[simp] theorem State.dramPoison_clusters (s : State) (ws : SMap PByte) : (s.dramPoison ws).clusters = s.clusters := rfl
@[simp] theorem State.dramPoison_dies (s : State) (ws : SMap PByte) : (s.dramPoison ws).dies = s.dies := rfl
@[simp] theorem State.dramPoison_limits (s : State) (ws : SMap PByte) : (s.dramPoison ws).limits = s.limits := rfl
@[simp] theorem State.dramPoison_skew (s : State) (ws : SMap PByte) : (s.dramPoison ws).skew = s.skew := rfl
@[simp] theorem State.dramPoison_corrected (s : State) (ws : SMap PByte) : (s.dramPoison ws).corrected = s.corrected := rfl
@[simp] theorem State.dramPoison_latent (s : State) (ws : SMap PByte) : (s.dramPoison ws).latent = s.latent := rfl
@[simp] theorem State.dramPoison_msix (s : State) (ws : SMap PByte) : (s.dramPoison ws).msix = s.msix := rfl
@[simp] theorem State.dramPoison_homePoison (s : State) (ws : SMap PByte) : (s.dramPoison ws).homePoison = s.homePoison := rfl
@[simp] theorem State.dramPoison_abortLog (s : State) (ws : SMap PByte) : (s.dramPoison ws).abortLog = s.abortLog := rfl
@[simp] theorem State.dramPoison_homes (s : State) (ws : SMap PByte) : (s.dramPoison ws).homes = s.homes := rfl
@[simp] theorem State.dramPoison_recv (s : State) (ws : SMap PByte) : (s.dramPoison ws).recv = s.recv := rfl
@[simp] theorem State.dramPoison_back (s : State) (ws : SMap PByte) : (s.dramPoison ws).back = s.back := rfl
@[simp] theorem State.dramPoison_convEnded (s : State) (ws : SMap PByte) : (s.dramPoison ws).convEnded = s.convEnded := rfl
@[simp] theorem State.dramPoison_convRegion (s : State) (ws : SMap PByte) : (s.dramPoison ws).convRegion = s.convRegion := rfl
@[simp] theorem State.dramPoison_copyTokens (s : State) (ws : SMap PByte) : (s.dramPoison ws).copyTokens = s.copyTokens := rfl
@[simp] theorem State.dramPoison_heldNext (s : State) (ws : SMap PByte) : (s.dramPoison ws).heldNext = s.heldNext := rfl
@[simp] theorem State.dramPoison_saves (s : State) (ws : SMap PByte) : (s.dramPoison ws).saves = s.saves := rfl
@[simp] theorem State.dramPoison_images (s : State) (ws : SMap PByte) : (s.dramPoison ws).images = s.images := rfl
@[simp] theorem State.dramPoison_unplaced (s : State) (ws : SMap PByte) : (s.dramPoison ws).unplaced = s.unplaced := rfl

-- A gang

@[simp] theorem Gang.putLane_block (G : Gang) (l : Nat) (L : Lane) : (G.putLane l L).block = G.block := rfl
@[simp] theorem Gang.putLane_number (G : Gang) (l : Nat) (L : Lane) : (G.putLane l L).number = G.number := rfl
@[simp] theorem Gang.putLane_k (G : Gang) (l : Nat) (L : Lane) : (G.putLane l L).k = G.k := rfl
@[simp] theorem Gang.putLane_kp (G : Gang) (l : Nat) (L : Lane) : (G.putLane l L).kp = G.kp := rfl
@[simp] theorem Gang.putLane_h (G : Gang) (l : Nat) (L : Lane) : (G.putLane l L).h = G.h := rfl
@[simp] theorem Gang.putLane_hids (G : Gang) (l : Nat) (L : Lane) : (G.putLane l L).hids = G.hids := rfl
@[simp] theorem Gang.putLane_alloc (G : Gang) (l : Nat) (L : Lane) : (G.putLane l L).alloc = G.alloc := rfl
@[simp] theorem Gang.putLane_reconv (G : Gang) (l : Nat) (L : Lane) : (G.putLane l L).reconv = G.reconv := rfl
@[simp] theorem Gang.putLane_waits (G : Gang) (l : Nat) (L : Lane) : (G.putLane l L).waits = G.waits := rfl
@[simp] theorem Gang.putLane_hold (G : Gang) (l : Nat) (L : Lane) : (G.putLane l L).hold = G.hold := rfl
@[simp] theorem Gang.putLane_batch (G : Gang) (l : Nat) (L : Lane) : (G.putLane l L).batch = G.batch := rfl
@[simp] theorem Gang.putLane_openCopies (G : Gang) (l : Nat) (L : Lane) : (G.putLane l L).openCopies = G.openCopies := rfl
@[simp] theorem Gang.putLane_sealed (G : Gang) (l : Nat) (L : Lane) : (G.putLane l L).sealed = G.sealed := rfl
@[simp] theorem Gang.putLane_copyFaults (G : Gang) (l : Nat) (L : Lane) : (G.putLane l L).copyFaults = G.copyFaults := rfl
@[simp] theorem Gang.putLane_heldFaults (G : Gang) (l : Nat) (L : Lane) : (G.putLane l L).heldFaults = G.heldFaults := rfl
@[simp] theorem Gang.putLane_line (G : Gang) (l : Nat) (L : Lane) : (G.putLane l L).line = G.line := rfl
@[simp] theorem Gang.putLane_walkFaults (G : Gang) (l : Nat) (L : Lane) : (G.putLane l L).walkFaults = G.walkFaults := rfl
@[simp] theorem Gang.putLane_refetched (G : Gang) (l : Nat) (L : Lane) : (G.putLane l L).refetched = G.refetched := rfl
@[simp] theorem Gang.putLane_flight (G : Gang) (l : Nat) (L : Lane) : (G.putLane l L).flight = G.flight := rfl
@[simp] theorem Gang.putLane_answers (G : Gang) (l : Nat) (L : Lane) : (G.putLane l L).answers = G.answers := rfl
@[simp] theorem Gang.putLane_waited (G : Gang) (l : Nat) (L : Lane) : (G.putLane l L).waited = G.waited := rfl

@[simp] theorem Gang.putK_block (G : Gang) (n : Nat) (w : Word) (p : Bool) : (G.putK n w p).block = G.block := rfl
@[simp] theorem Gang.putK_number (G : Gang) (n : Nat) (w : Word) (p : Bool) : (G.putK n w p).number = G.number := rfl
@[simp] theorem Gang.putK_lanes (G : Gang) (n : Nat) (w : Word) (p : Bool) : (G.putK n w p).lanes = G.lanes := rfl
@[simp] theorem Gang.putK_h (G : Gang) (n : Nat) (w : Word) (p : Bool) : (G.putK n w p).h = G.h := rfl
@[simp] theorem Gang.putK_hids (G : Gang) (n : Nat) (w : Word) (p : Bool) : (G.putK n w p).hids = G.hids := rfl
@[simp] theorem Gang.putK_alloc (G : Gang) (n : Nat) (w : Word) (p : Bool) : (G.putK n w p).alloc = G.alloc := rfl
@[simp] theorem Gang.putK_reconv (G : Gang) (n : Nat) (w : Word) (p : Bool) : (G.putK n w p).reconv = G.reconv := rfl
@[simp] theorem Gang.putK_waits (G : Gang) (n : Nat) (w : Word) (p : Bool) : (G.putK n w p).waits = G.waits := rfl
@[simp] theorem Gang.putK_hold (G : Gang) (n : Nat) (w : Word) (p : Bool) : (G.putK n w p).hold = G.hold := rfl
@[simp] theorem Gang.putK_batch (G : Gang) (n : Nat) (w : Word) (p : Bool) : (G.putK n w p).batch = G.batch := rfl
@[simp] theorem Gang.putK_openCopies (G : Gang) (n : Nat) (w : Word) (p : Bool) : (G.putK n w p).openCopies = G.openCopies := rfl
@[simp] theorem Gang.putK_sealed (G : Gang) (n : Nat) (w : Word) (p : Bool) : (G.putK n w p).sealed = G.sealed := rfl
@[simp] theorem Gang.putK_copyFaults (G : Gang) (n : Nat) (w : Word) (p : Bool) : (G.putK n w p).copyFaults = G.copyFaults := rfl
@[simp] theorem Gang.putK_heldFaults (G : Gang) (n : Nat) (w : Word) (p : Bool) : (G.putK n w p).heldFaults = G.heldFaults := rfl
@[simp] theorem Gang.putK_line (G : Gang) (n : Nat) (w : Word) (p : Bool) : (G.putK n w p).line = G.line := rfl
@[simp] theorem Gang.putK_walkFaults (G : Gang) (n : Nat) (w : Word) (p : Bool) : (G.putK n w p).walkFaults = G.walkFaults := rfl
@[simp] theorem Gang.putK_refetched (G : Gang) (n : Nat) (w : Word) (p : Bool) : (G.putK n w p).refetched = G.refetched := rfl
@[simp] theorem Gang.putK_flight (G : Gang) (n : Nat) (w : Word) (p : Bool) : (G.putK n w p).flight = G.flight := rfl
@[simp] theorem Gang.putK_answers (G : Gang) (n : Nat) (w : Word) (p : Bool) : (G.putK n w p).answers = G.answers := rfl
@[simp] theorem Gang.putK_waited (G : Gang) (n : Nat) (w : Word) (p : Bool) : (G.putK n w p).waited = G.waited := rfl
@[simp] theorem Gang.putK_k (G : Gang) (n : Nat) (w : Word) (p : Bool) : (G.putK n w p).k = G.k.write 0 n w := rfl
@[simp] theorem Gang.putK_kp (G : Gang) (n : Nat) (w : Word) (p : Bool) : (G.putK n w p).kp = G.kp.write false n p := rfl

@[simp] theorem Gang.settled_block (G : Gang) (m : Mask) : (G.settled m).block = G.block := rfl
@[simp] theorem Gang.settled_number (G : Gang) (m : Mask) : (G.settled m).number = G.number := rfl
@[simp] theorem Gang.settled_lanes (G : Gang) (m : Mask) : (G.settled m).lanes = G.lanes := rfl
@[simp] theorem Gang.settled_k (G : Gang) (m : Mask) : (G.settled m).k = G.k := rfl
@[simp] theorem Gang.settled_kp (G : Gang) (m : Mask) : (G.settled m).kp = G.kp := rfl
@[simp] theorem Gang.settled_h (G : Gang) (m : Mask) : (G.settled m).h = G.h := rfl
@[simp] theorem Gang.settled_hids (G : Gang) (m : Mask) : (G.settled m).hids = G.hids := rfl
@[simp] theorem Gang.settled_alloc (G : Gang) (m : Mask) : (G.settled m).alloc = G.alloc := rfl
@[simp] theorem Gang.settled_reconv (G : Gang) (m : Mask) : (G.settled m).reconv = G.reconv := rfl
@[simp] theorem Gang.settled_waits (G : Gang) (m : Mask) : (G.settled m).waits = G.waits := rfl
@[simp] theorem Gang.settled_hold (G : Gang) (m : Mask) : (G.settled m).hold = G.hold := rfl
@[simp] theorem Gang.settled_batch (G : Gang) (m : Mask) : (G.settled m).batch = G.batch := rfl
@[simp] theorem Gang.settled_openCopies (G : Gang) (m : Mask) : (G.settled m).openCopies = G.openCopies := rfl
@[simp] theorem Gang.settled_sealed (G : Gang) (m : Mask) : (G.settled m).sealed = G.sealed := rfl
@[simp] theorem Gang.settled_copyFaults (G : Gang) (m : Mask) : (G.settled m).copyFaults = G.copyFaults := rfl
@[simp] theorem Gang.settled_heldFaults (G : Gang) (m : Mask) : (G.settled m).heldFaults = G.heldFaults := rfl
@[simp] theorem Gang.settled_line (G : Gang) (m : Mask) : (G.settled m).line = G.line := rfl
@[simp] theorem Gang.settled_flight (G : Gang) (m : Mask) : (G.settled m).flight = G.flight := rfl
@[simp] theorem Gang.settled_waited (G : Gang) (m : Mask) : (G.settled m).waited = G.waited := rfl

@[simp] theorem Gang.unwait_block (G : Gang) (m : Mask) : (G.unwait m).block = G.block := rfl
@[simp] theorem Gang.unwait_number (G : Gang) (m : Mask) : (G.unwait m).number = G.number := rfl
@[simp] theorem Gang.unwait_lanes (G : Gang) (m : Mask) : (G.unwait m).lanes = G.lanes := rfl
@[simp] theorem Gang.unwait_k (G : Gang) (m : Mask) : (G.unwait m).k = G.k := rfl
@[simp] theorem Gang.unwait_kp (G : Gang) (m : Mask) : (G.unwait m).kp = G.kp := rfl
@[simp] theorem Gang.unwait_h (G : Gang) (m : Mask) : (G.unwait m).h = G.h := rfl
@[simp] theorem Gang.unwait_hids (G : Gang) (m : Mask) : (G.unwait m).hids = G.hids := rfl
@[simp] theorem Gang.unwait_alloc (G : Gang) (m : Mask) : (G.unwait m).alloc = G.alloc := rfl
@[simp] theorem Gang.unwait_reconv (G : Gang) (m : Mask) : (G.unwait m).reconv = G.reconv := rfl
@[simp] theorem Gang.unwait_hold (G : Gang) (m : Mask) : (G.unwait m).hold = G.hold := rfl
@[simp] theorem Gang.unwait_batch (G : Gang) (m : Mask) : (G.unwait m).batch = G.batch := rfl
@[simp] theorem Gang.unwait_openCopies (G : Gang) (m : Mask) : (G.unwait m).openCopies = G.openCopies := rfl
@[simp] theorem Gang.unwait_sealed (G : Gang) (m : Mask) : (G.unwait m).sealed = G.sealed := rfl
@[simp] theorem Gang.unwait_copyFaults (G : Gang) (m : Mask) : (G.unwait m).copyFaults = G.copyFaults := rfl
@[simp] theorem Gang.unwait_heldFaults (G : Gang) (m : Mask) : (G.unwait m).heldFaults = G.heldFaults := rfl
@[simp] theorem Gang.unwait_line (G : Gang) (m : Mask) : (G.unwait m).line = G.line := rfl
@[simp] theorem Gang.unwait_walkFaults (G : Gang) (m : Mask) : (G.unwait m).walkFaults = G.walkFaults := rfl
@[simp] theorem Gang.unwait_refetched (G : Gang) (m : Mask) : (G.unwait m).refetched = G.refetched := rfl
@[simp] theorem Gang.unwait_flight (G : Gang) (m : Mask) : (G.unwait m).flight = G.flight := rfl
@[simp] theorem Gang.unwait_answers (G : Gang) (m : Mask) : (G.unwait m).answers = G.answers := rfl
@[simp] theorem Gang.unwait_waited (G : Gang) (m : Mask) : (G.unwait m).waited = G.waited := rfl

-- A block

@[simp] theorem Block.lsWrite_core (B : Block) (ws : SMap PByte) : (B.lsWrite ws).core = B.core := rfl
@[simp] theorem Block.lsWrite_ctx (B : Block) (ws : SMap PByte) : (B.lsWrite ws).ctx = B.ctx := rfl
@[simp] theorem Block.lsWrite_tag (B : Block) (ws : SMap PByte) : (B.lsWrite ws).tag = B.tag := rfl
@[simp] theorem Block.lsWrite_index (B : Block) (ws : SMap PByte) : (B.lsWrite ws).index = B.index := rfl
@[simp] theorem Block.lsWrite_slots (B : Block) (ws : SMap PByte) : (B.lsWrite ws).slots = B.slots := rfl
@[simp] theorem Block.lsWrite_coord (B : Block) (ws : SMap PByte) : (B.lsWrite ws).coord = B.coord := rfl
@[simp] theorem Block.lsWrite_tile (B : Block) (ws : SMap PByte) : (B.lsWrite ws).tile = B.tile := rfl
@[simp] theorem Block.lsWrite_hint (B : Block) (ws : SMap PByte) : (B.lsWrite ws).hint = B.hint := rfl
@[simp] theorem Block.lsWrite_recPa (B : Block) (ws : SMap PByte) : (B.lsWrite ws).recPa = B.recPa := rfl
@[simp] theorem Block.lsWrite_tileNode (B : Block) (ws : SMap PByte) : (B.lsWrite ws).tileNode = B.tileNode := rfl
@[simp] theorem Block.lsWrite_retired (B : Block) (ws : SMap PByte) : (B.lsWrite ws).retired = B.retired := rfl
@[simp] theorem Block.lsWrite_ens (B : Block) (ws : SMap PByte) : (B.lsWrite ws).ens = B.ens := rfl
@[simp] theorem Block.lsWrite_member (B : Block) (ws : SMap PByte) : (B.lsWrite ws).member = B.member := rfl
@[simp] theorem Block.lsWrite_lsb (B : Block) (ws : SMap PByte) : (B.lsWrite ws).lsb = B.lsb := rfl
@[simp] theorem Block.lsWrite_regs (B : Block) (ws : SMap PByte) : (B.lsWrite ws).regs = B.regs := rfl
@[simp] theorem Block.lsWrite_bars (B : Block) (ws : SMap PByte) : (B.lsWrite ws).bars = B.bars := rfl
@[simp] theorem Block.lsWrite_ebars (B : Block) (ws : SMap PByte) : (B.lsWrite ws).ebars = B.ebars := rfl
@[simp] theorem Block.lsWrite_cbars (B : Block) (ws : SMap PByte) : (B.lsWrite ws).cbars = B.cbars := rfl
@[simp] theorem Block.lsWrite_claimsMatrix (B : Block) (ws : SMap PByte) : (B.lsWrite ws).claimsMatrix = B.claimsMatrix := rfl
@[simp] theorem Block.lsWrite_claimsCopy (B : Block) (ws : SMap PByte) : (B.lsWrite ws).claimsCopy = B.claimsCopy := rfl
@[simp] theorem Block.lsWrite_barriers (B : Block) (ws : SMap PByte) : (B.lsWrite ws).barriers = B.barriers := rfl
@[simp] theorem Block.lsWrite_party (B : Block) (ws : SMap PByte) : (B.lsWrite ws).party = B.party := rfl
@[simp] theorem Block.lsWrite_mseq (B : Block) (ws : SMap PByte) : (B.lsWrite ws).mseq = B.mseq := rfl
@[simp] theorem Block.lsWrite_acc (B : Block) (ws : SMap PByte) : (B.lsWrite ws).acc = B.acc := rfl
@[simp] theorem Block.lsWrite_latchA (B : Block) (ws : SMap PByte) : (B.lsWrite ws).latchA = B.latchA := rfl
@[simp] theorem Block.lsWrite_latchB (B : Block) (ws : SMap PByte) : (B.lsWrite ws).latchB = B.latchB := rfl
@[simp] theorem Block.lsWrite_cseq (B : Block) (ws : SMap PByte) : (B.lsWrite ws).cseq = B.cseq := rfl
@[simp] theorem Block.lsWrite_credits (B : Block) (ws : SMap PByte) : (B.lsWrite ws).credits = B.credits := rfl
@[simp] theorem Block.lsWrite_cont (B : Block) (ws : SMap PByte) : (B.lsWrite ws).cont = B.cont := rfl
@[simp] theorem Block.lsWrite_cancelled (B : Block) (ws : SMap PByte) : (B.lsWrite ws).cancelled = B.cancelled := rfl

-- A sequencer

@[simp] theorem Seq.advance_run (q : Seq) : (q.advance).run = q.run := rfl
@[simp] theorem Seq.advance_r (q : Seq) : (q.advance).r = q.r := rfl
@[simp] theorem Seq.advance_rp (q : Seq) : (q.advance).rp = q.rp := rfl
@[simp] theorem Seq.advance_p (q : Seq) : (q.advance).p = q.p := rfl
@[simp] theorem Seq.advance_pp (q : Seq) : (q.advance).pp = q.pp := rfl
@[simp] theorem Seq.advance_mflags (q : Seq) : (q.advance).mflags = q.mflags := rfl
@[simp] theorem Seq.advance_stop (q : Seq) : (q.advance).stop = q.stop := rfl
@[simp] theorem Seq.advance_wait (q : Seq) : (q.advance).wait = q.wait := rfl
@[simp] theorem Seq.advance_line (q : Seq) : (q.advance).line = q.line := rfl
@[simp] theorem Seq.advance_checkTarget (q : Seq) : (q.advance).checkTarget = q.checkTarget := rfl
@[simp] theorem Seq.advance_exiting (q : Seq) : (q.advance).exiting = q.exiting := rfl
@[simp] theorem Seq.advance_cancelled (q : Seq) : (q.advance).cancelled = q.cancelled := rfl
@[simp] theorem Seq.advance_copyFault (q : Seq) : (q.advance).copyFault = q.copyFault := rfl
@[simp] theorem Seq.advance_pc (q : Seq) : (q.advance).pc = succ q.pc := rfl
@[simp] theorem Seq.advance_walkFaults (q : Seq) : (q.advance).walkFaults = [] := rfl
@[simp] theorem Seq.advance_refetched (q : Seq) : (q.advance).refetched = none := rfl

@[simp] theorem Seq.putR_run (q : Seq) (n : Nat) (w : Word) (p : Bool) : (q.putR n w p).run = q.run := rfl
@[simp] theorem Seq.putR_pc (q : Seq) (n : Nat) (w : Word) (p : Bool) : (q.putR n w p).pc = q.pc := rfl
@[simp] theorem Seq.putR_p (q : Seq) (n : Nat) (w : Word) (p : Bool) : (q.putR n w p).p = q.p := rfl
@[simp] theorem Seq.putR_pp (q : Seq) (n : Nat) (w : Word) (p : Bool) : (q.putR n w p).pp = q.pp := rfl
@[simp] theorem Seq.putR_mflags (q : Seq) (n : Nat) (w : Word) (p : Bool) : (q.putR n w p).mflags = q.mflags := rfl
@[simp] theorem Seq.putR_stop (q : Seq) (n : Nat) (w : Word) (p : Bool) : (q.putR n w p).stop = q.stop := rfl
@[simp] theorem Seq.putR_wait (q : Seq) (n : Nat) (w : Word) (p : Bool) : (q.putR n w p).wait = q.wait := rfl
@[simp] theorem Seq.putR_line (q : Seq) (n : Nat) (w : Word) (p : Bool) : (q.putR n w p).line = q.line := rfl
@[simp] theorem Seq.putR_walkFaults (q : Seq) (n : Nat) (w : Word) (p : Bool) : (q.putR n w p).walkFaults = q.walkFaults := rfl
@[simp] theorem Seq.putR_refetched (q : Seq) (n : Nat) (w : Word) (p : Bool) : (q.putR n w p).refetched = q.refetched := rfl
@[simp] theorem Seq.putR_checkTarget (q : Seq) (n : Nat) (w : Word) (p : Bool) : (q.putR n w p).checkTarget = q.checkTarget := rfl
@[simp] theorem Seq.putR_exiting (q : Seq) (n : Nat) (w : Word) (p : Bool) : (q.putR n w p).exiting = q.exiting := rfl
@[simp] theorem Seq.putR_cancelled (q : Seq) (n : Nat) (w : Word) (p : Bool) : (q.putR n w p).cancelled = q.cancelled := rfl
@[simp] theorem Seq.putR_copyFault (q : Seq) (n : Nat) (w : Word) (p : Bool) : (q.putR n w p).copyFault = q.copyFault := rfl
@[simp] theorem Seq.putR_r (q : Seq) (n : Nat) (w : Word) (p : Bool) : (q.putR n w p).r = q.r.write 0 n w := rfl
@[simp] theorem Seq.putR_rp (q : Seq) (n : Nat) (w : Word) (p : Bool) : (q.putR n w p).rp = q.rp.write false n p := rfl

-- A lane

@[simp] theorem Lane.putP_x (L : Lane) (p : BitVec 3) (b x : Bool) : (L.putP p b x).x = L.x := rfl
@[simp] theorem Lane.putP_xp (L : Lane) (p : BitVec 3) (b x : Bool) : (L.putP p b x).xp = L.xp := rfl
@[simp] theorem Lane.putP_p (L : Lane) (p : BitVec 3) (b x : Bool) : (L.putP p b x).p = setBit8 L.p p b := rfl
@[simp] theorem Lane.putP_pp (L : Lane) (p : BitVec 3) (b x : Bool) : (L.putP p b x).pp = setBit8 L.pp p x := rfl
@[simp] theorem Lane.putP_pc (L : Lane) (p : BitVec 3) (b x : Bool) : (L.putP p b x).pc = L.pc := rfl
@[simp] theorem Lane.putP_mode (L : Lane) (p : BitVec 3) (b x : Bool) : (L.putP p b x).mode = L.mode := rfl
@[simp] theorem Lane.putP_life (L : Lane) (p : BitVec 3) (b x : Bool) : (L.putP p b x).life = L.life := rfl
@[simp] theorem Lane.putP_fflags (L : Lane) (p : BitVec 3) (b x : Bool) : (L.putP p b x).fflags = L.fflags := rfl
@[simp] theorem Lane.putP_spc (L : Lane) (p : BitVec 3) (b x : Bool) : (L.putP p b x).spc = L.spc := rfl
@[simp] theorem Lane.putP_scause (L : Lane) (p : BitVec 3) (b x : Bool) : (L.putP p b x).scause = L.scause := rfl
@[simp] theorem Lane.putP_stval (L : Lane) (p : BitVec 3) (b x : Bool) : (L.putP p b x).stval = L.stval := rfl
@[simp] theorem Lane.putP_spm (L : Lane) (p : BitVec 3) (b x : Bool) : (L.putP p b x).spm = L.spm := rfl
@[simp] theorem Lane.putP_depth (L : Lane) (p : BitVec 3) (b x : Bool) : (L.putP p b x).depth = L.depth := rfl
@[simp] theorem Lane.putP_incont (L : Lane) (p : BitVec 3) (b x : Bool) : (L.putP p b x).incont = L.incont := rfl
@[simp] theorem Lane.putP_sscratch (L : Lane) (p : BitVec 3) (b x : Bool) : (L.putP p b x).sscratch = L.sscratch := rfl
@[simp] theorem Lane.putP_ospc (L : Lane) (p : BitVec 3) (b x : Bool) : (L.putP p b x).ospc = L.ospc := rfl
@[simp] theorem Lane.putP_oscause (L : Lane) (p : BitVec 3) (b x : Bool) : (L.putP p b x).oscause = L.oscause := rfl
@[simp] theorem Lane.putP_ostval (L : Lane) (p : BitVec 3) (b x : Bool) : (L.putP p b x).ostval = L.ostval := rfl
@[simp] theorem Lane.putP_osstat (L : Lane) (p : BitVec 3) (b x : Bool) : (L.putP p b x).osstat = L.osstat := rfl
@[simp] theorem Lane.putP_hpc (L : Lane) (p : BitVec 3) (b x : Bool) : (L.putP p b x).hpc = L.hpc := rfl
@[simp] theorem Lane.putP_hcause (L : Lane) (p : BitVec 3) (b x : Bool) : (L.putP p b x).hcause = L.hcause := rfl
@[simp] theorem Lane.putP_htval (L : Lane) (p : BitVec 3) (b x : Bool) : (L.putP p b x).htval = L.htval := rfl
@[simp] theorem Lane.putP_hpm (L : Lane) (p : BitVec 3) (b x : Bool) : (L.putP p b x).hpm = L.hpm := rfl
@[simp] theorem Lane.putP_sdep (L : Lane) (p : BitVec 3) (b x : Bool) : (L.putP p b x).sdep = L.sdep := rfl
@[simp] theorem Lane.putP_esc (L : Lane) (p : BitVec 3) (b x : Bool) : (L.putP p b x).esc = L.esc := rfl
@[simp] theorem Lane.putP_hd (L : Lane) (p : BitVec 3) (b x : Bool) : (L.putP p b x).hd = L.hd := rfl
@[simp] theorem Lane.putP_hscratch (L : Lane) (p : BitVec 3) (b x : Bool) : (L.putP p b x).hscratch = L.hscratch := rfl
@[simp] theorem Lane.putP_contPc (L : Lane) (p : BitVec 3) (b x : Bool) : (L.putP p b x).contPc = L.contPc := rfl
@[simp] theorem Lane.putP_contX1 (L : Lane) (p : BitVec 3) (b x : Bool) : (L.putP p b x).contX1 = L.contX1 := rfl
@[simp] theorem Lane.putP_contX1p (L : Lane) (p : BitVec 3) (b x : Bool) : (L.putP p b x).contX1p = L.contX1p := rfl
@[simp] theorem Lane.putP_contToken (L : Lane) (p : BitVec 3) (b x : Bool) : (L.putP p b x).contToken = L.contToken := rfl
@[simp] theorem Lane.putP_waited (L : Lane) (p : BitVec 3) (b x : Bool) : (L.putP p b x).waited = L.waited := rfl
@[simp] theorem Lane.putP_checkTarget (L : Lane) (p : BitVec 3) (b x : Bool) : (L.putP p b x).checkTarget = L.checkTarget := rfl
@[simp] theorem Lane.putP_checkEntry (L : Lane) (p : BitVec 3) (b x : Bool) : (L.putP p b x).checkEntry = L.checkEntry := rfl

@[simp] theorem Lane.enterH_x (L : Lane) (c : BitVec 8) (cw : Word) (v pc vec : DWord) : (L.enterH c cw v pc vec).x = L.x := rfl
@[simp] theorem Lane.enterH_xp (L : Lane) (c : BitVec 8) (cw : Word) (v pc vec : DWord) : (L.enterH c cw v pc vec).xp = L.xp := rfl
@[simp] theorem Lane.enterH_p (L : Lane) (c : BitVec 8) (cw : Word) (v pc vec : DWord) : (L.enterH c cw v pc vec).p = L.p := rfl
@[simp] theorem Lane.enterH_pp (L : Lane) (c : BitVec 8) (cw : Word) (v pc vec : DWord) : (L.enterH c cw v pc vec).pp = L.pp := rfl
@[simp] theorem Lane.enterH_pc (L : Lane) (c : BitVec 8) (cw : Word) (v pc vec : DWord) : (L.enterH c cw v pc vec).pc = vec &&& ~~~0x3F := rfl
@[simp] theorem Lane.enterH_mode (L : Lane) (c : BitVec 8) (cw : Word) (v pc vec : DWord) : (L.enterH c cw v pc vec).mode = .hypervisor := rfl
@[simp] theorem Lane.enterH_life (L : Lane) (c : BitVec 8) (cw : Word) (v pc vec : DWord) : (L.enterH c cw v pc vec).life = L.life := rfl
@[simp] theorem Lane.enterH_fflags (L : Lane) (c : BitVec 8) (cw : Word) (v pc vec : DWord) : (L.enterH c cw v pc vec).fflags = L.fflags := rfl
@[simp] theorem Lane.enterH_spc (L : Lane) (c : BitVec 8) (cw : Word) (v pc vec : DWord) : (L.enterH c cw v pc vec).spc = L.spc := rfl
@[simp] theorem Lane.enterH_scause (L : Lane) (c : BitVec 8) (cw : Word) (v pc vec : DWord) : (L.enterH c cw v pc vec).scause = L.scause := rfl
@[simp] theorem Lane.enterH_stval (L : Lane) (c : BitVec 8) (cw : Word) (v pc vec : DWord) : (L.enterH c cw v pc vec).stval = L.stval := rfl
@[simp] theorem Lane.enterH_spm (L : Lane) (c : BitVec 8) (cw : Word) (v pc vec : DWord) : (L.enterH c cw v pc vec).spm = L.spm := rfl
@[simp] theorem Lane.enterH_depth (L : Lane) (c : BitVec 8) (cw : Word) (v pc vec : DWord) : (L.enterH c cw v pc vec).depth = L.depth := rfl
@[simp] theorem Lane.enterH_incont (L : Lane) (c : BitVec 8) (cw : Word) (v pc vec : DWord) : (L.enterH c cw v pc vec).incont = L.incont := rfl
@[simp] theorem Lane.enterH_sscratch (L : Lane) (c : BitVec 8) (cw : Word) (v pc vec : DWord) : (L.enterH c cw v pc vec).sscratch = L.sscratch := rfl
@[simp] theorem Lane.enterH_ospc (L : Lane) (c : BitVec 8) (cw : Word) (v pc vec : DWord) : (L.enterH c cw v pc vec).ospc = L.ospc := rfl
@[simp] theorem Lane.enterH_oscause (L : Lane) (c : BitVec 8) (cw : Word) (v pc vec : DWord) : (L.enterH c cw v pc vec).oscause = L.oscause := rfl
@[simp] theorem Lane.enterH_ostval (L : Lane) (c : BitVec 8) (cw : Word) (v pc vec : DWord) : (L.enterH c cw v pc vec).ostval = L.ostval := rfl
@[simp] theorem Lane.enterH_osstat (L : Lane) (c : BitVec 8) (cw : Word) (v pc vec : DWord) : (L.enterH c cw v pc vec).osstat = L.osstat := rfl
@[simp] theorem Lane.enterH_hpc (L : Lane) (c : BitVec 8) (cw : Word) (v pc vec : DWord) : (L.enterH c cw v pc vec).hpc = pc := rfl
@[simp] theorem Lane.enterH_hcause (L : Lane) (c : BitVec 8) (cw : Word) (v pc vec : DWord) : (L.enterH c cw v pc vec).hcause = cw := rfl
@[simp] theorem Lane.enterH_htval (L : Lane) (c : BitVec 8) (cw : Word) (v pc vec : DWord) : (L.enterH c cw v pc vec).htval = v := rfl
@[simp] theorem Lane.enterH_hpm (L : Lane) (c : BitVec 8) (cw : Word) (v pc vec : DWord) : (L.enterH c cw v pc vec).hpm = modeCode L.mode := rfl
@[simp] theorem Lane.enterH_sdep (L : Lane) (c : BitVec 8) (cw : Word) (v pc vec : DWord) : (L.enterH c cw v pc vec).sdep = L.depth := rfl
@[simp] theorem Lane.enterH_hd (L : Lane) (c : BitVec 8) (cw : Word) (v pc vec : DWord) : (L.enterH c cw v pc vec).hd = true := rfl
@[simp] theorem Lane.enterH_hscratch (L : Lane) (c : BitVec 8) (cw : Word) (v pc vec : DWord) : (L.enterH c cw v pc vec).hscratch = L.hscratch := rfl
@[simp] theorem Lane.enterH_contPc (L : Lane) (c : BitVec 8) (cw : Word) (v pc vec : DWord) : (L.enterH c cw v pc vec).contPc = L.contPc := rfl
@[simp] theorem Lane.enterH_contX1 (L : Lane) (c : BitVec 8) (cw : Word) (v pc vec : DWord) : (L.enterH c cw v pc vec).contX1 = L.contX1 := rfl
@[simp] theorem Lane.enterH_contX1p (L : Lane) (c : BitVec 8) (cw : Word) (v pc vec : DWord) : (L.enterH c cw v pc vec).contX1p = L.contX1p := rfl
@[simp] theorem Lane.enterH_contToken (L : Lane) (c : BitVec 8) (cw : Word) (v pc vec : DWord) : (L.enterH c cw v pc vec).contToken = L.contToken := rfl
@[simp] theorem Lane.enterH_waited (L : Lane) (c : BitVec 8) (cw : Word) (v pc vec : DWord) : (L.enterH c cw v pc vec).waited = L.waited := rfl
@[simp] theorem Lane.enterH_checkTarget (L : Lane) (c : BitVec 8) (cw : Word) (v pc vec : DWord) : (L.enterH c cw v pc vec).checkTarget = false := rfl
@[simp] theorem Lane.enterH_checkEntry (L : Lane) (c : BitVec 8) (cw : Word) (v pc vec : DWord) : (L.enterH c cw v pc vec).checkEntry = false := rfl

end Sys2Proof.Machine
end

