-- ==== Sys2Proof/Laws/Memory.lean ====
section
/-! SUPPORT. Every operation over memory keeps the canonical form of the device's byte memories, and so do the operations
of the caches over it; the state after reset has it. -/

namespace Sys2Proof.Machine

-- What the canonical form is about

theorem memoryWf_iff (s : State) : s.memoryWf = true ↔
    Memory.wf s.hbm = true ∧ Memory.wf s.boot.staging = true ∧ (∀ b ∈ s.blocks, Memory.wf b.2.ls = true) ∧
      ∀ i ∈ s.images, Memory.wf i.2.block.ls = true := by
  simp only [State.memoryWf, Bool.and_eq_true, List.all_eq_true]
  tauto

/-- A state with the same memories is in canonical form if the first is. -/
theorem memoryWf_congr {s t : State} (h : s.memoryWf = true) (h₁ : t.hbm = s.hbm) (h₂ : t.boot = s.boot)
    (h₃ : t.blocks = s.blocks) (h₄ : t.images = s.images) : t.memoryWf = true := by
  simpa only [State.memoryWf, h₁, h₂, h₃, h₄] using h

/-- A state that differs in its DRAM, which is in canonical form. -/
theorem memoryWf_of_hbm {s t : State} (h : s.memoryWf = true) (h₁ : Memory.wf t.hbm = true) (h₂ : t.boot = s.boot)
    (h₃ : t.blocks = s.blocks) (h₄ : t.images = s.images) : t.memoryWf = true := by
  rw [memoryWf_iff] at h ⊢
  rw [h₂, h₃, h₄]
  exact ⟨h₁, h.2⟩

theorem memoryWf_reset : State.reset.memoryWf = true := rfl

/-- A fold keeps the canonical form if each of its steps does. -/
theorem memoryWf_foldl {α : Type} (f : State → α → State) (hf : ∀ s x, s.memoryWf = true → (f s x).memoryWf = true)
    (xs : List α) {s : State} (h : s.memoryWf = true) : (xs.foldl f s).memoryWf = true := by
  induction xs generalizing s with
  | nil => exact h
  | cons x xs ih => exact ih (hf s x h)

-- Parts other than memory

theorem memoryWf_setGang {s : State} (k : Nat) (G : Gang) (h : s.memoryWf = true) : (s.setGang k G).memoryWf = true :=
  memoryWf_congr h rfl rfl rfl rfl

theorem memoryWf_setCore {s : State} (c : Nat) (K : Core) (h : s.memoryWf = true) : (s.setCore c K).memoryWf = true :=
  memoryWf_congr h rfl rfl rfl rfl

theorem memoryWf_putL1 {s : State} (c n : Nat) (x : L1Sector) (h : s.memoryWf = true) :
    (s.putL1 c n x).memoryWf = true :=
  memoryWf_setCore _ _ h

theorem memoryWf_wake {s : State} (p : Place → Bool) (h : s.memoryWf = true) : (s.wake p).memoryWf = true :=
  memoryWf_congr h rfl rfl rfl rfl

theorem memoryWf_mailed {s : State} (ws : SMap PByte) (h : s.memoryWf = true) : (s.mailed ws).memoryWf = true := by
  simp only [State.mailed]
  split
  · exact memoryWf_congr h rfl rfl rfl rfl
  · exact h

theorem memoryWf_onGang {s : State} (k : Nat) (f : Gang → Gang) (h : s.memoryWf = true) :
    (s.onGang k f).memoryWf = true := by
  simp only [State.onGang]
  split
  · exact memoryWf_setGang _ _ h
  · exact h

/-- A block put in place whose window is in canonical form. -/
theorem memoryWf_setBlock {s : State} {b : Nat} {B : Block} (hB : Memory.wf B.ls = true) (h : s.memoryWf = true) :
    (s.setBlock b B).memoryWf = true := by
  rw [memoryWf_iff] at h ⊢
  refine ⟨h.1, h.2.1, fun x hx => ?_, h.2.2.2⟩
  rcases SMap.mem_put hx with rfl | hx
  · exact hB
  · exact h.2.2.1 x hx

theorem mem_of_find? {α : Type} {m : SMap α} {n : Nat} {v : α} (h : m.find? n = some v) : (n, v) ∈ m := by
  induction m with
  | nil => cases h
  | cons e m ih =>
    obtain ⟨k, w⟩ := e
    simp only [SMap.find?] at h
    split at h
    · cases h; subst_vars; exact List.mem_cons_self
    · exact List.mem_cons_of_mem _ (ih h)

theorem wf_of_block {s : State} {b : Nat} {B : Block} (h : s.memoryWf = true) (hB : s.blocks.find? b = some B) :
    Memory.wf B.ls = true := by
  rw [memoryWf_iff] at h
  exact h.2.2.1 _ (mem_of_find? hB)

theorem memoryWf_onBlock {s : State} (b : Nat) {f : Block → Block} (hf : ∀ B, (f B).ls = B.ls) (h : s.memoryWf = true) :
    (s.onBlock b f).memoryWf = true := by
  simp only [State.onBlock]
  split
  · rename_i B hB
    exact memoryWf_setBlock (by rw [hf]; exact wf_of_block h hB) h
  · exact h

-- DRAM

theorem wf_del {d : Byte} {m : List Host.Cell} (n : Nat) (h : SMap.wf d m = true) : SMap.wf d (SMap.del m n) = true := by
  simp only [SMap.wf, Bool.and_eq_true, List.all_eq_true] at h ⊢
  exact ⟨SMap.sorted_del n h.1, fun e he => h.2 e (SMap.mem_del he)⟩

theorem wf_foldl_del (es : SMap PByte) {m : List Host.Cell} (h : Memory.wf m = true) :
    Memory.wf (es.foldl (fun m e => SMap.del m e.1) m) = true := by
  induction es generalizing m with
  | nil => exact h
  | cons e es ih => exact ih (wf_del _ h)

theorem wf_foldl_bytes (es : SMap PByte) {m : List Host.Cell} (h : Memory.wf m = true) :
    Memory.wf (es.foldl (fun m e => SMap.write emptyByte m e.1 e.2.1) m) = true :=
  SMap.wf_foldl_write (β := Nat × PByte) (fun e => e.1) (fun e => e.2.1) es h

theorem memoryWf_dramBlock {s : State} (b : Nat) (es : SMap PByte) (h : s.memoryWf = true) :
    (s.dramBlock b es).memoryWf = true := by
  have hh := ((memoryWf_iff s).1 h).1
  simp only [State.dramBlock]
  split
  · split
    · exact memoryWf_of_hbm h (wf_foldl_del es hh) rfl rfl rfl
    · exact memoryWf_of_hbm h (wf_foldl_bytes es hh) rfl rfl rfl
  · exact memoryWf_of_hbm h (wf_foldl_bytes es (wf_foldl_bytes _ hh)) rfl rfl rfl

theorem memoryWf_dramWrite {s : State} (ws : SMap PByte) (h : s.memoryWf = true) : (s.dramWrite ws).memoryWf = true :=
  memoryWf_congr (memoryWf_foldl (fun s (g : Nat × SMap PByte) => s.dramBlock g.1 g.2)
    (fun _ _ h => memoryWf_dramBlock _ _ h) (groupBy 128 ws) h) rfl rfl rfl rfl

-- The home

theorem memoryWf_homeWrite {s : State} (ws : SMap PByte) (h : s.memoryWf = true) : (s.homeWrite ws).memoryWf = true :=
  memoryWf_mailed _ (memoryWf_wake _ (memoryWf_congr (memoryWf_dramWrite ws h) rfl rfl rfl rfl))

theorem memoryWf_baseWrite {s : State} (ws : SMap PByte) (h : s.memoryWf = true) : (s.baseWrite ws).memoryWf = true :=
  memoryWf_mailed _ (memoryWf_wake _ (memoryWf_congr (memoryWf_dramWrite ws h) rfl rfl rfl rfl))

theorem memoryWf_homeSector {s : State} (sec : Nat) (h : s.memoryWf = true) : (s.homeSector sec).1.memoryWf = true :=
  memoryWf_congr h rfl rfl rfl rfl

theorem memoryWf_homeRead {s : State} (pa n : Nat) (h : s.memoryWf = true) : (s.homeRead pa n).1.memoryWf = true :=
  memoryWf_foldl (fun (s : State) x => (s.homeSector x).1) (fun _ x h => memoryWf_homeSector x h) _ h

-- The RDC and the die point

theorem memoryWf_rdcSector {s : State} (node sec : Nat) (h : s.memoryWf = true) :
    (s.rdcSector node sec).1.memoryWf = true := by
  simp only [State.rdcSector]
  split
  · exact h
  · exact memoryWf_congr (memoryWf_homeSector sec h) rfl rfl rfl rfl

theorem memoryWf_rdcFlush {s : State} (node sec : Nat) (h : s.memoryWf = true) : (s.rdcFlush node sec).memoryWf = true := by
  simp only [State.rdcFlush]
  split
  · exact h
  · split
    · exact h
    · exact memoryWf_congr (memoryWf_homeWrite _ h) rfl rfl rfl rfl

theorem memoryWf_rdcFlushLine {s : State} (node line : Nat) (h : s.memoryWf = true) :
    (s.rdcFlushLine node line).memoryWf = true := by
  simp only [State.rdcFlushLine]
  split
  · exact memoryWf_congr h rfl rfl rfl rfl
  · exact memoryWf_congr (memoryWf_homeWrite _ h) rfl rfl rfl rfl

theorem memoryWf_dieSector {s : State} (node sec : Nat) (h : s.memoryWf = true) :
    (s.dieSector node sec).1.memoryWf = true := by
  simp only [State.dieSector]
  split
  · exact memoryWf_homeSector sec h
  · exact memoryWf_rdcSector node sec h

theorem memoryWf_dieWrite {s : State} (node sec : Nat) (es : SMap PByte) (h : s.memoryWf = true) :
    (s.dieWrite node sec es).memoryWf = true := by
  simp only [State.dieWrite]
  split
  · exact memoryWf_homeWrite es h
  · exact memoryWf_congr (memoryWf_rdcSector node sec h) rfl rfl rfl rfl

theorem memoryWf_pkgWrite {s : State} (node sec : Nat) (es : SMap PByte) (h : s.memoryWf = true) :
    (s.pkgWrite node sec es).memoryWf = true := by
  simp only [State.pkgWrite]
  split
  · exact memoryWf_homeWrite es h
  · exact memoryWf_congr (memoryWf_homeWrite es h) rfl rfl rfl rfl

-- The L1

theorem memoryWf_l1Flush {s : State} (c key : Nat) (h : s.memoryWf = true) : (s.l1Flush c key).memoryWf = true := by
  simp only [State.l1Flush]
  split
  · exact h
  · split
    · exact h
    · exact memoryWf_putL1 _ _ _ (memoryWf_dieWrite _ _ _ h)

theorem memoryWf_allocate {s : State} (c key : Nat) (pol : Policy) (h : s.memoryWf = true) :
    (s.allocate c key pol).memoryWf = true := by
  simp only [State.allocate]
  repeat' split
  all_goals exact h

theorem memoryWf_l1Sector {s : State} (c sec : Nat) (h : s.memoryWf = true) : (s.l1Sector c sec).1.memoryWf = true := by
  simp only [State.l1Sector]
  split
  · exact h
  · exact memoryWf_putL1 _ _ _ (memoryWf_dieSector _ _ h)

theorem memoryWf_rdc {s : State} (m) (h : s.memoryWf = true) : ({ s with rdc := m } : State).memoryWf = true :=
  memoryWf_congr h rfl rfl rfl rfl

theorem memoryWf_loadSector {s : State} (c sec : Nat) (sc : Scope) (pol : Policy) (h : s.memoryWf = true) :
    (s.loadSector c sec sc pol).1.memoryWf = true := by
  have ha := memoryWf_allocate c (l1Key sec (s.core c).secure) pol h
  have hf := memoryWf_l1Flush c (l1Key sec (s.core c).secure) ha
  simp only [State.loadSector]
  split
  · exact memoryWf_l1Sector c sec ha
  · generalize (s.allocate c (l1Key sec (s.core c).secure) pol).l1Flush c (l1Key sec (s.core c).secure) = t at hf ⊢
    have hr := memoryWf_homeSector sec (memoryWf_rdcFlush (coreNode c) sec hf)
    have hd := memoryWf_dieSector (coreNode c) sec hf
    cases sc.pkgWide && nodeOf (32 * sec) != coreNode c <;> simp only [Bool.false_eq_true, if_false, if_true]
    · split
      · exact memoryWf_putL1 _ _ _ hd
      · exact hd
      · exact memoryWf_putL1 _ _ _ hd
      · exact memoryWf_putL1 _ _ _ hd
    · have hr := memoryWf_rdc ((t.rdcFlush (coreNode c) sec |>.homeSector sec).1.rdc.put (rdcKey (coreNode c) sec)
            ⟨(t.rdcFlush (coreNode c) sec |>.homeSector sec).2.1, 0, (t.rdcFlush (coreNode c) sec |>.homeSector sec).2.2⟩) hr
      split
      · exact memoryWf_putL1 _ _ _ hr
      · exact hr
      · exact memoryWf_putL1 _ _ _ hr
      · exact memoryWf_putL1 _ _ _ hr

theorem memoryWf_storeSector {s : State} (c sec : Nat) (es : SMap PByte) (sc : Scope) (pol : Policy)
    (h : s.memoryWf = true) : (s.storeSector c sec es sc pol).memoryWf = true := by
  have ha := memoryWf_allocate c (l1Key sec (s.core c).secure) pol h
  simp only [State.storeSector]
  generalize s.allocate c (l1Key sec (s.core c).secure) pol = t at ha ⊢
  have hp : ∀ ws, (if sc.pkgWide = true then t.pkgWrite (coreNode c) sec ws else t.dieWrite (coreNode c) sec ws).memoryWf =
      true := by
    intro ws
    split
    · exact memoryWf_pkgWrite _ _ _ ha
    · exact memoryWf_dieWrite _ _ _ ha
  split
  · exact memoryWf_putL1 _ _ _ (memoryWf_l1Sector c sec ha)
  · split
    · exact memoryWf_putL1 _ _ _ (hp _)
    · split
      · exact hp _
      · exact memoryWf_putL1 _ _ _ (memoryWf_dieSector _ _ (hp _))

theorem memoryWf_loadBytes {s : State} (c pa n : Nat) (sc : Scope) (pol : Policy) (ms : Bool) (h : s.memoryWf = true) :
    (s.loadBytes c pa n sc pol ms).1.memoryWf = true := by
  have go : ∀ (secs : List Nat) (r : State × SMap (BitVec 256 × Bool)), r.1.memoryWf = true →
      (secs.foldl (fun (r : State × SMap (BitVec 256 × Bool)) sec =>
        ((r.1.loadSector c sec sc pol).1, r.2.put sec (r.1.loadSector c sec sc pol).2)) r).1.memoryWf = true := by
    intro secs
    induction secs with
    | nil => exact fun _ h => h
    | cons x xs ih => exact fun r h => ih _ (memoryWf_loadSector c x sc pol h)
  simp only [State.loadBytes]
  split
  · exact h
  · exact go _ (s, []) h

theorem memoryWf_storeBytes {s : State} (c : Nat) (ws : SMap PByte) (sc : Scope) (pol : Policy) (ms : Bool)
    (h : s.memoryWf = true) : (s.storeBytes c ws sc pol ms).memoryWf = true := by
  simp only [State.storeBytes]
  split
  · exact memoryWf_baseWrite ws h
  · exact memoryWf_foldl (fun (s : State) (g : Nat × SMap PByte) => s.storeSector c g.1 g.2 sc pol)
      (fun _ g h => memoryWf_storeSector c g.1 g.2 sc pol h) _ h

-- Releases and acquires

theorem memoryWf_l1FlushAll {s : State} (c : Nat) (p : L1Sector → Bool) (h : s.memoryWf = true) :
    (s.l1FlushAll c p).memoryWf = true := by
  refine memoryWf_foldl _ (fun s e h => ?_) _ h
  split
  · exact memoryWf_l1Flush _ _ h
  · exact h

theorem memoryWf_rdcFlushAll {s : State} (node : Nat) (h : s.memoryWf = true) : (s.rdcFlushAll node).memoryWf = true := by
  exact memoryWf_foldl _ (fun _ _ h => memoryWf_rdcFlushLine _ _ h) _ h

theorem memoryWf_releaseAt {s : State} (c : Nat) (sc : Scope) (h : s.memoryWf = true) :
    (s.releaseAt c sc).memoryWf = true := by
  have h₁ : (if sc.wide = true then s.l1FlushAll c (fun x => !x.tag.wide) else s).memoryWf = true := by
    split
    · exact memoryWf_l1FlushAll _ _ h
    · exact h
  simp only [State.releaseAt]
  split
  · exact memoryWf_rdcFlushAll _ h₁
  · exact h₁

theorem memoryWf_acquireAt {s : State} (c : Nat) (sc : Scope) (h : s.memoryWf = true) :
    (s.acquireAt c sc).memoryWf = true := by
  have h₁ : (if sc.wide = true then (s.l1FlushAll c (fun _ => true)).setCore c
      { (s.l1FlushAll c (fun _ => true)).core c with l1 := [] } else s).memoryWf = true := by
    split
    · exact memoryWf_setCore _ _ (memoryWf_l1FlushAll _ _ h)
    · exact h
  simp only [State.acquireAt]
  split
  · exact memoryWf_congr (memoryWf_rdcFlushAll (coreNode c) h₁) rfl rfl rfl rfl
  · exact h₁

-- Evictions

theorem memoryWf_l1Evict {s : State} (c line : Nat) (h : s.memoryWf = true) : (s.l1Evict c line).memoryWf = true :=
  memoryWf_setCore _ _ (memoryWf_foldl _ (fun _ _ h => memoryWf_l1Flush _ _ h) _ h)

theorem memoryWf_rdcEvict {s : State} (line : Nat) (h : s.memoryWf = true) : (s.rdcEvict line).memoryWf = true :=
  memoryWf_congr (memoryWf_rdcFlushLine _ _ h) rfl rfl rfl rfl

/-- The L2's own tables are no part of the canonical form. -/
theorem memoryWf_withL2 {t : State} (a : SMap Bool) (b : SMap (BitVec 32)) (h : t.memoryWf = true) :
    ({ t with l2 := a, l2Dirty := b } : State).memoryWf = true := h

theorem memoryWf_l2Evict {s : State} (line : Nat) (h : s.memoryWf = true) : (s.l2Evict line).memoryWf = true := by
  have poison : ∀ p, ({ s with hbmPoison := p } : State).memoryWf = true := fun _ => h
  unfold State.l2Evict
  refine memoryWf_withL2 _ _ ?_
  split
  · exact memoryWf_dramBlock _ _ (poison _)
  · exact poison _

theorem memoryWf_evictions {s : State} (h : s.memoryWf = true) : s.evictions.memoryWf = true :=
  memoryWf_foldl _ (fun _ _ h => memoryWf_l2Evict _ h) _
    (memoryWf_foldl _ (fun _ _ h => memoryWf_rdcEvict _ h) _
      (memoryWf_foldl _ (fun _ (x : Nat × Nat) h => memoryWf_l1Evict x.1 x.2 h) _ h))

-- The windows of blocks

theorem wf_lsWrite {B : Block} (ws : SMap PByte) (h : Memory.wf B.ls = true) : Memory.wf (B.lsWrite ws).ls = true :=
  wf_foldl_bytes ws h

theorem memoryWf_lsWrite {s : State} (b : Nat) (ws : SMap PByte) (h : s.memoryWf = true) :
    (s.lsWrite b ws).memoryWf = true := by
  simp only [State.lsWrite]
  split
  · exact h
  · rename_i B hB
    exact memoryWf_wake _ (memoryWf_setBlock (wf_lsWrite ws (wf_of_block h hB)) h)

/-- A byte of a window after a write of one byte to it: that byte at its offset, every other one as before. -/
theorem get_ls_lsWrite (B : Block) (a : Nat) (x : PByte) (n : Nat) :
    SMap.get emptyByte (B.lsWrite [(a, x)]).ls n = if n = a then x.1 else SMap.get emptyByte B.ls n := by
  simp only [Block.lsWrite, List.foldl_cons, List.foldl_nil]
  split
  · subst_vars; exact SMap.get_write_self _ _ _ _
  · exact SMap.get_write_of_ne _ _ ‹_›

end Sys2Proof.Machine
end

