-- ==== Sys2Proof/Laws/PerInstr.lean ====
section
/-! SUPPORT. The statements that are made of each instruction as syntax: the form that the decoder reads from an
instruction's fields is the instruction. -/

namespace Sys2Proof.Laws.Reads

/-- Of an instruction that is well formed for some engine, the fields read back as it. -/
def Statement (i : Instr) : Prop := ∀ e, i.wf e = true → ∀ f, i.fields = some f → readForm f = some i

@[simp] theorem ofCode_ty (t : Ty) : Ty.ofCode t.code = some t := by cases t <;> rfl
@[simp] theorem ofCode_rm (r : Rm) : Rm.ofCode r.code = some r := by cases r <;> rfl
@[simp] theorem ofCode_scope (s : Scope) : Scope.ofCode s.code = some s := by cases s <;> rfl
@[simp] theorem ofCode_policy (p : Policy) : Policy.ofCode p.code = some p := by cases p <;> rfl
@[simp] theorem ofCode_count (c : Count) : Count.ofCode c.code = some c := by cases c <;> rfl
@[simp] theorem ofCode_rel (r : Rel) : Rel.ofCode r.code = some r := by cases r <;> rfl
@[simp] theorem ofCode_frel (r : FRel) : FRel.ofCode r.code = some r := by cases r <;> rfl
@[simp] theorem ofCode_redOp (o : RedOp) : RedOp.ofCode o.code = some o := by cases o <;> rfl
@[simp] theorem ofCode_atomOp (o : AtomOp) : AtomOp.ofCode o.code = some o := by cases o <;> rfl
@[simp] theorem ofCode_wcond (c : WCond) : WCond.ofCode c.code = some c := by cases c <;> rfl

theorem read_integer {f : Fields} {t : Ty} (n : Nat) (h : f.op.toNat = n) (h₁ : 0x20 ≤ n ∧ n < 0x50) (ht : f.ty = t.code) :
    readForm f = readInteger f n t := by
  simp only [readForm, h, ht, ofCode_ty, Option.bind_some]
  rw [if_neg (by omega), if_pos h₁.2]

theorem read_float {f : Fields} {t : Ty} (n : Nat) (h : f.op.toNat = n) (h₁ : 0x50 ≤ n ∧ n < 0x80 ∨ n = 0x0C)
    (ht : f.ty = t.code) : readForm f = readFloat f n t := by
  simp only [readForm, h, ht, ofCode_ty, Option.bind_some]
  rcases h₁ with h₁ | rfl
  · rw [if_neg (by omega), if_neg (by omega), if_pos h₁.2]
  · rfl

theorem read_typed {f : Fields} {t : Ty} {s : Scope} (n : Nat) (h : f.op.toNat = n)
    (h₁ : n = 0x80 ∨ n = 0x81 ∨ n = 0x82 ∨ n = 0xA3 ∨ n = 0xA4 ∨ n = 0xA5) (ht : f.ty = t.code) (hs : f.sc = s.code) :
    readForm f = readTyped f n t s := by
  simp only [readForm, h, ht, hs, ofCode_ty, ofCode_scope, Option.bind_some]
  rcases h₁ with rfl | rfl | rfl | rfl | rfl | rfl <;> rfl

theorem read_scoped {f : Fields} {s : Scope} (n : Nat) (h : f.op.toNat = n)
    (h₁ : n ∈ [0x83, 0x84, 0x85, 0x96, 0x97, 0xA0, 0xA1, 0xB1, 0xB2, 0xB3]) (hs : f.sc = s.code) :
    readForm f = readScoped f n s := by
  simp only [readForm, h, hs, ofCode_scope, Option.bind_some]
  fin_cases h₁ <;> rfl

theorem atomMod_order (ms sc : Bool) (o : Order) : Order.ofCode ((atomMod ms sc o).setWidth 2) = o := by
  cases ms <;> cases sc <;> cases o <;> rfl
theorem atomMod_one (ms sc rel : Bool) : (atomMod ms sc (if rel then .rel else .relaxed)).getLsbD 1 = rel := by
  cases ms <;> cases sc <;> cases rel <;> decide
theorem atomMod_two (ms sc : Bool) (o : Order) : (atomMod ms sc o).getLsbD 2 = sc := by
  cases ms <;> cases sc <;> cases o <;> decide
theorem atomMod_three (ms sc : Bool) (o : Order) : (atomMod ms sc o).getLsbD 3 = ms := by
  cases ms <;> cases sc <;> cases o <;> decide
theorem bit1_zero (v : Bool) : ((bit1 v).setWidth 32).getLsbD 0 = v := by cases v <;> decide
theorem bit1_get (v : Bool) : (bit1 v).getLsbD 0 = v := by cases v <;> decide
theorem fork_zero (g : BitVec 16) (c m : Bool) : (g ++ (0 : BitVec 14) ++ bit1 c ++ bit1 m).getLsbD 0 = m := by
  rw [BitVec.getLsbD_append, if_pos (by decide), bit1_get]
theorem fork_one (g : BitVec 16) (c m : Bool) : (g ++ (0 : BitVec 14) ++ bit1 c ++ bit1 m).getLsbD 1 = c := by
  rw [BitVec.getLsbD_append, if_neg (by decide), BitVec.getLsbD_append, if_pos (by decide), bit1_get]
theorem fork_gangs (g : BitVec 16) (c m : Bool) : (g ++ (0 : BitVec 14) ++ bit1 c ++ bit1 m).extractLsb' 16 16 = g := by
  apply BitVec.eq_of_getLsbD_eq
  intro i hi
  rw [BitVec.getLsbD_extractLsb', BitVec.getLsbD_append, if_neg (by omega), BitVec.getLsbD_append, if_neg (by omega),
    BitVec.getLsbD_append, if_neg (by omega)]
  simp [hi]
theorem cvt_three (sat : Bool) (rm : Rm) : (bit1 false ++ bit1 sat ++ rm.code.setWidth 2).getLsbD 3 = false := by
  cases sat <;> cases rm <;> decide
theorem cvt_two (sat : Bool) (rm : Rm) : (bit1 false ++ bit1 sat ++ rm.code.setWidth 2).getLsbD 2 = sat := by
  cases sat <;> cases rm <;> decide
theorem cvt_rm (sat : Bool) (rm : Rm) : Rm.ofCode ((bit1 false ++ bit1 sat ++ rm.code.setWidth 2) &&& 3) = some rm := by
  cases sat <;> cases rm <;> decide

/-- `CVT` forms with a slot. -/
theorem read_cvtSlot {f : Fields} {t : Ty} (hv : f.var = 8) :
    readFloat f 0x62 t = (Ty.ofCode f.m).map fun sty => .cvtSlot f.rg t sty f.sc f.rd f.ra := by
  simp only [readFloat, hv]
  rfl

/-- `CVT` forms with a rounding mode. -/
theorem read_cvt {f : Fields} {t : Ty} {sat : Bool} {rm : Rm} (hv : f.var = bit1 false ++ bit1 sat ++ rm.code.setWidth 2) :
    readFloat f 0x62 t = if t.packed then some (.cvtPacked f.rg t rm sat f.rd f.ra f.rs)
      else (Ty.ofCode f.m).map fun sty => .cvt f.rg t sty rm sat f.rd f.ra := by
  simp only [readFloat, hv, cvt_three, cvt_two, cvt_rm, Bool.false_eq_true, if_false]
  cases t.packed <;> rfl

theorem three (p : BitVec 3) : (p.setWidth 8).setWidth 3 = p := by simp

theorem nop (g : Guard) : Statement (.nop g) := by
  intro e hw f hf; cases hf
  rfl

theorem isync (g : Guard) : Statement (.isync g) := by
  intro e hw f hf; cases hf
  rfl

theorem bra (g : Guard) (off : Word) : Statement (.bra g off) := by
  intro e hw f hf; cases hf
  rfl

theorem brx (g : Guard) (a : Reg) : Statement (.brx g a) := by
  intro e hw f hf; cases hf
  rfl

theorem call (g : Guard) (d : BitVec 8) (off : Word) : Statement (.call g d off) := by
  intro e hw f hf; cases hf
  rfl

theorem callx (g : Guard) (d : BitVec 8) (a : Reg) : Statement (.callx g d a) := by
  intro e hw f hf; cases hf
  rfl

theorem ret (g : Guard) (a : Reg) : Statement (.ret g a) := by
  intro e hw f hf; cases hf
  rfl

theorem reconvImm (g : Guard) (mask : Word) : Statement (.reconvImm g mask) := by
  intro e hw f hf; cases hf
  rfl

theorem reconvReg (g : Guard) (a : Reg) : Statement (.reconvReg g a) := by
  intro e hw f hf; cases hf
  rfl

theorem exit (g : Guard) : Statement (.exit g) := by
  intro e hw f hf; cases hf
  rfl

theorem fork (g : Guard) (d : BitVec 8) (m : Bool) (c : Bool) (gangs : BitVec 16) : Statement (.fork g d m c gangs) := by
  intro e hw f hf; cases hf
  have h : ∀ F, F = some (Instr.fork g d ((gangs ++ (0 : BitVec 14) ++ bit1 c ++ bit1 m).getLsbD 0) ((gangs ++ (0 : BitVec 14) ++ bit1 c ++ bit1 m).getLsbD 1) ((gangs ++ (0 : BitVec 14) ++ bit1 c ++ bit1 m).extractLsb' 16 16)) →
      F = some (.fork g d m c gangs) := by
    intro _ h; rw [h]; simp only [fork_zero, fork_one, fork_gangs]
  apply h
  rfl

theorem rdv (g : Guard) (n : BitVec 4) : Statement (.rdv g n) := by
  intro e hw f hf; cases hf
  have h : ∀ F, F = some (Instr.rdv g ((n.setWidth 32).setWidth 4)) →
      F = some (.rdv g n) := by
    intro _ h; rw [h]; simp
  apply h
  rfl

theorem voteAny (g : Guard) (w : BitVec 4) (d : BitVec 3) (a : BitVec 3) : Statement (.voteAny g w d a) := by
  intro e hw f hf; cases hf
  have h : ∀ F, F = some (Instr.voteAny g w ((d.setWidth 8).setWidth 3) ((a.setWidth 8).setWidth 3)) →
      F = some (.voteAny g w d a) := by
    intro _ h; rw [h]; simp
  apply h
  rfl

theorem voteAll (g : Guard) (w : BitVec 4) (d : BitVec 3) (a : BitVec 3) : Statement (.voteAll g w d a) := by
  intro e hw f hf; cases hf
  have h : ∀ F, F = some (Instr.voteAll g w ((d.setWidth 8).setWidth 3) ((a.setWidth 8).setWidth 3)) →
      F = some (.voteAll g w d a) := by
    intro _ h; rw [h]; simp
  apply h
  rfl

theorem voteBallot (g : Guard) (w : BitVec 4) (d : BitVec 8) (a : BitVec 3) : Statement (.voteBallot g w d a) := by
  intro e hw f hf; cases hf
  have h : ∀ F, F = some (Instr.voteBallot g w d ((a.setWidth 8).setWidth 3)) →
      F = some (.voteBallot g w d a) := by
    intro _ h; rw [h]; simp
  apply h
  rfl

theorem voteEq (g : Guard) (w : BitVec 4) (d : BitVec 3) (a : Reg) : Statement (.voteEq g w d a) := by
  intro e hw f hf; cases hf
  have h : ∀ F, F = some (Instr.voteEq g w ((d.setWidth 8).setWidth 3) a) →
      F = some (.voteEq g w d a) := by
    intro _ h; rw [h]; simp
  apply h
  rfl

theorem voteCnt (g : Guard) (w : BitVec 4) (d : BitVec 8) (a : BitVec 3) : Statement (.voteCnt g w d a) := by
  intro e hw f hf; cases hf
  have h : ∀ F, F = some (Instr.voteCnt g w d ((a.setWidth 8).setWidth 3)) →
      F = some (.voteCnt g w d a) := by
    intro _ h; rw [h]; simp
  apply h
  rfl

theorem shflPick (g : Guard) (w : BitVec 4) (d : BitVec 8) (a : Reg) (b : Src) (c : Reg) : Statement (.shflPick g w d a b c) := by
  intro e hw f hf; cases hf
  cases b <;> rfl

theorem shflFwd (g : Guard) (w : BitVec 4) (d : BitVec 8) (a : Reg) (b : Src) (c : Reg) : Statement (.shflFwd g w d a b c) := by
  intro e hw f hf; cases hf
  cases b <;> rfl

theorem shflBack (g : Guard) (w : BitVec 4) (d : BitVec 8) (a : Reg) (b : Src) (c : Reg) : Statement (.shflBack g w d a b c) := by
  intro e hw f hf; cases hf
  cases b <;> rfl

theorem shflFlip (g : Guard) (w : BitVec 4) (d : BitVec 8) (a : Reg) (b : Src) (c : Reg) : Statement (.shflFlip g w d a b c) := by
  intro e hw f hf; cases hf
  cases b <;> rfl

theorem shflRot (g : Guard) (w : BitVec 4) (d : BitVec 8) (a : Reg) (b : Src) (c : Reg) : Statement (.shflRot g w d a b c) := by
  intro e hw f hf; cases hf
  cases b <;> rfl

theorem redux (g : Guard) (op : RedOp) (ty : Ty) (d : BitVec 8) (a : Reg) : Statement (.redux g op ty d a) := by
  intro e hw f hf; cases hf
  refine Eq.trans (read_float (t := ty) 0xc (by rfl) (by decide) (by rfl)) ?_
  cases op <;> rfl

theorem bmaskSelf (g : Guard) (d : BitVec 8) : Statement (.bmaskSelf g d) := by
  intro e hw f hf; cases hf
  rfl

theorem bmaskPre (g : Guard) (w : BitVec 4) (d : BitVec 8) : Statement (.bmaskPre g w d) := by
  intro e hw f hf; cases hf
  rfl

theorem bmaskPost (g : Guard) (w : BitVec 4) (d : BitVec 8) : Statement (.bmaskPost g w d) := by
  intro e hw f hf; cases hf
  rfl

theorem bmaskSeg (g : Guard) (w : BitVec 4) (d : BitVec 8) : Statement (.bmaskSeg g w d) := by
  intro e hw f hf; cases hf
  rfl

theorem bmaskGrp (g : Guard) (d : BitVec 8) : Statement (.bmaskGrp g d) := by
  intro e hw f hf; cases hf
  rfl

theorem bmaskSpan (g : Guard) (d : BitVec 8) (b : Src) : Statement (.bmaskSpan g d b) := by
  intro e hw f hf; cases hf
  cases b <;> rfl

theorem grow (g : Guard) (d : BitVec 3) (n : Word) : Statement (.grow g d n) := by
  intro e hw f hf; cases hf
  have h : ∀ F, F = some (Instr.grow g ((d.setWidth 8).setWidth 3) n) →
      F = some (.grow g d n) := by
    intro _ h; rw [h]; simp
  apply h
  rfl

theorem growTry (g : Guard) (d : BitVec 3) (n : Word) : Statement (.growTry g d n) := by
  intro e hw f hf; cases hf
  have h : ∀ F, F = some (Instr.growTry g ((d.setWidth 8).setWidth 3) n) →
      F = some (.growTry g d n) := by
    intro _ h; rw [h]; simp
  apply h
  rfl

theorem shrink (g : Guard) (n : Word) : Statement (.shrink g n) := by
  intro e hw f hf; cases hf
  rfl

theorem gets (g : Guard) (wide : Bool) (d : BitVec 8) (num : BitVec 8) : Statement (.gets g wide d num) := by
  intro e hw f hf; cases hf
  cases wide <;> rfl

theorem sets (g : Guard) (num : BitVec 8) (a : Reg) : Statement (.sets g num a) := by
  intro e hw f hf; cases hf
  rfl

theorem plogAnd (g : Guard) (d : BitVec 3) (a : BitVec 3) (b : BitVec 3) : Statement (.plogAnd g d a b) := by
  intro e hw f hf; cases hf
  have h : ∀ F, F = some (Instr.plogAnd g ((d.setWidth 8).setWidth 3) ((a.setWidth 8).setWidth 3) ((b.setWidth 8).setWidth 3)) →
      F = some (.plogAnd g d a b) := by
    intro _ h; rw [h]; simp
  apply h
  rfl

theorem plogOr (g : Guard) (d : BitVec 3) (a : BitVec 3) (b : BitVec 3) : Statement (.plogOr g d a b) := by
  intro e hw f hf; cases hf
  have h : ∀ F, F = some (Instr.plogOr g ((d.setWidth 8).setWidth 3) ((a.setWidth 8).setWidth 3) ((b.setWidth 8).setWidth 3)) →
      F = some (.plogOr g d a b) := by
    intro _ h; rw [h]; simp
  apply h
  rfl

theorem plogXor (g : Guard) (d : BitVec 3) (a : BitVec 3) (b : BitVec 3) : Statement (.plogXor g d a b) := by
  intro e hw f hf; cases hf
  have h : ∀ F, F = some (Instr.plogXor g ((d.setWidth 8).setWidth 3) ((a.setWidth 8).setWidth 3) ((b.setWidth 8).setWidth 3)) →
      F = some (.plogXor g d a b) := by
    intro _ h; rw [h]; simp
  apply h
  rfl

theorem plogAndn (g : Guard) (d : BitVec 3) (a : BitVec 3) (b : BitVec 3) : Statement (.plogAndn g d a b) := by
  intro e hw f hf; cases hf
  have h : ∀ F, F = some (Instr.plogAndn g ((d.setWidth 8).setWidth 3) ((a.setWidth 8).setWidth 3) ((b.setWidth 8).setWidth 3)) →
      F = some (.plogAndn g d a b) := by
    intro _ h; rw [h]; simp
  apply h
  rfl

theorem plogOrn (g : Guard) (d : BitVec 3) (a : BitVec 3) (b : BitVec 3) : Statement (.plogOrn g d a b) := by
  intro e hw f hf; cases hf
  have h : ∀ F, F = some (Instr.plogOrn g ((d.setWidth 8).setWidth 3) ((a.setWidth 8).setWidth 3) ((b.setWidth 8).setWidth 3)) →
      F = some (.plogOrn g d a b) := by
    intro _ h; rw [h]; simp
  apply h
  rfl

theorem plogNot (g : Guard) (d : BitVec 3) (a : BitVec 3) : Statement (.plogNot g d a) := by
  intro e hw f hf; cases hf
  have h : ∀ F, F = some (Instr.plogNot g ((d.setWidth 8).setWidth 3) ((a.setWidth 8).setWidth 3)) →
      F = some (.plogNot g d a) := by
    intro _ h; rw [h]; simp
  apply h
  rfl

theorem plogSet (g : Guard) (d : BitVec 3) (v : Bool) : Statement (.plogSet g d v) := by
  intro e hw f hf; cases hf
  have h : ∀ F, F = some (Instr.plogSet g ((d.setWidth 8).setWidth 3) (((bit1 v).setWidth 32).getLsbD 0)) →
      F = some (.plogSet g d v) := by
    intro _ h; rw [h]; simp only [three, bit1_zero]
  apply h
  rfl

theorem mov (g : Guard) (ty : Ty) (d : Reg) (b : Src) : Statement (.mov g ty d b) := by
  intro e hw f hf; cases hf
  cases b <;>
  refine Eq.trans (read_integer (t := ty) 0x20 (by rfl) (by decide) (by rfl)) ?_ <;>
  rfl

theorem add (g : Guard) (ty : Ty) (sat : Bool) (d : Reg) (a : Reg) (b : Src) : Statement (.add g ty sat d a b) := by
  intro e hw f hf; cases hf
  cases b <;>
  refine Eq.trans (read_integer (t := ty) 0x21 (by rfl) (by decide) (by rfl)) ?_ <;>
  cases sat <;> rfl

theorem sub (g : Guard) (ty : Ty) (sat : Bool) (d : Reg) (a : Reg) (b : Src) : Statement (.sub g ty sat d a b) := by
  intro e hw f hf; cases hf
  cases b <;>
  refine Eq.trans (read_integer (t := ty) 0x22 (by rfl) (by decide) (by rfl)) ?_ <;>
  cases sat <;> rfl

theorem mul (g : Guard) (ty : Ty) (sat : Bool) (d : Reg) (a : Reg) (b : Src) : Statement (.mul g ty sat d a b) := by
  intro e hw f hf; cases hf
  cases b <;>
  refine Eq.trans (read_integer (t := ty) 0x23 (by rfl) (by decide) (by rfl)) ?_ <;>
  cases sat <;> rfl

theorem mad (g : Guard) (ty : Ty) (d : Reg) (a : Reg) (b : Src) (c : Reg) : Statement (.mad g ty d a b c) := by
  intro e hw f hf; cases hf
  cases b <;>
  refine Eq.trans (read_integer (t := ty) 0x24 (by rfl) (by decide) (by rfl)) ?_ <;>
  rfl

theorem madWide (g : Guard) (ty : Ty) (d : Reg) (a : Reg) (b : Src) (c : Reg) : Statement (.madWide g ty d a b c) := by
  intro e hw f hf; cases hf
  cases b <;>
  refine Eq.trans (read_integer (t := ty) 0x24 (by rfl) (by decide) (by rfl)) ?_ <;>
  rfl

theorem mulhi (g : Guard) (ty : Ty) (d : Reg) (a : Reg) (b : Src) : Statement (.mulhi g ty d a b) := by
  intro e hw f hf; cases hf
  cases b <;>
  refine Eq.trans (read_integer (t := ty) 0x25 (by rfl) (by decide) (by rfl)) ?_ <;>
  rfl

theorem div (g : Guard) (ty : Ty) (d : Reg) (a : Reg) (b : Src) : Statement (.div g ty d a b) := by
  intro e hw f hf; cases hf
  cases b <;>
  refine Eq.trans (read_integer (t := ty) 0x26 (by rfl) (by decide) (by rfl)) ?_ <;>
  rfl

theorem rem (g : Guard) (ty : Ty) (d : Reg) (a : Reg) (b : Src) : Statement (.rem g ty d a b) := by
  intro e hw f hf; cases hf
  cases b <;>
  refine Eq.trans (read_integer (t := ty) 0x27 (by rfl) (by decide) (by rfl)) ?_ <;>
  rfl

theorem and (g : Guard) (ty : Ty) (d : Reg) (a : Reg) (b : Src) : Statement (.and g ty d a b) := by
  intro e hw f hf; cases hf
  cases b <;>
  refine Eq.trans (read_integer (t := ty) 0x28 (by rfl) (by decide) (by rfl)) ?_ <;>
  rfl

theorem or (g : Guard) (ty : Ty) (d : Reg) (a : Reg) (b : Src) : Statement (.or g ty d a b) := by
  intro e hw f hf; cases hf
  cases b <;>
  refine Eq.trans (read_integer (t := ty) 0x29 (by rfl) (by decide) (by rfl)) ?_ <;>
  rfl

theorem xor (g : Guard) (ty : Ty) (d : Reg) (a : Reg) (b : Src) : Statement (.xor g ty d a b) := by
  intro e hw f hf; cases hf
  cases b <;>
  refine Eq.trans (read_integer (t := ty) 0x2a (by rfl) (by decide) (by rfl)) ?_ <;>
  rfl

theorem shfShl (g : Guard) (ty : Ty) (d : Reg) (a : Reg) (b : Src) : Statement (.shfShl g ty d a b) := by
  intro e hw f hf; cases hf
  cases b <;>
  refine Eq.trans (read_integer (t := ty) 0x2b (by rfl) (by decide) (by rfl)) ?_ <;>
  rfl

theorem shfShr (g : Guard) (ty : Ty) (d : Reg) (a : Reg) (b : Src) : Statement (.shfShr g ty d a b) := by
  intro e hw f hf; cases hf
  cases b <;>
  refine Eq.trans (read_integer (t := ty) 0x2b (by rfl) (by decide) (by rfl)) ?_ <;>
  rfl

theorem shfRotl (g : Guard) (ty : Ty) (d : Reg) (a : Reg) (b : Src) : Statement (.shfRotl g ty d a b) := by
  intro e hw f hf; cases hf
  cases b <;>
  refine Eq.trans (read_integer (t := ty) 0x2b (by rfl) (by decide) (by rfl)) ?_ <;>
  rfl

theorem shfRotr (g : Guard) (ty : Ty) (d : Reg) (a : Reg) (b : Src) : Statement (.shfRotr g ty d a b) := by
  intro e hw f hf; cases hf
  cases b <;>
  refine Eq.trans (read_integer (t := ty) 0x2b (by rfl) (by decide) (by rfl)) ?_ <;>
  rfl

theorem cmp (g : Guard) (rel : Rel) (ty : Ty) (d : BitVec 3) (a : Reg) (b : Src) : Statement (.cmp g rel ty d a b) := by
  intro e hw f hf; cases hf
  have h : ∀ F, F = some (Instr.cmp g rel ty ((d.setWidth 8).setWidth 3) a b) →
      F = some (.cmp g rel ty d a b) := by
    intro _ h; rw [h]; simp
  apply h
  cases b <;>
  refine Eq.trans (read_integer (t := ty) 0x2c (by rfl) (by decide) (by rfl)) ?_ <;>
  cases rel <;> rfl

theorem sel (g : Guard) (ty : Ty) (d : Reg) (a : Reg) (b : Src) (c : BitVec 3) : Statement (.sel g ty d a b c) := by
  intro e hw f hf; cases hf
  have h : ∀ F, F = some (Instr.sel g ty d a b ((c.setWidth 8).setWidth 3)) →
      F = some (.sel g ty d a b c) := by
    intro _ h; rw [h]; simp
  apply h
  cases b <;>
  refine Eq.trans (read_integer (t := ty) 0x2d (by rfl) (by decide) (by rfl)) ?_ <;>
  rfl

theorem min (g : Guard) (ty : Ty) (d : Reg) (a : Reg) (b : Src) : Statement (.min g ty d a b) := by
  intro e hw f hf; cases hf
  cases b <;>
  refine Eq.trans (read_integer (t := ty) 0x2e (by rfl) (by decide) (by rfl)) ?_ <;>
  rfl

theorem max (g : Guard) (ty : Ty) (d : Reg) (a : Reg) (b : Src) : Statement (.max g ty d a b) := by
  intro e hw f hf; cases hf
  cases b <;>
  refine Eq.trans (read_integer (t := ty) 0x2f (by rfl) (by decide) (by rfl)) ?_ <;>
  rfl

theorem abs (g : Guard) (ty : Ty) (sat : Bool) (d : Reg) (a : Reg) : Statement (.abs g ty sat d a) := by
  intro e hw f hf; cases hf
  refine Eq.trans (read_integer (t := ty) 0x30 (by rfl) (by decide) (by rfl)) ?_
  cases sat <;> rfl

theorem bitcPopc (g : Guard) (ty : Ty) (d : Reg) (a : Reg) : Statement (.bitcPopc g ty d a) := by
  intro e hw f hf; cases hf
  refine Eq.trans (read_integer (t := ty) 0x31 (by rfl) (by decide) (by rfl)) ?_
  rfl

theorem bitcClz (g : Guard) (ty : Ty) (d : Reg) (a : Reg) : Statement (.bitcClz g ty d a) := by
  intro e hw f hf; cases hf
  refine Eq.trans (read_integer (t := ty) 0x31 (by rfl) (by decide) (by rfl)) ?_
  rfl

theorem bitcCtz (g : Guard) (ty : Ty) (d : Reg) (a : Reg) : Statement (.bitcCtz g ty d a) := by
  intro e hw f hf; cases hf
  refine Eq.trans (read_integer (t := ty) 0x31 (by rfl) (by decide) (by rfl)) ?_
  rfl

theorem bitcBrev (g : Guard) (ty : Ty) (d : Reg) (a : Reg) : Statement (.bitcBrev g ty d a) := by
  intro e hw f hf; cases hf
  refine Eq.trans (read_integer (t := ty) 0x31 (by rfl) (by decide) (by rfl)) ?_
  rfl

theorem bfe (g : Guard) (ty : Ty) (d : Reg) (a : Reg) (b : Src) : Statement (.bfe g ty d a b) := by
  intro e hw f hf; cases hf
  cases b <;>
  refine Eq.trans (read_integer (t := ty) 0x32 (by rfl) (by decide) (by rfl)) ?_ <;>
  rfl

theorem bfi (g : Guard) (ty : Ty) (d : Reg) (a : Reg) (b : Src) (c : Reg) : Statement (.bfi g ty d a b c) := by
  intro e hw f hf; cases hf
  cases b <;>
  refine Eq.trans (read_integer (t := ty) 0x33 (by rfl) (by decide) (by rfl)) ?_ <;>
  rfl

theorem lea (g : Guard) (ty : Ty) (d : Reg) (a : Reg) (b : Src) (sh : BitVec 4) : Statement (.lea g ty d a b sh) := by
  intro e hw f hf; cases hf
  cases b <;>
  refine Eq.trans (read_integer (t := ty) 0x34 (by rfl) (by decide) (by rfl)) ?_ <;>
  rfl

theorem fadd (g : Guard) (rm : Rm) (ty : Ty) (d : Reg) (a : Reg) (b : Src) : Statement (.fadd g rm ty d a b) := by
  intro e hw f hf; cases hf
  cases b <;>
  refine Eq.trans (read_float (t := ty) 0x50 (by rfl) (by decide) (by rfl)) ?_ <;>
  cases rm <;> rfl

theorem fsub (g : Guard) (rm : Rm) (ty : Ty) (d : Reg) (a : Reg) (b : Src) : Statement (.fsub g rm ty d a b) := by
  intro e hw f hf; cases hf
  cases b <;>
  refine Eq.trans (read_float (t := ty) 0x51 (by rfl) (by decide) (by rfl)) ?_ <;>
  cases rm <;> rfl

theorem fmul (g : Guard) (rm : Rm) (ty : Ty) (d : Reg) (a : Reg) (b : Src) : Statement (.fmul g rm ty d a b) := by
  intro e hw f hf; cases hf
  cases b <;>
  refine Eq.trans (read_float (t := ty) 0x52 (by rfl) (by decide) (by rfl)) ?_ <;>
  cases rm <;> rfl

theorem ffma (g : Guard) (rm : Rm) (ty : Ty) (d : Reg) (a : Reg) (b : Src) (c : Reg) : Statement (.ffma g rm ty d a b c) := by
  intro e hw f hf; cases hf
  cases b <;>
  refine Eq.trans (read_float (t := ty) 0x53 (by rfl) (by decide) (by rfl)) ?_ <;>
  cases rm <;> rfl

theorem fmin (g : Guard) (ty : Ty) (d : Reg) (a : Reg) (b : Src) : Statement (.fmin g ty d a b) := by
  intro e hw f hf; cases hf
  cases b <;>
  refine Eq.trans (read_float (t := ty) 0x54 (by rfl) (by decide) (by rfl)) ?_ <;>
  rfl

theorem fmax (g : Guard) (ty : Ty) (d : Reg) (a : Reg) (b : Src) : Statement (.fmax g ty d a b) := by
  intro e hw f hf; cases hf
  cases b <;>
  refine Eq.trans (read_float (t := ty) 0x55 (by rfl) (by decide) (by rfl)) ?_ <;>
  rfl

theorem fcmp (g : Guard) (rel : FRel) (ty : Ty) (d : BitVec 3) (a : Reg) (b : Src) : Statement (.fcmp g rel ty d a b) := by
  intro e hw f hf; cases hf
  have h : ∀ F, F = some (Instr.fcmp g rel ty ((d.setWidth 8).setWidth 3) a b) →
      F = some (.fcmp g rel ty d a b) := by
    intro _ h; rw [h]; simp
  apply h
  cases b <;>
  refine Eq.trans (read_float (t := ty) 0x56 (by rfl) (by decide) (by rfl)) ?_ <;>
  cases rel <;> rfl

theorem fsgnNeg (g : Guard) (ty : Ty) (d : Reg) (a : Reg) : Statement (.fsgnNeg g ty d a) := by
  intro e hw f hf; cases hf
  refine Eq.trans (read_float (t := ty) 0x57 (by rfl) (by decide) (by rfl)) ?_
  rfl

theorem fsgnAbs (g : Guard) (ty : Ty) (d : Reg) (a : Reg) : Statement (.fsgnAbs g ty d a) := by
  intro e hw f hf; cases hf
  refine Eq.trans (read_float (t := ty) 0x57 (by rfl) (by decide) (by rfl)) ?_
  rfl

theorem fsgnCopy (g : Guard) (ty : Ty) (d : Reg) (a : Reg) (b : Src) : Statement (.fsgnCopy g ty d a b) := by
  intro e hw f hf; cases hf
  cases b <;>
  refine Eq.trans (read_float (t := ty) 0x57 (by rfl) (by decide) (by rfl)) ?_ <;>
  rfl

theorem fsgnXor (g : Guard) (ty : Ty) (d : Reg) (a : Reg) (b : Src) : Statement (.fsgnXor g ty d a b) := by
  intro e hw f hf; cases hf
  cases b <;>
  refine Eq.trans (read_float (t := ty) 0x57 (by rfl) (by decide) (by rfl)) ?_ <;>
  rfl

theorem fdiv (g : Guard) (rm : Rm) (ty : Ty) (d : Reg) (a : Reg) (b : Src) : Statement (.fdiv g rm ty d a b) := by
  intro e hw f hf; cases hf
  cases b <;>
  refine Eq.trans (read_float (t := ty) 0x58 (by rfl) (by decide) (by rfl)) ?_ <;>
  cases rm <;> rfl

theorem fsqrt (g : Guard) (rm : Rm) (ty : Ty) (d : Reg) (a : Reg) : Statement (.fsqrt g rm ty d a) := by
  intro e hw f hf; cases hf
  refine Eq.trans (read_float (t := ty) 0x59 (by rfl) (by decide) (by rfl)) ?_
  cases rm <;> rfl

theorem frcp (g : Guard) (d : Reg) (a : Reg) : Statement (.frcp g d a) := by
  intro e hw f hf; cases hf
  refine Eq.trans (read_float (t := .f32) 0x5a (by rfl) (by decide) (by rfl)) ?_
  rfl

theorem frsq (g : Guard) (d : Reg) (a : Reg) : Statement (.frsq g d a) := by
  intro e hw f hf; cases hf
  refine Eq.trans (read_float (t := .f32) 0x5b (by rfl) (by decide) (by rfl)) ?_
  rfl

theorem fexp2 (g : Guard) (d : Reg) (a : Reg) : Statement (.fexp2 g d a) := by
  intro e hw f hf; cases hf
  refine Eq.trans (read_float (t := .f32) 0x5c (by rfl) (by decide) (by rfl)) ?_
  rfl

theorem flog2 (g : Guard) (d : Reg) (a : Reg) : Statement (.flog2 g d a) := by
  intro e hw f hf; cases hf
  refine Eq.trans (read_float (t := .f32) 0x5d (by rfl) (by decide) (by rfl)) ?_
  rfl

theorem fsin (g : Guard) (d : Reg) (a : Reg) : Statement (.fsin g d a) := by
  intro e hw f hf; cases hf
  refine Eq.trans (read_float (t := .f32) 0x5e (by rfl) (by decide) (by rfl)) ?_
  rfl

theorem fcos (g : Guard) (d : Reg) (a : Reg) : Statement (.fcos g d a) := by
  intro e hw f hf; cases hf
  refine Eq.trans (read_float (t := .f32) 0x5f (by rfl) (by decide) (by rfl)) ?_
  rfl

theorem fclass (g : Guard) (ty : Ty) (d : Reg) (a : Reg) : Statement (.fclass g ty d a) := by
  intro e hw f hf; cases hf
  refine Eq.trans (read_float (t := ty) 0x60 (by rfl) (by decide) (by rfl)) ?_
  rfl

theorem frnd (g : Guard) (rm : Rm) (ty : Ty) (d : Reg) (a : Reg) : Statement (.frnd g rm ty d a) := by
  intro e hw f hf; cases hf
  refine Eq.trans (read_float (t := ty) 0x61 (by rfl) (by decide) (by rfl)) ?_
  cases rm <;> rfl

theorem cvt (g : Guard) (dty : Ty) (sty : Ty) (rm : Rm) (sat : Bool) (d : Reg) (a : Reg) : Statement (.cvt g dty sty rm sat d a) := by
  intro e hw f hf; cases hf
  refine Eq.trans (read_float (t := dty) 0x62 (by rfl) (by decide) (by rfl)) ?_
  have hp : dty.packed = false := by
    simp [Instr.wf, Instr.entryOk] at hw; exact hw.2.1
  refine (read_cvt (by rfl)).trans ?_
  rw [hp, if_neg (by decide)]
  show Option.map _ (Ty.ofCode sty.code) = _
  rw [ofCode_ty]; rfl

theorem cvtPacked (g : Guard) (dty : Ty) (rm : Rm) (sat : Bool) (d : Reg) (a : Reg) (b : Src) : Statement (.cvtPacked g dty rm sat d a b) := by
  intro e hw f hf; cases hf
  have hp : dty.packed = true := by
    simp [Instr.wf, Instr.entryOk] at hw; exact hw.2
  cases b <;>
  refine Eq.trans (read_float (t := dty) 0x62 (by rfl) (by decide) (by rfl)) ?_
  all_goals refine (read_cvt (by rfl)).trans ?_
  all_goals rw [hp, if_pos rfl]; rfl

theorem cvtSlot (g : Guard) (dty : Ty) (sty : Ty) (slot : BitVec 3) (d : Reg) (a : Reg) : Statement (.cvtSlot g dty sty slot d a) := by
  intro e hw f hf; cases hf
  refine Eq.trans (read_float (t := dty) 0x62 (by rfl) (by decide) (by rfl)) ?_
  refine (read_cvtSlot (by rfl)).trans ?_
  show Option.map _ (Ty.ofCode sty.code) = _
  rw [ofCode_ty]; rfl

theorem cvtn (g : Guard) (ty : Ty) (slot : BitVec 3) (d : Reg) (a : BitVec 8) (c : Reg) : Statement (.cvtn g ty slot d a c) := by
  intro e hw f hf; cases hf
  refine Eq.trans (read_float (t := ty) 0x63 (by rfl) (by decide) (by rfl)) ?_
  rfl

theorem cvtw (g : Guard) (ty : Ty) (slot : BitVec 3) (d : BitVec 8) (a : Reg) (c : Reg) : Statement (.cvtw g ty slot d a c) := by
  intro e hw f hf; cases hf
  refine Eq.trans (read_float (t := ty) 0x64 (by rfl) (by decide) (by rfl)) ?_
  rfl

theorem ld (g : Guard) (cnt : Count) (ty : Ty) (sc : Scope) (pol : Policy) (d : BitVec 8) (a : Reg) (off : Word) : Statement (.ld g cnt ty sc pol d a off) := by
  intro e hw f hf; cases hf
  refine Eq.trans (read_typed (t := ty) 0x80 (by rfl) (by decide) (by rfl) (by rfl)) ?_
  cases cnt <;> cases pol <;> rfl

theorem st (g : Guard) (cnt : Count) (ty : Ty) (sc : Scope) (pol : Policy) (a : Reg) (b : Reg) (off : Word) : Statement (.st g cnt ty sc pol a b off) := by
  intro e hw f hf; cases hf
  refine Eq.trans (read_typed (t := ty) 0x81 (by rfl) (by decide) (by rfl) (by rfl)) ?_
  cases cnt <;> cases pol <;> rfl

theorem ldk (g : Guard) (cnt : Count) (ty : Ty) (sc : Scope) (d : BitVec 8) (a : BitVec 8) (off : Word) : Statement (.ldk g cnt ty sc d a off) := by
  intro e hw f hf; cases hf
  refine Eq.trans (read_typed (t := ty) 0x82 (by rfl) (by decide) (by rfl) (by rfl)) ?_
  cases cnt <;> rfl

theorem pref (g : Guard) (sc : Scope) (a : Reg) (off : Word) : Statement (.pref g sc a off) := by
  intro e hw f hf; cases hf
  refine Eq.trans (read_scoped 0x83 (by rfl) (by decide) (by rfl)) ?_
  rfl

theorem cflush (g : Guard) (sc : Scope) (a : Reg) (off : Word) : Statement (.cflush g sc a off) := by
  intro e hw f hf; cases hf
  refine Eq.trans (read_scoped 0x84 (by rfl) (by decide) (by rfl)) ?_
  rfl

theorem cflushInv (g : Guard) (sc : Scope) (a : Reg) (off : Word) : Statement (.cflushInv g sc a off) := by
  intro e hw f hf; cases hf
  refine Eq.trans (read_scoped 0x84 (by rfl) (by decide) (by rfl)) ?_
  rfl

theorem cinv (g : Guard) (sc : Scope) (a : Reg) (off : Word) : Statement (.cinv g sc a off) := by
  intro e hw f hf; cases hf
  refine Eq.trans (read_scoped 0x85 (by rfl) (by decide) (by rfl)) ?_
  rfl

theorem cpy (g : Guard) (a : Reg) (b : Reg) (c : Reg) (loc : Word) : Statement (.cpy g a b c loc) := by
  intro e hw f hf; cases hf
  rfl

theorem cpseal (g : Guard) : Statement (.cpseal g) := by
  intro e hw f hf; cases hf
  rfl

theorem cpwait (g : Guard) (n : BitVec 4) : Statement (.cpwait g n) := by
  intro e hw f hf; cases hf
  have h : ∀ F, F = some (Instr.cpwait g ((n.setWidth 32).setWidth 4)) →
      F = some (.cpwait g n) := by
    intro _ h; rw [h]; simp
  apply h
  rfl

theorem stage (g : Guard) (n : BitVec 8) : Statement (.stage g n) := by
  intro e hw f hf; cases hf
  have h : ∀ F, F = some (Instr.stage g ((n.setWidth 32).setWidth 8)) →
      F = some (.stage g n) := by
    intro _ h; rw [h]; simp
  apply h
  rfl

theorem bulk (g : Guard) (a : BitVec 8) (b : Src) : Statement (.bulk g a b) := by
  intro e hw f hf; cases hf
  cases b <;> rfl

theorem outst (g : Guard) (d : BitVec 8) : Statement (.outst g d) := by
  intro e hw f hf; cases hf
  rfl

theorem arrive (g : Guard) (sc : Scope) (a : Reg) (b : Reg) (off : Word) : Statement (.arrive g sc a b off) := by
  intro e hw f hf; cases hf
  refine Eq.trans (read_scoped 0x96 (by rfl) (by decide) (by rfl)) ?_
  rfl

theorem arriveAnn (g : Guard) (sc : Scope) (a : Reg) (b : Reg) (c : Reg) (off : Word) : Statement (.arriveAnn g sc a b c off) := by
  intro e hw f hf; cases hf
  refine Eq.trans (read_scoped 0x96 (by rfl) (by decide) (by rfl)) ?_
  rfl

theorem await (g : Guard) (sc : Scope) (d : BitVec 8) (a : Reg) (b : Reg) (off : Word) : Statement (.await g sc d a b off) := by
  intro e hw f hf; cases hf
  refine Eq.trans (read_scoped 0x97 (by rfl) (by decide) (by rfl)) ?_
  rfl

theorem xfer (g : Guard) (a : BitVec 8) (b : BitVec 8) (c : BitVec 8) (loc : Word) : Statement (.xfer g a b c loc) := by
  intro e hw f hf; cases hf
  rfl

theorem xfer2d (g : Guard) (a : BitVec 8) (b : BitVec 8) (c : BitVec 8) (loc : Word) : Statement (.xfer2d g a b c loc) := by
  intro e hw f hf; cases hf
  rfl

theorem xslide (g : Guard) (a : BitVec 8) (b : BitVec 8) (c : BitVec 8) (loc : Word) : Statement (.xslide g a b c loc) := by
  intro e hw f hf; cases hf
  rfl

theorem xgate (g : Guard) (n : BitVec 8) : Statement (.xgate g n) := by
  intro e hw f hf; cases hf
  have h : ∀ F, F = some (Instr.xgate g ((n.setWidth 32).setWidth 8)) →
      F = some (.xgate g n) := by
    intro _ h; rw [h]; simp
  apply h
  rfl

theorem xbump (g : Guard) (d : BitVec 8) (b : Src) : Statement (.xbump g d b) := by
  intro e hw f hf; cases hf
  cases b <;> rfl

theorem xbumpRing (g : Guard) (d : BitVec 8) (a : BitVec 8) (b : Src) : Statement (.xbumpRing g d a b) := by
  intro e hw f hf; cases hf
  cases b <;> rfl

theorem fence (g : Guard) (sc : Scope) : Statement (.fence g sc) := by
  intro e hw f hf; cases hf
  refine Eq.trans (read_scoped 0xa0 (by rfl) (by decide) (by rfl)) ?_
  rfl

theorem fencex (g : Guard) (sc : Scope) (n : BitVec 5) : Statement (.fencex g sc n) := by
  intro e hw f hf; cases hf
  have h : ∀ F, F = some (Instr.fencex g sc ((n.setWidth 32).setWidth 5)) →
      F = some (.fencex g sc n) := by
    intro _ h; rw [h]; simp
  apply h
  refine Eq.trans (read_scoped 0xa1 (by rfl) (by decide) (by rfl)) ?_
  rfl

theorem barGang (g : Guard) : Statement (.barGang g) := by
  intro e hw f hf; cases hf
  rfl

theorem barBlk (g : Guard) (n : BitVec 4) : Statement (.barBlk g n) := by
  intro e hw f hf; cases hf
  have h : ∀ F, F = some (Instr.barBlk g ((n.setWidth 32).setWidth 4)) →
      F = some (.barBlk g n) := by
    intro _ h; rw [h]; simp
  apply h
  rfl

theorem barBlkArv (g : Guard) (n : BitVec 4) : Statement (.barBlkArv g n) := by
  intro e hw f hf; cases hf
  have h : ∀ F, F = some (Instr.barBlkArv g ((n.setWidth 32).setWidth 4)) →
      F = some (.barBlkArv g n) := by
    intro _ h; rw [h]; simp
  apply h
  rfl

theorem barEns (g : Guard) (n : BitVec 4) : Statement (.barEns g n) := by
  intro e hw f hf; cases hf
  have h : ∀ F, F = some (Instr.barEns g ((n.setWidth 32).setWidth 4)) →
      F = some (.barEns g n) := by
    intro _ h; rw [h]; simp
  apply h
  rfl

theorem barEnsArv (g : Guard) (n : BitVec 4) : Statement (.barEnsArv g n) := by
  intro e hw f hf; cases hf
  have h : ∀ F, F = some (Instr.barEnsArv g ((n.setWidth 32).setWidth 4)) →
      F = some (.barEnsArv g n) := by
    intro _ h; rw [h]; simp
  apply h
  rfl

theorem barCoop (g : Guard) (n : BitVec 4) : Statement (.barCoop g n) := by
  intro e hw f hf; cases hf
  have h : ∀ F, F = some (Instr.barCoop g ((n.setWidth 32).setWidth 4)) →
      F = some (.barCoop g n) := by
    intro _ h; rw [h]; simp
  apply h
  rfl

theorem atom (g : Guard) (op : AtomOp) (ty : Ty) (ord : Order) (sc : Bool) (ms : Bool) (scope : Scope) (d : Reg) (a : Reg) (b : Reg) (off : Word) : Statement (.atom g op ty ord sc ms scope d a b off) := by
  intro e hw f hf; cases hf
  have h : ∀ F, F = some (Instr.atom g op ty (Order.ofCode ((atomMod ms sc ord).setWidth 2)) ((atomMod ms sc ord).getLsbD 2) ((atomMod ms sc ord).getLsbD 3) scope d a b off) →
      F = some (.atom g op ty ord sc ms scope d a b off) := by
    intro _ h; rw [h]; simp only [atomMod_order, atomMod_two, atomMod_three]
  apply h
  refine Eq.trans (read_typed (t := ty) 0xa3 (by rfl) (by decide) (by rfl) (by rfl)) ?_
  cases op <;> rfl

theorem atomCas (g : Guard) (ty : Ty) (ord : Order) (sc : Bool) (ms : Bool) (scope : Scope) (d : Reg) (a : Reg) (b : Reg) (c : Reg) (off : Word) : Statement (.atomCas g ty ord sc ms scope d a b c off) := by
  intro e hw f hf; cases hf
  have h : ∀ F, F = some (Instr.atomCas g ty (Order.ofCode ((atomMod ms sc ord).setWidth 2)) ((atomMod ms sc ord).getLsbD 2) ((atomMod ms sc ord).getLsbD 3) scope d a b c off) →
      F = some (.atomCas g ty ord sc ms scope d a b c off) := by
    intro _ h; rw [h]; simp only [atomMod_order, atomMod_two, atomMod_three]
  apply h
  refine Eq.trans (read_typed (t := ty) 0xa3 (by rfl) (by decide) (by rfl) (by rfl)) ?_
  rfl

theorem red (g : Guard) (op : AtomOp) (ty : Ty) (rel : Bool) (sc : Bool) (ms : Bool) (scope : Scope) (a : Reg) (b : Reg) (off : Word) : Statement (.red g op ty rel sc ms scope a b off) := by
  intro e hw f hf; cases hf
  have h : ∀ F, F = some (Instr.red g op ty ((atomMod ms sc (if rel then .rel else .relaxed)).getLsbD 1) ((atomMod ms sc (if rel then .rel else .relaxed)).getLsbD 2) ((atomMod ms sc (if rel then .rel else .relaxed)).getLsbD 3) scope a b off) →
      F = some (.red g op ty rel sc ms scope a b off) := by
    intro _ h; rw [h]; simp only [atomMod_one, atomMod_two, atomMod_three]
  apply h
  refine Eq.trans (read_typed (t := ty) 0xa4 (by rfl) (by decide) (by rfl) (by rfl)) ?_
  cases op <;> rfl

theorem waita (g : Guard) (cond : WCond) (ty : Ty) (scope : Scope) (d : BitVec 8) (a : Reg) (b : Reg) (c : Reg) (off : Word) : Statement (.waita g cond ty scope d a b c off) := by
  intro e hw f hf; cases hf
  refine Eq.trans (read_typed (t := ty) 0xa5 (by rfl) (by decide) (by rfl) (by rfl)) ?_
  cases cond <;> rfl

theorem cbind (g : Guard) (d : BitVec 8) (h : BitVec 3) (b : Reg) (c : Reg) : Statement (.cbind g d h b c) := by
  intro e hw f hf; cases hf
  have h : ∀ F, F = some (Instr.cbind g d ((h.setWidth 8).setWidth 3) b c) →
      F = some (.cbind g d h b c) := by
    intro _ h; rw [h]; simp
  apply h
  rfl

theorem csend (g : Guard) (scope : Scope) (h : BitVec 3) (b : Reg) (kind : BitVec 8) : Statement (.csend g scope h b kind) := by
  intro e hw f hf; cases hf
  have h : ∀ F, F = some (Instr.csend g scope ((h.setWidth 8).setWidth 3) b ((kind.setWidth 32).setWidth 8)) →
      F = some (.csend g scope h b kind) := by
    intro _ h; rw [h]; simp
  apply h
  refine Eq.trans (read_scoped 0xb1 (by rfl) (by decide) (by rfl)) ?_
  rfl

theorem crecv (g : Guard) (scope : Scope) (d : BitVec 8) (h : BitVec 3) : Statement (.crecv g scope d h) := by
  intro e hw f hf; cases hf
  have h : ∀ F, F = some (Instr.crecv g scope d ((h.setWidth 8).setWidth 3)) →
      F = some (.crecv g scope d h) := by
    intro _ h; rw [h]; simp
  apply h
  refine Eq.trans (read_scoped 0xb2 (by rfl) (by decide) (by rfl)) ?_
  rfl

theorem ctry (g : Guard) (scope : Scope) (d : BitVec 8) (h : BitVec 3) : Statement (.ctry g scope d h) := by
  intro e hw f hf; cases hf
  have h : ∀ F, F = some (Instr.ctry g scope d ((h.setWidth 8).setWidth 3)) →
      F = some (.ctry g scope d h) := by
    intro _ h; rw [h]; simp
  apply h
  refine Eq.trans (read_scoped 0xb3 (by rfl) (by decide) (by rfl)) ?_
  rfl

theorem cdeleg (g : Guard) (h : BitVec 3) (b : Reg) : Statement (.cdeleg g h b) := by
  intro e hw f hf; cases hf
  have h : ∀ F, F = some (Instr.cdeleg g ((h.setWidth 8).setWidth 3) b) →
      F = some (.cdeleg g h b) := by
    intro _ h; rw [h]; simp
  apply h
  rfl

theorem cstateHome (g : Guard) (d : BitVec 8) (h : BitVec 3) : Statement (.cstateHome g d h) := by
  intro e hw f hf; cases hf
  have h : ∀ F, F = some (Instr.cstateHome g d ((h.setWidth 8).setWidth 3)) →
      F = some (.cstateHome g d h) := by
    intro _ h; rw [h]; simp
  apply h
  rfl

theorem cstateRole (g : Guard) (d : BitVec 8) (h : BitVec 3) : Statement (.cstateRole g d h) := by
  intro e hw f hf; cases hf
  have h : ∀ F, F = some (Instr.cstateRole g d ((h.setWidth 8).setWidth 3)) →
      F = some (.cstateRole g d h) := by
    intro _ h; rw [h]; simp
  apply h
  rfl

theorem cclose (g : Guard) (h : BitVec 3) : Statement (.cclose g h) := by
  intro e hw f hf; cases hf
  have h : ∀ F, F = some (Instr.cclose g ((h.setWidth 8).setWidth 3)) →
      F = some (.cclose g h) := by
    intro _ h; rw [h]; simp
  apply h
  rfl

theorem cload (g : Guard) (d : BitVec 8) (a : Reg) (b : Reg) (c : Reg) : Statement (.cload g d a b c) := by
  intro e hw f hf; cases hf
  rfl

theorem mzero (g : Guard) (d : BitVec 2) : Statement (.mzero g d) := by
  intro e hw f hf; cases hf
  have h : ∀ F, F = some (Instr.mzero g ((d.setWidth 8).setWidth 2)) →
      F = some (.mzero g d) := by
    intro _ h; rw [h]; simp
  apply h
  rfl

theorem mlda (g : Guard) (slot : BitVec 3) (a : BitVec 8) (b : BitVec 8) (c : BitVec 8) (off : Word) : Statement (.mlda g slot a b c off) := by
  intro e hw f hf; cases hf
  rfl

theorem mldb (g : Guard) (slot : BitVec 3) (a : BitVec 8) (b : BitVec 8) (c : BitVec 8) (off : Word) : Statement (.mldb g slot a b c off) := by
  intro e hw f hf; cases hf
  rfl

theorem mldbLong (g : Guard) (slot : BitVec 3) (a : BitVec 8) (b : BitVec 8) (c : BitVec 8) (off : Word) : Statement (.mldbLong g slot a b c off) := by
  intro e hw f hf; cases hf
  rfl

theorem mgath (g : Guard) (slot : BitVec 3) (a : BitVec 8) (b : BitVec 8) (c : BitVec 8) (off : Word) : Statement (.mgath g slot a b c off) := by
  intro e hw f hf; cases hf
  rfl

theorem mconv (g : Guard) (slot : BitVec 3) (a : BitVec 8) (b : BitVec 8) (c : BitVec 8) (off : Word) : Statement (.mconv g slot a b c off) := by
  intro e hw f hf; cases hf
  rfl

theorem mma (g : Guard) (d : BitVec 2) : Statement (.mma g d) := by
  intro e hw f hf; cases hf
  have h : ∀ F, F = some (Instr.mma g ((d.setWidth 8).setWidth 2)) →
      F = some (.mma g d) := by
    intro _ h; rw [h]; simp
  apply h
  rfl

theorem maccl (g : Guard) (d : BitVec 2) (a : BitVec 8) (b : BitVec 8) (off : Word) : Statement (.maccl g d a b off) := by
  intro e hw f hf; cases hf
  have h : ∀ F, F = some (Instr.maccl g ((d.setWidth 8).setWidth 2) a b off) →
      F = some (.maccl g d a b off) := by
    intro _ h; rw [h]; simp
  apply h
  rfl

theorem mdrainF32 (g : Guard) (slot : BitVec 3) (d : BitVec 2) (a : BitVec 8) (b : BitVec 8) (c : BitVec 8) (off : Word) : Statement (.mdrainF32 g slot d a b c off) := by
  intro e hw f hf; cases hf
  have h : ∀ F, F = some (Instr.mdrainF32 g slot ((d.setWidth 8).setWidth 2) a b c off) →
      F = some (.mdrainF32 g slot d a b c off) := by
    intro _ h; rw [h]; simp
  apply h
  rfl

theorem mdrainI32 (g : Guard) (slot : BitVec 3) (d : BitVec 2) (a : BitVec 8) (b : BitVec 8) (c : BitVec 8) (off : Word) : Statement (.mdrainI32 g slot d a b c off) := by
  intro e hw f hf; cases hf
  have h : ∀ F, F = some (Instr.mdrainI32 g slot ((d.setWidth 8).setWidth 2) a b c off) →
      F = some (.mdrainI32 g slot d a b c off) := by
    intro _ h; rw [h]; simp
  apply h
  rfl

theorem launch (g : Guard) (d : BitVec 8) (a : Reg) (off : Word) : Statement (.launch g d a off) := by
  intro e hw f hf; cases hf
  rfl

theorem gsigArr (g : Guard) (a : Reg) (b : Reg) (off : Word) : Statement (.gsigArr g a b off) := by
  intro e hw f hf; cases hf
  rfl

theorem gsigAnn (g : Guard) (a : Reg) (b : Reg) (off : Word) : Statement (.gsigAnn g a b off) := by
  intro e hw f hf; cases hf
  rfl

theorem gsigSeal (g : Guard) (a : Reg) (off : Word) : Statement (.gsigSeal g a off) := by
  intro e hw f hf; cases hf
  rfl

theorem cancel (g : Guard) (d : BitVec 8) (a : Reg) (off : Word) : Statement (.cancel g d a off) := by
  intro e hw f hf; cases hf
  rfl

theorem sys (g : Guard) (n : BitVec 16) : Statement (.sys g n) := by
  intro e hw f hf; cases hf
  have h : ∀ F, F = some (Instr.sys g ((n.setWidth 32).setWidth 16)) →
      F = some (.sys g n) := by
    intro _ h; rw [h]; simp
  apply h
  rfl

theorem sret (g : Guard) : Statement (.sret g) := by
  intro e hw f hf; cases hf
  rfl

theorem hcall (g : Guard) (n : BitVec 16) : Statement (.hcall g n) := by
  intro e hw f hf; cases hf
  have h : ∀ F, F = some (Instr.hcall g ((n.setWidth 32).setWidth 16)) →
      F = some (.hcall g n) := by
    intro _ h; rw [h]; simp
  apply h
  rfl

theorem hret (g : Guard) : Statement (.hret g) := by
  intro e hw f hf; cases hf
  rfl

theorem mfs (g : Guard) (d : BitVec 8) (num : BitVec 8) : Statement (.mfs g d num) := by
  intro e hw f hf; cases hf
  rfl

theorem mts (g : Guard) (num : BitVec 8) (a : Reg) : Statement (.mts g num a) := by
  intro e hw f hf; cases hf
  have hn : num ≠ gholdNumber := by
    simp [Instr.wf, Instr.entryOk] at hw; exact hw.2.2
  show (if num = gholdNumber then _ else _) = _
  rw [if_neg hn]; rfl

theorem mtsGhold (g : Guard) (a : Reg) : Statement (.mtsGhold g a) := by
  intro e hw f hf; cases hf
  rfl

theorem tlbinvAll (g : Guard) : Statement (.tlbinvAll g) := by
  intro e hw f hf; cases hf
  rfl

theorem tlbinvAsid (g : Guard) (a : Reg) : Statement (.tlbinvAsid g a) := by
  intro e hw f hf; cases hf
  rfl

theorem tlbinvPage (g : Guard) (a : Reg) (b : Reg) : Statement (.tlbinvPage g a b) := by
  intro e hw f hf; cases hf
  rfl

theorem tlbinvVmid (g : Guard) (a : Reg) : Statement (.tlbinvVmid g a) := by
  intro e hw f hf; cases hf
  rfl

theorem fresume (g : Guard) (d : BitVec 8) (a : Reg) : Statement (.fresume g d a) := by
  intro e hw f hf; cases hf
  rfl

theorem fkillTok (g : Guard) (d : BitVec 8) (a : Reg) : Statement (.fkillTok g d a) := by
  intro e hw f hf; cases hf
  rfl

theorem fkillGang (g : Guard) (d : BitVec 8) (a : Reg) : Statement (.fkillGang g d a) := by
  intro e hw f hf; cases hf
  rfl

theorem tokwait (g : Guard) (d : BitVec 8) (a : Reg) : Statement (.tokwait g d a) := by
  intro e hw f hf; cases hf
  rfl

theorem ctxsave (g : Guard) (d : BitVec 8) (a : Reg) : Statement (.ctxsave g d a) := by
  intro e hw f hf; cases hf
  rfl

theorem ctxload (g : Guard) (d : BitVec 8) (a : Reg) (b : Reg) : Statement (.ctxload g d a b) := by
  intro e hw f hf; cases hf
  rfl

theorem walkres (g : Guard) (d : BitVec 8) (a : BitVec 8) : Statement (.walkres g d a) := by
  intro e hw f hf; cases hf
  rfl

theorem walkresSkip (g : Guard) (d : BitVec 8) (a : BitVec 8) : Statement (.walkresSkip g d a) := by
  intro e hw f hf; cases hf
  rfl

theorem tmove (g : Guard) (d : BitVec 8) (a : BitVec 8) (b : BitVec 8) (len : Word) : Statement (.tmove g d a b len) := by
  intro e hw f hf; cases hf
  rfl

theorem treplAdd (g : Guard) (d : BitVec 8) (a : BitVec 8) (b : BitVec 8) (c : BitVec 8) (len : Word) : Statement (.treplAdd g d a b c len) := by
  intro e hw f hf; cases hf
  rfl

theorem treplDrop (g : Guard) (d : BitVec 8) (a : BitVec 8) (slots : BitVec 4) : Statement (.treplDrop g d a slots) := by
  intro e hw f hf; cases hf
  have h : ∀ F, F = some (Instr.treplDrop g d a ((slots.setWidth 32).setWidth 4)) →
      F = some (.treplDrop g d a slots) := by
    intro _ h; rw [h]; simp
  apply h
  rfl

theorem bootGo (len : DWord) : Statement (.bootGo len) := by
  intro _ _ f h; cases h

theorem firmwareStageComplete (r : StageOutcome) (skewPs : List Int) (bands : List (Nat × Nat × Nat)) : Statement (.firmwareStageComplete r skewPs bands) := by
  intro _ _ f h; cases h

theorem pcieHotReset : Statement .pcieHotReset := by
  intro _ _ f h; cases h

theorem mailboxStore (addr : DWord) : Statement (.mailboxStore addr) := by
  intro _ _ f h; cases h

theorem attestationReport : Statement .attestationReport := by
  intro _ _ f h; cases h

theorem temperatureSample (cluster : Nat) (celsius : Int) : Statement (.temperatureSample cluster celsius) := by
  intro _ _ f h; cases h

theorem layerVoltageSample (node : Nat) (pair : Nat) (upper : Bool) (millivolts : Nat) : Statement (.layerVoltageSample node pair upper millivolts) := by
  intro _ _ f h; cases h

theorem midRailSample (node : Nat) (pair : Nat) (offMillivolts : Nat) : Statement (.midRailSample node pair offMillivolts) := by
  intro _ _ f h; cases h

theorem processMonitorSample (cluster : Nat) (count : Nat) : Statement (.processMonitorSample cluster count) := by
  intro _ _ f h; cases h

theorem droopRestoreStep (region : Nat) : Statement (.droopRestoreStep region) := by
  intro _ _ f h; cases h

theorem selfTestSlot (cluster : Nat) : Statement (.selfTestSlot cluster) := by
  intro _ _ f h; cases h

theorem selfTestSlotEnd (cluster : Nat) (pass : Bool) : Statement (.selfTestSlotEnd cluster pass) := by
  intro _ _ f h; cases h

theorem scrubPass (unit : FaultUnit) (addr : Nat) : Statement (.scrubPass unit addr) := by
  intro _ _ f h; cases h

theorem hostMemoryAccess (staging : Bool) (vmid : Nat) (addr : Nat) (len : Nat) (write : Option (List Byte)) : Statement (.hostMemoryAccess staging vmid addr len write) := by
  intro _ _ f h; cases h

theorem registerWrite (r : MapReg) (v : Word) : Statement (.registerWrite r v) := by
  intro _ _ f h; cases h

theorem doorbell (vmid : Nat) (queue : Nat) : Statement (.doorbell vmid queue) := by
  intro _ _ f h; cases h

theorem queueTailPoll (ctx : Nat) (queue : Nat) : Statement (.queueTailPoll ctx queue) := by
  intro _ _ f h; cases h

theorem launchAccept (ctx : Nat) (queue : Nat) : Statement (.launchAccept ctx queue) := by
  intro _ _ f h; cases h

theorem graphStartAccept (ctx : Nat) (queue : Nat) : Statement (.graphStartAccept ctx queue) := by
  intro _ _ f h; cases h

theorem recordComplete (addr : Nat) : Statement (.recordComplete addr) := by
  intro _ _ f h; cases h

theorem heldWriteRetry : Statement .heldWriteRetry := by
  intro _ _ f h; cases h

end Sys2Proof.Laws.Reads

theorem Sys2Proof.Laws.Reads.seal (vmid : Nat) (addr : DWord) : Sys2Proof.Laws.Reads.Statement (Sys2Proof.Instr.seal vmid addr) := by
  intro _ _ f h; cases h

namespace Sys2Proof.Laws.Reads

theorem graphNodeLaunch (graph : Nat) (node : Nat) : Statement (.graphNodeLaunch graph node) := by
  intro _ _ f h; cases h

theorem graphNodeCopy (graph : Nat) (node : Nat) : Statement (.graphNodeCopy graph node) := by
  intro _ _ f h; cases h

theorem graphNodeConditional (graph : Nat) (node : Nat) : Statement (.graphNodeConditional graph node) := by
  intro _ _ f h; cases h

theorem graphNodeLoop (graph : Nat) (node : Nat) : Statement (.graphNodeLoop graph node) := by
  intro _ _ f h; cases h

theorem graphNodeWait (graph : Nat) (node : Nat) : Statement (.graphNodeWait graph node) := by
  intro _ _ f h; cases h

theorem graphNodeSignal (graph : Nat) (node : Nat) : Statement (.graphNodeSignal graph node) := by
  intro _ _ f h; cases h

theorem cancelGraceExpiry (tag : Nat) : Statement (.cancelGraceExpiry tag) := by
  intro _ _ f h; cases h

theorem walkRecordRead (tag : Nat) (index : Nat) : Statement (.walkRecordRead tag index) := by
  intro _ _ f h; cases h

theorem deferredNotify (tag : Nat) (index : Nat) : Statement (.deferredNotify tag index) := by
  intro _ _ f h; cases h

theorem blockCreate (tag : Nat) (node : Nat) : Statement (.blockCreate tag node) := by
  intro _ _ f h; cases h

theorem blockPlace (tag : Nat) (node : Nat) (index : Nat) : Statement (.blockPlace tag node index) := by
  intro _ _ f h; cases h

theorem ensemblePlace (tag : Nat) (cell : Nat) : Statement (.ensemblePlace tag cell) := by
  intro _ _ f h; cases h

theorem preferenceRebuild (node : Nat) (currents : List Nat) : Statement (.preferenceRebuild node currents) := by
  intro _ _ f h; cases h

theorem clusterGate (cluster : Nat) : Statement (.clusterGate cluster) := by
  intro _ _ f h; cases h

theorem clusterWake (cluster : Nat) : Statement (.clusterWake cluster) := by
  intro _ _ f h; cases h

theorem moveCommit (move : Nat) : Statement (.moveCommit move) := by
  intro _ _ f h; cases h

theorem replicaAddCommit (move : Nat) : Statement (.replicaAddCommit move) := by
  intro _ _ f h; cases h

theorem migrationAbort (move : Nat) : Statement (.migrationAbort move) := by
  intro _ _ f h; cases h

theorem instructionRefetch (core : Nat) (line : Nat) : Statement (.instructionRefetch core line) := by
  intro _ _ f h; cases h

theorem translationWalkDone (walk : Nat) : Statement (.translationWalkDone walk) := by
  intro _ _ f h; cases h

theorem copyPacketPerformed (copy : Nat) : Statement (.copyPacketPerformed copy) := by
  intro _ _ f h; cases h

theorem copyFault (copy : Nat) : Statement (.copyFault copy) := by
  intro _ _ f h; cases h

theorem combineTimeout (core : Nat) (entry : Nat) : Statement (.combineTimeout core entry) := by
  intro _ _ f h; cases h

theorem remoteRequest (source : Nat) (vmid : Nat) (seq : Nat) (secure : Bool) (offset : Nat) (kind : ReqKind) : Statement (.remoteRequest source vmid seq secure offset kind) := by
  intro _ _ f h; cases h

theorem remoteReply (request : Nat) (reply : ReplyKind) : Statement (.remoteReply request reply) := by
  intro _ _ f h; cases h

theorem nackResend (request : Nat) : Statement (.nackResend request) := by
  intro _ _ f h; cases h

theorem routeTimeout (request : Nat) : Statement (.routeTimeout request) := by
  intro _ _ f h; cases h

theorem flitCrcFail (link : Nat) : Statement (.flitCrcFail link) := by
  intro _ _ f h; cases h

theorem linkRetrain (link : Nat) (ok : Bool) : Statement (.linkRetrain link ok) := by
  intro _ _ f h; cases h

theorem monitorEvaluate (monitor : Nat) : Statement (.monitorEvaluate monitor) := by
  intro _ _ f h; cases h

theorem monitorPoll (monitor : Nat) : Statement (.monitorPoll monitor) := by
  intro _ _ f h; cases h

theorem waitaTimeout (gang : Nat) (lane : Nat) : Statement (.waitaTimeout gang lane) := by
  intro _ _ f h; cases h

theorem sendJudge (home : Nat) : Statement (.sendJudge home) := by
  intro _ _ f h; cases h

theorem creditReturn (home : Nat) (role : Nat) : Statement (.creditReturn home role) := by
  intro _ _ f h; cases h

theorem messageDelivery (home : Nat) (role : Nat) : Statement (.messageDelivery home role) := by
  intro _ _ f h; cases h

theorem entryReturn (home : Nat) (role : Nat) : Statement (.entryReturn home role) := by
  intro _ _ f h; cases h

theorem deliveryStall (home : Nat) (role : Nat) : Statement (.deliveryStall home role) := by
  intro _ _ f h; cases h

theorem deliveryResume (home : Nat) (role : Nat) : Statement (.deliveryResume home role) := by
  intro _ _ f h; cases h

theorem faultOverflowPost (node : Nat) : Statement (.faultOverflowPost node) := by
  intro _ _ f h; cases h

theorem parkedResume (gang : Nat) (index : Nat) : Statement (.parkedResume gang index) := by
  intro _ _ f h; cases h

theorem blockEvict (block : Nat) : Statement (.blockEvict block) := by
  intro _ _ f h; cases h

theorem contextSaveComplete (node : Nat) : Statement (.contextSaveComplete node) := by
  intro _ _ f h; cases h

theorem saveGraceExpiry (node : Nat) : Statement (.saveGraceExpiry node) := by
  intro _ _ f h; cases h

theorem blockRetire (block : Nat) : Statement (.blockRetire block) := by
  intro _ _ f h; cases h

theorem sequencerExit (block : Nat) (matrix : Bool) : Statement (.sequencerExit block matrix) := by
  intro _ _ f h; cases h

theorem singleFault (unit : FaultUnit) (addr : Nat) : Statement (.singleFault unit addr) := by
  intro _ _ f h; cases h

theorem powerUpReset : Statement .powerUpReset := by
  intro _ _ f h; cases h

theorem inputUndervoltage : Statement .inputUndervoltage := by
  intro _ _ f h; cases h

theorem imageVerified : Statement .imageVerified := by
  intro _ _ f h; cases h

end Sys2Proof.Laws.Reads
end

