-- ==== Sys2Proof/Machine/OlasText.lean ====
section
/-! DEFINITION. The text of `olas` source (R70 to R72, R84): diagnostics, characters to tokens, register names, expressions and
their values. -/

namespace Sys2Proof.Olas

/-- Diagnostic codes (Table 4.8). -/
inductive Code where
  | e101 | e102 | e103 | e104 | e105 | e106 | e107 | e108 | e109 | e110 | e111 | e112 | e113 | e114 | e115 | e116 | e117 | e118
  | e119 | e120 | e121 | e122
  | w201 | w202 | w203 | w204 | w205
  deriving DecidableEq, Repr

/-- The number of a code, as it is written after `OA-E` or `OA-W`. -/
def Code.number : Code → Nat
  | .e101 => 101 | .e102 => 102 | .e103 => 103 | .e104 => 104 | .e105 => 105 | .e106 => 106 | .e107 => 107 | .e108 => 108
  | .e109 => 109 | .e110 => 110 | .e111 => 111 | .e112 => 112 | .e113 => 113 | .e114 => 114 | .e115 => 115 | .e116 => 116
  | .e117 => 117 | .e118 => 118 | .e119 => 119 | .e120 => 120 | .e121 => 121 | .e122 => 122
  | .w201 => 201 | .w202 => 202 | .w203 => 203 | .w204 => 204 | .w205 => 205

/-- Whether a code is a warning's. -/
def Code.warns (c : Code) : Bool := 200 ≤ c.number

/-- The meaning of a code (Table 4.8), without the full stop. -/
def Code.meaning : Code → String
  | .e101 => "Syntax error"
  | .e102 => "Unknown mnemonic, modifier or directive"
  | .e103 => "Wrong number or kind of operands"
  | .e104 => "Value does not fit its field, or division by zero"
  | .e105 => "Undefined symbol"
  | .e106 => "Symbol defined twice"
  | .e107 => "Branch or call target in data, or in a code section of another line kind"
  | .e108 => "Pairing not permitted, or label on the second instruction of a pair"
  | .e109 => "Register beyond the declared allocation"
  | .e110 => "Register name outside its bank, writing p7, or a register of another engine"
  | .e111 => "Odd register used as a pair or memory base"
  | .e112 => "Format-slot index out of range, or naming an empty slot"
  | .e113 => "Privileged instruction above the section's mode, or a .mode above the mode that --mode allows"
  | .e114 => "Instruction not executed by the section's engine"
  | .e115 => "SC atomic at sys scope"
  | .e116 => "Protocol table fails validation"
  | .e117 => "Record field outside its limits, REGS below the kernel's use, or a launch record naming a kernel not assembled at mode u"
  | .e118 => "Macro error"
  | .e119 => "Include not found, too deep, or .if unbalanced"
  | .e120 => "Instruction outside a kernel or .proc, or a kernel or .proc left open"
  | .e121 => "More than 64 sections, or a section over 2^32 - 1 bytes"
  | .e122 => "Directive not allowed in this section"
  | .w201 => "Label never referenced; its target bit is left clear"
  | .w202 => "New line started to keep a pair in one line"
  | .w203 => "Data literal rounded inexactly"
  | .w204 => "Launch record declares more registers than the kernel uses"
  | .w205 => "Kernel named by no launch record in the image"

/-- A diagnostic (R84): where and what, the number that it is about (a register, a state, a slot), and the number beside it (for
OA-E109 the allocation, for OA-E116 the check that failed). -/
structure Diag where
  file : String
  line : Nat
  code : Code
  about : Option Nat := none
  more : Option Nat := none
  deriving DecidableEq, Repr

/-- The head of a diagnostic as `olas` writes it: `file:line: OA-E109`. -/
def Diag.head (d : Diag) : String :=
  d.file ++ ":" ++ Nat.repr d.line ++ ": OA-" ++ (if d.code.warns then "W" else "E") ++ Nat.repr d.code.number

/-- What follows the head. R84 gives the words for OA-E109, and every other code has the meaning of Table 4.8; that these words
are the message, and how a check and a state are added for OA-E116, is the model's choice (DESIGN CHOICE: log entry 88). -/
def Diag.message (d : Diag) : String :=
  match d.code, d.about, d.more with
  | .e109, some x, some n => "x" ++ Nat.repr x ++ " beyond allocation of " ++ Nat.repr n
  | .e116, some st, some c => d.code.meaning ++ ": check " ++ Nat.repr c ++ ", state " ++ Nat.repr st
  | _, _, _ => d.code.meaning

/-- A diagnostic as `olas` writes it (R84). -/
def Diag.text (d : Diag) : String := d.head ++ " " ++ d.message

/-- Tokens of a source line. A decimal literal is `m * 10 ^ e`. -/
inductive Tok where
  | num (v : Nat)
  | dec (m : Nat) (e : Int)
  | id (s : String)
  | str (s : String)
  | op (s : String)
  deriving DecidableEq, Repr

def isLetter (c : Char) : Bool := c.isAlpha || c == '_' || c == '.'
def isSymbolChar (c : Char) : Bool := c.isAlphanum || c == '_' || c == '.' || c == '$' || c == '#'

/-- The value of a digit in bases up to 16. -/
def digit (c : Char) : Option Nat :=
  let n := c.toNat
  if 48 ≤ n ∧ n ≤ 57 then some (n - 48)
  else if 97 ≤ n ∧ n ≤ 102 then some (n - 87)
  else if 65 ≤ n ∧ n ≤ 70 then some (n - 55)
  else none

/-- Digits of a base, with `_` between them: the value so far, and how many there were. -/
def digits (base : Nat) : List Char → Nat → Nat → Nat × Nat × List Char
  | [], v, n => (v, n, [])
  | c :: cs, v, n =>
    if c = '_' then digits base cs v n
    else
      match digit c with
      | some d => if d < base then digits base cs (v * base + d) (n + 1) else (v, n, c :: cs)
      | none => (v, n, c :: cs)

/-- An exponent of a decimal literal. -/
def exponent (cs : List Char) : Int × List Char :=
  match cs with
  | e :: '-' :: d :: r =>
    if (e = 'e' ∨ e = 'E') ∧ d.isDigit then let (v, _, r) := digits 10 (d :: r) 0 0; (-(v : Int), r) else (0, cs)
  | e :: '+' :: d :: r =>
    if (e = 'e' ∨ e = 'E') ∧ d.isDigit then let (v, _, r) := digits 10 (d :: r) 0 0; ((v : Int), r) else (0, cs)
  | e :: d :: r =>
    if (e = 'e' ∨ e = 'E') ∧ d.isDigit then let (v, _, r) := digits 10 (d :: r) 0 0; ((v : Int), r) else (0, cs)
  | _ => (0, cs)

/-- A number, `0x` or `0b` or decimal, or a decimal literal (R72). -/
def number (cs : List Char) : Option (Tok × List Char) :=
  match cs with
  | '0' :: 'x' :: r => let (v, n, r) := digits 16 r 0 0; if n = 0 then none else some (.num v, r)
  | '0' :: 'b' :: r => let (v, n, r) := digits 2 r 0 0; if n = 0 then none else some (.num v, r)
  | _ =>
    let (v, _, r) := digits 10 cs 0 0
    let (m, n, point, r) :=
      match r with
      | '.' :: d :: r' => if d.isDigit then let (v, n, r) := digits 10 (d :: r') v 0; (v, n, true, r) else (v, 0, false, r)
      | _ => (v, 0, false, r)
    let (e, r') := exponent r
    if point || r'.length ≠ r.length then some (.dec m (e - n), r') else some (.num v, r)

/-- The longest run of characters that satisfy `p`. -/
def takeRun (p : Char → Bool) : List Char → List Char × List Char
  | [] => ([], [])
  | c :: cs => if p c then let (a, b) := takeRun p cs; (c :: a, b) else ([], c :: cs)

def isBlank (c : Char) : Bool := c == ' ' || c == '\t' || c == '\r'

/-- Tokens of the characters of a line; none where a character starts no token. -/
def lex : Nat → List Char → Option (List Tok)
  | 0, _ => none
  | _, [] => some []
  | fuel + 1, c :: cs =>
    if isBlank c then lex fuel cs
    else if c.isDigit then (number (c :: cs)).bind fun (t, r) => (lex fuel r).map (t :: ·)
    else if isLetter c then
      let (a, r) := takeRun isSymbolChar (c :: cs)
      (lex fuel r).map (.id (String.ofList a) :: ·)
    else if c = '"' then
      let (a, r) := takeRun (· != '"') cs
      match r with
      | _ :: r => (lex fuel r).map (.str (String.ofList a) :: ·)
      | [] => none
    else
      match c, cs with
      | '|', '|' :: r => (lex fuel r).map (.op "||" :: ·)
      | '<', '<' :: r => (lex fuel r).map (.op "<<" :: ·)
      | '>', '>' :: r => (lex fuel r).map (.op ">>" :: ·)
      | _, _ =>
        if "+-*/%&|^~()[],:=!".toList.contains c then (lex fuel cs).map (.op (String.ofList [c]) :: ·) else none

/-- The tokens of a line. -/
def tokens (cs : List Char) : Option (List Tok) := lex (cs.length + 1) cs

/-- A line without its comment; a `;` inside a file name starts none. -/
def uncomment : Bool → List Char → List Char
  | _, [] => []
  | q, c :: cs => if c = ';' && !q then [] else c :: uncomment (if c = '"' then !q else q) cs

/-- A line without the blanks at its ends. -/
def trim (cs : List Char) : List Char :=
  ((cs.dropWhile isBlank).reverse.dropWhile isBlank).reverse

/-- A list cut at the elements equal to `x` that stand outside brackets. -/
def cutAt (isX : Tok → Bool) : Nat → List Tok → List (List Tok)
  | _, [] => [[]]
  | depth, t :: ts =>
    if isX t && depth = 0 then [] :: cutAt isX 0 ts
    else
      let depth := match t with
        | .op "(" | .op "[" => depth + 1
        | .op ")" | .op "]" => depth - 1
        | _ => depth
      match cutAt isX depth ts with
      | g :: gs => (t :: g) :: gs
      | [] => [[t]]

/-- The parts between the commas of a list; no part where there is no token. -/
def parts (ts : List Tok) : List (List Tok) := if ts = [] then [] else cutAt (· == .op ",") 0 ts

-- Registers (R71, Table 4.2)

/-- Register banks as source names them. -/
inductive Bank where
  | x | p | k | h | s | acc | q
  deriving DecidableEq, Repr

/-- How many registers of a bank have names. -/
def Bank.size : Bank → Nat
  | .x => 256 | .p => 8 | .k => 64 | .h => 8 | .s => 32 | .acc => 4 | .q => 16

/-- A register as written: bank, number, and whether `.d` names its pair. -/
structure RegName where
  bank : Bank
  n : Nat
  pair : Bool
  deriving DecidableEq, Repr

/-- The register that an identifier has the form of: letters of a bank, a number, and possibly `.d`. -/
def regName (s : String) : Option RegName :=
  let cs := s.toList
  let (cs, pair) := if cs.drop (cs.length - 2) = ['.', 'd'] then (cs.take (cs.length - 2), true) else (cs, false)
  let (word, ds) := takeRun Char.isAlpha cs
  let bank := match String.ofList word with
    | "x" => some Bank.x
    | "p" => some .p
    | "k" => some .k
    | "h" => some .h
    | "s" => some .s
    | "acc" => some .acc
    | "q" => some .q
    | _ => none
  if ds = [] || !ds.all Char.isDigit then none
  else bank.map fun b => ⟨b, (digits 10 ds 0 0).1, pair⟩

/-- Whether a name of that form names a register (Table 4.2): E110 beyond its bank, E111 for a pair of an odd number. -/
def RegName.check (r : RegName) : Option Code :=
  if r.bank.size ≤ r.n then some .e110
  else if r.pair && r.n % 2 = 1 then some .e111
  else if r.pair && (r.bank = .p || r.bank = .h || r.bank = .acc) then some .e110
  else none

-- Expressions (R72)

inductive BinOp where
  | add | sub | mul | div | mod | shl | shr | and | xor | or
  deriving DecidableEq, Repr

inductive Expr where
  | num (v : DWord)
  | sym (s : String)
  | dot
  | neg (e : Expr)
  | not (e : Expr)
  | lo (e : Expr)
  | hi (e : Expr)
  | bin (o : BinOp) (a b : Expr)
  deriving DecidableEq, Repr

/-- Binary operators and their precedence, as in C: a higher level binds closer. -/
def binOp : String → Option (BinOp × Nat)
  | "*" => some (.mul, 6) | "/" => some (.div, 6) | "%" => some (.mod, 6)
  | "+" => some (.add, 5) | "-" => some (.sub, 5)
  | "<<" => some (.shl, 4) | ">>" => some (.shr, 4)
  | "&" => some (.and, 3) | "^" => some (.xor, 2) | "|" => some (.or, 1)
  | _ => none

/-- A decimal literal as an exact value. -/
def decVal (neg : Bool) (m : Nat) (e : Int) : Num.Val :=
  if 0 ≤ e then .fin neg (m * 10 ^ e.toNat) 1 else .fin neg m (10 ^ (-e).toNat)

/-- A decimal literal, with its sign. -/
def literal : List Tok → Option (Num.Val × List Tok)
  | .op "-" :: .dec m e :: r => some (decVal true m e, r)
  | .op "-" :: .num v :: r => some (decVal true v 0, r)
  | .op "+" :: .dec m e :: r => some (decVal false m e, r)
  | .op "+" :: .num v :: r => some (decVal false v 0, r)
  | .dec m e :: r => some (decVal false m e, r)
  | .num v :: r => some (decVal false v 0, r)
  | _ => none

mutual

/-- An operand of an expression, with its unary operators. -/
def primary : Nat → List Tok → Option (Expr × List Tok)
  | 0, _ => none
  | fuel + 1, ts =>
    let group := fun (f : Expr → Expr) (r : List Tok) =>
      match expression fuel 1 r with
      | some (e, .op ")" :: r) => some (f e, r)
      | _ => none
    match ts with
    | .num v :: r => if v < 2 ^ 64 then some (.num (BitVec.ofNat 64 v), r) else none
    | .op "-" :: r => (primary fuel r).map fun (e, r) => (.neg e, r)
    | .op "+" :: r => primary fuel r
    | .op "~" :: r => (primary fuel r).map fun (e, r) => (.not e, r)
    | .op "(" :: r => group id r
    | .id "lo" :: .op "(" :: r => group .lo r
    | .id "hi" :: .op "(" :: r => group .hi r
    | .id "f32" :: .op "(" :: r =>
      match literal r with
      | some (v, .op ")" :: r) => some (.num (BitVec.ofNat 64 (Num.round Num.fp32 .rne false v).1), r)
      | _ => none
    | .id "." :: r => some (.dot, r)
    | .id s :: r => if (regName s).isSome then none else some (.sym s, r)
    | _ => none

/-- An expression whose operators bind at `level` or closer. -/
def expression : Nat → Nat → List Tok → Option (Expr × List Tok)
  | 0, _, _ => none
  | fuel + 1, level, ts => (primary fuel ts).bind fun (e, r) => operators fuel level e r

/-- The operators that follow a left operand. -/
def operators : Nat → Nat → Expr → List Tok → Option (Expr × List Tok)
  | 0, _, e, ts => some (e, ts)
  | fuel + 1, level, e, ts =>
    match ts with
    | .op s :: r =>
      match binOp s with
      | some (o, l) =>
        if l < level then some (e, ts)
        else
          match expression fuel (l + 1) r with
          | some (f, r) => operators fuel level (.bin o e f) r
          | none => none
      | none => some (e, ts)
    | _ => some (e, ts)

end

/-- A whole list of tokens as an expression. -/
def parseExpr (ts : List Tok) : Option Expr :=
  match expression (2 * ts.length + 2) 1 ts with
  | some (e, []) => some e
  | _ => none

/-- What a section-relative or imported value counts from: a section, by its kind, or an import, by its index. -/
inductive Base where
  | sec (kind : Nat)
  | imp (n : Nat)
  deriving DecidableEq, Repr

/-- The part of a value that is written: all 64 bits, bits [31:0] or bits [63:32]. -/
inductive Part where
  | whole | lo | hi
  deriving DecidableEq, Repr

/-- A value: known, or known once the loader has placed the sections. -/
inductive Val where
  | abs (v : DWord)
  | rel (b : Base) (add : DWord) (part : Part)
  deriving DecidableEq, Repr

/-- An operator on known values, in 64-bit two's complement (R72). -/
def BinOp.apply : BinOp → DWord → DWord → Option DWord
  | .add, a, b => some (a + b)
  | .sub, a, b => some (a - b)
  | .mul, a, b => some (a * b)
  | .div, a, b => if b = 0 then none else some (a.sdiv b)
  | .mod, a, b => if b = 0 then none else some (a.srem b)
  | .shl, a, b => some (a <<< b.toNat)
  | .shr, a, b => some (a.sshiftRight b.toNat)
  | .and, a, b => some (a &&& b)
  | .xor, a, b => some (a ^^^ b)
  | .or, a, b => some (a ||| b)

/-- The value of an expression under the symbols' values and the current address. -/
def Expr.eval (look : String → Except Code Val) (here : Except Code Val) : Expr → Except Code Val
  | .num v => .ok (.abs v)
  | .sym s => look s
  | .dot => here
  | .neg e => do
    match ← e.eval look here with
    | .abs v => .ok (.abs (-v))
    | .rel _ _ _ => .error .e104
  | .not e => do
    match ← e.eval look here with
    | .abs v => .ok (.abs (~~~v))
    | .rel _ _ _ => .error .e104
  | .lo e => do
    match ← e.eval look here with
    | .abs v => .ok (.abs (v &&& 0xFFFFFFFF))
    | .rel b a .whole => .ok (.rel b a .lo)
    | .rel _ _ _ => .error .e104
  | .hi e => do
    match ← e.eval look here with
    | .abs v => .ok (.abs (v >>> 32))
    | .rel b a .whole => .ok (.rel b a .hi)
    | .rel _ _ _ => .error .e104
  | .bin o x y => do
    match o, ← x.eval look here, ← y.eval look here with
    | o, .abs a, .abs b =>
      match o.apply a b with
      | some v => .ok (.abs v)
      | none => .error .e104
    | .add, .rel b a .whole, .abs c => .ok (.rel b (a + c) .whole)
    | .add, .abs c, .rel b a .whole => .ok (.rel b (a + c) .whole)
    | .sub, .rel b a .whole, .abs c => .ok (.rel b (a - c) .whole)
    | _, _, _ => .error .e104

/-- The symbols that an expression names. -/
def Expr.names : Expr → List String
  | .num _ | .dot => []
  | .sym s => [s]
  | .neg e | .not e | .lo e | .hi e => e.names
  | .bin _ a b => a.names ++ b.names

/-- The symbols of the expressions of a list; tokens that are no expression name none. -/
def symbolsOf (tss : List (List Tok)) : List String :=
  (tss.map fun ts => ((parseExpr ts).map Expr.names).getD []).flatten

end Sys2Proof.Olas
end

