-- ==== Sys2Proof/Machine/OlasForms.lean ====
section
/-! DEFINITION. The forms in which `olas` source writes instructions (Tables 8.4, 9.1 to 9.5, 10.5, 11.5, 12.2 and those of the
other chapters), and an instruction's fields from its source. -/

namespace Sys2Proof.Olas

/-- What an operand is, and the field it goes to. -/
inductive Role where
  /-- A general register into D, A, B or C. -/
  | d | a | b | c
  /-- The B operand, a register or IMM, whose immediate is signed or not. -/
  | src (signed : Bool)
  /-- The B operand of a typed form: its type says how IMM is extended. -/
  | typed
  /-- A predicate. -/
  | pd | pa | pb | pc
  /-- A role register in A, an accumulator in D. -/
  | h | acc
  /-- `[base+offset]`: the base in A, the signed offset in IMM. -/
  | mem
  /-- An unsigned IMM. -/
  | imm
  /-- The target of a branch or call. -/
  | target
  /-- A format-slot index in MOD[7:5], a shift in MOD[11:8]. -/
  | slot | shift
  /-- The name of a special register in A or D, and of a privileged register in A or D. -/
  | spA | spD | prA | prD
  /-- The access paths of `FENCEX`, all the operands that are left. -/
  | paths
  deriving DecidableEq, Repr

/-- The field that a modifier's number is added to; `sub` is SUB whole. -/
inductive Place where
  | sub | var | ty | m | sc
  deriving DecidableEq, Repr

/-- Modifiers of which one is written at one place of a mnemonic; without a default, one must be. -/
structure Group where
  place : Place
  words : List (String × Nat)
  dflt : Option Nat := none
  deriving DecidableEq, Repr

/-- A form: the mnemonic and the modifiers that are fixed, OP, SUB, modifiers in their order, operands in theirs. -/
structure Form where
  name : List String
  op : Nat
  sub : Nat
  groups : List Group
  roles : List Role
  deriving DecidableEq, Repr

/-- Type suffixes (Table 7.6). -/
def tyWords : List (String × Nat) :=
  [("i8", 0), ("i16", 1), ("i32", 2), ("i64", 3), ("n8", 4), ("n16", 5), ("n32", 6), ("n64", 7), ("f32", 8), ("bf16", 9),
    ("f16", 10), ("bf16x2", 11), ("f16x2", 12)]
def ty : Group := { place := .ty, words := tyWords }
def scope : Group := { place := .sc, words := [("gang", 0), ("blk", 1), ("die", 2), ("pkg", 3), ("sys", 4)], dflt := some 0 }
def count : Group := { place := .var, words := [("v2", 1), ("v4", 2)], dflt := some 0 }
def policy : Group := { place := .m, words := [("stream", 1), ("nc", 2)], dflt := some 0 }
def rounding : Group := { place := .var, words := [("rtz", 1), ("rup", 2), ("rdn", 3)], dflt := some 0 }
def sat : Group := { place := .var, words := [("sat", 1)], dflt := some 0 }
def segment : Group :=
  { place := .m, words := [("w1", 0), ("w2", 1), ("w4", 2), ("w8", 3), ("w16", 4), ("w32", 5)], dflt := some 5 }
def order : List Group :=
  [{ place := .m, words := [("acq", 1), ("rel", 2), ("acqrel", 3)], dflt := some 0 },
    { place := .m, words := [("sc", 4)], dflt := some 0 }, { place := .m, words := [("ms", 8)], dflt := some 0 }, scope, ty]
/-- Variants by their number, in order. -/
def oneOf (p : Place) (words : List String) : Group := { place := p, words := words.mapIdx fun i w => (w, i) }

/-- Forms of control and gang instructions (Table 8.4, R137, R138, R192, R194). -/
def controlForms : List Form :=
  [⟨["nop"], 0x00, 0, [], []⟩, ⟨["isync"], 0x13, 0, [], []⟩, ⟨["bra"], 0x01, 0, [], [.target]⟩, ⟨["brx"], 0x02, 0, [], [.a]⟩,
    ⟨["call"], 0x03, 0, [], [.d, .target]⟩, ⟨["callx"], 0x04, 0, [], [.d, .a]⟩, ⟨["ret"], 0x05, 0, [], [.a]⟩,
    ⟨["reconv"], 0x06, 0, [], [.imm]⟩, ⟨["reconv"], 0x06, 1, [], [.a]⟩, ⟨["exit"], 0x07, 0, [], []⟩,
    ⟨["fork"], 0x08, 0, [], [.d, .imm]⟩, ⟨["rdv"], 0x09, 0, [], [.imm]⟩,
    ⟨["vote", "any"], 0x0A, 0, [segment], [.pd, .pa]⟩, ⟨["vote", "all"], 0x0A, 1, [segment], [.pd, .pa]⟩,
    ⟨["vote", "ballot"], 0x0A, 2, [segment], [.d, .pa]⟩, ⟨["vote", "eq"], 0x0A, 3, [segment], [.pd, .a]⟩,
    ⟨["vote", "cnt"], 0x0A, 4, [segment], [.d, .pa]⟩,
    ⟨["shfl"], 0x0B, 0, [oneOf .sub ["pick", "fwd", "back", "flip", "rot"], segment], [.d, .a, .src false, .c]⟩,
    ⟨["redux"], 0x0C, 0, [oneOf .var ["add", "min", "max", "and", "or", "xor"], ty], [.d, .a]⟩,
    ⟨["bmask", "self"], 0x0D, 0, [], [.d]⟩, ⟨["bmask", "pre"], 0x0D, 1, [segment], [.d]⟩,
    ⟨["bmask", "post"], 0x0D, 2, [segment], [.d]⟩, ⟨["bmask", "seg"], 0x0D, 3, [segment], [.d]⟩,
    ⟨["bmask", "grp"], 0x0D, 4, [], [.d]⟩, ⟨["bmask", "span"], 0x0D, 5, [], [.d, .src false]⟩,
    ⟨["grow"], 0x0E, 0, [], [.pd, .imm]⟩, ⟨["grow", "try"], 0x0E, 1, [], [.pd, .imm]⟩, ⟨["shrink"], 0x0F, 0, [], [.imm]⟩,
    ⟨["gets"], 0x10, 0, [], [.d, .spA]⟩, ⟨["sets"], 0x11, 0, [], [.spD, .a]⟩,
    ⟨["plog", "and"], 0x12, 0, [], [.pd, .pa, .pb]⟩, ⟨["plog", "or"], 0x12, 1, [], [.pd, .pa, .pb]⟩,
    ⟨["plog", "xor"], 0x12, 2, [], [.pd, .pa, .pb]⟩, ⟨["plog", "andn"], 0x12, 3, [], [.pd, .pa, .pb]⟩,
    ⟨["plog", "orn"], 0x12, 4, [], [.pd, .pa, .pb]⟩, ⟨["plog", "not"], 0x12, 5, [], [.pd, .pa]⟩,
    ⟨["plog", "set"], 0x12, 6, [], [.pd, .imm]⟩]

/-- Forms of integer and address instructions (Table 9.1). -/
def integerForms : List Form :=
  [⟨["mov"], 0x20, 0, [ty], [.d, .typed]⟩, ⟨["add"], 0x21, 0, [sat, ty], [.d, .a, .typed]⟩,
    ⟨["sub"], 0x22, 0, [sat, ty], [.d, .a, .typed]⟩, ⟨["mul"], 0x23, 0, [sat, ty], [.d, .a, .typed]⟩,
    ⟨["mad"], 0x24, 0, [ty], [.d, .a, .typed, .c]⟩, ⟨["mad", "wide"], 0x24, 0x10, [ty], [.d, .a, .typed, .c]⟩,
    ⟨["mulhi"], 0x25, 0, [ty], [.d, .a, .typed]⟩, ⟨["div"], 0x26, 0, [ty], [.d, .a, .typed]⟩,
    ⟨["rem"], 0x27, 0, [ty], [.d, .a, .typed]⟩, ⟨["and"], 0x28, 0, [ty], [.d, .a, .typed]⟩,
    ⟨["or"], 0x29, 0, [ty], [.d, .a, .typed]⟩, ⟨["xor"], 0x2A, 0, [ty], [.d, .a, .typed]⟩,
    ⟨["shf"], 0x2B, 0, [oneOf .var ["shl", "shr", "rotl", "rotr"], ty], [.d, .a, .typed]⟩,
    ⟨["cmp"], 0x2C, 0, [oneOf .var ["eq", "ne", "lt", "le", "gt", "ge"], ty], [.pd, .a, .typed]⟩,
    ⟨["sel"], 0x2D, 0, [ty], [.d, .a, .typed, .pc]⟩, ⟨["min"], 0x2E, 0, [ty], [.d, .a, .typed]⟩,
    ⟨["max"], 0x2F, 0, [ty], [.d, .a, .typed]⟩, ⟨["abs"], 0x30, 0, [sat, ty], [.d, .a]⟩,
    ⟨["bitc"], 0x31, 0, [oneOf .var ["popc", "clz", "ctz", "brev"], ty], [.d, .a]⟩,
    ⟨["bfe"], 0x32, 0, [ty], [.d, .a, .typed]⟩, ⟨["bfi"], 0x33, 0, [ty], [.d, .a, .typed, .c]⟩,
    ⟨["lea"], 0x34, 0, [ty], [.d, .a, .typed, .shift]⟩]

/-- Forms of floating-point instructions and conversions (Table 9.3, R183, R185). -/
def floatForms : List Form :=
  let source : Group := { place := .m, words := tyWords }
  let satCvt : Group := { place := .var, words := [("sat", 4)], dflt := some 0 }
  [⟨["fadd"], 0x50, 0, [rounding, ty], [.d, .a, .typed]⟩, ⟨["fsub"], 0x51, 0, [rounding, ty], [.d, .a, .typed]⟩,
    ⟨["fmul"], 0x52, 0, [rounding, ty], [.d, .a, .typed]⟩, ⟨["ffma"], 0x53, 0, [rounding, ty], [.d, .a, .typed, .c]⟩,
    ⟨["fmin"], 0x54, 0, [ty], [.d, .a, .typed]⟩, ⟨["fmax"], 0x55, 0, [ty], [.d, .a, .typed]⟩,
    ⟨["fcmp"], 0x56, 0, [oneOf .var ["eq", "ne", "lt", "le", "gt", "ge", "un", "ord"], ty], [.pd, .a, .typed]⟩,
    ⟨["fsgn", "neg"], 0x57, 0, [ty], [.d, .a]⟩, ⟨["fsgn", "abs"], 0x57, 0x10, [ty], [.d, .a]⟩,
    ⟨["fsgn", "copy"], 0x57, 0x20, [ty], [.d, .a, .typed]⟩, ⟨["fsgn", "xor"], 0x57, 0x30, [ty], [.d, .a, .typed]⟩,
    ⟨["fdiv"], 0x58, 0, [rounding, ty], [.d, .a, .typed]⟩, ⟨["fsqrt"], 0x59, 0, [rounding, ty], [.d, .a]⟩,
    ⟨["frcp"], 0x5A, 0, [ty], [.d, .a]⟩, ⟨["frsq"], 0x5B, 0, [ty], [.d, .a]⟩, ⟨["fexp2"], 0x5C, 0, [ty], [.d, .a]⟩,
    ⟨["flog2"], 0x5D, 0, [ty], [.d, .a]⟩, ⟨["fsin"], 0x5E, 0, [ty], [.d, .a]⟩, ⟨["fcos"], 0x5F, 0, [ty], [.d, .a]⟩,
    ⟨["fclass"], 0x60, 0, [ty], [.d, .a]⟩, ⟨["frnd"], 0x61, 0, [rounding, ty], [.d, .a]⟩,
    ⟨["cvt"], 0x62, 0, [rounding, satCvt, ty, source], [.d, .a]⟩,
    ⟨["cvt"], 0x62, 0, [rounding, satCvt, ty, source], [.d, .a, .typed]⟩,
    ⟨["cvt", "slot"], 0x62, 0x80, [ty, source], [.d, .a, .slot]⟩,
    ⟨["cvtn"], 0x63, 0, [ty], [.d, .a, .c, .slot]⟩, ⟨["cvtw"], 0x64, 0, [ty], [.d, .a, .c, .slot]⟩]

/-- Forms of memory instructions (Table 11.5), of copies and the fabric (Table 12.2), and of fences, barriers and atomics
(R286 to R294). -/
def memoryForms : List Form :=
  let ops := oneOf .var ["add", "min", "max", "and", "or", "xor", "exch"]
  [⟨["ld"], 0x80, 0, [count, scope, policy, ty], [.d, .mem]⟩, ⟨["st"], 0x81, 0, [count, scope, policy, ty], [.mem, .b]⟩,
    ⟨["ldk"], 0x82, 0, [count, scope, policy, ty], [.d, .mem]⟩, ⟨["pref"], 0x83, 0, [scope], [.mem]⟩,
    ⟨["cflush"], 0x84, 0, [scope], [.mem]⟩, ⟨["cflush", "inv"], 0x84, 1, [scope], [.mem]⟩, ⟨["cinv"], 0x85, 0, [scope], [.mem]⟩,
    ⟨["cpy"], 0x90, 0, [], [.a, .b, .c, .imm]⟩, ⟨["cpseal"], 0x91, 0, [], []⟩, ⟨["cpwait"], 0x92, 0, [], [.imm]⟩,
    ⟨["stage"], 0x93, 0, [], [.imm]⟩, ⟨["bulk"], 0x94, 0, [], [.a, .src false]⟩, ⟨["outst"], 0x95, 0, [], [.d]⟩,
    ⟨["arrive"], 0x96, 0, [scope], [.mem, .b]⟩, ⟨["arrive", "ann"], 0x96, 1, [scope], [.mem, .b, .c]⟩,
    ⟨["await"], 0x97, 0, [scope], [.d, .mem, .b]⟩, ⟨["xfer"], 0x98, 0, [], [.a, .b, .c, .imm]⟩,
    ⟨["xfer", "2d"], 0x98, 1, [], [.a, .b, .c, .imm]⟩, ⟨["xslide"], 0x99, 0, [], [.a, .b, .c, .imm]⟩,
    ⟨["xgate"], 0x9A, 0, [], [.imm]⟩, ⟨["xbump"], 0x9B, 0, [], [.d, .src true]⟩,
    ⟨["xbump", "ring"], 0x9B, 1, [], [.d, .a, .src true]⟩,
    ⟨["fence"], 0xA0, 0, [scope], []⟩, ⟨["fencex"], 0xA1, 0, [scope], [.paths]⟩,
    ⟨["bar", "gang"], 0xA2, 0, [], []⟩, ⟨["bar", "blk"], 0xA2, 1, [], [.imm]⟩, ⟨["bar", "blk", "arv"], 0xA2, 2, [], [.imm]⟩,
    ⟨["bar", "ens"], 0xA2, 3, [], [.imm]⟩, ⟨["bar", "ens", "arv"], 0xA2, 4, [], [.imm]⟩, ⟨["bar", "coop"], 0xA2, 5, [], [.imm]⟩,
    ⟨["atom"], 0xA3, 0, ops :: order, [.d, .mem, .b]⟩, ⟨["atom", "cas"], 0xA3, 0x70, order, [.d, .mem, .b, .c]⟩,
    ⟨["red"], 0xA4, 0, ops :: order, [.mem, .b]⟩,
    ⟨["waita"], 0xA5, 0, [oneOf .var ["ne", "eq", "ge", "lt"], scope, ty], [.d, .mem, .b, .c]⟩]

/-- Forms of conversations (Table 15.7), matrix instructions (Table 10.5), launches (R97 to R99), migrations (R117 to R119) and
system instructions (Table 16.10). -/
def unitForms : List Form :=
  [⟨["cbind"], 0xB0, 0, [], [.d, .h, .b, .c]⟩, ⟨["csend"], 0xB1, 0, [scope], [.h, .b, .imm]⟩,
    ⟨["crecv"], 0xB2, 0, [scope], [.d, .h]⟩, ⟨["ctry"], 0xB3, 0, [scope], [.d, .h]⟩, ⟨["cdeleg"], 0xB4, 0, [], [.h, .b]⟩,
    ⟨["cstate", "home"], 0xB5, 0, [], [.d, .h]⟩, ⟨["cstate", "role"], 0xB5, 1, [], [.d, .h]⟩, ⟨["cclose"], 0xB6, 0, [], [.h]⟩,
    ⟨["cload"], 0xB7, 0, [], [.d, .a, .b, .c]⟩,
    ⟨["mzero"], 0xC0, 0, [], [.acc]⟩, ⟨["mlda"], 0xC1, 0, [], [.mem, .b, .c, .slot]⟩,
    ⟨["mldb"], 0xC2, 0, [], [.mem, .b, .c, .slot]⟩, ⟨["mldb", "long"], 0xC2, 1, [], [.mem, .b, .c, .slot]⟩,
    ⟨["mgath"], 0xC3, 0, [], [.mem, .b, .c, .slot]⟩, ⟨["mconv"], 0xC4, 0, [], [.mem, .b, .c, .slot]⟩,
    ⟨["mma"], 0xC5, 0, [], [.acc]⟩, ⟨["maccl"], 0xC6, 0, [], [.acc, .mem, .b]⟩,
    ⟨["mdrain", "f32"], 0xC7, 0, [], [.mem, .b, .acc, .c, .slot]⟩, ⟨["mdrain", "i32"], 0xC7, 1, [], [.mem, .b, .acc, .c, .slot]⟩,
    ⟨["launch"], 0xD0, 0, [], [.d, .mem]⟩, ⟨["gsig", "arr"], 0xD1, 0, [], [.mem, .b]⟩, ⟨["gsig", "ann"], 0xD1, 1, [], [.mem, .b]⟩,
    ⟨["gsig", "seal"], 0xD1, 2, [], [.mem]⟩, ⟨["cancel"], 0xD2, 0, [], [.d, .mem]⟩,
    ⟨["sys"], 0xE0, 0, [], [.imm]⟩, ⟨["sret"], 0xE1, 0, [], []⟩, ⟨["hcall"], 0xE2, 0, [], [.imm]⟩, ⟨["hret"], 0xE3, 0, [], []⟩,
    ⟨["mfs"], 0xE4, 0, [], [.d, .prA]⟩, ⟨["mts"], 0xE5, 0, [], [.prD, .a]⟩,
    ⟨["tlbinv", "all"], 0xE6, 0, [], []⟩, ⟨["tlbinv", "asid"], 0xE6, 1, [], [.a]⟩, ⟨["tlbinv", "page"], 0xE6, 2, [], [.a, .b]⟩,
    ⟨["tlbinv", "vmid"], 0xE6, 3, [], [.a]⟩, ⟨["fresume"], 0xE7, 0, [], [.d, .a]⟩, ⟨["fkill", "tok"], 0xE8, 0, [], [.d, .a]⟩,
    ⟨["fkill", "gang"], 0xE8, 1, [], [.d, .a]⟩, ⟨["tokwait"], 0xE9, 0, [], [.d, .a]⟩, ⟨["ctxsave"], 0xEA, 0, [], [.d, .a]⟩,
    ⟨["ctxload"], 0xEB, 0, [], [.d, .a, .b]⟩, ⟨["walkres"], 0xEC, 0, [], [.d, .a]⟩, ⟨["walkres", "skip"], 0xEC, 1, [], [.d, .a]⟩,
    ⟨["tmove"], 0xED, 0, [], [.d, .a, .b, .imm]⟩, ⟨["trepl", "add"], 0xEE, 0, [], [.d, .a, .b, .c, .imm]⟩,
    ⟨["trepl", "drop"], 0xEE, 1, [], [.d, .a, .imm]⟩]

def forms : List Form := controlForms ++ integerForms ++ floatForms ++ memoryForms ++ unitForms

-- Names of special and privileged registers (Tables 8.2 and 16.2)

def specialNames : List (String × Nat) :=
  ["lane", "gang", "core", "node", "cluster", "passcnt", "tnow", "device", "tcoord0", "tcoord1", "tcoord2", "tcoord3", "member",
    "mode", "cancelled", "prio", "fflags", "mflags", "alloc", "world"].mapIdx fun i n => (n, i)

def privNames : List (String × Nat) :=
  [("SPC", 0x00), ("SCAUSE", 0x01), ("STVAL", 0x02), ("SSTAT", 0x03), ("SSCRATCH0", 0x04), ("SSCRATCH1", 0x05),
    ("SSCRATCH2", 0x06), ("SSCRATCH3", 0x07), ("OSPC", 0x08), ("OSCAUSE", 0x09), ("OSTVAL", 0x0A), ("OSSTAT", 0x0B),
    ("HPC", 0x10), ("HCAUSE", 0x11), ("HTVAL", 0x12), ("HSTAT", 0x13), ("HSCRATCH0", 0x14), ("HSCRATCH1", 0x15),
    ("HSCRATCH2", 0x16), ("HSCRATCH3", 0x17), ("STVEC", 0x20), ("HTVEC", 0x21), ("HDELEG", 0x22), ("ASID", 0x23),
    ("VMID", 0x24), ("WORLD", 0x25), ("PASSCNT", 0x26), ("PWRSET", 0x27), ("CONTPC", 0x28), ("GHOLD", 0x29), ("SFQ", 0x2A),
    ("HFQ", 0x2B)]

/-- The paths of `FENCEX` and their bits of N (R288). -/
def pathNames : List (String × Nat) := [("thread", 0), ("copy", 1), ("matrix", 2), ("bulk", 3), ("conversation", 4)]

-- From source to fields

/-- Source of an instruction: its guard, its mnemonic cut at the dots, its operands. -/
structure Source where
  guard : Option (Bool × Nat) := none
  words : List String
  args : List (List Tok)
  deriving DecidableEq, Repr

/-- What the operands of an instruction are evaluated in: the engine of the section, the instruction's address in it, the
section's kind, the symbols. -/
structure Scene where
  engine : Engine
  here : Nat
  kind : Nat
  look : String → Except Code Val

/-- Fields under construction: the registers as written, what the loader has yet to write into IMM, and the format slot. -/
structure Parsed where
  f : Fields
  written : List RegName := []
  rel : Option (Base × DWord × Part) := none
  slot : Option Nat := none
  deriving DecidableEq, Repr

/-- Whether tokens are a name with the form of a register's. -/
def isReg : List Tok → Bool
  | [.id s] => (regName s).isSome
  | _ => false

/-- Whether tokens could be an operand of a role; what they must be further is checked as they are taken. -/
def Role.fits : Role → List Tok → Bool
  | .d, [.id _] | .a, [.id _] | .b, [.id _] | .c, [.id _] | .pd, [.id _] | .pa, [.id _] | .pb, [.id _] | .pc, [.id _]
  | .h, [.id _] | .acc, [.id _] | .spA, [.id _] | .spD, [.id _] | .prA, [.id _] | .prD, [.id _] | .paths, [.id _] => true
  | .src _, _ :: _ | .typed, _ :: _ => true
  | .mem, .op "[" :: _ => true
  | .imm, t :: ts | .target, t :: ts | .slot, t :: ts | .shift, t :: ts => !isReg (t :: ts) && t ≠ .op "["
  | _, _ => false

/-- Whether the operands are as many as the roles, and could be theirs. -/
def rolesFit : List Role → List (List Tok) → Bool
  | [], [] => true
  | [.paths], a :: as => (a :: as).all (Role.paths.fits ·)
  | r :: rs, a :: as => r.fits a && rolesFit rs as
  | _, _ => false

/-- The symbols of an operand's expression. -/
def Role.symbols : Role → List Tok → List String
  | .src _, ts | .typed, ts | .imm, ts | .target, ts | .slot, ts | .shift, ts => if isReg ts then [] else symbolsOf [ts]
  | .mem, .op "[" :: _ :: rest => symbolsOf [rest.dropLast]
  | _, _ => []

/-- A register of one of the banks given. -/
def takeReg (banks : List Bank) : List Tok → Except Code RegName
  | [.id s] =>
    match regName s with
    | none => .error .e110
    | some r =>
      match r.check with
      | some c => .error c
      | none => if banks.contains r.bank then .ok r else .error .e110
  | _ => .error .e103

/-- The banks of general registers of an engine (Table 7.7). -/
def generalBanks : Engine → List Bank
  | .thread => [.x, .k]
  | .matrix => [.s]
  | .copy => [.q]

/-- A value into IMM, which is read as signed, as unsigned, or in `bits` bits. -/
def Parsed.putImm (p : Parsed) (signed : Bool) (bits : Nat) : Val → Except Code Parsed
  | .abs v =>
    let ok := if signed then -(2 ^ (bits - 1) : Int) ≤ v.toInt && v.toInt < 2 ^ (bits - 1) else v.toNat < 2 ^ bits
    if ok then .ok { p with f := { p.f with imm := v.setWidth 32 } } else .error .e104
  | .rel _ _ .whole => .error .e104
  | .rel b a part => .ok { p with rel := some (b, a, part) }

/-- The value of an operand. -/
def Scene.value (sc : Scene) (ts : List Tok) : Except Code Val :=
  match parseExpr ts with
  | none => .error (if isReg ts then .e103 else .e101)
  | some e => e.eval sc.look (.ok (.rel (.sec sc.kind) (BitVec.ofNat 64 sc.here) .whole))

/-- A small number as an operand. -/
def Scene.small (sc : Scene) (ts : List Tok) (bits : Nat) : Except Code Nat := do
  match ← sc.value ts with
  | .abs v => if v.toNat < 2 ^ bits then .ok v.toNat else .error .e104
  | .rel _ _ _ => .error .e104

/-- The name of a register of a table. -/
def named (table : List (String × Nat)) : List Tok → Except Code Nat
  | [.id s] => match table.lookup s with
    | some n => .ok n
    | none => .error .e110
  | _ => .error .e103

def Parsed.wrote (p : Parsed) (r : RegName) (f : Fields) : Parsed := { p with f := f, written := p.written ++ [r] }

/-- An operand taken as its role says. What follows the base of a memory operand is read as one expression that begins with its
sign, so `[x8-a+b]` is x8 − a + b (R70 does not say how it groups. DESIGN CHOICE: log entry 88). -/
def Scene.take (sc : Scene) (p : Parsed) (r : Role) (ts : List Tok) : Except Code Parsed := do
  let n8 := fun (r : RegName) => BitVec.ofNat 8 r.n
  let k := fun (r : RegName) => r.bank == .k
  let f := p.f
  match r with
  | .d => let r ← takeReg (generalBanks sc.engine) ts; .ok (p.wrote r { f with d := n8 r, bsd := k r })
  | .a => let r ← takeReg (generalBanks sc.engine) ts; .ok (p.wrote r { f with a := n8 r, bsa := k r })
  | .b => let r ← takeReg (generalBanks sc.engine) ts; .ok (p.wrote r { f with b := n8 r, bsb := k r })
  | .c => let r ← takeReg (generalBanks sc.engine) ts; .ok (p.wrote r { f with c := n8 r, bsc := k r })
  | .src signed =>
    if isReg ts then let r ← takeReg (generalBanks sc.engine) ts; .ok (p.wrote r { f with b := n8 r, bsb := k r })
    else (Parsed.putImm { p with f := { f with immb := true } }) signed 32 (← sc.value ts)
  | .typed =>
    if isReg ts then let r ← takeReg (generalBanks sc.engine) ts; .ok (p.wrote r { f with b := n8 r, bsb := k r })
    else
      let half := f.op ≠ 0x62 ∧ (f.ty = 9 ∨ f.ty = 10)
      (Parsed.putImm { p with f := { f with immb := true } }) (f.ty.toNat < 4) (if half then 16 else 32) (← sc.value ts)
  | .pd => let r ← takeReg [.p] ts; if r.n = 7 then .error .e110 else .ok { p with f := { f with d := n8 r } }
  | .pa => let r ← takeReg [.p] ts; .ok { p with f := { f with a := n8 r } }
  | .pb => let r ← takeReg [.p] ts; .ok { p with f := { f with b := n8 r } }
  | .pc => let r ← takeReg [.p] ts; .ok { p with f := { f with c := n8 r } }
  | .h => let r ← takeReg [.h] ts; .ok { p with f := { f with a := n8 r } }
  | .acc => let r ← takeReg [.acc] ts; .ok { p with f := { f with d := n8 r } }
  | .mem =>
    match ts with
    | .op "[" :: .id b :: rest =>
      let r ← takeReg (generalBanks sc.engine) [.id b]
      if r.pair then .error .e103
      else if sc.engine = .thread ∧ r.n % 2 = 1 then .error .e111
      else
        let p := { p with f := { f with a := n8 r, bsa := k r } }
        match rest with
        | .op "+" :: _ | .op "-" :: _ =>
          if rest.getLast? = some (.op "]") then p.putImm true 32 (← sc.value rest.dropLast) else .error .e101
        | _ => .error .e101
    | _ => .error .e101
  | .imm => p.putImm false 32 (← sc.value ts)
  | .target =>
    match ← sc.value ts with
    | .rel (.sec kind) a .whole =>
      if kind ≠ sc.kind then .error .e107 else p.putImm true 32 (.abs (a - BitVec.ofNat 64 sc.here))
    | .abs _ | .rel _ _ _ => .error .e107
  | .slot =>
    match sc.small ts 3 with
    | .ok n => .ok { p with f := { f with sc := BitVec.ofNat 3 n }, slot := some n }
    | .error .e104 => .error .e112
    | .error c => .error c
  | .shift => let n ← sc.small ts 4; .ok { p with f := { f with m := BitVec.ofNat 4 n } }
  | .spA =>
    let n ← named specialNames ts
    .ok { p with f := { f with a := BitVec.ofNat 8 n, ty := if specialWidth n = some 64 then 1 else 0 } }
  | .spD => let n ← named specialNames ts; .ok { p with f := { f with d := BitVec.ofNat 8 n } }
  | .prA => let n ← named privNames ts; .ok { p with f := { f with a := BitVec.ofNat 8 n } }
  | .prD => let n ← named privNames ts; .ok { p with f := { f with d := BitVec.ofNat 8 n } }
  | .paths =>
    match ts with
    | [.id s] => match pathNames.lookup s with
      | some n => .ok { p with f := { f with imm := f.imm ||| BitVec.ofNat 32 (2 ^ n) } }
      | none => .error .e103
    | _ => .error .e103

/-- The operands taken, in their order. -/
def Scene.takeAll (sc : Scene) : Parsed → List Role → List (List Tok) → Except Code Parsed
  | p, [.paths], as => as.foldlM (fun p a => sc.take p .paths a) p
  | p, r :: rs, a :: as => do sc.takeAll (← sc.take p r a) rs as
  | p, [], [] => .ok p
  | _, _, _ => .error .e103

/-- A number added to a field. -/
def addTo (f : Fields) (n : Nat) : Place → Fields
  | .sub => { f with var := f.var + BitVec.ofNat 4 (n / 16), ty := f.ty + BitVec.ofNat 4 n }
  | .var => { f with var := f.var + BitVec.ofNat 4 n }
  | .ty => { f with ty := f.ty + BitVec.ofNat 4 n }
  | .m => { f with m := f.m + BitVec.ofNat 4 n }
  | .sc => { f with sc := f.sc + BitVec.ofNat 3 n }

/-- The modifiers of a mnemonic taken by its groups, in their order. -/
def takeMods (f : Fields) : List Group → List String → Option Fields
  | [], [] => some f
  | [], _ :: _ => none
  | g :: gs, [] => g.dflt.bind fun n => takeMods (addTo f n g.place) gs []
  | g :: gs, w :: ws =>
    match g.words.lookup w with
    | some n => takeMods (addTo f n g.place) gs ws
    | none => g.dflt.bind fun n => takeMods (addTo f n g.place) gs (w :: ws)

/-- The forms of a mnemonic: those with the longest fixed words that it begins with. -/
def formsOf (words : List String) : List Form :=
  let fs := forms.filter fun f => f.name == words.take f.name.length
  let longest := (fs.map (·.name.length)).foldl Nat.max 0
  fs.filter (·.name.length == longest)

/-- The symbols of an instruction's expressions: names of registers, paths and modifiers are none of them. -/
def Source.symbols (s : Source) : List String :=
  match (formsOf s.words).find? fun f => rolesFit f.roles s.args with
  | some f => ((f.roles.zip s.args).map fun x => x.1.symbols x.2).flatten
  | none => []

/-- What a refusal of the decoder means for source (Table 4.8). -/
def decodeCode (e : Engine) (f : Fields) : DecodeError → Code
  | .opUnassigned => .e102
  | .notThisEngine => .e114
  | .subNotListed => .e102
  | .fieldNonzero =>
    match decodeFields e { f with bsd := false, bsa := false, bsb := false, bsc := false } with
    | .ok _ | .error .operandOutOfRange => .e110
    | .error _ => if f.immb then .e103 else .e104
  | .operandOutOfRange =>
    match readForm f with
    | none => .e102
    | some i =>
      if (i.regs e).any fun u => !u.ok e && u.even && u.n % 2 == 1 then .e111
      else if (i.regs e).any fun u => !u.ok e then .e110
      else if f.imm ≠ 0 || f.m ≠ 0 then .e104
      else .e102

/-- An instruction from its source: the instruction, its fields, what is left to the loader. -/
def Scene.instr (sc : Scene) (s : Source) : Except Code (Instr × Parsed) := do
  match formsOf s.words with
  | [] => .error .e102
  | f :: fs =>
    if !(opEngines f.op).contains sc.engine then .error .e114
    else
      match (f :: fs).find? fun f => rolesFit f.roles s.args with
      | none => .error .e103
      | some f =>
        let g := s.guard.getD (false, 7)
        let base : Fields :=
          { op := BitVec.ofNat 8 f.op, var := BitVec.ofNat 4 (f.sub / 16), ty := BitVec.ofNat 4 f.sub, pn := g.1,
            pg := BitVec.ofNat 3 g.2 }
        match takeMods base f.groups (s.words.drop f.name.length) with
        | none => .error .e102
        | some fields =>
          let p ← sc.takeAll { f := fields } f.roles s.args
          let atomic := fields.op = 0xA3 || fields.op = 0xA4
          if atomic && fields.m.getLsbD 2 && fields.sc = 4 then .error .e115
          else if atomic && fields.m.getLsbD 2 && fields.sc.toNat < 2 then .error .e103
          else
            match decodeFields sc.engine p.f with
            | .error x => .error (decodeCode sc.engine p.f x)
            | .ok i =>
              let uses := i.regs sc.engine
              let wrong := fun (r : RegName) =>
                let mine := uses.filter fun u => u.n == r.n && u.k == (r.bank == .k)
                if mine.isEmpty then r.pair else !mine.any fun u => (u.even && fields.op != 0x94) == r.pair
              if p.written.any wrong then .error .e103 else .ok (i, p)

end Sys2Proof.Olas
end

