-- ==== Sys2Proof/Machine/OlasRecords.lean ====
section
/-! DEFINITION. The structured records of `olas` (R83, R298): launch, tensor and placement records and protocol tables from the
lines that give their fields. -/

namespace Sys2Proof.Olas

open Sys2Proof.Machine

/-- A place of the source. -/
structure Where where
  file : String
  line : Nat
  deriving DecidableEq, Repr

/-- A diagnostic at a place. -/
def Where.diag (w : Where) (c : Code) (about : Option Nat := none) (more : Option Nat := none) : Diag :=
  ⟨w.file, w.line, c, about, more⟩

inductive RecKind where
  | launch | tensor | place | protocol
  deriving DecidableEq, Repr

/-- A line within a record: `key=value, …` or a flag alone, `.slot`, `.turn` and `.observe` with their operands. -/
inductive RecLine where
  | key (k : String) (vals : List (List Tok))
  | flag (k : String)
  | slot (args : List (List Tok))
  | turn (args : List (List Tok))
  | observe (args : List (List Tok))
  deriving DecidableEq, Repr

/-- A record under construction. -/
structure Rec where
  kind : RecKind
  name : String
  at_ : Where
  lines : List (Where × RecLine) := []
  deriving DecidableEq, Repr

/-- A relocation that a record or a datum asks for: its offset from the datum, the bytes that are patched. -/
structure Fixup where
  off : Nat
  base : Base
  add : DWord
  part : Part
  deriving DecidableEq, Repr

/-- Keys of records whose values are words or literals, not expressions. -/
def wordKeys : List String := ["eng", "state", "round", "scale"]

/-- The symbols of the expressions among `key=value` parts. -/
def keySymbols (ks : List (String × List (List Tok))) : List String :=
  (ks.map fun x => if wordKeys.contains x.1.toLower then [] else symbolsOf x.2).flatten

/-- Bytes made, the relocations they need, what was found wrong. -/
structure Made where
  bytes : List Byte
  fixups : List Fixup := []
  diags : List Diag := []
  deriving DecidableEq, Repr

/-- The value of an expression of a record or of data. -/
def valueOf (look : String → Except Code Val) (here : Except Code Val) (ts : List Tok) : Except Code Val :=
  match parseExpr ts with
  | none => .error .e101
  | some e => e.eval look here

/-- A known number, from an expression. -/
def numberOf (look : String → Except Code Val) (ts : List Tok) : Except Code Int := do
  match ← valueOf look (.error .e104) ts with
  | .abs v => .ok v.toInt
  | .rel _ _ _ => .error .e104

/-- Numbers of a list, at most `n`. -/
def numbersOf (look : String → Except Code Val) (n : Nat) (tss : List (List Tok)) : Except Code (List Int) :=
  if n < tss.length then .error .e103 else tss.mapM (numberOf look)

def Made.fail (m : Made) (w : Where) (c : Code) (about : Option Nat := none) : Made :=
  { m with diags := m.diags ++ [w.diag c about] }

/-- A number of `n` bytes into a record: E117 where it does not fit them. -/
def Made.put (m : Made) (w : Where) (off n : Nat) (v : Except Code Int) : Made :=
  match v with
  | .error c => m.fail w c
  | .ok v => if 0 ≤ v ∧ v < 2 ^ (8 * n) then { m with bytes := setField m.bytes off n v.toNat } else m.fail w .e117

/-- Where a value is not known before the loader has placed the sections, the checks of limits take a value aligned as its
section is. -/
def standIn (add : DWord) : Nat := (BitVec.ofNat 64 (2 ^ 40) + add).toNat

/-- A 64-bit value into a record, known or relocated. -/
def Made.putAddr (m : Made) (w : Where) (off : Nat) (v : Except Code Val) : Made :=
  match v with
  | .error c => m.fail w c
  | .ok (.abs v) => { m with bytes := setField m.bytes off 8 v.toNat }
  | .ok (.rel b a .whole) =>
    { m with bytes := setField m.bytes off 8 (standIn a), fixups := m.fixups ++ [⟨off, b, a, .whole⟩] }
  | .ok (.rel _ _ _) => m.fail w .e104

/-- Several numbers of `n` bytes each, one after another. -/
def Made.putList (m : Made) (w : Where) (off n most : Nat) (look : String → Except Code Val) (tss : List (List Tok)) : Made :=
  match numbersOf look most tss with
  | .error c => m.fail w c
  | .ok vs => (vs.mapIdx fun i v => (i, v)).foldl (fun m x => m.put w (off + n * x.1) n (.ok x.2)) m

/-- One value of a key. -/
def single (tss : List (List Tok)) : List Tok := match tss with
  | [ts] => ts
  | _ => []

/-- A word as a value, in either case. -/
def word : List (List Tok) → Option String
  | [[.id s]] => some s.toLower
  | _ => none

/-- The words for FMT (Table 2.9). -/
def fmtWords : List (String × Nat) :=
  [("empty", 0), ("int8", 1), ("int16", 2), ("int32", 3), ("int64", 4), ("fp32", 8), ("bf16", 9), ("fp16", 10),
    ("binary8", 0x10), ("ternary", 0x18)]

/-- The keys of one line whose parts are cut at the commas: a part without `=` goes on with the key before it. -/
def keysOf : List (List Tok) → List (String × List (List Tok))
  | [] => []
  | p :: ps =>
    let rest := keysOf ps
    match p with
    | .id k :: .op "=" :: v => (k, [v]) :: rest
    | _ => ("", [p]) :: rest

/-- Parts without a key joined to the key before. -/
def joinKeys : List (String × List (List Tok)) → List (String × List (List Tok))
  | [] => []
  | x :: xs => (xs.foldl (fun (acc : List (String × List (List Tok))) y =>
      match acc with
      | z :: zs => if y.1 = "" then (z.1, z.2 ++ y.2) :: zs else y :: z :: zs
      | [] => [y]) [x]).reverse

/-- `key=value` parts. -/
def keyed (ps : List (List Tok)) : List (String × List (List Tok)) := joinKeys (keysOf ps)

/-- A format slot of a launch record: `.slot i, fmt, key=…` (R83, Tables 2.9 and 2.10). -/
def Made.slotLine (m : Made) (w : Where) (look : String → Except Code Val) (args : List (List Tok)) : Made :=
  match args with
  | i :: f :: keys =>
    match numberOf look i, (word [f]).bind fun k => fmtWords.lookup k with
    | .error c, _ => m.fail w c
    | .ok _, none => m.fail w .e102
    | .ok i, some fmt =>
      if i < 0 ∨ 7 < i then m.fail w .e112
      else
        let o := 0x80 + 16 * i.toNat
        if fmt = 0 then (if keys = [] then m else m.fail w .e117)
        else
          let start := { m with bytes := setField (setField m.bytes o 1 fmt) (o + 4) 4 0x3F800000 }
          let bit := fun (m : Made) (n : Nat) (v : List (List Tok)) =>
            match numberOf look (single v) with
            | .error c => m.fail w c
            | .ok b =>
              if b = 0 then m
              else if b = 1 then { m with bytes := setField m.bytes (o + 2) 1 (field m.bytes (o + 2) 1 ||| 2 ^ n) }
              else m.fail w .e117
          let one := fun (m : Made) (x : String × List (List Tok)) =>
            match x.1.toLower with
            | "prec" => if fmt = 0x10 then m.put w (o + 1) 1 (numberOf look (single x.2)) else m.fail w .e117
            | "signed" => bit m 0 x.2
            | "inf" => bit m 1 x.2
            | "sat" => bit m 2 x.2
            | "trapinv" => bit m 3 x.2
            | "round" =>
              match (word x.2).bind fun k => [("rne", 0), ("rtz", 1), ("rup", 2), ("rdn", 3)].lookup k with
              | some n => { m with bytes := setField m.bytes (o + 2) 1 (field m.bytes (o + 2) 1 % 16 + 16 * n) }
              | none => m.fail w .e102
            | "scale" =>
              match literal (single x.2) with
              | some (v, []) => { m with bytes := setField m.bytes (o + 4) 4 (Num.round Num.fp32 .rne false v).1 }
              | _ => m.fail w .e101
            | _ => m.fail w .e102
          (keyed keys).foldl one start
  | _ => m.fail w .e103

/-- The address fields of a launch record (Table 2.7). -/
def launchAddrs : List (String × Nat) :=
  [("entry", 0), ("mprog", 0x08), ("csched", 0x10), ("cont", 0x18), ("drive", 0x20), ("opnd0", 0x28), ("opnd1", 0x30),
    ("opnd2", 0x38), ("comp", 0x60), ("notify", 0x68), ("arg", 0x70)]
/-- Its numbers: offset and bytes. -/
def launchNumbers : List (String × Nat × Nat) :=
  [("regs", 0x40, 2), ("gangs", 0x42, 2), ("lsb", 0x44, 4), ("bars", 0x48, 1), ("ebars", 0x49, 1), ("cbars", 0x4A, 1),
    ("spill", 0x54, 1), ("prio", 0x56, 1), ("queue", 0x57, 1)]

/-- One line of a launch record. -/
def Made.launchLine (look : String → Except Code Val) (m : Made) (x : Where × RecLine) : Made :=
  let w := x.1
  match x.2 with
  | .key k vals =>
    match launchAddrs.lookup k, launchNumbers.lookup k with
    | some off, _ => m.putAddr w off (valueOf look (.error .e104) (single vals))
    | none, some (off, n) => m.put w off n (numberOf look (single vals))
    | none, none =>
      if k = "ens" then m.putList w 0x50 1 4 look vals
      else if k = "eng" then
        match (word vals).bind fun k => [("m", 1), ("c", 2), ("mc", 3)].lookup k with
        | some n => { m with bytes := setField m.bytes 0x4B 1 n }
        | none => m.fail w .e102
      else m.fail w .e102
  | .flag k =>
    match [("overlap", 0), ("wrdrive", 1), ("coop", 2)].lookup k with
    | some n => { m with bytes := setField m.bytes 0x55 1 (field m.bytes 0x55 1 ||| 2 ^ n) }
    | none => m.fail w .e102
  | .slot args => m.slotLine w look args
  | .turn _ | .observe _ => m.fail w .e122

/-- A launch record's bytes (R83). The limits are checked with the tensor records at hand. -/
def makeLaunch (look : String → Except Code Val) (r : Rec) : Made :=
  r.lines.foldl (Made.launchLine look) { bytes := List.replicate 256 0 }

/-- One line of a tensor record. -/
def Made.tensorLine (look : String → Except Code Val) (m : Made) (x : Where × RecLine) : Made :=
  let w := x.1
  match x.2 with
  | .key "rank" v => m.put w 0 1 (numberOf look (single v))
  | .key "slot" v => m.put w 1 1 (numberOf look (single v))
  | .key "tshape" v => m.putList w 0x08 2 4 look v
  | .key "tcount" v => m.putList w 0x10 2 4 look v
  | .key "pitch" v => m.putList w 0x18 4 3 look v
  | .key "table" v => m.putAddr w 0x28 (valueOf look (.error .e104) (single v))
  | .key _ _ | .flag _ => m.fail w .e102
  | .slot _ | .turn _ | .observe _ => m.fail w .e122

/-- Slots of the format with the shortest rows: what breaks Table 2.4 under them breaks it under every format. -/
def leastSlots : List Byte := (List.range 8).foldl (fun b i => setField b (0x80 + 16 * i) 1 0x18) (List.replicate 256 0)

/-- A tensor record's bytes, RECORD_COUNT computed (R83); E117 where it breaks Table 2.4 whatever the format of its slot. The
row span under a launch's own slots is checked with that launch's record. -/
def makeTensor (look : String → Except Code Val) (r : Rec) : Made :=
  let blank := (List.range 8).foldl (fun b i => setField b (8 + 2 * i) 2 1) (List.replicate 64 0)
  let m := r.lines.foldl (Made.tensorLine look) { bytes := blank }
  let product := ((List.range 4).map fun i => field m.bytes (0x10 + 2 * i) 2).foldl (· * ·) 1
  let m := { m with bytes := setField m.bytes 0x24 4 product }
  if m.diags = [] && (badTensor leastSlots m.bytes || tensorZero m.bytes || field m.bytes 0x28 8 % 32 != 0) then
    m.fail r.at_ .e117
  else m

/-- A placement record's bytes: `.placerec c0,c1,c2,c3, key=…` (R83). -/
def makePlace (look : String → Except Code Val) (w : Where) (args : List (List Tok)) : Made :=
  let coords := args.take 4
  let m : Made := ({ bytes := List.replicate 32 0 } : Made).putList w 0 2 4 look coords
  let m := if coords.length < 4 then m.fail w .e103 else m
  let one := fun (m : Made) (x : String × List (List Tok)) =>
    let n := numberOf look (single x.2)
    match x.1.toLower with
    | "home" => m.put w 8 1 n
    | "state" =>
      match (word x.2).bind fun k => [("invalid", 0), ("resident", 1), ("moving", 2), ("replicated", 3), ("absent", 4)].lookup k with
      | some s => { m with bytes := setField m.bytes 9 1 s }
      | none => m.fail w .e102
    | "hint" =>
      match n with
      | .ok h => if 0 ≤ h ∧ h < 512 then { m with bytes := setField m.bytes 10 2 (h.toNat + 0x8000) } else m.fail w .e117
      | .error c => m.fail w c
    | "gen" => m.put w 12 2 n
    | "scale" =>
      match n with
      | .ok s => if -128 ≤ s ∧ s < 128 then { m with bytes := setField m.bytes 14 1 (s % 256).toNat } else m.fail w .e117
      | .error c => m.fail w c
    | "taddr" => m.putAddr w 24 (valueOf look (.error .e104) (single x.2))
    | "repl" =>
      let m := m.putList w 16 1 4 look x.2
      { m with bytes := setField m.bytes 15 1 (2 ^ Nat.min x.2.length 4 - 1) }
    | _ => m.fail w .e102
  let m := (keyed (args.drop 4)).foldl one m
  let st := prState m.bytes
  if m.diags = [] && st != 0 && st != 2 && prBad m.bytes then m.fail w .e117 else m

-- Protocol tables (R298)

/-- A protocol's header values and its lines' numbers: turns as (place, state, role, kind, next), observers as (place, state,
role). -/
structure Proto where
  roles : Nat := 0
  states : Nat := 0
  turns : List (Where × Nat × Nat × Nat × Nat) := []
  observers : List (Where × Nat × Nat) := []
  diags : List Diag := []

/-- Numbers of a line that are not negative. -/
def natsOf (look : String → Except Code Val) (n : Nat) (tss : List (List Tok)) : Except Code (List Nat) := do
  let vs ← numbersOf look n tss
  if vs.length ≠ n then .error .e103
  else if vs.any (· < 0) then .error .e104
  else .ok (vs.map Int.toNat)

/-- One line of a protocol. -/
def Proto.line (look : String → Except Code Val) (p : Proto) (x : Where × RecLine) : Proto :=
  let w := x.1
  let fail := fun (c : Code) => { p with diags := p.diags ++ [w.diag c] }
  match x.2 with
  | .key "roles" v => match natsOf look 1 v with
    | .ok [n] => if n < 256 then { p with roles := n } else fail .e117
    | .ok _ => fail .e103
    | .error c => fail c
  | .key "states" v => match natsOf look 1 v with
    | .ok [n] => if n < 65536 then { p with states := n } else fail .e117
    | .ok _ => fail .e103
    | .error c => fail c
  | .turn args => match natsOf look 4 args with
    | .ok [s, r, k, n] => if 255 < k then fail .e104 else { p with turns := p.turns ++ [(w, s, r, k, n)] }
    | .ok _ => fail .e103
    | .error c => fail c
  | .observe args => match natsOf look 2 args with
    | .ok [s, r] => { p with observers := p.observers ++ [(w, s, r)] }
    | .ok _ => fail .e103
    | .error c => fail c
  | .key _ _ | .flag _ => fail .e102
  | .slot _ => fail .e122

/-- The header and lines of a protocol, read. -/
def readProto (look : String → Except Code Val) (r : Rec) : Proto := r.lines.foldl (Proto.line look) {}

/-- What lines fail by the numbers that they name, as (place, check, state): a role outside the count or unlike that of the
state's other turns, a state outside the count (R298). -/
def Proto.stray (p : Proto) : List (Where × Nat × Nat) :=
  let turn := fun (t : Where × Nat × Nat × Nat × Nat) =>
    let (w, s, r, _, n) := t
    (if p.roles ≤ r || p.turns.any fun u => u.2.1 == s && u.2.2.1 != r then [(w, 4, s)] else []) ++
      (if p.states ≤ s then [(w, 5, s)] else []) ++ (if p.states ≤ n then [(w, 5, n)] else [])
  let obs := fun (o : Where × Nat × Nat) =>
    let (w, s, r) := o
    (if p.roles ≤ r then [(w, 4, s)] else []) ++ (if p.states ≤ s then [(w, 5, s)] else [])
  (p.turns.map turn).flatten ++ (p.observers.map obs).flatten

/-- The protocol without the numbers outside its counts, so that a table can be laid out: a state that such a line names fails
by that line. -/
def Proto.within (p : Proto) : Proto :=
  { p with
    turns := (p.turns.filter fun t => t.2.1 < p.states).map fun (w, s, r, k, n) =>
      (w, s, if r < p.roles then r else 0, k, if n < p.states then n else 0)
    observers := p.observers.filter fun o => o.2.1 < p.states && o.2.2 < p.roles }

/-- The bytes of a table (R297): turn entries by state, in source order within a state. -/
def Proto.table (p : Proto) : List Byte :=
  let ofState := fun (s : Nat) => p.turns.filter fun t => t.2.1 == s
  let states := List.range p.states
  let first := fun (s : Nat) => ((List.range s).map fun i => (ofState i).length).foldl (· + ·) 0
  let row := fun (s : Nat) =>
    let sender := (((ofState s).head?).map fun t => t.2.2.1).getD 0
    let obs := (p.observers.filter fun o => o.2.1 == s).foldl (fun m o => m ||| 2 ^ o.2.2) 0
    toBytes 8 (first s + (ofState s).length * 2 ^ 16 + sender * 2 ^ 24 + obs * 2 ^ 32)
  let entry := fun (t : Where × Nat × Nat × Nat × Nat) => toBytes 4 (t.2.2.2.1 + 256 * t.2.2.2.2)
  let turns := (states.map ofState).flatten
  toBytes 4 0x4F4C5052 ++ toBytes 2 1 ++ toBytes 1 p.roles ++ [0] ++ toBytes 2 p.states ++ toBytes 2 turns.length ++
    toBytes 4 (32 + 8 * p.states + 4 * turns.length) ++ List.replicate 16 0 ++ (states.map row).flatten ++
    (turns.map entry).flatten

/-- The first check of Table 15.4 that a protocol fails and the lowest state at which it fails, by its lines and by its table. -/
def Proto.failure (p : Proto) : Option (Nat × Nat) :=
  if p.roles = 0 || 16 < p.roles || p.states = 0 || 256 < p.states || p.turns = [] || 1024 < p.turns.length then some (2, 0)
  else
    let t := p.within.table
    let failing := fun (c : Nat) (ok : Nat → Bool) =>
      ((p.stray.filter (·.2.1 == c)).map (·.2.2) ++ (List.range p.states).filter fun st => !ok st).min?
    match failing 4 (ptCheck4 t), failing 5 (ptCheck5 t) with
    | some st, _ => some (4, st)
    | none, some st => some (5, st)
    | none, none => ptInvalid t

/-- A protocol table's bytes and what is wrong with it: E116 at the line that fails, or else at the record (R298). -/
def makeProto (look : String → Except Code Val) (r : Rec) : Made :=
  let p := readProto look r
  if p.diags ≠ [] then { bytes := [], diags := p.diags }
  else
    match p.failure with
    | some (c, st) =>
      let w := ((p.stray.find? fun x => x.2.1 == c && x.2.2 == st).map (·.1)).getD r.at_
      { bytes := [], diags := [w.diag .e116 (some st) (some c)] }
    | none => { bytes := p.table }

end Sys2Proof.Olas
end

