-- ==== Sys2Proof/Machine/Olas.lean ====
section
/-! DEFINITION. The assembler `olas` (R69, R70, R73 to R82, R84): options, source lines, macros, sections and directives, the packing
of instructions into lines, the checks, and the kernel image. -/

namespace Sys2Proof.Olas

open Sys2Proof.Machine

-- Options (R69, Table 4.1)

structure Options where
  out : String := "a.olk"
  dirs : List String := []
  defs : List (String × String) := []
  mode : Mode := .user
  listing : Option String := none
  werror : Bool := false
  mute : List Nat := []
  maxErrors : Nat := 50
  files : List String := []
  deriving DecidableEq, Repr

/-- What follows a prefix. -/
def after (p s : String) : Option String :=
  if p.toList.isPrefixOf s.toList then some (String.ofList (s.toList.drop p.length)) else none

/-- A decimal number. -/
def decimal (s : String) : Option Nat :=
  if s.toList ≠ [] ∧ s.toList.all Char.isDigit then some (digits 10 s.toList 0 0).1 else none

/-- `name=value`. -/
def definition (s : String) : Option (String × String) :=
  let (a, b) := takeRun (· != '=') s.toList
  match a, b with
  | [], _ | _, [] => none
  | a, _ :: v => some (String.ofList a, String.ofList v)

/-- The options of a command line; none where it is malformed. -/
def readOptions : List String → Options → Option Options
  | [], o => if o.files = [] then none else some o
  | "-o" :: f :: r, o => readOptions r { o with out := f }
  | "-I" :: d :: r, o => readOptions r { o with dirs := o.dirs ++ [d] }
  | "-D" :: d :: r, o => (definition d).bind fun d => readOptions r { o with defs := o.defs ++ [d] }
  | s :: r, o =>
    if s = "-o" ∨ s = "-I" ∨ s = "-D" then none
    else if s = "-Werror" then readOptions r { o with werror := true }
    else
      match after "--mode=" s, after "--listing=" s, after "-Wno-" s, after "--max-errors=" s, after "-" s with
      | some "u", _, _, _, _ => readOptions r { o with mode := .user }
      | some "s", _, _, _, _ => readOptions r { o with mode := .supervisor }
      | some "h", _, _, _, _ => readOptions r { o with mode := .hypervisor }
      | some _, _, _, _, _ => none
      | none, some f, _, _, _ => readOptions r { o with listing := some f }
      | none, none, some n, _, _ => (decimal n).bind fun n => readOptions r { o with mute := o.mute ++ [n] }
      | none, none, none, some n, _ =>
        (decimal n).bind fun n => if 1 ≤ n ∧ n ≤ 1000 then readOptions r { o with maxErrors := n } else none
      | none, none, none, none, some _ => none
      | none, none, none, none, none => readOptions r { o with files := o.files ++ [s] }

-- The state of the assembly

/-- A line to be read: its place, its text, the macros being expanded around it, the depth of includes. -/
structure SrcLine where
  w : Where
  text : List Char
  macros : List String := []
  depth : Nat := 0
  deriving DecidableEq, Repr

structure Macro where
  name : String
  params : List (String × Option (List Char))
  body : List (List Char) := []
  at_ : Where
  deriving DecidableEq, Repr

/-- What a symbol stands for: a number, a place in a section (a byte, or in code an instruction's position), an import. -/
inductive SymVal where
  | abs (v : DWord)
  | label (kind pos : Nat)
  | imp (n : Nat)
  deriving DecidableEq, Repr

structure Symbol where
  name : String
  val : SymVal
  w : Where
  deriving DecidableEq, Repr

/-- A kernel or `.proc`: whether `.mode s` or `.mode h` stands in it, whether any of it takes its mode from the options, the
largest allocation declared for an instruction of it. -/
structure Kernel where
  name : String
  kind : Nat
  pos : Nat
  w : Where
  proc : Bool
  high : Bool := false
  ownMode : Bool := false
  plain : Bool := false
  most : Nat := 0
  deriving DecidableEq, Repr

/-- What a section holds, in order. -/
inductive Item where
  | instr (pos : Nat) (src : Source) (w : Where) (mode : Mode) (alloc kernel : Nat) (paired labelled : Bool)
  | bytes (off : Nat) (bs : List Byte)
  | int (off n : Nat) (ts : List Tok) (w : Where)
  | record (off : Nat) (r : Rec)
  | place (off : Nat) (args : List (List Tok)) (w : Where)
  deriving DecidableEq, Repr

/-- A section: how far it has come (bytes, or in code five positions a line), its alignment. -/
structure Sec where
  kind : SecKind
  pos : Nat := 0
  align : Nat
  items : List Item := []
  deriving DecidableEq, Repr

structure Asm where
  opts : Options
  files : List (String × String)
  macros : List Macro := []
  symbols : List Symbol := []
  imports : List String := []
  globals : List (String × Where) := []
  secs : List Sec := []
  cur : Option SecKind := none
  pending : List (String × Where) := []
  /-- The kernels, and whether the last is open. -/
  kernels : List Kernel := []
  inside : Bool := false
  mode : Mode
  alloc : Nat := 8
  /-- Conditionals that are open: whether lines count, whether a branch has been taken, whether the outer lines count. -/
  conds : List (Bool × Bool × Bool) := []
  recording : Option Macro := none
  block : Option Rec := none
  refs : List String := []
  expansions : Nat := 0
  diags : List Diag := []

def Asm.err (a : Asm) (w : Where) (c : Code) : Asm := { a with diags := a.diags ++ [w.diag c] }

/-- The byte offset in its section of an instruction's position (R75). -/
def posAddr (pos : Nat) : Nat := 64 * (pos / 5) + 12 * (pos % 5)

/-- A symbol's value (R72). -/
def Asm.look (a : Asm) (s : String) : Except Code Val :=
  match a.symbols.find? (·.name == s) with
  | none => .error .e105
  | some y =>
    match y.val with
    | .abs v => .ok (.abs v)
    | .label k p => .ok (.rel (.sec k) (BitVec.ofNat 64 (if k ≤ 3 then posAddr p else p)) .whole)
    | .imp n => .ok (.rel (.imp n) 0 .whole)

def Asm.define (a : Asm) (name : String) (v : SymVal) (w : Where) : Asm :=
  if (regName name).isSome then a.err w .e101
  else if a.symbols.any (·.name == name) then a.err w .e106
  else { a with symbols := a.symbols ++ [⟨name, v, w⟩] }

def Asm.sec (a : Asm) : Option Sec := a.cur.bind fun k => a.secs.find? (·.kind == k)

def Asm.setSec (a : Asm) (s : Sec) : Asm := { a with secs := a.secs.map fun x => if x.kind = s.kind then s else x }

/-- The labels that wait for the next thing in the section, given its place. -/
def Asm.bind (a : Asm) (k : SecKind) (pos : Nat) : Asm :=
  a.pending.foldl (fun a l => a.define l.1 (.label k.code pos) l.2) { a with pending := [] }

/-- The labels that wait, given the place that the section has come to. -/
def Asm.bindHere (a : Asm) : Asm :=
  match a.sec with
  | some s => a.bind s.kind s.pos
  | none => a.pending.foldl (fun a l => a.err l.2 .e122) { a with pending := [] }

def Asm.active (a : Asm) : Bool := match a.conds with
  | [] => true
  | c :: _ => c.1

/-- A number known while the lines are read. -/
def Asm.number (a : Asm) (ts : List Tok) : Except Code Int := numberOf a.look ts

-- Sections (R73)

/-- Section names (Table 2.3), and their load alignments (Table 4.3). -/
def secNames : List (String × SecKind) :=
  [(".text.thread", .thread), (".text.mseq", .mseq), (".text.cseq", .cseq), (".rodata", .rodata), (".data", .data),
    (".launch", .launch), (".tensor", .tensor), (".proto", .proto)]

def Asm.openSec (a : Asm) (k : SecKind) : Asm :=
  let a := if a.secs.any (·.kind == k) then a
    else { a with secs := a.secs ++ [{ kind := k, align := if k = .launch then 8 else 6 }] }
  { a with cur := some k }

/-- A section moved on to the next line. -/
def lineUp (pos : Nat) : Nat := (pos + 4) / 5 * 5

-- Text of macros (R82)

/-- A text cut at the commas outside brackets. -/
def cutCommas : Nat → List Char → List (List Char)
  | _, [] => [[]]
  | d, c :: cs =>
    if c = ',' ∧ d = 0 then [] :: cutCommas 0 cs
    else
      let d := if c = '(' ∨ c = '[' then d + 1 else if c = ')' ∨ c = ']' then d - 1 else d
      match cutCommas d cs with
      | g :: gs => (c :: g) :: gs
      | [] => [[c]]

def argTexts (cs : List Char) : List (List Char) := if trim cs = [] then [] else (cutCommas 0 cs).map trim

/-- A body line with `\name` replaced. -/
def substitute (args : List (String × List Char)) : Nat → List Char → List Char
  | 0, cs => cs
  | _, [] => []
  | fuel + 1, c :: cs =>
    if c = '\\' then
      let (w, r) := takeRun (fun c => c.isAlphanum || c == '_') cs
      match args.lookup (String.ofList w) with
      | some v => v ++ substitute args fuel r
      | none => c :: substitute args fuel cs
    else c :: substitute args fuel cs

/-- Names ending in `$`, those built from parameters among them, made those of expansion `n`. -/
def ownNames (n : Nat) : Nat → List Char → List Char
  | 0, cs => cs
  | _, [] => []
  | fuel + 1, c :: cs =>
    if isLetter c then
      let (w, r) := takeRun isSymbolChar (c :: cs)
      (if w.getLast? = some '$' then w ++ '#' :: (Nat.repr n).toList else w) ++ ownNames n fuel r
    else c :: ownNames n fuel cs

/-- A body line as expansion `n` writes it (R82). -/
def expandText (args : List (String × List Char)) (n : Nat) (t : List Char) : List Char :=
  let u := substitute args (t.length + 1) t
  ownNames n (u.length + 1) u

/-- The arguments of an expansion with the defaults; none where one is missing or too many are given. -/
def matchArgs : List (String × Option (List Char)) → List (List Char) → Option (List (String × List Char))
  | [], [] => some []
  | [], _ :: _ => none
  | (p, d) :: ps, as =>
    let given := (as.head?).bind fun v => if v = [] then none else some v
    match given, d with
    | some v, _ => (matchArgs ps as.tail).map ((p, v) :: ·)
    | none, some v => (matchArgs ps as.tail).map ((p, v) :: ·)
    | none, none => none

/-- The lines of an expansion. -/
def Asm.expand (a : Asm) (l : SrcLine) (m : Macro) (args : List Char) : Asm × List SrcLine :=
  if l.macros.contains m.name || 16 ≤ l.macros.length then (a.err l.w .e118, [])
  else
    match matchArgs m.params (argTexts args) with
    | none => (a.err l.w .e118, [])
    | some vs =>
      let line := fun (t : List Char) => { l with text := expandText vs a.expansions t, macros := m.name :: l.macros }
      ({ a with expansions := a.expansions + 1 }, m.body.map line)

/-- The head of `.macro name p1, p2=default`. -/
def macroHead (w : Where) (cs : List Char) : Option Macro :=
  let (n, r) := takeRun isSymbolChar (trim cs)
  let param := fun (t : List Char) =>
    let (p, d) := takeRun (· != '=') t
    (String.ofList (trim p), match d with
      | _ :: v => some (trim v)
      | [] => none)
  if n = [] then none else some { name := String.ofList n, params := (argTexts r).map param, at_ := w }

-- Include (R74)

def splitLines : List Char → List (List Char)
  | [] => [[]]
  | c :: cs =>
    match splitLines cs with
    | g :: gs => if c = '\n' then [] :: g :: gs else (c :: g) :: gs
    | [] => [[c]]

/-- The lines of a file. -/
def fileLines (name text : String) (depth : Nat) : List SrcLine :=
  (splitLines text.toList).mapIdx fun i t => { w := ⟨name, i + 1⟩, text := t, depth := depth }

/-- The directory of a path, with its last `/`. -/
def dirOf (path : String) : String := String.ofList ((path.toList.reverse.dropWhile (· != '/')).reverse)

/-- The file that `.include` names: in the including file's directory, then in those of `-I`, in their order. -/
def Asm.findFile (a : Asm) (fromFile name : String) : Option (String × String) :=
  let paths := (dirOf fromFile ++ name) :: a.opts.dirs.map (· ++ "/" ++ name)
  paths.findSome? fun p => (a.files.lookup p).map fun t => (p, t)

-- Data (R74)

/-- A datum put at the end of the section. -/
def Asm.item (a : Asm) (size : Nat) (i : Nat → Item) : Asm :=
  match a.sec with
  | none => a
  | some s =>
    let a := a.bind s.kind s.pos
    a.setSec { s with pos := s.pos + size, items := s.items ++ [i s.pos] }

def Asm.bytes (a : Asm) (bs : List Byte) : Asm := a.item bs.length fun off => .bytes off bs

/-- A section moved on to a multiple of `n` bytes, the labels that wait going with it. -/
def Asm.alignTo (a : Asm) (n : Nat) : Asm :=
  match a.sec with
  | none => a
  | some s => a.setSec { s with pos := (s.pos + n - 1) / n * n }

/-- Literals rounded into a format, each `n` bytes; a rounding that is inexact is W203. -/
def Asm.floats (a : Asm) (w : Where) (f : Num.Fmt) (n : Nat) (args : List (List Tok)) : Asm :=
  args.foldl (fun a ts =>
    match literal ts with
    | some (v, []) =>
      let (c, flags) := Num.round f .rne false v
      let a := a.bytes (toBytes n c)
      if flags &&& Num.nx ≠ 0 then a.err w .w203 else a
    | _ => a.err w .e101) a

/-- Integers of `n` bytes, which may be relocated. -/
def Asm.ints (a : Asm) (w : Where) (n : Nat) (args : List (List Tok)) : Asm :=
  args.foldl (fun a ts => a.item n fun off => .int off n ts w) { a with refs := a.refs ++ symbolsOf args }

/-- `.b8 pP, signed|unsigned, inf|noinf, d, …`. -/
def Asm.binary8 (a : Asm) (w : Where) (args : List (List Tok)) : Asm :=
  match args with
  | [.id p] :: [.id sg] :: [.id inf] :: ds =>
    match (regName p.toLower).bind fun r => if r.bank = .p ∧ 1 ≤ r.n ∧ r.n ≤ 7 ∧ !r.pair then some r.n else none with
    | none => a.err w .e103
    | some n =>
      match [("signed", true), ("unsigned", false)].lookup sg.toLower, [("inf", true), ("noinf", false)].lookup inf.toLower with
      | some sg, some inf => a.floats w (Num.binary8 n sg inf) 1 ds
      | _, _ => a.err w .e103
  | _ => a.err w .e103

/-- The trit codes of −1, 0 and 1 (R57). -/
def tritCode : Int → Option Nat
  | 0 => some 0
  | 1 => some 1
  | -1 => some 2
  | _ => none

/-- Five trits a byte (R58). -/
def tritRow : Nat → List Nat → List Byte
  | 0, _ => []
  | _, [] => []
  | fuel + 1, ts => BitVec.ofNat 8 (tritByte (ts.take 5)) :: tritRow fuel (ts.drop 5)

-- Instructions (R75, R77)

/-- A mnemonic cut at its dots, in lower case. -/
def words (m : String) : List String :=
  m.toList.foldr (fun c ws =>
    if c = '.' then "" :: ws
    else match ws with
      | w :: ws => String.ofList (c.toLower :: w.toList) :: ws
      | [] => [String.ofList [c.toLower]]) [""]

/-- Guard, mnemonic and operands. -/
def readSource (ts : List Tok) : Except Code Source :=
  let guarded := fun (neg : Bool) (p : String) (r : List Tok) =>
    match regName p, r with
    | some g, .id m :: r =>
      if g.bank = .p ∧ g.n < 8 ∧ !g.pair then .ok ⟨some (neg, g.n), words m, parts r⟩
      else .error .e110
    | none, _ :: _ => .error .e110
    | _, _ => .error .e101
  match ts with
  | .op "(" :: .op "!" :: .id p :: .op ")" :: r => guarded true p r
  | .op "(" :: .id p :: .op ")" :: r => guarded false p r
  | .id m :: r => .ok ⟨none, words m, parts r⟩
  | _ => .error .e101

/-- Whether a kernel or `.proc` of the section is open. One that is open in another section does not hold the instruction (R73
lets the section change and does not say. DESIGN CHOICE: log entry 88). -/
def Asm.within (a : Asm) (k : SecKind) : Bool := a.inside && (a.kernels.getLast?).any (·.kind == k.code)

/-- An instruction put into its section, in a line that has room for `room` instructions more. -/
def Asm.emit (a : Asm) (w : Where) (src : Source) (paired labelled : Bool) (room : Nat) : Asm :=
  match a.sec with
  | none => a.err w .e120
  | some s =>
    if s.kind.engine.isNone || !a.within s.kind then a.err w .e120
    else
      let moves := 5 < s.pos % 5 + room
      let pos := if moves then lineUp s.pos else s.pos
      let a := if moves then a.err w .w202 else a
      let a := a.bind s.kind pos
      let last := a.kernels.length - 1
      let ks := a.kernels.mapIdx fun i k =>
        if i = last then { k with most := Nat.max k.most a.alloc, plain := k.plain || !k.ownMode } else k
      { a with kernels := ks, refs := a.refs ++ src.symbols }.setSec
        { s with pos := pos + 1, items := s.items ++ [Item.instr pos src w a.mode a.alloc last paired labelled] }

/-- A line of one instruction, or of two that are asked to co-issue. -/
def Asm.instrLine (a : Asm) (w : Where) (ts : List Tok) : Asm :=
  let two := fun (x y : List Tok) (labelled : Bool) =>
    match readSource x, readSource y with
    | .ok x, .ok y => (a.emit w x true false 2).emit w y false labelled 1
    | .error c, _ | _, .error c => a.err w c
  match cutAt (· == .op "||") 0 ts with
  | [x] =>
    match readSource x with
    | .ok x => a.emit w x false false 1
    | .error c => a.err w c
  | [x, .id _ :: .op ":" :: y] => two x y true
  | [x, y] => two x y false
  | _ => a.err w .e101

-- Directives (R74, Table 4.4)

inductive Allowed where
  | code | data | any
  deriving DecidableEq, Repr

/-- Directives and the sections that allow them. A data section is one that is not code. -/
def directives : List (String × Allowed) :=
  [(".kernel", .code), (".endk", .code), (".proc", .code), (".endp", .code), (".alloc", .code), (".mode", .code), (".line", .code),
    (".byte", .data), (".half", .data), (".word", .data), (".dword", .data), (".f32", .data), (".bf16", .data), (".f16", .data),
    (".b8", .data), (".trits", .data), (".zero", .data), (".align", .any), (".equ", .any), (".global", .any), (".import", .any),
    (".section", .any), (".launchrec", .data), (".tensorrec", .data), (".placerec", .data), (".protocol", .data)]

def modeNamed : String → Option Mode
  | "u" => some .user
  | "s" => some .supervisor
  | "h" => some .hypervisor
  | _ => none

/-- A kernel or `.proc` opened, at a line boundary. -/
def Asm.openKernel (a : Asm) (w : Where) (proc : Bool) (name : String) : Asm :=
  match a.sec with
  | none => a
  | some s =>
    if a.inside then a.err w .e120
    else
      let a := a.bindHere
      let pos := lineUp s.pos
      let a := (a.setSec { s with pos := pos }).define name (.label s.kind.code pos) w
      { a with kernels := a.kernels ++ [{ name := name, kind := s.kind.code, pos := pos, w := w, proc := proc }], inside := true,
               mode := a.opts.mode }

/-- A record opened; its bytes are put where it ends. -/
def Asm.openRecord (a : Asm) (w : Where) (kind : RecKind) (home : SecKind) (name : String) : Asm :=
  if a.cur ≠ some home then a.err w .e122 else { a with block := some { kind := kind, name := name, at_ := w } }

/-- A record ended: aligned, its name a symbol, its size known. -/
def Asm.closeRecord (a : Asm) (r : Rec) : Asm :=
  let a := { a with block := none }
  let (align, size) := match r.kind with
    | .launch => (256, 256)
    | .tensor => (64, 64)
    | .place => (32, 32)
    | .protocol => (32, (readProto a.look r).within.table.length)
  let a := a.alignTo align
  match a.sec with
  | none => a
  | some s => (a.define r.name (.label s.kind.code s.pos) r.at_).item size fun off => .record off r

/-- The labels that wait bound, where there are any. -/
def Asm.bindIfAny (a : Asm) : Asm := if a.pending = [] then a else a.bindHere

/-- The rest of the line left to `NOP`s. -/
def Asm.lineEnd (a : Asm) : Asm :=
  match a.sec with
  | some s => a.setSec { s with pos := lineUp s.pos }
  | none => a

/-- Symbols that expressions name. -/
def Asm.refer (a : Asm) (names : List String) : Asm := { a with refs := a.refs ++ names }

/-- A kernel or `.proc` closed. -/
def Asm.closeKernel (a : Asm) (w : Where) (proc : Bool) : Asm :=
  let a := if a.inside && ((a.kernels.getLast?).map (·.proc)) == some proc then a else a.err w .e120
  { a with inside := false, alloc := if proc then a.alloc else 8 }

/-- A directive with its operands, in the section that is open. -/
def Asm.directive (a : Asm) (w : Where) (name : String) (args : List (List Tok)) : Asm :=
  let one := fun (f : String → Asm) => match args with
    | [[.id s]] => f s
    | _ => a.err w .e103
  let number := fun (f : Int → Asm) => match args with
    | [ts] => match a.number ts with
      | .ok n => f n
      | .error c => a.err w c
    | _ => a.err w .e103
  match name with
  | ".section" => one fun s =>
    match secNames.lookup s.toLower with
    | some k => a.bindIfAny.openSec k
    | none => a.err w .e102
  | ".kernel" => one (a.openKernel w false)
  | ".proc" => one (a.openKernel w true)
  | ".endk" => a.closeKernel w false
  | ".endp" => a.closeKernel w true
  | ".mode" => one fun s =>
    match modeNamed s.toLower with
    | none => a.err w .e103
    | some m =>
      if !a.inside then a.err w .e122
      else if a.opts.mode.rank < m.rank then a.err w .e113
      else
        let last := a.kernels.length - 1
        { a with mode := m, kernels := a.kernels.mapIdx fun i k =>
            if i = last then { k with ownMode := true, high := k.high || m != .user } else k }
  | ".alloc" =>
    match args with
    | [.id k :: .op "=" :: ts] =>
      if k.toLower ≠ "regs" then a.err w .e103
      else
        match a.number ts with
        | .error c => a.err w c
        | .ok n => if 8 ≤ n ∧ n ≤ 256 ∧ n % 8 = 0 then { a with alloc := n.toNat } else a.err w .e104
    | _ => a.err w .e103
  | ".line" => if args = [] then a.bindHere.lineEnd else a.err w .e103
  | ".byte" => a.ints w 1 args
  | ".half" => a.ints w 2 args
  | ".word" => a.ints w 4 args
  | ".dword" => a.ints w 8 args
  | ".f32" => a.floats w Num.fp32 4 args
  | ".bf16" => a.floats w Num.bf16 2 args
  | ".f16" => a.floats w Num.fp16 2 args
  | ".b8" => a.binary8 w args
  | ".trits" =>
    match args.mapM fun ts => (a.number ts).bind fun v => match tritCode v with
        | some t => .ok t
        | none => .error Code.e104 with
    | .ok ts => a.bytes (tritRow ts.length ts)
    | .error c => a.err w c
  | ".zero" => number fun n => if n < 0 then a.err w .e104 else a.bytes (List.replicate n.toNat 0)
  | ".align" => number fun n =>
    match a.sec with
    | none => a.err w .e122
    | some s =>
      if n < 0 ∨ 30 < n ∨ (s.kind.engine.isSome ∧ n < 6) then a.err w .e104
      else
        let n := n.toNat
        let a := a.bindHere
        if s.kind.engine.isSome then
          let lines := 2 ^ (n - 6)
          a.setSec { s with pos := 5 * ((lineUp s.pos / 5 + lines - 1) / lines * lines) }
        else
          (a.setSec { s with align := if s.kind = .rodata ∨ s.kind = .data then Nat.max s.align n else s.align }).alignTo (2 ^ n)
  | ".equ" =>
    match args with
    | [[.id s], ts] =>
      match valueOf a.look (.error .e104) ts with
      | .ok (.abs v) => a.define s (.abs v) w
      | .ok (.rel _ _ _) => a.err w .e104
      | .error c => a.err w c
    | _ => a.err w .e103
  | ".global" => one fun s => { a with globals := a.globals ++ [(s, w)] }
  | ".import" => one fun s =>
    if 32 < s.toUTF8.size then a.err w .e104
    else { a with imports := a.imports ++ [s] }.define s (.imp a.imports.length) w
  | ".launchrec" => one (a.openRecord w .launch .launch)
  | ".tensorrec" => one (a.openRecord w .tensor .tensor)
  | ".protocol" => one (a.openRecord w .protocol .proto)
  | ".placerec" =>
    if a.cur ≠ some .tensor then a.err w .e122
    else (a.refer (symbolsOf (args.take 4) ++ keySymbols (keyed (args.drop 4)))).alignTo 32 |>.item 32 fun off => .place off args w
  | _ => a.err w .e102


/-- A line of a record that is open. -/
def Asm.recordLine (a : Asm) (w : Where) (r : Rec) (ts : List Tok) : Asm :=
  let add := fun (xs : List RecLine) (names : List String) =>
    { a.refer names with block := some { r with lines := r.lines ++ xs.map fun x => (w, x) } }
  match ts with
  | .id h :: rest =>
    let args := parts rest
    match h.toLower, r.kind with
    | ".endlaunch", .launch | ".endtensor", .tensor | ".endproto", .protocol => a.closeRecord r
    | ".slot", _ => add [.slot args] (symbolsOf (args.take 1) ++ keySymbols (keyed (args.drop 2)))
    | ".turn", _ => add [.turn args] (symbolsOf args)
    | ".observe", _ => add [.observe args] (symbolsOf args)
    | k, _ =>
      if k.toList.head? = some '.' then a.err w (if (directives.lookup k).isSome then .e122 else .e102)
      else if rest = [] then add [.flag k] []
      else
        let ks := keyed (parts ts)
        if ks.any (·.1 == "") then a.err w .e101 else add (ks.map fun x => .key x.1.toLower x.2) (keySymbols ks)
  | _ => a.err w .e101

-- Lines

/-- A label at the start of a text, and what follows it. -/
def splitLabel (cs : List Char) : Option String × List Char :=
  match cs with
  | c :: _ =>
    if isLetter c then
      let (w, r) := takeRun isSymbolChar cs
      match r.dropWhile isBlank with
      | ':' :: r => (some (String.ofList w), trim r)
      | _ => (none, cs)
    else (none, cs)
  | [] => (none, [])

/-- `.if`, `.else` and `.endif` (R74). -/
def Asm.conditional (a : Asm) (w : Where) (name : String) (rest : List Char) : Option Asm :=
  match name with
  | ".if" =>
    some (if !a.active then { a with conds := (false, true, false) :: a.conds }
      else
        match (tokens rest).map a.number with
        | none => { a.err w .e101 with conds := (false, true, true) :: a.conds }
        | some (.error c) => { a.err w c with conds := (false, true, true) :: a.conds }
        | some (.ok v) => { a with conds := (v != 0, v != 0, true) :: a.conds })
  | ".else" =>
    some (match a.conds with
      | (_, taken, outer) :: cs => { a with conds := (outer && !taken, true, outer) :: cs }
      | [] => a.err w .e119)
  | ".endif" =>
    some (match a.conds with
      | _ :: cs => { a with conds := cs }
      | [] => a.err w .e119)
  | _ => none

/-- What a line without its label says: a directive, an expansion, or an instruction. -/
def Asm.body (a : Asm) (l : SrcLine) (text : List Char) : Asm × List SrcLine :=
  let w := l.w
  let (h, rest) := takeRun isSymbolChar text
  let head := String.ofList h
  let name := head.toLower
  match a.block, tokens text with
  | some r, some ts => (a.recordLine w r ts, [])
  | some _, none => (a.err w .e101, [])
  | none, ts =>
    match name, a.macros.find? (·.name == head) with
    | ".macro", _ =>
      match macroHead w rest with
      | some m => ({ a with recording := some m }, [])
      | none => (a.err w .e101, [])
    | ".endm", _ => (a.err w .e118, [])
    | ".include", _ =>
      match tokens rest with
      | some [.str f] =>
        if 16 ≤ l.depth then (a.err w .e119, [])
        else
          match a.findFile w.file f with
          | some (p, t) => (a, fileLines p t (l.depth + 1))
          | none => (a.err w .e119, [])
      | _ => (a.err w .e101, [])
    | _, some m => a.expand l m rest
    | _, none =>
      match ts with
      | none => (a.err w .e101, [])
      | some ts =>
        match directives.lookup name with
        | some p =>
          let inCode := (a.cur.bind SecKind.engine).isSome
          let allowed := match p with
            | .any => true
            | .code => inCode
            | .data => a.cur.isSome && !inCode
          (if allowed then a.directive w name (parts ts.tail) else a.err w .e122, [])
        | none => (if h.head? = some '.' then a.err w .e102 else a.instrLine w ts, [])

/-- One line: its effect, and the lines that come in its place. A label in front of `.if`, `.else`, `.endif` or `.endm` defines
nothing (R70 and R74 do not say. DESIGN CHOICE: log entry 88). -/
def Asm.line (a : Asm) (l : SrcLine) : Asm × List SrcLine :=
  let w := l.w
  let text := trim (uncomment false l.text)
  let (label, rest) := splitLabel text
  let (h, tail) := takeRun isSymbolChar rest
  let name := (String.ofList h).toLower
  match a.recording with
  | some m =>
    if name = ".endm" then
      ({ a with recording := none, macros := a.macros ++ [m] }, [])
    else ({ a with recording := some { m with body := m.body ++ [text] } }, [])
  | none =>
    match a.conditional w name tail with
    | some a => (a, [])
    | none =>
      if !a.active || text = [] then (a, [])
      else if l.macros = [] && text.contains '#' then (a.err w .e101, [])
      else
        let a := match label with
          | some n => { a with pending := a.pending ++ [(n, w)] }
          | none => a
        if rest = [] then (a, []) else a.body l rest

/-- Lines taken until none is left. -/
def Asm.run : Nat → Asm → List SrcLine → Asm
  | _, a, [] => a
  | 0, a, l :: _ => a.err l.w .e118
  | fuel + 1, a, l :: ls =>
    let (a, more) := a.line l
    Asm.run fuel a (more ++ ls)

/-- Lines that are read at most, expansions and includes among them: E118 beyond (R69 gives no limit. DESIGN CHOICE: log entry
88). -/
def mostLines : Nat := 2 ^ 24

/-- The end of the source: nothing may be left open. -/
def Asm.finish (a : Asm) (w : Where) : Asm :=
  let a := a.bindIfAny
  let a := if a.inside then a.err w .e120 else a
  let a := if a.block.isSome then a.err w .e101 else a
  let a := if a.recording.isSome then a.err w .e118 else a
  if a.conds ≠ [] then a.err w .e119 else a

-- The second pass: sections made

/-- An instruction assembled. -/
structure Coded where
  kind : SecKind
  pos : Nat
  i : Instr
  p : Parsed
  src : Source
  w : Where
  mode : Mode
  alloc : Nat
  kernel : Nat
  paired : Bool
  labelled : Bool

/-- The instructions of a section, and the diagnostics of those that are none. -/
def Asm.codeOf (a : Asm) (s : Sec) (e : Engine) : List Coded × List Diag :=
  s.items.foldl (fun acc it =>
    match it with
    | .instr pos src w mode alloc kernel paired labelled =>
      match ({ engine := e, here := posAddr pos, kind := s.kind.code, look := a.look } : Scene).instr src with
      | .ok (i, p) => (acc.1 ++ [⟨s.kind, pos, i, p, src, w, mode, alloc, kernel, paired, labelled⟩], acc.2)
      | .error c => (acc.1, acc.2 ++ [w.diag c])
    | .bytes _ _ | .int _ _ _ _ | .record _ _ | .place _ _ _ => acc) ([], [])

/-- All instructions of an image, and diagnostics. -/
def Asm.allCode (a : Asm) : List Coded × List Diag :=
  a.secs.foldl (fun acc s =>
    match s.kind.engine with
    | none => acc
    | some e => let (cs, ds) := a.codeOf s e; (acc.1 ++ cs, acc.2 ++ ds)) ([], [])

/-- Classes of Table 7.3. -/
inductive PairClass where
  | integer | floating | memory | branch
  deriving DecidableEq, Repr

/-- See `PairClass`. -/
def pairClass (op : Nat) : Option PairClass :=
  if (0x20 ≤ op ∧ op ≤ 0x25) ∨ (0x28 ≤ op ∧ op ≤ 0x34) then some .integer
  else if (0x50 ≤ op ∧ op ≤ 0x57) ∨ op = 0x60 ∨ op = 0x61 then some .floating
  else if 0x80 ≤ op ∧ op ≤ 0x82 then some .memory
  else if op = 0x01 then some .branch
  else none

/-- Whether classes may pair (Table 7.3). -/
def classesPair : Option PairClass → Option PairClass → Bool
  | some .branch, _ | none, _ | _, none => false
  | some .floating, some .floating | some .memory, some .memory => false
  | some _, some _ => true

/-- What an instruction of a pair class writes and reads: registers of the banks, and predicates. Its destination is the first
register that it names. -/
def Coded.uses (c : Coded) : List RegUse × List RegUse × List Nat × List Nat :=
  let rs := c.i.regs .thread
  let op := c.p.f.op.toNat
  let writes := op ≠ 0x2C && op ≠ 0x56 && op ≠ 0x81 && op ≠ 0x01
  let preds := (if c.p.f.pg = 7 then [] else [c.p.f.pg.toNat]) ++ (if op = 0x2D then [c.p.f.c.toNat] else [])
  (if writes then rs.take 1 else [], if writes then rs.drop 1 else rs, ((c.i.predDest).map (·.toNat)).toList, preds)

/-- Whether two runs of registers share one. -/
def meets (a b : RegUse) : Bool := a.k == b.k && a.n < b.n + b.count && b.n < a.n + a.count

/-- Whether two instructions form a permitted pair (R125). -/
def permitted (a b : Coded) : Bool :=
  let (aw, _, apw, _) := a.uses
  let (bw, br, bpw, bpr) := b.uses
  a.kind == .thread && classesPair (pairClass a.p.f.op.toNat) (pairClass b.p.f.op.toNat) &&
    !aw.any (fun x => br.any (meets x)) && !aw.any (fun x => bw.any (meets x)) &&
    !apw.any (fun x => bpr.contains x || bpw.contains x)

/-- The launch records of the image, made. -/
def Asm.launches (a : Asm) : List (Rec × Made) :=
  (a.secs.map fun s => s.items.filterMap fun it =>
    match it with
    | .record _ r => if r.kind = .launch then some (r, makeLaunch a.look r) else none
    | .instr _ _ _ _ _ _ _ _ | .bytes _ _ | .int _ _ _ _ | .place _ _ _ => none).flatten

/-- The tensor records of the image by their offsets. -/
def Asm.tensors (a : Asm) : List (Nat × Made) :=
  (a.secs.map fun s => s.items.filterMap fun it =>
    match it with
    | .record off r => if r.kind = .tensor then some (off, makeTensor a.look r) else none
    | .instr _ _ _ _ _ _ _ _ | .bytes _ _ | .int _ _ _ _ | .place _ _ _ => none).flatten

/-- Whether a record's address field at an offset names a kernel. -/
def Kernel.namedBy (k : Kernel) (m : Made) (off : Nat) : Bool :=
  m.fixups.any fun f => f.off == off && f.base == .sec k.kind && f.add.toNat == posAddr k.pos

/-- The launch records that name a kernel, as the entry of any engine. -/
def Asm.namers (a : Asm) (k : Kernel) : List (Rec × Made) :=
  a.launches.filter fun x => k.namedBy x.2 0 || k.namedBy x.2 8 || k.namedBy x.2 0x10

/-- Whether a kernel counts as assembled at mode u (R79). -/
def Kernel.user (k : Kernel) (o : Options) : Bool :=
  !k.high && (o.mode == .user || (k.ownMode && !k.plain))

/-- The checks of an instruction (R78 to R80). The mode that it needs is its row's of the opcode map; a privileged register that
needs more is checked by the device (R328). -/
def Asm.checkCode (a : Asm) (c : Coded) : List Diag :=
  let k? := a.kernels[c.kernel]?
  let namers := (k?.map a.namers).getD []
  let slot := fun (m : Made) (n : Nat) => Slot.ofBytes n ((m.bytes.drop (0x80 + 16 * n)).take 16)
  let run := fun (first : Nat) (n : Nat) =>
    if namers.any fun x => c.alloc < first + (slot x.2 n).perReg then some (Nat.max first c.alloc) else none
  let runBeyond := match c.i with
    | .cvtn _ _ n _ r _ => run r.toNat n.toNat
    | .cvtw _ _ n r _ _ => run r.toNat n.toNat
    | _ => none
  let beyond := if c.kind = .thread then beyondAlloc c.alloc (c.i.regs .thread) else none
  (match beyond, runBeyond with
    | some n, _ | none, some n => [c.w.diag .e109 (some n) (some c.alloc)]
    | none, none => []) ++
    (if c.mode.rank < (opMode c.i.op.toNat).rank then [c.w.diag .e113] else []) ++
    (match c.p.slot with
      | some n => if namers.any fun x => field x.2.bytes (0x80 + 16 * n) 1 == 0 then [c.w.diag .e112 (some n)] else []
      | none => [])

/-- The checks of pairs that are asked for (R77). -/
def checkPairs : List Coded → List Diag
  | a :: b :: r =>
    (if a.paired && (!permitted a b || b.labelled) then [a.w.diag .e108] else []) ++ checkPairs (b :: r)
  | _ => []

/-- The checks of a launch record (R78, R79, R83). -/
def Asm.checkLaunch (a : Asm) (r : Rec) (m : Made) : List Diag :=
  let tensorAt := fun (off : Nat) => (m.fixups.find? fun f => f.off == off && f.base == .sec 7).bind fun f =>
    (a.tensors.lookup f.add.toNat).map (·.bytes)
  let ts := ([0x20, 0x28, 0x30, 0x38].map tensorAt).filterMap id
  let ts := if (tensorAt 0x20).isSome then ts else []
  let limits := if m.diags = [] && launchCode m.bytes 0 (field m.bytes 0x57 1) false ts != 0 then [r.at_.diag .e117] else []
  let entry := match a.kernels.find? fun k => !k.proc && k.namedBy m 0 with
    | some k =>
      (if k.user a.opts then [] else [r.at_.diag .e117]) ++
        (if field m.bytes 0x40 2 < k.most then [r.at_.diag .e117]
         else if k.most < field m.bytes 0x40 2 then [r.at_.diag .w204] else [])
    | none =>
      if m.fixups.any fun f => f.off == 0 && f.base == .sec 1 then [r.at_.diag .e117] else []
  m.diags ++ limits ++ entry

/-- The positions that the branch-target masks of a code section mark (R76). -/
def Asm.marks (a : Asm) (k : SecKind) : List Nat :=
  let named := fun (n : String) => a.refs.contains n || a.globals.any (·.1 == n)
  let entry := fun (n : String) => a.kernels.any (·.name == n)
  a.symbols.filterMap fun y => match y.val with
    | .label kind pos => if kind = k.code && (named y.name || entry y.name) then some pos else none
    | .abs _ | .imp _ => none

/-- Labels of code that nothing names: W201. -/
def Asm.unused (a : Asm) : List Diag :=
  (a.symbols.filter fun y => match y.val with
    | .label kind _ => kind ≤ 3 && !a.refs.contains y.name && !a.globals.any (·.1 == y.name) && !a.kernels.any (·.name == y.name)
    | .abs _ | .imp _ => false).map fun y => y.w.diag .w201

/-- The `NOP` that fills a slot (R75). -/
def nopWord : IWord := 0x000070000000000000000000#96

/-- A line of a code section (R75 to R77). -/
def lineWords (e : Engine) (cs : List Coded) (marks : List Nat) (n : Nat) : BitVec 512 :=
  let at_ := fun (j : Nat) => cs.find? fun c => c.pos == 5 * n + j
  let word := fun (j : Nat) => ((at_ j).map fun c => c.p.f.word).getD nopWord
  let target : Nat := ((List.range 5).map fun j => if marks.contains (5 * n + j) then 2 ^ j else 0).foldl (· + ·) 0
  let pair : Nat := ((List.range 4).map fun j => if ((at_ j).map (·.paired)).getD false then 2 ^ (5 + j) else 0).foldl (· + ·) 0
  let lw : BitVec 32 := BitVec.ofNat 32 (target + pair + 2 ^ 14 * (lineKind e).toNat)
  let body := (List.range 5).foldl (fun b j => b ||| ((word j).setWidth 512 <<< (96 * j))) (0 : BitVec 512)
  reparity (body ||| (lw.setWidth 512 <<< 480))

/-- A section's bytes with the relocations that they need. -/
def codeMade (e : Engine) (s : Sec) (cs : List Coded) (marks : List Nat) : Made :=
  let mine := cs.filter (·.kind == s.kind)
  let fix := fun (c : Coded) => (c.p.rel.map fun r => (⟨posAddr c.pos, r.1, r.2.1, r.2.2⟩ : Fixup)).toList
  { bytes := ((List.range (lineUp s.pos / 5)).map fun n => toBytes 64 (lineWords e mine marks n).toNat).flatten
    fixups := (mine.map fix).flatten }

/-- A datum of a data section. -/
def Asm.itemMade (a : Asm) (s : Sec) : Item → Nat × Made
  | .instr _ _ _ _ _ _ _ _ => (0, { bytes := [] })
  | .bytes off bs => (off, { bytes := bs })
  | .int off n ts w =>
    let here : Except Code Val := .ok (.rel (.sec s.kind.code) (BitVec.ofNat 64 off) .whole)
    let zero := List.replicate n 0
    (off, match valueOf a.look here ts with
      | .error c => { bytes := zero, diags := [w.diag c] }
      | .ok (.abs v) =>
        if n = 8 ∨ (-(2 ^ (8 * n - 1) : Int) ≤ v.toInt ∧ v.toInt < 2 ^ (8 * n)) then { bytes := toBytes n v.toNat }
        else { bytes := zero, diags := [w.diag .e104] }
      | .ok (.rel b d part) =>
        if (n = 8 ∧ part = .whole) ∨ (n = 4 ∧ part ≠ .whole) then { bytes := zero, fixups := [⟨0, b, d, part⟩] }
        else { bytes := zero, diags := [w.diag .e104] })
  | .record off r =>
    (off, match r.kind with
      | .launch => let m := makeLaunch a.look r; { m with diags := a.checkLaunch r m }
      | .tensor => makeTensor a.look r
      | .protocol => makeProto a.look r
      | .place => { bytes := [] })
  | .place off args w => (off, makePlace a.look w args)

/-- The bytes of a data section: data at their offsets, zeros between. -/
def Asm.dataMade (a : Asm) (s : Sec) : Made :=
  let m := s.items.foldl (fun (m : Made) it =>
    let (off, d) := a.itemMade s it
    { bytes := m.bytes ++ List.replicate (off - m.bytes.length) 0 ++ d.bytes
      fixups := m.fixups ++ d.fixups.map fun f => { f with off := off + f.off }
      diags := m.diags ++ d.diags }) { bytes := [] }
  { m with bytes := m.bytes ++ List.replicate (s.pos - m.bytes.length) 0 }

/-- A relocation entry of a fixup in the section of an index (R81). -/
def Asm.reloc (a : Asm) (target : Nat) (f : Fixup) : Reloc :=
  let part := match f.part with
    | .whole => 1
    | .lo => 2
    | .hi => 3
  match f.base with
  | .sec k => { off := f.off, target := target, kind := part, base := a.secs.findIdx (·.kind.code == k), add := f.add }
  | .imp n => { off := f.off, target := target, kind := part + 3, base := n, add := f.add }

/-- The bytes where a record is relocated are zero until the loader writes them. -/
def blank (bs : List Byte) (fs : List Fixup) : List Byte :=
  fs.foldl (fun bs f => setField bs f.off (if f.part = .whole then 8 else 4) 0) bs

/-- The sections made, in the order in which the source opens them. -/
def Asm.made (a : Asm) (cs : List Coded) : List (Sec × Made) :=
  a.secs.map fun s => (s, match s.kind.engine with
    | some e => codeMade e s cs (a.marks s.kind)
    | none => a.dataMade s)

/-- The image (R31, R81): its name is that of the first kernel. -/
def Asm.image (a : Asm) (ms : List (Sec × Made)) : KernelImage :=
  { name := (((a.kernels.find? (!·.proc)).map (·.name)).getD "").toUTF8.toList.map fun b => BitVec.ofNat 8 b.toNat
    sections := ms.map fun x => ⟨x.1.kind, x.1.align, if x.1.kind.engine.isSome then x.2.bytes else blank x.2.bytes x.2.fixups⟩
    imports := a.imports.map fun s => s.toUTF8.toList.map fun b => BitVec.ofNat 8 b.toNat
    relocs := (ms.mapIdx fun i x => x.2.fixups.map (a.reloc i)).flatten }

/-- A line of the listing (R69): section, address in it, slot, encoding, place in the source. -/
structure Listed where
  kind : SecKind
  addr : Nat
  slot : Nat
  word : IWord
  w : Where
  deriving DecidableEq, Repr

/-- A listing: the instructions, and the `.global` symbols with their addresses, each a place in a section before loading (R69,
R74). -/
structure Listing where
  code : List Listed
  globals : List (String × Val)
  deriving DecidableEq, Repr

/-- Four hexadecimal digits. -/
def hex4 (n : Nat) : List Char := [n / 4096 % 16, n / 256 % 16, n / 16 % 16, n % 16].map fun d =>
  Char.ofNat (if d < 10 then 48 + d else 55 + d)

/-- An encoding as 24 hexadecimal digits with an underscore every four. -/
def hex24 (w : IWord) : String :=
  String.ofList (((List.range 6).map fun i =>
    (if i = 0 then [] else ['_']) ++ hex4 (w.toNat / 2 ^ (80 - 16 * i) % 65536)).flatten)

/-- What a run of `olas` leaves (R69). -/
structure Result where
  status : Nat
  image : Option (String × KernelImage) := none
  listing : Option (String × Listing) := none
  diags : List Diag := []
  deriving DecidableEq, Repr

/-- The diagnostics up to the error at which `olas` stops. -/
def upTo : Nat → List Diag → List Diag
  | _, [] => []
  | 0, _ => []
  | n + 1, d :: ds => d :: if d.code.warns then upTo (n + 1) ds else upTo n ds

/-- `olas` on a command line, with the files that it can read (R69). -/
def olas (files : List (String × String)) (args : List String) : Result :=
  match readOptions args {} with
  | none => { status := 2 }
  | some o =>
    if o.files.any fun f => (files.lookup f).isNone then { status := 2 }
    else
      let a : Asm := { opts := o, files := files, mode := o.mode }
      let a := o.defs.foldl (fun a d =>
        match (tokens d.2.toList).map a.number with
        | some (.ok v) => a.define d.1 (.abs (BitVec.ofInt 64 v)) ⟨"", 0⟩
        | some (.error c) => a.err ⟨"", 0⟩ c
        | none => a.err ⟨"", 0⟩ .e101) a
      let lines := (o.files.map fun f => fileLines f ((files.lookup f).getD "") 0).flatten
      let a := (Asm.run mostLines a lines).finish ⟨o.files.getLastD "", 0⟩
      let (cs, bad) := a.allCode
      let ms := a.made cs
      let big := if ms.any (fun x => 2 ^ 32 ≤ x.2.bytes.length) || 64 < ms.length then [(⟨"", 0⟩ : Where).diag .e121] else []
      let lost := (a.globals.filter fun g => !a.symbols.any (·.name == g.1)).map fun g => g.2.diag .e105
      let idle := (a.kernels.filter fun k => !k.proc && (a.namers k).isEmpty).map fun k => k.w.diag .w205
      let all := a.diags ++ bad ++ (cs.map a.checkCode).flatten ++ checkPairs cs ++ (ms.map (·.2.diags)).flatten ++ lost ++ big ++
        a.unused ++ idle
      let all := all.filter fun d => !(d.code.warns && o.mute.contains d.code.number)
      let fails := fun (d : Diag) => o.werror || !d.code.warns
      let shown := if o.werror then all.take o.maxErrors else upTo o.maxErrors all
      if all.any fails then { status := 1, diags := shown }
      else
        { status := 0
          image := some (o.out, a.image ms)
          listing := o.listing.map fun f =>
            (f, { code := cs.map fun c => ⟨c.kind, posAddr c.pos, c.pos % 5, c.p.f.word, c.w⟩
                  globals := a.globals.filterMap fun g => match a.look g.1 with
                    | .ok v => some (g.1, v)
                    | .error _ => none })
          diags := shown }

end Sys2Proof.Olas
end

