-- ==== Sys2Proof/Tests/Slice0.lean ====
section
/-! SUPPORT. Tests of the model: ill-formed instructions, words of the spec's encodings, single steps with results taken from
the spec's examples and rules, and for each statement a state and operands that meet its hypotheses. -/

namespace Sys2Proof.Tests

-- One proof after another: in parallel, the stacks of their threads take more memory than a check of the package has.
set_option Elab.async false

open Sys2Proof Sys2Proof.Machine

/-- No guard. -/
def p : Guard := ⟨false, 7⟩
/-- Register xN. -/
def x (n : BitVec 8) : Reg := ⟨false, n⟩
/-- Register kN. -/
def k (n : BitVec 8) : Reg := ⟨true, n⟩

-- Ill-formed instructions, one for each check

/-- None of the instructions is well formed for the engine. -/
def refuses (e : Engine) (is : List Instr) : Bool := is.all fun i => !i.wf e

-- Table 7.10: the OP belongs to the engine.
theorem test_wf_engine : refuses .thread [.mma p 0, .xgate p 1] && refuses .matrix [.cpseal p, .fadd p .rne .f32 (x 2) (x 2) (.imm 0)] &&
    refuses .copy [.barGang p, .mzero p 0] = true := by decide +kernel
-- R130, Table 7.7: the range of a register field, and the even numbers of pairs; s and q registers have no k bank.
theorem test_wf_registers : refuses .thread [.mov p .i32 (k 64) (.imm 0), .mov p .i64 (x 3) (.imm 0), .brx p (x 5),
      .fadd p .rne .f32 (x 2) (k 64) (.imm 0), .ld p .v4 .n32 .gang .normal 254 (x 2) 0, .crecv p .blk 21 0,
      .ldk p .one .n32 .gang 64 4 0] &&
    refuses .matrix [.mlda p 0 32 0 0 0, .mconv p 0 1 1 3 0, .add p .i32 false (x 32) (x 2) (.imm 0), .add p .i32 false (k 3) (x 2) (.imm 0)] &&
    refuses .copy [.xfer p 3 4 5 0, .xfer p 4 6 16 0] = true := by decide +kernel
-- Table 7.7: p7 is not written.
theorem test_wf_p7 : refuses .thread [.cmp p .eq .i32 7 (x 2) (.imm 0), .plogSet p 7 true, .voteAny p 5 7 1, .grow p 7 8] = true := by
  decide +kernel
-- R152, R192, R156, R158: a call's pair, the engines of FORK, the segments, the types of REDUX.
theorem test_wf_control : refuses .thread [.call p 0 0, .callx p 0 (x 4), .fork p 5 false false 1, .voteAny p 6 1 2, .voteEq p 6 1 (x 2),
    .shflPick p 6 3 (x 2) (.imm 0) (x 0), .bmaskSeg p 6 3, .redux p .add .i64 3 (x 2), .redux p .and .f32 3 (x 2)] = true := by
  decide +kernel
-- R160, R161: the steps of GROW and SHRINK; special registers by number, width, engine and access.
theorem test_wf_allocation : refuses .thread [.grow p 1 0, .grow p 1 12, .growTry p 1 256, .shrink p 4, .gets p false 3 0x14,
    .gets p true 4 0x05, .gets p false 3 0x06, .gets p false 3 0x11, .sets p 0x12 (x 2)] && refuses .matrix [.gets p false 3 0x00] = true := by
  decide +kernel
-- Tables 9.1 and 9.3: the types of each form; R128: an immediate of a 16-bit floating type.
theorem test_wf_types : refuses .thread [.add p .f32 false (x 2) (x 2) (.imm 0), .madWide p .i64 (x 2) (x 2) (.imm 0) (x 4),
    .abs p .n32 false (x 2) (x 2), .bitcPopc p .i8 (x 2) (x 2), .lea p .i16 (x 2) (x 2) (.imm 0) 0, .fadd p .rne .i32 (x 2) (x 2) (.imm 0),
    .fadd p .rne .bf16 (x 2) (x 2) (.imm 0x10000), .fcmp p .eq .bf16x2 1 (x 2) (.imm 0), .fdiv p .rne .f16x2 (x 2) (x 2) (.imm 0),
    .fsgnNeg p .i32 (x 2) (x 2), .fsqrt p .rne .bf16x2 (x 2) (x 2)] = true := by decide +kernel
-- R183, R185: the types of conversions.
theorem test_wf_conversions : refuses .thread [.cvt p .f32 .bf16x2 .rne false (x 2) (x 2), .cvtSlot p .f16x2 .f32 0 (x 2) (x 2),
    .cvtPacked p .f32 .rne false (x 2) (x 2) (.reg (x 3)), .cvtn p .bf16 0 (x 2) 4 (x 0), .cvtw p .i8 0 4 (x 2) (x 0)] = true := by
  decide +kernel
-- R228, R231, R238, R249, R288: counts and their types, the scopes of PREF, locators, and counts that are not zero.
theorem test_wf_memory : refuses .thread [.ld p .one .f32 .gang .normal 4 (x 2) 0, .st p .v2 .n16 .gang .normal (x 2) (x 4) 0,
    .pref p .pkg (x 2) 0, .stage p 0, .bulk p 4 (.imm 1), .bulk p 8 (.imm 0x10000), .cpy p (x 2) (x 4) (x 6) 1,
    .cpy p (x 2) (x 4) (x 6) 0x81000000, .fencex p .pkg 0] && refuses .copy [.xgate p 0, .xslide p 2 4 6 0x40000000] = true := by
  decide +kernel
-- R289, Table 14.2, R294, R328: the types and the order of atomics, of WAITA, and the numbers of privileged registers.
theorem test_wf_atomics : refuses .thread [.atom p .min .f32 .relaxed false false .pkg (x 2) (x 4) (x 6) 0,
    .atom p .add .i16 .relaxed false false .pkg (x 2) (x 4) (x 6) 0, .atom p .add .n32 .acq true false .pkg (x 2) (x 4) (x 6) 0,
    .atom p .add .n32 .relaxed true false .blk (x 2) (x 4) (x 6) 0, .atomCas p .f32 .relaxed false false .pkg (x 2) (x 4) (x 6) (x 8) 0,
    .red p .exch .n32 false false false .pkg (x 4) (x 6) 0, .waita p .eq .f32 .pkg 2 (x 4) (x 6) (x 8) 0, .mfs p 4 0x0C,
    .mts p 0x30 (x 4)] = true := by decide +kernel

-- Words written out from the spec's encodings: OP, SUB, PN and PG, D, A, B, C, MOD, IMM

/-- Every word decodes on the engine's lines to its instruction, which encodes as it. -/
def reads (e : Engine) (ws : List (IWord × Instr)) : Bool :=
  ws.all fun w => decide (decode e w.1 = .ok w.2) && decide (encode w.2 = some w.1)

-- Table 8.4, R137, R138, R192, R194; BRA, RECONV and EXIT as the spec writes them out.
theorem test_decode_control : reads .thread [
    (0x000070000000000000000000, .nop p),
    (0x130070000000000000000000, .isync p),
    (0x0100100000000000FFFFFFA8, .bra ⟨false, 1⟩ 0xFFFFFFA8),
    (0x020090004000000200000000, .brx ⟨true, 1⟩ (k 4)),
    (0x030070400000000000000040, .call p 4 0x40),
    (0x040070406000000000000000, .callx p 4 (x 6)),
    (0x050070004000000000000000, .ret p (x 4)),
    (0x0600700000000000FFFFFFFF, .reconvImm p 0xFFFFFFFF),
    (0x060170005000000000000000, .reconvReg p (x 5)),
    (0x070070000000000000000000, .exit p),
    (0x080070500000000000060003, .fork p 5 true true 6),
    (0x080070500000000000060002, .fork p 5 false true 6),
    (0x0A0070102000050000000000, .voteAny p 5 1 2),
    (0x0A0170102000030000000000, .voteAll p 3 1 2),
    (0x0A0270902000050000000000, .voteBallot p 5 9 2),
    (0x0A0370109000050200000000, .voteEq p 5 1 (k 9)),
    (0x0A0470902000020000000000, .voteCnt p 2 9 2),
    (0x0B0070908070650E00000000, .shflPick p 5 9 (k 8) (.reg (k 7)) (k 6)),
    (0x0B0170908000651000000001, .shflFwd p 5 9 (x 8) (.imm 1) (x 6)),
    (0x0B0270908070650000000000, .shflBack p 5 9 (x 8) (.reg (x 7)) (x 6)),
    (0x0B0370908070610000000000, .shflFlip p 1 9 (x 8) (.reg (x 7)) (x 6)),
    (0x0B0470908070640000000000, .shflRot p 4 9 (x 8) (.reg (x 7)) (x 6))] = true := by decide +kernel

-- Table 8.4, R137, R138, R192, R194; BRA, RECONV and EXIT as the spec writes them out.
theorem test_decode_control_matrix : reads .matrix [
    (0x090070000000000000000001, .rdv p 1)] = true := by decide +kernel

-- Table 8.4; GETS as the spec writes it out.
theorem test_decode_gang : reads .thread [
    (0x0C2870908000000000000000, .redux p .max .f32 9 (x 8)),
    (0x0D0070900000000000000000, .bmaskSelf p 9),
    (0x0D0170900000030000000000, .bmaskPre p 3 9),
    (0x0D0270900000030000000000, .bmaskPost p 3 9),
    (0x0D0370900000050000000000, .bmaskSeg p 5 9),
    (0x0D0470900000000000000000, .bmaskGrp p 9),
    (0x0D0570900000001000000105, .bmaskSpan p 9 (.imm 0x105)),
    (0x0E0070100000000000000008, .grow p 1 8),
    (0x0E0170100000000000000008, .growTry p 1 8),
    (0x0F0070000000000000000010, .shrink p 0x10),
    (0x100070300000000000000000, .gets p false 3 0),
    (0x100170406000000000000000, .gets p true 4 6),
    (0x110071005000000000000000, .sets p 0x10 (x 5)),
    (0x120070102030000000000000, .plogAnd p 1 2 3),
    (0x120170102030000000000000, .plogOr p 1 2 3),
    (0x120270102030000000000000, .plogXor p 1 2 3),
    (0x120370102030000000000000, .plogAndn p 1 2 3),
    (0x120470102030000000000000, .plogOrn p 1 2 3),
    (0x120570102000000000000000, .plogNot p 1 2),
    (0x120670100000000000000001, .plogSet p 1 true)] = true := by decide +kernel

-- Table 9.1; ADD, SUB, MOV, SHF.shl and CMP as the spec writes them out.
theorem test_decode_integer : reads .thread [
    (0x2006707000000010BC80BC80, .mov p .n32 (x 7) (.imm 0xBC80BC80)),
    (0x210270A0A000001000000064, .add p .i32 false (x 10) (x 10) (.imm 100)),
    (0x211270A0A080000700000000, .add p .i32 true (k 10) (k 10) (.reg (k 8))),
    (0x220270606000001000000001, .sub p .i32 false (x 6) (x 6) (.imm 1)),
    (0x231470605040000000000000, .mul p .n8 true (x 6) (x 5) (.reg (x 4))),
    (0x240170605040300800000000, .mad p .i16 (x 6) (x 5) (.reg (x 4)) (k 3)),
    (0x241670605040200000000000, .madWide p .n32 (x 6) (x 5) (.reg (x 4)) (x 2)),
    (0x250370604020000000000000, .mulhi p .i64 (x 6) (x 4) (.reg (x 2))),
    (0x260670605040000000000000, .div p .n32 (x 6) (x 5) (.reg (x 4))),
    (0x270670605040000000000000, .rem p .n32 (x 6) (x 5) (.reg (x 4))),
    (0x280570605040000000000000, .and p .n16 (x 6) (x 5) (.reg (x 4))),
    (0x290670605040000000000000, .or p .n32 (x 6) (x 5) (.reg (x 4))),
    (0x2A0670605040000000000000, .xor p .n32 (x 6) (x 5) (.reg (x 4))),
    (0x2B0670303000001000000003, .shfShl p .n32 (x 3) (x 3) (.imm 3)),
    (0x2B1270303000001000000003, .shfShr p .i32 (x 3) (x 3) (.imm 3)),
    (0x2B2670303000001000000003, .shfRotl p .n32 (x 3) (x 3) (.imm 3)),
    (0x2B3670303000001000000003, .shfRotr p .n32 (x 3) (x 3) (.imm 3)),
    (0x2C4270106000001000000000, .cmp p .gt .i32 1 (x 6) (.imm 0)),
    (0x2D0670605040300000000000, .sel p .n32 (x 6) (x 5) (.reg (x 4)) 3),
    (0x2E0270605040000000000000, .min p .i32 (x 6) (x 5) (.reg (x 4))),
    (0x2F0270605040000000000000, .max p .i32 (x 6) (x 5) (.reg (x 4))),
    (0x301270605000000000000000, .abs p .i32 true (x 6) (x 5)),
    (0x310670605000000000000000, .bitcPopc p .n32 (x 6) (x 5)),
    (0x311770704000000000000000, .bitcClz p .n64 (x 7) (x 4)),
    (0x312670605000000000000000, .bitcCtz p .n32 (x 6) (x 5)),
    (0x313670605000000000000000, .bitcBrev p .n32 (x 6) (x 5)),
    (0x320270605000001000000804, .bfe p .i32 (x 6) (x 5) (.imm 0x804)),
    (0x330670605000401000000804, .bfi p .n32 (x 6) (x 5) (.imm 0x804) (x 4)),
    (0x340270A04030020200000000, .lea p .i32 (x 10) (k 4) (.reg (x 3)) 2)] = true := by decide +kernel

-- Tables 9.3 and R183, R185; FFMA, CVTN and CVTW as the spec writes them out.
theorem test_decode_float : reads .thread [
    (0x501870605040000000000000, .fadd p .rtz .f32 (x 6) (x 5) (.reg (x 4))),
    (0x512970605040000000000000, .fsub p .rup .bf16 (x 6) (x 5) (.reg (x 4))),
    (0x523A70605040000000000000, .fmul p .rdn .f16 (x 6) (x 5) (.reg (x 4))),
    (0x530B70A08070600000000000, .ffma p .rne .bf16x2 (x 10) (x 8) (.reg (x 7)) (x 6)),
    (0x540C70605040000000000000, .fmin p .f16x2 (x 6) (x 5) (.reg (x 4))),
    (0x55087060500000103F800000, .fmax p .f32 (x 6) (x 5) (.imm 0x3F800000)),
    (0x566870105040000000000000, .fcmp p .un .f32 1 (x 5) (.reg (x 4))),
    (0x570870605000000000000000, .fsgnNeg p .f32 (x 6) (x 5)),
    (0x571870605000000000000000, .fsgnAbs p .f32 (x 6) (x 5)),
    (0x572870605040000000000000, .fsgnCopy p .f32 (x 6) (x 5) (.reg (x 4))),
    (0x573870605040000000000000, .fsgnXor p .f32 (x 6) (x 5) (.reg (x 4))),
    (0x580870605040000000000000, .fdiv p .rne .f32 (x 6) (x 5) (.reg (x 4))),
    (0x591A70605000000000000000, .fsqrt p .rtz .f16 (x 6) (x 5)),
    (0x5A0870605000000000000000, .frcp p (x 6) (x 5)),
    (0x5B0870605000000000000000, .frsq p (x 6) (x 5)),
    (0x5C0870605000000000000000, .fexp2 p (x 6) (x 5)),
    (0x5D0870605000000000000000, .flog2 p (x 6) (x 5)),
    (0x5E0870605000000000000000, .fsin p (x 6) (x 5)),
    (0x5F0870605000000300000000, .fcos p (k 6) (k 5)),
    (0x600970605000000000000000, .fclass p .bf16 (x 6) (x 5)),
    (0x613870605000000000000000, .frnd p .rdn .f32 (x 6) (x 5)),
    (0x625270605000080000000000, .cvt p .i32 .f32 .rtz true (x 6) (x 5)),
    (0x620B70605040080000000000, .cvtPacked p .bf16x2 .rne false (x 6) (x 5) (.reg (x 4))),
    (0x628070605000086000000000, .cvtSlot p .i8 .f32 3 (x 6) (x 5)),
    (0x630870C04000002000000000, .cvtn p .f32 1 (x 12) 4 (x 0)),
    (0x64087100C000002000000000, .cvtw p .f32 1 16 (x 12) (x 0))] = true := by decide +kernel

-- Tables 11.5 and 12.2; LD and CPY as the spec writes them out.
theorem test_decode_memory : reads .thread [
    (0x802671404000000200000000, .ld p .v4 .n32 .gang .normal 20 (k 4) 0),
    (0x81137000A1400284FFFFFFF8, .st p .v2 .i64 .sys .nc (x 10) (k 20) 0xFFFFFFF8),
    (0x820670804000004300000010, .ldk p .one .n32 .die 8 4 0x10),
    (0x83007000A000002000000000, .pref p .blk (x 10) 0),
    (0x84007000A000006000000000, .cflush p .pkg (x 10) 0),
    (0x84017000A000006000000000, .cflushInv p .pkg (x 10) 0),
    (0x85007000A000004000000000, .cinv p .die (x 10) 0),
    (0x9000100100C0E00000000000, .cpy ⟨false, 1⟩ (x 16) (x 12) (x 14) 0),
    (0x910070000000000000000000, .cpseal p),
    (0x920070000000000000000002, .cpwait p 2),
    (0x930070000000000000000003, .stage p 3),
    (0x940070008000001200000003, .bulk p 8 (.imm 3)),
    (0x950070500000000000000000, .outst p 5),
    (0x96007000A050006000000008, .arrive p .pkg (x 10) (x 5) 8),
    (0x96017000A050606A00000008, .arriveAnn p .pkg (k 10) (x 5) (k 6) 8),
    (0x97007070A050002000000008, .await p .blk 7 (x 10) (x 5) 8)] = true := by decide +kernel

-- Table 12.2.
theorem test_decode_copy : reads .copy [
    (0x980070004060800080000010, .xfer p 4 6 8 0x80000010),
    (0x980170004060800000000000, .xfer2d p 4 6 8 0),
    (0x990070005060800000000000, .xslide p 5 6 8 0),
    (0x9A0070000000000000000001, .xgate p 1),
    (0x9B0070400000001000000080, .xbump p 4 (.imm 0x80)),
    (0x9B0170506070000000000000, .xbumpRing p 5 6 (.reg (x 7)))] = true := by decide +kernel

-- R286 to R289, R294; ATOM.cas, RED and WAITA as the spec writes them out.
theorem test_decode_sync : reads .thread [
    (0xA00070000000008000000000, .fence p .sys),
    (0xA10070000000006000000009, .fencex p .pkg 9),
    (0xA20070000000000000000000, .barGang p),
    (0xA20170000000000000000003, .barBlk p 3),
    (0xA20270000000000000000003, .barBlkArv p 3),
    (0xA20370000000000000000003, .barEns p 3),
    (0xA20470000000000000000003, .barEnsArv p 3),
    (0xA20570000000000000000003, .barCoop p 3),
    (0xA3067050A0600B6000000000, .atom p .add .n32 .acqrel false true .pkg (x 5) (x 10) (x 6) 0),
    (0xA3767050A060016000000000, .atomCas p .n32 .acq false false .pkg (x 5) (x 10) (x 6) (x 0) 0),
    (0xA4367000A000026000000000, .red p .and .n32 true false false .pkg (x 10) (x 0) 0),
    (0xA5167070A000006000000000, .waita p .eq .n32 .pkg 7 (x 10) (x 0) (x 0) 0)] = true := by decide +kernel

-- Table 15.8; CSEND and CRECV as the spec writes them out.
theorem test_decode_conversation : reads .thread [
    (0xB00070502060800C00000000, .cbind p 5 2 (k 6) (k 8)),
    (0xB10070000050002000000001, .csend p .blk 0 (x 5) 1),
    (0xB20071400000002000000000, .crecv p .blk 20 0),
    (0xB30071401000006000000000, .ctry p .pkg 20 1),
    (0xB40070003050000000000000, .cdeleg p 3 (x 5)),
    (0xB50071403000000000000000, .cstateHome p 20 3),
    (0xB50171403000000000000000, .cstateRole p 20 3),
    (0xB60070003000000000000000, .cclose p 3),
    (0xB70071404060800200000000, .cload p 20 (k 4) (x 6) (x 8))] = true := by decide +kernel

-- Table 10.5 and Table 10.9, which writes them out.
theorem test_decode_matrix : reads .matrix [
    (0xC00070200000000000000000, .mzero p 2),
    (0xC1007000E090E00000000000, .mlda p 0 14 9 14 0),
    (0xC2007000A090E060FFFFFFC0, .mldb p 3 10 9 14 0xFFFFFFC0),
    (0xC2017000A090E00000000000, .mldbLong p 0 10 9 14 0),
    (0xC3007000A090E02000000000, .mgath p 1 10 9 14 0),
    (0xC4007000A090E02000000000, .mconv p 1 10 9 14 0),
    (0xC50070300000000000000000, .mma p 3),
    (0xC6007000B0C0000000000000, .maccl p 0 11 12 0),
    (0xC7007000D090E02000000000, .mdrainF32 p 1 0 13 9 14 0),
    (0xC7017010D090E02000000000, .mdrainI32 p 1 1 13 9 14 0)] = true := by decide +kernel

-- Tables 5.x and 16.10; SYS, SRET and MFS as the spec writes them out.
theorem test_decode_system : reads .thread [
    (0xD0007050A000000000000000, .launch p 5 (x 10) 0),
    (0xD1007000A050000000000000, .gsigArr p (x 10) (x 5) 0),
    (0xD1017000A050000000000000, .gsigAnn p (x 10) (x 5) 0),
    (0xD1027000A000000000000040, .gsigSeal p (x 10) 0x40),
    (0xD2007050A000000000000000, .cancel p 5 (x 10) 0),
    (0xE00020000000000000000005, .sys ⟨false, 2⟩ 5),
    (0xE10070000000000000000000, .sret p),
    (0xE20070000000000000000007, .hcall p 7),
    (0xE30070000000000000000000, .hret p),
    (0xE40070A02000000000000000, .mfs p 10 2),
    (0xE50070305000000000000000, .mts p 3 (x 5)),
    (0xE50072905000000000000000, .mtsGhold p (x 5)),
    (0xE60070000000000000000000, .tlbinvAll p),
    (0xE60170005000000000000000, .tlbinvAsid p (x 5)),
    (0xE60270004060000000000000, .tlbinvPage p (x 4) (x 6)),
    (0xE60370005000000000000000, .tlbinvVmid p (x 5)),
    (0xE70070506000000000000000, .fresume p 5 (x 6)),
    (0xE80070506000000000000000, .fkillTok p 5 (x 6)),
    (0xE80170506000000000000000, .fkillGang p 5 (x 6)),
    (0xE90070506000000000000000, .tokwait p 5 (x 6)),
    (0xEA0070506000000000000000, .ctxsave p 5 (x 6)),
    (0xEB0070506000000000000000, .ctxload p 5 (x 6) (x 0)),
    (0xEC0070506000000000000000, .walkres p 5 6),
    (0xEC0170506000000000000000, .walkresSkip p 5 6),
    (0xED0070506080000000000800, .tmove p 5 6 8 0x800),
    (0xEE0070506080A00000000800, .treplAdd p 5 6 8 10 0x800),
    (0xEE0170506000000000000003, .treplDrop p 5 6 3)] = true := by decide +kernel

-- Table 7.9: an unassigned OP, an OP of another engine, a SUB not listed, a reserved type and scope, a field that the form
-- does not use, a register outside Table 7.7.
theorem test_decode_refuses : ([(0xFF0070000000000000000000, .opUnassigned), (0xC50070000000000000000000, .notThisEngine),
    (0x0A0570000000000000000000, .subNotListed), (0x210D70000000000000000000, .subNotListed),
    (0xA0007000000000A000000000, .subNotListed), (0x070070000000000000000001, .fieldNonzero),
    (0x2006704000000000000000FF, .fieldNonzero), (0x200674000000000100000000, .operandOutOfRange)] :
    List (IWord × DecodeError)).all (fun w => decide (decode .thread w.1 = .error w.2)) = true := by decide +kernel

-- States and operands that meet the hypotheses of the statements

/-- Lane `l` of a small gang: at address 64, in a mode; x2 and x3 hold l + 1, the pair x4 names byte 64 + 16 l of the
block's window, the pair x6 byte 4096 + 256 l of page 0, and the pair x8 byte 1024 of the window. -/
def lane0 (md : Mode) (l : Nat) : Lane :=
  { pc := 64, mode := md, x := [(2, BitVec.ofNat 32 (l + 1)), (3, BitVec.ofNat 32 (l + 1)), (4, BitVec.ofNat 32 (64 + 16 * l)),
      (5, 0x60000000), (6, BitVec.ofNat 32 (4096 + 256 * l)), (8, 1024), (9, 0x60000000), (10, 16), (11, 0xFFFF)] }

/-- The gang: 32 such lanes, 40 registers each; the pair k4 names byte 64 of the window, and k8 to k15 a
bulk copy to it of the 16 bytes at 4096. -/
def gang0 (md : Mode) : Gang :=
  { block := 0, number := 0, alloc := 40, lanes := (List.range 32).map (lane0 md), k := [(4, 64), (5, 0x60000000), (8, 64), (9, 0x60000000), (10, 4096), (12, 16)] }

/-- Its block, which claims both sequencers. -/
def block0 : Block :=
  { core := 0, ctx := 1, tag := 1, index := 0, slots := [0], lsb := 4096, regs := 40, bars := 16, claimsMatrix := true,
    claimsCopy := true }

/-- The translation of page 0 to itself. -/
def page0 : TlbEntry :=
  { hyp := false, asid := 0, vmid := 0, secure := false, va := 0, bits := 16, pa := 0, gR := true, gW := true, gX := true,
    gU := true, hR := true, hW := true, hX := true, s := false, ms := false }

/-- A format slot of a FMT, a PREC and flags, with SCALE 1. -/
def slotBytes (fmt prec fl : Byte) : List Byte := [fmt, prec, fl, 0, 0, 0, 0x80, 0x3F, 0, 0, 0, 0, 0, 0, 0, 0]

/-- The launch: both sequencers' entries at 128; slots 0 to 5 are BF16, INT8, INT8 with TRAPINV, ternary, binary8 and
BF16 with TRAPINV. -/
def launch0 : Launch :=
  { ctx := 1, queue := 0, level := 0, prio := 0, addr := 0, drive := List.replicate 256 0,
    lrec := List.replicate 8 0 ++ [128, 0, 0, 0, 0, 0, 0, 0, 128] ++ List.replicate 111 0 ++ slotBytes 9 0 0 ++ slotBytes 1 0 1 ++
      slotBytes 1 0 9 ++ slotBytes 0x18 0 0 ++ slotBytes 0x10 4 1 ++ slotBytes 9 0 8 ++ List.replicate 32 0 }

/-- Core 0 of a device on which only `G` of block `B` runs, in context 1. -/
def on (G : Gang) (B : Block) : State :=
  { State.reset with
    cores := [(0, { utlb := [page0] })], gangs := [(0, G)], blocks := [(0, B)], dieCtx := [(0, 1)], ctxs := [(1, {})],
    launches := [(1, launch0)], cur := some ⟨.thread, 0, 0, 3, 64⟩ }

/-- The state in which lanes 0 and 1 of the gang execute. -/
def state0 (md : Mode) : State := on (gang0 md) block0

/-- What `Executes` asks of an instruction and a gang at address 64, the state apart. -/
def ready (i : Instr) (G : Gang) (m act : Mask) : Bool :=
  i.wf .thread && decide (beyondAlloc G.alloc (i.regs .thread) = none) &&
    (lanesOf m).all (fun l => decide (i.leastMode.rank ≤ (G.lane l).mode.rank ∧ (G.lane l).life = .running ∧ (G.lane l).pc = 64)) &&
    G.waits.all (fun w => w.lanes &&& m == 0) && decide (G.guardMasks i.guard m = (0, act)) && act != 0

theorem executes_of_ready {i : Instr} {s : State} {G : Gang} {m act : Mask} (hc : s.cur = some ⟨.thread, 0, 0, m, 64⟩)
    (hg : s.gangs.find? 0 = some G) (h : ready i G m act = true) : Executes i s 0 G m act 64 := by
  simp only [ready, Bool.and_eq_true, decide_eq_true_eq, List.all_eq_true, beq_iff_eq, bne_iff_ne] at h
  obtain ⟨⟨⟨⟨⟨hw, ha⟩, hl⟩, hf⟩, hm⟩, hs⟩ := h
  exact ⟨hc, hg, hw, ha, fun l q => (hl l q).1, fun l q => (hl l q).2.1, fun l q => (hl l q).2.2, hf, hm, hs⟩

/-- Whether `Executes` holds of gang 0, with lanes `m` at address 64 and the lanes `act` active. -/
def runs (i : Instr) (s : State) (G : Gang) (m act : Mask) : Bool :=
  decide (s.cur = some ⟨.thread, 0, 0, m, 64⟩) && decide (s.gangs.find? 0 = some G) && ready i G m act

theorem executes_of_runs {i : Instr} {s : State} {G : Gang} {m act : Mask} (h : runs i s G m act = true) :
    Executes i s 0 G m act 64 := by
  simp only [runs, Bool.and_eq_true, decide_eq_true_eq] at h
  exact executes_of_ready h.1.1 h.1.2 h.2

/-- Executing, for each instruction of a list. -/
theorem executes_all {s : State} {G : Gang} {m act : Mask} {is : List Instr} (h : (is.all fun i => runs i s G m act) = true) :
    ∀ i ∈ is, Executes i s 0 G m act 64 := fun i q => executes_of_runs (List.all_eq_true.mp h i q)

/-- Whether every instruction executes on lanes 0 and 1 of the small gang in a mode. -/
def allRun (md : Mode) (is : List Instr) : Bool := is.all fun i => runs i (state0 md) (gang0 md) 3 3

theorem executes_of_allRun {md : Mode} {is : List Instr} (h : allRun md is = true) :
    ∀ i ∈ is, Executes i (state0 md) 0 (gang0 md) 3 3 64 :=
  fun i m => executes_of_runs (List.all_eq_true.mp h i m)

/-- No register and no predicate that a view reads is poisoned. -/
structure Clean (v : View) : Prop where
  reg : ∀ r, (v.reg r).2 = false
  pair : ∀ r, (v.pair r).2 = false
  raw : ∀ t r, (v.raw t r).2 = false
  val : ∀ t r, (v.val t r).2 = false
  valS : ∀ t b, (v.valS t b).2 = false
  wordS : ∀ b, (v.wordS b).2 = false
  pred : ∀ q, (v.pred q).2 = false

theorem clean_of (v : View) (hx : v.xp = []) (hk : v.kp = []) (hp : v.pp = 0) : Clean v := by
  have reg : ∀ r, (v.reg r).2 = false := by
    intro r; unfold View.reg; simp only [hx, hk]; split
    · rfl
    · split <;> rfl
  have pair : ∀ r, (v.pair r).2 = false := by intro r; simp [View.pair, reg]
  have raw : ∀ t r, (v.raw t r).2 = false := by
    intro t r; unfold View.raw; split
    · exact pair r
    · exact reg r
  refine ⟨reg, pair, raw, raw, ?_, ?_, ?_⟩
  · intro t b; cases b with
    | reg r => exact raw t r
    | imm i => rfl
  · intro b; cases b with
    | reg r => exact reg r
    | imm i => rfl
  · intro q; unfold View.pred; split
    · rfl
    · simp [hp]

/-- Every register of the small gang is clean. -/
theorem clean0 (md : Mode) (l : Nat) (h : l < 32) : Clean ((gang0 md).view l) := by
  have e : (gang0 md).lane l = lane0 md l := by simp [gang0, Gang.lane, h]
  apply clean_of
  · show ((gang0 md).lane l).xp = []
    rw [e]; rfl
  · rfl
  · show ((gang0 md).lane l).pp = 0
    rw [e]; rfl

/-- `i` executes, for lanes whose registers are all clean: what the statements on results require. -/
def Meets (i : Instr) : Prop := ∃ s k G m act pc, Executes i s k G m act pc ∧ ∀ l ∈ lanesOf act, Clean (G.view l)

theorem meets_of {md : Mode} {is : List Instr} (h : allRun md is = true) : ∀ i ∈ is, Meets i :=
  fun i m => ⟨_, _, _, _, _, _, executes_of_allRun h i m, by
    intro l hl
    apply clean0
    simp [lanesOf] at hl
    omega⟩

-- Sequencers

/-- A sequencer at address 64: the pair r4 names byte 64 of the window, r6 address 4096, r8 is 16, the pair r10 the shape
of two rows of 16 bytes, r12 byte 1024, the pair r14 the shape of a slide of two rows; r16 to r22 are a matrix's offsets. -/
def seq0 : Seq :=
  { run := .running, pc := 64, r := [(4, 64), (5, 0x60000000), (6, 4096), (8, 16), (10, 0x01000010), (11, 0x00010001), (12, 1024),
      (14, 2), (15, 64), (17, 64), (19, 16), (20, 2048), (21, 3072)] }

/-- The block with such a sequencer. -/
def seqBlock (matrix : Bool) : Block := block0.putSeq matrix seq0

/-- The state in which the sequencer of `B` executes. -/
def seqOn (matrix : Bool) (B : Block) : State :=
  { on (gang0 .user) B with cur := some ⟨seqEngine matrix, 0, 0, 0, 64⟩ }

/-- Whether `SeqExecutes` holds of block 0. -/
def seqRuns (i : Instr) (matrix : Bool) (s : State) (B : Block) : Bool :=
  decide (s.cur = some ⟨seqEngine matrix, B.core, 0, 0, (B.seq matrix).pc⟩) && decide (s.blocks.find? 0 = some B) &&
    i.wf (seqEngine matrix) && decide ((B.seq matrix).view.guard i.guard = (true, false))

theorem seqExecutes_of {i : Instr} {matrix : Bool} {s : State} {B : Block} (h : seqRuns i matrix s B = true) :
    SeqExecutes i matrix s 0 B := by
  simp only [seqRuns, Bool.and_eq_true, decide_eq_true_eq] at h
  exact ⟨h.1.1.1, h.1.1.2, h.1.2, h.2⟩

/-- Executing, for each instruction of a list. -/
theorem seqExecutes_all {matrix : Bool} {s : State} {B : Block} {is : List Instr}
    (h : (is.all fun i => seqRuns i matrix s B) = true) : ∀ i ∈ is, SeqExecutes i matrix s 0 B :=
  fun i q => seqExecutes_of (List.all_eq_true.mp h i q)

-- Addresses

theorem snd_of {α β : Type} {r : α × β} {b : β} (h : r.2 = b) : ∃ a, r = (a, b) := ⟨r.1, by rw [← h]⟩

theorem ok_of {ε α : Type} {r : Except ε α} (h : r.isOk = true) : ∃ a, r = .ok a := by
  cases r with
  | ok a => exact ⟨a, rfl⟩
  | error e => cases h

/-- Whether a result is a success with value `a`. -/
def isOk {ε α : Type} [DecidableEq α] (r : Except ε α) (a : α) : Bool :=
  match r with
  | .ok b => decide (b = a)
  | .error _ => false

theorem eq_ok {ε α : Type} [DecidableEq α] {r : Except ε α} {a : α} (h : isOk r a = true) : r = .ok a := by
  cases r with
  | ok b => simp only [isOk, decide_eq_true_eq] at h; rw [h]
  | error e => cases h

/-- The addresses that the lanes `m` of gang 0 form, in block 0. -/
def addrs (s : State) (G : Gang) (base : Reg) (n align : Nat) (acc : Access) (m : Mask := 3) :
    State × List (Nat × LaneAt) × Option Nat :=
  s.laneAddrs 0 G ((s.blocks.find? 0).getD block0) (fun l => (G.view l).pair base) 0 n align acc (lanesOf m)

/-- Whether an instruction executes on the lanes `m` of gang 0 whose addresses pass every check, stand at the places `P` and
are not held. -/
def reaches (i : Instr) (s : State) (G : Gang) (base : Reg) (n align : Nat) (acc : Access) (A : Nat → DWord) (P : Nat → Spot)
    (m : Mask := 3) : Bool :=
  let r := addrs s G base n align acc m
  runs i s G m m && decide (G.block = 0) && (s.blocks.find? 0).isSome &&
    decide (r.2 = ((lanesOf m).map fun l => (l, .at (A l) (P l)), none)) &&
    (lanesOf m).all fun l => (P l).onDevice && !r.1.held 0 (A l) (P l) n

theorem reaches_of {i : Instr} {s : State} {G : Gang} {base : Reg} {n align : Nat} {acc : Access} {A : Nat → DWord} {P : Nat → Spot}
    {m : Mask} (h : reaches i s G base n align acc A P m = true) : Executes i s 0 G m m 64 ∧
    Placed s (addrs s G base n align acc m).1 0 G m base 0 n align acc A P ∧ Unheld (addrs s G base n align acc m).1 0 m n A P := by
  simp only [reaches, Bool.and_eq_true, decide_eq_true_eq, List.all_eq_true, Bool.not_eq_true'] at h
  obtain ⟨⟨⟨⟨hr, hb⟩, hs⟩, ha⟩, hl⟩ := h
  obtain ⟨B, hB⟩ := Option.isSome_iff_exists.mp hs
  refine ⟨executes_of_runs hr, ⟨⟨B, hb ▸ hB, ?_⟩, fun l q => (hl l q).1⟩, fun l q => (hl l q).2⟩
  have e : (s.blocks.find? 0).getD block0 = B := by rw [hB]; rfl
  unfold addrs at ha ⊢
  rw [e] at ha ⊢
  exact Prod.ext rfl ha

/-- `reaches`, for each instruction of a list. -/
theorem reaches_all {is : List Instr} {s : State} {G : Gang} {base : Reg} {n align : Nat} {acc : Access} {A : Nat → DWord}
    {P : Nat → Spot} {m : Mask} (h : (is.all fun i => reaches i s G base n align acc A P m) = true) :
    ∀ i ∈ is, Executes i s 0 G m m 64 ∧ Placed s (addrs s G base n align acc m).1 0 G m base 0 n align acc A P ∧
      Unheld (addrs s G base n align acc m).1 0 m n A P :=
  fun i q => reaches_of (List.all_eq_true.mp h i q)

/-- Byte 64 + 16 l of the window, which the pair x4 names, and byte 4096 + 256 l of page 0, which the pair x6 names. -/
def lsA (l : Nat) : DWord := 0x6000000000000040 + BitVec.ofNat 64 (16 * l)
def lsP (l : Nat) : Spot := .ls 0 (64 + 16 * l)
def memA (l : Nat) : DWord := BitVec.ofNat 64 (4096 + 256 * l)
def memP (ms : Bool) (l : Nat) : Spot := .mem (4096 + 256 * l) ms

/-- The small state with page 0 memory-side. -/
def msState : State := { state0 .user with cores := [(0, { utlb := [{ page0 with ms := true }] })] }

/-- The block as member 0 of ensemble 5, with 16 barriers of each kind. -/
def ensBlock : Block := { block0 with ens := some 5, ebars := 16, cbars := 16 }
def ensState : State :=
  { on (gang0 .user) ensBlock with ensembles := [(5, { tag := 1, anchor := 0, partner := none, members := [(0, false)], lsb := 4096, ebars := 16 })] }

-- Single steps and values, against the spec's worked examples

/-- A gang of one lane with the x registers given, at address 64. -/
def oneLane (xs : SMap Word) : Gang :=
  { block := 0, number := 0, alloc := 40, lanes := [{ pc := 64, x := xs }] }
def alone (xs : SMap Word) : State := { on (oneLane xs) block0 with cur := some ⟨.thread, 0, 0, 1, 64⟩ }

/-- What lane 0 holds after an instruction, if a next state follows. -/
def after {α : Type} (i : Instr) (s : State) (f : Lane → α) : Option α :=
  match exec i s with
  | .next t => some (f (t.lane 0 0))
  | .fault _ | .refused _ => none

/-- Register n of a lane. -/
def reg (n : Nat) (l : Lane) : Word := l.x.get 0 n

-- After Table 9.2: ADD.sat.i8 of 0x70 and 0x20 gives 0x7F; CMP.lt.n8 of 0xFFFFFF01 against 2 is true.
theorem test_add_saturates : after (.add p .i8 true (x 4) (x 2) (.reg (x 3))) (alone [(2, 0x70), (3, 0x20)]) (reg 4) = some 0x7F := by
  decide +kernel
theorem test_cmp_narrow : after (.cmp p .lt .n8 1 (x 2) (.imm 2)) (alone [(2, 0xFFFFFF01)]) (fun l => l.p.getLsbD 1) = some true := by
  decide +kernel

-- "The update step of upd": x10 becomes 0x4380_3F74 with NX, and 0x437F_3F74 under RTZ; the lane goes on 12 bytes further.
theorem test_upd : [Rm.rne, .rtz].map (fun rm => after (.ffma p rm .bf16x2 (x 10) (x 8) (.reg (x 7)) (x 6))
      (alone [(6, 0x43803F80), (7, 0xBC80BC80), (8, 0x3F804040)]) fun l => (reg 10 l, l.fflags, l.pc)) =
    [some (0x43803F74, 0x01, 76), some (0x437F3F74, 0x01, 76)] := by decide +kernel

-- "A narrowing round trip", through slot 4 of the small launch, which is its slot.
theorem test_cvtn : after (.cvtn p .f32 4 (x 12) 4 (x 0)) (alone [(4, 0x40300000), (5, 0xBDCCCCCD), (6, 0x3BA3D70A), (7, 0x43960000)])
    (fun l => (reg 12 l, l.fflags)) = some (0x8005A54B, 0x07) := by decide +kernel
theorem test_cvtw : after (.cvtw p .f32 4 16 (x 12) (x 0)) (alone [(12, 0x8005A54B)])
    (fun l => (reg 16 l, reg 17 l, reg 18 l, reg 19 l, l.fflags)) = some (0x40300000, 0xBDD00000, 0x3BA00000, 0x7FC00000, 0) := by
  decide +kernel

-- Table 3.10: a value in FP32 narrowed through a slot of a FMT, PREC and flags, with a tile exponent.
theorem test_narrowing : ([(9, 0, 0, 0x3C800000, 0, 0x3C80, 0), (0x10, 4, 1, 0x40300000, 0, 0x4B, 0), (0x10, 4, 1, 0xBDCCCCCD, 0, 0xA5, 1),
    (0x10, 4, 0x11, 0xBDCCCCCD, 0, 0xA4, 1), (0x10, 4, 1, 0x3BA3D70A, 0, 0x05, 3), (0x10, 1, 1, 0x40400000, 0, 0x42, 1),
    (0x10, 1, 0x11, 0x40400000, 0, 0x41, 1), (0x10, 5, 0, 0x40533333, 0, 0x9A, 1), (0x10, 3, 1, 0x47723000, 0, 0x80, 5),
    (0x10, 3, 3, 0x47723000, 0, 0x7F, 5), (0x10, 3, 5, 0x47723000, 0, 0x7F, 5), (0x10, 3, 7, 0x47723000, 0, 0x7E, 5),
    (0x10, 4, 0, 0xBF800000, 0, 0xFF, 0x10), (0x10, 4, 4, 0xBF800000, 0, 0x00, 1)] :
      List (Byte × Byte × Byte × Nat × Int × Nat × BitVec 7)).all (fun (f, pr, fl, w, e, code, flags) =>
    decide ((Slot.ofBytes 0 (slotBytes f pr fl)).narrow (.float (Num.decodeCode Num.fp32 w)) e = (code, flags))) = true := by
  decide +kernel
-- Its last two rows: SCALE 0.5 and tile exponent 3.
theorem test_scale : let sl : Slot := { Slot.ofBytes 0 (slotBytes 0x10 4 1) with scale := 0x3F000000 }
    sl.widen 0x4B 3 = (0x41300000, 0) ∧ sl.narrow (.float (Num.decodeCode Num.fp32 0x41300000)) 3 = (0x4B, 0) := by decide +kernel
-- The ternary row after Table 3.10.
theorem test_ternary : tritByte [1, 2, 0, 0, 1] = 0x58 ∧ tritByte [2, 1] = 0x05 ∧ trits 0x58 = ([1, 2, 0, 0, 1], false) ∧
    (trits 0xF5).2 = true := by decide +kernel
-- R66 and "One product, grouped": eight products 2^-12 x 2^-13 added to 1.0 give 0x3F80_0002.
theorem test_group : groupFloat id 0x3F800000 (List.replicate 8 (Num.decodeCode Num.bf16 0x3980))
    (List.replicate 8 (Num.decodeCode Num.bf16 0x3900)) = (0x3F800002, 0) := by decide +kernel

-- "Describing W": the walker's claim writes bytes 0x14 to 0x17 of record 6 with TAG 0x2A, and routes its block to node 1.
def recordW : List Byte :=
  [2, 0, 1, 0, 0, 0, 0, 0, 1, 1, 0, 0, 0, 0, 0, 0] ++ List.replicate 8 0 ++ [0, 0x10, 0, 0, 0, 1, 0, 0]
def launchW : Launch :=
  { launch0 with
    lrec := (List.range 4).foldl (fun r i => setField r (0x50 + i) 1 1) launch0.lrec,
    drive := setField (setField (setField (setField (setField (setField launch0.drive 0x10 2 4) 0x12 2 4) 0x14 2 1) 0x16 2 1) 0x24 4 16) 0x28 8 0x8000 }
def stateW : State :=
  { state0 .user with
    ctxs := [(1, {})], stlb := [(0, [page0])], launches := [(0x2A, launchW)], elide := [(257, 0)],
    hbm := (recordW.mapIdx fun i b => (0x80C0 + i, b)).filter (·.2 != 0) }
theorem test_claim : (stateW.readRecord 0x2A launchW 6).2 =
      .claimed ⟨6, [2, 1, 0, 0], 0x0000010000001000, 0x80C0, 1, 1, none, false, false, none⟩ ∧
    ((stateW.readRecord 0x2A launchW 6).1.homeRead 0x80C0 32).2 = clean (setField recordW 0x14 4 0x2A) := by decide +kernel

-- R326, R340: SYS 5 in U mode with STVEC 0x1040 traps to it in S mode, SPC past the instruction.
theorem test_sys : after (.sys p 5) { alone [] with ctxs := [(1, { stvec := 0x1040 })] }
      (fun l => (l.mode, l.pc, l.spc, l.scause, l.stval, l.depth)) = some (.supervisor, 0x1040, 76, 0x08, 5, 1) := by decide +kernel

-- A word placed where the next step fetches: EXIT, and MOV with its immediate (7.3), as the first instruction after reset.
theorem test_step_exit : (match step (State.reset.withFetchWord 96 0x070070000000000000000000) with
    | .next t => (t.lane 0 0).life
    | .fault _ | .refused _ => .running) = .exited := by decide +kernel
theorem test_step_mov : (match step (State.reset.withFetchWord 96 0x200670700000001012345678) with
    | .next t => reg 7 (t.lane 0 0)
    | .fault _ | .refused _ => 0) = 0x12345678 := by decide +kernel

theorem witness_IntegerArithmeticResults : ∀ i ∈ [.mov p .i8 (x 10) (.imm 0x7F), .add p .n64 false (x 10) (x 2) (.reg (x 4)),
    .add p .i8 true (x 10) (x 2) (.imm 0xFFFFFF80), .sub p .i16 true (x 0) (x 2) (.reg (x 3)), .mul p .n32 true (k 10) (x 2) (.reg (x 3)),
    .mad p .i64 (x 10) (x 2) (.reg (x 4)) (x 6), .madWide p .i32 (x 10) (x 2) (.reg (x 3)) (x 4), .madWide p .n32 (x 10) (x 2) (.imm 7) (x 4),
    .mulhi p .n64 (x 10) (x 2) (.reg (x 4)), .div p .i32 (x 10) (x 2) (.imm 0), .rem p .i64 (x 10) (x 2) (.imm 0),
    .min p .i8 (x 10) (x 2) (.reg (x 3)), .max p .n16 (x 10) (x 2) (.reg (x 3)), .abs p .i16 true (x 10) (x 2)], Meets i :=
  meets_of (md := .user) (by decide +kernel)

theorem witness_BitwiseShiftAndCompareResults : ∀ i ∈ [.and p .n8 (x 10) (x 2) (.reg (x 3)), .or p .i64 (x 10) (x 2) (.reg (x 4)),
    .xor p .n32 (x 10) (x 2) (.imm 0xFFFFFFFF), .shfShl p .i32 (x 10) (x 2) (.imm 255), .shfShr p .i64 (x 10) (x 2) (.imm 64),
    .shfRotl p .n16 (x 10) (x 2) (.imm 16), .shfRotr p .n8 (x 10) (x 2) (.reg (x 3)), .cmp p .eq .i8 0 (x 2) (.imm 0),
    .cmp p .ne .n64 6 (x 2) (.reg (x 4)), .cmp p .lt .i16 1 (x 2) (.reg (x 3)), .cmp p .le .i32 1 (x 2) (.reg (x 3)),
    .cmp p .gt .n8 1 (x 2) (.reg (x 3)), .cmp p .ge .i64 1 (x 2) (.reg (x 4)), .sel p .i32 (x 10) (x 2) (.imm 1) 6], Meets i :=
  meets_of (md := .user) (by decide +kernel)

theorem witness_BitFieldAndAddressResults : ∀ i ∈ [.bitcPopc p .n32 (x 10) (x 2), .bitcClz p .n64 (x 10) (x 4),
    .bitcCtz p .n32 (x 10) (x 0), .bitcBrev p .n32 (x 10) (x 2), .bfe p .i32 (x 10) (x 2) (.imm 0x20FF),
    .bfi p .n32 (x 10) (x 2) (.imm 0x2000) (x 3), .lea p .i32 (x 10) (x 4) (.reg (x 2)) 4], Meets i :=
  meets_of (md := .user) (by decide +kernel)

theorem witness_RoundedFloatResults : ∀ i ∈ [.fadd p .rne .f32 (x 10) (x 2) (.reg (x 3)), .fsub p .rdn .bf16x2 (x 10) (x 2) (.reg (x 3)),
    .fmul p .rtz .f16 (x 10) (x 2) (.reg (x 3)), .ffma p .rup .f16x2 (x 10) (x 2) (.reg (x 3)) (x 4), .fdiv p .rne .f32 (x 10) (x 2) (.imm 0),
    .fsqrt p .rne .f32 (x 10) (x 2)], Meets i :=
  meets_of (md := .user) (by decide +kernel)

theorem witness_SpecialOperandsOfRoundedInstructions : (3 : Nat) ≠ 0 ∧ (2 : Nat) ≠ 0 ∧ 3 * 4 = 6 * 2 ∧ (4 : Nat) ≠ 0 := by decide

theorem witness_RoundTowardZeroIsTheGreatestCodeNotAbove : ∀ f ∈ [Num.fp32, Num.bf16, Num.fp16],
    (f = Num.fp32 ∨ f = Num.bf16 ∨ f = Num.fp16) ∧ (1 : Nat) ≠ 0 ∧ 2 ^ 200 ≠ 0 := by decide

theorem witness_UnroundedFloatResults : ∀ i ∈ [.fmin p .f32 (x 10) (x 2) (.reg (x 3)), .fmax p .bf16x2 (x 10) (x 2) (.reg (x 3)),
    .fcmp p .eq .f32 1 (x 2) (.imm 0x7FC00000), .fcmp p .ne .f16 1 (x 2) (.reg (x 3)), .fcmp p .lt .bf16 1 (x 2) (.reg (x 3)),
    .fcmp p .le .f32 1 (x 2) (.reg (x 3)), .fcmp p .gt .f32 1 (x 2) (.reg (x 3)), .fcmp p .ge .f32 1 (x 2) (.reg (x 3)),
    .fcmp p .un .f32 1 (x 2) (.reg (x 3)), .fcmp p .ord .f32 1 (x 2) (.reg (x 3)), .fsgnNeg p .f32 (x 10) (x 2),
    .fsgnAbs p .f16x2 (x 10) (x 2), .fsgnCopy p .bf16 (x 10) (x 2) (.reg (x 3)), .fsgnXor p .f16 (x 10) (x 2) (.reg (x 3)),
    .fclass p .f32 (x 10) (x 2), .frnd p .rtz .f32 (x 10) (x 2)], Meets i :=
  meets_of (md := .user) (by decide +kernel)

theorem witness_ReciprocalIsWithinOneUlp : (∃ n d, Num.decodeCode Num.fp32 0x00800000 = .fin false n d) ∧
    (∃ n d, Num.decodeCode Num.fp32 0x7E7FFFFF = .fin false n d) :=
  ⟨⟨_, _, rfl⟩, ⟨_, _, rfl⟩⟩

theorem witness_TranscendentalResults : (∀ i ∈ [.frcp p (x 10) (x 2), .frsq p (x 10) (x 2), .fexp2 p (x 10) (x 2),
      .flog2 p (x 10) (x 2), .fsin p (x 10) (x 2), .fcos p (x 10) (x 2)], Meets i) ∧
    Num.decodeCode Num.fp32 0x7F800001 = .nan true ∧ Num.decodeCode Num.fp32 0x7FC00000 = .nan false :=
  ⟨meets_of (md := .user) (by decide +kernel), by decide +kernel, by decide +kernel⟩

-- Every pair of kinds of types of R184.
theorem witness_ConversionResults : ∀ i ∈ [.cvt p .i8 .n64 .rne true (x 10) (x 4), .cvt p .n64 .f32 .rtz false (x 10) (x 2),
    .cvt p .f16 .i32 .rup true (x 10) (x 2), .cvt p .bf16 .f32 .rne true (x 10) (x 2), .cvtPacked p .bf16x2 .rne false (x 10) (x 2) (.reg (x 3))],
    Meets i :=
  meets_of (md := .user) (by decide +kernel)

theorem witness_PredicateLogicResults : ∀ i ∈ [.plogAnd p 1 2 3, .plogOr p 1 2 3, .plogXor p 1 2 3, .plogAndn p 1 2 3,
    .plogOrn p 1 2 3, .plogNot p 1 2, .plogSet p 0 true], Meets i :=
  meets_of (md := .user) (by decide +kernel)

theorem witness_SpecialRegisterAccess : (∀ i ∈ [.sets p 0x10 (x 2), .gets p false 10 0x00, .gets p true 10 0x06], Meets i) ∧
    (∀ i ∈ [.sets p 0x10 (x 2), .gets p false 10 0x00, .gets p true 10 0x06],
      Executes i (state0 .user) 0 (gang0 .user) 3 3 64) ∧ (state0 .user).blocks.find? (gang0 .user).block = some block0 :=
  ⟨meets_of (md := .user) (by decide +kernel), executes_of_allRun (by decide +kernel), rfl⟩

theorem witness_CrossLaneResults : ∀ i ∈ [.voteAny p 5 1 2, .voteAll p 0 1 2, .voteBallot p 1 10 2, .voteEq p 5 1 (x 2), .voteCnt p 5 10 2,
    .shflPick p 5 10 (x 2) (.imm 1) (x 0), .shflFwd p 1 10 (x 2) (.imm 1) (x 0), .shflBack p 5 10 (x 2) (.reg (x 3)) (x 0),
    .shflFlip p 5 10 (x 2) (.imm 31) (x 0), .shflRot p 0 10 (x 2) (.imm 1) (x 0), .redux p .add .i32 10 (x 2), .redux p .and .n32 10 (x 2),
    .redux p .min .i32 10 (x 2), .redux p .max .n32 10 (x 2), .redux p .add .f32 10 (x 2), .redux p .max .f32 10 (x 2),
    .bmaskSelf p 10, .bmaskPre p 5 10, .bmaskPost p 1 10, .bmaskSeg p 0 10, .bmaskGrp p 10, .bmaskSpan p 10 (.imm 0x41F)], Meets i :=
  meets_of (md := .user) (by decide +kernel)

theorem witness_SlotConversionResults : (∀ i ∈ [.cvtSlot p .f32 .i32 1 (x 10) (x 2), .cvtn p .f32 0 (x 10) 2 (x 0),
      .cvtw p .f32 4 10 (x 2) (x 0), .cvtw p .i32 3 10 (x 0) (x 0)], Meets i ∧ Executes i (state0 .user) 0 (gang0 .user) 3 3 64) ∧
    (let sl := fun n => (state0 .user).slot block0 n
     (sl 1).kind ≠ .empty ∧ (sl 1).trapInv = false ∧ (sl 0).perReg = 2 ∧ 2 + (sl 0).perReg ≤ 40 ∧ (sl 0).trapInv = false ∧
      (sl 4).widensTo .f32 = true ∧ (sl 4).perReg = 4 ∧ (sl 3).widensTo .i32 = true ∧ (sl 3).perReg = 5 ∧
      ((sl 3).unpack 0).2 = false ∧ (sl 4).trapInv = false ∧ (sl 3).trapInv = false) :=
  ⟨fun i h => ⟨meets_of (md := .user) (by decide +kernel) i h, executes_of_allRun (by decide +kernel) i h⟩, by decide +kernel⟩

-- All 32 lanes, guarded by p7; the sequencers.
theorem witness_NopAndIsyncGoOn : Executes (.nop ⟨false, 7⟩) { state0 .user with cur := some ⟨.thread, 0, 0, 0xFFFFFFFF, 64⟩ } 0
      (gang0 .user) 0xFFFFFFFF 0xFFFFFFFF 64 ∧
    (∀ m, SeqExecutes (.nop ⟨false, 7⟩) m (seqOn m (seqBlock m)) 0 (seqBlock m)) ∧ Meets (.isync p) ∧ (gang0 .user).inFlight = false :=
  ⟨executes_of_runs (by decide +kernel), fun m => seqExecutes_of (by cases m <;> decide +kernel),
    meets_of (md := .user) (is := [.isync p]) (by decide +kernel) _ (by decide), by decide +kernel⟩

/-- Memory that holds at 128 a line whose TARGET bit of slot 0 is set. -/
def lineState : State := { state0 .user with hbm := [(188, 1), (191, 0x80)], elide := [(1, 0)] }

/-- The gang with the pair x4 at 128. -/
def gangTo : Gang := { gang0 .user with lanes := [{ lane0 .user 0 with x := [(4, 128)] }, { lane0 .user 1 with x := [(4, 128)] }] }

theorem witness_TransferResults : (∀ i ∈ [.bra p 64, .call p 10 64], Executes i lineState 0 (gang0 .user) 3 3 64 ∧
      ∀ call, let r := lineState.checkTargets 0 (gang0 .user) call [(0, 128), (1, 128)]
        r.2.2 = none ∧ ∀ x ∈ r.2.1, x.2.2 = none) ∧
    (∀ i ∈ [.brx p (x 4), .callx p 10 (x 4), .ret p (x 4)],
      Executes i { lineState with gangs := [(0, gangTo)] } 0 gangTo 3 3 64 ∧ ∀ l ∈ lanesOf 3, ((gangTo.view l).pair (x 4)) = (128, false)) ∧
    ∃ s₁, lineState.fetchLine (lineState.asker 0 (gang0 .user) 1 .user) .thread none 128 =
      (s₁, .ok ⟨4, 0x80000001#512 <<< 480, false⟩) := by
  refine ⟨?_, ?_, snd_of (by decide +kernel)⟩
  · intro i h
    exact ⟨executes_all (by decide +kernel) i h, by decide +kernel⟩
  · intro i h
    exact ⟨executes_of_runs (List.all_eq_true.mp (by decide +kernel : List.all [.brx p (x 4), .callx p 10 (x 4), .ret p (x 4)]
      (fun i => runs i { lineState with gangs := [(0, gangTo)] } gangTo 3 3) = true) i h), by decide +kernel⟩

/-- The gang with an entry for the address 64, of lanes 0 to 2. -/
def gangMet : Gang := { gang0 .user with reconv := [(0, ⟨64, 7, 0⟩)] }

theorem witness_ReconvergenceResults : (∀ i ∈ [.reconvImm p 3, .reconvReg p (x 2)],
      Executes i (state0 .user) 0 (gang0 .user) 3 3 64 ∧ Executes i (on gangMet block0) 0 gangMet 3 3 64) ∧
    (gang0 .user).converging &&& 3 = 0 ∧ gangMet.converging &&& 3 = 0 ∧
    List.find? (fun x => x.2.addr == 64) gangMet.reconv = some (0, ⟨64, 7, 0⟩) ∧
    List.find? (fun x => x.2.addr == 64) (gang0 .user).reconv = none ∧
    (lanesOf 3).find? (fun l => (3 : Word).getLsbD l) = some 0 ∧
    (lanesOf 3).find? (fun l => (((gang0 .user).view l).reg (x 2)).1.getLsbD l) = some 0 ∧
    ∀ l ∈ lanesOf 3, (((gang0 .user).view l).reg (x 2)).2 = false := by
  refine ⟨fun i h => ⟨executes_of_allRun (by decide +kernel) i h, executes_all (by decide +kernel) i h⟩,
    ?_⟩
  decide +kernel

theorem witness_ForkResults : (∀ i ∈ [.fork p 10 true true 0, .fork p 10 true false 1, .fork p 10 false true 2],
      Executes i (state0 .user) 0 (gang0 .user) 3 3 64) ∧ (state0 .user).blocks.find? 0 = some block0 ∧
    (∀ m, (state0 .user).seqEntry block0 m = 128) ∧ block0.mseq.run = .idle ∧ block0.cseq.run = .idle :=
  ⟨executes_of_allRun (by decide +kernel), rfl, by decide +kernel, rfl, rfl⟩

/-- The block with a party set of its gang and the matrix sequencer, which is still to arrive, or has arrived at point 0. -/
def blockMeets (arrived : Bool) : Block :=
  { block0 with party := some { gangs := 1, matrix := true, copy := false, points := if arrived then [(0, [(16, 1)])] else [] } }

theorem witness_RendezvousResults : Executes (.rdv p 15) (state0 .user) 0 (gang0 .user) 3 3 64 ∧
    (∀ P, block0.party = some P → P.gangs.getLsbD (gang0 .user).number = false) ∧
    ∀ a, let s := on (gang0 .user) (blockMeets a)
      Executes (.rdv p 0) s 0 (gang0 .user) 3 3 64 ∧ s.blocks.find? 0 = some (blockMeets a) ∧ (blockMeets a).mseq.stop = none ∧
      (blockMeets a).cseq.stop = none ∧ (∃ P, (blockMeets a).party = some P ∧ P.gangs.getLsbD 0 = true) ∧
      s.covered (blockMeets a) = false ∧ (blockMeets a).core = coreOf 0 ∧ (blockMeets a).slots[0]? = some (0 % 16) ∧
      s.copiesDone (fun c => c.gang == some 0 && c.touchesLs) = true :=
  ⟨executes_of_runs (by decide +kernel), nofun, fun a => ⟨executes_of_runs (by cases a <;> decide +kernel), rfl, rfl, rfl,
    ⟨_, rfl, by cases a <;> decide⟩, by cases a <;> decide +kernel, rfl, rfl, rfl⟩⟩

theorem witness_ExitEndsLanes : Executes (.exit p) (state0 .user) 0 (gang0 .user) 3 3 64 ∧
    (state0 .user).blocks.find? 0 = some block0 ∧ block0.mseq.stop = none ∧ block0.cseq.stop = none ∧
    (state0 .user).drain 0 3 = (state0 .user, true) ∧ (∀ h ∈ (gang0 .user).heldFaults, (3 : Mask).getLsbD h.lane = false) ∧
    ∀ m, SeqExecutes (.exit p) m (seqOn m (seqBlock m)) 0 (seqBlock m) :=
  ⟨executes_of_runs (by decide +kernel), rfl, rfl, rfl, by decide +kernel, nofun,
    fun m => seqExecutes_of (by cases m <;> decide +kernel)⟩

/-- The core with four more gangs of another block that hold its whole pool but the small gang's share. -/
def fullCore : State :=
  { state0 .user with
    gangs := (0, gang0 .user) :: (List.range 4).map fun n => (n + 1, { gang0 .user with block := 1, number := n, alloc := 246 }),
    blocks := [(0, block0), (1, { block0 with slots := [1, 2, 3, 4], regs := 8 })] }

theorem witness_AllocationResults :
    let never := fun s n => 256 < (gang0 .user).alloc + n ∨ 32768 - s.reservedRegs 0 < 32 * n
    let free := fun s n => 32 * n ≤ s.freeRegs 0 ∧ (s.core 0).grow = []
    (∀ i ∈ [.grow p 1 216, .growTry p 1 216, .grow p 1 224, .growTry p 1 224, .shrink p 32], Executes i (state0 .user) 0 (gang0 .user) 3 3 64) ∧
    (∀ i ∈ [.grow p 1 8, .growTry p 1 8], Executes i fullCore 0 (gang0 .user) 3 3 64) ∧
    (¬never (state0 .user) 216 ∧ free (state0 .user) 216) ∧ never (state0 .user) 224 ∧
    (¬never fullCore 8 ∧ ¬free fullCore 8) ∧ 32 + 8 ≤ (gang0 .user).alloc ∧ ((state0 .user).core 0).grow = [] := by
  refine ⟨executes_of_allRun (by decide +kernel), fun i h => executes_all (by decide +kernel) i h, ?_⟩
  decide +kernel

theorem witness_LoadResults :
    (let s := state0 .user; let G := gang0 .user
     Executes (.ld p .v4 .n32 .sys .normal 10 (x 4) 0) s 0 G 3 3 64 ∧ Placed s (addrs s G (x 4) 16 16 .read).1 0 G 3 (x 4) 0 16 16 .read lsA lsP ∧
      Unheld (addrs s G (x 4) 16 16 .read).1 0 3 16 lsA lsP) ∧
    (let s := state0 .user; let G := gang0 .user
     Executes (.ld p .one .i8 .gang .stream 10 (x 6) 0) s 0 G 3 3 64 ∧ Placed s (addrs s G (x 6) 1 1 .read).1 0 G 3 (x 6) 0 1 1 .read memA (memP false) ∧
      Unheld (addrs s G (x 6) 1 1 .read).1 0 3 1 memA (memP false)) ∧
    (let s := state0 .user; let G := gang0 .user
     Executes (.ldk p .v2 .n64 .blk 10 4 0) s 0 G 3 3 64 ∧ Placed s (addrs s G (k 4) 16 16 .read).1 0 G 3 (k 4) 0 16 16 .read
        (fun _ => lsA 0) (fun _ => lsP 0) ∧ Unheld (addrs s G (k 4) 16 16 .read).1 0 3 16 (fun _ => lsA 0) (fun _ => lsP 0)) ∧
    (∃ s₂, (addrs (state0 .user) (gang0 .user) (x 6) 1 1 .read).1.loadLanes 0 1 .gang .stream [] [(0, memA 0, memP false 0), (1, memA 1, memP false 1)] =
      (s₂, [0, 1].map fun l => (l, .ok [(0, false)]))) ∧
    ∃ s₂, (addrs (state0 .user) (gang0 .user) (x 4) 16 16 .read).1.loadLanes 0 16 .sys .normal [] [(0, lsA 0, lsP 0), (1, lsA 1, lsP 1)] =
      (s₂, [0, 1].map fun l => (l, .ok (List.replicate 16 (0, false)))) :=
  ⟨reaches_of (by decide +kernel), reaches_of (by decide +kernel), reaches_of (by decide +kernel), snd_of (by decide +kernel),
    snd_of (by decide +kernel)⟩

theorem witness_StoreResults :
    (let s := state0 .user; let G := gang0 .user
     Executes (.st p .v2 .n64 .gang .normal (x 4) (x 4) 0) s 0 G 3 3 64 ∧ Placed s (addrs s G (x 4) 16 16 .write).1 0 G 3 (x 4) 0 16 16 .write lsA lsP ∧
      Unheld (addrs s G (x 4) 16 16 .write).1 0 3 16 lsA lsP) ∧
    (let s := state0 .user; let G := gang0 .user
     Executes (.st p .one .n16 .die .nc (x 6) (x 2) 0) s 0 G 3 3 64 ∧ Placed s (addrs s G (x 6) 2 2 .write).1 0 G 3 (x 6) 0 2 2 .write memA (memP false) ∧
      Unheld (addrs s G (x 6) 2 2 .write).1 0 3 2 memA (memP false)) ∧
    (let s := msState; let G := gang0 .user
     Executes (.st p .one .n32 .sys .normal (x 6) (x 2) 0) s 0 G 3 3 64 ∧ Placed s (addrs s G (x 6) 4 4 .write).1 0 G 3 (x 6) 0 4 4 .write memA (memP true) ∧
      Unheld (addrs s G (x 6) 4 4 .write).1 0 3 4 memA (memP true)) :=
  ⟨reaches_of (by decide +kernel), reaches_of (by decide +kernel), reaches_of (by decide +kernel)⟩

-- A misaligned load and store of the window.
theorem witness_AddressFaults : (∀ i ∈ [.ld p .one .n32 .gang .normal 10 (x 4) 1, .st p .one .n32 .gang .normal (x 4) (x 2) 1],
      Executes i (state0 .user) 0 (gang0 .user) 3 3 64) ∧ (state0 .user).blocks.find? 0 = some block0 ∧
    (∀ acc ∈ [Access.read, .write], ∃ s₁, (state0 .user).laneAddrs 0 (gang0 .user) block0 (fun l => ((gang0 .user).view l).pair (x 4)) 1 4 4 acc
      (lanesOf 3) = (s₁, (lanesOf 3).map fun l => (l, .bad ⟨0x04, lsA l + 1, false, false⟩), none)) ∧
    ∀ l ∈ lanesOf 3, (0x04 : BitVec 8) ≠ 0x05 ∧ ((gang0 .user).lane l).mode ≠ .hypervisor :=
  ⟨executes_of_allRun (by decide +kernel), rfl, fun acc h => by
    simp only [List.mem_cons, List.not_mem_nil, or_false] at h
    obtain rfl | rfl := h <;> exact snd_of (by decide +kernel), by decide +kernel⟩

/-- A device whose core 0 caches sector 8, clean or with a dirty byte, at a tag, and whose die 0 caches a sector of die 1. -/
def cached (dirty : BitVec 32) (tag : Scope) : State :=
  { State.reset with
    cores := [(0, { l1 := [(l1Key 8 false, ⟨0, dirty, false, tag⟩)] })], rdc := [(rdcKey 0 (2 ^ 31), ⟨0, dirty, false⟩)] }

theorem witness_CacheOperationResults :
    (∀ i ∈ [.cflush p .pkg (x 6) 0, .cflushInv p .die (x 6) 0, .cinv p .sys (x 6) 0, .pref p .gang (x 6) 0],
      let s := state0 .user; let G := gang0 .user
      Executes i s 0 G 3 3 64 ∧ Placed s (addrs s G (x 6) 1 1 .readOrWrite).1 0 G 3 (x 6) 0 1 1 .readOrWrite memA (memP false) ∧
        Unheld (addrs s G (x 6) 1 1 .readOrWrite).1 0 3 1 memA (memP false)) ∧
    (addrs (state0 .user) (gang0 .user) (x 6) 1 1 .readOrWrite).2.2 = none ∧
    (let l1 := fun (t : State) => SMap.find? (t.core 0).l1 (l1Key 8 false)
     (l1 (cached 1 .blk)).isSome = true ∧ (l1 ((cached 1 .blk).flushLine 0 .die false 2)).isSome = true ∧
     ((l1 (cached 1 .blk)).any fun e => e.dirty != 0) = true ∧ (l1 ((cached 1 .blk).invalidateLine 0 .die 2)).isSome = true ∧
     (SMap.find? ((cached 1 .blk).flushLine 0 .pkg false (2 ^ 29)).rdc (rdcKey 0 (2 ^ 31))).isSome = true) :=
  ⟨reaches_all (by decide +kernel), by decide +kernel, by decide +kernel⟩

theorem witness_CoreReadsItsOwnStores :
    SMap.sorted ([(4095, (1, false)), (4096, (2, true))] : SMap PByte) = true ∧ SMap.sorted ([] : SMap PByte) = true := by
  decide +kernel

theorem witness_ReleaseAndAcquireActions :
    (∀ tag ∈ [Scope.gang, .blk], (SMap.find? (((cached 1 tag).releaseAt 0 .die).core 0).l1 (l1Key 8 false)).any (·.tag == tag) = true) ∧
    (SMap.find? ((cached 1 .gang).releaseAt 0 .sys).rdc (rdcKey 0 (2 ^ 31))).isSome = true ∧ rdcKey 0 (2 ^ 31) / 2 ^ 40 = 0 / 512 := by
  decide +kernel

theorem witness_FenceResults : (∀ i ∈ [.fence p .gang, .fence p .sys, .fencex p .die 9, .fencex p .pkg 16],
      Executes i (state0 .user) 0 (gang0 .user) 3 3 64) ∧ (state0 .user).drain 0 3 = (state0 .user, true) ∧
    (∀ n ∈ [9, 16, 31], (state0 .user).pathsDone 0 3 n = true) ∧ (∀ h ∈ (gang0 .user).heldFaults, (3 : Mask).getLsbD h.lane = false) ∧
    ∀ m, ∀ i ∈ [.fence p .sys, .fencex p .die 2], SeqExecutes i m (seqOn m (seqBlock m)) 0 (seqBlock m) ∧
      (seqOn m (seqBlock m)).copiesDone (·.ofSeq 0 m) = true := by
  refine ⟨executes_of_allRun (by decide +kernel), by decide +kernel, by decide +kernel, nofun, fun m i h => ⟨?_, ?_⟩⟩
  · exact seqExecutes_all (by cases m <;> decide +kernel) i h
  · cases m <;> decide +kernel

theorem witness_BarrierResults : ∀ e ∈ ([(.barGang p, .gang 0, true), (.barBlk p 0, .blk 0 0, true), (.barBlkArv p 15, .blk 0 15, false),
      (.barEns p 0, .ens 5 0, true), (.barEnsArv p 15, .ens 5 15, false), (.barCoop p 15, .coop 1 15, true)] : List (Instr × BarRef × Bool)),
    let s := ensState; let B := ensBlock
    Executes e.1 s 0 (gang0 .user) 3 3 64 ∧ s.blocks.find? 0 = some B ∧ B.bars = 16 ∧ B.ebars = 16 ∧ B.cbars = 16 ∧ B.ens = some 5 ∧
      (s.ensembles.find? 5).isSome = true ∧ (s.launches.find? 1).isSome = true ∧ B.mseq.stop = none ∧ B.cseq.stop = none ∧
      s.covered B = false ∧ s.drain 0 3 = (s, true) ∧ 0 ∈ s.members e.2.1 ∧ (s.barrier e.2.1).arrived.get 0 0 &&& 3 = 0 := by
  intro e h
  refine ⟨executes_of_runs ?_, ?_⟩
  · exact List.all_eq_true.mp (by decide +kernel : List.all [(.barGang p, .gang 0, true), (.barBlk p 0, .blk 0 0, true),
      (.barBlkArv p 15, .blk 0 15, false), (.barEns p 0, .ens 5 0, true), (.barEnsArv p 15, .ens 5 15, false),
      (.barCoop p 15, .coop 1 15, true)] (fun (e : Instr × BarRef × Bool) => runs e.1 ensState (gang0 .user) 3 3) = true) e h
  · have : ∀ r ∈ [BarRef.gang 0, .blk 0 0, .blk 0 15, .ens 5 0, .ens 5 15, .coop 1 15], 
        ensState.blocks.find? 0 = some ensBlock ∧ ensBlock.bars = 16 ∧ ensBlock.ebars = 16 ∧ ensBlock.cbars = 16 ∧ ensBlock.ens = some 5 ∧
        (ensState.ensembles.find? 5).isSome = true ∧ (ensState.launches.find? 1).isSome = true ∧ ensBlock.mseq.stop = none ∧
        ensBlock.cseq.stop = none ∧ ensState.covered ensBlock = false ∧ ensState.drain 0 3 = (ensState, true) ∧ 0 ∈ ensState.members r ∧
        (ensState.barrier r).arrived.get 0 0 &&& 3 = 0 := by decide +kernel
    apply this
    fin_cases h <;> simp

theorem witness_AtomicResults :
    (∀ i ∈ [.atom p .max .i64 .acqrel false false .pkg (x 10) (x 4) (x 4) 0, .atomCas p .n64 .relaxed true true .pkg (x 10) (x 4) (x 4) (x 6) 0,
        .red p .add .n64 true false false .blk (x 4) (x 4) 0],
      let s := state0 .user; let G := gang0 .user
      Executes i s 0 G 3 3 64 ∧ Placed s (addrs s G (x 4) 8 8 .readWrite).1 0 G 3 (x 4) 0 8 8 .readWrite lsA lsP ∧
        Unheld (addrs s G (x 4) 8 8 .readWrite).1 0 3 8 lsA lsP) ∧
    (let s₁ := (addrs (state0 .user) (gang0 .user) (x 4) 8 8 .readWrite).1; s₁.drain 0 3 = (s₁, true)) :=
  ⟨reaches_all (by decide +kernel), by decide +kernel⟩

-- A word of the window, of a memory-side page, and of memory.
theorem witness_AtomicUpdatesItsWord : let s := state0 .user
    (s.blocks.find? 0).isSome = true ∧ (s.lsRead 0 64 4).any (·.2) = false ∧ 4096 % 4 = 0 ∧
    (∀ ms, ((s.atomAt 0 ⟨.n32, .pkg, false, ms, false, false, true⟩ (.mem 4096 ms) id).2.any (·.2)) = false) := by
  decide +kernel

-- Words of zero, awaited with conditions that they meet and do not meet.
theorem witness_WordWaitResults :
    let s := state0 .user; let G := gang0 .user
    (∀ i ∈ [.waita p .eq .n32 .pkg 10 (x 4) (x 0) (x 0) 0, .waita p .ne .i32 .sys 10 (x 4) (x 0) (x 2) 0],
      Executes i s 0 G 3 3 64 ∧ Placed s (addrs s G (x 4) 4 4 .read).1 0 G 3 (x 4) 0 4 4 .read lsA lsP ∧
        Unheld (addrs s G (x 4) 4 4 .read).1 0 3 4 lsA lsP) ∧
    (∀ i ∈ [.await p .blk 10 (x 4) (x 11) 0, .await p .pkg 10 (x 4) (x 0) 0],
      Executes i s 0 G 3 3 64 ∧ Placed s (addrs s G (x 4) 8 8 .read).1 0 G 3 (x 4) 0 8 8 .read lsA lsP ∧
        Unheld (addrs s G (x 4) 8 8 .read).1 0 3 8 lsA lsP) ∧
    s.blocks.find? G.block = some block0 ∧ block0.mseq.stop = none ∧ block0.cseq.stop = none ∧ s.covered block0 = false ∧
    s.monitors.sorted = true ∧ (∀ l ∈ lanesOf 3, s.unwatched 0 l) ∧ (∀ l ∈ lanesOf 3, ∀ pa, lsP l ≠ .mem pa false) ∧
    (let s₂ := (lanesOf 3).foldl (fun s l => s.bringHome 0 (wordAt (lsP l)).1) (addrs s G (x 4) 4 4 .read).1
     ∀ l ∈ lanesOf 3, s₂.watched (wordAt (lsP l)).1 = (0, false)) ∧
    (∀ l ∈ lanesOf 3, let n := ((0 : BitVec 16) - ((G.view l).reg (x 11)).1.setWidth 16 : BitVec 16).toNat; 1 ≤ n ∧ n ≤ 0x7FFF) ∧
    ∀ l ∈ lanesOf 3, let n := ((0 : BitVec 16) - ((G.view l).reg (x 0)).1.setWidth 16 : BitVec 16).toNat; ¬(1 ≤ n ∧ n ≤ 0x7FFF) :=
  ⟨reaches_all (by decide +kernel), reaches_all (by decide +kernel), rfl, rfl, rfl, by decide +kernel, rfl, nofun, nofun,
    by decide +kernel, by decide +kernel, by decide +kernel⟩

theorem witness_ArrivalResults :
    let s := state0 .user; let G := gang0 .user
    (∀ i ∈ [.arrive p .blk (x 4) (x 2) 0, .arriveAnn p .sys (x 4) (x 2) (x 3) 0],
      Executes i s 0 G 3 3 64 ∧ Placed s (addrs s G (x 4) 8 8 .readWrite).1 0 G 3 (x 4) 0 8 8 .readWrite lsA lsP ∧
        Unheld (addrs s G (x 4) 8 8 .readWrite).1 0 3 8 lsA lsP) ∧
    (let s₁ := (addrs s G (x 4) 8 8 .readWrite).1; s₁.drain 0 3 = (s₁, true)) ∧ (∀ l ∈ lanesOf 3, ∀ pa, lsP l ≠ .mem pa false) ∧
    (∀ m, ∀ i ∈ [.arrive p .blk (x 12) (x 2) 0xFFFFFFF8, .arriveAnn p .blk (x 12) (x 2) (x 3) 3064],
      SeqExecutes i m (seqOn m (seqBlock m)) 0 (seqBlock m)) ∧
    (∀ m : Bool, let r := (((seqBlock m).seq m).view.reg (x 12)).1
      (r + 0xFFFFFFF8).toNat = 1016 ∧ (r + 3064).toNat = 4088 ∧ (seqBlock m).lsb = 4088 + 8 ∧
      (seqOn m (seqBlock m)).held 0 0 (.ls 0 1016) 8 = false ∧ (seqOn m (seqBlock m)).held 0 0 (.ls 0 4088) 8 = false ∧
      (seqOn m (seqBlock m)).copiesDone (·.ofSeq 0 m) = true) ∧
    (s.blocks.find? 0).isSome = true :=
  ⟨reaches_all (by decide +kernel), by decide +kernel, nofun, fun m => seqExecutes_all (by cases m <;> decide +kernel),
    fun m => by cases m <;> decide +kernel, by decide +kernel⟩

/-- The gang of `ensState` with a bulk copy to byte 64 of the window of each member. -/
def ensGang : Gang := { gang0 .user with k := [(8, 64), (9, 0x40000000), (10, 4096), (12, 16)] }

theorem witness_CopyIssueResults :
    let s := state0 .user; let G := gang0 .user
    (∀ i ∈ [.cpy p (x 4) (x 6) (x 10) 0x800003F8, .bulk p 8 (.imm 0)], Executes i s 0 G 3 3 64) ∧
    s.blocks.find? G.block = some block0 ∧ s.counterOf 0 block0 0x800003F8 = .ok [⟨0, 0x3F8⟩] ∧
    (∀ l ∈ lanesOf 3, s.copyCheck 0 block0 ((G.view l).pair (x 4)).1 ((G.view l).pair (x 6)).1
      { rowLen := ((G.view l).reg (x 10)).1.toNat } (2 ^ 24) = none) ∧
    (lanesOf 3).length ≤ 32 - (s.copies.filter (·.2.core == 0)).length ∧
    (let y : Bulk := ⟨0x6000000000000040, 4096, 16, 0, 0, 0⟩
     bulkFields (G.view 0) 8 (.imm 0) = .ok y ∧ (∃ c, s.bulkCopy 0 block0 y 64 .user = .ok c) ∧
      ∃ s₁, s.bulkRctr (s.asker 0 G 3 .user) y.rctr = (s₁, .ok (.ok none))) ∧
    (let y : Bulk := ⟨0x4000000000000040, 4096, 16, 0, 0, 1⟩
     bulkFields (ensGang.view 0) 8 (.imm 1) = .ok y ∧ (∃ c, ensState.bulkCopy 0 ensBlock y 64 .user = .ok c) ∧
      (∃ s₁, ensState.bulkRctr (ensState.asker 0 ensGang 3 .user) y.rctr = (s₁, .ok (.ok none))) ∧
      (ensBlock.ens.bind ensState.ensembles.find?).isSome = true) ∧
    Executes (.bulk p 8 (.imm 1)) { ensState with gangs := [(0, ensGang)] } 0 ensGang 3 3 64 :=
  ⟨executes_all (by decide +kernel), rfl, by decide +kernel, by decide +kernel, by decide +kernel,
    ⟨eq_ok (by decide +kernel), ok_of (by decide +kernel), snd_of (by decide +kernel)⟩,
    ⟨eq_ok (by decide +kernel), ok_of (by decide +kernel), snd_of (by decide +kernel), by decide +kernel⟩, executes_of_runs (by decide +kernel)⟩

/-- The gang with a number of open copies and of sealed batches, and one in which a finished batch had a fault for lane 1. -/
def batches (n sealed : Nat) : Gang := { gang0 .user with batch := sealed, openCopies := n, sealed := List.range sealed }
def faulted : Gang := { batches 0 0 with batch := 1, copyFaults := [{ lane := 1, batch := 0, no := 0, token := 5 }] }

theorem witness_BatchResults :
    (∀ G ∈ [batches 0 0, batches 1 15, batches 1 16], Executes (.cpseal p) (on G block0) 0 G 3 3 64) ∧
    (∀ w ∈ (batches 1 15).waits, ∀ n, w.kind ≠ .cpwait n) ∧
    (∀ e ∈ ([(batches 0 3, 2), (batches 0 3, 3), (faulted, 0)] : List (Gang × BitVec 4)),
      Executes (.cpwait p e.2) (on e.1 block0) 0 e.1 3 3 64) ∧
    (2 < (batches 0 3).sealed.length ∧ (batches 0 3).sealed.length ≤ 3 ∧ (batches 0 3).oldestFault = none) ∧
    faulted.oldestFault = some { lane := 1, batch := 0, no := 0, token := 5 } ∧ 1 ∈ lanesOf 3 ∧
    (faulted.lane 1).mode ≠ .hypervisor ∧
    (∀ G ∈ [batches 0 0, batches 0 3, faulted], (on G block0).blocks.find? 0 = some block0 ∧ (on G block0).covered block0 = false) ∧
    (∀ B ∈ [block0, { block0 with claimsCopy := false }], ∀ i ∈ [.stage p 255, .outst p 10],
      Executes i (on (gang0 .user) B) 0 (gang0 .user) 3 3 64) ∧ block0.credits + 255 ≤ 65535 := by
  refine ⟨?_, nofun, ?_, ?_, ?_, ?_, ?_, ?_, ?_, by decide +kernel⟩
  · intro G h; fin_cases h <;> exact executes_of_runs (by decide +kernel)
  · intro e h; fin_cases h <;> exact executes_of_runs (by decide +kernel)
  · decide +kernel
  · decide +kernel
  · decide
  · decide +kernel
  · decide +kernel
  · intro B h; fin_cases h <;> exact executes_all (by decide +kernel)

theorem witness_CopySequencerResults :
    let s := seqOn false (seqBlock false); let B := seqBlock false; let v := B.cseq.view
    (∀ i ∈ [.xfer p 4 6 8 0x800003F8, .xfer2d p 4 6 10 0, .xslide p 12 6 14 0, .xgate p 1, .xbump p 4 (.imm (-16)), .xbumpRing p 8 10 (.imm (-17))],
      SeqExecutes i false s 0 B) ∧ SeqExecutes (.xgate p 255) false (seqOn false { B with credits := 255 }) 0 { B with credits := 255 } ∧
    Clean v ∧ s.counterOf 0 B 0x800003F8 = .ok [⟨0, 0x3F8⟩] ∧ s.counterOf 0 B 0 = .ok [] ∧
    s.copyCheck 0 B (v.pair (x 4)).1 (v.pair (x 6)).1 { rowLen := (v.reg (x 8)).1.toNat } (2 ^ 24) = none ∧
    s.copyCheck 0 B (v.pair (x 4)).1 (v.pair (x 6)).1 { rowLen := 16, rows := 2, dPitch := 16, sPitch := 16 } (2 ^ 24 - 16) = none ∧
    s.copyCheck 0 B (0x6000000000000000 + (v.reg (x 12)).1.setWidth 64) (v.pair (x 6)).1
      { rowLen := 64, rows := 2, dPitch := 64, sPitch := 64 } 64 = none ∧
    (let f := fun lo w => (v.pair (x 14)).1.toNat / 2 ^ lo % 2 ^ w
     1 ≤ f 0 16 ∧ f 0 16 ≤ 1024 ∧ f 56 8 = 0 ∧ (v.reg (x 12)).1.toNat % 64 = 0 ∧ f 32 16 % 16 = 0) ∧
    (s.copies.filter (·.2.core == B.core)).length < 32 ∧ B.credits < 1 ∧ 255 ≤ ({ B with credits := 255 } : Block).credits :=
  ⟨seqExecutes_all (by decide +kernel), seqExecutes_of (by decide +kernel), clean_of _ rfl rfl rfl, by decide +kernel, by decide +kernel, by decide +kernel,
    by decide +kernel, by decide +kernel, by decide +kernel, by decide +kernel, by decide +kernel, by decide +kernel⟩

-- Conversations: the number of the device is a constant of Config without a value

/-- The handle, of generation 1, of home 0 of the device that is `n` numbers on from this one. -/
def handle (n : Nat) : Nat := (Config.deviceNumber.toNat + n) % 2 ^ 18 * 2 ^ 39 + 65536

theorem handle_device (n : Nat) : hDevice (handle n) = (Config.deviceNumber.toNat + n) % 262144 := by
  have h : ∀ d, d < 262144 → (d * 549755813888 + 65536) / 549755813888 % 262144 = d := by omega
  exact h _ (Nat.mod_lt _ (by decide))

theorem handle_own : hOwn (handle 0) = true ∧ hOwn (handle 1) = false := by
  have h : ∀ d : Nat, d < 262144 → (d + 0) % 262144 = d ∧ (d + 1) % 262144 ≠ d := by omega
  have a := h _ Config.deviceNumber.isLt
  simp only [hOwn, handle_device, beq_iff_eq, beq_eq_false_iff_ne]
  exact a

theorem handle_key (n : Nat) : homeKey (handle n) = 0 ∧ handle n / 65536 % 65536 = 1 ∧ handle n < 2 ^ 57 := by
  have h : ∀ d, d < 262144 → (d * 549755813888 + 65536) / 4294967296 % 128 * 65536 + (d * 549755813888 + 65536) / 1 % 65536 = 0 ∧
      (d * 549755813888 + 65536) / 65536 % 65536 = 1 ∧ d * 549755813888 + 65536 < 144115188075855872 := by omega
  exact h _ (Nat.mod_lt _ (by decide))

theorem handle_gen (n : Nat) : hGen (handle n) = 1 := by
  have h : ∀ d, (d * 549755813888 + 65536) / 65536 % 65536 = 1 := by omega
  exact h _

theorem roleOf_roleWord (h r : Nat) (a : h < 2 ^ 57) (b : r < 16) : roleOf (roleWord h r) = some (h, r) := by
  have e : (roleWord h r).toNat = 2 ^ 63 + r * 2 ^ 57 + h := by simp only [roleWord, BitVec.toNat_ofNat]; omega
  have m : (roleWord h r).getLsbD 63 = true := by
    rw [BitVec.getLsbD, e, Nat.testBit_eq_decide_div_mod_eq, decide_eq_true_eq]; omega
  simp only [roleOf, m, if_true, bits, e, Option.some.injEq, Prod.mk.injEq]
  omega

/-- The small gang with role 0 of a handle's conversation in h0, the handle in the pair x4 and role word 1 in x6. -/
def convGang (n : Nat) : Gang :=
  let w : DWord := BitVec.ofNat 64 (handle n)
  { gang0 .user with
    h := [(0, roleWord (handle n) 0)],
    lanes := (List.range 32).map fun _ => { pc := 64, x := [(4, w.setWidth 32), (5, w.extractLsb' 32 32), (6, 1), (7, 9)] } }

/-- Home 0, opened, with role 0 bound to gang 0 and role 1 free. -/
def home0 : Home := { gen := 1, status := .opened, roles := [{ holder := some ⟨none, 0⟩ }, {}] }

/-- The small state with that gang and home, and the entries `es` received for role 0. -/
def convState (n : Nat) (H : Home) (es : List Entry) : State :=
  { on (convGang n) block0 with homes := [(0, H)], recv := if es = [] then [] else [(convKey (handle n) 0, es)] }

theorem convGang_role (n : Nat) : (convGang n).role 0 = some (handle n, 0) ∧ (convGang n).role 1 = none :=
  ⟨roleOf_roleWord _ _ (handle_key n).2.2 (by decide), by
    show roleOf 0 = none; decide⟩

theorem convGang_clean (n : Nat) : ∀ l ∈ lanesOf 3, Clean ((convGang n).view l) := by
  intro l h
  simp only [lanesOf] at h
  apply clean_of
  · show ((convGang n).lane l).xp = []
    fin_cases h <;> rfl
  · rfl
  · show ((convGang n).lane l).pp = 0
    fin_cases h <;> rfl

theorem convGang_pair (n : Nat) : ((convGang n).view 0).pair (x 4) = (BitVec.ofNat 64 (handle n), false) := by
  have e : ∀ w : DWord, w.extractLsb' 32 32 ++ w.setWidth 32 = w := by
    intro w; ext i hi
    simp only [BitVec.getElem_append, BitVec.getElem_setWidth, BitVec.getElem_extractLsb']
    split
    · simp [hi]
    · rename_i q
      rw [← BitVec.getLsbD_eq_getElem]
      congr 1
      omega
  exact Prod.ext (e _) rfl

theorem conv_home (n : Nat) (H : Home) (es : List Entry) : (convState n H es).home (handle n) = H := by
  unfold State.home; rw [(handle_key n).1]; rfl

theorem conv_executes (n : Nat) (H : Home) (es : List Entry) {i : Instr} (h : ready i (convGang n) 3 3 = true) :
    Executes i (convState n H es) 0 (convGang n) 3 3 64 := executes_of_ready rfl rfl h

theorem convGang_word (n : Nat) : ((convGang n).view 0).reg (x 6) = (1, false) := by
  let w : DWord := BitVec.ofNat 64 (handle n)
  show (SMap.get 0 [(4, w.setWidth 32), (5, w.extractLsb' 32 32), (6, 1), (7, 9)] 6, SMap.get false [] 6) = (1, false)
  rfl

theorem drain_empty (s : State) (k : Nat) (m : Mask) (h : s.combine = []) (r : s.requests = []) : s.drain k m = (s, true) := by
  have c : s.closeGang k = s := by simp [State.closeGang, State.closeWhere, State.entryOf, h, SMap.get]
  simp [State.drain, c, State.outstanding, h, r, SMap.get]

-- A home of this device (n = 0), and of another (n = 1).
theorem witness_RoleResults : ∀ n < 2,
    let s := convState n home0 []; let G := convGang n; let hd := handle n
    (∀ i ∈ [.cbind p 10 1 (x 4) (x 6), .cdeleg p 0 (x 6), .cclose p 0, .cstateHome p 10 0, .cstateRole p 10 0], Executes i s 0 G 3 3 64) ∧
    (∀ l ∈ lanesOf 3, Clean (G.view l)) ∧ ((G.view 0).pair (x 4)).1.toNat = hd ∧ hOwn hd = (n == 0) ∧
    (let r := ((G.view 0).reg (x 6)).1
     r.toNat / 16 % 4096 = 0 ∧ hd / 2 ^ 57 = 0 ∧ r.toNat % 16 = 1 ∧ (s.home hd).status = .opened ∧ (s.home hd).gen = hd / 65536 % 65536 ∧
      r.extractLsb' 16 16 = 0) ∧
    G.role 1 = none ∧ G.role 0 = some (hd, 0) ∧ ((s.home hd).role 0).holder = some ⟨none, 0⟩ ∧ s.awaiting 0 hd 0 = false ∧
    s.canSend (hDevice hd) 1 = true ∧ s.awaitsRole 0 1 = false ∧ s.joinedTo (coreOf 0) hd = true := by
  intro n hn
  have hk := handle_key n
  have hh : hOwn (handle n) = (n == 0) := by
    have := handle_own
    obtain rfl | rfl : n = 0 ∨ n = 1 := by omega
    · exact this.1
    · exact this.2
  simp only [conv_home]
  refine ⟨?_, convGang_clean n, ?_, hh, ⟨by rw [convGang_word]; rfl, Nat.div_eq_of_lt hk.2.2, by rw [convGang_word]; rfl, rfl, hk.2.1.symm, by rw [convGang_word]; rfl⟩, (convGang_role n).2, (convGang_role n).1, rfl,
    ?_, rfl, rfl, rfl⟩
  · intro i h
    apply conv_executes
    fin_cases h <;> rfl
  · rw [convGang_pair, BitVec.toNat_ofNat]
    exact Nat.mod_eq_of_lt (Nat.lt_trans hk.2.2 (by decide))
  · unfold State.awaiting
    split
    · rw [conv_home]; rfl
    · rfl

/-- A message of role 1 that waits for role 0's gang. -/
def entry0 : Entry := { seq := 1, notice := false, sender := 1, kind := 3, mask := 1, words := [(0, 7)] }

theorem witness_MessageResults : ∀ es ∈ [[], [entry0]], ∀ H ∈ [home0, { home0 with status := .closed }],
    let s := convState 0 H es; let G := convGang 0; let hd := handle 0
    (∀ i ∈ [.csend p .sys 0 (x 6) 3, .crecv p .blk 10 0, .ctry p .pkg 10 0], Executes i s 0 G 3 3 64) ∧
    G.role 0 = some (hd, 0) ∧ hOwn hd = true ∧ s.blocks.find? G.block = some block0 ∧ block0.mseq.stop = none ∧
    block0.cseq.stop = none ∧ s.covered block0 = false ∧ (∀ l ∈ lanesOf 3, Clean (G.view l)) ∧ s.drain 0 3 = (s, true) ∧
    s.joinedTo (coreOf 0) hd = true ∧ s.regionDone 0 hd 0 = true ∧ (s.home hd).keeps hd = true ∧ 0 < (s.home hd).roles.length ∧
    s.recv.get [] (convKey hd 0) = es ∧ (es = [] → s.convOver (coreOf 0) hd 0 = (H.status == .closed)) ∧
    ∀ l ∈ lanesOf 3, (G.lane l).mode ≠ .hypervisor := by
  intro es he H hH
  have hr : (convState 0 H es).recv.get [] (convKey (handle 0) 0) = es := by
    fin_cases he
    · rfl
    · simp [convState, SMap.get, SMap.find?]
  refine ⟨?_, (convGang_role 0).1, handle_own.1, rfl, rfl, rfl, rfl, convGang_clean 0, drain_empty _ _ _ rfl rfl, rfl, ?_, ?_, ?_, hr, ?_, ?_⟩
  · intro i h
    apply conv_executes
    fin_cases h <;> decide +kernel
  · have e : (convState 0 H es).copies = [] := rfl
    simp [State.regionDone, State.copiesDone, e]
  · rw [conv_home]
    have := handle_gen 0
    fin_cases hH <;> simp [Home.keeps, this, home0]
  · rw [conv_home]
    fin_cases hH <;> decide
  · rintro rfl
    have := handle_gen 0
    have b : (convState 0 H []).back = [] := rfl
    have j : (convState 0 H []).joinedTo (coreOf 0) (handle 0) = true := rfl
    simp only [State.convOver, j, hr, conv_home, handle_own.1, Home.keeps, this, b]
    fin_cases hH <;> simp [home0, Home.role, SMap.get, SMap.find?]
  · intro l h
    simp only [lanesOf] at h
    fin_cases h <;> nofun

/-- A table of two roles and two states: role 0 sends kind 3 in state 0, which leads to state 1. -/
def table0 : List Byte :=
  [0x52, 0x50, 0x4C, 0x4F, 1, 0, 2, 0, 2, 0, 1, 0, 52, 0, 0, 0, 0, 0, 0, 0, 0, 0, 0, 0, 0, 0, 0, 0, 0, 0, 0, 0,
    0, 0, 1, 0, 0, 0, 0, 0, 1, 0, 0, 0, 0, 0, 0, 0, 3, 1, 0, 0]

/-- That table at 8192 of a memory-side page 0, and an open record of zeros at 4096. -/
def tableState : State :=
  { State.reset with
    dieCtx := [(0, 1)], ctxs := [(1, {})], stlb := [(0, [{ page0 with ms := true }])], elide := [(64, 0)],
    hbm := (table0.mapIdx fun i b => (8192 + i, b)).filter (·.2 != 0) }

theorem handle_toNat (n : Nat) : (BitVec.ofNat 64 (handle n)).toNat = handle n := by
  rw [BitVec.toNat_ofNat]; exact Nat.mod_eq_of_lt (Nat.lt_trans (handle_key n).2.2 (by decide))

theorem bits_top {H : Nat} (h : H < 2 ^ 57) : bits H 63 57 = 0 := by
  unfold bits; rw [Nat.div_eq_of_lt h, Nat.zero_mod]

theorem node_zero {H : Nat} (h : homeKey H = 0) : hNode H = 0 := by
  unfold homeKey at h; omega

theorem newHandle_lt {H : Nat} (g : Nat) (h : H < 2 ^ 57) :
    H / 2 ^ 32 * 2 ^ 32 + g % 65536 * 65536 + hIndex H < 2 ^ 63 := by
  have m : hIndex H < 65536 := Nat.mod_lt _ (by decide)
  omega

theorem loads_table : let s := tableState; ∃ s₁ x, s.home (BitVec.ofNat 64 (handle 0)).toNat = {} ∧
    s.cload (s.agent 0 .user) 0 (BitVec.ofNat 64 (handle 0)) 8192 4096 = (s₁, .ok x) ∧ x.getLsbD 63 = false := by
  have k := handle_key 0
  have n := handle_toNat 0
  have hm : tableState.home (handle 0) = {} := by unfold State.home; rw [k.1]; rfl
  have b63 := bits_top k.2.2
  have nd := node_zero k.1
  have r1 : readPieces (tableState.agent 0 .user) 4096 64 tableState 2 = (tableState, .ok (List.replicate 64 0)) :=
    Prod.ext (by decide +kernel) (eq_ok (by decide +kernel))
  have r2 : readPieces (tableState.agent 0 .user) 8192 32 tableState 2 = (tableState, .ok (table0.take 32)) :=
    Prod.ext (by decide +kernel) (eq_ok (by decide +kernel))
  have r3 : readPieces (tableState.agent 0 .user) (8192 + 32) (field (table0.take 32) 0x0C 4 - 32) tableState 16 =
      (tableState, .ok (table0.drop 32)) := Prod.ext (by decide +kernel) (eq_ok (by decide +kernel))
  have o1 : openRecordOk (List.replicate 64 0) = true := by decide +kernel
  have o2 : ptHeaderOk (table0.take 32) = true := by decide +kernel
  have o3 : ptInvalid (table0.take 32 ++ table0.drop 32) = none := by decide +kernel
  have o4 : ¬2 ^ 23 < tableState.storeUsed 0 + (table0.take 32 ++ table0.drop 32).length := by decide +kernel
  have o5 : ¬sramSize ≤ (tableState.sramHomes 0).length := by decide +kernel
  have st : (({} : Home).status != HomeStatus.free) = false := rfl
  simp only [n, State.cload, hm, b63, handle_own.1, nd, r1, r2, r3, o1, o2, o3, o4, o5, st]
  rw [if_neg (by decide), if_neg (by decide), if_neg (by decide), if_neg (by decide), if_neg (by decide), if_neg (by decide),
    if_neg id, if_neg (by simp)]
  refine ⟨_, _, trivial, rfl, ?_⟩
  rw [BitVec.getLsbD_ofNat, Nat.testBit_lt_two_pow (newHandle_lt _ k.2.2), Bool.and_false]

theorem witness_ProtocolLoadResults :
    (let s := state0 .supervisor; let G := gang0 .supervisor
     Executes (.cload p 10 (x 4) (x 6) (x 6)) s 0 G 3 3 64 ∧ (∀ l ∈ lanesOf 3, Clean (G.view l)) ∧
      (lanesOf 3).foldlM (fun (s : State) l =>
        match s.cload (s.agent (coreOf 0) (G.lane l).mode) (coreOf 0) ((G.view l).pair (x 4)).1 ((G.view l).pair (x 6)).1
          ((G.view l).pair (x 6)).1 with
        | (s', .ok y) => if y = 0x8000000000000005 then some s' else none
        | (_, .error _) => none) s = some s) ∧
    (8192 : DWord).toNat % 32 = 0 ∧ (4096 : DWord).toNat % 64 = 0 ∧ (BitVec.ofNat 64 (handle 0)).toNat / 2 ^ 57 = 0 ∧
    ∃ s₁ y, tableState.home (BitVec.ofNat 64 (handle 0)).toNat = {} ∧
      tableState.cload (tableState.agent 0 .user) 0 (BitVec.ofNat 64 (handle 0)) 8192 4096 = (s₁, .ok y) ∧ y.getLsbD 63 = false := by
  refine ⟨⟨executes_of_runs (by decide +kernel), fun l h => clean0 _ _ ?_, by decide +kernel⟩, by decide, by decide, ?_, loads_table⟩
  · simp [lanesOf] at h; omega
  · rw [handle_toNat]
    exact Nat.div_eq_of_lt (handle_key 0).2.2

/-- The matrix sequencer's block with the record of a convolution of an 8 by 4 image at 3072 of its window. -/
def latchBlock : Block := { seqBlock true with ls := [(3072, 4), (3074, 8), (3076, 4), (3078, 8), (3086, 64), (3088, 64)] }

def latchState : State := seqOn true latchBlock

/-- Whether `n` bytes of its window from `o` on are aligned, inside it and not held. -/
def good (al o n : Nat) : Bool := o % al == 0 && o + n ≤ 4096 && !latchState.held 0 0 (.ls 0 o) n

theorem witness_LatchLoadResults :
    (∀ i ∈ [.mlda p 0 16 17 18 0, .mldb p 1 16 17 18 0, .mlda p 3 16 17 18 0, .mldbLong p 4 16 19 18 0, .mgath p 0 16 20 18 0,
      .mconv p 1 16 21 22 0], SeqExecutes i true latchState 0 latchBlock) ∧ Clean latchBlock.mseq.view :=
  ⟨seqExecutes_all (by decide +kernel), clean_of _ rfl rfl rfl⟩

theorem witness_LatchLoadResults_operands :
    ([16, 17, 19, 20, 21, 22, 23].map fun r => (latchBlock.mseq.view.reg (x r)).1.toNat) = [0, 64, 16, 2048, 3072, 0, 0] ∧
    ([0, 1, 3, 4].map fun n => (latchState.slot latchBlock n).cls) = [.half, .int8, .tern, .bin8] ∧ latchBlock.lsb = 4096 := by
  decide +kernel

theorem witness_LatchLoadResults_rows :
    ((List.range 32).all fun m => good 16 (64 * m) 64 && good 16 (64 * m) 32 && good 16 (16 * m) 160) &&
    ((List.range 32).all fun m => (latchBlock.lsRead (64 * m) 32).all fun y => !y.2 && y.1 == 0) = true := by
  decide +kernel

theorem witness_LatchLoadResults_gather : (good 16 2048 128 && good 16 0 64 &&
    ((latchBlock.lsRead 2048 128).all fun y => !y.2 && y.1 == 0)) = true := by
  decide +kernel

theorem witness_LatchLoadResults_convolution : (good 16 3072 32 && ((latchBlock.lsRead 3072 32).all fun y => !y.2) &&
    ((latchBlock.lsRead 3072 20).map (·.1) == [4, 0, 8, 0, 4, 0, 8, 0, 0, 0, 0, 0, 0, 0, 64, 0, 64, 0, 0, 0]) &&
    (List.range 32).all fun m => (List.range 64).all fun c => good 1 ((m / 4 * 4 + m % 4) * 64 + c) 1) = true := by
  decide +kernel

/-- A latch of a slot whose 32 rows hold the bytes `b` and `c` 32 times each. -/
def latch0 (slot : BitVec 3) (k : Nat) (b c : Byte) (poison : Bool) : Latch :=
  { loaded := true, rows := List.replicate 32 ((List.replicate 32 [b, c]).flatten), slot := slot, k := k, poison := poison }

/-- The matrix sequencer's block with both latches loaded. -/
def mmaBlock (slot : BitVec 3) (k : Nat) (b c : Byte) (poison : Bool) : Block :=
  { seqBlock true with latchA := latch0 slot k b c poison, latchB := latch0 slot k 0 0 false }

-- The floating path and the integer path, a poisoned latch, and an infinity times zero under TRAPINV.
theorem witness_AccumulatorResults :
    (let s := seqOn true (seqBlock true); let B := seqBlock true
     (∀ i ∈ [.mzero p 3, .maccl p 0 16 17 0], SeqExecutes i true s 0 B) ∧ Clean B.mseq.view ∧
      ∀ m < 32, (64 * m) % 16 = 0 ∧ 64 * m + 128 ≤ B.lsb ∧ s.held B.core 0 (.ls 0 (64 * m)) 128 = false) ∧
    (∀ B ∈ [mmaBlock 0 32 1 1 false, mmaBlock 1 64 1 1 false, mmaBlock 1 64 1 1 true, mmaBlock 5 32 0x80 0x7F false],
      SeqExecutes (.mma p 0) true (seqOn true B) 0 B ∧ B.latchA.loaded = true ∧ B.latchB.loaded = true ∧ B.latchA.k = B.latchB.k) ∧
    (let sl := fun n => (state0 .user).slot block0 n
     pairing (sl 0).cls (sl 0).cls false = some true ∧ pairing (sl 1).cls (sl 1).cls false = some false ∧
      (sl 0).trapInv = false ∧ (sl 1).trapInv = false ∧ (sl 5).cls = (sl 0).cls ∧ (sl 5).trapInv = true ∧
      (∀ b c, (latch0 0 32 b c false).shaped (sl 0).cls ∧ (latch0 1 64 b c false).shaped (sl 1).cls) ∧
      (groupFloat (combined (sl 5) (sl 5) 0) 0 (List.replicate 8 ((sl 5).elem 0x7F80)) (List.replicate 8 ((sl 5).elem 0))).2 &&&
        Num.nv ≠ 0) := by
  refine ⟨⟨seqExecutes_all (by decide +kernel), clean_of _ rfl rfl rfl, by decide +kernel⟩, ?_, ?_⟩
  · intro B h
    fin_cases h <;> exact ⟨seqExecutes_of (by decide +kernel), rfl, rfl, rfl⟩
  · refine ⟨by decide +kernel, by decide +kernel, by decide +kernel, by decide +kernel, by decide +kernel, by decide +kernel, ?_,
      by decide +kernel⟩
    intro b c
    exact ⟨⟨by simp [latch0], 64, by simp [latch0], .inl ⟨by decide +kernel, rfl, rfl⟩⟩,
      ⟨by simp [latch0], 64, by simp [latch0], .inr (.inl ⟨by decide +kernel, rfl, .inl rfl⟩)⟩⟩

/-- The matrix sequencer's block with a word in accumulator 0. -/
def accBlock (w : Word) (poison : Bool) : Block := { seqBlock true with acc := [(0, { words := [(0, w)], poison := poison })] }

-- A drain of each path, of a poisoned accumulator, and of a NaN through a slot with TRAPINV.
theorem witness_DrainResults :
    (∀ B ∈ [accBlock 0x3F800000 false, accBlock 5 true, accBlock 0x7FC00000 false],
      ∀ i ∈ [.mdrainF32 p 0 0 16 17 18 0, .mdrainI32 p 3 0 16 17 18 0, .mdrainF32 p 2 0 16 17 18 0], SeqExecutes i true (seqOn true B) 0 B) ∧
    (let s := seqOn true (accBlock 5 false); let B := accBlock 5 false; let sl := fun n => s.slot B n
     Clean B.mseq.view ∧ (sl 0).kind ≠ .empty ∧ (sl 3).kind = .ternary ∧ (sl 0).elemBytes = some 2 ∧ (sl 2).elemBytes = some 1 ∧
      (sl 0).trapInv = false ∧ (sl 3).trapInv = false ∧ (sl 2).trapInv = true ∧
      (∀ m < 32, ∀ n ∈ [64, 32, 7], (64 * m) % 16 = 0 ∧ 64 * m + n ≤ B.lsb ∧ s.held B.core 0 (.ls 0 (64 * m)) n = false) ∧
      ((sl 2).narrow (.float (Num.decodeCode Num.fp32 0x7FC00000)) 0).2 &&& Num.nv ≠ 0) := by
  refine ⟨?_, clean_of _ rfl rfl rfl, by decide +kernel⟩
  intro B h
  fin_cases h <;> exact seqExecutes_all (by decide +kernel)

-- Launching: queue 0 takes entries of the device, queue 1 does not, queue 2 is not enabled, queue 3 is full

/-- The small state with the queue table of context 1 at 0x3000 of a memory-side page 0, and one completion record at 4096,
which is the context's job. -/
def jobState (r : CRec) : State :=
  { state0 .user with
    stlb := [(0, [{ page0 with ms := true }])], ctxs := [(1, { qtable := 0x3000, job := 4096 })], elide := [(96, 0)],
    hbm := [(0x3001, 0x40), (0x3008, 4), (0x3009, 0x84), (0x3021, 0x50), (0x3028, 4), (0x3029, 0x80), (0x3061, 0x40), (0x3068, 1),
      (0x3069, 0x84), (0x3078, 2)],
    crecs := [(crecKey 1 4096, r)], cur := some ⟨.thread, 0, 0, 1, 64⟩ }

/-- A completion record at 4096. -/
def crec0 : CRec := { ctx := 1, addr := 4096, level := 3, parent := 0 }

/-- A launch record of zeros that names queue `q`. -/
def launchBytes (q : Byte) : List PByte := clean (List.replicate 0x57 0 ++ [q] ++ List.replicate 168 0)

theorem witness_LaunchResults :
    (let s := jobState crec0; let G := gang0 .user; let r := addrs s G (x 6) 256 256 .read 1
     Executes (.launch p 10 (x 6) 0) s 0 G 1 1 64 ∧ Placed s r.1 0 G 1 (x 6) 0 256 256 .read memA (memP false) ∧
      Unheld r.1 0 1 256 memA (memP false)) ∧
    (let r := addrs (jobState crec0) (gang0 .user) (x 6) 256 256 .read 1
     (∀ l ∈ lanesOf 1, ∃ pa ms, memP false l = .mem pa ms) ∧ r.1.settled 0 1 = (r.1, true) ∧
      ∃ s₂, r.1.loadLanes 0 256 .gang .normal [] [(0, memA 0, memP false 0)] = (s₂, [0].map fun l => (l, .ok (List.replicate 256 (0, false))))) ∧
    (∀ q ∈ [0, 1, 2, 3], (launchBytes q).any (·.2) = false) ∧
    (∃ u, ((jobState crec0).seeTail 1 2).queueDesc 1 2 = (u, none)) ∧
    (∀ q ∈ [0, 1, 3], ∃ u D, ((jobState crec0).seeTail 1 q).queueDesc 1 q = (u, some D) ∧ (D.getD 9 0).getLsbD 2 = (q != 1) ∧
      (let head := ofBytes ((D.drop 0x10).take 8); let own := u.queues.get ({} : QState) (64 + q)
       let tail := if (D.getD 9 0).getLsbD 2 ∧ own.known then own.tail else ofBytes ((D.drop 0x18).take 8); let size := 2 ^ (D.getD 8 0).toNat
       ((tail + 2 ^ 64 - head) % 2 ^ 64 = size ↔ q = 3))) ∧
    ∃ w, devWrite ((jobState crec0).lp 1) 0x4000 (launchBytes 0) ((jobState crec0).releaseAt 0 .sys) = (w, .ok ()) := by
  refine ⟨reaches_of (by decide +kernel), ⟨fun l _ => ⟨_, _, rfl⟩, by decide +kernel, snd_of (by decide +kernel)⟩, by decide +kernel,
    snd_of (by decide +kernel), ?_, ?_⟩
  · intro q h
    fin_cases h
    · exact ⟨_, [0, 0x40, 0, 0, 0, 0, 0, 0, 4, 0x84, 0, 0, 0, 0, 0, 0, 0, 0, 0, 0, 0, 0, 0, 0, 0, 0, 0, 0, 0, 0, 0, 0],
        Prod.ext rfl (by decide +kernel), by decide +kernel, by decide +kernel⟩
    · exact ⟨_, [0, 0x50, 0, 0, 0, 0, 0, 0, 4, 0x80, 0, 0, 0, 0, 0, 0, 0, 0, 0, 0, 0, 0, 0, 0, 0, 0, 0, 0, 0, 0, 0, 0],
        Prod.ext rfl (by decide +kernel), by decide +kernel, by decide +kernel⟩
    · exact ⟨_, [0, 0x40, 0, 0, 0, 0, 0, 0, 1, 0x84, 0, 0, 0, 0, 0, 0, 0, 0, 0, 0, 0, 0, 0, 0, 2, 0, 0, 0, 0, 0, 0, 0],
        Prod.ext rfl (by decide +kernel), by decide +kernel, by decide +kernel⟩
  · exact ⟨_, Prod.ext rfl (eq_ok (by decide +kernel))⟩

-- The records give the codes 0 to 3; lane 0 alone executes.
theorem witness_SignalAndCancelResults :
    (∀ i ∈ [.gsigArr p (x 6) (x 2) 0, .gsigAnn p (x 6) (x 2) 0], let s := state0 .user; let G := gang0 .user
      Executes i s 0 G 3 3 64 ∧ Placed s (addrs s G (x 6) 8 8 .write).1 0 G 3 (x 6) 0 8 8 .write memA (memP false) ∧
        Unheld (addrs s G (x 6) 8 8 .write).1 0 3 8 memA (memP false)) ∧
    (let s := state0 .user; let G := gang0 .user
     Executes (.gsigSeal p (x 6) 0) s 0 G 3 3 64 ∧ Placed s (addrs s G (x 6) 64 64 .write).1 0 G 3 (x 6) 0 64 64 .write memA (memP false) ∧
        Unheld (addrs s G (x 6) 64 64 .write).1 0 3 64 memA (memP false)) ∧
    (∀ l ∈ lanesOf 3, ∃ pa ms, memP false l = .mem pa ms) ∧
    (let s₁ := (addrs (state0 .user) (gang0 .user) (x 6) 8 8 .write).1; s₁.settled 0 3 = (s₁, true)) ∧
    (∀ r ∈ [crec0, { crec0 with completed := true }, { crec0 with cancelReq := true }, { crec0 with level := 0 }],
      let s := jobState r; let G := gang0 .user
      let s₁ := (addrs s G (x 6) 64 64 .readWrite 1).1
      (Executes (.cancel p 10 (x 6) 0) s 0 G 1 1 64 ∧ Placed s s₁ 0 G 1 (x 6) 0 64 64 .readWrite memA (memP false) ∧
        Unheld s₁ 0 1 64 memA (memP false)) ∧
      G.converging &&& 1 = 0 ∧ r.ctx = 1 ∧ r.addr = memA 0 ∧
      s.blocks.find? G.block = some block0 ∧ s.covered block0 = false ∧ s₁.fetchRec 1 (memA 0) 0 = (s₁, r, none) ∧
      s₁.reachesJob 1 (s₁.ctxs.get {} 1).job (memA 0) 5 = (s₁, true)) := by
  refine ⟨reaches_all (by decide +kernel), reaches_of (by decide +kernel), fun l _ => ⟨_, _, rfl⟩, by decide +kernel, ?_⟩
  intro r h
  fin_cases h <;> exact ⟨reaches_of (by decide +kernel), by decide +kernel, rfl, rfl, rfl, by decide +kernel, by decide +kernel, by decide +kernel⟩

theorem witness_SystemCallResults : (∀ i ∈ [.sys p 0xFFFF], Executes i (state0 .user) 0 (gang0 .user) 3 3 64) ∧
    (∀ i ∈ [.hcall p 5, .sret p], Executes i (state0 .supervisor) 0 (gang0 .supervisor) 3 3 64) ∧
    (∀ i ∈ [.sys p 0, .hret p], Executes i (state0 .hypervisor) 0 (gang0 .hypervisor) 3 3 64) ∧
    (∀ l ∈ lanesOf 3, ((gang0 .user).lane l).mode ≠ .hypervisor ∧ ((gang0 .supervisor).lane l).mode ≠ .hypervisor ∧
      ((gang0 .hypervisor).lane l).mode = .hypervisor) :=
  ⟨executes_all (by decide +kernel), executes_all (by decide +kernel), executes_all (by decide +kernel), by decide +kernel⟩

theorem witness_PrivilegedRegisterResults :
    (let G := gang0 .hypervisor
     (∀ i ∈ [.mfs p 10 0x00, .mfs p 10 0x2B, .mts p 0x00 (x 6), .mts p 0x17 (x 6), .mts p 0x20 (x 6), .mts p 0x2B (x 6), .mts p 0x26 (x 2),
       .mtsGhold p (x 2)], Executes i (state0 .hypervisor) 0 G 3 3 64) ∧ ∀ l ∈ lanesOf 3, Clean (G.view l)) ∧
    (let G := gang0 .supervisor
     Executes (.mts p 0x03 (x 2)) { state0 .supervisor with cur := some ⟨.thread, 0, 0, 1, 64⟩ } 0 G 1 1 64 ∧
      ∀ l ∈ lanesOf 1, (G.lane l).mode ≠ .user ∧ mtsSource (G.view l) 3 (x 2) = (1, false)) :=
  ⟨⟨executes_all (by decide +kernel), fun l h => clean0 _ _ (by simp [lanesOf] at h; omega)⟩,
    executes_of_runs (by decide +kernel), by decide +kernel⟩

theorem witness_TlbInvalidationResults :
    (∀ md ∈ [Mode.supervisor, .hypervisor], (∀ i ∈ [.tlbinvAll p, .tlbinvAsid p (x 2), .tlbinvPage p (x 4) (x 2)],
      Executes i (state0 md) 0 (gang0 md) 3 3 64) ∧ ∀ l ∈ lanesOf 3, Clean ((gang0 md).view l)) ∧
    Executes (.tlbinvVmid p (x 2)) (state0 .hypervisor) 0 (gang0 .hypervisor) 3 3 64 ∧
    ∀ md ∈ [Mode.supervisor, .hypervisor], let w := (((gang0 md).view 0).reg (x 2)).1.toNat
      w / 2 ^ 22 = 0 ∧ w / 1024 % 64 = 0 ∧ w < 64 := by
  refine ⟨fun md h => ⟨?_, fun l q => clean0 _ _ (by simp [lanesOf] at q; omega)⟩, executes_of_runs (by decide +kernel), by decide +kernel⟩
  fin_cases h <;> exact executes_all (by decide +kernel)

theorem witness_TrapEntry : ∀ md ∈ [Mode.user, .supervisor, .hypervisor],
    (state0 md).gangs.find? 0 = some (gang0 md) ∧ ((gang0 md).lane 31).life = .running ∧ ((gang0 md).lane 31).mode = md := by
  decide +kernel

/-- The state whose group has a poisoned predicate 1 on both lanes. -/
def poisoned : Gang :=
  { gang0 .user with lanes := [{ lane0 .user 0 with p := 2, pp := 2 }, { lane0 .user 1 with p := 2, pp := 2 }] }

theorem witness_ChecksOfTable79 :
    (let i : Instr := .add ⟨false, 1⟩ .i32 false (x 10) (x 2) (.imm 1); let s := on poisoned block0
     i.fields.isSome = true ∧ (opEngines i.op.toNat).contains .thread = true ∧ s.cur = some ⟨.thread, coreOf 0, 0, 3, 64⟩ ∧
      s.gangs.find? 0 = some poisoned ∧ (∀ l ∈ lanesOf 3, (poisoned.lane l).mode = .user) ∧ i.wf .thread = true ∧
      Mode.user.rank ≥ i.leastMode.rank ∧ beyondAlloc poisoned.alloc (i.regs .thread) = none ∧ poisoned.guardMasks i.guard 3 = (3, 0)) ∧
    (Instr.add p .f32 false (x 10) (x 2) (.imm 1)).wf .thread = false ∧ Mode.user.rank < (Instr.sret p).leastMode.rank ∧
    beyondAlloc 40 ((Instr.add p .i32 false (x 40) (x 2) (.imm 1)).regs .thread) = some 40 := by
  decide +kernel

theorem witness_DecodingInvertsEncoding : decode .thread 0x070070000000000000000000 = .ok (.exit p) := by decide +kernel

-- A step from reset, where there is nothing to do.
theorem witness_StepKeepsMemoryCanonical : State.reset.memoryWf = true ∧
    step State.reset = .next State.reset.tick := ⟨by decide +kernel, by
  have h : State.reset.tick.actions = [] := by decide +kernel
  simp [step, nextAction, h]⟩

/-- The state after reset with an instruction to be fetched, at the beginning of its step. -/
def placedTick (w : Nat) : State := (State.reset.withFetchWord 96 w).tick

/-- The group of an `EXIT` that gang 0 fetches next, the state in which it fetches, and the line. -/
def exitGang : Gang := ((placedTick 0x070070000000000000000000).chooseGang 0).elim (gang0 .user) (·.2)
def exitGroup : Group := ⟨0x100000000000, .user, 0xFFFFFFFF⟩
def exitFetch : State :=
  { placedTick 0x070070000000000000000000 with cur := some ⟨.thread, 0, 0, 0xFFFFFFFF, 0x100000000000⟩ }
def exitLine : Line := ⟨2 * (0x200000000 / 64), lineOf .thread 0x070070000000000000000000, false⟩

theorem witness_StepRunsTheDecodedInstruction :
    ((placedTick 0x070070000000000000000000).actions = [.thread 0] ∧ ∀ n, [Action.thread 0][n % [Action.thread 0].length]? = some (.thread 0)) ∧
    (placedTick 0x070070000000000000000000).chooseIssue 0 = some (0, exitGang, exitGroup, false) ∧
    exitGang.holdsUp (.exit p) 0xFFFFFFFF = false ∧
    (exitFetch.fetchLine (exitFetch.asker 0 exitGang 0xFFFFFFFF .user) .thread exitGang.line 0x100000000000).2 = .ok exitLine ∧
    exitGroup.lanes ≠ 0 ∧ slotOf exitGroup.pc < 5 ∧
    (∀ l ∈ lanesOf 0xFFFFFFFF, (exitGang.lane l).checkEntry = false ∧ (exitGang.lane l).checkTarget = false ∧
      (exitGang.lane l).pc = exitGroup.pc) ∧
    ((exitFetch.fetchLine (exitFetch.asker 0 exitGang 0xFFFFFFFF .user) .thread exitGang.line 0x100000000000).1.gangs.find? 0).isSome = true ∧
    decode .thread (exitLine.slot 0) = .ok (.exit p) :=
  ⟨⟨by decide +kernel, fun n => by simp [Nat.mod_one]⟩, by decide +kernel, by decide +kernel, by decide +kernel, by decide +kernel,
    by decide +kernel, by decide +kernel, by decide +kernel, by decide +kernel⟩

-- A `GROW.try` of the other lanes while lane 0 waits in `GROW`.
def growTick : State :=
  let s := State.reset.withFetchWord 96 0x0E0170100000000000000008
  State.tick { s with gangs := s.gangs.map fun G => (G.1, { G.2 with waits := [⟨1, 0x100000000000, .grow 8 1⟩] }) }
def growGang : Gang := (growTick.chooseGang 0).elim (gang0 .user) (·.2)
def growFetch : State := { growTick with cur := some ⟨.thread, 0, 0, 0xFFFFFFFE, 0x100000000000⟩ }
def growLine : Line := ⟨2 * (0x200000000 / 64), lineOf .thread 0x0E0170100000000000000008, false⟩

theorem witness_StepRunsTheDecodedInstruction_held :
    growTick.actions = [.thread 0] ∧
    growTick.chooseIssue 0 = some (0, growGang, ⟨0x100000000000, .user, 0xFFFFFFFE⟩, false) ∧
    (let r := growFetch.fetchLine (growFetch.asker 0 growGang 0xFFFFFFFE .user) .thread growGang.line 0x100000000000
     r.2 = .ok growLine ∧ (r.1.gangs.find? 0).isSome = true) ∧
    (∀ l ∈ lanesOf 0xFFFFFFFE, (growGang.lane l).checkEntry = false ∧ (growGang.lane l).checkTarget = false ∧
      (growGang.lane l).pc = 0x100000000000) ∧
    decode .thread (growLine.slot 0) = .ok (.growTry p 1 8) ∧ growGang.holdsUp (.growTry p 1 8) 0xFFFFFFFE = true := by
  decide +kernel

-- A sequencer's fetch, and a word that decodes to nothing.
theorem witness_StepRunsTheDecodedInstruction_others :
    (placedTick 0x000070000000000000000000).actions = [.thread 0] ∧ (placedTick 0xC40070000000000000000000).actions = [.seq 0 true] ∧
    (placedTick 0xF00070000000000000000000).actions = [.thread 0] ∧ decode .thread 0xF00070000000000000000000 = .error .opUnassigned ∧
    State.reset.tick.actions = [] ∧ ({ State.reset with inputs := [.pcieHotReset] } : State).tick.actions = [.input] := by
  decide +kernel

-- Tokens: the record of token 5 stands in slot 5 of the context's fault queue, and its residual field holds `res`

/-- A gang whose lane 0 names token 5, or the gang slot 5 of its core. -/
def tokenGang (f : Gang → Gang) : Gang :=
  f { gang0 .supervisor with lanes := (List.range 32).map fun _ => { pc := 64, mode := .supervisor, x := [(2, 5)] } }

/-- Two lanes parked on the token, a continuing lane, and neither. -/
def parkedGang : Gang := tokenGang fun G => { G with waits := [⟨4, 64, .parked 5⟩] }
def contGang (l : Nat) : Gang := tokenGang fun G => { G with lanes := G.lanes.modify l fun L => { L with incont := true, contToken := 5 } }

/-- A copy of 16 bytes whose fault the token stands for. -/
def copy0 : Copy :=
  { core := 0, block := 0, ctx := 1, issuer := 0, gang := some 0, lane := 0, batch := 0, pc := 64, mode := .user, secure := false,
    dst := 0x6000000000000040, src := 0x6000000000000100, dsts := [.ls 0 64], srcAt := .ls 0 256, rowLen := 16, rows := 1, dPitch := 0,
    sPitch := 0, no := 0 }

def tokenState (G : Gang) (res : Byte) (cs : SMap CopyToken) : State :=
  { on G block0 with
    stlb := [(0, [{ page0 with ms := true }])], ctxs := [(1, { sfq := 0x3000 })], elide := [(96, 0), (261, 0)], copyTokens := cs,
    hbm := [(0x3001, 0x80), (0x3008, 4), (0x8284, 5)] ++ if res = 0 then [] else [(0x82E0, res)], cur := some ⟨.thread, 0, 0, 1, 64⟩ }

theorem witness_TokenResults :
    (∀ G ∈ [parkedGang, contGang 0, contGang 1, tokenGang id], ∀ i ∈ [.fresume p 10 (x 2), .fkillTok p 10 (x 2), .fkillGang p 10 (x 2),
      .tokwait p 10 (x 2)], Executes i (tokenState G 0 []) 0 G 1 1 64) ∧
    (∀ l ∈ lanesOf 1, ((tokenGang id).view l).reg (x 2) = (5, false)) ∧
    (∀ res ∈ [0, 1, 2], let s := tokenState parkedGang res []
      s.blocks.find? 0 = some block0 ∧ s.covered block0 = false ∧
      ((s.recordAt 0 5).2.map fun r => (r.1, (ofBytes ((r.2.drop 0x60).take 8)))) = some (0x8280, res.toNat)) ∧
    (State.recordAt { tokenState (tokenGang id) 0 [] with stlb := [] } 0 5).2 = none ∧
    ((tokenState parkedGang 0 []).tokenUse 0 parkedGang 5 = some (.parked 4)) ∧
    (∀ l < 2, (tokenState (contGang l) 0 []).tokenUse 0 (contGang l) 5 = some (.continuing (laneBit l))) ∧
    ((tokenState (tokenGang id) 1 [(tokenKey 1 5, ⟨some 0, copy0⟩)]).tokenUse 0 (tokenGang id) 5 = some (.copy copy0)) ∧
    (tokenState (tokenGang id) 1 [(tokenKey 1 5, ⟨some 0, copy0⟩)]).freeSlots copy0.core ≠ 0 ∧
    ((tokenState (tokenGang id) 0 []).blockOf 5 = none) ∧
    (let s := { tokenState (tokenGang id) 0 [] with gangs := [(0, tokenGang id), (5, gang0 .user)],
                                                    blocks := [(0, { block0 with slots := [0, 5] })] }
     (s.blockOf 5).map (·.ctx) = some (s.ctxId 0) ∧ s.gangLives 5 = true) ∧
    (tokenState (tokenGang id) 0 []).monitors.sorted = true ∧ 0x8280 % 8 = 0 ∧
    ∀ G ∈ [parkedGang, contGang 0, contGang 1, tokenGang id], G.converging &&& 1 = 0 := by
  refine ⟨?_, by decide +kernel, by decide +kernel, by decide +kernel, rfl, ?_, rfl, by decide +kernel, by decide +kernel, by decide +kernel, rfl, by decide, by decide +kernel⟩
  · intro G h
    fin_cases h <;> exact executes_all (by decide +kernel)
  · intro l h
    obtain rfl | rfl : l = 0 ∨ l = 1 := by omega
    · rfl
    · rfl

-- Records of placement: a record at 4096 of page 0, a tile in a page of node 1

/-- A gang in supervisor mode whose lane 0 names the record with x6, the tile at 65536 with x12, the vector at 8192 with x14
and TAG 1 with x2. -/
def recordGang : Gang :=
  { gang0 .hypervisor with lanes := (List.range 32).map fun _ => { pc := 64, mode := .hypervisor, x := [(2, 1), (6, 4096), (12, 65536), (14, 8192)] } }

/-- The translations of a page for H mode. -/
def pageH (va pa : Nat) : TlbEntry := { page0 with hyp := true, va := va, pa := pa }

/-- Its state with the bytes of the record, a launch and a claim. -/
def recordState (bs : List Host.Cell) (L : Launch) : State :=
  { on recordGang block0 with
    cores := [(0, { utlb := [pageH 0 0, pageH 65536 (2 ^ 36)] })], stlb := [(0, [page0, pageH 0 0])], elide := [(32, 0)],
    launches := [(1, L)], hbm := bs, cur := some ⟨.thread, 0, 0, 1, 64⟩ }

/-- A RESIDENT record of home 0, one that is claimed, and a REPLICATED one with its primary copy in slot 0 and a copy on die 1. -/
def resident : List Host.Cell := [(4105, 1)]
def claimed : List Host.Cell := [(4105, 1), (4116, 1)]
def replicated : List Host.Cell := [(4105, 3), (4111, 3), (4113, 1), (4121, 0x20)]

theorem witness_SystemRecordResults_walks :
    (∀ i ∈ [.walkres p 10 2, .walkresSkip p 10 2], ∀ L ∈ [launch0, { launch0 with walk := .faulted }, { launch0 with ctx := 2 },
      { launch0 with cancelled := true }, { launch0 with walk := .faulted, cursorFault := true }],
      Executes i (recordState [] L) 0 recordGang 1 1 64) ∧
    (∀ l ∈ lanesOf 1, (recordGang.view l).reg (x 2) = (1, false)) ∧ (recordState [] launch0).ctxId 0 = 1 ∧
    (recordState [] launch0).crecs.find? launch0.key = none := by
  refine ⟨fun i h L q => ?_, by decide +kernel⟩
  fin_cases q <;> exact executes_of_ready rfl rfl (by fin_cases h <;> decide +kernel)

theorem witness_SystemRecordResults_saves :
    (∀ i ∈ [.ctxsave p 10 (x 6), .ctxload p 10 (x 6) (x 0), .ctxload p 10 (x 6) (x 12)], Executes i (recordState [] launch0) 0 recordGang 1 1 64) ∧
    (∀ l ∈ lanesOf 1, (recordGang.view l).pair (x 6) = (4096, false) ∧ (recordGang.view l).pair (x 12) = (65536, false)) ∧
    (recordState [] launch0).saves.find? 0 = none ∧ ((recordState [] launch0).ctxsave 0 4096).2 = 0 ∧
    ({ recordState [(2, 4), (4112, 1)] launch0 with blocks := [], elide := [(0, 0), (32, 0)] }.ctxload 0 4096 0 true).2 = 0 := by
  refine ⟨executes_all (by decide +kernel), by decide +kernel⟩

/-- The addresses of operands that are all usable. -/
def usable : Except Nat (List Operand) → Option (List Nat)
  | .ok xs => xs.foldr (fun y r => match y, r with | .ok a, some r => some (a :: r) | _, _ => none) (some [])
  | .error _ => none

theorem witness_SystemRecordResults_migrations :
    (∀ bs ∈ [resident, claimed, replicated], ∀ i ∈ [.tmove p 10 6 12 128, .tmove p 10 6 12 0, .treplAdd p 10 6 12 14 0x1000000,
      .treplDrop p 10 6 2], Executes i (recordState bs launch0) 0 recordGang 1 1 64) ∧
    (∀ bs ∈ [resident, claimed, replicated], let s := recordState bs launch0
      usable (s.operands 0 recordGang 0 [(4096, false, 32, .readWrite), (65536, false, 128, .write), (8192, false, 32, .write)]).2 =
        some [4096, 2 ^ 36, 8192] ∧ s.migrationPending 4096 = false ∧ s.pendingFull 4096 = false ∧
      ((s.prUpdate 4096 (fun _ => none)).2.map fun r => (prBad r, prHome r, prState r, prClaim r, prRepl r)) =
        some (false, 0, if bs = replicated then 3 else 1, if bs = claimed then 1 else 0, if bs = replicated then 3 else 0)) ∧
    (let s := recordState replicated launch0
     ((s.prUpdate 4096 (fun _ => none)).2.bind fun r => (prPrimary r).bind fun j =>
       ((s.dropReplicas (s.tileAgent (s.migration 0 4096 0 4096 (.drop 2))) r 2).2).map fun _ => j) = some 0) := by
  refine ⟨fun bs h => ?_, by decide +kernel, by decide +kernel⟩
  fin_cases h <;> exact executes_all (by decide +kernel)

-- Events: each clause of the statements on them at a small state

/-- The reset device with its bring-up state changed. -/
def bootState (b : Boot) : State := { State.reset with boot := b }

/-- Bring-up at a stage, and one serving attestation whose request block at 64 names version `v`. -/
def stageState (n : BitVec 4) : State := bootState { stage := n }
def requestState (v : Byte) : State :=
  { bootState { stage := 6, request := some 64 } with elide := [(0, 0)], hbm := if v = 0 then [] else [(64, v)] }

theorem witness_BoardEventResults_bringup :
    (State.reset.boot.locked = false ∧ State.reset.boot.stage = 0 ∧ (bootState { locked := true }).boot.locked = true ∧
      (stageState 1).boot.stage ≠ 0) ∧
    (bootState { length := some 4096 }).boot.length = some 4096 ∧
    (∀ n ∈ [1, 2, 3, 4, 5], 1 ≤ (stageState (BitVec.ofNat 4 n)).boot.stage.toNat ∧
      (stageState (BitVec.ofNat 4 n)).boot.stage.toNat = n) ∧
    (let s := { stageState 4 with elide := [(0, 0)] }
     4 ≤ s.boot.stage.toNat ∧ s.boot.stage ≠ 0xF ∧ physical 64 64 = true ∧ (∀ x ∈ (s.homeRead 64 64).2, x.2 = false) ∧
      s.boot.request = none) ∧
    (requestState 1).boot.request ≠ none ∧ (∀ x ∈ ((requestState 1).homeRead 64 64).2, x.2 = false) ∧
    (∀ v ∈ [0, 1], let s := requestState v
      s.boot.request = some 64 ∧ (s.homeRead 64 64).2.any (·.2) = false ∧
      requestOk ((s.homeRead 64 64).2.map (·.1)) = decide (v = 1)) := by
  decide +kernel

-- The files of the hypervisor stand in memory, or not; a VF has a VMID; a heavy cluster.
theorem witness_BoardEventResults_loads :
    HypLoad.inMemory { image := [1], base := 0x10000, tables := 0x20000 } = true ∧ HypLoad.inMemory { tables := 2 ^ 43 } = false ∧
    (63 < 64 ∧ ¬(64 < 64)) ∧ (let I := fun c => [100, 50].getD c 0; I 1 < I 0 ∧ 10 * I 0 < 100 * (I 0 - I 1)) := by
  decide +kernel

/-- The clusters of a monitored device: 5 under test, 6 waking, 7 just left idle. -/
def boardState : State :=
  { stageState 6 with now := 30000, clusters := [(5, { testing := true }), (6, { gated := true, waking := true }), (7, { idleSince := 29000 })] }

theorem witness_BoardEventResults_units :
    (∀ r ∈ [0, 15], ∀ n < 8, (boardState.dies.get {} (8 * r + n)).droopAt + 10000 ≤ boardState.now) ∧
    (boardState.cluster 5).testing = true ∧ (boardState.cluster 4095).testing = false ∧ (boardState.cluster 6).waking = true ∧
    (let gates := fun c => let K := boardState.cluster c
      K.gated = false ∧ boardState.pclaim c = false ∧ boardState.occupied c = false ∧ K.idleSince + 20000 ≤ boardState.now
     gates 0 ∧ gates 4095 ∧ ¬gates 6 ∧ ¬gates 7) := by
  decide +kernel

/-- A single error latent in sector 2 of the memory. -/
def latentState : State := { State.reset with latent := [(.hbm, 2)] }

theorem witness_BoardEventResults_faults :
    (FaultUnit.hbm, faultWord .hbm 64) ∈ latentState.latent ∧ (FaultUnit.hbm, faultWord .hbm 96) ∉ latentState.latent ∧
    latentState.strikes .hbm 64 = true ∧ latentState.strikes .hbm 96 = true ∧
    (state0 .user).strikes .register 2 = true ∧ (state0 .user).strikes .localStore 64 = true := by
  decide +kernel

/-- Host-stage tables of VMID 0 that map the first GiB to itself. -/
def hostState : State :=
  { stageState 6 with
    elide := [(0, 0), (64, 0), (96, 0), (8192, 0)], hbm := [(0x2000, 3), (0x2001, 0x30), (0x3000, 13), (0x100001, 0x20)] }

theorem witness_BoardEventResults_host :
    (∀ w ∈ [false, true], (hostState.hostPlaces 0 w ([0, 1].map (64 + ·))).2 = some [(64, false), (65, false)]) ∧
    (let s := { hostState with hbm := [(0x2000, 3), (0x2001, 0x30), (0x3000, 77), (0x100001, 0x20)] }
     (s.hostPlaces 0 true ([0, 1].map (64 + ·))).2 = none ∧ ([0, 1].map (64 + ·)).find? (s.hostSecure 0) = some 64) ∧
    (∃ (bs : List Byte) (a : Nat), bs ≠ [] ∧ a + bs.length = 2 ^ 28) ∧
    (∃ G, (state0 .user).gangs.find? 0 = some G ∧ 31 < G.lanes.length) ∧ (∃ B, (state0 .user).blocks.find? 0 = some B) :=
  ⟨by decide +kernel, by decide +kernel, ⟨[1, 2], 2 ^ 28 - 2, by decide, by decide⟩, ⟨_, rfl, by decide +kernel⟩, ⟨_, rfl⟩⟩

-- FIPS 202: the digest of the empty message.
theorem test_sha3 : Crypto.sha3 [] = [0xA7, 0xFF, 0xC6, 0xF8, 0xBF, 0x1E, 0xD7, 0x66, 0x51, 0xC1, 0x47, 0x56, 0xA0, 0x61, 0xD6, 0x62,
    0xF5, 0x80, 0xFF, 0x4D, 0xE4, 0x3B, 0x49, 0xFA, 0x82, 0xD8, 0x0A, 0x4B, 0x80, 0xF8, 0x43, 0x4A] := by decide +kernel
-- Table 1.5: LOCKED with two failed attempts, ERROR 4 and STAGE 1.
theorem test_boot_status :
    (bootState { locked := true, attempts := 2, error := 4, stage := 1 }).registerRead .bootStatus = 0xA041 := by decide +kernel
-- R9: nodes 8 and 9 at (1,1) and (1,3), and stacks in an even and an odd row.
theorem test_panel : dieAt 8 = (1, 1) ∧ dieAt 9 = (1, 3) ∧ stackAt 1 = (0, 3) ∧ stackAt 9 = (1, 2) := by decide

/-- Queue 3 of context 1 with a launch record at 0x4000 that reserves `cb` cooperative barriers, and its graph queue 4 with
a graph start record at 0x4100; the driving tensor's record is at 0x5000, the completion record at 0x6000, the one node
of the graph at 0x7000. -/
def queueState (cb : Byte) (used : Launch → Launch) : State :=
  { on (gang0 .user) block0 with
    boot := { stage := 6 }, ctxs := [(1, { qtable := 0x2000 })], stlb := [(0, [{ page0 with ms := true }])],
    queues := [(64 + 3, { tail := 1, known := true }), (64 + 4, { tail := 1, known := true })], launches := [(1, used launch0)],
    elide := [(64, 0), (65, 0), (128, 0), (129, 0), (130, 0), (131, 0), (160, 0), (192, 0), (224, 0)],
    hbm := [(0x2061, 0x40), (0x2068, 1), (0x2069, 0x80), (0x2078, 1), (0x2081, 0x41), (0x2088, 1), (0x2089, 0x88), (0x2098, 1),
        (0x4000, 64), (0x4021, 0x50), (0x4040, 8), (0x4042, 1)] ++ (if cb = 0 then [] else [(0x404A, cb)]) ++
      [(0x4050, 1), (0x4051, 1), (0x4052, 1), (0x4053, 1), (0x4055, 4), (0x4057, 3), (0x4061, 0x60), (0x4101, 0x70), (0x4108, 1),
        (0x4157, 4), (0x4161, 0x60), (0x5000, 1), (0x5008, 1), (0x500A, 1), (0x500C, 1), (0x500E, 1), (0x5010, 1), (0x5012, 1),
        (0x5014, 1), (0x5016, 1), (0x5018, 16), (0x501C, 16), (0x5020, 16), (0x5024, 1), (0x6000, 1), (0x6001, 1), (0x7000, 2)] }

/-- Whether a result is a success of which something holds. -/
def okAnd {ε α : Type} (r : Except ε α) (f : α → Bool) : Bool :=
  match r with
  | .ok a => f a
  | .error _ => false

/-- A launch that has reserved every cooperative barrier. -/
def coopFull (L : Launch) : Launch := { L with lrec := setField L.lrec 0x4A 1 8 }

theorem witness_LaunchEventResults_queues :
    (let s := queueState 0 id
     (s.ctxs.find? 1).isSome ∧ s.ctxs = [(1, { qtable := 0x2000, vmid := 0 })] ∧
      ((s.queueDesc 1 3).2.any fun d => !qDev d && decide (qLength d (qTail d) ≤ 2 ^ field d 8 1))) ∧
    (let a := (queueState 0 id).acceptable 1 3 false
     a.2.isSome ∧ (a.1.takeLaunch 1 3 0 0x4000 none).2 ≠ .waits ∧ (a.1.takeLaunch 1 3 0 0x4000 none).2 ≠ .retired) ∧
    (let a := (queueState 2 coopFull).acceptable 1 3 false
     a.2.isSome ∧ (a.1.takeLaunch 1 3 0 0x4000 none).2 = .waits) ∧
    (let a := (queueState 0 id).acceptable 1 4 true
     let r := devReadClean (a.1.lp 1) 0x4100 256 a.1
     a.2.isSome ∧ okAnd r.2 (fun b => graphCode b 4 = 0) = true ∧ (r.1.chainCancelled 1 0x6000 5).2 = false) ∧
    (let s := { queueState 0 id with hbm := (queueState 0 id).hbm.map fun (c : Host.Cell) => if c.1 = 0x2069 then (c.1, 0x84) else c }
     (s.queueDesc 1 3).2.any (fun d => qDev d && decide (qLength d 1 ≤ 2 ^ field d 8 1)) = true ∧
      (s.queues.get ({} : QState) (64 + 3)).known = true) := by
  decide +kernel

/-- A completion record at 0x6000 under the device's counters. -/
def rec0 : CRec := { ctx := 1, addr := 0x6000, level := 3, parent := 0 }
def recState (c : CRec) : State := { queueState 0 id with crecs := [(crecKey 1 0x6000, c)] }

theorem witness_LaunchEventResults_records :
    (∀ c ∈ [{ rec0 with sealed := true }, { rec0 with sealed := true, cancelReq := true }],
      (recState c).crecs.find? (crecKey 1 0x6000) = some c ∧ c.sealed = true ∧ c.out = 0 ∧ c.completed = false ∧ c.level ≠ 1) ∧
    (let c := { rec0 with level := 1, tag := 1 }
     { recState c with overflow := [(0, [⟨0, 2, mkRecord 9 0 0 0 1 0 0 0 [], none⟩])] }.lateHeld c.tag = true) ∧
    rec0.sealed = false ∧ ({ rec0 with sealed := true, out := 1 }).out ≠ 0 ∧
    (∀ c ∈ (recState rec0).crecs, c.2.unread = false ∧ c.2.held = []) ∧
    (let c := { rec0 with held := [(2, [0, 0])] }
     c.unread = false ∧ c.completed = false ∧ ((recState c).tryRec c 2 [0, 0]).2 = none) ∧
    ((recState rec0).ctxs = [(1, { qtable := 0x2000 })]) ∧
    (let r := { rec0 with out := 1 }
     let s := { recState r with ctxs := [(1, { qtable := 0x2000 })] }
     s.crecs.find? (crecKey 1 0x6000) = some r ∧ (0x6000 : DWord).toNat % 64 = 0 ∧ r.level = 3 ∧ r.notify = 0 ∧
      ((s.sealRec 1 0x6000).crecs.find? (crecKey 1 0x6000)).isSome) := by
  decide +kernel

/-- A node of a graph: its kind, and its three arguments; it names no successor. -/
def node (kind : Byte) (a b c : Nat) : List Byte :=
  [kind] ++ List.replicate 7 0 ++ List.replicate 8 0xFF ++ toBytes 8 a ++ toBytes 8 b ++ toBytes 8 c ++ List.replicate 24 0

/-- A graph of one node, which may run or runs. -/
def graph0 (r : List Byte) (run : Bool) : Graph :=
  { ctx := 1, queue := 4, comp := 0x6000, nodes := 0x7000, recs := [r], ready := if run then [] else [0],
    running := if run then [0] else [], launched := if run then [(0, 0x6000)] else [], copied := if run then [(0, 16)] else [] }
def graphState (g : Graph) : State := { queueState 0 id with graphs := [(0, g)] }

/-- What the clauses on a node share. -/
def nodeRuns (r : List Byte) (run : Bool) : Bool :=
  let s := graphState (graph0 r run)
  s.canPost 0 2 && !s.graphHeld (graph0 r run) && (run || !badNode (graph0 r run) 0 r)

/-- The word that a node's ARG0 names, where the node's clauses hold. -/
def nodeWord (r : List Byte) : Option Nat :=
  if nodeRuns r false then
    match devReadRun ((graphState (graph0 r false)).lp 1) (BitVec.ofNat 64 (field r 0x10 8)) 8 (graphState (graph0 r false)) with
    | (_, .ok bs) => some (ofBytes bs)
    | (_, .error _) => none
  else none

theorem witness_LaunchEventResults_graphs :
    nodeRuns (node 1 0x4000 0 0) true = true ∧ nodeRuns (node 2 0 0x100 16) true = true ∧
    (graph0 (node 2 0 0x100 16) true).copied.get 0 0 = 16 ∧
    (graphState (graph0 (node 1 0x4000 0 0) true)).crecs.find? (crecKey 1 0x6000) = none ∧
    nodeRuns (node 2 0 0x100 16) false = true ∧
    nodeWord (node 3 0x4000 0 0) = some 64 ∧ nodeWord (node 3 0x4008 0 0) = some 0 ∧
    nodeWord (node 4 0x4000 0 0) = some 64 ∧ nodeWord (node 4 0x4000 0 1) = some 64 ∧ nodeWord (node 4 0x4008 0 0) = some 0 ∧
    nodeWord (node 5 0x4000 0xFFFF 0) = some 64 ∧ nodeWord (node 5 0x4000 0 0) = some 64 ∧
    nodeRuns (node 6 0x4000 1 0) false = true ∧
    (devUpdate ((graphState (graph0 (node 6 0x4000 1 0) false)).lp 1) 0x4000 8 (fun bs => toBytes 8 ((ofBytes bs + 1) % 2 ^ 64))
      (graphState (graph0 (node 6 0x4000 1 0) false))).2.isOk = true := by
  decide +kernel

theorem witness_LaunchEventResults_grace :
    let s := { state0 .user with launches := [(1, { launch0 with graceEnd := some 0 })] }
    (∃ L, s.launches.find? 1 = some L ∧ L.graceEnd = some 0) ∧ 0 ≤ s.now ∧ (0, block0) ∈ s.blocks ∧ block0.tag = 1 ∧
      0 ∈ block0.gangs ∧ s.blocks.find? 0 = some block0 :=
  ⟨⟨_, rfl, rfl⟩, Nat.zero_le _, List.mem_singleton.mpr rfl, rfl, by decide, rfl⟩

/-- A launch whose driving tensor has one coordinate and two records from 0x8000: one RESIDENT on node 0, one INVALID. -/
def walkLaunch (ens : Nat) : Launch :=
  let one := fun (r : List Byte) (o : Nat) => setField r o 1 1
  { launch0 with
    lrec := setField ([0x51, 0x52, 0x53].foldl one (setField (setField launch0.lrec 0x50 1 ens) 0x40 2 8)) 0x42 1 1,
    drive := [0x10, 0x12, 0x14, 0x16].foldl one (setField (setField launch0.drive 0x24 1 2) 0x29 1 0x80) }
def walkState (L : Launch) : State :=
  { state0 .user with
    ctxs := [(1, {})], stlb := [(0, [{ page0 with ms := true }])], launches := [(1, L)], elide := [(256, 0)], hbm := [(0x8009, 1)] }

/-- A block routed to node 0, from the record at 0x8000. -/
def routed0 : Routed := { index := 0, coord := [0, 0, 0, 0], tile := 0, pa := 0x8000, home := 0, node := 0, hint := none }

theorem witness_LaunchEventResults_walks :
    (∀ L ∈ [walkLaunch 1, { walkLaunch 1 with cursor := 1 }], L.walk = .walking ∧ L.cancelled = false ∧
      (walkState L).canPost 0 2 = true ∧ L.skip = [] ∧ L.deferred = [] ∧ L.cursorFault = false ∧ L.cursor < L.records ∧
      L.celled = false) ∧
    ((walkState (walkLaunch 1)).readRecord 1 (walkLaunch 1) 0).2 = .claimed routed0 ∧
    ((walkState (walkLaunch 1)).readRecord 1 { walkLaunch 1 with cursor := 1 } 1).2 = .fault 4 ∧
    (let L := { walkLaunch 1 with streams := [(0, [{ routed0 with created := true }, routed0])] }
     L.cursor < L.records ∧ L.streams.get [] 0 = [{ routed0 with created := true }] ++ routed0 :: []) ∧
    (let L := { walkLaunch 1 with streams := [(0, [{ routed0 with created := true }])] }
     (walkState L).placeChoice 0 = some (1, { routed0 with created := true }, .core 0)) ∧
    (let C : Cell := { members := [routed0], formed := true }
     let L := { walkLaunch 2 with cells := [(0, C)] }
     C.formed = true ∧ C.placed = false ∧ (((walkState L).tryEnsemble 1 L C).map (·.2)) = some [] ∧
      (walkState L).ensembleNext 1 0 L C = true) := by
  decide +kernel

/-- A block that has ended, and one whose matrix sequencer exits. -/
def endedState : State :=
  on { gang0 .user with lanes := List.replicate 32 { life := .exited } } block0
def exitingBlock : Block := { block0 with mseq := { block0.mseq with exiting := true } }

theorem witness_LaunchEventResults_ends :
    endedState.blocks.find? 0 = some block0 ∧ endedState.retires 0 block0 = true ∧ block0.ens = none ∧
    endedState.canPost 0 (block0.ctx + 1) = true ∧ nodeOf block0.recPa = 0 ∧
    (on (gang0 .user) exitingBlock).blocks.find? 0 = some exitingBlock ∧ (exitingBlock.seq true).exiting = true ∧
    ((on (gang0 .user) exitingBlock).copies.all fun c => !c.2.ofSeq 0 true) = true := by
  decide +kernel

/-- A migration of the record at 0x8000 whose copy has ended. -/
def move0 (kind : MigKind) : Migration :=
  { ctx := 1, secure := false, pa := 0x8000, recVa := 0x8000, kind := kind, pending := false, node := 1, done := 128 }
def moveState (m : Migration) : State := { walkState (walkLaunch 1) with migrations := [(0, m)] }

theorem witness_LaunchEventResults_migrations :
    (let m := move0 (.move 0x1000000080 128)
     m.pending = false ∧ m.faulted = false ∧ 128 ≤ m.done ∧
      ((moveState m).prUpdate m.pa fun r => some (setField (setField (setField (setField (setField r 8 1 m.node) 24 8
        0x1000000080) 10 2 0) 9 1 1) 12 2 ((ofBytes ((r.drop 12).take 2) + 1) % 65536))).2.isSome) ∧
    (let m := move0 (.add 0x1000000080 0x9000 128)
     let r := (moveState m).prUpdate m.pa (fun _ => none)
     m.was ≠ 3 ∧ r.2.isSome ∧
      (devWrite (r.1.tileAgent m) 0x9000 (clean (toBytes 8 (prAddr (r.2.getD [])) ++ toBytes 8 0x1000000080 ++ toBytes 16 0))
        r.1).2.isOk = true) ∧
    (let m := { move0 (.move 0x1000000080 128) with faulted := true }
     m.faulted = true ∧ (moveState m).canPost (nodeOf m.pa) (m.ctx + 1) = true) := by
  decide +kernel

/-- A device other than the own one. -/
theorem other_device : ∃ n < 2 ^ 18, n ≠ Config.deviceNumber.toNat ∧ n ∈ [0, 1] := by
  by_cases h : 0 = Config.deviceNumber.toNat
  · exact ⟨1, by decide, by omega, by decide⟩
  · exact ⟨0, by decide, h, by decide⟩

/-- A walk that lanes 0 and 1 wait for. -/
def walk0 : Walk := { node := 0, hyp := false, asid := 0, vmid := 0, secure := false, page := 0, requesters := [.lanes 0 3] }

/-- A copy within a window whose one packet is to be performed, and one whose copying has faulted. -/
def packetCopy : Copy := { copy0 with todo := [⟨0, 0, 16⟩] }
def faultedCopy : Copy := { copy0 with fault := some (7, 0x100, false, false) }

/-- Context 1 with an open fault queue at 0x3000. -/
def sfqState : State :=
  { on (gang0 .user) block0 with
    ctxs := [(1, { sfq := 0x3000 })], stlb := [(0, [{ page0 with ms := true }])], elide := [(96, 0), (256, 0)],
    hbm := [(0x3001, 0x80), (0x3008, 4), (0x3009, 0x80)] }

theorem witness_FabricEventResults_copies :
    ({ State.reset with walks := [(0, walk0)] } : State).walks.find? 0 = some walk0 ∧
    ({ State.reset with walks := [(0, walk0)] } : State).walking walk0 = true ∧
    ({ State.reset with walks := (List.range 17).map fun n => (n, { walk0 with no := n }) } : State).walking { walk0 with no := 16 } = false ∧
    (∀ n, packetCopy.todo[n % packetCopy.todo.length]? = some ⟨0, 0, 16⟩) ∧
    (let s := { sfqState with copies := [(0, packetCopy)] }
     packetCopy.fault = none ∧ packetCopy.awaiting = none ∧ packetCopy.arrived = [] ∧ packetCopy.counters = [] ∧
      s.copySite packetCopy packetCopy.srcAt packetCopy.src false 0 = .ls 0 256 ∧
      packetCopy.dsts.map (fun d => s.copySite packetCopy d packetCopy.dst packetCopy.multi 0) = [.ls 0 64] ∧
      (s.blocks.find? 0).isSome) ∧
    (let s := { sfqState with copies := [(0, faultedCopy)] }
     faultedCopy.gang = some 0 ∧ s.canPost 0 2 = true ∧ s.gangLives 0 = true ∧
      ((s.post 0 2 (s.copyRecord faultedCopy 7 0x100 false false)).2).isSome) := by
  refine ⟨rfl, by decide +kernel, by decide +kernel, fun n => ?_, by decide +kernel, by decide +kernel⟩
  show [(⟨0, 0, 16⟩ : Packet)][n % 1]? = some ⟨0, 0, 16⟩
  rw [Nat.mod_one]; rfl

/-- An entry of a combining buffer, and a load of 4 bytes by lane 0, for device `d`. -/
def combined0 (d : Nat) : Combine := { gang := 0, device := d, base := 0, bytes := [(0, 7)], writer := [(0, 0)], pc := 64, lane := 0 }
def load0 (d : Nat) : Request :=
  { gang := some 0, lane := 0, pc := 64, device := d, seq := 0, offset := 0, kind := .load 4, origin := .load, vmid := 0, secure := false,
    parts := [(0, { off := 0, n := 4 })] }
def fabricState (d : Nat) (r : Request) : State :=
  { on (gang0 .user) block0 with requests := [(0, r)], combine := [(0, [combined0 d])], now := 200000 }

theorem witness_FabricEventResults_requests :
    ∃ d, d ≠ Config.deviceNumber.toNat ∧ (load0 d).device = d ∧
      (let s := fabricState d (load0 d)
       (s.combine.get [] 0)[0]? = some (combined0 d) ∧ s.canSend d 1 = true ∧ (load0 d).idle = false ∧ (∀ p ∈ (load0 d).parts, p.2.own = []) ∧
        s.gangs.find? 0 = some (gang0 .user) ∧ ((gang0 .user).lane 0).life = .running ∧ ([1, 2, 3, 4] : List Byte).length = 4 ∧
        s.undeliverable { load0 d with nacked := some 0 } = true) ∧
      (let r := { load0 d with idle := true, nackAt := 0 }
       r.idle = true ∧ r.nackAt + 1000 ≤ (fabricState d r).now) := by
  obtain ⟨d, -, h, m⟩ := other_device
  refine ⟨d, h, rfl, ?_⟩
  simp only [List.mem_cons, List.not_mem_nil, or_false] at m
  obtain rfl | rfl := m <;> decide +kernel

theorem witness_FabricEventResults_younger (s : State) (d n : Nat) (h : s.now < n + 100000) :
    s.undeliverable { load0 d with sentAt := n } = false := by
  simp [State.undeliverable, load0, Nat.not_le.mpr h]

theorem witness_FabricEventResults_window :
    ({ fabricState 1 (load0 1) with requests := (List.range 4096).map fun i => (i, load0 1) } : State).canSend 1 1 = false := by
  decide +kernel

/-- A valid entry of the job-binding table for VMID 0, with window base 0; an outcome recorded for a source. -/
def boundState (d : Nat) : State :=
  { sfqState with elide := [(0, 0), (24576, 0)], hbm := [(0x300000, 1)], dups := [(d, [(5, .ack)])] }

theorem witness_FabricEventResults_arrivals :
    ∃ d, d ≠ Config.deviceNumber.toNat ∧ (boundState d).recordedReply d 5 (.store [(64, 1)]) = some .ack ∧
      (boundState d).recordedReply d 6 (.store [(64, 1)]) = none ∧
      (let b := (boundState d).binding 0 false
       ∃ ag, b.2 = some (ag, 0) ∧ (b.1.windowBytes ag .write 0 [64]).2.isOk = true) := by
  obtain ⟨d, -, h, m⟩ := other_device
  simp only [List.mem_cons, List.not_mem_nil, or_false] at m
  refine ⟨d, h, ?_, ?_, ⟨0, false, 0, 0, false, false⟩, ?_⟩ <;> obtain rfl | rfl := m <;> decide +kernel

theorem witness_FabricEventResults_links :
    (∀ l ∈ [({} : Link), { replays := 15 }, { replays := 255 }], l.dead = false ∧ l.training = false) ∧
    (∀ l ∈ [{ training := true, attempts := 1 }, ({ training := true, attempts := 2 } : Link)], l.dead = false ∧ l.training = true) ∧
    (∀ k ∈ [0, 30], isLink k = true ∧ isFarLink k = false ∧ linkInUse k = true) ∧
    (∀ k ∈ [31, 288], isLink k = false ∧ isFarLink k = false) := by
  decide +kernel

/-- Lane 0 of a gang waits for word 512 of memory to differ from `v`, until its die's counter reaches 100. -/
def waiting0 (v : DWord) (seat : MonSeat) : Monitor :=
  { core := 0, place := .mem 512, seat := seat, pending := true, waiters := [⟨.lane 0 0, .waita .ne .n32 v 0, some 100, none⟩] }
def waitGang : Gang := { gang0 .user with waits := [⟨1, 64, .monitor 1 20 false none⟩] }
def waitState (M : Monitor) (now : Nat) : State :=
  { State.reset with gangs := [(0, waitGang)], monitors := [(0, M)], now := now }

theorem witness_FabricEventResults_monitors (seat : MonSeat) (v : DWord) :
    let M := waiting0 v seat
    (∀ m ∈ (waitState M 0).monitors, ∀ w ∈ m.2.waiters, w.ended = none) ∧ M.pending = true ∧ M.seat = seat ∧
      (waitState M 0).watched M.place = (0, false) ∧
      (∀ w ∈ M.waiters, w.who = .lane 0 0 ∧ w.limit = some 100) ∧ (waitState M 0).blocks = [] ∧
      waitGang.waits = [⟨laneBit 0, 64, .monitor 1 20 false none⟩] ∧ (waitGang.lane 0).life = .running ∧
      ((waitState M 0).counter 0).toNat < 100 ∧ 100 ≤ ((waitState M 100).counter 0).toNat := by
  refine ⟨?_, rfl, rfl, ?_, ?_, rfl, by decide +kernel, by decide +kernel, ?_, ?_⟩
  · simp [waitState, waiting0]
  · show State.reset.watched (.mem 512) = _
    decide +kernel
  · simp [waiting0]
  · show (({ State.reset with now := 0 } : State).counter 0).toNat < 100
    decide +kernel
  · show 100 ≤ (({ State.reset with now := 100 } : State).counter 0).toNat
    decide +kernel

theorem witness_FabricEventResults_conditions :
    (∀ w ∈ (waiting0 0 .core).waiters, w.cond.holds 0 = false) ∧ (∀ w ∈ (waiting0 5 .core).waiters, w.cond.holds 0 = true) ∧
    State.reset.lost (.mem 512) (.waita .ne .n32 0 0) = false ∧ State.reset.lost (.mem 512) (.resolve 5) = true := by
  decide +kernel

/-- A protocol of three roles and three states: in state 0 role 0 may send kind 5 to role 1, while role 2 observes, or end the
conversation with kind 7; in state 1 role 1 may end it with kind 6. -/
def turns0 : List Byte :=
  [0x52, 0x50, 0x4C, 0x4F, 1, 0, 3, 0, 3, 0, 3, 0, 68, 0, 0, 0] ++ List.replicate 16 0 ++
    [0, 0, 2, 0, 4, 0, 0, 0] ++ [2, 0, 1, 1, 4, 0, 0, 0] ++ [3, 0, 0, 0, 0, 0, 0, 0] ++ [5, 1, 0, 0] ++ [7, 2, 0, 0] ++ [6, 2, 0, 0]

/-- A home in that protocol, whose three roles gang 0 holds, and a send of a kind by a role. -/
def tableHome (st : Nat) (credits : Nat) : Home :=
  { gen := 1, status := .opened, table := turns0, st := st, roles := List.replicate 3 { holder := some ⟨none, 0⟩, credits := credits } }
def send0 (role : Nat) (kind : BitVec 8) : Send := ⟨0, ⟨none, 0⟩, 3, 1, role, kind, []⟩

/-- The turn by which a send of a kind would be taken. -/
def turnOf (H : Home) (kind : BitVec 8) : Option Nat := (ptTurnsOf H.table H.st).find? fun v => turnKind v == kind.toNat

theorem witness_ConversationAndSaveEventResults_judgements :
    ptInvalid turns0 = none ∧
    ({ tableHome 0 8 with status := .closed } : Home).status ≠ .opened ∧ ({ send0 0 5 with gen := 2 } : Send).gen ≠ (tableHome 0 8).gen ∧
    (∀ st < 3, ∀ c ∈ [0, 8], (tableHome st c).status = .opened ∧ (send0 0 5).gen = (tableHome st c).gen ∧
      (tableHome st c).roles.length ≤ 3 ∧ ∀ r < 3, ((tableHome st c).role r).holder = some (send0 r 5).who) ∧
    ((tableHome 0 8).role 0).holder ≠ some ⟨none, 1⟩ ∧
    turnOf (tableHome 0 8) 9 = none ∧ rowCount (ptRow turns0 2) = 0 ∧ rowSender (ptRow turns0 1) ≠ 0 ∧
    (turnOf (tableHome 0 8) 5).isSome ∧ (turnOf (tableHome 0 8) 7).isSome ∧ (turnOf (tableHome 1 8) 6).isSome ∧
    rowCount (ptRow turns0 0) ≠ 0 ∧ rowSender (ptRow turns0 0) = 0 ∧
    addressee turns0 0 1 = some 1 ∧ observers turns0 0 (some 1) = [2] ∧ addressee turns0 0 2 = none ∧
    (∀ r ∈ [1, 2], ((tableHome 0 0).role r).credits = 0 ∧ ((tableHome 0 8).role r).credits ≠ 0 ∧ r < (tableHome 0 8).roles.length) := by
  decide +kernel

theorem home_handle (n : Nat) (H : Home) (h : H.gen = 1) : H.handle n < 18446744073709551616 ∨ 4294967296 ≤ n := by
  have b := Config.deviceNumber.isLt
  simp only [Home.handle, h]
  generalize Config.deviceNumber.toNat = d at *
  omega

/-- The small state with a home that asks another device to take an entry, and entries on their way back to role 0. -/
def ask0 (H : Home) : Request :=
  { gang := none, lane := 0, pc := 0, device := 1, seq := 0, offset := 0, origin := .conv, vmid := 0, secure := false,
    kind := .conv (.deliver (BitVec.ofNat 64 (H.handle 0)) 0 0 1 false 1 5 3 []), nacked := some 0 }
def homeState (H : Home) : State :=
  { on (gang0 .user) block0 with
    homes := [(0, H)], now := 200000, back := [(convKey (H.handle 0) 0, [⟨1, false, 1, 5, 3, []⟩])], requests := [(0, ask0 H)] }

theorem witness_ConversationAndSaveEventResults_homes :
    (∀ (r : Nat) (kind : BitVec 8), let H := { tableHome 0 8 with sends := [send0 r kind] }
      (homeState H).homes.find? 0 = some H ∧ H.sends = send0 r kind :: [] ∧ H.spilled = false ∧ (send0 r kind).gen < 65536) ∧
    (({ tableHome 0 8 with sends := [send0 0 5] } : Home).judge (send0 0 5)).isSome ∧
    ({ tableHome 0 0 with sends := [send0 0 5] } : Home).judge (send0 0 5) = none ∧
    (let H : Home := { gen := 1, status := .opened, roles := [{ holder := some ⟨none, 0⟩, owed := 1, queue := [⟨1, false, 1, 5, 3, []⟩] }],
                       stalled := 1 }
     (H.role 0).owed ≠ 0 ∧ (H.role 0).holder = some ⟨none, 0⟩ ∧ (H.role 0).queue = ⟨1, false, 1, 5, 3, []⟩ :: [] ∧
      ((homeState H).gangs.find? 0).isSome ∧ ({ homeState H with back := [] } : State).back.get [] (convKey (H.handle 0) 0) = [] ∧
      H.stalled.getLsbD 0 = true ∧ (homeState H).joinedTo (0 / 16) (H.handle 0) = true ∧ 0 / 65536 < 128 ∧ H.gen < 65536) := by
  refine ⟨fun r kind => ⟨rfl, rfl, rfl, by show (1 : Nat) < 65536; decide⟩, by decide +kernel, by decide +kernel, ?_⟩
  exact ⟨by decide, rfl, rfl, rfl, rfl, by decide, rfl, by decide, by decide⟩

theorem witness_ConversationAndSaveEventResults_returns (H : Home) :
    (homeState H).back.get [] (convKey (H.handle 0) 0) ≠ [] := by
  simp [homeState, SMap.get, SMap.find?]

theorem asked_delivers (s : State) (r : Request) (x : Nat) (b : x < 18446744073709551616)
    (k : r.kind = .conv (.deliver (BitVec.ofNat 64 x) 0 0 1 false 1 5 3 [])) (h : s.requests = [(0, r)]) : s.deliveries x 0 = [r] := by
  simp [State.deliveries, h, k, Nat.mod_eq_of_lt b]

theorem cannot_deliver (H : Home) (b : H.handle 0 < 18446744073709551616) : (homeState H).cannotDeliver 0 0 H = true := by
  have d := asked_delivers (homeState H) (ask0 H) (H.handle 0) b rfl rfl
  have u : (homeState H).undeliverable (ask0 H) = true := by
    have : (homeState H).now = 200000 := rfl
    simp [State.undeliverable, this, ask0]
  simp [State.cannotDeliver, d, u]

theorem stalls_of (H : Home) (b : H.handle 0 < 18446744073709551616) (h : H.stalled = 0) : (homeState H).stallsNow 0 0 = true := by
  have a : (homeState H).homes.find? 0 = some H := rfl
  have p : (homeState H).canPost (0 / 65536) (H.ctx + 1) = true := by
    have : (homeState H).overflow = [] := rfl
    simp [State.canPost, this, SMap.get]
  simp [State.stallsNow, a, cannot_deliver H b, h] at p ⊢
  exact p

theorem witness_ConversationAndSaveEventResults_stalls :
    (∃ H, (homeState H).stallsNow 0 0 = true ∧ (homeState H).homes.find? 0 = some H ∧ H.gen < 65536 ∧ 0 < H.roles.length) ∧
    (∃ H, H.stalled.getLsbD 0 = true ∧ (homeState H).cannotDeliver 0 0 H = true) ∧
    ∃ H, H.stalled.getLsbD 0 = true ∧ { homeState H with requests := [] }.cannotDeliver 0 0 H = false := by
  have h := home_handle 0 home0 rfl
  have h' := home_handle 0 { home0 with stalled := 1 } rfl
  refine ⟨⟨home0, stalls_of home0 (h.resolve_right (by decide)) rfl, rfl, by decide, by decide⟩,
    ⟨{ home0 with stalled := 1 }, by decide, cannot_deliver _ (h'.resolve_right (by decide))⟩, { home0 with stalled := 1 }, by decide, ?_⟩
  simp [State.cannotDeliver, State.deliveries, Home.role, home0]

theorem witness_ConversationAndSaveEventResults_overflow :
    let s := { sfqState with overflow := [(0, [⟨0, 2, mkRecord 8 0 0 6 0 0 0 0 [], none⟩])] }
    let q := s.queueOpen 0 2
    s.nextHeld 0 (s.overflow.get [] 0) = some ⟨0, 2, mkRecord 8 0 0 6 0 0 0 0 [], none⟩ ∧ q.2 = some (0x8000, 4) ∧
      (q.1.postInto 0 2 0x8000 4 (mkRecord 8 0 0 6 0 0 0 0 [])).2.isSome := by
  decide +kernel

/-- Lanes parked on token 5 beside one on whose record nothing has been decided, one resumed and one to be killed. -/
theorem witness_ConversationAndSaveEventResults_parked :
    ∀ res ∈ [0, 1, 2], let s := tokenState parkedGang res []
      s.gangs.find? 0 = some parkedGang ∧ parkedGang.waits[0]? = some ⟨4, 64, .parked 5⟩ ∧
      ((s.recordAt 0 5).2.map fun r => (ofBytes ((r.2.drop 0x60).take 8))) = some res.toNat := by
  decide +kernel

/-- A save of context 1 under way on die 0, whose area starts at 0 of a page of the hypervisor; every lane of the block's gang
waits at a barrier. -/
def save0 : SaveJob := { load := false, ctx := 1, area := 0, secure := false, used := 0 }
def savedState : State :=
  { on { gang0 .user with waits := [⟨0xFFFFFFFF, 64, .bar (.gang 0) 0⟩] } block0 with
    stlb := [(0, [{ page0 with hyp := true }])], saves := [(0, save0)] }

theorem devWrite_ok {ag : Agent} {a : DWord} {s : State} (h : a.toNat / 2 ^ 48 = 0) (t : (translateNow ag .write a.toNat s).2.isOk = true)
    (bs : List PByte) : (devWrite ag a bs s).2 = .ok () := by
  obtain ⟨e, q⟩ := ok_of t
  unfold devWrite
  rw [if_neg (by rw [h]; decide)]
  generalize translateNow ag .write a.toNat s = r at q
  obtain ⟨u, v⟩ := r
  obtain rfl : v = .ok e := q
  rfl

theorem writePieces_ok {ag : Agent} {a : DWord} {s : State} {bs : List Byte} (h : a.toNat / 2 ^ 48 = 0)
    (t : (translateNow ag .write a.toNat s).2.isOk = true) (n : Nat) (b : bs ≠ []) (l : bs.length ≤ 65536 - a.toNat % 65536) :
    (writePieces ag a bs s (n + 2)).2 = .ok () := by
  have m : Nat.min bs.length (65536 - a.toNat % 65536) = bs.length := Nat.min_eq_left l
  have e := devWrite_ok (bs := clean bs) h t
  rw [writePieces, if_neg (by simpa using b)]
  simp only [m, List.take_length, List.drop_length]
  generalize devWrite ag a (clean bs) s = r at e
  obtain ⟨u, v⟩ := r
  obtain rfl : v = .ok () := e
  simp [writePieces]

theorem savedBytes_length (w i n : Nat) : (savedBytes w i n).length = n := by simp [savedBytes]

theorem witness_ConversationAndSaveEventResults_evictions :
    savedState.blocks.find? 0 = some block0 ∧ savedState.saves.find? 0 = some save0 ∧ savedState.evictable 0 block0 = true ∧
    (∀ k ∈ block0.gangs, savedState.outstanding k = 0) ∧ savedState.canTell (block0.gangs.filterMap savedState.gangs.find?) = true ∧
    (let r := savedState.releaseAt 0 .pkg
     let size := imageSize block0 (block0.gangs.filterMap r.gangs.find?)
     let t := translateNow (saveAgent 0 save0) .write 0 r
     t.2.isOk = true ∧ ∀ w i, (writePieces (saveAgent 0 save0) 0 (savedBytes w i size) t.1 pieceFuel).2 = .ok ()) := by
  refine ⟨rfl, rfl, by decide +kernel, by decide +kernel, by decide +kernel, by decide +kernel, fun w i => ?_⟩
  have e : imageSize block0 (block0.gangs.filterMap (savedState.releaseAt 0 .pkg).gangs.find?) = 40960 := by decide +kernel
  rw [e]
  refine writePieces_ok rfl (by decide +kernel) 254 ?_ ?_
  · intro h
    have := congrArg List.length h
    rw [savedBytes_length] at this
    cases this
  · rw [savedBytes_length]
    decide

theorem witness_ConversationAndSaveEventResults_saves :
    (let s := { State.reset with saves := [(0, save0)] }
     s.saves.find? 0 = some save0 ∧ save0.load = false ∧ s.blocksAt 0 = [] ∧ save0.expired = false ∧ save0.graceEnd ≤ s.now ∧
      s.canPost 0 0 = true ∧ s.canPost 0 (save0.ctx + 1) = true) ∧
    (let j := { save0 with load := true }
     j.load = true ∧ j.todo = 0) ∧
    savedState.saves.find? 0 = some save0 ∧ (∃ G, savedState.gangs.find? 0 = some G ∧ G.live ≠ 0) :=
  ⟨⟨rfl, rfl, rfl, rfl, Nat.zero_le _, rfl, rfl⟩, ⟨rfl, rfl⟩, rfl, _, rfl, by decide +kernel⟩

theorem witness_StepRunsTheDecodedInstruction_lines :
    (bootState { length := some 4096 }).tick.actions = [.own .imageVerified] ∧
    (let a := exitFetch.asker 0 exitGang 0xFFFFFFFF .user
     let r := exitFetch.lookup a .exec 0x100000000000
     (match r.2 with | .ok T => (let bs := (r.1.homeRead (T.addr 0x100000000000) 64).2
       decide (T.addr 0x100000000000 / 64 * 64 = T.addr 0x100000000000) && !T.ms && bs.all (!·.2) && (r.1.core a.core).icache.isEmpty &&
         decide (BitVec.ofNat 512 (ofBytes (bs.map (·.1))) = exitLine.data)) | _ => false) = true) ∧
    exitLine.parityOk 0 = true ∧ exitLine.lword.extractLsb' 16 15 = 0 ∧ exitLine.lword.extractLsb' 14 2 = lineKind .thread := by
  decide +kernel

-- The assembler and the loader

/-- The word that a line of source stands for, at `bump` + 0x64 with `loop` at `bump` + 0x0C. -/
def assembled (e : Engine) (line : String) : Except Olas.Code IWord :=
  let at_ : Olas.Scene := { engine := e, here := 0x64, kind := 1, look := fun _ => .ok (.rel (.sec 1) 0x0C .whole) }
  match (Olas.tokens line.toList).map Olas.readSource with
  | some (.ok r) => (at_.instr r).map fun x => x.2.f.word
  | some (.error c) => .error c
  | none => .error .e101

/-- Source and encodings of Table 7.12. -/
theorem test_source_to_words :
    assembled .thread "ADD.n64 x8.d, x8.d, 128" = .ok 0x210770808000001000000080 ∧
    assembled .thread "SUB.i32 x6, x6, 1" = .ok 0x220270606000001000000001 ∧
    assembled .thread "CMP.gt.i32 p1, x6, 0" = .ok 0x2C4270106000001000000000 ∧
    assembled .thread "(p1) BRA loop" = .ok 0x0100100000000000FFFFFFA8 ∧
    assembled .thread "EXIT" = .ok 0x070070000000000000000000 := by decide +kernel

/-- Faults of Tables 4.2 and 4.8: a pair of an odd number, a register beyond its bank, an unknown mnemonic, one of another engine. -/
theorem test_source_refused :
    assembled .thread "ADD.n64 x9.d, x8.d, 128" = .error .e111 ∧ assembled .thread "ADD.i32 x256, x8, 1" = .error .e110 ∧
    assembled .thread "FROB x1" = .error .e102 ∧ assembled .thread "MMA acc0" = .error .e114 := by decide +kernel

/-- The excerpt of Table 4.5. -/
def bumpSource : String :=
  "  .section .text.thread\n .kernel bump\n .alloc regs=16\n MOV.n32 x6, 4 ; rows left\nloop: LD.n32 x5, [x8+0]\n" ++
  " ADD.i32 x5, x5, 1\n ST.n32 [x8+0], x5\n ADD.n64 x8.d, x8.d, 128 || SUB.i32 x6, x6, 1\n CMP.gt.i32 p1, x6, 0\n" ++
  " (p1) BRA loop\n EXIT\n .endk\n"

/-- Its first line keeps slot 4 for a `NOP` with W202; its masks are Table 4.5's, and its second line word is 0x0000_1020 as the
text after Table 7.12 works it out. -/
theorem test_source_to_image :
    (let r := Olas.olas [("bump.s", bumpSource)] ["bump.s"]
     let bs := ((r.image.map (·.2.sections)).getD []).flatMap (·.bytes)
     r.status == 0 && r.diags.any (fun d => d.code == .w202 && d.line == 8) && bs.length == 128 &&
       field bs 60 4 % 512 == 0x003 && field bs 124 4 == 0x1020 && field bs 48 12 == 0x000070000000000000000000 &&
       field bs 112 12 == 0x070070000000000000000000) = true := by decide +kernel

/-- The placement record at `ptab` + 0x40 of chapter 18. -/
theorem test_placerec :
    (let num := fun (n : Nat) => [Olas.Tok.num n]
     let key := fun (k : String) (v : List Olas.Tok) => Olas.Tok.id k :: .op "=" :: v
     (Olas.makePlace (fun _ => .error .e105) ⟨"tiles.s", 0⟩
      [num 2, num 0, num 0, num 0, key "home" (num 1), key "state" [.id "replicated"], key "repl" (num 1), num 8,
        key "taddr" [.num 0x41000000000, .op "+", .num 0x800]]).bytes) =
      [2, 0, 0, 0, 0, 0, 0, 0, 1, 3, 0, 0, 0, 0, 0, 3, 1, 8, 0, 0, 0, 0, 0, 0, 0, 8, 0, 0, 0x10, 4, 0, 0] := by decide +kernel

/-- An image of one line, `MOV.n32 x16` in slot 0, and a datum whose address goes into IMM (Table 4.6, kind 0x02). -/
def movImage : KernelImage :=
  { name := []
    sections := [⟨.thread, 6, toBytes 64 (0x00000000 * 2 ^ 480 + 0x3006701000000010 * 2 ^ 32)⟩, ⟨.data, 6, [1, 2, 3, 4]⟩]
    relocs := [{ off := 0, target := 0, kind := 2, base := 1, add := 3 }] }

/-- The loader writes V into IMM and computes the line's parity anew (R81); what is written reads back (R31); a patched field that
is no IMM field is refused. -/
theorem test_loader :
    (match (KernelImage.read movImage.bytes).bind fun m => m.load ⟨[0x40000, 0x80000, 0], []⟩ with
     | .ok [(a, s), (b, t)] => a == 0x40000 && b == 0x80000 && field s.bytes 0 4 == 0x80003 && t.bytes == [1, 2, 3, 4] &&
        ({ tag := 0, data := BitVec.ofNat 512 (ofBytes s.bytes), poison := false } : Line).parityOk 0
     | _ => false) = true ∧
    { movImage with relocs := [{ off := 4, target := 0, kind := 2, base := 1, add := 0 }] }.load ⟨[0, 0], []⟩ = .error .relocField := by
  decide +kernel

end Sys2Proof.Tests
end

section
/-! SUPPORT. The board's own parts, and what operations over memory and posts of records leave of them. -/

namespace Sys2Proof.SMap

variable {α : Type}

/-- A table read after a put. -/
theorem get_put (d : α) (m : SMap α) (n n' : Nat) (v : α) : get d (put m n v) n' = if n' = n then v else get d m n' := by
  simp only [get]
  split
  · next h => simp [h]
  · next h => rw [find?_put_of_ne m v h]

@[simp] theorem get_put_self (d : α) (m : SMap α) (n : Nat) (v : α) : get d (put m n v) n = v := by simp [get_put]

/-- A table with a default read after a write. -/
theorem get_write [DecidableEq α] (d : α) (m : SMap α) (n n' : Nat) (v : α) :
    get d (write d m n v) n' = if n' = n then v else get d m n' := by
  split
  · next h => rw [h, get_write_self]
  · next h => exact get_write_of_ne m v h

end Sys2Proof.SMap

namespace Sys2Proof.Machine

-- What memory leaves of the board

/-- The parts of the device that no access to memory and no post of a record changes: bring-up, the clusters, the dies and the
counters' offsets. -/
def State.board (s : State) : Boot × SMap Cluster × SMap Die × SMap Int := (s.boot, s.clusters, s.dies, s.skew)

theorem board_eq_iff {s t : State} :
    t.board = s.board ↔ t.boot = s.boot ∧ t.clusters = s.clusters ∧ t.dies = s.dies ∧ t.skew = s.skew := by
  simp [State.board]

/-- A fold whose steps keep the board keeps it. -/
theorem board_foldl {α : Type} {f : State → α → State} (hf : ∀ s x, (f s x).board = s.board) (xs : List α) (s : State) :
    (xs.foldl f s).board = s.board := by
  induction xs generalizing s with
  | nil => rfl
  | cons x xs ih => rw [List.foldl_cons, ih, hf]

theorem board_dramBlock (s : State) (b : Nat) (es : SMap PByte) : (s.dramBlock b es).board = s.board := by
  simp only [State.dramBlock]
  split
  · split <;> rfl
  · rfl

theorem board_dramWrite (s : State) (ws : SMap PByte) : (s.dramWrite ws).board = s.board :=
  board_foldl (fun s (g : Nat × SMap PByte) => board_dramBlock s g.1 g.2) (groupBy 128 ws) s

theorem board_mailed (s : State) (ws : SMap PByte) : (s.mailed ws).board = s.board := by
  simp only [State.mailed]
  split <;> rfl

@[simp] theorem board_homeWrite (s : State) (ws : SMap PByte) : (s.homeWrite ws).board = s.board :=
  (board_mailed _ ws).trans (board_dramWrite s ws)

@[simp] theorem board_baseWrite (s : State) (ws : SMap PByte) : (s.baseWrite ws).board = s.board :=
  (board_mailed _ ws).trans (board_dramWrite s ws)

theorem boot_homeWrite (s : State) (ws : SMap PByte) : (s.homeWrite ws).boot = s.boot :=
  (board_eq_iff.mp (board_homeWrite s ws)).1

theorem skew_homeWrite (s : State) (ws : SMap PByte) : (s.homeWrite ws).skew = s.skew :=
  (board_eq_iff.mp (board_homeWrite s ws)).2.2.2

@[simp] theorem board_homeRead (s : State) (pa n : Nat) : (s.homeRead pa n).1.board = s.board :=
  board_foldl (f := fun s x => (s.homeSector x).1) (fun _ _ => rfl) _ s

/-- What an operation that answers `(t, r)` leaves of the board, read off its answer. -/
theorem board_of_eq {α : Type} {s t : State} {r : α} {q : State × α} (h : q = (t, r)) (hq : q.1.board = s.board) :
    t.board = s.board := by
  rw [h] at hq
  exact hq

/-- A read of a translation entry that keeps the board. -/
def EntryRead.KeepsBoard (rd : EntryRead) : Prop := ∀ s a, (rd s a).1.board = s.board

theorem keepsBoard_entryAt (host : Bool) : (entryAt host).KeepsBoard := by
  intro s a
  simp only [entryAt]
  split <;> simp

theorem board_walkLevels (guest : Bool) {rd : EntryRead} (hr : rd.KeepsBoard) (a : Nat) (ls : List (Nat × Nat)) (table : Nat)
    (s : State) : (walkLevels guest rd a ls table s).1.board = s.board := by
  induction ls generalizing table s with
  | nil => rfl
  | cons l ls ih =>
    obtain ⟨sh, n⟩ := l
    have he := hr s (table + 8 * (a / 2 ^ sh % 2 ^ n))
    simp only [walkLevels]
    split
    · exact board_of_eq ‹_› he
    · have he := board_of_eq ‹_› he
      split
      · exact he
      · split
        · exact he
        · split
          · exact (ih _ _).trans he
          · exact he

theorem board_hostWalk (vmid ia : Nat) (s : State) : (hostWalk vmid ia s).1.board = s.board := by
  have he := keepsBoard_entryAt true s (rootTable + 32 * vmid)
  simp only [hostWalk]
  split
  · rfl
  · split
    · exact board_of_eq ‹_› he
    · have he := board_of_eq ‹_› he
      split
      · exact he
      · split
        · exact he
        · exact (board_walkLevels false (keepsBoard_entryAt true) _ _ _ _).trans he

theorem keepsBoard_guestEntry (vmid : Nat) (secure : Bool) : (guestEntry vmid secure).KeepsBoard := by
  intro s ia
  have hw := board_hostWalk vmid ia s
  simp only [guestEntry]
  split
  · exact board_of_eq ‹_› hw
  · have hw := board_of_eq ‹_› hw
    split
    · exact hw
    · split
      · exact hw
      · exact (keepsBoard_entryAt _ _ _).trans hw

theorem board_fullWalk (ag : Agent) (va : Nat) (s : State) : (fullWalk ag va s).1.board = s.board := by
  simp only [fullWalk]
  split
  · have hw := board_hostWalk 0 va s
    split
    · exact board_of_eq ‹_› hw
    · split <;> exact board_of_eq ‹_› hw
  · have h₁ := keepsBoard_entryAt true s (rootTable + 32 * ag.vmid + 8)
    split
    · exact board_of_eq ‹_› h₁
    · next t gtab h =>
      have ht := board_of_eq h h₁
      have h₂ := (keepsBoard_guestEntry ag.vmid ag.secure t (gtab.toNat + 8 * ag.asid)).trans ht
      split
      · exact ht
      · split
        · exact board_of_eq ‹_› h₂
        · next u root h =>
          have hu := board_of_eq h h₂
          have h₃ := (board_walkLevels true (keepsBoard_guestEntry ag.vmid ag.secure) va levels root.toNat u).trans hu
          split
          · exact hu
          · split
            · exact hu
            · split
              · exact board_of_eq ‹_› h₃
              · next v g h =>
                have h₄ := (board_hostWalk ag.vmid (g.addr va) v).trans (board_of_eq h h₃)
                split
                · exact board_of_eq ‹_› h₄
                · split
                  · exact board_of_eq ‹_› h₄
                  · split <;> exact board_of_eq ‹_› h₄

theorem board_translateNow (ag : Agent) (acc : Access) (va : Nat) (s : State) :
    (translateNow ag acc va s).1.board = s.board := by
  unfold translateNow
  extract_lets r
  have hr : r.1.board = s.board := by
    have hw := board_fullWalk ag va s
    simp only [r]
    split
    · rfl
    · split
      · have ht := board_of_eq ‹_› hw
        exact ht
      · exact board_of_eq ‹_› hw
  clear_value r
  split
  · exact hr
  · split <;> exact hr

theorem board_devRead (ag : Agent) (a : DWord) (n : Nat) (s : State) : (devRead ag a n s).1.board = s.board := by
  have ht := board_translateNow ag .read a.toNat s
  simp only [devRead]
  split
  · rfl
  · split
    · exact board_of_eq ‹_› ht
    · split
      · exact board_of_eq ‹_› ht
      · exact (board_homeRead _ _ _).trans (board_of_eq ‹_› ht)

theorem board_devReadClean (ag : Agent) (a : DWord) (n : Nat) (s : State) : (devReadClean ag a n s).1.board = s.board := by
  have hd := board_devRead ag a n s
  simp only [devReadClean]
  split
  · exact board_of_eq ‹_› hd
  · split <;> exact board_of_eq ‹_› hd

theorem board_devWrite (ag : Agent) (a : DWord) (bs : List PByte) (s : State) : (devWrite ag a bs s).1.board = s.board := by
  have ht := board_translateNow ag .write a.toNat s
  simp only [devWrite]
  split
  · rfl
  · split
    · exact board_of_eq ‹_› ht
    · have ht := board_of_eq ‹_› ht
      split <;> simpa using ht

-- What a post leaves of the board

theorem board_queueOpen (s : State) (node q : Nat) : (s.queueOpen node q).1.board = s.board := by
  have hd := board_devReadClean (s.queueAt node q).1 (s.queueAt node q).2 32 s
  simp only [State.queueOpen]
  split
  · exact board_of_eq ‹_› hd
  · split <;> exact board_of_eq ‹_› hd

theorem board_postInto (s : State) (node q : Nat) (base : DWord) (size : Nat) (rec : List Byte) :
    (s.postInto node q base size rec).1.board = s.board := by
  simp only [State.postInto]
  split
  · exact board_of_eq ‹_› (board_devWrite _ _ _ _)
  · exact (board_devWrite _ _ _ _).trans (board_of_eq ‹_› (board_devWrite _ _ _ _))

theorem board_setOvf (s : State) (node q : Nat) : (s.setOvf node q).board = s.board := by
  simp only [State.setOvf]
  split
  · exact board_of_eq ‹_› (board_devRead _ _ _ _)
  · exact (board_devWrite _ _ _ _).trans (board_of_eq ‹_› (board_devRead _ _ _ _))

/-- A record posted leaves the board as it was, whether it reaches its queue or waits in the overflow. -/
theorem board_post (s : State) (node q : Nat) (rec : List Byte) : (s.post node q rec).1.board = s.board := by
  have hq := board_queueOpen s node q
  simp only [State.post]
  split
  · have ht := board_of_eq ‹_› hq
    exact (board_setOvf _ _ _).trans ht
  · next t base size h =>
    have hp := (board_postInto t node q base size rec).trans (board_of_eq h hq)
    split
    · have hu := board_of_eq ‹_› hp
      exact (board_setOvf _ _ _).trans hu
    · exact board_of_eq ‹_› hp

@[simp] theorem board_notifyUnit (s : State) (node kind cls n : Nat) : (s.notifyUnit node kind cls n).board = s.board :=
  board_post _ _ _ _

-- What firmware's own writes leave of the board

theorem board_mapPage (ls : List (Nat × Nat)) (s : State) (ia out free table : Nat) :
    (s.mapPage ia out free ls table).board = s.board := by
  induction ls generalizing s free table with
  | nil => rfl
  | cons l ls ih =>
    obtain ⟨sh, n⟩ := l
    simp only [State.mapPage, State.firmwareWrite]
    split
    · simp
    · split <;> simp [ih]

theorem board_mapMailbox (s : State) (h : HypLoad) : (s.mapMailbox h).board = s.board := by
  simp only [State.mapMailbox, State.firmwareWrite]
  split <;> simp [board_mapPage]

end Sys2Proof.Machine
end

section
/-! SUPPORT. Changes of clusters and dies, one by one and over a power region, and Bellows' preference list. -/

namespace Sys2Proof.Machine

-- One cluster, one die

theorem cluster_onCluster (s : State) (c : Nat) (f : Cluster → Cluster) (d : Nat) :
    (s.onCluster c f).cluster d = if d = c then f (s.cluster d) else s.cluster d := by
  simp only [State.onCluster, State.cluster, SMap.get_put]
  split
  · next h => rw [h]
  · rfl

theorem cluster_of_clusters {s t : State} (h : t.clusters = s.clusters) (c : Nat) : t.cluster c = s.cluster c := by
  simp only [State.cluster, h]

-- Changes of several clusters

/-- `t` is `s` but for the clusters in `cs`, each changed as `R` says, and for the times of the dies' last droop. -/
structure ClustersChanged (cs : List Nat) (R : Cluster → Cluster → Prop) (s t : State) : Prop where
  rest : { t with dies := s.dies, clusters := s.clusters } = s
  die : ∀ n, { t.dies.get {} n with droopAt := (s.dies.get {} n).droopAt } = s.dies.get {} n
  changed : ∀ c ∈ cs, R (s.cluster c) (t.cluster c)
  kept : ∀ c ∉ cs, t.cluster c = s.cluster c

/-- Where the clusters were changed after the dies. -/
theorem rest_of_withDies {s t : State} {d : SMap Die} (h : { t with dies := d, clusters := s.clusters } = { s with dies := d }) :
    { t with dies := s.dies, clusters := s.clusters } = s := congrArg (fun u : State => { u with dies := s.dies }) h

namespace ClustersChanged

variable {R : Cluster → Cluster → Prop} {s t u : State} {cs ds : List Nat}

theorem refl (s : State) : ClustersChanged [] R s s := ⟨rfl, fun _ => rfl, by simp, fun _ _ => rfl⟩

theorem rest_trans (h : ClustersChanged cs R s t) (h' : ClustersChanged ds R t u) :
    { u with dies := s.dies, clusters := s.clusters } = s := by rw [← h.rest, ← h'.rest]

/-- Changes of disjoint sets of clusters one after the other. -/
theorem trans (h : ClustersChanged cs R s t) (h' : ClustersChanged ds R t u) (hd : List.Disjoint cs ds) :
    ClustersChanged (cs ++ ds) R s u where
  rest := h.rest_trans h'
  die n := by rw [← h.die n, ← h'.die n]
  changed c hc := by
    rcases List.mem_append.mp hc with hc | hc
    · rw [h'.kept c (hd hc)]
      exact h.changed c hc
    · rw [← h.kept c (fun hs => hd hs hc)]
      exact h'.changed c hc
  kept c hc := by
    rw [List.mem_append, not_or] at hc
    rw [h'.kept c hc.2, h.kept c hc.1]

theorem limits (h : ClustersChanged cs R s t) : t.limits = s.limits :=
  have hl := congrArg State.limits h.rest
  hl

/-- A fold whose steps each change clusters of their own. -/
theorem foldl {α : Type} {step : State → α → State} {g : α → List Nat}
    (hs : ∀ s x, ClustersChanged (g x) R s (step s x)) (xs : List α) (hn : (xs.flatMap g).Nodup) (s : State) :
    ClustersChanged (xs.flatMap g) R s (xs.foldl step s) := by
  induction xs generalizing s with
  | nil => exact refl s
  | cons x xs ih =>
    rw [List.flatMap_cons, List.nodup_append'] at hn
    obtain ⟨-, hxs, hd⟩ := hn
    exact (hs s x).trans (ih hxs _) hd

end ClustersChanged

theorem clustersChanged_onCluster {R : Cluster → Cluster → Prop} {f : Cluster → Cluster} (hf : ∀ K, R K (f K)) (s : State)
    (c : Nat) : ClustersChanged [c] R s (s.onCluster c f) where
  rest := rfl
  die _ := rfl
  changed d hd := by
    rw [List.mem_singleton] at hd
    simpa [cluster_onCluster, hd] using hf _
  kept d hd := by
    rw [List.mem_singleton] at hd
    simp [cluster_onCluster, hd]

-- The clusters of a power region (R13, R15)

/-- The clusters of a die. -/
def dieClusters (n : Nat) : List Nat := (List.range 32).map (32 * n + ·)

theorem mem_dieClusters {c n : Nat} : c ∈ dieClusters n ↔ c / 32 = n := by
  simp only [dieClusters, List.mem_map, List.mem_range]
  constructor
  · rintro ⟨i, hi, rfl⟩; omega
  · exact fun h => ⟨c % 32, by omega, by omega⟩

theorem nodup_dieClusters (n : Nat) : (dieClusters n).Nodup :=
  List.nodup_range.map fun _ _ h => Nat.add_left_cancel h

theorem mem_regionNodes {n r : Nat} : n ∈ regionNodes r ↔ n / 8 = r := by
  simp only [regionNodes, List.mem_map, List.mem_range]
  constructor
  · rintro ⟨i, hi, rfl⟩; omega
  · exact fun h => ⟨n % 8, by omega, by omega⟩

theorem mem_regionClusters {c r : Nat} : c ∈ (regionNodes r).flatMap dieClusters ↔ c / 256 = r := by
  simp only [List.mem_flatMap, mem_regionNodes, mem_dieClusters]
  constructor
  · rintro ⟨n, hn, rfl⟩; omega
  · exact fun h => ⟨c / 32, by omega, rfl⟩

theorem nodup_regionClusters (r : Nat) : ((regionNodes r).flatMap dieClusters).Nodup := by
  have hn : (regionNodes r).Nodup := List.nodup_range.map fun _ _ h => Nat.add_left_cancel h
  refine List.nodup_flatMap.mpr ⟨fun n _ => nodup_dieClusters n, hn.imp fun hne c hc hc' => hne ?_⟩
  exact (mem_dieClusters.mp hc).symm.trans (mem_dieClusters.mp hc')

/-- A step at every cluster of a region, die by die, with the time of the droop noted for each die. -/
def State.overRegion (s : State) (r : Nat) (step : State → Nat → State) : State :=
  (regionNodes r).foldl (fun s n =>
    let die := s.dies.get {} n
    let s := { s with dies := s.dies.put n { die with droopAt := s.now } }
    (List.range 32).foldl (fun s c => step s (32 * n + c)) s) s

theorem clustersChanged_droopAt {R : Cluster → Cluster → Prop} (s : State) (n t : Nat) :
    ClustersChanged [] R s { s with dies := s.dies.put n { s.dies.get {} n with droopAt := t } } where
  rest := rfl
  die m := by
    simp only [SMap.get_put]
    split
    · next h => rw [h]
    · rfl
  changed := by simp
  kept _ _ := rfl

/-- What a step at every cluster of a region leaves, where each step changes its own cluster. -/
theorem clustersChanged_overRegion {R : Cluster → Cluster → Prop} {step : State → Nat → State}
    (hs : ∀ s c, ClustersChanged [c] R s (step s c)) (s : State) (r : Nat) :
    ClustersChanged ((regionNodes r).flatMap dieClusters) R s (s.overRegion r step) := by
  refine ClustersChanged.foldl (fun s n => ?_) _ (nodup_regionClusters r) s
  have hd : (List.range 32).flatMap (fun c => [32 * n + c]) = dieClusters n := by
    simp only [dieClusters, List.map_eq_flatMap]
  have hf := ClustersChanged.foldl (g := fun c => [32 * n + c]) (fun s c => hs s (32 * n + c)) (List.range 32)
    (hd ▸ nodup_dieClusters n)
  rw [hd] at hf
  exact (clustersChanged_droopAt s n s.now).trans (hf _) (List.disjoint_nil_left _)

-- Sorting by a measure

theorem insertBy_perm {α : Type} (f : α → Nat) (x : α) (ys : List α) : (insertBy f x ys).Perm (x :: ys) := by
  induction ys with
  | nil => exact .rfl
  | cons y ys ih =>
    simp only [insertBy]
    split
    · exact .rfl
    · exact (ih.cons y).trans (.swap x y ys)

theorem sortBy_perm {α : Type} (f : α → Nat) (xs : List α) : (sortBy f xs).Perm xs := by
  induction xs with
  | nil => exact .rfl
  | cons x xs ih => exact (insertBy_perm f x _).trans (ih.cons x)

theorem pairwise_insertBy {α : Type} (f : α → Nat) (x : α) {ys : List α} (h : ys.Pairwise (f · ≤ f ·)) :
    (insertBy f x ys).Pairwise (f · ≤ f ·) := by
  induction ys with
  | nil => simp [insertBy]
  | cons y ys ih =>
    obtain ⟨hy, hys⟩ := List.pairwise_cons.mp h
    simp only [insertBy]
    split
    · next hxy =>
      refine List.pairwise_cons.mpr ⟨fun z hz => ?_, h⟩
      rcases List.mem_cons.mp hz with rfl | hz
      · exact hxy
      · exact hxy.trans (hy z hz)
    · next hxy =>
      refine List.pairwise_cons.mpr ⟨fun z hz => ?_, ih hys⟩
      rcases List.mem_cons.mp ((insertBy_perm f x ys).mem_iff.mp hz) with rfl | hz
      · exact (not_le.mp hxy).le
      · exact hy z hz

theorem pairwise_sortBy {α : Type} (f : α → Nat) (xs : List α) : (sortBy f xs).Pairwise (f · ≤ f ·) := by
  induction xs with
  | nil => exact .nil
  | cons x xs ih => exact pairwise_insertBy f x ih

-- The preference list (R110)

theorem le_foldl_max (xs : List Nat) (m : Nat) : m ≤ xs.foldl Nat.max m := by
  induction xs generalizing m with
  | nil => exact le_rfl
  | cons x xs ih => exact (Nat.le_max_left m x).trans (ih _)

theorem getD_le_foldl_max (xs : List Nat) (i m : Nat) : xs.getD i 0 ≤ xs.foldl Nat.max m := by
  induction xs generalizing i m with
  | nil => simp
  | cons x xs ih =>
    cases i with
    | zero => simpa using (Nat.le_max_right m x).trans (le_foldl_max xs _)
    | succ i => simpa using ih i _

/-- The current of the other layer of a cluster's pair. -/
def otherCurrent (x : List Nat) (c : Nat) : Nat := if c % 2 = 0 then x.getD (c + 1) 0 else x.getD (c - 1) 0

/-- By how much the currents of a cluster's pair differ. -/
def currentGap (x : List Nat) (c : Nat) : Nat := apart (x.getD c 0) (otherCurrent x c)

theorem currentGap_le (x : List Nat) (c : Nat) : currentGap x c ≤ x.foldl Nat.max 0 := by
  have hc := getD_le_foldl_max x c 0
  have ho : otherCurrent x c ≤ x.foldl Nat.max 0 := by
    simp only [otherCurrent]
    split <;> exact getD_le_foldl_max _ _ _
  simp only [currentGap, apart]
  omega

/-- The measure by which R110 sorts the clusters of a die. -/
def preferenceRank (x : List Nat) (c : Nat) : Nat :=
  ((if x.getD c 0 < otherCurrent x c then 0 else 1) * (x.foldl Nat.max 0 + 1) + (x.foldl Nat.max 0 - currentGap x c)) * 32 + c

theorem preferences_eq (x : List Nat) : preferences x = sortBy (preferenceRank x) (List.range 32) := by
  have ho : ∀ c, x.getD (if c % 2 = 0 then c + 1 else c - 1) 0 = otherCurrent x c := fun c => apply_ite (x.getD · 0) _ _ _
  simp only [preferences, ho]
  rfl

/-- Of two clusters of a die, the one with the lower rank is the lighter of its pair, or else has the larger gap, or the lower
number. -/
theorem before_of_rank_le {x : List Nat} {c d : Nat} (hc : c < 32) (hd : d < 32) (hne : c ≠ d)
    (h : preferenceRank x c ≤ preferenceRank x d) :
    (x.getD d 0 < otherCurrent x d → x.getD c 0 < otherCurrent x c) ∧
    ((x.getD c 0 < otherCurrent x c ↔ x.getD d 0 < otherCurrent x d) →
      currentGap x d < currentGap x c ∨ currentGap x c = currentGap x d ∧ c < d) := by
  have hgc := currentGap_le x c
  have hgd := currentGap_le x d
  simp only [preferenceRank] at h
  constructor
  · intro hld
    by_contra hlc
    rw [if_pos hld, if_neg hlc] at h
    omega
  · intro hl
    simp only [hl] at h
    split at h <;> omega

theorem preferences_perm (x : List Nat) : (preferences x).Perm (List.range 32) := by
  rw [preferences_eq]
  exact sortBy_perm _ _

theorem preferences_pairwise (x : List Nat) : (preferences x).Pairwise fun c d =>
    (x.getD d 0 < otherCurrent x d → x.getD c 0 < otherCurrent x c) ∧
    ((x.getD c 0 < otherCurrent x c ↔ x.getD d 0 < otherCurrent x d) →
      currentGap x d < currentGap x c ∨ currentGap x c = currentGap x d ∧ c < d) := by
  have hp := preferences_perm x
  have hn : (preferences x).Pairwise (· ≠ ·) := hp.nodup_iff.mpr List.nodup_range
  have hs : (preferences x).Pairwise (preferenceRank x · ≤ preferenceRank x ·) := by
    rw [preferences_eq]
    exact pairwise_sortBy _ _
  have lt : ∀ {c}, c ∈ preferences x → c < 32 := fun h => List.mem_range.mp (hp.mem_iff.mp h)
  exact (hn.and hs).imp_of_mem fun hc hd h => before_of_rank_le (lt hc) (lt hd) h.1 h.2

-- The clusters that Bellows raises (R14)

/-- Whether a cluster of a die is the heavier of a pair that is more than 10 % apart. -/
def IsHeavy (n : Nat) (x : List Nat) (c : Nat) : Prop :=
  c / 32 = n ∧ otherCurrent x (c % 32) < x.getD (c % 32) 0 ∧ 10 * x.getD (c % 32) 0 < 100 * currentGap x (c % 32)

/-- The heavier cluster of a pair, where the pair is more than 10 % apart. -/
def heavyOf (n : Nat) (x : List Nat) (p : Nat) : Option Nat :=
  let a := x.getD (2 * p) 0
  let b := x.getD (2 * p + 1) 0
  if 100 * apart a b ≤ 10 * Nat.max a b then none else some (32 * n + 2 * p + if a < b then 1 else 0)

theorem heavier_eq (n : Nat) (x : List Nat) : heavier n x = (List.range 16).filterMap (heavyOf n x) := rfl

theorem heavyOf_pair {n : Nat} {x : List Nat} {p c : Nat} (h : heavyOf n x p = some c) : c / 2 = 16 * n + p := by
  simp only [heavyOf] at h
  split at h
  · cases h
  · simp only [Option.some.injEq] at h
    split at h <;> omega

theorem heavyOf_eq_some {n : Nat} {x : List Nat} {c : Nat} (hc : c / 32 = n) :
    heavyOf n x (c % 32 / 2) = some c ↔ IsHeavy n x c := by
  obtain ⟨p, e, hp, he, rfl⟩ : ∃ p e, p < 16 ∧ e < 2 ∧ c = 32 * n + 2 * p + e :=
    ⟨c % 32 / 2, c % 2, by omega, by omega, by omega⟩
  have hmod : (32 * n + 2 * p + e) % 32 = 2 * p + e := by omega
  have hdiv : (2 * p + e) / 2 = p := by omega
  have hmax (a b : Nat) : Nat.max a b = max a b := rfl
  simp only [heavyOf, IsHeavy, currentGap, otherCurrent, apart, hmod, hdiv, hmax]
  have hpair : (if (2 * p + e) % 2 = 0 then x.getD (2 * p + e + 1) 0 else x.getD (2 * p + e - 1) 0) =
      if e = 0 then x.getD (2 * p + 1) 0 else x.getD (2 * p) 0 := by
    obtain rfl | rfl : e = 0 ∨ e = 1 := by omega
    · rw [if_pos (by omega), if_pos rfl, Nat.add_zero]
    · rw [if_neg (by omega), if_neg one_ne_zero, Nat.add_sub_cancel]
  rw [hpair]
  obtain rfl | rfl : e = 0 ∨ e = 1 := by omega
  all_goals
    simp only [Nat.add_zero, if_true, one_ne_zero, if_false]
    generalize x.getD (2 * p) 0 = a
    generalize x.getD (2 * p + 1) 0 = b
    split
    · simp only [reduceCtorEq, false_iff]
      omega
    · simp only [Option.some.injEq]
      split <;> omega

theorem mem_heavier {n : Nat} {x : List Nat} {c : Nat} : c ∈ heavier n x ↔ IsHeavy n x c := by
  rw [heavier_eq, List.mem_filterMap]
  constructor
  · rintro ⟨p, hp, h⟩
    rw [List.mem_range] at hp
    have hpair := heavyOf_pair h
    have hc : c / 32 = n := by omega
    rw [show p = c % 32 / 2 by omega] at h
    exact (heavyOf_eq_some hc).mp h
  · intro h
    exact ⟨c % 32 / 2, List.mem_range.mpr (by omega), (heavyOf_eq_some h.1).mpr h⟩

theorem nodup_heavier (n : Nat) (x : List Nat) : (heavier n x).Nodup := by
  rw [heavier_eq]
  refine List.nodup_range.filterMap fun p q c hp hq => ?_
  have h₁ := heavyOf_pair hp
  have h₂ := heavyOf_pair hq
  omega

/-- What Bellows' raising leaves of a cluster: BEL one or two steps higher, at most 2. -/
def Raised (K K' : Cluster) : Prop :=
  { K' with bel := K.bel } = K ∧ Nat.min 2 (K.bel.toNat + 1) ≤ K'.bel.toNat ∧ K'.bel.toNat ≤ 2

theorem clustersChanged_raise (s : State) (c : Nat) : ClustersChanged [c] Raised s (s.raise_ c) := by
  have hcode (b k : Nat) : min 2 (b + 1) ≤ (BitVec.ofNat 2 (min 2 (b + 1 + k % 2))).toNat ∧
      (BitVec.ofNat 2 (min 2 (b + 1 + k % 2))).toNat ≤ 2 := by
    rw [BitVec.toNat_ofNat]
    omega
  exact clustersChanged_onCluster (R := Raised) (f := fun K => { K with
    bel := BitVec.ofNat 2 (Nat.min 2 (K.bel.toNat + 1 + Config.freeNat s.ctr (2 ^ 33 + c) % 2)) })
    (fun K => ⟨rfl, hcode _ _⟩) s c

/-- The pass counts of a die's heavier clusters raised. -/
def State.raiseHeavier (s : State) (n : Nat) (x : List Nat) : State :=
  (s.raiseOrder (heavier n x)).foldl (fun s c => s.raise_ c) s

theorem clustersChanged_raiseHeavier (s : State) (n : Nat) (x : List Nat) :
    ClustersChanged (s.raiseOrder (heavier n x)) Raised s (s.raiseHeavier n x) := by
  have hn : (s.raiseOrder (heavier n x)).Nodup := (sortBy_perm _ _).nodup_iff.mpr (nodup_heavier n x)
  have hf := ClustersChanged.foldl (g := fun c => [c]) clustersChanged_raise (s.raiseOrder (heavier n x))
    (by simpa using hn) s
  rwa [List.flatMap_singleton'] at hf

theorem mem_raiseOrder {s : State} {cs : List Nat} {c : Nat} : c ∈ s.raiseOrder cs ↔ c ∈ cs := (sortBy_perm _ _).mem_iff

end Sys2Proof.Machine
end

section
/-! SUPPORT. Laws of bring-up, attestation and the firmware's stages (R20 to R23, R30). -/

namespace Sys2Proof.Machine

-- BOOT_GO and the hot reset (R20, R22)

theorem execBootGo_of_idle {s : State} (hl : s.boot.locked = false) (h0 : s.boot.stage = 0) (len : DWord) :
    execBootGo len s = .next { s with boot := { s.boot with length := some len.toNat } } := by
  simp [execBootGo, hl, h0]

theorem execBootGo_ignored {s : State} (h : s.boot.locked = true ∨ s.boot.stage ≠ 0) (len : DWord) :
    execBootGo len s = .next s := by
  simp only [execBootGo]
  rw [if_pos (by simpa using h)]

theorem execPcieHotReset_of_unlocked {s : State} (h : s.boot.locked = false) :
    execPcieHotReset s = .next { s with boot := { s.boot with stage := 0, length := none } } := by
  simp [execPcieHotReset, h]

theorem execPcieHotReset_of_locked {s : State} (h : s.boot.locked = true) : execPcieHotReset s = .next s := by
  simp [execPcieHotReset, h]

-- The checks of R21

/-- An image's shape: its magic, the length that was announced, and zeros in the rest of its header (R21). -/
def Boot.Formed (b : Boot) (len : Nat) : Prop :=
  ofBytes (b.bytes 0 4) = 0x4F4C5346 ∧ len = 4096 + ofBytes (b.bytes 0x008 8) ∧ len ≤ 2 ^ 28 ∧
    ofBytes (b.bytes 0xEA4 348) = 0

/-- The digest of R21 over the header and the payload. -/
def Boot.digest (b : Boot) : List Byte := Crypto.sha3 (b.bytes 0 0x530 ++ b.bytes 4096 (ofBytes (b.bytes 0x008 8)))

/-- The checks of R21 in their order, each with what it needs of those before it. -/
theorem Boot.verify_cases (b : Boot) (len : Nat) :
    (Crypto.sha3 (b.bytes 0x010 1312) ≠ Config.fusedKeyHash → b.verify len = .error 2) ∧
    (Crypto.sha3 (b.bytes 0x010 1312) = Config.fusedKeyHash →
      (ofBytes (b.bytes 4 4) < Config.fusedMinSvn → b.verify len = .error 3) ∧
      (Config.fusedMinSvn ≤ ofBytes (b.bytes 4 4) →
        (¬b.Formed len → b.verify len = .error 4) ∧
        (b.Formed len →
          (Crypto.verify (b.bytes 0x010 1312) b.digest (b.bytes 0x530 2420) = false → b.verify len = .error 1) ∧
          (Crypto.verify (b.bytes 0x010 1312) b.digest (b.bytes 0x530 2420) = true →
            b.verify len = .ok ⟨ofBytes (b.bytes 4 4), b.digest⟩)))) := by
  have hf : (ofBytes (b.bytes 0x000 4) ≠ 0x4F4C5346 || len ≠ 4096 + ofBytes (b.bytes 0x008 8) || 2 ^ 28 < len ||
      ofBytes (b.bytes 0xEA4 348) ≠ 0) = true ↔ ¬b.Formed len := by
    simp only [Boot.Formed, Bool.or_eq_true, decide_eq_true_eq, ne_eq]
    omega
  unfold Boot.verify
  refine ⟨fun hk => if_pos (bne_iff_ne.mpr hk), fun hk => ?_⟩
  rw [if_neg (by simpa using hk)]
  refine ⟨fun hv => if_pos hv, fun hv => ?_⟩
  rw [if_neg (not_lt.mpr hv)]
  refine ⟨fun hn => if_pos (hf.mpr hn), fun hn => ?_⟩
  rw [if_neg (fun h => hf.mp h hn)]
  exact ⟨fun hs => if_neg (Bool.eq_false_iff.mp hs), fun hs => if_pos hs⟩

/-- A failed verification counts as an attempt, and the third one locks the device. -/
theorem Boot.verified_of_error {b : Boot} {len : Nat} {e : BitVec 8} (h : b.verify len = .error e) :
    b.verified len = { b with
      length := none, error := e, attempts := b.attempts + 1, locked := b.locked || b.attempts + 1 == 3,
      stage := if b.attempts + 1 = 3 then 0xF else b.stage } := by
  simp only [Boot.verified, h]
  split
  · next h3 => simp only [h3, beq_self_eq_true, Bool.or_true]
  · next h3 => simp only [beq_false_of_ne h3, Bool.or_false]

theorem Boot.verified_of_ok {b : Boot} {len : Nat} {i : Image} (h : b.verify len = .ok i) :
    b.verified len = { b with length := none, stage := 1, svn := i.svn, measurement := i.digest } := by
  simp only [Boot.verified, h]

theorem execImageVerified_of_length {s : State} {len : Nat} (h : s.boot.length = some len) :
    execImageVerified s = .next { s with boot := s.boot.verified len } := by
  simp only [execImageVerified, h]

theorem execImageVerified_of_error {s : State} {len : Nat} (h : s.boot.length = some len) {e : BitVec 8}
    (he : s.boot.verify len = .error e) : execImageVerified s = .next { s with boot := { s.boot with
      length := none, error := e, attempts := s.boot.attempts + 1, locked := s.boot.locked || s.boot.attempts + 1 == 3,
      stage := if s.boot.attempts + 1 = 3 then 0xF else s.boot.stage } } := by
  rw [execImageVerified_of_length h, Boot.verified_of_error he]

theorem execImageVerified_of_ok {s : State} {len : Nat} (h : s.boot.length = some len) {i : Image}
    (hi : s.boot.verify len = .ok i) : execImageVerified s = .next { s with boot := { s.boot with
      length := none, stage := 1, svn := i.svn, measurement := i.digest } } := by
  rw [execImageVerified_of_length h, Boot.verified_of_ok hi]

-- The stages of the firmware (R22)

theorem execFirmwareStageComplete_noMemory {s : State} {h : HypLoad} (skew : List Int) (bands : List (Nat × Nat × Nat))
    (h4 : s.boot.stage.toNat + 1 = 4) (hm : HypLoad.inMemory h = false) :
    execFirmwareStageComplete (.pass h) skew bands s = .next s := by
  simp only [execFirmwareStageComplete]
  rw [if_neg (by simp only [Bool.or_eq_true, decide_eq_true_eq]; omega), if_pos]
  simp only [hm, Bool.not_false, Bool.and_true, decide_eq_true_eq]
  omega

section
variable {s : State} (h1 : 1 ≤ s.boot.stage.toNat) (h5 : s.boot.stage.toNat ≤ 5) (skew : List Int)
  (bands : List (Nat × Nat × Nat))
include h1 h5

theorem execFirmwareStageComplete_pass {h : HypLoad} (hm : s.boot.stage.toNat + 1 = 4 → HypLoad.inMemory h = true) :
    execFirmwareStageComplete (.pass h) skew bands s =
      .next { s.staged (s.boot.stage.toNat + 1) skew bands h with
        boot := { (s.staged (s.boot.stage.toNat + 1) skew bands h).boot with
          stage := BitVec.ofNat 4 (s.boot.stage.toNat + 1) } } := by
  simp only [execFirmwareStageComplete]
  rw [if_neg (by simp only [Bool.or_eq_true, decide_eq_true_eq]; omega), if_neg]
  simp only [Bool.and_eq_true, decide_eq_true_eq, Bool.not_eq_true', not_and, Bool.not_eq_false]
  exact fun h3 => hm (by omega)

theorem execFirmwareStageComplete_trainFail :
    execFirmwareStageComplete .trainFail skew bands s = .next (
      if s.boot.stage.toNat = 1 then { s with boot := { s.boot with stage := 0xF, error := 5 } }
      else if s.boot.stage.toNat = 2 then { s with boot := { s.boot with stage := 0xF, error := 6 } } else s) := by
  simp only [execFirmwareStageComplete]
  rw [if_neg (by simp only [Bool.or_eq_true, decide_eq_true_eq]; omega)]

theorem execFirmwareStageComplete_selfTestFail :
    execFirmwareStageComplete .selfTestFail skew bands s =
      .next { s with boot := { s.boot with stage := 0xF, error := 7 } } := by
  simp only [execFirmwareStageComplete]
  rw [if_neg (by simp only [Bool.or_eq_true, decide_eq_true_eq]; omega)]

end

theorem boot_loadHypervisor (s : State) (h : HypLoad) :
    (s.loadHypervisor h).boot = { s.boot with hypervisor := Crypto.sha3 h.image } := by
  rw [State.loadHypervisor, (board_eq_iff.mp (board_mapMailbox _ h)).1, State.firmwareWrite, boot_homeWrite]

-- Each stage's effect besides its number. The stage is a literal of a match with a heavy arm, so `rfl` would be dear.
section
variable (s : State) (skew : List Int) (bands : List (Nat × Nat × Nat)) (h : HypLoad)

theorem staged_two : s.staged 2 skew bands h = { s with links := [] } := by
  delta State.staged
  simp only

theorem staged_three : s.staged 3 skew bands h =
    { s with hbm := [], hbmPoison := [], elide := [], elideConst := [], l2 := [], l2Dirty := [], rdc := [] } := by
  delta State.staged
  simp only

theorem staged_four : s.staged 4 skew bands h = s.loadHypervisor h := by
  delta State.staged
  simp only

theorem staged_five : s.staged 5 skew bands h =
    State.homeWrite { s with skew := skewOf skew, limits := (List.range 16).map fun r => (r, 30) }
      (runAt 0x200000 (clean (timeInfo (s.counter 0) (skewOf skew) bands))) := by
  delta State.staged
  simp only

theorem staged_six : s.staged 6 skew bands h = s := by
  delta State.staged
  simp only

/-- A stage's effect on bring-up: only the hypervisor's measurement, at STAGE 4. -/
theorem staged_boot {n : Nat} (h2 : 2 ≤ n) (h6 : n ≤ 6) : (s.staged n skew bands h).boot =
    { s.boot with hypervisor := if n = 4 then Crypto.sha3 h.image else s.boot.hypervisor } := by
  obtain rfl | rfl | rfl | rfl | rfl : n = 2 ∨ n = 3 ∨ n = 4 ∨ n = 5 ∨ n = 6 := by omega
  · simp [staged_two]
  · simp [staged_three]
  · simp [staged_four, boot_loadHypervisor]
  · simp [staged_five, boot_homeWrite]
  · simp [staged_six]

/-- STAGE 5 sets the counters' offsets (R16, R22). -/
theorem staged_five_skew : (s.staged 5 skew bands h).skew = skewOf skew := by
  rw [staged_five, skew_homeWrite]

end

/-- A counter's offset as bring-up takes it: cut to 8 ns. -/
theorem skewOf_step_within {m : SMap Int} (h : ∀ d, -8000 ≤ m.get 0 d ∧ m.get 0 d ≤ 8000) (n : Nat) (v : Int) (d : Nat) :
    -8000 ≤ SMap.get 0 (m.write 0 n (if v < -8000 then -8000 else if 8000 < v then 8000 else v)) d ∧
      SMap.get 0 (m.write 0 n (if v < -8000 then -8000 else if 8000 < v then 8000 else v)) d ≤ 8000 := by
  rw [SMap.get_write]
  split
  · omega
  · exact h d

/-- The offsets that a bring-up finds are within 8 ns (R16). -/
theorem skewOf_within (ps : List Int) (d : Nat) : -8000 ≤ (skewOf ps).get 0 d ∧ (skewOf ps).get 0 d ≤ 8000 := by
  refine List.foldlRecOn (motive := fun m : SMap Int => ∀ d, -8000 ≤ m.get 0 d ∧ m.get 0 d ≤ 8000) _ _ (fun d => ?_)
    (fun m h i _ => skewOf_step_within h (i + 1) (ps.getD i 0)) d
  simp [SMap.get]

-- Attestation (R23, R30)

theorem execMailboxStore_eq {s : State} {addr : DWord} (h4 : 4 ≤ s.boot.stage.toNat) (hf : s.boot.stage ≠ 0xF)
    (ha : addr.toNat % 64 = 0) (hp : physical addr.toNat 64 = true) (hc : ∀ x ∈ (s.homeRead addr.toNat 64).2, x.2 = false) :
    execMailboxStore addr s =
      if s.boot.request.isSome then .next (s.homeWrite (runAt (addr.toNat + 4) (clean (toBytes 4 3))))
      else .next { s with boot := { s.boot with request := some addr.toNat } } := by
  have hany : (s.homeRead addr.toNat 64).2.any (·.2) = false := List.any_eq_false.mpr fun x hx => by simp [hc x hx]
  simp only [execMailboxStore, State.firmwareWrite]
  rw [if_neg]
  simpa [h4, ha, hp, hany] using hf

/-- The state in which a request is answered: its block read, and no request in service. -/
def State.answering (s : State) (a : Nat) : State :=
  { (s.homeRead a 64).1 with boot := { (s.homeRead a 64).1.boot with request := none } }

theorem execAttestationReport_of_bad {s : State} {a : Nat} (h : s.boot.request = some a)
    (hb : (s.homeRead a 64).2.any (·.2) = true ∨ requestOk ((s.homeRead a 64).2.map (·.1)) = false) :
    execAttestationReport s = .next ((s.answering a).homeWrite (runAt (a + 4) (clean (toBytes 4 2)))) := by
  simp only [execAttestationReport, h]
  rw [if_pos (by simpa using hb)]
  rfl

theorem execAttestationReport_of_ok {s : State} {a : Nat} (h : s.boot.request = some a)
    (hp : (s.homeRead a 64).2.any (·.2) = false) (hb : requestOk ((s.homeRead a 64).2.map (·.1)) = true) :
    let b := (s.homeRead a 64).2.map (·.1)
    let u := s.answering a
    let report := u.boot.report ((b.drop 8).take 32) (Config.signRandom u.ctr)
    execAttestationReport s = .next ((u.homeWrite (runAt (ofBytes ((b.drop 0x28).take 8)) (clean report))).homeWrite
      (runAt (a + 4) (clean (toBytes 4 1)))) := by
  simp only [execAttestationReport, h]
  rw [if_neg (by simp [hp, hb])]
  rfl

-- BOOT_STATUS (Table 1.5)

theorem Boot.status_toNat (b : Boot) : b.status.toNat =
    (if b.locked then 2 ^ 15 else 0) + 2 ^ 12 * b.attempts.toNat + 2 ^ 4 * b.error.toNat + b.stage.toNat := by
  have ha := b.attempts.isLt
  have he := b.error.isLt
  have hs := b.stage.isLt
  rw [Boot.status, BitVec.toNat_ofNat, Nat.mod_eq_of_lt]
  split <;> omega

theorem Boot.status_fields (b : Boot) :
    b.status.extractLsb' 0 4 = b.stage ∧ b.status.extractLsb' 4 8 = b.error ∧ b.status.extractLsb' 12 2 = b.attempts ∧
      b.status.extractLsb' 14 1 = 0 ∧ b.status.getLsbD 15 = b.locked ∧ b.status.extractLsb' 16 16 = 0 := by
  have ha := b.attempts.isLt
  have he := b.error.isLt
  have hs := b.stage.isLt
  have hw := b.status_toNat
  refine ⟨?stage, ?error, ?attempts, ?zero, ?locked, ?top⟩
  case locked =>
    rw [BitVec.getLsbD, Nat.testBit_eq_decide_div_mod_eq, hw]
    cases b.locked <;> simp <;> omega
  all_goals
    apply BitVec.eq_of_toNat_eq
    rw [BitVec.extractLsb'_toNat, hw, Nat.shiftRight_eq_div_pow]
    cases b.locked <;> simp <;> omega

end Sys2Proof.Machine
end

section
/-! SUPPORT. Laws of the monitors of temperature, of the layers and of the mid-rails, and of the restoration after a droop (R15,
R26, Table 1.6). -/

namespace Sys2Proof.Machine

-- Units that a monitor reads (R26)

@[simp] theorem cluster_notifyUnit (s : State) (node kind cls n c : Nat) :
    (s.notifyUnit node kind cls n).cluster c = s.cluster c :=
  cluster_of_clusters (board_eq_iff.mp (board_notifyUnit s node kind cls n)).2.1 c

@[simp] theorem dies_notifyUnit (s : State) (node kind cls n : Nat) : (s.notifyUnit node kind cls n).dies = s.dies :=
  (board_eq_iff.mp (board_notifyUnit s node kind cls n)).2.2.1

@[simp] theorem dies_onCluster (s : State) (c : Nat) (f : Cluster → Cluster) : (s.onCluster c f).dies = s.dies := rfl

theorem cluster_withDies (s : State) (d : SMap Die) (c : Nat) : ({ s with dies := d } : State).cluster c = s.cluster c := rfl

theorem raise_one (K : Cluster) : K.raise 1 = { K with bel := if K.bel = 0 then 1 else K.bel } := by
  have h : K.bel.ult 1 = decide (K.bel = 0) := by
    generalize K.bel = b
    revert b
    decide
  simp only [Cluster.raise, h, decide_eq_true_eq]
  split <;> rfl

theorem raise_two (K : Cluster) : K.raise 2 = if K.bel.toNat < 2 then { K with bel := 2 } else K := by
  have h : K.bel.ult 2 = decide (K.bel.toNat < 2) := rfl
  simp only [Cluster.raise, h, decide_eq_true_eq]

/-- `TEMPERATURE_SAMPLE` of a cluster: what it is below 100 °C, from there on, and from 110 °C on (Table 1.6). -/
theorem execTemperatureSample_cases {c : Nat} (hc : c < 4096) (x : Int) (s : State) :
    let u := s.onCluster c fun K => { K with celsius := x }
    let v := (u.onCluster c (·.raise 1)).notifyUnit (c / 32) 12 0 c
    execTemperatureSample c x s = .next (
      if x < 100 then u
      else if x < 110 then v
      else State.notifyUnit { v with dies := v.dies.put (c / 32) { v.dies.get {} (c / 32) with stopped := true } }
        (c / 32) 11 0 c) := by
  simp only [execTemperatureSample]
  rw [if_neg (by omega)]
  by_cases h : x < 100
  · rw [if_pos h, if_neg (by omega), if_neg (by omega)]
  · rw [if_neg h, if_pos (by omega : 100 ≤ x)]
    split
    · rw [if_neg (by omega)]
    · rw [if_pos (by omega)]

/-- The clusters after a sample of 100 °C or more. -/
theorem cluster_hot {x : Int} (h : 100 ≤ x) (s : State) (c d : Nat) :
    ((s.onCluster c fun K => { K with celsius := x }).onCluster c (·.raise 1)).cluster d =
      if d = c then { s.cluster d with
        celsius := x, bel := if 100 ≤ x ∧ (s.cluster d).bel = 0 then 1 else (s.cluster d).bel } else s.cluster d := by
  simp only [cluster_onCluster, h, true_and]
  split
  · rw [raise_one]
  · rfl

theorem execTemperatureSample_spec {c : Nat} (hc : c < 4096) (x : Int) (s : State) :
    ∃ t, execTemperatureSample c x s = .next t ∧
      t.cluster c = { s.cluster c with
        celsius := x, bel := if 100 ≤ x ∧ (s.cluster c).bel = 0 then 1 else (s.cluster c).bel } ∧
      (∀ d ≠ c, t.cluster d = s.cluster d) ∧ (x < 100 → { t with clusters := s.clusters } = s) ∧
      (t.dies.get {} (c / 32)).stopped = ((s.dies.get {} (c / 32)).stopped || decide (110 ≤ x)) := by
  refine ⟨_, execTemperatureSample_cases hc x s, ?_⟩
  by_cases h : x < 100
  · have h₁ : ¬100 ≤ x := by omega
    have h₂ : ¬110 ≤ x := by omega
    simp only [h, h₁, h₂, if_true, cluster_onCluster, false_and, if_false, dies_onCluster, decide_false, Bool.or_false]
    exact ⟨trivial, fun d hd => if_neg hd, fun _ => rfl, trivial⟩
  · have h₁ : 100 ≤ x := by omega
    simp only [h, if_false, false_imp_iff, true_and]
    split
    · next h₂ =>
      have h₃ : ¬110 ≤ x := by omega
      simp only [cluster_notifyUnit, cluster_hot h₁, dies_notifyUnit, dies_onCluster, h₃, decide_false, Bool.or_false,
        if_true]
      exact ⟨trivial, fun d hd => if_neg hd, trivial⟩
    · next h₂ =>
      have h₃ : 110 ≤ x := by omega
      simp only [cluster_notifyUnit, cluster_withDies, cluster_hot h₁, dies_notifyUnit, SMap.get_put_self, h₃, decide_true,
        Bool.or_true, if_true]
      exact ⟨trivial, fun d hd => if_neg hd, trivial⟩

-- Droop (R15, Table 1.6)

/-- A layer's voltage as its monitor has read it. -/
def State.readLayer (s : State) (n p : Nat) (upper : Bool) (mv : Nat) : State :=
  { s with dies := s.dies.put n { s.dies.get {} n with
      millivolts := (s.dies.get {} n).millivolts.put (layerCluster p upper) mv } }

theorem execLayerVoltageSample_eq {n p : Nat} (hn : n < 128) (hp : p < 16) (upper : Bool) (mv : Nat) (s : State) :
    execLayerVoltageSample n p upper mv s = .next (if 600 ≤ mv then s.readLayer n p upper mv
      else (s.readLayer n p upper mv).overRegion (n / 8) fun s c => s.onCluster c (·.raise 2)) := by
  simp only [execLayerVoltageSample]
  rw [if_neg (by simp only [Bool.or_eq_true, decide_eq_true_eq]; omega)]
  split <;> rfl

theorem execLayerVoltageSample_spec {n p : Nat} (hn : n < 128) (hp : p < 16) (upper : Bool) (mv : Nat) (s : State) :
    ∃ t, execLayerVoltageSample n p upper mv s = .next t ∧
      (t.dies.get {} n).millivolts = (s.dies.get {} n).millivolts.put (2 * p + if upper then 0 else 1) mv ∧
      (600 ≤ mv → { t with dies := s.dies } = s) ∧ { t with dies := s.dies, clusters := s.clusters } = s ∧
      ∀ c, t.cluster c =
        if mv < 600 ∧ c / 256 = n / 8 ∧ (s.cluster c).bel.toNat < 2 then { s.cluster c with bel := 2 } else s.cluster c := by
  have hv : ((s.readLayer n p upper mv).dies.get {} n).millivolts =
      (s.dies.get {} n).millivolts.put (2 * p + if upper then 0 else 1) mv := by simp [State.readLayer, layerCluster]
  refine ⟨_, execLayerVoltageSample_eq hn hp upper mv s, ?_⟩
  by_cases h : 600 ≤ mv
  · simp only [h, if_true]
    exact ⟨hv, fun _ => rfl, rfl, fun c => (if_neg (by omega)).symm⟩
  · have hc := clustersChanged_overRegion (R := fun K K' => K' = K.raise 2)
      (clustersChanged_onCluster (f := (·.raise 2)) fun _ => rfl) (s.readLayer n p upper mv) (n / 8)
    simp only [h, if_false]
    refine ⟨(congrArg Die.millivolts (hc.die n)).trans hv, False.elim, rest_of_withDies hc.rest, fun c => ?_⟩
    by_cases hr : c / 256 = n / 8
    · refine (hc.changed c (mem_regionClusters.mpr hr)).trans ?_
      simp only [hr, true_and, (by omega : mv < 600)]
      exact raise_two _
    · refine (hc.kept c fun hm => hr (mem_regionClusters.mp hm)).trans ?_
      rw [if_neg fun hm => hr hm.2.1]
      rfl

theorem restoreStep_eq (K : Cluster) :
    K.restoreStep = if (if 100 ≤ K.celsius then 1 else 0) < K.bel.toNat then { K with bel := K.bel - 1 } else K := by
  simp only [Cluster.restoreStep]
  by_cases h : 100 ≤ K.celsius
  · simp only [h, if_true, BitVec.ult, decide_eq_true_eq]
    rfl
  · simp only [h, if_false, BitVec.ult, decide_eq_true_eq]
    rfl

/-- A step of the restoration at one cluster; at BEL 0 there is none to take. -/
theorem clustersChanged_restore (s : State) (c : Nat) : ClustersChanged [c] (fun K K' => K' = K.restoreStep) s
    (if (s.cluster c).bel = 0 then s else s.onCluster c Cluster.restoreStep) := by
  split
  · next h =>
    refine ⟨rfl, fun _ => rfl, fun d hd => ?_, fun _ _ => rfl⟩
    rw [List.mem_singleton.mp hd, restoreStep_eq, if_neg (by simp [h])]
  · exact clustersChanged_onCluster (R := fun K K' => K' = K.restoreStep) (fun _ => rfl) s c

theorem execDroopRestoreStep_spec {r : Nat} (hr : r < 16) {s : State}
    (hd : ∀ n < 8, (s.dies.get {} (8 * r + n)).droopAt + 10000 ≤ s.now) : ∃ t, execDroopRestoreStep r s = .next t ∧
      { t with dies := s.dies, clusters := s.clusters } = s ∧ ∀ c, t.cluster c =
        let K := s.cluster c
        if c / 256 = r ∧ (if 100 ≤ K.celsius then 1 else 0) < K.bel.toNat then { K with bel := K.bel - 1 } else K := by
  have hany : ((regionNodes r).any fun n => s.now < (s.dies.get {} n).droopAt + 10000) = false := by
    refine List.any_eq_false.mpr fun n hn => ?_
    obtain ⟨i, hi, rfl⟩ := List.mem_map.mp hn
    simpa using hd i (List.mem_range.mp hi)
  have hc := clustersChanged_overRegion clustersChanged_restore s r
  simp only [execDroopRestoreStep, hany]
  rw [if_neg (by omega), if_neg (by decide)]
  refine ⟨_, rfl, hc.rest, fun c => ?_⟩
  by_cases h : c / 256 = r
  · refine (hc.changed c (mem_regionClusters.mpr h)).trans ?_
    simp only [restoreStep_eq, h, true_and]
  · refine (hc.kept c fun hm => h (mem_regionClusters.mp hm)).trans ?_
    simp only [h, false_and, if_false]

-- The mid-rails (Table 1.6)

theorem getLsbD_setShunt (b : BitVec 16) (p : Nat) {j : Nat} (hj : j < 16) :
    (b ||| BitVec.ofNat 16 (2 ^ p)).getLsbD j = if j = p then true else b.getLsbD j := by
  simp only [BitVec.getLsbD_or, BitVec.getLsbD_ofNat, Nat.testBit_two_pow, hj, decide_true, Bool.true_and]
  split <;> simp_all [eq_comm]

theorem getLsbD_clearShunt (b : BitVec 16) (p : Nat) {j : Nat} (hj : j < 16) :
    (b &&& ~~~BitVec.ofNat 16 (2 ^ p)).getLsbD j = if j = p then false else b.getLsbD j := by
  simp only [BitVec.getLsbD_and, BitVec.getLsbD_not, BitVec.getLsbD_ofNat, Nat.testBit_two_pow, hj, decide_true, Bool.true_and]
  split <;> simp_all [eq_comm]

theorem execMidRailSample_spec {n p : Nat} (hn : n < 128) (hp : p < 16) (mv : Nat) (s : State) :
    ∃ t, execMidRailSample n p mv s = .next t ∧
      (∀ j < 16, (t.dies.get {} n).shunts.getLsbD j =
        if j = p then decide (40 < mv) else (s.dies.get {} n).shunts.getLsbD j) ∧
      (t.dies.get {} n).midRail = (s.dies.get {} n).midRail.put p mv ∧ (mv ≤ 40 → { t with dies := s.dies } = s) := by
  simp only [execMidRailSample]
  rw [if_neg (by simp only [Bool.or_eq_true, decide_eq_true_eq]; omega)]
  by_cases h : 40 < mv
  · simp only [h, decide_true, if_true]
    refine ⟨_, rfl, ?_, ?_, fun h' => absurd h (by omega)⟩
    · simpa using fun j hj => getLsbD_setShunt _ _ hj
    · simp
  · simp only [h, decide_false, if_false]
    refine ⟨_, rfl, ?_, ?_, fun _ => rfl⟩
    · simpa using fun j hj => getLsbD_clearShunt _ _ hj
    · simp

end Sys2Proof.Machine
end

section
/-! SUPPORT. Laws of Bellows' rebuild, of self-test, single faults and gating, of the host's accesses and of the register maps
(R3, R14, R20, R25, R27 to R29, R110, R111, R281). -/

namespace Sys2Proof.Machine

-- Bellows (R14, R110)

theorem holdStep_of_noLimit {s : State} {node : Nat} (h : s.limits.get 0 (node / 8) = 0) : s.holdStep node = s := by
  simp only [State.holdStep, h, if_true]

/-- The layers' currents of a die as Bellows has learnt them, with the preference list that follows. -/
def State.readCurrents (s : State) (n : Nat) (x : List Nat) : State :=
  { s with dies := s.dies.put n { s.dies.get {} n with
      currents := x, prefs := preferences x, rise := (total x : Int) - total (s.dies.get {} n).currents, riseAt := s.now } }

theorem execPreferenceRebuild_eq {n : Nat} (hn : n < 128) (x : List Nat) (s : State) :
    execPreferenceRebuild n x s = .next (((s.readCurrents n x).raiseHeavier n x).holdStep n) := by
  simp only [execPreferenceRebuild]
  rw [if_neg (by omega)]
  rfl

theorem clustersChanged_raiseFirst (s : State) (cs : List Nat) : ∃ ds, ClustersChanged ds Raised s (s.raiseFirst cs) := by
  simp only [State.raiseFirst]
  split
  · exact ⟨_, clustersChanged_raise s _⟩
  · exact ⟨_, .refl s⟩

theorem clustersChanged_holdStep (s : State) (n : Nat) : ∃ ds, ClustersChanged ds Raised s (s.holdStep n) := by
  simp only [State.holdStep]
  split
  · exact ⟨_, .refl s⟩
  · split
    · exact clustersChanged_raiseFirst s _
    · split
      · exact clustersChanged_raiseFirst s _
      · exact ⟨_, .refl s⟩

theorem execPreferenceRebuild_spec {n : Nat} (hn : n < 128) (x : List Nat) (s : State) :
    ∃ t, execPreferenceRebuild n x s = .next t ∧ { t with dies := s.dies, clusters := s.clusters } = s ∧
      (t.dies.get {} n).currents = x ∧ (t.dies.get {} n).prefs = preferences x ∧
      (s.limits.get 0 (n / 8) = 0 → ∀ c, { t.cluster c with bel := (s.cluster c).bel } = s.cluster c ∧
        (¬IsHeavy n x c → t.cluster c = s.cluster c) ∧ (IsHeavy n x c → Raised (s.cluster c) (t.cluster c))) := by
  have hr := clustersChanged_raiseHeavier (s.readCurrents n x) n x
  obtain ⟨ds, hh⟩ := clustersChanged_holdStep ((s.readCurrents n x).raiseHeavier n x) n
  have hd : ((s.readCurrents n x).dies.get {} n).currents = x ∧ ((s.readCurrents n x).dies.get {} n).prefs = preferences x := by
    simp [State.readCurrents]
  refine ⟨_, execPreferenceRebuild_eq hn x s, ?_, ?_, ?_, fun hl c => ?_⟩
  · exact rest_of_withDies (hr.rest_trans hh)
  · exact (congrArg Die.currents (hh.die n)).trans ((congrArg Die.currents (hr.die n)).trans hd.1)
  · exact (congrArg Die.prefs (hh.die n)).trans ((congrArg Die.prefs (hr.die n)).trans hd.2)
  · have hl' : ((s.readCurrents n x).raiseHeavier n x).limits.get 0 (n / 8) = 0 := by
      rw [hr.limits]
      exact hl
    rw [holdStep_of_noLimit hl']
    by_cases h : IsHeavy n x c
    · have hc := hr.changed c (mem_raiseOrder.mpr (mem_heavier.mpr h))
      exact ⟨hc.1, fun h' => absurd h h', fun _ => hc⟩
    · have hc := hr.kept c fun hm => h (mem_heavier.mp (mem_raiseOrder.mp hm))
      exact ⟨hc ▸ rfl, fun _ => hc, fun h' => absurd h' h⟩

-- Self-test, scrubbing and single faults (R27 to R29)

theorem execSelfTestSlotEnd_of_idle {s : State} {c : Nat} (hc : c < 4096) (h : (s.cluster c).testing = false) (ok : Bool) :
    execSelfTestSlotEnd c ok s = .next s := by
  simp only [execSelfTestSlotEnd, h]
  rw [if_neg (by omega), if_pos (by decide)]

theorem execSelfTestSlotEnd_spec {s : State} {c : Nat} (hc : c < 4096) (h : (s.cluster c).testing = true) (ok : Bool) :
    ∃ t, execSelfTestSlotEnd c ok s = .next t ∧
      t.cluster c = { s.cluster c with testing := false, out := (s.cluster c).out || !ok } ∧
      (ok = true → { t with clusters := s.clusters } = s) := by
  simp only [execSelfTestSlotEnd, h]
  rw [if_neg (by omega), if_neg (by decide)]
  refine ⟨_, rfl, ?_, ?_⟩
  · cases ok <;> simp [cluster_onCluster]
  · rintro rfl
    rfl

theorem execScrubPass_of_latent {s : State} {unit : FaultUnit} {addr : Nat} (h : (unit, faultWord unit addr) ∈ s.latent) :
    execScrubPass unit addr s =
      .next ({ s with latent := s.latent.erase (unit, faultWord unit addr) }.countCorrected (faultClass unit)) := by
  simp only [execScrubPass]
  rw [if_pos (List.contains_iff_mem.mpr h)]

theorem execScrubPass_of_none {s : State} {unit : FaultUnit} {addr : Nat} (h : (unit, faultWord unit addr) ∉ s.latent) :
    execScrubPass unit addr s = .next s := by
  simp only [execScrubPass]
  rw [if_neg (fun hc => h (List.contains_iff_mem.mp hc))]

/-- A first error of a word that the device keeps count of stays. -/
theorem execSingleFault_first {s : State} {unit : FaultUnit} {addr : Nat} (hl : unit ≠ .line) (hm : unit ≠ .matrix)
    (hs : s.strikes unit addr = true) (h : (unit, faultWord unit addr) ∉ s.latent) :
    execSingleFault unit addr s = .next { s with latent := s.latent ++ [(unit, faultWord unit addr)] } := by
  have hc : s.latent.contains (unit, faultWord unit addr) = false :=
    Bool.eq_false_iff.mpr fun hc => h (List.contains_iff_mem.mp hc)
  cases unit
  case line => exact absurd rfl hl
  case matrix => exact absurd rfl hm
  all_goals simp only [execSingleFault, hs, hc, Bool.not_true, Bool.false_eq_true, if_false]

/-- A second error of such a word poisons it. -/
theorem execSingleFault_second {s : State} {unit : FaultUnit} {addr : Nat} (hl : unit ≠ .line) (hm : unit ≠ .matrix)
    (hs : s.strikes unit addr = true) (h : (unit, faultWord unit addr) ∈ s.latent) : execSingleFault unit addr s =
      .next ({ s with latent := s.latent.erase (unit, faultWord unit addr) }.poisonWord unit addr) := by
  have hc : s.latent.contains (unit, faultWord unit addr) = true := List.contains_iff_mem.mpr h
  cases unit
  case line => exact absurd rfl hl
  case matrix => exact absurd rfl hm
  all_goals simp only [execSingleFault, hs, hc, Bool.not_true, Bool.false_eq_true, if_false, if_true]

-- Gating (R111)

/-- Whether a cluster may be gated: it is awake, unclaimed and empty, and has been idle for 20 µs. -/
def State.Gates (s : State) (c : Nat) : Prop :=
  (s.cluster c).gated = false ∧ s.pclaim c = false ∧ s.occupied c = false ∧ (s.cluster c).idleSince + 20000 ≤ s.now

theorem gates_iff (s : State) (c : Nat) : ((s.cluster c).gated || s.pclaim c || s.occupied c ||
    s.now < (s.cluster c).idleSince + 20000) = false ↔ s.Gates c := by
  simp only [Bool.or_eq_false_iff, decide_eq_false_iff_not, not_lt, State.Gates, and_assoc]

theorem execClusterGate_of_gates {s : State} {c : Nat} (hc : c < 4096) (h : s.Gates c) : execClusterGate c s =
    .next { s with clusters := s.clusters.put c { s.cluster c with gated := true } } := by
  simp only [execClusterGate]
  rw [if_neg (by omega), (gates_iff s c).mpr h, if_neg (by decide)]

theorem execClusterGate_of_not_gates {s : State} {c : Nat} (hc : c < 4096) (h : ¬s.Gates c) :
    execClusterGate c s = .next s := by
  simp only [execClusterGate]
  rw [if_neg (by omega), if_pos (Bool.eq_true_of_not_eq_false (mt (gates_iff s c).mp h))]

theorem execClusterWake_of_waking {s : State} {c : Nat} (h : (s.cluster c).waking = true) : execClusterWake c s =
    .next { s with clusters := s.clusters.put c { s.cluster c with gated := false, waking := false, idleSince := s.now } } := by
  simp [execClusterWake, h]

theorem execClusterWake_of_awake {s : State} {c : Nat} (h : (s.cluster c).waking = false) : execClusterWake c s = .next s := by
  simp [execClusterWake, h]

-- The staging window (R20)

/-- The staging window with bytes written to it. -/
def stagingWritten (m : List Host.Cell) (addr : Nat) (bs : List Byte) : List Host.Cell :=
  (bs.mapIdx fun i b => (i, b)).foldl (fun (m : List Host.Cell) (x : Nat × Byte) => SMap.write emptyByte m (addr + x.1) x.2) m

theorem get_stagingWritten (m : List Host.Cell) (addr : Nat) (bs : List Byte) (a : Nat) :
    SMap.get emptyByte (stagingWritten m addr bs) a =
      if addr ≤ a ∧ a < addr + bs.length then bs.getD (a - addr) 0 else SMap.get emptyByte m a := by
  induction bs using List.reverseRecOn with
  | nil => simp [stagingWritten]
  | append_singleton bs b ih =>
    have hs : stagingWritten m addr (bs ++ [b]) = SMap.write emptyByte (stagingWritten m addr bs) (addr + bs.length) b := by
      simp [stagingWritten, List.mapIdx_append]
    rw [hs, SMap.get_write, ih, List.length_append, List.length_singleton]
    by_cases ha : a = addr + bs.length
    · rw [if_pos ha, if_pos (by omega), ha]
      simp
    · rw [if_neg ha]
      by_cases hin : addr ≤ a ∧ a < addr + bs.length
      · rw [if_pos hin, if_pos (by omega), List.getD_append _ _ _ _ (by omega)]
      · rw [if_neg hin, if_neg (by omega)]

theorem execHostMemoryAccess_staging {s : State} {vmid addr : Nat} (len : Nat) {bs : List Byte} (hv : vmid < 64)
    (hb : addr + bs.length ≤ 2 ^ 28) : execHostMemoryAccess true vmid addr len (some bs) s =
      .next { s with boot := { s.boot with staging := stagingWritten s.boot.staging addr bs } } := by
  simp only [execHostMemoryAccess, Option.map_some, Option.getD_some, if_true]
  rw [if_neg (by omega), if_neg (by omega)]
  rfl

-- The host's accesses to memory (R25, R281)

theorem execHostMemoryAccess_write {s t : State} {vmid addr : Nat} (len : Nat) {bs : List Byte} {ps : List (Nat × Bool)}
    (hv : vmid < 64) (h : s.hostPlaces vmid true ((List.range bs.length).map (addr + ·)) = (t, some ps)) :
    execHostMemoryAccess false vmid addr len (some bs) s = .next (t.writePlaces (ps.zip (clean bs))) := by
  simp only [execHostMemoryAccess, Option.map_some, Option.getD_some, Option.isSome_some, h]
  rw [if_neg (by omega), if_neg (by decide)]

theorem execHostMemoryAccess_read {s t : State} {vmid addr len : Nat} {ps : List (Nat × Bool)}
    (hv : vmid < 64) (h : s.hostPlaces vmid false ((List.range len).map (addr + ·)) = (t, some ps)) :
    execHostMemoryAccess false vmid addr len none s = .next (t.readPlaces ps).1 := by
  simp only [execHostMemoryAccess, Option.map_none, Option.getD_none, Option.isSome_none, h]
  rw [if_neg (by omega), if_neg (by decide)]

theorem execHostMemoryAccess_aborted {s : State} {vmid addr len : Nat} {w : Option (List Byte)} {a : Nat} (hv : vmid < 64)
    (hp : (s.hostPlaces vmid w.isSome ((List.range ((w.map List.length).getD len)).map (addr + ·))).2 = none)
    (ha : ((List.range ((w.map List.length).getD len)).map (addr + ·)).find? (s.hostSecure vmid) = some a) :
    execHostMemoryAccess false vmid addr len w s = .next { s with abortLog := s.abortLog ++ [(vmid, a)] } := by
  simp only [execHostMemoryAccess]
  rw [if_neg (by omega), if_neg (by decide)]
  split
  · simp only [State.hostAborted, ha]
  · next h =>
    rw [h] at hp
    cases hp

theorem execHostMemoryAccess_noSuchPart {vmid : Nat} (hv : 64 ≤ vmid) (st : Bool) (addr len : Nat) (w : Option (List Byte))
    (s : State) : execHostMemoryAccess st vmid addr len w s = .fault .noSuchPart := if_pos hv

-- Register maps (R3, R4)

theorem execRegisterWrite_fflags {s : State} {k : Nat} {G : Gang} (h : s.gangs.find? k = some G) (l : Nat) (v : Word) :
    ∃ H, execRegisterWrite (.fflags k l) v s = .next (s.setGang k H) ∧ { H with lanes := G.lanes } = G ∧
      (l < G.lanes.length → (H.lane l).fflags = v.setWidth 7) := by
  refine ⟨G.putLane l { G.lane l with fflags := v.setWidth 7 }, ?_, rfl, fun hl => ?_⟩
  · simp only [execRegisterWrite, State.onLane, onGang_of_find h]
  · rw [lane_putLane_self _ hl]

theorem execRegisterWrite_mflags {s : State} {b : Nat} {B : Block} (h : s.blocks.find? b = some B) (v : Word) :
    execRegisterWrite (.mflags b) v s = .next (s.setBlock b { B with mseq := { B.mseq with mflags := v.setWidth 7 } }) := by
  simp only [execRegisterWrite, State.onSeq, onBlock_of_find h]
  rfl

theorem execRegisterWrite_stepLimit (s : State) (r : Nat) (v : Word) : execRegisterWrite (.stepLimit r) v s = .next
    (if r < 16 ∧ 1 ≤ v.toNat ∧ v.toNat ≤ 125 then { s with limits := s.limits.put r v.toNat } else s) := by
  simp only [execRegisterWrite, Bool.and_eq_true, decide_eq_true_eq, and_assoc]

end Sys2Proof.Machine
end

section
/-! SUPPORT. The statements about the board: what its events leave (O50), and the values after power-up reset (O59). -/

namespace Sys2Proof.Machine

/-- What a stage that passes leaves (R22). -/
theorem execFirmwareStageComplete_pass_spec {s : State} (h1 : 1 ≤ s.boot.stage.toNat) (h5 : s.boot.stage.toNat ≤ 5)
    (skew : List Int) (bands : List (Nat × Nat × Nat)) {h : HypLoad} {n : Nat} (hn : n = s.boot.stage.toNat + 1)
    (hm : n = 4 → HypLoad.inMemory h = true) :
    ∃ t, execFirmwareStageComplete (.pass h) skew bands s = .next t ∧
      t.boot = { s.boot with
        stage := BitVec.ofNat 4 n, hypervisor := if n = 4 then Crypto.sha3 h.image else s.boot.hypervisor } ∧
      (n = 2 → { t with boot := s.boot, links := s.links } = s ∧ t.links = []) ∧
      (n = 3 → t.hbm = [] ∧ t.l2 = [] ∧ t.rdc = []) ∧
      (n = 5 → ∀ d, -8000 ≤ t.skew.get 0 d ∧ t.skew.get 0 d ≤ 8000) ∧
      (n = 6 → { t with boot := s.boot } = s) := by
  have he := execFirmwareStageComplete_pass h1 h5 skew bands (h := h) (hn ▸ hm)
  rw [← hn] at he
  have hboot := staged_boot s skew bands h (by omega : 2 ≤ n) (by omega)
  have h₂ : n = 2 → s.staged n skew bands h = { s with links := [] } := by rintro rfl; exact staged_two s skew bands h
  have h₃ : n = 3 → s.staged n skew bands h =
      { s with hbm := [], hbmPoison := [], elide := [], elideConst := [], l2 := [], l2Dirty := [], rdc := [] } := by
    rintro rfl; exact staged_three s skew bands h
  have h₅ : n = 5 → (s.staged n skew bands h).skew = skewOf skew := by rintro rfl; exact staged_five_skew s skew bands h
  have h₆ : n = 6 → s.staged n skew bands h = s := by rintro rfl; exact staged_six s skew bands h
  generalize s.staged n skew bands h = u at he hboot h₂ h₃ h₅ h₆
  refine ⟨_, he, ?_, fun e => ?_, fun e => ?_, fun e d => ?_, fun e => ?_⟩
  · dsimp only
    rw [hboot]
  · rw [h₂ e]
    exact ⟨rfl, rfl⟩
  · rw [h₃ e]
    exact ⟨rfl, rfl, rfl⟩
  · rw [h₅ e]
    exact skewOf_within skew d
  · rw [h₆ e]

/-- Settles O50, clause by clause from the laws of each event. -/
theorem boardEventResults : Obligations.BoardEventResults := by
  unfold Obligations.BoardEventResults
  intro s boots byte word onOne
  refine ⟨?reset, ?bootGo, ?verify, ?stages, execPcieHotReset_of_unlocked, execPcieHotReset_of_locked, ?mailbox, ?attest,
    ?noCluster, ?noPair, fun r hr => if_pos hr, fun n x hn => if_pos hn, ?cluster, ?layer,
    fun r hr hd => execDroopRestoreStep_spec hr hd, ?bellows, ?faults,
    fun st vmid addr len w hv => execHostMemoryAccess_noSuchPart hv st addr len w s, ?staging, ?host, ?aborted, ?registers⟩
  case reset =>
    rintro i (rfl | rfl) <;> rfl
  case bootGo =>
    exact fun len => ⟨fun hl h0 => execBootGo_of_idle hl h0 len, fun h => execBootGo_ignored h len⟩
  case verify =>
    intro len hlen
    obtain ⟨hkey, hrest⟩ := s.boot.verify_cases len
    refine ⟨fun hk => execImageVerified_of_error hlen (hkey hk), fun hk => ?_⟩
    obtain ⟨hsvn, hrest⟩ := hrest hk
    refine ⟨fun hv => execImageVerified_of_error hlen (hsvn hv), fun hv => ?_⟩
    obtain ⟨hform, hrest⟩ := hrest hv
    refine ⟨fun hf => execImageVerified_of_error hlen (hform hf), fun hf => ?_⟩
    obtain ⟨hbad, hok⟩ := hrest hf
    exact ⟨fun hs => execImageVerified_of_error hlen (hbad hs), fun hs => execImageVerified_of_ok hlen (hok hs)⟩
  case stages =>
    intro skew bands h h1 h5
    have hfail := execFirmwareStageComplete_trainFail h1 h5 skew bands
    refine ⟨fun h4 hm => execFirmwareStageComplete_noMemory skew bands h4 hm,
      fun hm => execFirmwareStageComplete_pass_spec h1 h5 skew bands rfl hm, fun h2 => hfail.trans ?_,
      fun h3 => hfail.trans ?_, fun h4 => hfail.trans ?_, execFirmwareStageComplete_selfTestFail h1 h5 skew bands⟩
    · rw [if_pos (by omega)]
    · rw [if_neg (by omega), if_pos (by omega)]
    · rw [if_neg (by omega), if_neg (by omega)]
  case mailbox =>
    intro addr a h4 hf ha hp hc
    have h := execMailboxStore_eq h4 hf ha hp hc
    exact ⟨fun hr => h.trans (if_neg (by simp [hr])), fun hr => h.trans (if_pos (Option.isSome_iff_ne_none.mpr hr))⟩
  case attest =>
    exact fun a ha => ⟨execAttestationReport_of_bad ha, execAttestationReport_of_ok ha⟩
  case noCluster =>
    rintro c hc i ⟨x, rfl | ⟨n, rfl⟩ | rfl | ⟨ok, rfl⟩ | rfl⟩ <;> exact if_pos hc
  case noPair =>
    rintro n p hnp i (⟨u, v, rfl⟩ | ⟨v, rfl⟩) <;> exact if_pos (by simpa using hnp)
  case cluster =>
    intro c hc
    exact ⟨fun x => execTemperatureSample_spec hc x s, fun n => if_neg (by omega), if_neg (by omega),
      fun ok => ⟨fun h => execSelfTestSlotEnd_of_idle hc h ok, fun h => execSelfTestSlotEnd_spec hc h ok⟩,
      ⟨execClusterGate_of_gates hc, execClusterGate_of_not_gates hc⟩, execClusterWake_of_awake, execClusterWake_of_waking⟩
  case layer =>
    exact fun n hn p hp upper mv => ⟨execLayerVoltageSample_spec hn hp upper mv s, execMidRailSample_spec hn hp mv s⟩
  case bellows =>
    intro n hn x
    obtain ⟨t, ht, hrest, hcur, hprefs, hraise⟩ := execPreferenceRebuild_spec hn x s
    have hlist := And.intro (preferences_perm x) (preferences_pairwise x)
    rw [← hprefs] at hlist
    refine ⟨t, ht, hrest, hcur, hlist, fun hl c => ?_⟩
    obtain ⟨hkeep, hlight, hheavy⟩ := hraise hl c
    exact ⟨hkeep, hlight, fun h => (hheavy h).2⟩
  case faults =>
    exact fun unit addr => ⟨execScrubPass_of_latent, execScrubPass_of_none, fun hl hm hs =>
      ⟨execSingleFault_first hl hm hs, execSingleFault_second hl hm hs⟩⟩
  case staging =>
    exact fun bs addr vmid len hv hb => ⟨_, execHostMemoryAccess_staging len hv hb, rfl, fun a =>
      (congrArg (fun x => [x]) (get_stagingWritten s.boot.staging addr bs a)).trans (apply_ite (fun x => [x]) _ _ _)⟩
  case host =>
    exact fun vmid hv addr len t ps => ⟨fun bs => execHostMemoryAccess_write len hv, execHostMemoryAccess_read hv⟩
  case aborted =>
    exact fun vmid hv addr len w a => execHostMemoryAccess_aborted hv
  case registers =>
    intro v two
    obtain ⟨hstage, herror, hattempts, hzero, hlocked, htop⟩ := s.boot.status_fields
    exact ⟨⟨hstage, herror, hattempts, hzero, hlocked, htop, rfl⟩, rfl, rfl, fun c => rfl, fun c => rfl,
      fun k l G h => execRegisterWrite_fflags h l v, fun b B h => execRegisterWrite_mflags h v,
      fun r => execRegisterWrite_stepLimit s r v⟩

/-- Settles O59: the tables of the reset state are empty, so each part reads as its default. -/
theorem resetValues : Obligations.ResetValues := by
  unfold Obligations.ResetValues
  have hcluster (c : Nat) : State.reset.cluster c = {} := rfl
  have hcore (c : Nat) : State.reset.core c = {} := rfl
  have hctx (c : Nat) : State.reset.ctxOf c = {} := rfl
  refine ⟨rfl, rfl, rfl, rfl, rfl, rfl, rfl, fun c => ?_, fun c => ?_, fun c => ?_, rfl, rfl, rfl, rfl, rfl, rfl, rfl, rfl, rfl,
    rfl, rfl, rfl, rfl, rfl, rfl, rfl, rfl, memoryWf_reset⟩
  · rw [hcluster]
    exact ⟨rfl, rfl⟩
  · rw [hcore]
    exact ⟨rfl, rfl, rfl, rfl⟩
  · rw [hctx]
    exact ⟨rfl, rfl, rfl, rfl, rfl, rfl⟩

end Sys2Proof.Machine
end

section
/-! SUPPORT. The rounding of an exact magnitude to a code, step 1 of R60: the code toward zero is the greatest one not above
(O6). -/

namespace Sys2Proof.Num

-- Exact values as rationals

/-- The magnitude of a finite value; 0 for an infinity and a NaN. -/
def Val.mag : Val → ℚ
  | .fin _ n d => (n : ℚ) / d
  | .inf _ | .nan _ => 0

@[simp] theorem mag_fin (neg : Bool) (n d : Nat) : (Val.fin neg n d).mag = (n : ℚ) / d := rfl

theorem two_zpow_of_nonneg {x : Int} (hx : 0 ≤ x) : (2 : ℚ) ^ x = ((2 ^ x.toNat : Nat) : ℚ) := by
  rw [Nat.cast_pow, Nat.cast_ofNat, ← zpow_natCast, Int.toNat_of_nonneg hx]

theorem two_zpow_of_neg {x : Int} (hx : ¬0 ≤ x) : (2 : ℚ) ^ x = ((2 ^ (-x).toNat : Nat) : ℚ)⁻¹ := by
  rw [← two_zpow_of_nonneg (by omega), zpow_neg, inv_inv]

@[simp] theorem mag_pow2 (neg : Bool) (n : Nat) (x : Int) : (pow2 neg n x).mag = n * 2 ^ x := by
  simp only [pow2]
  split
  · next hx => rw [two_zpow_of_nonneg hx, mag_fin, Nat.cast_mul, Nat.cast_one, div_one]
  · next hx => rw [two_zpow_of_neg hx, mag_fin, div_eq_mul_inv]

/-- The codes of one binade and the first of the next, and, at `k = 0`, those below the smallest normal number: each is a
multiple of one unit in the last place. -/
theorem mag_magnitude (f : Fmt) (neg : Bool) {k q : Nat} (hq : q ≤ 2 * 2 ^ (f.p - 1)) (hk : k = 0 ∨ 2 ^ (f.p - 1) ≤ q) :
    (magnitude f neg (k * 2 ^ (f.p - 1) + q)).mag = q * 2 ^ ((k : Int) + 1 - f.bias - (f.p - 1 : Nat)) := by
  have ht : 0 < 2 ^ (f.p - 1) := by positivity
  simp only [magnitude]
  generalize hT : 2 ^ (f.p - 1) = T at *
  have hT' : (2 : ℚ) ^ (f.p - 1) = T := by rw [← hT]; push_cast; rfl
  rcases Nat.lt_or_ge q T with hlt | hge
  · obtain rfl : k = 0 := by omega
    rw [Nat.zero_mul, Nat.zero_add, Nat.div_eq_of_lt hlt, Nat.mod_eq_of_lt hlt, if_pos rfl, mag_pow2]
    norm_num
  rcases Nat.lt_or_ge q (2 * T) with hlt | hge'
  · have hc : k * T + q = (k + 1) * T + (q - T) := by rw [Nat.succ_mul]; omega
    rw [hc, Nat.add_comm, Nat.add_mul_div_right _ _ ht, Nat.add_mul_mod_self_right, Nat.div_eq_of_lt (by omega),
      Nat.mod_eq_of_lt (by omega), if_neg (by omega), mag_pow2, Nat.add_sub_cancel' hge]
    norm_num
  · obtain rfl : q = 2 * T := by omega
    have hc : k * T + 2 * T = (k + 2) * T := by ring
    rw [hc, Nat.mul_div_cancel _ ht, Nat.mul_mod_left, if_neg (by omega), mag_pow2]
    have hx : ((k + 2 : Nat) : Int) - f.bias - (f.p - 1 : Nat) = (k : Int) + 1 - f.bias - (f.p - 1 : Nat) + 1 := by
      push_cast; ring
    rw [hx, zpow_add_one₀ (by norm_num)]
    push_cast
    ring

-- The logarithm and the quotient that a rounding takes

/-- `2 ^ x ≤ n / d`, as the model asks it of natural numbers. -/
theorem two_zpow_le_div_iff {n d : Nat} (hd : d ≠ 0) (x : Int) :
    (2 : ℚ) ^ x ≤ n / d ↔ if 0 ≤ x then d * 2 ^ x.toNat ≤ n else d ≤ n * 2 ^ (-x).toNat := by
  have hd' : (0 : ℚ) < d := by exact_mod_cast Nat.pos_of_ne_zero hd
  rw [le_div_iff₀ hd']
  split
  · next hx => rw [two_zpow_of_nonneg hx, mul_comm]; exact_mod_cast Iff.rfl
  · next hx =>
    rw [two_zpow_of_neg hx, inv_mul_le_iff₀ (by positivity), mul_comm]
    exact_mod_cast Iff.rfl

/-- The logarithm is the estimate from those of `n` and `d`, or one less. -/
theorem log2Frac_eq {n d : Nat} (hd : d ≠ 0) :
    log2Frac n d = if (2 : ℚ) ^ ((n.log2 : Int) - d.log2) ≤ n / d then (n.log2 : Int) - d.log2
      else (n.log2 : Int) - d.log2 - 1 := by
  simp only [two_zpow_le_div_iff hd, log2Frac]
  by_cases h : 0 ≤ (n.log2 : Int) - d.log2
  · simp only [if_pos h]
  · simp only [if_neg h]

theorem two_zpow_log2Frac {n d : Nat} (hn : n ≠ 0) (hd : d ≠ 0) :
    (2 : ℚ) ^ log2Frac n d ≤ n / d ∧ (n : ℚ) / d < 2 ^ (log2Frac n d + 1) := by
  have hd' : (0 : ℚ) < d := by exact_mod_cast Nat.pos_of_ne_zero hd
  have hnlo : (2 : ℚ) ^ (n.log2 : Int) ≤ n := by exact_mod_cast Nat.log2_self_le hn
  have hnhi : (n : ℚ) < 2 ^ ((n.log2 : Int) + 1) := by exact_mod_cast Nat.lt_log2_self
  have hdlo : (2 : ℚ) ^ (d.log2 : Int) ≤ d := by exact_mod_cast Nat.log2_self_le hd
  have hdhi : (d : ℚ) < 2 ^ ((d.log2 : Int) + 1) := by exact_mod_cast Nat.lt_log2_self
  rw [log2Frac_eq hd]
  split
  · next h =>
    refine ⟨h, ?_⟩
    rw [div_lt_iff₀ hd']
    calc (n : ℚ) < 2 ^ ((n.log2 : Int) + 1) := hnhi
      _ = 2 ^ ((n.log2 : Int) - d.log2 + 1) * 2 ^ (d.log2 : Int) := by rw [← zpow_add₀ (by norm_num)]; congr 1; ring
      _ ≤ 2 ^ ((n.log2 : Int) - d.log2 + 1) * d := by gcongr
  · next h =>
    refine ⟨?_, by rw [sub_add_cancel]; exact not_le.mp h⟩
    rw [le_div_iff₀ hd']
    calc (2 : ℚ) ^ ((n.log2 : Int) - d.log2 - 1) * d ≤ 2 ^ ((n.log2 : Int) - d.log2 - 1) * 2 ^ ((d.log2 : Int) + 1) := by
          gcongr
      _ = 2 ^ (n.log2 : Int) := by rw [← zpow_add₀ (by norm_num)]; congr 1; ring
      _ ≤ n := hnlo

/-- The quotient is the number of whole steps of `2 ^ x` in the magnitude. -/
theorem splitAt_fst (n d : Nat) (x : Int) : (splitAt n d x).1 = ⌊(n : ℚ) / d / 2 ^ x⌋₊ := by
  simp only [splitAt]
  split
  · next hx => rw [two_zpow_of_nonneg hx, div_div, ← Nat.cast_mul, Nat.floor_div_eq_div]
  · next hx =>
    rw [two_zpow_of_neg hx, div_inv_eq_mul, div_mul_eq_mul_div, ← Nat.cast_mul, Nat.floor_div_eq_div]

theorem splitAt_bounds (n d : Nat) (x : Int) :
    (splitAt n d x).1 * (2 : ℚ) ^ x ≤ n / d ∧ (n : ℚ) / d < ((splitAt n d x).1 + 1) * 2 ^ x := by
  have hx : (0 : ℚ) < 2 ^ x := by positivity
  rw [splitAt_fst, ← le_div_iff₀ hx, ← div_lt_iff₀ hx]
  exact ⟨Nat.floor_le (by positivity), Nat.lt_floor_add_one _⟩

theorem le_splitAt_iff (n d m : Nat) (x : Int) : m ≤ (splitAt n d x).1 ↔ (m : ℚ) * 2 ^ x ≤ n / d := by
  rw [splitAt_fst, Nat.le_floor_iff (by positivity), le_div_iff₀ (by positivity)]

theorem splitAt_lt_iff (n d m : Nat) (x : Int) : (splitAt n d x).1 < m ↔ (n : ℚ) / d < m * 2 ^ x := by
  rw [← not_le, le_splitAt_iff, not_le]

theorem two_pow_mul_two_zpow_sub (t : Nat) (e : Int) : ((2 ^ t : Nat) : ℚ) * 2 ^ (e - t) = 2 ^ e := by
  rw [Nat.cast_pow, Nat.cast_ofNat, ← zpow_natCast, ← zpow_add₀ (by norm_num), add_sub_cancel]

-- Rounding toward zero

/-- Toward zero a magnitude keeps the whole steps of its binade, or of the lowest binade where it lies below. -/
theorem roundMag_rtz_eq (f : Fmt) (neg : Bool) {n d : Nat} (hn : n ≠ 0) (hd : d ≠ 0) :
    ∃ k q : Nat, (roundMag f .rtz neg n d).1 = k * 2 ^ (f.p - 1) + q ∧
      q = (splitAt n d ((k : Int) + 1 - f.bias - (f.p - 1 : Nat))).1 ∧ q < 2 * 2 ^ (f.p - 1) ∧
      (k = 0 ∨ 2 ^ (f.p - 1) ≤ q) := by
  obtain ⟨hlo, hhi⟩ := two_zpow_log2Frac hn hd
  simp only [roundMag, if_neg hn, roundsUp, Bool.false_eq_true, if_false, Nat.add_zero]
  generalize f.p - 1 = t
  by_cases htiny : log2Frac n d < 1 - (f.bias : Int)
  · refine ⟨0, (splitAt n d (1 - f.bias - t)).1, by simp [htiny], by simp, ?_, .inl rfl⟩
    rw [splitAt_lt_iff, Nat.cast_mul, mul_assoc, two_pow_mul_two_zpow_sub]
    calc (n : ℚ) / d < 2 ^ (log2Frac n d + 1) := hhi
      _ ≤ 2 ^ (1 - (f.bias : Int)) := zpow_le_zpow_right₀ (by norm_num) (by omega)
      _ ≤ (2 : Nat) * 2 ^ (1 - (f.bias : Int)) := le_mul_of_one_le_left (by positivity) (by norm_num)
  · have hk : (((log2Frac n d + f.bias).toNat - 1 : Nat) : Int) + 1 - f.bias - t = log2Frac n d - t := by omega
    have hq : 2 ^ t ≤ (splitAt n d (log2Frac n d - t)).1 := by
      rw [le_splitAt_iff, two_pow_mul_two_zpow_sub]
      exact hlo
    refine ⟨(log2Frac n d + f.bias).toNat - 1, (splitAt n d (log2Frac n d - t)).1, ?_, by rw [hk], ?_, .inr hq⟩
    · have hs : (log2Frac n d + f.bias).toNat = (log2Frac n d + f.bias).toNat - 1 + 1 := by omega
      simp only [htiny, if_false]
      rw [hs, Nat.succ_mul, Nat.add_sub_cancel, Nat.add_assoc, Nat.add_sub_cancel' hq]
    · rw [splitAt_lt_iff, Nat.cast_mul, mul_assoc, two_pow_mul_two_zpow_sub, mul_comm]
      rwa [zpow_add_one₀ (by norm_num)] at hhi

/-- Step 1 of R60 toward zero, of every format: the code's value does not exceed the magnitude, and the next code's does. -/
theorem roundMag_rtz_bounds (f : Fmt) (neg : Bool) {n d : Nat} (hn : n ≠ 0) (hd : d ≠ 0) :
    (magnitude f neg (roundMag f .rtz neg n d).1).mag ≤ n / d ∧
      (n : ℚ) / d < (magnitude f neg ((roundMag f .rtz neg n d).1 + 1)).mag := by
  obtain ⟨k, q, hc, hq, hlt, hk⟩ := roundMag_rtz_eq f neg hn hd
  obtain ⟨hle, hgt⟩ := splitAt_bounds n d ((k : Int) + 1 - f.bias - (f.p - 1 : Nat))
  rw [← hq] at hle hgt
  rw [hc, Nat.add_assoc, mag_magnitude f neg hlt.le hk, mag_magnitude f neg hlt (hk.imp_right Nat.le_succ_of_le), Nat.cast_succ]
  exact ⟨hle, hgt⟩

/-- Settles O6, which holds of every format. -/
theorem roundTowardZeroIsTheGreatestCodeNotAbove : Obligations.RoundTowardZeroIsTheGreatestCodeNotAbove := by
  unfold Obligations.RoundTowardZeroIsTheGreatestCodeNotAbove
  intro f n d _ hn hd c val
  have hval (c : Nat) : val c = (magnitude f false c).mag := by
    simp only [val]
    cases magnitude f false c <;> rfl
  rw [hval, hval]
  exact roundMag_rtz_bounds f false hn hd

end Sys2Proof.Num
end

section
/-! SUPPORT. Laws of the instructions of a sequencer: what is left when the body succeeds, and what the matrix engine's operands
in the window are checked for and read (R199). -/

namespace Sys2Proof.Machine

-- Tables of a function's values

theorem not_mem_of_find?_none {α : Type} {m : SMap α} {n : Nat} (h : m.find? n = none) (v : α) : (n, v) ∉ m := by
  induction m with
  | nil => exact List.not_mem_nil
  | cons e m ih =>
    obtain ⟨k, w⟩ := e
    simp only [SMap.find?] at h
    split at h
    · cases h
    · next hk =>
      rintro (_ | ⟨_, hm⟩)
      · exact hk rfl
      · exact ih h hm

/-- A table that lists values of a function, and lists at `n` unless the function has the default there, reads as the function
at `n`. -/
theorem get_of_listed {α : Type} {d : α} {m : SMap α} (w : Nat → α) {n : Nat} (hm : ∀ e ∈ m, e.2 = w e.1)
    (hn : w n ≠ d → (n, w n) ∈ m) : m.get d n = w n := by
  rw [SMap.get]
  cases hf : m.find? n with
  | none => exact (Classical.not_not.mp fun h => not_mem_of_find?_none hf _ (hn h)).symm
  | some v => exact hm _ (mem_of_find? hf)

/-- A table of the first `N` words of a function. -/
def tabled (N : Nat) (w : Nat → Word) : SMap Word := (List.range N).filterMap fun i => if w i = 0 then none else some (i, w i)

theorem get_tabled {N : Nat} (w : Nat → Word) {i : Nat} (hi : i < N) : (tabled N w).get 0 i = w i := by
  refine get_of_listed w (fun e he => ?_) fun h => ?_
  · obtain ⟨j, -, hj⟩ := List.mem_filterMap.mp he
    split at hj
    · cases hj
    · cases hj
      rfl
  · exact List.mem_filterMap.mpr ⟨i, List.mem_range.mpr hi, if_neg h⟩

-- An instruction of a sequencer

@[simp] theorem setBlock_setBlock (s : State) (b : Nat) (B C : Block) : (s.setBlock b B).setBlock b C = s.setBlock b C := by
  simp [State.setBlock]

@[simp] theorem onBlock_setBlock (s : State) (b : Nat) (B : Block) (f : Block → Block) :
    (s.setBlock b B).onBlock b f = s.setBlock b (f B) := by
  simp [State.onBlock]

@[simp] theorem onSeq_setBlock (s : State) (b : Nat) (B : Block) (mx : Bool) (f : Seq → Seq) :
    (s.setBlock b B).onSeq b mx f = s.setBlock b (B.putSeq mx (f (B.seq mx))) := onBlock_setBlock s b B _

theorem onSeq_of_find {s : State} {b : Nat} {B : Block} (h : s.blocks.find? b = some B) (mx : Bool) (f : Seq → Seq) :
    s.onSeq b mx f = s.setBlock b (B.putSeq mx (f (B.seq mx))) := onBlock_of_find h _

variable {i : Instr} {s : State} {k : Nat} {B : Block}

/-- Where a sequencer executes an instruction of its own, the next state is what the instruction's body makes of this one. -/
theorem seqOp_executes {mx : Bool} (h : SeqExecutes i mx s k B) (body : State → Nat → State) :
    seqOp i mx s body = .next (body s k) := by
  obtain ⟨hcur, hblock, hwf, hguard⟩ := h
  have he : decide (seqEngine mx = if mx then .matrix else .copy) = true := by cases mx <;> rfl
  simp only [seqOp, hcur, he, hblock, runSeq, hwf, hguard, Bool.not_true, Bool.false_eq_true, if_false]

theorem matrixSeq_of_ok {f : State → Nat → Block → Except Stop State} {t : State} (h : s.blocks.find? k = some B)
    (hf : f s k B = .ok t) : matrixSeq f s k = t := by
  simp only [matrixSeq, h, hf]

theorem seqWrote_advance (q : Seq) : SeqWrote q q.advance {} :=
  seqWrote_putOut q {} rfl List.nodup_nil List.nodup_nil

-- Operands in the window (R199)

@[simp] theorem length_lsRead (B : Block) (o n : Nat) : (B.lsRead o n).length = n := by simp [Block.lsRead]

/-- A part of a range of the window. -/
theorem lsRead_drop_take (B : Block) (o : Nat) {n x c : Nat} (h : x + c ≤ n) :
    ((B.lsRead o n).drop x).take c = B.lsRead (o + x) c := by
  refine List.ext_getElem (by simp; omega) fun j _ _ => ?_
  simp [Block.lsRead, Nat.add_assoc]

/-- Rows aligned and inside the window pass the checks of R199. -/
theorem chkAll_rowsAt {B : Block} {o p n al : Nat} (h : ∀ m < 32, (o + m * p) % al = 0 ∧ o + m * p + n ≤ B.lsb) :
    chkAll B false al (rowsAt o p n) = none := by
  simp only [chkAll, rowsAt, List.findSome?_eq_none_iff, List.forall_mem_map, List.mem_range]
  intro m hm
  obtain ⟨hal, hlsb⟩ := h m hm
  simp [chk, hal, hlsb]

theorem heldRows_rowsAt {B : Block} {o p n : Nat} (h : ∀ m < 32, s.held B.core 0 (.ls k (o + m * p)) n = false) :
    s.heldRows k B (rowsAt o p n) = false := by
  simpa [State.heldRows, rowsAt] using h

theorem sv_of_clean {q : Seq} {r : BitVec 8} (h : (q.view.reg ⟨false, r⟩).2 = false) :
    q.sv r = .ok (q.view.reg ⟨false, r⟩).1 := by
  simp only [Seq.sv]
  split
  · next hr => rw [hr] at h; cases h
  · next hr => rw [hr]

end Sys2Proof.Machine
end

section
/-! SUPPORT. The rows of the latches by their elements' codes, and a product's words as folds over k-groups (R66 to R68). -/

namespace Sys2Proof.Machine

-- Rows put together

/-- An element of one of several rows of the same length, in the rows put together. -/
theorem getElem?_flatten_rows {α : Type} {rows : List (List α)} {L m x : Nat} (hL : ∀ r ∈ rows, r.length = L)
    (hm : m < rows.length) (hx : x < L) : rows.flatten[L * m + x]? = rows[m][x]? := by
  induction rows generalizing m with
  | nil => simp at hm
  | cons r rows ih =>
    have hr : r.length = L := hL r List.mem_cons_self
    rw [List.flatten_cons]
    cases m with
    | zero => rw [Nat.mul_zero, Nat.zero_add, List.getElem?_append_left (by omega), List.getElem_cons_zero]
    | succ m =>
      have hi : L * (m + 1) + x - r.length = L * m + x := by rw [hr, Nat.mul_succ]; omega
      rw [List.getElem?_append_right (by rw [hr, Nat.mul_succ]; omega), hi, List.getElem_cons_succ,
        ih (fun r h => hL r (List.mem_cons_of_mem _ h)) (by simpa using hm)]

/-- A part of one of several rows of the same length, in the rows put together. -/
theorem flatten_drop_take {α : Type} {rows : List (List α)} {L m x c : Nat} (hL : ∀ r ∈ rows, r.length = L)
    (hm : m < rows.length) (h : x + c ≤ L) : (rows.flatten.drop (L * m + x)).take c = (rows[m].drop x).take c := by
  refine List.ext_getElem? fun j => ?_
  simp only [List.getElem?_take, List.getElem?_drop]
  split
  · rw [Nat.add_assoc, getElem?_flatten_rows hL hm (by omega)]
  · rfl

-- Rows of codes

/-- Rows of one length, each computed from its place, put together. -/
theorem flatten_map_range {α : Type} (f : Nat → α) (L n : Nat) :
    ((List.range n).map fun m => (List.range L).map fun x => f (L * m + x)).flatten = (List.range (L * n)).map f := by
  induction n with
  | zero => rfl
  | succ n ih =>
    rw [List.range_succ, List.map_append, List.flatten_append, ih, Nat.mul_succ, List.range_add, List.map_append]
    simp [Function.comp_def]

theorem chunks_map_range {α : Type} (f : Nat → α) {L n fuel : Nat} (hL : 0 < L) (hn : n ≤ fuel) :
    chunks L fuel ((List.range (L * n)).map f) = (List.range n).map fun j => (List.range L).map fun x => f (L * j + x) := by
  induction n generalizing f fuel with
  | zero => cases fuel <;> rfl
  | succ n ih =>
    obtain ⟨fuel, rfl⟩ : ∃ m, fuel = m + 1 := ⟨fuel - 1, by omega⟩
    have hne : (List.range (L * (n + 1))).map f ≠ [] := by simp; omega
    have hsplit : (List.range (L * (n + 1))).map f =
        (List.range L).map f ++ (List.range (L * n)).map fun x => f (L + x) := by
      rw [Nat.mul_succ, Nat.add_comm, List.range_add, List.map_append, List.map_map]
      rfl
    rw [chunks, if_neg (by simpa using hne), hsplit, List.take_left' (by simp), List.drop_left' (by simp),
      ih _ (by omega), List.range_succ_eq_map]
    simp [Function.comp_def, Nat.mul_succ, Nat.add_assoc, Nat.add_comm L]

/-- The trit codes of a byte, by their place (R58). -/
theorem trits_fst (b : Nat) : (trits b).1 = (List.range 5).map fun j => if 242 < b then 0 else b / 3 ^ j % 3 := by
  simp only [trits, List.range, List.range.loop]
  split <;> simp

/-- A list mapped place by place. -/
theorem map_eq_map_range {α β : Type} (f : α → β) (r : List α) (x : α) :
    r.map f = (List.range r.length).map fun j => f (r.getD j x) := by
  refine List.ext_getElem (by simp) fun j hj _ => ?_
  rw [List.length_map] at hj
  simp [List.getD_eq_getElem?_getD, hj]

theorem field_two (r : List Byte) {o : Nat} (h : o + 1 < r.length) :
    field r o 2 = (r.getD o 0).toNat + 256 * (r.getD (o + 1) 0).toNat := by
  rw [List.getD_eq_getElem _ _ (by omega), List.getD_eq_getElem _ _ h, field, List.drop_eq_getElem_cons (by omega),
    List.drop_eq_getElem_cons h]
  rfl

/-- A row of a latch gives the codes of its elements. -/
theorem latchCodes_row {l : Latch} {c : LatchClass} (h : l.shaped c) {m : Nat} (hm : m < 32) :
    latchCodes c (l.rows.getD m []) = (List.range l.k).map (l.code c m) := by
  obtain ⟨hlen, n, hn, hform⟩ := h
  have hr : (l.rows.getD m []).length = n := by
    rw [List.getD_eq_getElem _ _ (by omega)]
    exact hn _ (List.getElem_mem _)
  obtain ⟨rfl, hk, rfl⟩ | ⟨rfl | rfl, hk, -⟩ | ⟨rfl, hk, rfl⟩ := hform
  · rw [hk]
    refine List.map_congr_left fun x hx => ?_
    rw [List.mem_range] at hx
    exact field_two _ (by omega)
  · rw [hk, ← hr]
    exact map_eq_map_range _ _ 0
  · rw [hk, ← hr]
    exact map_eq_map_range _ _ 0
  · rw [hk, ← flatten_map_range _ 5 32, latchCodes, map_eq_map_range _ _ 0, hr]
    refine congrArg _ (List.map_congr_left fun i _ => (trits_fst _).trans (List.map_congr_left fun j hj => ?_))
    rw [List.mem_range] at hj
    have hdiv : (5 * i + j) / 5 = i := by omega
    have hmod : (5 * i + j) % 5 = j := by omega
    simp only [Latch.code, hdiv, hmod]

-- Products

/-- A word with `N` k-groups added in ascending order, and the flags they raise. -/
def addGroups {α : Type} (step : Word → List α → List α → Word × Num.FlagSet) (x y : Nat → List α) (N : Nat)
    (w : Word) : Word × Num.FlagSet :=
  (List.range N).foldl (fun r j => ((step r.1 (x j) (y j)).1, r.2 ||| (step r.1 (x j) (y j)).2)) (w, 0)

/-- The k-group `j` of groups of `L` elements. -/
def kGroup {α : Type} (L : Nat) (x : Nat → α) (j : Nat) : List α := (List.range L).map fun i => x (L * j + i)

theorem chunkRows_getD {α : Type} {r : List (List α)} {f : Nat → α} {L N i : Nat} (hL : 0 < L) (hN : N ≤ 20)
    (h : r.getD i [] = (List.range (L * N)).map f) : (r.map (chunks L 20)).getD i [] = (List.range N).map (kGroup L f) := by
  rw [show ([] : List (List α)) = chunks L 20 [] from rfl, List.getD_map, h, chunks_map_range _ hL hN]
  rfl

/-- A product's word at the place `i`, and the flags that it raises. -/
def productAt {α : Type} (step : Word → List α → List α → Word × Num.FlagSet) (L : Nat) (acc : SMap Word)
    (a b : List (List α)) (i : Nat) : Word × Num.FlagSet :=
  (((a.map (chunks L 20)).getD (i / 32) []).zip ((b.map (chunks L 20)).getD (i % 32) [])).foldl
    (fun (r : Word × Num.FlagSet) g => ((step r.1 g.1 g.2).1, r.2 ||| (step r.1 g.1 g.2).2))
    (acc.get 0 (32 * (i / 32) + i % 32), 0)

theorem product_eq {α : Type} (step : Word → List α → List α → Word × Num.FlagSet) (L : Nat) (acc : SMap Word)
    (a b : List (List α)) : product step L acc a b =
      ((((List.range 1024).map fun i => (i, productAt step L acc a b i)).filter (·.2.1 != 0)).map fun c => (c.1, c.2.1),
        ((List.range 1024).map fun i => (i, productAt step L acc a b i)).foldl (fun f c => f ||| c.2.2) 0) := rfl

/-- The words of a product's cells, those that are 0 left out, read as the cells' words. -/
theorem get_nonzeros (c : Nat → Word × Num.FlagSet) {N i : Nat} (hi : i < N) :
    SMap.get 0 ((((List.range N).map fun i => (i, c i)).filter (·.2.1 != 0)).map fun x => (x.1, x.2.1)) i = (c i).1 := by
  refine get_of_listed (fun i => (c i).1) (fun e he => ?_) fun hne => ?_
  · obtain ⟨x, hx, rfl⟩ := List.mem_map.mp he
    obtain ⟨j, -, rfl⟩ := List.mem_map.mp (List.mem_of_mem_filter hx)
    rfl
  · refine List.mem_map.mpr ⟨(i, c i), List.mem_filter.mpr ⟨?_, ?_⟩, rfl⟩
    · exact List.mem_map.mpr ⟨i, List.mem_range.mpr hi, rfl⟩
    · simpa using hne

section
variable {α : Type} {step : Word → List α → List α → Word × Num.FlagSet} {L N : Nat} {acc : SMap Word} {a b : List (List α)}
  {x y : Nat → Nat → α} (hL : 0 < L) (hN : N ≤ 20) (ha : ∀ m < 32, a.getD m [] = (List.range (L * N)).map (x m))
  (hb : ∀ n < 32, b.getD n [] = (List.range (L * N)).map (y n))
include hL hN ha hb

theorem productAt_eq {i : Nat} (hi : i < 1024) : productAt step L acc a b i =
    addGroups step (kGroup L (x (i / 32))) (kGroup L (y (i % 32))) N (acc.get 0 (32 * (i / 32) + i % 32)) := by
  rw [productAt, chunkRows_getD hL hN (ha _ (by omega)), chunkRows_getD hL hN (hb _ (by omega)), List.zip_map',
    List.foldl_map]
  rfl

theorem product_word {m n : Nat} (hm : m < 32) (hn : n < 32) : (product step L acc a b).1.get 0 (32 * m + n) =
    (addGroups step (kGroup L (x m)) (kGroup L (y n)) N (acc.get 0 (32 * m + n))).1 := by
  have hi : 32 * m + n < 1024 := by omega
  have hdiv : (32 * m + n) / 32 = m := by omega
  have hmod : (32 * m + n) % 32 = n := by omega
  have h := productAt_eq (acc := acc) (step := step) hL hN ha hb hi
  rw [hdiv, hmod] at h
  rw [product_eq, ← h]
  dsimp only
  exact get_nonzeros (productAt step L acc a b) hi

theorem product_flags : (product step L acc a b).2 = (List.range 1024).foldl (fun f i => f |||
    (addGroups step (kGroup L (x (i / 32))) (kGroup L (y (i % 32))) N (acc.get 0 (32 * (i / 32) + i % 32))).2) 0 := by
  rw [product_eq]
  dsimp only
  rw [List.foldl_map]
  exact List.foldl_ext _ _ _ fun f i hi => by rw [productAt_eq hL hN ha hb (List.mem_range.mp hi)]

end

end Sys2Proof.Machine
end

section
/-! SUPPORT. What `MZERO`, `MACCL` and `MMA` leave in an accumulator (R203, R208, R209), and the statement about them (O41). -/

namespace Sys2Proof.Machine

variable {i : Instr} {s : State} {k : Nat} {B : Block}

-- An accumulator replaced

/-- The block when its matrix sequencer has replaced an accumulator and the flags, and has gone on. -/
def Block.accDone (B : Block) (d : Nat) (A : Acc) (F : BitVec 7) : Block :=
  { B with acc := B.acc.write {} d A, mseq := { B.mseq with mflags := F }.advance }

/-- The flags of the matrix sequencer replaced. -/
def Block.withFlags (B : Block) (F : BitVec 7) : Block := { B with mseq := { B.mseq with mflags := F } }

theorem putSeq_advance_putAcc (B : Block) (d : Nat) (A : Acc) :
    (B.putAcc d A).putSeq true ((B.putAcc d A).seq true).advance = B.accDone d A B.mseq.mflags := rfl

/-- An instruction that replaces an accumulator and the flags and goes on has written nothing else. -/
theorem gives_of_accDone {d : Nat} {A : Acc} {F : BitVec 7} {X : Acc → Prop}
    (he : exec i s = .next (s.setBlock k (B.accDone d A F))) (hX : X A) :
    ∃ q C, exec i s = .next (s.setBlock k { B with acc := C, mseq := q }) ∧ SeqWrote { B.mseq with mflags := F } q {} ∧
      X (C.get {} d) ∧ ∀ j ≠ d, C.get {} j = B.acc.get {} j :=
  ⟨_, _, he, seqWrote_advance _, (SMap.get_write_self {} B.acc d A).symm ▸ hX, fun _ hj => SMap.get_write_of_ne _ _ hj⟩

-- `MZERO` and `MACCL`

theorem exec_mzero {g : Guard} {d : BitVec 2} (h : SeqExecutes (.mzero g d) true s k B) :
    exec (.mzero g d) s = .next (s.setBlock k (B.accDone d.toNat {} B.mseq.mflags)) := by
  refine (seqOp_executes h _).trans ?_
  rw [onBlock_of_find h.block, onSeq_setBlock, putSeq_advance_putAcc]

/-- The rows that `MACCL` reads. -/
def acclRows (B : Block) (o p : Nat) : List (List PByte) := (rowsAt o p 128).map fun r => B.lsRead r.1 r.2

theorem acclRows_eq (B : Block) (o p : Nat) : acclRows B o p = (List.range 32).map fun m => B.lsRead (o + m * p) 128 := by
  simp only [acclRows, rowsAt, List.map_map]
  rfl

/-- What `MACCL` loads from its rows. -/
def acclLoaded (rows : List (List PByte)) : Acc :=
  ⟨tabled 1024 fun i => BitVec.ofNat 32 (field (rows.flatten.map (·.1)) (4 * i) 4), rows.flatten.any (·.2)⟩

/-- Word `n` of row `m` is the `n`-th of the row's 128 bytes in fours. -/
theorem acclLoaded_acclRows_word (B : Block) (o p : Nat) {m n : Nat} (hm : m < 32) (hn : n < 32) :
    (acclLoaded (acclRows B o p)).words.get 0 (32 * m + n) =
      BitVec.ofNat 32 (ofBytes ((B.lsRead (o + m * p + 4 * n) 4).map (·.1))) := by
  have hx : 4 * (32 * m + n) = 128 * m + 4 * n := by omega
  rw [acclLoaded, get_tabled _ (by omega), field, hx, acclRows_eq, ← List.map_drop, ← List.map_take,
    flatten_drop_take (by simp) (by simpa using hm) (by omega), List.getElem_map, List.getElem_range,
    lsRead_drop_take _ _ (by omega)]

theorem acclLoaded_acclRows_poison (B : Block) (o p : Nat) : (acclLoaded (acclRows B o p)).poison =
    (List.range 32).any fun m => (B.lsRead (o + m * p) 128).any (·.2) := by
  simp only [acclLoaded, acclRows_eq, List.any_flatten, List.any_map]
  rfl

theorem exec_maccl {g : Guard} {d : BitVec 2} {a b : BitVec 8} {off va vb : Word}
    (h : SeqExecutes (.maccl g d a b off) true s k B) (ha : B.mseq.sv a = .ok va) (hb : B.mseq.sv b = .ok vb)
    (hoff : 0 ≤ (va.toNat : Int) + off.toInt) (hp : vb.toNat % 16 = 0)
    (hrows : ∀ m < 32, ((va + off).toNat + m * vb.toNat) % 16 = 0 ∧ (va + off).toNat + m * vb.toNat + 128 ≤ B.lsb ∧
      s.held B.core 0 (.ls k ((va + off).toNat + m * vb.toNat)) 128 = false) :
    exec (.maccl g d a b off) s =
      .next (s.setBlock k (B.accDone d.toNat (acclLoaded (acclRows B (va + off).toNat vb.toNat)) B.mseq.mflags)) := by
  refine (seqOp_executes h _).trans (congrArg _ (matrixSeq_of_ok h.block ?_))
  have hwrap : decide ((va.toNat : Int) + off.toInt < 0) = false := by simpa using hoff
  have hchk := chkAll_rowsAt fun m hm => ⟨(hrows m hm).1, (hrows m hm).2.1⟩
  have hheld := heldRows_rowsAt fun m hm => (hrows m hm).2.2
  simp only [ha, hb, baseOf, hwrap, hp, hchk, hheld, onBlock_of_find h.block, onSeq_setBlock, putSeq_advance_putAcc, bind,
    Except.bind, ne_eq, not_true_eq_false, if_false, Bool.false_eq_true, acclLoaded, acclRows, tabled]
  congr

-- The words of `MMA`

/-- A k-group on the integer path adds the sum of its products. -/
theorem groupInt_map (w : Word) (L : Nat) (f g : Nat → Int) :
    groupInt w ((List.range L).map f) ((List.range L).map g) =
      (BitVec.ofInt 32 (w.toInt + ((List.range L).map fun i => f i * g i).sum),
        if w.toInt + ((List.range L).map fun i => f i * g i).sum < -2 ^ 31 ∨
          2 ^ 31 ≤ w.toInt + ((List.range L).map fun i => f i * g i).sum then Num.io else 0) := by
  simp only [groupInt, List.zip_map', List.map_map, ← List.sum_eq_foldl, Bool.or_eq_true, decide_eq_true_eq]
  rfl

section
variable (sa sb : Slot) (la lb : Latch)

/-- The elements of a k-group (R66, R68). -/
def groupLen : Nat := if sa.cls = .tern then 10 else 8

/-- The k-group `j` of row `m` of latch A and row `n` of latch B added to a word (R66, R68). -/
def mmaGroup (float : Bool) (m n : Nat) (w : Word) (j : Nat) : Word × BitVec 7 :=
  if float then groupFloat (combined sa sb (la.exp + lb.exp)) w (kGroup (groupLen sa) (fun k => sa.elem (la.code sa.cls m k)) j)
    (kGroup (groupLen sa) (fun k => sb.elem (lb.code sb.cls n k)) j)
  else
    let v := w.toInt + (kGroup (groupLen sa) (fun k => sa.elemInt (la.code sa.cls m k) * sb.elemInt (lb.code sb.cls n k)) j).sum
    (BitVec.ofInt 32 v, if v < -2 ^ 31 ∨ 2 ^ 31 ≤ v then Num.io else 0)

/-- What `MMA` makes of the word `(m, n)` of an accumulator, and the flags that its k-groups raise. -/
def mmaRun (float : Bool) (acc : SMap Word) (m n : Nat) : Word × BitVec 7 :=
  (List.range (la.k / groupLen sa)).foldl
    (fun r j => ((mmaGroup sa sb la lb float m n r.1 j).1, r.2 ||| (mmaGroup sa sb la lb float m n r.1 j).2))
    (acc.get 0 (32 * m + n), 0)

theorem mmaRun_float (acc : SMap Word) (m n : Nat) : mmaRun sa sb la lb true acc m n =
    addGroups (groupFloat (combined sa sb (la.exp + lb.exp))) (kGroup (groupLen sa) fun k => sa.elem (la.code sa.cls m k))
      (kGroup (groupLen sa) fun k => sb.elem (lb.code sb.cls n k)) (la.k / groupLen sa) (acc.get 0 (32 * m + n)) := rfl

theorem mmaRun_int (acc : SMap Word) (m n : Nat) : mmaRun sa sb la lb false acc m n =
    addGroups groupInt (kGroup (groupLen sa) fun k => sa.elemInt (la.code sa.cls m k))
      (kGroup (groupLen sa) fun k => sb.elemInt (lb.code sb.cls n k)) (la.k / groupLen sa) (acc.get 0 (32 * m + n)) := by
  simp only [mmaRun, addGroups, kGroup, groupInt_map]
  rfl

variable {sa sb la lb}

theorem groupLen_pos : 0 < groupLen sa := by
  rw [groupLen]
  split <;> omega

/-- The rows of a loaded latch are whole k-groups, 20 at most. -/
theorem groups_of_shaped (h : la.shaped sa.cls) :
    groupLen sa * (la.k / groupLen sa) = la.k ∧ la.k / groupLen sa ≤ 20 := by
  obtain ⟨-, n, -, ⟨hc, hk, -⟩ | ⟨hc, hk, hn⟩ | ⟨hc, hk, -⟩⟩ := h
  · rw [groupLen, if_neg (by rw [hc]; decide)]
    omega
  · rw [groupLen, if_neg (by rcases hc with hc | hc <;> rw [hc] <;> decide)]
    omega
  · rw [groupLen, if_pos hc]
    omega

/-- The elements of a row of a loaded latch. -/
theorem elemRows_getD {α : Type} (e : Nat → α) {l : Latch} {c : LatchClass} (h : l.shaped c) {m : Nat} (hm : m < 32) :
    ((l.rows.map (latchCodes c)).map fun r => r.map e).getD m [] = (List.range l.k).map fun k => e (l.code c m k) := by
  have hlen : m < l.rows.length := by rw [h.1]; exact hm
  have hrow := latchCodes_row h hm
  rw [List.getD_eq_getElem _ _ hlen] at hrow
  rw [List.getD_eq_getElem _ _ (by simpa using hlen), List.getElem_map, List.getElem_map, hrow, List.map_map]
  rfl

section
variable (ha : la.shaped sa.cls) (hb : lb.shaped sb.cls) (hk : la.k = lb.k) (float : Bool) (acc : SMap Word)
include ha hb hk

/-- The words of `MMA` are a product on either path, of the rows of the latches' elements. -/
theorem mmaWords_eq_product : ∃ (α : Type) (step : Word → List α → List α → Word × Num.FlagSet) (a b : List (List α))
    (x y : Nat → Nat → α), mmaWords sa sb la lb float acc = product step (groupLen sa) acc a b ∧
      (∀ m < 32, a.getD m [] = (List.range (groupLen sa * (la.k / groupLen sa))).map (x m)) ∧
      (∀ n < 32, b.getD n [] = (List.range (groupLen sa * (la.k / groupLen sa))).map (y n)) ∧
      ∀ m n, mmaRun sa sb la lb float acc m n = addGroups step (kGroup (groupLen sa) (x m)) (kGroup (groupLen sa) (y n))
        (la.k / groupLen sa) (acc.get 0 (32 * m + n)) := by
  rw [(groups_of_shaped ha).1]
  have hrowsA {α : Type} (e : Nat → α) := fun m hm => elemRows_getD (m := m) e ha hm
  have hrowsB {α : Type} (e : Nat → α) := fun n hn => hk ▸ elemRows_getD (m := n) e hb hn
  cases float
  · exact ⟨Int, groupInt, _, _, _, _, rfl, hrowsA sa.elemInt, hrowsB sb.elemInt, mmaRun_int sa sb la lb acc⟩
  · exact ⟨Num.Val, groupFloat _, _, _, _, _, rfl, hrowsA sa.elem, hrowsB sb.elem, mmaRun_float sa sb la lb acc⟩

theorem mmaWords_word {m n : Nat} (hm : m < 32) (hn : n < 32) : (mmaWords sa sb la lb float acc).1.get 0 (32 * m + n) =
    (mmaRun sa sb la lb float acc m n).1 := by
  obtain ⟨α, step, a, b, x, y, hprod, hra, hrb, hrun⟩ := mmaWords_eq_product ha hb hk float acc
  rw [hprod, hrun, product_word groupLen_pos (groups_of_shaped ha).2 hra hrb hm hn]

theorem mmaWords_flags : (mmaWords sa sb la lb float acc).2 =
    (List.range 1024).foldl (fun f i => f ||| (mmaRun sa sb la lb float acc (i / 32) (i % 32)).2) 0 := by
  obtain ⟨α, step, a, b, x, y, hprod, hra, hrb, hrun⟩ := mmaWords_eq_product ha hb hk float acc
  simp only [hprod, hrun, product_flags groupLen_pos (groups_of_shaped ha).2 hra hrb]

end

/-- On the integer path a word gains the sum of all its products, modulo 2^32. -/
theorem mmaRun_int_word (h : la.shaped sa.cls) (acc : SMap Word) (m n : Nat) : (mmaRun sa sb la lb false acc m n).1 =
    acc.get 0 (32 * m + n) + BitVec.ofInt 32
      ((List.range la.k).map fun k => sa.elemInt (la.code sa.cls m k) * sb.elemInt (lb.code sb.cls n k)).sum := by
  rw [← (groups_of_shaped h).1, mmaRun]
  induction la.k / groupLen sa with
  | zero => simp
  | succ N ih =>
    rw [List.range_succ, List.foldl_append, Nat.mul_succ, List.range_add, List.map_append, List.sum_append, BitVec.ofInt_add,
      ← BitVec.add_assoc, ← ih, List.map_map]
    simp only [List.foldl_cons, List.foldl_nil, mmaGroup, Bool.false_eq_true, if_false, BitVec.ofInt_add, BitVec.ofInt_toInt]
    rfl

end

-- Flags gathered over a list

theorem foldl_or (fs : Nat → BitVec 7) (is : List Nat) (f : BitVec 7) :
    is.foldl (fun f i => f ||| fs i) f = f ||| is.foldl (fun f i => f ||| fs i) 0 := by
  induction is generalizing f with
  | nil => simp
  | cons i is ih => simp [ih (f ||| fs i), ih (fs i), BitVec.or_assoc]

/-- A flag stands in a union when it stands in a part. -/
theorem foldl_or_and_ne_zero (fs : Nat → BitVec 7) (is : List Nat) (b : BitVec 7) :
    (is.foldl (fun f i => f ||| fs i) 0 &&& b != 0) = is.any fun i => fs i &&& b != 0 := by
  induction is with
  | nil => simp
  | cons i is ih =>
    rw [List.foldl_cons, foldl_or, BitVec.and_or_distrib_right, List.any_cons, ← ih, Bool.eq_iff_iff]
    simp only [BitVec.ofNat_eq_ofNat, BitVec.zero_or, BitVec.or_eq_zero_iff, bne_iff_ne, ne_eq, not_and_or, Bool.or_eq_true]

-- `MMA`

@[simp] theorem slot_index (s : State) (B : Block) (n : Nat) : (s.slot B n).index = n := by
  simp only [State.slot]
  split <;> rfl

section
variable {g : Guard} {d : BitVec 2} {float : Bool} {sa sb : Slot} (h : SeqExecutes (.mma g d) true s k B)
  (hsa : s.slot B B.latchA.slot.toNat = sa) (hsb : s.slot B B.latchB.slot.toNat = sb)
  (hla : B.latchA.loaded = true) (hlb : B.latchB.loaded = true) (hk : B.latchA.k = B.latchB.k)
  (hpair : pairing sa.cls sb.cls B.latchB.long = some float)
include h hsa hsb hla hlb hk hpair

theorem exec_mma_poisoned (hp : B.latchA.poison = true ∨ B.latchB.poison = true) : exec (.mma g d) s =
    .next (s.setBlock k (B.accDone d.toNat { B.acc.get {} d.toNat with poison := true } B.mseq.mflags)) := by
  refine (seqOp_executes h _).trans (congrArg _ (matrixSeq_of_ok h.block ?_))
  simp only [hla, hlb, hk, hsa, hsb, hpair, beq_self_eq_true, (Bool.or_eq_true _ _).mpr hp, if_true]
  rfl

variable {ws : SMap Word} {f : BitVec 7} (hpa : B.latchA.poison = false) (hpb : B.latchB.poison = false)
  (hw : mmaWords sa sb B.latchA B.latchB float (B.acc.get {} d.toNat).words = (ws, f))
include hpa hpb hw

theorem exec_mma_done (hnv : (f &&& Num.nv != 0) = false ∨ sa.trapInv = false ∧ sb.trapInv = false) :
    exec (.mma g d) s =
      .next (s.setBlock k (B.accDone d.toNat { B.acc.get {} d.toNat with words := ws } (B.mseq.mflags ||| f))) := by
  refine (seqOp_executes h _).trans (congrArg _ (matrixSeq_of_ok h.block ?_))
  have hgo : (f &&& Num.nv != 0 && (sa.trapInv || sb.trapInv)) = false := by
    obtain hnv | ⟨hta, htb⟩ := hnv
    · rw [hnv, Bool.false_and]
    · rw [hta, htb, Bool.or_false, Bool.and_false]
  simp only [hla, hlb, hk, hsa, hsb, hpair, hpa, hpb, hw, hgo, beq_self_eq_true, Bool.or_false, Bool.false_eq_true, if_false,
    onSeq_of_find h.block, onBlock_setBlock, onSeq_setBlock]
  rfl

theorem exec_mma_trap (hnv : (f &&& Num.nv != 0) = true) (ht : sa.trapInv = true ∨ sb.trapInv = true) :
    exec (.mma g d) s = .next ((s.setBlock k (B.withFlags (B.mseq.mflags ||| f))).seqTrap k true 0x0F
      (512 + if sa.trapInv then B.latchA.slot.setWidth 32 else B.latchB.slot.setWidth 32)) := by
  refine (seqOp_executes h _).trans (congrArg _ (matrixSeq_of_ok h.block ?_))
  have hstop : (f &&& Num.nv != 0 && (sa.trapInv || sb.trapInv)) = true := by
    rw [hnv, (Bool.or_eq_true _ _).mpr ht, Bool.and_true]
  have hia : sa.index = B.latchA.slot.toNat := hsa ▸ slot_index _ _ _
  have hib : sb.index = B.latchB.slot.toNat := hsb ▸ slot_index _ _ _
  have hval (c : Bool) (x y : BitVec 3) : BitVec.ofNat 32 (0x200 + if c then x.toNat else y.toNat) =
      512 + if c then x.setWidth 32 else y.setWidth 32 := by
    cases c <;> simp [BitVec.ofNat_add]
  simp only [hla, hlb, hk, hsa, hsb, hpair, hpa, hpb, hw, hstop, beq_self_eq_true, Bool.or_false, Bool.false_eq_true, if_false,
    if_true, onSeq_of_find h.block, hia, hib, hval]
  rfl

end

/-- Settles O41: `MZERO` and `MACCL` by what they load, `MMA` by the folds over k-groups that its words are. -/
theorem accumulatorResults : Obligations.AccumulatorResults := by
  unfold Obligations.AccumulatorResults
  intro g d s k B gives acc
  have hgives {i : Instr} {A : Acc} {F : BitVec 7} {X : Acc → Prop}
      (he : exec i s = .next (s.setBlock k (B.accDone d.toNat A F))) (hX : X A) : gives i F X := gives_of_accDone he hX
  clear_value gives
  refine ⟨fun h => hgives (exec_mzero h) rfl, fun a b off h => ?maccl, fun float h => ?mma⟩
  case maccl =>
    intro reg o p ha hb hoff hp hrows
    refine hgives (exec_maccl h (sv_of_clean ha) (sv_of_clean hb) hoff hp hrows) ⟨fun m hm n hn => ?_, ?_⟩
    · exact acclLoaded_acclRows_word B o p hm hn
    · exact acclLoaded_acclRows_poison B o p
  case mma =>
    intro la lb sa sb hla hlb hk hpair
    refine ⟨fun hp => ?poisoned, fun hpa hpb ha hb => ?_⟩
    case poisoned =>
      exact hgives (exec_mma_poisoned h rfl rfl hla hlb hk hpair hp) rfl
    intro G x y xi yi add run flags nv
    have hrun (m n : Nat) : run m n = mmaRun sa sb la lb float acc.words m n := rfl
    have hflags : flags = B.mseq.mflags ||| (mmaWords sa sb la lb float acc.words).2 := by
      rw [mmaWords_flags ha hb hk]
      exact foldl_or _ _ _
    have hnv : ((mmaWords sa sb la lb float acc.words).2 &&& Num.nv != 0) = nv := by
      rw [mmaWords_flags ha hb hk]
      exact foldl_or_and_ne_zero _ _ _
    have hw := (Prod.mk.eta (p := mmaWords sa sb la lb float acc.words)).symm
    rw [hflags, ← hnv]
    refine ⟨fun hok => ?done, fun hinv ht => ?trap, fun hf m hm n hn => ?int⟩
    case done =>
      refine hgives (exec_mma_done h rfl rfl hla hlb hk hpair hpa hpb hw hok) ⟨rfl, fun m hm n hn => ?_⟩
      rw [hrun]
      exact mmaWords_word ha hb hk float acc.words hm hn
    case trap =>
      exact exec_mma_trap h rfl rfl hla hlb hk hpair hpa hpb hw hinv ht
    case int =>
      subst hf
      exact mmaRun_int_word ha acc.words m n

end Sys2Proof.Machine
end

section
/-! SUPPORT. Reads and writes of memory by cores and the device, posts, and what the device does with completion records:
none of them changes a gang, a die's context or a launch. -/

namespace Sys2Proof.Machine

/-- The gangs, the contexts of the dies and the launches. -/
def State.roster (s : State) : SMap Gang × SMap Nat × SMap Launch := (s.gangs, s.dieCtx, s.launches)

theorem roster_foldl {α : Type} {f : State → α → State} (hf : ∀ s x, (f s x).roster = s.roster) (xs : List α) (s : State) :
    (xs.foldl f s).roster = s.roster := by
  induction xs generalizing s with
  | nil => rfl
  | cons x xs ih => rw [List.foldl_cons, ih, hf]

theorem roster_foldl_fst {α β : Type} {f : State → β → α → State × β} (hf : ∀ s b x, (f s b x).1.roster = s.roster)
    (xs : List α) (p : State × β) : (xs.foldl (fun p x => f p.1 p.2 x) p).1.roster = p.1.roster := by
  induction xs generalizing p with
  | nil => rfl
  | cons x xs ih => rw [List.foldl_cons, ih, hf]

theorem roster_dramBlock (s : State) (b : Nat) (es : SMap PByte) : (s.dramBlock b es).roster = s.roster := by
  grind [State.dramBlock, State.roster]

theorem roster_dramWrite (s : State) (ws : SMap PByte) : (s.dramWrite ws).roster = s.roster :=
  roster_foldl (fun s (g : Nat × SMap PByte) => roster_dramBlock s g.1 g.2) (groupBy 128 ws) s

theorem roster_mailed (s : State) (ws : SMap PByte) : (s.mailed ws).roster = s.roster := by
  grind [State.mailed, State.roster]

theorem roster_homeWrite (s : State) (ws : SMap PByte) : (s.homeWrite ws).roster = s.roster :=
  (roster_mailed _ ws).trans (roster_dramWrite s ws)

theorem roster_baseWrite (s : State) (ws : SMap PByte) : (s.baseWrite ws).roster = s.roster :=
  (roster_mailed _ ws).trans (roster_dramWrite s ws)

theorem roster_homeSector (s : State) (sec : Nat) : (s.homeSector sec).1.roster = s.roster := rfl

theorem roster_homeRead (s : State) (pa n : Nat) : (s.homeRead pa n).1.roster = s.roster :=
  roster_foldl (f := fun s x => (s.homeSector x).1) (fun _ _ => rfl) _ s

theorem roster_entryAt (host : Bool) (s : State) (a : Nat) : (entryAt host s a).1.roster = s.roster := by
  grind [entryAt, roster_homeRead]

theorem roster_walkLevels (guest : Bool) {rd : EntryRead} (hr : ∀ s a, (rd s a).1.roster = s.roster) (a : Nat)
    (ls : List (Nat × Nat)) (table : Nat) (s : State) : (walkLevels guest rd a ls table s).1.roster = s.roster := by
  induction ls generalizing table s with
  | nil => rfl
  | cons l ls ih => grind [walkLevels]

theorem roster_hostWalk (vmid ia : Nat) (s : State) : (hostWalk vmid ia s).1.roster = s.roster := by
  unfold hostWalk
  repeat' split
  all_goals grind only [roster_entryAt, roster_walkLevels]

theorem roster_guestEntry (vmid : Nat) (secure : Bool) (s : State) (a : Nat) :
    (guestEntry vmid secure s a).1.roster = s.roster := by
  grind [guestEntry, roster_entryAt, roster_hostWalk]

theorem roster_fullWalk (ag : Agent) (va : Nat) (s : State) : (fullWalk ag va s).1.roster = s.roster := by
  unfold fullWalk
  repeat' split
  all_goals grind only [roster_entryAt, roster_hostWalk, roster_guestEntry, roster_walkLevels]

theorem roster_translateNow (ag : Agent) (acc : Access) (va : Nat) (s : State) :
    (translateNow ag acc va s).1.roster = s.roster := by
  have fill (t : State) (n : Nat) (e : TlbEntry) : (t.fillStlb n e).roster = t.roster := rfl
  grind [translateNow, roster_fullWalk]

theorem roster_devRead (ag : Agent) (a : DWord) (n : Nat) (s : State) : (devRead ag a n s).1.roster = s.roster := by
  grind [devRead, roster_translateNow, roster_homeRead]

theorem roster_devReadClean (ag : Agent) (a : DWord) (n : Nat) (s : State) : (devReadClean ag a n s).1.roster = s.roster := by
  grind [devReadClean, roster_devRead]

theorem roster_devWrite (ag : Agent) (a : DWord) (bs : List PByte) (s : State) : (devWrite ag a bs s).1.roster = s.roster := by
  grind [devWrite, roster_translateNow, roster_homeWrite, roster_baseWrite]

-- Posts (R332)

theorem roster_queueOpen (s : State) (node q : Nat) : (s.queueOpen node q).1.roster = s.roster := by
  unfold State.queueOpen
  repeat' split
  all_goals grind only [roster_devReadClean]

theorem roster_postInto (s : State) (node q : Nat) (base : DWord) (size : Nat) (rec : List Byte) :
    (s.postInto node q base size rec).1.roster = s.roster := by
  unfold State.postInto
  repeat' split
  all_goals grind only [roster_devWrite, State.roster]

theorem roster_setOvf (s : State) (node q : Nat) : (s.setOvf node q).roster = s.roster := by
  unfold State.setOvf
  repeat' split
  all_goals grind only [roster_devWrite, roster_devRead]

theorem roster_post (s : State) (node q : Nat) (rec : List Byte) : (s.post node q rec).1.roster = s.roster := by
  unfold State.post
  repeat' split
  all_goals grind only [roster_queueOpen, roster_postInto, roster_setOvf, State.roster]

-- Caches and addresses

theorem roster_rdcSector (s : State) (node sec : Nat) : (s.rdcSector node sec).1.roster = s.roster := by
  unfold State.rdcSector
  split <;> rfl

theorem roster_rdcFlush (s : State) (node sec : Nat) : (s.rdcFlush node sec).roster = s.roster := by
  unfold State.rdcFlush
  repeat' split
  all_goals grind only [roster_homeWrite, State.roster]

theorem roster_rdcFlushLine (s : State) (node line : Nat) : (s.rdcFlushLine node line).roster = s.roster := by
  unfold State.rdcFlushLine
  grind only [roster_homeWrite, State.roster]

theorem roster_dieSector (s : State) (node sec : Nat) : (s.dieSector node sec).1.roster = s.roster := by
  unfold State.dieSector
  grind only [roster_homeSector, roster_rdcSector]

theorem roster_dieWrite (s : State) (node sec : Nat) (es : SMap PByte) : (s.dieWrite node sec es).roster = s.roster := by
  unfold State.dieWrite
  grind only [roster_homeWrite, roster_rdcSector, State.roster]

theorem roster_putL1 (s : State) (c n : Nat) (x : L1Sector) : (s.putL1 c n x).roster = s.roster := rfl

theorem roster_l1Flush (s : State) (c key : Nat) : (s.l1Flush c key).roster = s.roster := by
  unfold State.l1Flush
  repeat' split
  all_goals grind only [roster_putL1, roster_dieWrite]

theorem roster_setCore (s : State) (c : Nat) (K : Core) : (s.setCore c K).roster = s.roster := rfl

theorem roster_allocate (s : State) (c key : Nat) (pol : Policy) : (s.allocate c key pol).roster = s.roster := by
  unfold State.allocate
  grind only [roster_setCore]

theorem roster_l1Sector (s : State) (c sec : Nat) : (s.l1Sector c sec).1.roster = s.roster := by
  unfold State.l1Sector
  split
  all_goals grind only [roster_putL1, roster_dieSector]

theorem roster_loadSector (s : State) (c sec : Nat) (sc : Scope) (pol : Policy) :
    (s.loadSector c sec sc pol).1.roster = s.roster := by
  have hrdc (t : State) (m : SMap RdcSector) : ({ t with rdc := m } : State).roster = t.roster := rfl
  unfold State.loadSector
  grind only [roster_putL1, roster_allocate, roster_l1Sector, roster_l1Flush, roster_rdcFlush, roster_homeSector,
    roster_dieSector]

theorem roster_l1FlushAll (s : State) (c : Nat) (p : L1Sector → Bool) : (s.l1FlushAll c p).roster = s.roster := by
  refine roster_foldl (fun s e => ?_) _ s
  split
  · exact roster_l1Flush s c e.1
  · rfl

theorem roster_rdcFlushAll (s : State) (node : Nat) : (s.rdcFlushAll node).roster = s.roster :=
  roster_foldl (fun s line => roster_rdcFlushLine s node line) _ s

theorem roster_releaseAt (s : State) (c : Nat) (sc : Scope) : (s.releaseAt c sc).roster = s.roster := by
  unfold State.releaseAt
  grind only [roster_l1FlushAll, roster_rdcFlushAll]

theorem roster_acquireAt (s : State) (c : Nat) (sc : Scope) : (s.acquireAt c sc).roster = s.roster := by
  have hrdc (t : State) (m : SMap RdcSector) : ({ t with rdc := m } : State).roster = t.roster := rfl
  unfold State.acquireAt
  grind only [roster_l1FlushAll, roster_rdcFlushAll, roster_setCore]

theorem roster_lookup (s : State) (a : Asker) (acc : Access) (va : Nat) : (s.lookup a acc va).1.roster = s.roster := by
  have hf (t : State) (c : Nat) (e : TlbEntry) : (t.fillUtlb c e).roster = t.roster := rfl
  have hw (t : State) (a : Asker) (p : Nat) : (t.walkFor a p).1.roster = t.roster := by
    grind only [State.walkFor, State.roster]
  unfold State.lookup
  repeat' split
  all_goals grind only

theorem roster_laneAddr (s : State) (k : Nat) (G : Gang) (B : Block) (l : Nat) (base : DWord × Bool) (imm : Word)
    (n align : Nat) (acc : Access) : (s.laneAddr k G B l base imm n align acc).1.roster = s.roster := by
  unfold State.laneAddr
  repeat' split
  all_goals grind only [roster_lookup]

theorem roster_laneAddrs (s : State) (k : Nat) (G : Gang) (B : Block) (base : Nat → DWord × Bool) (imm : Word)
    (n align : Nat) (acc : Access) (ls : List Nat) : (s.laneAddrs k G B base imm n align acc ls).1.roster = s.roster := by
  induction ls generalizing s with
  | nil => rfl
  | cons l ls ih =>
    unfold State.laneAddrs
    grind only [roster_laneAddr]

theorem roster_loadLanes (s : State) (core n : Nat) (sc : Scope) (pol : Policy) (far : List (Nat × ReplyKind))
    (ps : List (Nat × DWord × Spot)) : (s.loadLanes core n sc pol far ps).1.roster = s.roster := by
  have go (secs : List Nat) (r : State × SMap (BitVec 256 × Bool)) :
      (secs.foldl (fun r sec => ((r.1.loadSector core sec sc pol).1, SMap.put r.2 sec (r.1.loadSector core sec sc pol).2))
          r).1.roster = r.1.roster := by
    induction secs generalizing r with
    | nil => rfl
    | cons x xs ih => exact (ih _).trans (roster_loadSector _ _ _ _ _)
  exact go _ _

theorem roster_countMem (s : State) (pa : Nat) (add : Word) (announce : Bool) :
    (s.countMem pa add announce).roster = s.roster := by
  unfold State.countMem State.atomHome
  grind only [roster_baseWrite, roster_homeRead, roster_homeWrite]

-- Completion records (R91 to R93)

theorem roster_onRec (s : State) (key : Nat) (f : CRec → CRec) : (s.onRec key f).roster = s.roster := rfl

theorem roster_reportRec (s : State) (ctx : Nat) (a : DWord) (cause : BitVec 8) (tag code : Nat) :
    (s.reportRec ctx a cause tag code).roster = s.roster := roster_post _ _ _ _

theorem roster_fetchRec (s : State) (ctx : Nat) (a : DWord) (level : Nat) : (s.fetchRec ctx a level).1.roster = s.roster := by
  unfold State.fetchRec
  repeat' split
  all_goals grind only [roster_devReadClean]

theorem roster_track (s : State) (c : CRec) (cause : Option (BitVec 8)) : (s.track c cause).roster = s.roster := by
  unfold State.track
  split
  · exact roster_reportRec _ _ _ _ _ _
  · rfl

theorem roster_tryRec (s : State) (c : CRec) (off : Nat) (bs : List Byte) : (s.tryRec c off bs).1.roster = s.roster := by
  unfold State.tryRec
  grind only [roster_devReadClean, roster_devWrite]

theorem roster_writeRec (s : State) (key off : Nat) (bs : List Byte) : (s.writeRec key off bs).roster = s.roster := by
  unfold State.writeRec
  repeat' split
  all_goals grind only [roster_tryRec, roster_onRec, roster_reportRec]

theorem roster_writeFlags (s : State) (key : Nat) : (s.writeFlags key).roster = s.roster := by
  unfold State.writeFlags
  split
  · rfl
  · exact roster_writeRec _ _ _ _

theorem roster_bump (s : State) (key : Nat) (out done : Int) : (s.bump key out done).roster = s.roster := by
  unfold State.bump
  grind only [roster_onRec, roster_writeRec]

theorem roster_startRec (s : State) (key : Nat) : (s.startRec key).roster = s.roster := roster_writeRec _ _ _ _

theorem roster_link (s : State) (ctx : Nat) (parent : DWord) (level fuel : Nat) :
    (s.link ctx parent level fuel).1.roster = s.roster := by
  induction fuel generalizing s parent level with
  | zero => rfl
  | succ fuel ih =>
    unfold State.link
    grind only [roster_fetchRec, roster_track, roster_bump, roster_startRec, roster_onRec, roster_writeFlags]

theorem roster_linkRec (s : State) (key : Nat) : (s.linkRec key).roster = s.roster := by
  unfold State.linkRec
  grind only [roster_link, roster_onRec, roster_writeFlags]

theorem roster_reachesJob (s : State) (ctx : Nat) (job a : DWord) (fuel : Nat) :
    (s.reachesJob ctx job a fuel).1.roster = s.roster := by
  induction fuel generalizing s a with
  | zero => rfl
  | succ fuel ih =>
    unfold State.reachesJob
    grind only [roster_fetchRec]

end Sys2Proof.Machine
end

section
/-! SUPPORT. Laws of groups whose lanes have their places in memory, and of lanes that get their results one by one. -/

namespace Sys2Proof.Machine

variable {i : Instr} {s s₁ : State} {k : Nat} {G : Gang} {m act : Mask} {pc : DWord}

-- Places and waits of a group

/-- An address that is formed is not poisoned, and is aligned. -/
theorem form_eq_ok {b : Nat} {B : Block} {base : DWord × Bool} {imm : Word} {n align : Nat} {a : DWord} {x : Site}
    (h : s.form b B base imm n align = .ok (a, x)) :
    base.2 = false ∧ a = base.1 + imm.signExtend 64 ∧ a.toNat % align = 0 := by
  unfold State.form at h
  grind

theorem laneAddr_eq_at {B : Block} {l : Nat} {base : DWord × Bool} {imm : Word} {n align : Nat} {acc : Access} {a : DWord}
    {sp : Spot}
    (h : (s.laneAddr k G B l base imm n align acc).2 = .ok (.at a sp)) :
    base.2 = false ∧ (base.1 + imm.signExtend 64).toNat % align = 0 := by
  unfold State.laneAddr at h
  have := @form_eq_ok s G.block B base imm n align
  grind

/-- The addresses of lanes that have their places are not poisoned, and are aligned. -/
theorem aligned_of_laneAddrs {B : Block} {base : Nat → DWord × Bool} {imm : Word} {n align : Nat} {acc : Access}
    {A : Nat → DWord} {P : Nat → Spot} {ls : List Nat}
    (h : s.laneAddrs k G B base imm n align acc ls = (s₁, ls.map fun l => (l, .at (A l) (P l)), none)) :
    ∀ l ∈ ls, (base l).2 = false ∧ ((base l).1 + imm.signExtend 64).toNat % align = 0 := by
  induction ls generalizing s with
  | nil => simp
  | cons l ls ih =>
    simp only [State.laneAddrs] at h
    split at h
    · next x hx =>
      simp only [List.map_cons, Prod.mk.injEq, List.cons.injEq, true_and] at h
      obtain ⟨h₁, ⟨rfl, h₂⟩, h₃⟩ := h
      refine List.forall_mem_cons.mpr ⟨laneAddr_eq_at hx, ih (Prod.ext h₁ (Prod.ext h₂ h₃))⟩
    · simp at h

/-- The lanes of a group with their places. -/
def placesAt (act : Mask) (A : Nat → DWord) (P : Nat → Spot) : List (Nat × DWord × Spot) :=
  (lanesOf act).map fun l => (l, A l, P l)

theorem forall_placesAt {act : Mask} {A : Nat → DWord} {P : Nat → Spot} {p : Nat × DWord × Spot → Prop} :
    (∀ x ∈ placesAt act A P, p x) ↔ ∀ l ∈ lanesOf act, p (l, A l, P l) := by
  simp [placesAt]

@[simp] theorem maskOf_placesAt (act : Mask) (A : Nat → DWord) (P : Nat → Spot) :
    maskOf ((placesAt act A P).map (·.1)) = act := by
  simp [placesAt, Function.comp_def]

theorem filter_placesAt {p : Nat × DWord × Spot → Bool} (h : ∀ l ∈ lanesOf act, p (l, A l, P l) = true) :
    (placesAt act A P).filter p = placesAt act A P := by
  rw [List.filter_eq_self, forall_placesAt]
  exact h

theorem filterMap_placesAt {α : Type} {f : Nat × DWord × Spot → Option α} (h : ∀ l ∈ lanesOf act, f (l, A l, P l) = none) :
    (placesAt act A P).filterMap f = [] := by
  rw [List.filterMap_eq_nil_iff, forall_placesAt]
  exact h

theorem and_not_zero (m : Mask) : m &&& ~~~0#32 = m := by rw [BitVec.not_zero, BitVec.and_allOnes]

variable {base : Reg} {imm : Word} {n align : Nat} {acc : Access} {A : Nat → DWord} {P : Nat → Spot}

theorem Placed.gangs (hp : Placed s s₁ k G act base imm n align acc A P) : s₁.gangs = s.gangs := by
  obtain ⟨B, -, ha⟩ := hp.addrs
  have hr := roster_laneAddrs s k G B (fun l => (G.view l).pair base) imm n align acc (lanesOf act)
  rw [ha] at hr
  exact congrArg (·.1) hr

/-- A group whose addresses are all aligned runs the body. -/
theorem aligned_placed (hG : s.gangs.find? k = some G) (hp : Placed s s₁ k G act base imm n align acc A P) (ha : act ≠ 0)
    (body : ThreadBody) : aligned base imm align body s k act = (body s k act).after k act 0 id := by
  obtain ⟨B, -, h⟩ := hp.addrs
  have hbad : ((lanesOf act).filter fun l => !((G.view l).pair base).2 &&
      (((G.view l).pair base).1 + imm.signExtend 64).toNat % align != 0) = [] := by
    rw [List.filter_eq_nil_iff]
    intro l hl
    rw [(aligned_of_laneAddrs h l hl).2]
    simp
  simp only [aligned, hG, hbad, maskOf_nil, and_not_zero, if_neg ha, List.foldl_nil]
  rfl

/-- A memory instruction of a group whose lanes have their places, of which no copy holds a byte. -/
theorem memoryWith_placed (hG : s.gangs.find? k = some G) (hp : Placed s s₁ k G act base imm n align acc A P) :
    ∃ B, ∀ defer hold go, (hold = true → Unheld s₁ k act n A P) →
      memoryWith defer base imm n align acc hold go s k act = (go s₁ k G B (placesAt act A P)).after k act 0 id := by
  obtain ⟨B, hB, h⟩ := hp.addrs
  refine ⟨B, fun defer hold go hu => ?_⟩
  have hps : placesOf ((lanesOf act).map fun l => (l, LaneAt.at (A l) (P l))) = placesAt act A P := by
    simp [placesOf, placesAt, List.filterMap_map]
  have hfs : faultsOf ((lanesOf act).map fun l => (l, LaneAt.at (A l) (P l))) = [] := by
    simp [faultsOf, List.filterMap_map]
  have hev : ((placesAt act A P).any fun p => p.2.2.evicted) = false := by
    rw [List.any_eq_false, forall_placesAt]
    intro l hl
    have := hp.here l hl
    revert this
    cases P l <;> simp [Spot.onDevice, Spot.evicted]
  have hheld : (hold && (placesAt act A P).any fun p => s₁.held (coreOf k) p.2.1 p.2.2 n) = false := by
    cases hold with
    | false => rfl
    | true =>
      rw [Bool.true_and, List.any_eq_false, forall_placesAt]
      intro l hl
      simp [hu rfl l hl]
  simp only [memoryWith, hG, hB, h, hps, hfs, hev, hheld, Bool.false_eq_true, if_false, maskOf_placesAt]
  rfl

theorem farLoads_nil (s : State) (k : Nat) (G : Gang) (pc : DWord) (n : Nat) : s.farLoads k G pc [] n = (s, .ok []) := rfl

theorem farOf_placesAt {act : Mask} {A : Nat → DWord} {P : Nat → Spot} (h : ∀ l ∈ lanesOf act, ∃ pa ms, P l = .mem pa ms) :
    farOf (placesAt act A P) = [] := by
  rw [farOf, List.filterMap_eq_nil_iff, forall_placesAt]
  intro l hl
  obtain ⟨pa, ms, hP⟩ := h l hl
  simp [hP]

/-- Where no lane of a group waits, none of them has to run its instruction again. -/
theorem after_of_free {t : State} {H : Gang} (ht : t.gangs.find? k = some H) (hw : ∀ w ∈ H.waits, w.lanes &&& act = 0)
    (rest : Mask) (go : State → State) : t.after k act rest go = go t := by
  have hnone : (H.waits.find? fun w => (w.kind.retry || w.kind.isGrow) && w.lanes &&& act != 0) = none := by
    rw [List.find?_eq_none]
    intro w hm
    simp [hw w hm]
  simp only [State.after, ht, Option.bind_some, hnone]

/-- What follows the body of a memory instruction whose active lanes all have their places: the checks of addresses, of alignment
and the run of the instruction each look at the waits, and the other lanes of the group go on. -/
def State.endBody (s : State) (k : Nat) (m act : Mask) : State :=
  ((s.after k act 0 id).after k act 0 id).after k act (m &&& ~~~act) (·.advance k (m &&& ~~~act))

theorem endBody_of_free {t : State} {H : Gang} (ht : t.gangs.find? k = some H) (hw : ∀ w ∈ H.waits, w.lanes &&& act = 0) :
    t.endBody k m act = t.setGang k (H.advance (m &&& ~~~act)) := by
  simp only [State.endBody, after_of_free ht hw, id, State.advance, onGang_of_find ht]

theorem endBody_of_waits (h : Executes i s k G m act pc) {t : State} {H : Gang} (ht : t.gangs.find? k = some H)
    (hw : H.waits = G.waits) : t.endBody k m act = t.setGang k (H.advance (m &&& ~~~act)) := by
  simp only [State.endBody, after_of_waits h ht hw, id, State.advance, onGang_of_find ht]

-- Results of lanes, one by one

/-- A gang after one lane has its result and has gone on. -/
def Gang.result (G : Gang) (l : Nat) (d : BitVec 8) (w : Word) : Gang :=
  (G.putLane l ((G.lane l).putX d.toNat w false)).advance (laneBit l)

theorem laneResult_of_find (hG : s.gangs.find? k = some G) (l : Nat) (d : BitVec 8) (w : Word) :
    s.laneResult k l d w = s.setGang k (G.result l d w) := by
  simp only [State.laneResult, State.onLane, onGang_of_find hG, advance_setGang, Gang.result]

theorem lanesOf_laneBit {l : Nat} (hl : l < 32) : lanesOf (laneBit l) = [l] := by
  revert l
  decide

theorem lane_result {l : Nat} (hl : l < 32) (hlen : l < G.lanes.length) (d : BitVec 8) (w : Word) (j : Nat) :
    (G.result l d w).lane j = if j = l then onward ((G.lane l).putX d.toNat w false) else G.lane j := by
  simp only [Gang.result, lane_advance, lanesOf_laneBit hl, List.mem_singleton, length_putLane, lane_putLane]
  by_cases h : j = l
  · subst h
    simp [hlen]
  · simp [h]

/-- The fields of a gang other than its lanes and what walks, lines fetched again and other devices have told them. -/
def Gang.frame (G : Gang) : Gang := { G with lanes := [], walkFaults := [], refetched := [], answers := [] }

theorem frame_advance (G : Gang) (m : Mask) : (G.advance m).frame = G.frame := by
  rw [advance_eq]
  rfl

theorem waits_advance (G : Gang) (m : Mask) : (G.advance m).waits = G.waits :=
  (congrArg Gang.waits (frame_advance G m) : (G.advance m).frame.waits = G.frame.waits)

theorem frame_result (G : Gang) (l : Nat) (d : BitVec 8) (w : Word) : (G.result l d w).frame = G.frame := frame_advance _ _

theorem length_result (G : Gang) (l : Nat) (d : BitVec 8) (w : Word) : (G.result l d w).lanes.length = G.lanes.length := by
  rw [Gang.result, length_advance, length_putLane]

theorem with_of_frame {G H : Gang} (h : H.frame = G.frame) :
    { H with lanes := G.lanes, walkFaults := G.walkFaults, refetched := G.refetched, answers := G.answers } = G :=
  congrArg (fun F : Gang => { F with
    lanes := G.lanes, walkFaults := G.walkFaults, refetched := G.refetched, answers := G.answers }) h

/-- A gang after each lane of a list has its result and has gone on. -/
def Gang.results (G : Gang) (ls : List Nat) (d : BitVec 8) (w : Nat → Word) : Gang := ls.foldl (fun G l => G.result l d (w l)) G

theorem frame_results (G : Gang) (ls : List Nat) (d : BitVec 8) (w : Nat → Word) : (G.results ls d w).frame = G.frame := by
  induction ls generalizing G with
  | nil => rfl
  | cons l ls ih => exact (ih _).trans (frame_result _ _ _ _)

theorem length_results (G : Gang) (ls : List Nat) (d : BitVec 8) (w : Nat → Word) :
    (G.results ls d w).lanes.length = G.lanes.length := by
  induction ls generalizing G with
  | nil => rfl
  | cons l ls ih => exact (ih _).trans (length_result _ _ _ _)

theorem lane_results {ls : List Nat} (hn : ls.Nodup) (hl : ∀ l ∈ ls, l < 32) (hlen : ∀ l ∈ ls, l < G.lanes.length) (d : BitVec 8)
    (w : Nat → Word) (j : Nat) :
    (G.results ls d w).lane j = if j ∈ ls then onward ((G.lane j).putX d.toNat (w j) false) else G.lane j := by
  induction ls generalizing G with
  | nil => rfl
  | cons l ls ih =>
    obtain ⟨hnot, hn⟩ := List.nodup_cons.mp hn
    have hl0 := lane_result (G := G) (hl l (by simp)) (hlen l (by simp)) d (w l) j
    have hrest := ih (G := G.result l d (w l)) hn (fun x hx => hl x (by simp [hx]))
      (fun x hx => by rw [length_result]; exact hlen x (by simp [hx]))
    rw [Gang.results, List.foldl_cons, ← Gang.results, hrest, hl0]
    by_cases h : j = l
    · subst h
      simp [hnot]
    · simp [h]

theorem putX_eq (L : Lane) (n : Nat) (w : Word) (p : Bool) :
    L.putX n w p = { L with x := (L.putX n w p).x, xp := (L.putX n w p).xp } := by
  unfold Lane.putX
  split <;> rfl

/-- A register of a lane after a word has been put into one. -/
theorem reg_putX (L : Lane) (d n : BitVec 8) (w : Word) :
    (if n = 0 then ((0 : Word), false)
      else ((L.putX d.toNat w false).x.get 0 n.toNat, (L.putX d.toNat w false).xp.get false n.toNat)) =
      if n = d ∧ n ≠ 0 then (w, false)
      else if n = 0 then (0, false) else (L.x.get 0 n.toNat, L.xp.get false n.toNat) := by
  by_cases hn : n = 0
  · simp [hn]
  · by_cases hd : n = d
    · subst hd
      have h0 : n.toNat ≠ 0 := fun h => hn (toNat_eq_zero_iff.mp h)
      rw [if_neg hn, if_pos ⟨rfl, hn⟩]
      simp [Lane.putX, h0]
    · have hne : n.toNat ≠ d.toNat := fun h => hd (BitVec.eq_of_toNat_eq h)
      simp only [hn, hd, false_and, if_false, Lane.putX]
      split <;> simp [SMap.get_write_of_ne _ _ hne]

/-- What a group wrote whose active lanes each got one word and went on with the others. -/
theorem Executes.wrote_word (h : Executes i s k G m act pc) {H : Gang} {d : BitVec 8} {w : Nat → Word}
    (hl : ∀ l, H.lane l = if l ∈ lanesOf act then onward ((G.lane l).putX d.toNat (w l) false)
      else if l ∈ lanesOf m then onward (G.lane l) else G.lane l) (hf : H.frame = G.frame) :
    Wrote G H m act fun l => .word d (w l) := by
  have hg := with_of_frame hf
  have hk : H.k = G.k := (congrArg Gang.k hf : H.frame.k = G.frame.k)
  have hkp : H.kp = G.kp := (congrArg Gang.kp hf : H.frame.kp = G.frame.kp)
  have hrest (l : Nat) : { H.lane l with x := (G.lane l).x, xp := (G.lane l).xp, pc := (G.lane l).pc } = G.lane l := by
    rw [hl]
    split
    · rw [putX_eq]; rfl
    · split <;> rfl
  have hp (l : Nat) : (H.lane l).p = (G.lane l).p := (congrArg Lane.p (hrest l) : _)
  have hpp (l : Nat) : (H.lane l).pp = (G.lane l).pp := (congrArg Lane.pp (hrest l) : _)
  have hflags (l : Nat) : (H.lane l).fflags = (G.lane l).fflags := (congrArg Lane.fflags (hrest l) : _)
  have hreg (l : Nat) (n : BitVec 8) : (H.view l).reg ⟨false, n⟩ =
      if l ∈ lanesOf act ∧ n = d ∧ n ≠ 0 then (w l, false) else (G.view l).reg ⟨false, n⟩ := by
    by_cases ha : l ∈ lanesOf act
    · simpa only [view_reg_x, hl, ha, if_true, true_and, onward_x, onward_xp] using reg_putX (G.lane l) d n (w l)
    · by_cases hm : l ∈ lanesOf m <;> simp [hl, ha, hm]
  constructor
  case x =>
    rintro l ha _ hw - hn
    rw [Out.word, List.mem_singleton] at hw
    subst hw
    rw [hreg, if_pos ⟨ha, rfl, hn⟩]
  case k =>
    rintro l _ hw hk
    rw [Out.word, List.mem_singleton] at hw
    subst hw
    cases hk
  case keepX =>
    intro l n hn
    rw [hreg, if_neg]
    rintro ⟨ha, rfl, -⟩
    exact hn ha _ (List.mem_singleton.mpr rfl) rfl
  case keepK => intro l n _; rw [view_reg_k, view_reg_k, hk, hkp]
  case p => rintro l - _ hw; cases hw
  case keepP => intro l n _; rw [view_pred, view_pred, hp, hpp]
  case flags => intro l; rw [hflags]; split <;> simp [Out.word]
  case pc =>
    intro l
    rw [hl]
    by_cases ha : l ∈ lanesOf act
    · rw [if_pos ha, if_pos (h.sub ha), putX_eq]; rfl
    · rw [if_neg ha]; split <;> rfl
  case lanes =>
    intro l
    conv_rhs => rw [← hrest l]
    rw [← hp, ← hpp, ← hflags]
  case gang =>
    conv_rhs => rw [← hg]
    rw [← hk, ← hkp]

theorem not_mem_lanesOf_rest {l : Nat} : l ∈ lanesOf (m &&& ~~~act) ↔ l ∈ lanesOf m ∧ l ∉ lanesOf act := by
  simp only [mem_lanesOf, BitVec.getLsbD_and, BitVec.getLsbD_not, Bool.and_eq_true, decide_eq_true_eq, Bool.not_eq_true',
    Bool.not_eq_true]
  exact ⟨fun ⟨hm, _, ha⟩ => ⟨hm, ha⟩, fun ⟨hm, ha⟩ => ⟨hm, BitVec.lt_of_getLsbD hm, ha⟩⟩

/-- What a group wrote whose active lanes have their results, once the other lanes have gone on too. -/
theorem Executes.wrote_results (h : Executes i s k G m act pc) (d : BitVec 8) (w : Nat → Word) :
    Wrote G ((G.results (lanesOf act) d w).advance (m &&& ~~~act)) m act fun l => .word d (w l) := by
  have hlane := lane_results (G := G) (lanesOf_nodup act) (fun _ => lanesOf_lt) (fun l hl => h.lt (h.sub hl)) d w
  refine h.wrote_word (fun l => ?_) ((frame_advance _ _).trans (frame_results _ _ _ _))
  simp only [lane_advance, length_results, hlane, not_mem_lanesOf_rest]
  by_cases ha : l ∈ lanesOf act
  · simp [ha]
  · by_cases hm : l ∈ lanesOf m
    · simp [ha, hm, h.lt hm]
    · simp [ha, hm]

/-- Lanes each have an answer, and go on with it as their result. -/
def State.answerLanes (s : State) (k : Nat) (d : BitVec 8) (f : State → Nat → State × Nat) (ls : List Nat) : State :=
  ls.foldl (fun s l => (f s l).1.laneResult k l d (BitVec.ofNat 32 (f s l).2)) s

/-- Where answering a lane changes no gang, the lanes' answers are their results, and nothing else of the gangs changes. -/
theorem answerLanes_gangs {f : State → Nat → State × Nat} (hf : ∀ s l, (f s l).1.gangs = s.gangs) (d : BitVec 8) {ls : List Nat}
    (hn : ls.Nodup) (hG : s.gangs.find? k = some G) :
    ∃ r : Nat → Nat, let H := G.results ls d fun l => BitVec.ofNat 32 (r l)
      (s.answerLanes k d f ls).gangs.find? k = some H ∧
      (∀ X, (s.answerLanes k d f ls).gangs.put k X = s.gangs.put k X) ∧ ∀ l, ls = [l] → r l = (f s l).2 := by
  induction ls generalizing s G with
  | nil => exact ⟨fun _ => 0, hG, fun _ => rfl, by simp⟩
  | cons l ls ih =>
    obtain ⟨hnot, hn⟩ := List.nodup_cons.mp hn
    have hG' : (f s l).1.gangs.find? k = some G := by rw [hf, hG]
    have hres := laneResult_of_find hG' l d (BitVec.ofNat 32 (f s l).2)
    obtain ⟨r, hfind, hput, -⟩ := ih (s := (f s l).1.laneResult k l d (BitVec.ofNat 32 (f s l).2)) hn (by rw [hres, setGang_find])
    refine ⟨fun j => if j = l then (f s l).2 else r j, ?_, fun X => ?_, fun j hj => ?_⟩
    · have hw (H : Gang) : H.results ls d (fun j => BitVec.ofNat 32 (if j = l then (f s l).2 else r j)) =
          H.results ls d fun j => BitVec.ofNat 32 (r j) :=
        List.foldl_ext _ _ H fun H j hj => by simp only [if_neg (fun e : j = l => hnot (e ▸ hj))]
      rw [Gang.results, List.foldl_cons, ← Gang.results, hw]
      simpa only [State.answerLanes, List.foldl_cons, if_true] using hfind
    · have hX := hput X
      rw [hres] at hX
      simpa [State.answerLanes, hres, hf] using hX
    · cases hj
      simp

theorem waits_results (G : Gang) (ls : List Nat) (d : BitVec 8) (w : Nat → Word) : (G.results ls d w).waits = G.waits :=
  (congrArg Gang.waits (frame_results G ls d w) : (G.results ls d w).frame.waits = G.frame.waits)

theorem waits_result (G : Gang) (l : Nat) (d : BitVec 8) (w : Word) : (G.result l d w).waits = G.waits :=
  waits_results G [l] d fun _ => w

/-- Lanes of a group that have all gone on. -/
theorem Executes.moved_advance (h : Executes i s k G m act pc) :
    Moved G ((G.advance act).advance (m &&& ~~~act)) m act fun _ L => { L with pc := succ L.pc } := by
  refine ⟨fun l => ?_, with_of_frame ((frame_advance _ _).trans (frame_advance _ _))⟩
  simp only [lane_advance, length_advance, not_mem_lanesOf_rest]
  by_cases ha : l ∈ lanesOf act
  · simp [ha, h.lt (h.sub ha), onward]
  · by_cases hm : l ∈ lanesOf m
    · simp [ha, hm, h.lt hm, onward]
    · simp [ha, hm]

/-- Answers of lanes, once the other lanes of the group have gone on. -/
theorem Executes.answered (h : Executes i s k G m act pc) {t : State} (ht : t.gangs = s.gangs) {f : State → Nat → State × Nat}
    (hf : ∀ s l, (f s l).1.gangs = s.gangs) (d : BitVec 8) :
    ∃ u H, ∃ r : Nat → Nat, (t.answerLanes k d f (lanesOf act)).endBody k m act = u ∧ u.gangs = s.gangs.put k H ∧
      Wrote G H m act (fun l => .word d (BitVec.ofNat 32 (r l))) ∧
      ∀ l, lanesOf act = [l] → u = { (f t l).1 with gangs := u.gangs } ∧ r l = (f t l).2 := by
  obtain ⟨r, hfind, hput, hone⟩ := answerLanes_gangs hf d (lanesOf_nodup act) (s := t) (k := k) (by rw [ht, h.gang])
  rw [endBody_of_waits h hfind (waits_results G (lanesOf act) d fun l => BitVec.ofNat 32 (r l))]
  refine ⟨_, _, r, rfl, ?_, h.wrote_results d fun l => BitVec.ofNat 32 (r l), fun l hl => ⟨?_, hone l hl⟩⟩
  · rw [State.setGang_gangs, hput, ht]
  · have hG : (f t l).1.gangs.find? k = Option.some G := by rw [hf, ht, h.gang]
    rw [hl, State.answerLanes, List.foldl_cons, List.foldl_nil, laneResult_of_find hG, setGang_setGang]
    rfl

end Sys2Proof.Machine
end

section
/-! SUPPORT. What `LAUNCH` leaves, and the statement about it (O43). -/

namespace Sys2Proof.Machine

variable {s s₁ : State} {k : Nat} {G : Gang} {m act : Mask} {pc : DWord} {A : Nat → DWord} {P : Nat → Spot}

theorem roster_onQueue (s : State) (ctx q : Nat) (f : QState → QState) : (s.onQueue ctx q f).roster = s.roster := by
  grind only [State.onQueue, State.roster]

theorem roster_queueDesc (s : State) (ctx q : Nat) : (s.queueDesc ctx q).1.roster = s.roster := by
  unfold State.queueDesc
  repeat' split
  all_goals grind only [roster_devReadClean]

theorem roster_seeTail (s : State) (ctx q : Nat) : (s.seeTail ctx q).roster = s.roster := by
  unfold State.seeTail
  repeat' split
  all_goals grind only [roster_queueDesc, roster_devWrite, roster_post, roster_onQueue]

theorem roster_submit (s : State) (k : Nat) (bs : List PByte) : (s.submit k bs).1.roster = s.roster := by
  unfold State.submit
  repeat' split
  all_goals grind only [roster_seeTail, roster_queueDesc, roster_releaseAt, roster_devWrite, roster_onQueue]

theorem gangs_submit (s : State) (k : Nat) (bs : List PByte) : (s.submit k bs).1.gangs = s.gangs :=
  congrArg (·.1) (roster_submit s k bs)

/-- What `LAUNCH` does for lanes whose records are in this device's memory, once the release waits for nothing. -/
theorem exec_launch {g : Guard} {d : BitVec 8} {a : Reg} {off : Word} {s₂ : State} {bs : Nat → List PByte}
    (h : Executes (.launch g d a off) s k G m act pc) (hp : Placed s s₁ k G act a off 256 256 .read A P)
    (hu : Unheld s₁ k act 256 A P) (hmem : ∀ l ∈ lanesOf act, ∃ pa ms, P l = .mem pa ms) (hs : s₁.settled k act = (s₁, true))
    (hl : s₁.loadLanes (coreOf k) 256 .gang .normal [] (placesAt act A P) = (s₂, (lanesOf act).map fun l => (l, .ok (bs l)))) :
    exec (.launch g d a off) s =
      .next ((s₂.answerLanes k d (fun s l => s.submit k (bs l)) (lanesOf act)).endBody k m act) := by
  obtain ⟨B, hbody⟩ := memoryWith_placed h.gang hp
  have hown (f : Nat × DWord × Spot → Bool) (hf : ∀ l x pa ms, f (l, x, .mem pa ms) = true) :
      (placesAt act A P).filter f = placesAt act A P := filter_placesAt fun l hl => by
    obtain ⟨pa, ms, hP⟩ := hmem l hl
    rw [hP, hf]
  have hother : ((placesAt act A P).filter fun p => !(placesAt act A P).any (·.1 == p.1)) = [] := by
    rw [List.filter_eq_nil_iff]
    intro p hp
    simpa using ⟨_, _, hp⟩
  have hex : exec (.launch g d a off) s = execLaunch g d a off s := rfl
  rw [hex, execLaunch, threadOp_executes h, aligned_placed h.gang hp h.some, hbody _ _ _ fun _ => hu]
  simp only
  rw [hown _ fun _ _ _ _ => rfl]
  simp only [maskOf_placesAt, hs, farOf_placesAt hmem, farLoads_nil, hl, hother, List.foldl_map, List.foldl_nil]
  rfl

-- LAUNCH of one lane (R97)

theorem field_one (bs : List Byte) (i : Nat) : field bs i 1 = (bs.getD i 0).toNat := by
  induction bs generalizing i with
  | nil => simp [field, ofBytes]
  | cons b bs ih =>
    cases i with
    | zero => simp [field, ofBytes]
    | succ i => exact ih i

/-- The address of an entry, written out. -/
theorem qEntry_eq (d : List Byte) (n : Nat) :
    qEntry d n = BitVec.ofNat 64 (ofBytes (d.take 8) + 256 * (n % 2 ^ (d.getD 8 0).toNat)) := by
  rw [qEntry, field_one]
  rfl

/-- The TAIL of a queue as the device takes it, written out. -/
theorem tailOf_eq (s : State) (ctx q : Nat) (d : List Byte) : s.tailOf ctx q d =
    if (d.getD 9 0).getLsbD 2 ∧ (s.queues.get {} (64 * ctx + q)).known then (s.queues.get {} (64 * ctx + q)).tail
    else ofBytes ((d.drop 0x18).take 8) := by
  unfold State.tailOf
  grind [queueKey, qDev, qTail, field]

/-- The context whose queue a record that a core submits names, and that queue's number. -/
def State.queueOf (s : State) (k : Nat) (bs : List PByte) : Nat × Nat :=
  (s.ctxId (coreOf k / 512), (bs.getD 0x57 (0, false)).1.toNat % 64)

theorem submit_poisoned {bs : List PByte} (h : bs.any (·.2) = true) : s.submit k bs = (s, 4) := by
  simp [State.submit, h]

theorem extractLsb'_toNat_mod (b : Byte) : (b.extractLsb' 0 6).toNat = b.toNat % 64 := by
  rw [BitVec.extractLsb'_toNat, Nat.shiftRight_zero]

theorem submit_of_none {bs : List PByte} {u : State} (hb : bs.any (·.2) = false)
    (hu : (s.seeTail (s.queueOf k bs).1 (s.queueOf k bs).2).queueDesc (s.queueOf k bs).1 (s.queueOf k bs).2 = (u, none)) :
    s.submit k bs = (u, 2) := by
  simp only [State.queueOf] at hu
  simp only [State.submit, hb, extractLsb'_toNat_mod, coreNode, hu]
  rfl

/-- What a whole record gets whose queue has a descriptor. -/
theorem submit_of_desc {bs : List PByte} {u : State} {D : List Byte} (hb : bs.any (·.2) = false)
    (hu : (s.seeTail (s.queueOf k bs).1 (s.queueOf k bs).2).queueDesc (s.queueOf k bs).1 (s.queueOf k bs).2 = (u, some D)) :
    let ctx := (s.queueOf k bs).1
    let q := (s.queueOf k bs).2
    let tail := u.tailOf ctx q D
    let v := u.releaseAt (coreOf k) .sys
    s.submit k bs =
      if (D.getD 9 0).getLsbD 2 = false then (u, 3)
      else if 2 ^ (D.getD 8 0).toNat ≤ qLength D tail then (u, 1)
      else
        match devWrite (v.lp ctx) (qEntry D tail) bs v with
        | (w, .error _) => (w, 2)
        | (w, .ok _) =>
          ((devWrite (w.lp ctx) (w.queueAddr ctx q + 0x18) (clean (toBytes 8 (tail + 1))) w).1.onQueue ctx q
            fun Q => { Q with tail := (tail + 1) % 2 ^ 64, known := true }, 0) := by
  simp only [State.queueOf] at hu
  simp only [State.submit, hb, extractLsb'_toNat_mod, coreNode, hu, State.queueOf, qDev, field_one, Bool.not_eq_true',
    Bool.false_eq_true, if_false]
  rfl

/-- Settles O43: lane by lane, the results are those of `State.submit`, which looks at the queue and then at room in it. -/
theorem launchResults : Obligations.LaunchResults := by
  unfold Obligations.LaunchResults
  refine ⟨fun g d a off s s₁ s₂ k G m act pc A P bs h hp hu hmem hs hl => ?lanes, fun s k bs => ?submit⟩
  case lanes =>
    have hl' : s₁.loadLanes (coreOf k) 256 .gang .normal [] (placesAt act A P) =
        (s₂, (lanesOf act).map fun l => (l, .ok (bs l))) := hl
    have h₂ : s₂.gangs = s.gangs := by
      have := roster_loadLanes s₁ (coreOf k) 256 .gang .normal [] (placesAt act A P)
      rw [hl'] at this
      exact (congrArg (·.1) this).trans hp.gangs
    have hex := exec_launch h hp hu hmem hs hl'
    obtain ⟨u, H, r, ht, hg, hw, hone⟩ := h.answered h₂ (fun s l => gangs_submit s k (bs l)) d
    exact ⟨u, H, r, by rw [hex, ht], hg, hw, hone⟩
  case submit =>
    refine ⟨submit_poisoned, fun hb => ⟨fun u hu => submit_of_none hb hu, fun u D hu => ?_⟩⟩
    have hsub := submit_of_desc hb hu
    simp only [State.queueOf, tailOf_eq, qLength, qHead, field, qEntry_eq] at hsub
    refine ⟨fun hd => ?_, fun hd => ⟨fun hfull => ?_, fun hroom w hw => ?_⟩⟩
    · rw [hsub, if_pos hd]
    · rw [hsub, if_neg (ne_false_of_eq_true hd), if_pos hfull]
    · rw [hsub, if_neg (ne_false_of_eq_true hd), if_neg (Nat.not_le.mpr hroom)]
      simp only [hw]

end Sys2Proof.Machine
end

section
/-! SUPPORT. Lanes that rest while barriers, points, traps of other lanes and the cancel of a launch let others go (R96, R145, R193,
R284), with the laws of tables that this needs. -/

namespace Sys2Proof.SMap

variable {α : Type}

theorem find?_adjust (m : SMap α) (n : Nat) (f : α → α) (n' : Nat) :
    (m.adjust n f).find? n' = if n' = n then (m.find? n).map f else m.find? n' := by
  cases hf : m.find? n with
  | none => by_cases h : n' = n <;> simp [adjust, h, hf]
  | some v =>
    by_cases h : n' = n
    · subst h
      simp [adjust, hf]
    · simp [adjust, hf, h, find?_put_of_ne m _ h]

theorem find?_mapV (m : SMap α) (f : Nat → α → α) (n : Nat) : (m.mapV f).find? n = (m.find? n).map (f n) := by
  induction m with
  | nil => rfl
  | cons e m ih =>
    by_cases h : e.1 = n
    · subst h
      simp [mapV, find?]
    · simpa [mapV, find?, h] using ih

end Sys2Proof.SMap

namespace Sys2Proof.Machine

variable {l : Nat} {L : Lane} {G : Gang}

-- A lane of a gang that is left alone

/-- Lane `l` of a gang is `L`, waits for nothing and has arrived at no reconvergence entry. -/
structure Gang.Rests (G : Gang) (l : Nat) (L : Lane) : Prop where
  lane : G.lane l = L
  waits : ∀ w ∈ G.waits, w.lanes.getLsbD l = false
  reconv : ∀ e ∈ G.reconv, e.2.arrived.getLsbD l = false

namespace Gang.Rests

/-- Lanes that are together in some waits of a gang. -/
theorem foldl_lanes (ws : List Wait) (h : ∀ w ∈ ws, w.lanes.getLsbD l = false) (m : Mask) :
    (ws.foldl (fun m w => m ||| w.lanes) m).getLsbD l = m.getLsbD l := by
  induction ws generalizing m with
  | nil => rfl
  | cons w ws ih => simp [ih fun x hx => h x (by simp [hx]), h w (by simp)]

theorem waiting (h : G.Rests l L) (p : Wait → Bool) :
    ((G.waits.filter p).foldl (fun m w => m ||| w.lanes) (0 : Mask)).getLsbD l = false := by
  rw [foldl_lanes _ fun w hw => h.waits w (List.mem_of_mem_filter hw)]
  simp

theorem unwait (h : G.Rests l L) (m : Mask) : (G.unwait m).Rests l L := by
  refine ⟨h.lane, fun w hw => ?_, h.reconv⟩
  obtain ⟨v, hv, hw⟩ := List.mem_filterMap.mp hw
  have := h.waits v hv
  grind

theorem settled (h : G.Rests l L) (m : Mask) : (G.settled m).Rests l L := ⟨h.lane, h.waits, h.reconv⟩

theorem putLane (h : G.Rests l L) {j : Nat} (hj : l ≠ j) (X : Lane) : (G.putLane j X).Rests l L :=
  ⟨(lane_putLane_of_ne G X hj).trans h.lane, h.waits, h.reconv⟩

theorem advance (h : G.Rests l L) {m : Mask} (hm : m.getLsbD l = false) : (G.advance m).Rests l L := by
  have hl : (G.advance m).lane l = L := by
    rw [lane_advance, if_neg fun hc => by simp [mem_lanesOf, hm] at hc, h.lane]
  rw [advance_eq] at hl ⊢
  exact ⟨hl, h.waits, h.reconv⟩

theorem leaveReconv (h : G.Rests l L) (j : Nat) : (G.leaveReconv j).Rests l L := by
  refine ⟨h.lane, h.waits, fun e he => ?_⟩
  obtain ⟨x, hx, rfl⟩ := List.mem_map.mp (List.mem_of_mem_filter he)
  simp [h.reconv x hx]

theorem foldl {α : Type} {f : Gang → α → Gang} {xs : List α} (hf : ∀ x ∈ xs, ∀ G : Gang, G.Rests l L → (f G x).Rests l L)
    (h : G.Rests l L) : (xs.foldl f G).Rests l L := by
  induction xs generalizing G with
  | nil => exact h
  | cons x xs ih => exact ih (fun y hy => hf y (by simp [hy])) (hf x (by simp) G h)

theorem settleReconv (h : G.Rests l L) : G.settleReconv.Rests l L := by
  refine foldl (fun e he G hG => ?_) ⟨h.lane, h.waits, fun e he => h.reconv e (List.mem_of_mem_filter he)⟩
  refine foldl (fun j hj G hG => hG.putLane ?_ _) hG
  rintro rfl
  simp [mem_lanesOf, h.reconv e (List.mem_of_mem_filter he)] at hj

end Gang.Rests

-- States in which a lane is left alone and launches stay covered

/-- Lane `l` of gang `k` is `L` and rests, and launches whose tags are among `c` are covered by a cancel, as long as the device
has them. -/
structure State.Spares (k l : Nat) (L : Lane) (c : Nat → Prop) (s : State) : Prop where
  gang : ∃ G, s.gangs.find? k = some G ∧ G.Rests l L
  covered : ∀ tag, c tag → ∀ R, s.launches.find? tag = some R → R.cancelled = true

namespace State.Spares

variable {s t : State} {k : Nat} {c : Nat → Prop}

theorem mono (h : s.Spares k l L c) {c' : Nat → Prop} (hc : ∀ tag, c' tag → c tag) : s.Spares k l L c' :=
  ⟨h.gang, fun tag htag => h.covered tag (hc tag htag)⟩

theorem of_eq (h : s.Spares k l L c) (hg : t.gangs = s.gangs) (hl : t.launches = s.launches) : t.Spares k l L c :=
  ⟨hg ▸ h.gang, hl ▸ h.covered⟩

theorem of_roster (h : s.Spares k l L c) (ht : t.roster = s.roster) : t.Spares k l L c :=
  h.of_eq (congrArg (·.1) ht) (congrArg (·.2.2) ht)

theorem foldl {α : Type} {f : State → α → State} {xs : List α}
    (hf : ∀ x ∈ xs, ∀ s : State, s.Spares k l L c → (f s x).Spares k l L c) (h : s.Spares k l L c) :
    (xs.foldl f s).Spares k l L c := by
  induction xs generalizing s with
  | nil => exact h
  | cons x xs ih => exact ih (fun y hy => hf y (by simp [hy])) (hf x (by simp) s h)

theorem ite {p : Prop} [Decidable p] (ht : t.Spares k l L c) (hs : s.Spares k l L c) : (if p then t else s).Spares k l L c := by
  split
  · exact ht
  · exact hs

theorem setGang (h : s.Spares k l L c) {k' : Nat} {H : Gang} (hH : k' = k → H.Rests l L) : (s.setGang k' H).Spares k l L c := by
  refine ⟨?_, h.covered⟩
  by_cases hk : k' = k
  · subst hk
    exact ⟨H, setGang_find s k' H, hH rfl⟩
  · obtain ⟨G, hG, hr⟩ := h.gang
    exact ⟨G, (SMap.find?_put_of_ne _ _ fun e => hk e.symm).trans hG, hr⟩

/-- The gang of the lane, where a gang that is found is the one that the lane belongs to. -/
theorem rests (h : s.Spares k l L c) {k' : Nat} {G : Gang} (hG : s.gangs.find? k' = some G) (hk : k' = k) : G.Rests l L := by
  obtain ⟨G', hG', hr⟩ := h.gang
  subst hk
  rw [hG'] at hG
  cases hG
  exact hr

theorem onGang (h : s.Spares k l L c) {k' : Nat} {f : Gang → Gang}
    (hf : ∀ G, s.gangs.find? k' = some G → (k' = k → G.Rests l L) → k' = k → (f G).Rests l L) :
    (s.onGang k' f).Spares k l L c := by
  unfold State.onGang
  split
  next G hG => exact h.setGang (hf G hG (h.rests hG))
  next => exact h

theorem onGangAt (h : s.Spares k l L c) {k' : Nat} {f : Gang → Gang}
    (hf : ∀ G, s.gangs.find? k' = some G → (k' = k → G.Rests l L) → k' = k → (f G).Rests l L) :
    (s.onGangAt k' f).Spares k l L c := by
  unfold State.onGangAt
  split
  · exact h.of_eq rfl rfl
  · exact h.onGang hf

theorem onBlock (h : s.Spares k l L c) (b : Nat) (f : Block → Block) : (s.onBlock b f).Spares k l L c := by
  unfold State.onBlock
  split
  · exact h.of_eq rfl rfl
  · exact h

theorem adjustLaunch (h : s.Spares k l L c) (tag : Nat) {f : Launch → Launch}
    (hf : ∀ R, R.cancelled = true → (f R).cancelled = true) :
    { s with launches := s.launches.adjust tag f }.Spares k l L c := by
  refine ⟨h.gang, fun n hn R hR => ?_⟩
  rw [SMap.find?_adjust] at hR
  split at hR
  · next hn' =>
    obtain ⟨R', hR', rfl⟩ := Option.map_eq_some_iff.mp hR
    exact hf R' (h.covered n hn R' (hn' ▸ hR'))
  · exact h.covered n hn R hR

-- Barriers and points

theorem setBarrier (h : s.Spares k l L c) (r : BarRef) (b : Barrier) : (s.setBarrier r b).Spares k l L c := by
  unfold State.setBarrier
  split
  case h_1 =>
    split
    · exact h.onBlock _ _
    · exact h
  case h_2 => exact h.onBlock _ _
  case h_3 =>
    split
    · exact h.of_eq rfl rfl
    · exact h
  case h_4 t n =>
    split
    next R hR =>
      have := h.adjustLaunch t (f := fun R => { R with barriers := R.barriers.write {} n b }) fun _ hR => hR
      simpa only [SMap.adjust, hR] using this
    · exact h

theorem acquireAt (h : s.Spares k l L c) (n : Nat) (sc : Scope) : (s.acquireAt n sc).Spares k l L c :=
  h.of_roster (roster_acquireAt s n sc)

theorem releaseBar (h : s.Spares k l L c) (r : BarRef) (phase k' : Nat) : (s.releaseBar r phase k').Spares k l L c := by
  unfold State.releaseBar
  split
  · exact h
  next G hG =>
    have hgo : k' = k → G.Rests l L := fun hk => by
      obtain ⟨G', hG', hr⟩ := h.gang
      simp only [State.gangAt, hk, hG', Option.some.injEq] at hG
      exact hG ▸ hr
    have hs (m' m : Mask) (hm : k' = k → m.getLsbD l = false) : (s.onGangAt k' fun G => (G.unwait m').advance m).Spares k l L c :=
      h.onGangAt fun G _ hr hk => ((hr hk).unwait m').advance (hm hk)
    dsimp only
    have hs' := fun m' => hs m' _ fun hk => (hgo hk).waiting (fun w => w.kind == .bar r phase)
    split
    · exact hs' _
    · exact (hs' _).acquireAt _ _

theorem settleBar (h : s.Spares k l L c) (r : BarRef) : (s.settleBar r).Spares k l L c := by
  unfold State.settleBar
  dsimp only
  split
  · exact h
  · exact foldl (fun k' _ s hs => hs.releaseBar _ _ k') (h.setBarrier _ _)

theorem releaseRdv (h : s.Spares k l L c) (b n : Nat) : (s.releaseRdv b n).Spares k l L c := by
  unfold State.releaseRdv
  split
  · exact h
  · refine (foldl (fun sl _ s hs => hs.onGang fun G _ hr hk => ?_) h).onBlock _ _
    exact ((hr hk).unwait _).advance ((hr hk).waiting _)

theorem settlePoint (h : s.Spares k l L c) (b n : Nat) : (s.settlePoint b n).Spares k l L c := by
  unfold State.settlePoint
  split
  · exact h
  · split
    · exact h
    · dsimp only
      split
      · exact h
      · exact (h.onBlock _ _).releaseRdv _ _

theorem settleParty (h : s.Spares k l L c) (b : Nat) : (s.settleParty b).Spares k l L c := by
  unfold State.settleParty
  exact onBlock (foldl (fun n _ s hs => hs.settlePoint b n) h) _ _

theorem settleAll (h : s.Spares k l L c) (k' : Nat) : (s.settleAll k').Spares k l L c := by
  have hs : (s.onGang k' (·.settleReconv)).Spares k l L c := h.onGang fun G _ hr hk => (hr hk).settleReconv
  unfold State.settleAll
  dsimp only
  split
  · exact hs
  · split
    · exact hs
    · exact (foldl (fun r _ s hs => hs.settleBar r) hs).settleParty _

-- Lanes that leave, and traps of other lanes

theorem unwatch (h : s.Spares k l L c) (w : Waiter) : (s.unwatch w).Spares k l L c := h.of_eq rfl rfl

theorem withdraw (h : s.Spares k l L c) (k' j : Nat) : (s.withdraw k' j).Spares k l L c := by
  unfold State.withdraw
  dsimp only
  split
  · exact h
  · split
    · exact h.onBlock _ _
    · refine adjustLaunch ?_ _ fun _ hR => hR
      split
      · exact (h.onBlock _ _).of_eq rfl rfl
      · exact h.onBlock _ _

theorem withdrawWait (h : s.Spares k l L c) (k' j : Nat) (again : Bool) : (s.withdrawWait k' j again).Spares k l L c := by
  unfold State.withdrawWait
  dsimp only
  split
  · exact h
  · refine foldl (fun w _ s hs => ?_) h
    split
    case h_1 => exact hs.setBarrier _ _
    case h_2 =>
      split
      · exact hs.setBarrier _ _
      · exact hs
    case h_3 => exact hs.onBlock _ _
    all_goals exact hs

theorem callAway (h : s.Spares k l L c) (k' j : Nat) : (s.callAway k' j).Spares k l L c := by
  unfold State.callAway
  split
  · exact (h.withdrawWait k' j false).unwatch _
  · exact h

theorem leave (h : s.Spares k l L c) {k' j : Nat} (hj : k' = k → l ≠ j) : (s.leave k' j).Spares k l L c := by
  have hs := ((h.withdraw k' j).unwatch (.lane k' j))
  unfold State.leave
  refine settleAll (onGang ?_ fun G _ hr hk => ?_) k'
  · exact hs.of_eq rfl rfl
  · exact (((hr hk).leaveReconv j).unwait _).putLane (hj hk) _

theorem markKilled (h : s.Spares k l L c) (k' : Nat) : (s.markKilled k').Spares k l L c := by
  unfold State.markKilled
  split
  · exact h
  · exact h.adjustLaunch _ fun _ hR => hR

theorem killLane (h : s.Spares k l L c) {k' j : Nat} (hj : k' = k → l ≠ j) : (s.killLane k' j).Spares k l L c := by
  unfold State.killLane
  split
  · exact h
  · exact (h.markKilled k').leave hj

theorem trap (h : s.Spares k l L c) {k' j : Nat} (hj : k' = k → l ≠ j) (cause : BitVec 8) (v pc : DWord) (host migrating : Bool) :
    (s.trap k' j cause v pc host migrating).Spares k l L c := by
  unfold State.trap
  dsimp only
  split
  · exact h
  · split
    · exact (h.of_roster (roster_post _ _ _ _)).killLane hj
    · exact (h.callAway k' j).onGang fun G _ hr hk => (((hr hk).unwait _).settled _).putLane (hj hk) _

theorem interrupt (h : s.Spares k l L c) {k' : Nat} {m : Mask} (hm : k' = k → m.getLsbD l = false) (cause : BitVec 8) (v : DWord)
    (host migrating : Bool) : (s.interrupt k' m cause v host migrating).Spares k l L c := by
  refine foldl (fun j hj s hs => ((hs.withdrawWait k' j true).unwatch _).trap (fun hk e => ?_) _ _ _ _ _) h
  subst e
  rw [mem_lanesOf, hm hk] at hj
  cases hj

theorem onSeq (h : s.Spares k l L c) (b : Nat) (matrix : Bool) (f : Seq → Seq) : (s.onSeq b matrix f).Spares k l L c :=
  h.onBlock b _

theorem seqLeaves (h : s.Spares k l L c) (b : Nat) (matrix : Bool) : (s.seqLeaves b matrix).Spares k l L c := by
  unfold State.seqLeaves
  exact settleParty (h.onBlock b _) b

theorem cancelSeq (h : s.Spares k l L c) (b : Nat) (matrix : Bool) : (s.cancelSeq b matrix).Spares k l L c := by
  unfold State.cancelSeq
  split
  · exact h
  · exact ite (seqLeaves (unwatch (h.onSeq b matrix _) _) b matrix) h

theorem cancelLaunch (h : s.Spares k l L c) (tag : Nat) : (s.cancelLaunch tag).Spares k l L c := by
  unfold State.cancelLaunch
  refine foldl (fun b _ s hs => ?_) h
  have hseq := (hs.cancelSeq b.1 true).cancelSeq b.1 false
  refine foldl (fun sl _ s hs => ?_) hseq
  dsimp only
  split
  next G hG => exact hs.interrupt (fun hk => (hs.rests hG hk).waiting _) _ _ _ _
  next => exact hs

end State.Spares

end Sys2Proof.Machine
end

section
/-! SUPPORT. The end of a walk and the cancel of a record (R96): what they leave of a lane that rests, and which launches they cover. -/

namespace Sys2Proof.Machine

-- Claims of records released, as far as gangs and launches go

theorem roster_prUpdate (s : State) (pa : Nat) (f : List Byte → Option (List Byte)) : (s.prUpdate pa f).1.roster = s.roster := by
  unfold State.prUpdate
  grind only [roster_homeRead, roster_baseWrite]

theorem roster_tileSource (s : State) (ag : Agent) (r : List Byte) : (s.tileSource ag r).1.roster = s.roster := by
  unfold State.tileSource
  grind only [roster_devReadClean]

theorem roster_startMove (s : State) (m : Migration) (r : List Byte) : (s.startMove m r).1.roster = s.roster := by
  unfold State.startMove
  grind only [roster_tileSource, roster_baseWrite]

theorem roster_dropReplicas (s : State) (ag : Agent) (r : List Byte) (slots : BitVec 4) :
    (s.dropReplicas ag r slots).1.roster = s.roster := by
  unfold State.dropReplicas
  grind only [roster_devReadClean, roster_devWrite]

theorem roster_postAbort (s : State) (m : Migration) : (s.postAbort m).roster = s.roster := roster_post _ _ _ _

theorem roster_applyPending (s : State) (r : List Byte) (m : Nat × Migration) : (s.applyPending r m).1.roster = s.roster := by
  have hm (t : State) (ms : SMap Migration) : { t with migrations := ms }.roster = t.roster := rfl
  unfold State.applyPending
  repeat' split
  all_goals grind only [roster_dropReplicas, roster_startMove, roster_postAbort]

namespace State.Spares

variable {l : Nat} {L : Lane} {s t : State} {k : Nat} {c : Nat → Prop}

theorem mapLaunches (h : s.Spares k l L c) {f : Launch → Launch} (hf : ∀ R, R.cancelled = true → (f R).cancelled = true) :
    { s with launches := s.launches.mapV fun _ R => f R }.Spares k l L c := by
  refine ⟨h.gang, fun n hn R hR => ?_⟩
  rw [SMap.find?_mapV] at hR
  obtain ⟨R', hR', rfl⟩ := Option.map_eq_some_iff.mp hR
  exact hf R' (h.covered n hn R' hR')

theorem releaseClaim (h : s.Spares k l L c) (pa tag : Nat) (f : List Byte → List Byte) :
    (s.releaseClaim pa tag f).Spares k l L c := by
  have hread := h.of_roster (roster_prUpdate s pa fun _ => none)
  unfold State.releaseClaim
  split
  next t ht =>
    rw [ht] at hread
    exact hread
  next t r ht =>
    rw [ht] at hread
    have hp := roster_foldl_fst roster_applyPending (t.pendingFor pa) (t, f (setField r 20 4 0))
    exact ite hread (mapLaunches (hread.of_roster ((roster_baseWrite _ _).trans hp)) fun _ hR => hR)

theorem clearClaim (h : s.Spares k l L c) (pa tag : Nat) : (s.clearClaim pa tag).Spares k l L c := h.releaseClaim pa tag id

theorem endWalk (h : s.Spares k l L c) (tag : Nat) : (s.endWalk tag).Spares k l L c := by
  unfold State.endWalk
  split
  · exact h
  next R hR =>
    have hclaims (cs : SMap Cell) :
        (cs.foldl (fun s (x : Nat × Cell) => x.2.members.foldl (fun s m => s.clearClaim m.pa tag) s) s).Spares k l L c :=
      foldl (fun x _ s hs => foldl (fun m _ s hs => hs.clearClaim m.pa tag) hs) h
    refine ite h (foldl (fun n _ s hs => hs.settleBar (.coop tag n)) ?_)
    refine of_roster ?_ (roster_bump _ _ _ _)
    refine adjustLaunch ?_ tag fun _ hR => hR
    exact (hclaims (R.cells.filter fun (x : Nat × Cell) => !x.2.placed)).of_eq rfl rfl

/-- A launch that is covered joins those that are. -/
theorem coverLaunch (h : s.Spares k l L c) (tag : Nat) : (s.coverLaunch tag).Spares k l L fun n => n = tag ∨ c n := by
  have grow (hc : ∀ R, s.launches.find? tag = some R → R.cancelled = true) : s.Spares k l L fun n => n = tag ∨ c n :=
    ⟨h.gang, fun n hn R hR => hn.elim (fun e => hc R (e ▸ hR)) fun hn => h.covered n hn R hR⟩
  unfold State.coverLaunch
  split
  next hR => exact grow fun R hR' => by simp [hR] at hR'
  next R hR =>
    split
    next hc =>
      refine grow fun R' hR' => ?_
      rw [hR] at hR'
      cases hR'
      exact hc
    next =>
      refine cancelLaunch (endWalk ?_ tag) tag
      refine ⟨h.gang, fun n hn R' hR' => ?_⟩
      simp only [State.onLaunch, SMap.find?_adjust] at hR'
      split at hR'
      · obtain ⟨R'', -, rfl⟩ := Option.map_eq_some_iff.mp hR'
        rfl
      · next hne => exact h.covered n (hn.resolve_left hne) R' hR'

theorem coverLaunches (h : s.Spares k l L c) (rs : List (Nat × Launch)) :
    (rs.foldl (fun s r => s.coverLaunch r.1) s).Spares k l L fun n => n ∈ rs.map (·.1) ∨ c n := by
  induction rs generalizing s c with
  | nil => exact h.mono fun n hn => hn.resolve_left List.not_mem_nil
  | cons r rs ih =>
    refine (ih (h.coverLaunch r.1)).mono fun n hn => ?_
    simpa only [List.map_cons, List.mem_cons, or_assoc, or_left_comm] using hn

end State.Spares

/-- The records that a cancel of one record takes: itself, and those below it. -/
def State.below (s : State) (ctx : Nat) (a : DWord) : SMap CRec :=
  s.crecs.filter fun (r : Nat × CRec) => r.2.ctx == ctx && s.chainHas ctx a r.2.addr 5

/-- A record that the device counts is among those that its own cancel takes. -/
theorem mem_below {s : State} {ctx : Nat} {a : DWord} {key : Nat} {x : CRec} (h : s.crecs.find? key = some x)
    (hctx : x.ctx = ctx) (ha : x.addr = a) : (key, x) ∈ s.below ctx a := by
  refine List.mem_filter.mpr ⟨mem_of_find? h, ?_⟩
  simp [hctx, ha, State.chainHas]

variable {l : Nat} {L : Lane} {s : State} {k : Nat} {c : Nat → Prop}

theorem roster_flagRecs (s : State) (rs : SMap CRec) :
    (rs.foldl (fun s (r : Nat × CRec) =>
      if r.2.cancelReq then s else (s.onRec r.1 fun c => { c with cancelReq := true }).writeFlags r.1) s).roster = s.roster := by
  refine roster_foldl (fun s r => ?_) rs s
  split
  · rfl
  · exact (roster_writeFlags _ _).trans (roster_onRec _ _ _)

/-- Launches covered whose record is among some that the device counts. -/
theorem State.Spares.coverBelow (h : s.Spares k l L c) {t : State} (ht : t.roster = s.roster) (rs : SMap CRec) :
    ((t.launches.filter fun (x : Nat × Launch) => rs.any fun r => r.1 == x.2.key).foldl (fun s x => s.coverLaunch x.1) t).Spares
      k l L fun tag => ∃ R r, s.launches.find? tag = some R ∧ r ∈ rs ∧ r.1 = R.key := by
  refine ((h.of_roster ht).coverLaunches _).mono fun tag ⟨R, r, hR, hr, hkey⟩ => .inl (List.mem_map.mpr ⟨(tag, R), ?_, rfl⟩)
  have hl : t.launches = s.launches := congrArg (·.2.2) ht
  refine List.mem_filter.mpr ⟨mem_of_find? (hl ▸ hR), List.any_eq_true.mpr ⟨r, hr, ?_⟩⟩
  simpa using hkey

/-- A cancel leaves a lane that rests alone, and covers the launches whose record it is, where the device counts it. -/
theorem State.Spares.cancelBelow (h : s.Spares k l L c) (ctx : Nat) (a : DWord) (x : CRec) :
    (s.cancelBelow ctx a x).Spares k l L fun tag => ∃ R y, s.launches.find? tag = some R ∧ R.key = crecKey ctx a ∧
      s.crecs.find? R.key = some y ∧ y.ctx = ctx ∧ y.addr = a := by
  unfold State.cancelBelow
  dsimp only
  generalize hs₁ : (if (s.crecs.find? (crecKey ctx a)).isSome = true then s else s.track x none) = s₁
  have h₁ : s₁.roster = s.roster := by
    rw [← hs₁]
    split
    · rfl
    · exact roster_track _ _ _
  have hc := h.coverBelow ((roster_flagRecs s₁ (s₁.below ctx a)).trans h₁) (s₁.below ctx a)
  refine mono (c := fun tag => ∃ R r, s.launches.find? tag = some R ∧ r ∈ s₁.below ctx a ∧ r.1 = R.key) ?_ ?_
  · split
    · exact hc.of_eq rfl rfl
    · exact hc
  rintro tag ⟨R, y, hR, hkey, hy, hctx, ha⟩
  refine ⟨R, (R.key, y), hR, ?_, rfl⟩
  rw [← hs₁, ← hkey, hy]
  exact mem_below hy hctx ha

end Sys2Proof.Machine
end

section
/-! SUPPORT. Completion records that are sealed (R93), and what `GSIG` leaves (R98). -/

namespace Sys2Proof.Machine

variable {i : Instr} {s s₁ : State} {k : Nat} {G : Gang} {m act : Mask} {pc : DWord} {A : Nat → DWord} {P : Nat → Spot}

-- Records that are sealed and complete, as far as gangs and dies' contexts go

/-- The gangs, and the contexts of the dies. -/
def State.seats (s : State) : SMap Gang × SMap Nat := (s.gangs, s.dieCtx)

theorem seats_of_roster {s t : State} (h : t.roster = s.roster) : t.seats = s.seats :=
  Prod.ext (congrArg (·.1) h) (congrArg (·.2.1) h)

theorem gangs_of_seats {s t : State} (h : t.seats = s.seats) : t.gangs = s.gangs := congrArg (·.1) h

theorem seats_foldl {α : Type} {f : State → α → State} (hf : ∀ s x, (f s x).seats = s.seats) (xs : List α) (s : State) :
    (xs.foldl f s).seats = s.seats := by
  induction xs generalizing s with
  | nil => rfl
  | cons x xs ih => rw [List.foldl_cons, ih, hf]

theorem seats_onRec (s : State) (key : Nat) (f : CRec → CRec) : (s.onRec key f).seats = s.seats :=
  seats_of_roster (roster_onRec s key f)

theorem seats_writeRec (s : State) (key off : Nat) (bs : List Byte) : (s.writeRec key off bs).seats = s.seats :=
  seats_of_roster (roster_writeRec s key off bs)

theorem seats_dropGraph (s : State) (ctx : Nat) (a : DWord) : (s.dropGraph ctx a).seats = s.seats := by
  unfold State.dropGraph
  refine seats_foldl ?_ _ s
  exact fun _ _ => rfl

theorem roster_notify (s : State) (c : CRec) : (s.notify c).roster = s.roster := by
  unfold State.notify
  grind only [roster_devReadClean, roster_tryRec, roster_track]

theorem seats_finishRec (s : State) (key : Nat) : (s.finishRec key).seats = s.seats := by
  have hbump (t : State) (key : Nat) (out done : Int) := seats_of_roster (roster_bump t key out done)
  have hnotify (t : State) (c : CRec) := seats_of_roster (roster_notify t c)
  have hdel (t : State) (rs : SMap CRec) : { t with crecs := rs }.seats = t.seats := rfl
  unfold State.finishRec
  grind only [seats_dropGraph]

theorem seats_dropLaunch (s : State) (tag : Nat) : (s.dropLaunch tag).seats = s.seats := rfl

theorem seats_completeWith (s : State) (key status code : Nat) : (s.completeWith key status code).seats = s.seats := by
  unfold State.completeWith
  grind only [seats_onRec, seats_writeRec, seats_dropLaunch, seats_finishRec]

theorem seats_complete (s : State) (key : Nat) : (s.complete key).seats = s.seats := by
  unfold State.complete
  grind only [seats_completeWith]

theorem seats_sealNow (s : State) (key : Nat) : (s.sealNow key).seats = s.seats := by
  have hflags (t : State) (key : Nat) := seats_of_roster (roster_writeFlags t key)
  have hstart (t : State) (key : Nat) := seats_of_roster (roster_startRec t key)
  have hlink (t : State) (key : Nat) := seats_of_roster (roster_linkRec t key)
  unfold State.sealNow
  grind only [seats_onRec, seats_complete]

theorem seats_sealRec (s : State) (ctx : Nat) (a : DWord) : (s.sealRec ctx a).seats = s.seats := by
  unfold State.sealRec
  have hreport (t : State) (ctx : Nat) (a : DWord) (x : BitVec 8) (y z : Nat) :=
    seats_of_roster (roster_reportRec t ctx a x y z)
  have hfetch (t : State) (ctx : Nat) (a : DWord) (x : Nat) := seats_of_roster (roster_fetchRec t ctx a x)
  have htrack (t : State) (c : CRec) (x : Option (BitVec 8)) := seats_of_roster (roster_track t c x)
  grind only [seats_sealNow]

-- GSIG (R98)

theorem seats_foldl_mem {f : State → Nat → State} {ls : List Nat}
    (hf : ∀ t : State, t.seats = s.seats → ∀ l ∈ ls, (f t l).seats = s.seats) {t : State} (ht : t.seats = s.seats) :
    (ls.foldl f t).seats = s.seats := by
  induction ls generalizing t with
  | nil => exact ht
  | cons l ls ih => exact ih (fun t ht l hl => hf t ht l (by simp [hl])) (hf t ht l (by simp))

/-- Changes made lane by lane that agree wherever the gangs and the dies' contexts are as they were. -/
theorem foldl_eq_of_seats {F f : State → Nat → State} {ls : List Nat}
    (hf : ∀ t : State, t.seats = s.seats → ∀ l ∈ ls, (f t l).seats = s.seats) {t : State} (ht : t.seats = s.seats)
    (hF : ∀ t : State, t.seats = s.seats → ∀ l ∈ ls, F t l = f t l) : ls.foldl F t = ls.foldl f t := by
  induction ls generalizing t with
  | nil => rfl
  | cons l ls ih =>
    rw [List.foldl_cons, List.foldl_cons, hF t ht l (by simp)]
    exact ih (fun t ht l hl => hf t ht l (by simp [hl])) (hf t ht l (by simp)) fun t ht l hl => hF t ht l (by simp [hl])

/-- What `GSIG` does for lanes whose words or records are in this device's memory and whose operands are not poisoned, once the
release waits for nothing. -/
theorem gsig_executes {a : Reg} {off : Word} {n : Nat} {poison : View → Bool} {here : State → Nat → DWord → Nat → View → State}
    {far : View → ReqKind} (h : Executes i s k G m act pc) (hp : Placed s s₁ k G act a off n n .write A P)
    (hu : Unheld s₁ k act n A P) (hmem : ∀ l ∈ lanesOf act, ∃ pa ms, P l = .mem pa ms) (hs : s₁.settled k act = (s₁, true))
    (hpoison : ∀ l ∈ lanesOf act, poison (G.view l) = false)
    (hhere : ∀ t va pa v, (here t k va pa v).seats = t.seats) {f : State → Nat → State}
    (hf : ∀ t : State, t.seats = s₁.seats → ∀ l ∈ lanesOf act, ∀ pa ms, P l = .mem pa ms → here t k (A l) pa (G.view l) = f t l) :
    ∃ H, threadOp i s (gsig a off n poison here far) =
        .next (((lanesOf act).foldl f (s₁.releaseAt (coreOf k) .sys)).setGang k H) ∧
      Moved G H m act fun _ L => { L with pc := succ L.pc } := by
  obtain ⟨B, hbody⟩ := memoryWith_placed h.gang hp
  have hne : (placesAt act A P).isEmpty = false := by
    obtain ⟨l, -, hl⟩ := head_lanesOf h.some
    rw [List.isEmpty_eq_false_iff]
    exact List.ne_nil_of_mem (List.mem_map.mpr ⟨l, hl, rfl⟩)
  rw [threadOp_executes h, gsig, aligned_placed h.gang hp h.some, hbody _ _ _ fun _ => hu]
  simp only
  rw [filter_placesAt ?good, filterMap_placesAt ?bad]
  case good =>
    intro l hl
    obtain ⟨pa, ms, hP⟩ := hmem l hl
    simp [hP, hpoison l hl]
  case bad =>
    intro l hl
    obtain ⟨pa, ms, hP⟩ := hmem l hl
    simp [hP, hpoison l hl]
  simp only [hne, farOf_placesAt hmem, maskOf_placesAt, hs]
  have hraise (t : State) : t.raise k false [] = t := rfl
  have hseats : ∀ t : State, t.seats = s₁.seats → ∀ l ∈ lanesOf act, (f t l).seats = s₁.seats := fun t ht l hl => by
    obtain ⟨pa, ms, hP⟩ := hmem l hl
    rw [← hf t ht l hl pa ms hP, hhere, ht]
  have hrel := seats_of_roster (roster_releaseAt s₁ (coreOf k) .sys)
  simp only [Bool.false_eq_true, if_false, List.isEmpty_nil, Bool.not_true, Bool.false_and, hraise, placesAt, List.foldl_map]
  rw [foldl_eq_of_seats hseats hrel fun t ht l hl => ?go]
  case go =>
    obtain ⟨pa, ms, hP⟩ := hmem l hl
    rw [← hf t ht l hl pa ms hP, hP]
  have hgang : ((lanesOf act).foldl f (s₁.releaseAt (coreOf k) .sys)).gangs.find? k = Option.some G := by
    rw [gangs_of_seats (seats_foldl_mem hseats hrel), hp.gangs, h.gang]
  rw [State.advance, onGang_of_find hgang]
  simp only [after_setGang h _ (waits_advance G act), id, advance_setGang]
  exact ⟨_, rfl, h.moved_advance⟩

end Sys2Proof.Machine
end

section
/-! SUPPORT. What `CANCEL` leaves (R99), and the statement about signals and cancels (O44). -/

namespace Sys2Proof.Machine

variable {i : Instr} {s s₁ : State} {k : Nat} {G : Gang} {m act : Mask} {pc : DWord} {A : Nat → DWord} {P : Nat → Spot}

-- Blocking points at which nothing is pending

theorem takeStop_of_none {B : Block} (hG : s.gangs.find? k = some G) (hB : s.blocks.find? G.block = some B) {matrix : Bool}
    (hstop : (B.seq matrix).stop = none) (m : Mask) : s.takeStop k matrix m = (s, m) := by
  simp [State.takeStop, hG, hB, hstop]

/-- Lanes that reach a blocking point go on where no stop is pending and no cancel covers their launch. -/
theorem reach_of_free {B : Block} (hG : s.gangs.find? k = some G) (hB : s.blocks.find? G.block = some B)
    (hmseq : B.mseq.stop = none) (hcseq : B.cseq.stop = none) (hcov : s.covered B = false) (m : Mask) : s.reach k m = (s, m) := by
  have hM := takeStop_of_none hG hB (matrix := true) hmseq
  have hC := takeStop_of_none hG hB (matrix := false) hcseq
  have hb : s.blockOf k = some B := by simp [State.blockOf, hG, hB]
  simp [State.reach, State.takeStops, hM, hC, hb, hcov]

-- CANCEL (R99)

/-- The code of a cancel, by what its record is. -/
def cancelCode (mine : Bool) (c : CRec) : Nat :=
  if mine = false ∨ c.level = 0 ∨ 4 < c.level then 3 else if c.completed then 1 else if c.cancelReq then 2 else 0

theorem cancelAt_of_read {ctx : Nat} {a : DWord} {s₂ s₃ : State} {c : CRec} {mine : Bool}
    (hf : s.fetchRec ctx a 0 = (s₂, c, none)) (hr : s₂.reachesJob ctx (s₂.ctxs.get {} ctx).job a 5 = (s₃, mine)) :
    s.cancelAt ctx a = (if cancelCode mine c = 0 then s₃.cancelBelow ctx a c else s₃, some (cancelCode mine c)) := by
  simp only [State.cancelAt, hf, hr, cancelCode]
  grind

/-- What `CANCEL` does for one lane whose record is in this device's memory and can be read. -/
theorem exec_cancel {g : Guard} {d : BitVec 8} {a : Reg} {off : Word} {B : Block} {l r : Nat} {u : State}
    (h : Executes (.cancel g d a off) s k G m act pc) (hB : s.blocks.find? G.block = some B) (hmseq : B.mseq.stop = none)
    (hcseq : B.cseq.stop = none) (hcov : s.covered B = false) (hp : Placed s s₁ k G act a off 64 64 .readWrite A P)
    (hone : lanesOf act = [l]) (hmem : ∃ pa ms, P l = .mem pa ms)
    (hc : s₁.cancelAt (s₁.ctxId (coreOf k / 512)) (A l) = (u, some r)) :
    exec (.cancel g d a off) s = .next ((u.laneResult k l d (BitVec.ofNat 32 r)).endBody k m act) := by
  obtain ⟨B', hbody⟩ := memoryWith_placed h.gang hp
  obtain ⟨pa, ms, hP⟩ := hmem
  have hex : exec (.cancel g d a off) s = execCancel g d a off s := rfl
  rw [hex, execCancel, threadOp_executes h, blocking, reach_of_free h.gang hB hmseq hcseq hcov]
  simp only [if_neg h.some]
  rw [aligned_placed h.gang hp h.some, hbody _ _ _ fun hf => by cases hf]
  simp only [placesAt, hone, List.map_cons, List.map_nil, List.foldl_cons, List.foldl_nil, hP]
  rw [show coreNode (coreOf k) = coreOf k / 512 from rfl, hc]
  rfl

theorem getLsbD_converging {e : Nat × Reconv} (he : e ∈ G.reconv) {l : Nat} (hl : G.converging.getLsbD l = false) :
    e.2.arrived.getLsbD l = false := by
  have hall (es : SMap Reconv) (m : Mask) :
      (es.foldl (fun m (e : Nat × Reconv) => m ||| e.2.arrived) m).getLsbD l =
        (m.getLsbD l || es.any fun e => e.2.arrived.getLsbD l) := by
    induction es generalizing m with
    | nil => simp
    | cons e es ih => simp [ih, Bool.or_assoc]
  rw [Gang.converging, hall] at hl
  simp only [Bool.or_eq_false_iff, List.any_eq_false] at hl
  simpa using hl.2 e he

/-- An active lane rests: it waits for nothing, and where no active lane has arrived at an entry, it has not. -/
theorem Executes.rests (h : Executes i s k G m act pc) (hconv : G.converging &&& act = 0) {l : Nat} (hl : l ∈ lanesOf act) :
    G.Rests l (G.lane l) := by
  refine ⟨rfl, fun w hw => ?_, fun e he => getLsbD_converging he ?_⟩
  · simpa [mem_lanesOf.mp (h.sub hl)] using congrArg (·.getLsbD l) (h.free w hw)
  · simpa [mem_lanesOf.mp hl] using congrArg (·.getLsbD l) hconv

/-- The one active lane of a group gets a result in a state whose gangs are as they were. -/
theorem Executes.wrote_one (h : Executes i s k G m act pc) {l : Nat} (hone : lanesOf act = [l]) {u : State}
    (hu : u.gangs = s.gangs) (d : BitVec 8) (w : Word) :
    ∃ H, (u.laneResult k l d w).endBody k m act = u.setGang k H ∧ Wrote G H m act fun _ => .word d w := by
  have hG : u.gangs.find? k = Option.some G := by rw [hu, h.gang]
  have hw := h.wrote_results d fun _ => w
  rw [hone] at hw
  rw [laneResult_of_find hG, endBody_of_waits h (setGang_find u k _) (waits_result G l d w), setGang_setGang]
  exact ⟨_, rfl, hw⟩

/-- The one active lane of a group gets the result 0 in a state in which it still rests. -/
theorem Executes.result_zero (h : Executes i s k G m act pc) {l : Nat} (hone : lanesOf act = [l]) {u : State} {c : Nat → Prop}
    (hu : u.Spares k l (G.lane l) c) (d : BitVec 8) :
    ∃ t H, (u.laneResult k l d 0).endBody k m act = t ∧
      t.gangs.find? k = Option.some H ∧ t.launches = u.launches ∧ (d ≠ 0 → (H.view l).reg ⟨false, d⟩ = (0, false)) ∧
      (H.lane l).pc = succ pc := by
  obtain ⟨G', hG', hrest⟩ := hu.gang
  have hact : l ∈ lanesOf act := by simp [hone]
  have hm := h.sub hact
  have hlen : l < G'.lanes.length := lt_of_running (by rw [hrest.lane]; exact h.running l hm)
  have hfree : ∀ w ∈ (G'.result l d 0).waits, w.lanes &&& act = 0 := by
    rw [waits_result, show act = laneBit l by rw [← maskOf_lanesOf act, hone]; simp [maskOf]]
    intro w hw
    refine BitVec.eq_of_getLsbD_eq fun j _ => ?_
    by_cases hj : l = j
    · simp [← hj, hrest.waits w hw]
    · simp [getLsbD_laneBit (lanesOf_lt hact), hj]
  have hlane : ((G'.result l d 0).advance (m &&& ~~~act)).lane l = onward ((G.lane l).putX d.toNat 0 false) := by
    rw [lane_advance, if_neg fun hc => (not_mem_lanesOf_rest.mp hc.1).2 hact, lane_result (lanesOf_lt hact) hlen, if_pos rfl,
      hrest.lane]
  rw [laneResult_of_find hG', endBody_of_free (setGang_find u k _) hfree, setGang_setGang]
  refine ⟨_, _, rfl, setGang_find _ _ _, rfl, fun hd => ?_, ?_⟩
  · rw [view_reg_x, hlane]
    exact (reg_putX (G.lane l) d d 0).trans (if_pos ⟨rfl, hd⟩)
  · rw [hlane, putX_eq]
    exact congrArg succ (h.here l hm)

/-- Settles O44: `GSIG` is its changes lane by lane after the release (`gsig_executes`); a cancel leaves its own lane at rest and
covers the launches of the record that it takes (`State.Spares.cancelBelow`). -/
theorem signalAndCancelResults : Obligations.SignalAndCancelResults := by
  unfold Obligations.SignalAndCancelResults
  intro g d a b off s s₁ k G m act pc A P hmem
  have hcount (t : State) (pa : Nat) (x : Word) (y : Bool) := seats_of_roster (roster_countMem t pa x y)
  refine ⟨fun hb => ⟨fun h hp hu hs => ?arr, fun h hp hu hs => ?ann⟩, fun h hp hu hs => ?sealed, ?cancel⟩
  case arr =>
    refine gsig_executes h hp hu hmem hs hb (fun _ _ _ _ => hcount _ _ _ _) fun t _ l _ pa ms hP => ?_
    simp only [hP]
  case ann =>
    refine gsig_executes h hp hu hmem hs hb (fun _ _ _ _ => hcount _ _ _ _) fun t _ l _ pa ms hP => ?_
    simp only [hP]
    exact congrArg (t.countMem pa · true) (BitVec.zero_sub _).symm
  case sealed =>
    refine gsig_executes h hp hu hmem hs (fun _ _ => rfl) (fun _ _ _ _ => seats_sealRec _ _ _) fun t ht l _ pa ms hP => ?_
    exact congrArg (fun ds : SMap Nat => t.sealRec (ds.get 0 (coreOf k / 512)) (A l)) (congrArg (·.2) ht)
  case cancel =>
    intro B l hone h hconv hB hmseq hcseq hcov hp s₂ c s₃ mine hf hr hctx haddr
    have hact : l ∈ lanesOf act := by simp [hone]
    have hgangs : s₃.gangs = s.gangs := by
      have hf' := roster_fetchRec s₁ (s₁.ctxId (coreOf k / 512)) (A l) 0
      have hr' := roster_reachesJob s₂ (s₁.ctxId (coreOf k / 512)) (s₂.ctxs.get {} (s₁.ctxId (coreOf k / 512))).job (A l) 5
      rw [hf] at hf'
      rw [hr] at hr'
      exact (congrArg (·.1) (hr'.trans hf')).trans hp.gangs
    have hc := cancelAt_of_read hf hr
    have hexec := exec_cancel h hB hmseq hcseq hcov hp hone (hmem l hact) hc
    refine ⟨fun hcode => ?_, fun hcode => ?_⟩
    · obtain ⟨H, hH, hw⟩ := h.wrote_one hone hgangs d (BitVec.ofNat 32 (cancelCode mine c))
      rw [if_neg (show cancelCode mine c ≠ 0 from hcode), hH] at hexec
      exact ⟨H, hexec, hw⟩
    · have hcode' : cancelCode mine c = 0 := hcode
      have hrest : s₃.Spares k l (G.lane l) fun _ => False :=
        ⟨⟨G, by rw [hgangs, h.gang], h.rests hconv hact⟩, fun _ => False.elim⟩
      have hcancel := hrest.cancelBelow (s₁.ctxId (coreOf k / 512)) (A l) c
      obtain ⟨t, H, ht, hH, hlaunch, hreg, hpc⟩ := h.result_zero hone hcancel d
      rw [hcode', if_pos rfl] at hexec
      refine ⟨t, H, hexec.trans (congrArg _ ht), hH, hreg, hpc, fun tag L L' hL hkey hrec hL' => ?_⟩
      exact hcancel.covered tag ⟨L, c, hL, hkey, hrec, hctx, haddr⟩ L' (hlaunch ▸ hL')

end Sys2Proof.Machine
end

section
/-! SUPPORT. The statement about the events of launches (O51): where the device's table lists a completion record under another
record's number, sealing does not hold. -/

namespace Sys2Proof.Machine

/-- A phase's record at 4096, whose parent is at 8192. -/
def phaseRec : CRec := { ctx := 0, addr := 4096, level := 3, parent := 8192 }

/-- A job's record that is listed under the number of 8192, but names 4096 as its own place. -/
def strayRec : CRec := { ctx := 0, addr := 4096, level := 4, parent := 0, started := true }

/-- One context, its phase, and the stray record as the phase's parent. -/
def strayState : State :=
  { ctxs := [(0, {})], crecs := [(crecKey 0 4096, phaseRec), (crecKey 0 8192, strayRec)] }

/-- Counting the phase in its parent lists the stray record, which is not sealed, under the phase's own number. -/
theorem sealRec_strayState : ((strayState.sealRec 0 4096).crecs.find? (crecKey 0 4096)).map (·.sealed) = some false := by
  decide +kernel

/-- Refutes O51: the clause on `SEAL` is about every state, and so about one in which a record is listed under a number that is
not its own; there the parent that is counted takes the place of the record that was sealed. (The device itself lists a record
under the number of its own context and address, R91 to R93.) -/
theorem not_launchEventResults : ¬ Obligations.LaunchEventResults := by
  unfold Obligations.LaunchEventResults
  intro h
  obtain ⟨-, -, -, -, -, -, -, hseal, -⟩ := h strayState
  obtain ⟨-, hsealed⟩ := hseal 0 {} 0 4096 rfl rfl
  obtain ⟨x, hx, hunsealed⟩ := Option.map_eq_some_iff.mp sealRec_strayState
  have hx' := hsealed phaseRec (by decide +kernel) (by decide) (by decide) rfl rfl (.inl rfl) rfl rfl rfl x hx
  rw [hx'] at hunsealed
  cases hunsealed

end Sys2Proof.Machine
end

section
/-! SUPPORT. Instructions of one lane on launches, on save areas and on placement records: how their bodies answer for the lane, and
what an answer leaves of the gang. -/

namespace Sys2Proof.Machine

variable {i : Instr} {s s₁ s₂ u : State} {k l : Nat} {G : Gang} {m act : Mask} {pc : DWord}

-- Results of one lane

/-- Instruction `i` of a group gives its active lanes the word `n` and leaves state `t` otherwise. -/
def Answers (s : State) (k : Nat) (G : Gang) (m act : Mask) (d : BitVec 8) (i : Instr) (t : State) (n : Word) : Prop :=
  ∃ H, exec i s = .next (t.setGang k H) ∧ Wrote G H m act fun _ => .word d n

theorem Answers.of_eq {d : BitVec 8} {x : State × Nat} {t : State} {n : Nat} (h : Answers s k G m act d i x.1 (BitVec.ofNat 32 x.2))
    (hx : x = (t, n)) : Answers s k G m act d i t (BitVec.ofNat 32 n) := by
  subst hx
  exact h

/-- An instruction whose body is one lane's result, in a state whose gangs are as they were. -/
theorem Executes.answers (h : Executes i s k G m act pc) (hone : lanesOf act = [l]) {body : ThreadBody} {d : BitVec 8} {w : Word}
    (hexec : exec i s = threadOp i s body) (hbody : body s k act = u.laneResult k l d w) (hu : u.gangs = s.gangs) :
    Answers s k G m act d i u w := by
  have hw := h.wrote_results d fun _ => w
  rw [hone] at hw
  rw [Answers, hexec, threadOp_executes h, hbody, laneResult_of_find (hu ▸ h.gang), after_setGang h _ (waits_result G l d w),
    advance_setGang]
  exact ⟨_, rfl, hw⟩

theorem tokenOp_one {a : Reg} {f : State → Nat → Gang → Nat → Nat → State} (h : Executes i s k G m act pc)
    (hone : lanesOf act = [l]) (ha : ((G.view l).reg a).2 = false) :
    tokenOp a f s k act = f s k G l ((G.view l).reg a).1.toNat := by
  have hrun : (G.lane l).life ≠ .exited := by simp [h.running l (h.sub (hone ▸ List.mem_singleton_self l))]
  have hreg : (G.view l).reg a = (((G.view l).reg a).1, false) := Prod.ext rfl ha
  simp only [tokenOp, hone, List.foldl_cons, List.foldl_nil, h.gang, if_neg hrun]
  rw [hreg]

/-- No operand faults where all of them have been translated. -/
theorem firstFault_ok (need : Nat) (as : List Nat) : firstFault need (as.map .ok) = none := by
  have hnone (as : List Nat) (f : Operand → Option LaneFault) (hf : ∀ a, f (.ok a) = none) :
      (as.map Except.ok).filterMap f = [] := by
    simp [List.filterMap_map, hf]
  simp only [firstFault, ← List.map_take]
  rw [hnone as _ fun _ => rfl, hnone (as.take need) _ fun _ => rfl]
  rfl

/-- An instruction on placement records whose one lane has all its operands translated and answers a code. -/
theorem recordOp_one {d : BitVec 8} {ops : View → List (DWord × Bool × Nat × Access)} {need r : Nat} {as : List Nat}
    {f : State → Nat → Nat → View → List Operand → State × Except LaneFault Nat} (hG : s.gangs.find? k = some G)
    (hone : lanesOf act = [l]) (hops : s.operands k G l (ops (G.view l)) = (s₁, .ok (as.map .ok)))
    (hf : f s₁ k l (G.view l) (as.map .ok) = (u, .ok r)) :
    recordOp d ops need f s k act = u.laneResult k l d (BitVec.ofNat 32 r) := by
  simp only [recordOp, hG, hone, State.laneOperands, hops, List.foldl_cons, List.foldl_nil, firstFault_ok, hf]

theorem roster_operand (s : State) (k : Nat) (G : Gang) (l : Nat) (acc : Access) (a : DWord) :
    (s.operand k G l acc a).1.roster = s.roster := by
  unfold State.operand
  grind only [roster_lookup]

theorem roster_operands (s : State) (k : Nat) (G : Gang) (l : Nat) (xs : List (DWord × Bool × Nat × Access)) :
    (s.operands k G l xs).1.roster = s.roster := by
  induction xs generalizing s with
  | nil => rfl
  | cons x xs ih =>
    unfold State.operands
    grind only [roster_operand]

/-- The gangs after an operation that keeps the roster, read off its answer. -/
theorem gangs_of_eq {α : Type} {t : State} {r : α} {q : State × α} (h : q = (t, r)) (hq : q.1.roster = s.roster) :
    t.gangs = s.gangs := by
  rw [h] at hq
  exact congrArg (·.1) hq

end Sys2Proof.Machine
end

section
/-! SUPPORT. What `WALKRES` leaves (R117): the launch's walk goes on, and the lane that asked for it gets 0. -/

namespace Sys2Proof.Machine

variable {s t : State} {k l tag : Nat} {X : Lane} {skip : Bool}

-- The launch

/-- A launch with its deferred entries that faulted put to be read again, or, with `skip`, taken off its list as reached. -/
def Launch.takeFaults (skip : Bool) (L : Launch) : Launch :=
  if skip then
    (L.deferred.filter (·.faulted)).foldl (fun L e => L.reach e.coord none)
      { L with deferred := L.deferred.filter fun e => !e.faulted }
  else { L with deferred := L.deferred.map fun e => if e.faulted then { e with faulted := false, ready := true } else e }

/-- A launch of which the walk goes on after its faults. -/
def Launch.resumed (skip : Bool) (L : Launch) : Launch :=
  let L := L.takeFaults skip
  let L := if L.cursorFault && skip then { L with cursor := L.cursor + 1 } else L
  let L := { L with cursorFault := false }.advance (L.skip.length + 1)
  { L with walk := if L.cursor < L.records then .walking else .draining }

theorem resumeWalk_eq (s : State) (tag : Nat) (skip : Bool) :
    s.resumeWalk tag skip = (s.onLaunch tag (Launch.resumed skip)).settleWalk tag := rfl

/-- Launch `R` is launch `L` with its walk going on. -/
structure Launch.GoesOn (skip : Bool) (L R : Launch) : Prop where
  walk : R.walk ≠ .faulted
  cursorFault : R.cursorFault = false
  kept : skip = false → L.skip = [] → R.cursor = L.cursor
  passed : skip = true → L.cursorFault = true → L.skip = [] → R.cursor = L.cursor + 1
  deferred : ∀ e ∈ R.deferred, e.faulted = false

theorem reach_eq (L : Launch) (c : List (BitVec 16)) (r : Option Routed) (i : Option Nat) :
    L.reach c r i = { L with cells := (L.reach c r i).cells } := by
  unfold Launch.reach
  split
  · rfl
  · dsimp only
    split <;> rfl

theorem foldl_reach_eq (es : List Deferred) (L : Launch) :
    es.foldl (fun L e => L.reach e.coord none) L =
      { L with cells := (es.foldl (fun L e => L.reach e.coord none) L).cells } := by
  induction es generalizing L with
  | nil => rfl
  | cons e es ih => rw [List.foldl_cons, ih, reach_eq]

theorem takeFaults_eq (skip : Bool) (L : Launch) :
    L.takeFaults skip = { L with deferred := (L.takeFaults skip).deferred, cells := (L.takeFaults skip).cells } := by
  unfold Launch.takeFaults
  split
  · rw [foldl_reach_eq]
  · rfl

theorem takeFaults_cursor (skip : Bool) (L : Launch) : (L.takeFaults skip).cursor = L.cursor := by rw [takeFaults_eq]

theorem takeFaults_skip (skip : Bool) (L : Launch) : (L.takeFaults skip).skip = L.skip := by rw [takeFaults_eq]

theorem takeFaults_cursorFault (skip : Bool) (L : Launch) : (L.takeFaults skip).cursorFault = L.cursorFault := by
  rw [takeFaults_eq]

/-- No deferred entry counts as faulted any more. -/
theorem takeFaults_deferred (skip : Bool) (L : Launch) : ∀ e ∈ (L.takeFaults skip).deferred, e.faulted = false := by
  unfold Launch.takeFaults
  split
  · rw [foldl_reach_eq]
    intro e he
    simpa using (List.mem_filter.mp he).2
  · intro e he
    obtain ⟨e', -, rfl⟩ := List.mem_map.mp he
    split
    · rfl
    · next hf => simpa using hf

theorem launch_advance_eq (L : Launch) (n : Nat) :
    L.advance n = { L with cursor := (L.advance n).cursor, skip := (L.advance n).skip } := by
  induction n generalizing L with
  | zero => rfl
  | succ n ih =>
    unfold Launch.advance
    split
    · rw [ih]
    · rfl

theorem launch_advance_of_nil {L : Launch} (h : L.skip = []) (n : Nat) : L.advance n = L := by
  cases n <;> simp [Launch.advance, h]

theorem resumed_goesOn (skip : Bool) (L : Launch) : L.GoesOn skip (L.resumed skip) := by
  unfold Launch.resumed
  extract_lets P Q R
  have hQs : Q.skip = L.skip := by
    rw [← takeFaults_skip skip L]
    simp only [Q]
    split <;> rfl
  have hQd : Q.deferred = P.deferred := by
    simp only [Q]
    split <;> rfl
  have hQc : Q.cursor = if L.cursorFault && skip then L.cursor + 1 else L.cursor := by
    rw [← takeFaults_cursor skip L, ← takeFaults_cursorFault skip L]
    simp only [Q]
    split <;> rfl
  have hR : R = { Q with cursorFault := false, cursor := R.cursor, skip := R.skip } := launch_advance_eq _ _
  have hRc (h : L.skip = []) : R.cursor = Q.cursor := by
    have := launch_advance_of_nil (L := { Q with cursorFault := false }) (hQs.trans h) (Q.skip.length + 1)
    exact (congrArg Launch.cursor this :)
  constructor
  case walk =>
    dsimp only
    split <;> simp
  case cursorFault => exact congrArg Launch.cursorFault hR
  case kept =>
    intro hs h
    rw [hRc h, hQc, hs, Bool.and_false]
    rfl
  case passed =>
    intro hs hf h
    rw [hRc h, hQc, hs, hf]
    rfl
  case deferred =>
    intro e he
    rw [show R.deferred = P.deferred from (congrArg Launch.deferred hR).trans hQd] at he
    exact takeFaults_deferred skip L e he

/-- What a walk that goes on is does not depend on the launch's cells and barriers, nor on how far it has come. -/
theorem Launch.GoesOn.of_eq {L R R' : Launch} (h : L.GoesOn skip R) (hw : R'.walk ≠ .faulted) (hf : R'.cursorFault = R.cursorFault)
    (hc : R'.cursor = R.cursor) (hd : R'.deferred = R.deferred) : L.GoesOn skip R' :=
  ⟨hw, hf ▸ h.cursorFault, hc ▸ h.kept, hc ▸ h.passed, hd ▸ h.deferred⟩

-- The lane, and the launch in the device

/-- Lane `l` of a gang is `X` and waits for nothing. -/
structure Gang.Idle (G : Gang) (l : Nat) (X : Lane) : Prop where
  lane : G.lane l = X
  waits : ∀ w ∈ G.waits, w.lanes.getLsbD l = false

/-- An idle lane rests, reconvergence entries set aside: a barrier does not look at them. -/
theorem Gang.Idle.rests {G : Gang} (h : G.Idle l X) : { G with reconv := [] }.Rests l X := ⟨h.lane, h.waits, by simp⟩

theorem Gang.Idle.waiting {G : Gang} (h : G.Idle l X) (p : Wait → Bool) :
    ((G.waits.filter p).foldl (fun m w => m ||| w.lanes) (0 : Mask)).getLsbD l = false := h.rests.waiting p

/-- Lanes that waited go on, and an idle lane stays as it is. -/
theorem Gang.Idle.release {G : Gang} (h : G.Idle l X) (m' : Mask) {m : Mask} (hm : m.getLsbD l = false) :
    ((G.unwait m').advance m).Idle l X := by
  refine ⟨?_, ?_⟩
  · rw [lane_advance, if_neg fun hc => by simp [mem_lanesOf, hm] at hc]
    exact h.lane
  · rw [waits_advance]
    exact (h.rests.unwait m').waits

/-- Lane `l` of gang `k` is `X` and idle, and launch `tag` has its walk going on, where the device still has it. -/
structure State.Resumes (k l : Nat) (X : Lane) (tag : Nat) (skip : Bool) (L : Launch) (s : State) : Prop where
  gang : ∃ G, s.gangs.find? k = some G ∧ G.Idle l X
  launch : ∀ R, s.launches.find? tag = some R → L.GoesOn skip R

namespace State.Resumes

variable {L : Launch}

theorem of_roster (h : s.Resumes k l X tag skip L) (ht : t.roster = s.roster) : t.Resumes k l X tag skip L := by
  have hg : t.gangs = s.gangs := congrArg (·.1) ht
  have hl : t.launches = s.launches := congrArg (·.2.2) ht
  exact ⟨hg ▸ h.gang, hl ▸ h.launch⟩

theorem putLaunch (h : s.Resumes k l X tag skip L) {n : Nat} {R : Launch} (hR : n = tag → L.GoesOn skip R) :
    { s with launches := s.launches.put n R }.Resumes k l X tag skip L := by
  refine ⟨h.gang, fun R' hR' => ?_⟩
  by_cases hn : n = tag
  · subst hn
    rw [SMap.find?_put_self] at hR'
    cases hR'
    exact hR rfl
  · exact h.launch R' ((SMap.find?_put_of_ne _ _ fun e => hn e.symm).symm.trans hR')

theorem setBarrier (h : s.Resumes k l X tag skip L) (t n : Nat) (b : Barrier) :
    (s.setBarrier (.coop t n) b).Resumes k l X tag skip L := by
  simp only [State.setBarrier]
  split
  next R hR =>
    refine h.putLaunch fun ht => ?_
    have hgo := h.launch R (ht ▸ hR)
    exact hgo.of_eq hgo.walk rfl rfl rfl
  next => exact h

theorem onGangAt (h : s.Resumes k l X tag skip L) {k' : Nat} {f : Gang → Gang}
    (hf : ∀ G, s.gangs.find? k' = some G → k' = k → G.Idle l X → (f G).Idle l X) :
    (s.onGangAt k' f).Resumes k l X tag skip L := by
  unfold State.onGangAt State.onGang
  obtain ⟨G, hG, hi⟩ := h.gang
  split
  · exact ⟨⟨G, hG, hi⟩, h.launch⟩
  · split
    next G' hG' =>
      by_cases hk : k' = k
      · subst hk
        rw [hG] at hG'
        cases hG'
        exact ⟨⟨_, setGang_find _ _ _, hf G hG rfl hi⟩, h.launch⟩
      · exact ⟨⟨G, (SMap.find?_put_of_ne _ _ fun e => hk e.symm).trans hG, hi⟩, h.launch⟩
    next => exact h

theorem releaseBar (h : s.Resumes k l X tag skip L) (r : BarRef) (phase k' : Nat) :
    (s.releaseBar r phase k').Resumes k l X tag skip L := by
  unfold State.releaseBar
  split
  · exact h
  next G hG =>
    have hs (m' : Mask) : (s.onGangAt k' fun H => (H.unwait m').advance
        ((G.waits.filter fun w => w.kind == .bar r phase).foldl (fun m w => m ||| w.lanes) 0)).Resumes k l X tag skip L := by
      refine h.onGangAt fun H hH hk hi => ?_
      have hHG : H = G := by simpa only [State.gangAt, hH, Option.some.injEq] using hG
      exact hi.release m' (Gang.Idle.waiting (hHG ▸ hi) _)
    dsimp only
    split
    · exact hs _
    · exact (hs _).of_roster (roster_acquireAt _ _ _)

theorem settleBar (h : s.Resumes k l X tag skip L) (t n : Nat) : (s.settleBar (.coop t n)).Resumes k l X tag skip L := by
  unfold State.settleBar
  dsimp only
  split
  · exact h
  · exact List.foldlRecOn _ _ (h.setBarrier t n _) fun s hs k' _ => hs.releaseBar _ _ k'

theorem settleWalk (h : s.Resumes k l X tag skip L) : (s.settleWalk tag).Resumes k l X tag skip L := by
  unfold State.settleWalk
  split
  · exact h
  next R hR =>
    have hgo := h.launch R hR
    split
    · exact h
    · extract_lets R₁ R₂ made u
      have h₁ : L.GoesOn skip R₁ := by
        simp only [R₁]
        split
        · exact hgo.of_eq hgo.walk rfl rfl rfl
        · exact hgo
      have h₂ : L.GoesOn skip R₂ := by
        simp only [R₂]
        split
        · exact h₁.of_eq (by simp) rfl rfl rfl
        · exact h₁
      split
      · have hput := h.putLaunch (n := tag) fun _ => h₂.of_eq (R' := { R₂ with walk := .complete }) (by simp) rfl rfl rfl
        exact List.foldlRecOn _ _ (hput.of_roster (roster_bump _ _ _ _)) fun s hs n _ => hs.settleBar tag n
      · exact h.putLaunch fun _ => h₂

end State.Resumes

/-- The walk of a launch resumed: lanes that wait for nothing stay as they are. -/
theorem resumeWalk_resumes {G : Gang} {L : Launch} (hG : s.gangs.find? k = some G) (hi : G.Idle l X)
    (hL : s.launches.find? tag = some L) (skip : Bool) : (s.resumeWalk tag skip).Resumes k l X tag skip L := by
  rw [resumeWalk_eq]
  refine State.Resumes.settleWalk ⟨⟨G, hG, hi⟩, fun R hR => ?_⟩
  simp only [State.onLaunch, SMap.find?_adjust, hL, if_true, Option.map_some, Option.some.injEq] at hR
  exact hR ▸ resumed_goesOn skip L

end Sys2Proof.Machine
end

section
/-! SUPPORT. The codes of `WALKRES` (R117), and what it leaves of a launch whose walk goes on. -/

namespace Sys2Proof.Machine

variable {i : Instr} {s u : State} {k l : Nat} {G : Gang} {m act : Mask} {pc : DWord}

/-- The one active lane of a group gets the result 0 in a state in which it is as it was and waits for nothing. -/
theorem Executes.result_idle (h : Executes i s k G m act pc) (hone : lanesOf act = [l]) {G' : Gang}
    (hG' : u.gangs.find? k = Option.some G') (hidle : G'.Idle l (G.lane l)) (d : BitVec 8) :
    ∃ H, (u.laneResult k l d 0).after k act (m &&& ~~~act) (·.advance k (m &&& ~~~act)) = u.setGang k H ∧
      (d ≠ 0 → (H.view l).reg ⟨false, d⟩ = (0, false)) ∧ (H.lane l).pc = succ pc := by
  have hact : l ∈ lanesOf act := by simp [hone]
  have hm := h.sub hact
  have hlen : l < G'.lanes.length := lt_of_running (by rw [hidle.lane]; exact h.running l hm)
  have hfree : ∀ w ∈ (G'.result l d 0).waits, w.lanes &&& act = 0 := by
    rw [waits_result, show act = laneBit l by rw [← maskOf_lanesOf act, hone]; simp [maskOf]]
    intro w hw
    refine BitVec.eq_of_getLsbD_eq fun j _ => ?_
    by_cases hj : l = j
    · simp [← hj, hidle.waits w hw]
    · simp [getLsbD_laneBit (lanesOf_lt hact), hj]
  have hlane : ((G'.result l d 0).advance (m &&& ~~~act)).lane l = onward ((G.lane l).putX d.toNat 0 false) := by
    rw [lane_advance, if_neg fun hc => (not_mem_lanesOf_rest.mp hc.1).2 hact, lane_result (lanesOf_lt hact) hlen, if_pos rfl,
      hidle.lane]
  rw [laneResult_of_find hG', after_of_free (setGang_find u k _) hfree, advance_setGang]
  refine ⟨_, rfl, fun hd => ?_, ?_⟩
  · rw [view_reg_x, hlane]
    exact (reg_putX (G.lane l) d d 0).trans (if_pos ⟨rfl, hd⟩)
  · rw [hlane, putX_eq]
    exact congrArg succ (h.here l hm)

/-- Whether a launch is cancelled, or its completion record asks for a cancel. -/
def State.ended (s : State) (L : Launch) : Bool := L.cancelled || ((s.crecs.find? L.key).map (·.cancelReq)).getD false

theorem ended_iff {L : Launch} :
    s.ended L = true ↔ L.cancelled = true ∨ ∃ r, s.crecs.find? L.key = some r ∧ r.cancelReq = true := by
  unfold State.ended
  cases s.crecs.find? L.key <;> simp

/-- The code that `WALKRES` gives for a launch of its context, by what the launch is. -/
def walkresCode (s : State) (L : Launch) : Nat := if s.ended L then 3 else if L.walk ≠ .faulted then 1 else 0

variable {skip : Bool} {d a : BitVec 8}

/-- A tag that names no launch of the lane's context. -/
theorem walkres_of_other (h : Executes i s k G m act pc) (hone : lanesOf act = [l]) (ha : ((G.view l).reg ⟨false, a⟩).2 = false)
    (hL : ∀ L, s.launches.find? ((G.view l).reg ⟨false, a⟩).1.toNat = some L → L.ctx ≠ s.ctxId (coreOf k / 512)) :
    walkres skip d a s k act = s.laneResult k l d 2 := by
  rw [walkres, tokenOp_one h hone ha]
  split
  · rfl
  next L hfind => exact if_pos (hL L hfind)

/-- A tag that names a launch of the lane's context. -/
theorem walkres_of_mine (h : Executes i s k G m act pc) (hone : lanesOf act = [l]) (ha : ((G.view l).reg ⟨false, a⟩).2 = false)
    {L : Launch} (hL : s.launches.find? ((G.view l).reg ⟨false, a⟩).1.toNat = some L) (hctx : L.ctx = s.ctxId (coreOf k / 512)) :
    walkres skip d a s k act = (if walkresCode s L = 0 then s.resumeWalk ((G.view l).reg ⟨false, a⟩).1.toNat skip else s).laneResult
      k l d (BitVec.ofNat 32 (walkresCode s L)) := by
  rw [walkres, tokenOp_one h hone ha]
  generalize ((G.view l).reg ⟨false, a⟩).1.toNat = tag at hL
  rw [hL]
  dsimp only
  rw [coreNode, if_neg (not_not.mpr hctx), ← State.ended]
  unfold walkresCode
  by_cases he : s.ended L = true
  · simp [he]
  · by_cases hw : L.walk = .faulted <;> simp [he, hw]

end Sys2Proof.Machine
end

section
/-! SUPPORT. Saves and loads of a die that are begun (R337, R344): what is left when they are refused, and when they are not. -/

namespace Sys2Proof.Machine

variable {s t u : State}

-- What the device's reads and translations leave

/-- A state with what reads of memory and walks fill set aside: the home's L2 and the shared TLBs. -/
def State.unread (s : State) : State := { s with l2 := [], stlb := [] }

theorem unread_homeRead (s : State) (pa n : Nat) : (s.homeRead pa n).1.unread = s.unread := by
  have hfold (secs : List Nat) (s : State) : (secs.foldl (fun s x => (s.homeSector x).1) s).unread = s.unread := by
    induction secs generalizing s with
    | nil => rfl
    | cons x secs ih => exact (ih _).trans rfl
  exact hfold _ s

theorem unread_entryAt (host : Bool) (s : State) (a : Nat) : (entryAt host s a).1.unread = s.unread := by
  grind only [entryAt, unread_homeRead]

theorem unread_walkLevels (guest : Bool) {rd : EntryRead} (hr : ∀ s a, (rd s a).1.unread = s.unread) (a : Nat)
    (ls : List (Nat × Nat)) (table : Nat) (s : State) : (walkLevels guest rd a ls table s).1.unread = s.unread := by
  induction ls generalizing table s with
  | nil => rfl
  | cons l ls ih => grind only [walkLevels]

theorem unread_hostWalk (vmid ia : Nat) (s : State) : (hostWalk vmid ia s).1.unread = s.unread := by
  unfold hostWalk
  repeat' split
  all_goals grind only [unread_entryAt, unread_walkLevels]

theorem unread_guestEntry (vmid : Nat) (secure : Bool) (s : State) (a : Nat) :
    (guestEntry vmid secure s a).1.unread = s.unread := by
  grind only [guestEntry, unread_entryAt, unread_hostWalk]

theorem unread_fullWalk (ag : Agent) (va : Nat) (s : State) : (fullWalk ag va s).1.unread = s.unread := by
  unfold fullWalk
  repeat' split
  all_goals grind only [unread_entryAt, unread_hostWalk, unread_guestEntry, unread_walkLevels]

/-- A translation by the device changes no more than the home's L2 and a shared TLB. -/
theorem unread_translateNow (ag : Agent) (acc : Access) (va : Nat) (s : State) :
    (translateNow ag acc va s).1.unread = s.unread := by
  have fill (t : State) (n : Nat) (e : TlbEntry) : (t.fillStlb n e).unread = t.unread := rfl
  grind only [translateNow, unread_fullWalk]

-- CTXSAVE

theorem roster_writePieces (ag : Agent) (a : DWord) (bs : List Byte) (s : State) (fuel : Nat) :
    (writePieces ag a bs s fuel).1.roster = s.roster := by
  induction fuel generalizing a bs s with
  | zero => rfl
  | succ fuel ih =>
    unfold writePieces
    grind only [roster_devWrite]

theorem gangs_saveEntries (s : State) (node : Nat) (ag : Agent) (area : DWord) (n : Nat) (rs : List Unplaced) :
    (s.saveEntries node ag area n rs).gangs = s.gangs := by
  unfold State.saveEntries
  refine List.foldlRecOn (motive := fun p : State × Nat => p.1.gangs = s.gangs) rs _ rfl fun p hp r _ => ?_
  exact ((congrArg (·.1) (roster_writePieces _ _ _ _ _) :) : _).trans hp

/-- What a save answers (R344), with no gang changed: it is refused, or it is under way for the context of the core's die. -/
inductive SaveAnswer (s : State) (core : Nat) (area : DWord) : State × Word → Prop
  | refused {t : State} {n : Word} (gangs : t.gangs = s.gangs) (code : n ≠ 0) : SaveAnswer s core area (t, n)
  | begun {t : State} {j : SaveJob} (gangs : t.gangs = s.gangs) (load : j.load = false) (ctx : j.ctx = s.ctxId (core / 512))
      (place : j.area = area) (grace : j.graceEnd = s.now + 1000 * (s.ctxs.get {} (s.ctxId (core / 512))).grace) :
      SaveAnswer s core area ({ t with saves := t.saves.put (core / 512) j }, 0)

theorem SaveAnswer.keepsGangs {core : Nat} {area : DWord} {x : State × Word} (h : SaveAnswer s core area x) :
    x.1.gangs = s.gangs := by
  cases h with
  | refused gangs => exact gangs
  | begun gangs => exact gangs

theorem ctxsave_answer (s : State) (core : Nat) (area : DWord) : SaveAnswer s core area (s.ctxsave core area) := by
  unfold State.ctxsave
  extract_lets node ctx secure ag
  have hroster := roster_translateNow ag .readWrite area.toNat s
  have hunread := unread_translateNow ag .readWrite area.toNat s
  split
  · exact .refused rfl (by decide)
  split
  · exact .refused rfl (by decide)
  split
  next t _ ht => exact .refused (gangs_of_eq ht hroster) (by decide)
  next t _ ht =>
    rw [ht] at hunread
    have hnow : t.now = s.now := (congrArg State.now hunread :)
    have hctxs : t.ctxs = s.ctxs := (congrArg State.ctxs hunread :)
    refine .begun ((gangs_saveEntries t node ag area 0 _).trans (gangs_of_eq ht hroster)) rfl rfl rfl ?_
    rw [← hnow, ← hctxs]
    rfl

theorem ctxsave_of_busy {core : Nat} {area : DWord} (h : (s.saves.find? (core / 512)).isSome) : s.ctxsave core area = (s, 1) :=
  if_pos h

theorem ctxsave_of_misaligned {core : Nat} {area : DWord} (h : (s.saves.find? (core / 512)).isNone)
    (ha : area.toNat % 4096 ≠ 0) : s.ctxsave core area = (s, 2) := by
  simp [State.ctxsave, coreNode, Option.isNone_iff_eq_none.mp h, ha]

-- CTXLOAD

theorem gangs_clearQueues (s : State) (idle : Bool) (ctx : Nat) : (s.clearQueues idle ctx).gangs = s.gangs := by
  unfold State.clearQueues
  split <;> rfl

theorem roster_jobOk (s : State) (node : Nat) (c : Ctx) : (s.jobOk node c).1.roster = s.roster := by
  unfold State.jobOk
  grind only [roster_devReadClean]

/-- A context set up on some cores of the device. -/
def State.setUp (s : State) (c : Ctx) (cores : List Nat) : State :=
  cores.foldl (fun s core => s.setCore core { s.core core with secure := c.secure, pwrset := c.pwrset }) s

/-- To install a context on a die is to set up its cores, and to list the context. -/
theorem install_eq (s : State) (node ctx : Nat) (c : Ctx) : ∃ cores : List Nat, (∀ n < 512, 512 * node + n ∈ cores) ∧
    s.install node ctx c =
      { s.setUp c cores with ctxs := (s.setUp c cores).ctxs.put ctx c, dieCtx := (s.setUp c cores).dieCtx.put node ctx } :=
  ⟨_, fun _ hn => List.mem_map_of_mem (List.mem_range.mpr hn), rfl⟩

theorem gangs_setUp (s : State) (c : Ctx) (cores : List Nat) : (s.setUp c cores).gangs = s.gangs :=
  List.foldlRecOn (motive := fun t : State => t.gangs = s.gangs) cores _ rfl fun _ ht _ _ => ht

theorem gangs_install (s : State) (node ctx : Nat) (c : Ctx) : (s.install node ctx c).gangs = s.gangs := by
  obtain ⟨cores, -, h⟩ := install_eq s node ctx c
  rw [h]
  exact gangs_setUp s c cores

theorem core_setCore (s : State) (n : Nat) (K : Core) (j : Nat) : (s.setCore n K).core j = if j = n then K else s.core j := by
  by_cases h : j = n
  · simp [State.setCore, State.core, SMap.get, h]
  · simp [State.setCore, State.core, SMap.get, h, SMap.find?_put_of_ne _ _ h]

theorem core_setUp (s : State) (c : Ctx) {cores : List Nat} {n : Nat} (h : n ∈ cores) :
    ((s.setUp c cores).core n).secure = c.secure ∧ ((s.setUp c cores).core n).pwrset = c.pwrset := by
  have keep (cores : List Nat) (s : State) (hs : (s.core n).secure = c.secure ∧ (s.core n).pwrset = c.pwrset) :
      ((s.setUp c cores).core n).secure = c.secure ∧ ((s.setUp c cores).core n).pwrset = c.pwrset := by
    refine List.foldlRecOn
      (motive := fun t : State => (t.core n).secure = c.secure ∧ (t.core n).pwrset = c.pwrset) cores _ hs fun t ht j _ => ?_
    rw [core_setCore]
    split
    · exact ⟨rfl, rfl⟩
    · exact ht
  induction cores generalizing s with
  | nil => cases h
  | cons j cores ih =>
    rcases List.mem_cons.mp h with rfl | h
    · exact keep cores _ (by simp [core_setCore])
    · exact ih _ h

/-- What a load answers (R344), with no gang changed: it is refused, or a context is installed on the core's die and its load is
under way. -/
inductive LoadAnswer (s : State) (core : Nat) (rec_ : DWord) : State × Word → Prop
  | refused {t : State} {n : Word} (gangs : t.gangs = s.gangs) (code : n ≠ 0) : LoadAnswer s core rec_ (t, n)
  | begun {t u : State} {n : Nat} {c : Ctx} {j : SaveJob} (gangs : t.gangs = s.gangs) (installed : u = t.install (core / 512) n c)
      (load : j.load = true) (ctx : j.ctx = n) (record : c.recordVa = rec_) :
      LoadAnswer s core rec_ ({ u with saves := u.saves.put (core / 512) j }, 0)

theorem LoadAnswer.keepsGangs {core : Nat} {rec_ : DWord} {x : State × Word} (h : LoadAnswer s core rec_ x) :
    x.1.gangs = s.gangs := by
  cases h with
  | refused gangs => exact gangs
  | begun gangs installed =>
    exact (congrArg State.gangs installed).trans ((gangs_install _ _ _ _).trans gangs)

theorem ctxload_answer (s : State) (core : Nat) (rec_ area : DWord) (fresh : Bool) :
    LoadAnswer s core rec_ (s.ctxload core rec_ area fresh) := by
  unfold State.ctxload
  extract_lets node secure ag
  have hrec := roster_devReadClean ag rec_ 64 s
  split
  · exact .refused rfl (by decide)
  split
  · exact .refused rfl (by decide)
  split
  · exact .refused rfl (by decide)
  · exact .refused rfl (by decide)
  next u r _ hu =>
  have hu := gangs_of_eq hu hrec
  have harea := roster_devReadClean ag area 64 u
  extract_lets pa n
  split
  · exact .refused hu (by decide)
  split
  · exact .refused hu (by decide)
  have hheader : (if fresh = true then (u, .ok []) else devReadClean ag area 64 u).1.gangs = s.gangs := by
    split
    · exact hu
    · exact (congrArg (·.1) harea).trans hu
  split
  next v _ hv =>
    rw [hv] at hheader
    exact .refused hheader (by decide)
  next v h hv =>
    rw [hv] at hheader
    split
    · exact .refused hheader (by decide)
    extract_lets power running old idle c
    have hjob := roster_jobOk v node c
    split
    next w hw => exact .refused ((gangs_of_eq hw hjob).trans hheader) (by decide)
    next w hw =>
      exact .begun ((gangs_clearQueues w idle n).trans ((gangs_of_eq hw hjob).trans hheader)) rfl rfl rfl rfl

/-- A load under way: the context that it installed is its die's, and its cores have the context's world and power. -/
theorem LoadAnswer.installs {core : Nat} {rec_ : DWord} {x : State × Word} (h : LoadAnswer s core rec_ x) (h0 : x.2 = 0) :
    ∃ j C, x.1.saves.find? (core / 512) = some j ∧ j.load = true ∧ x.1.dieCtx.find? (core / 512) = some j.ctx ∧
      x.1.ctxs.find? j.ctx = some C ∧ C.recordVa = rec_ ∧
      ∀ n < 512, (x.1.core (512 * (core / 512) + n)).secure = C.secure ∧
        (x.1.core (512 * (core / 512) + n)).pwrset = C.pwrset := by
  cases h with
  | refused _ code => exact absurd h0 code
  | @begun t u n c j _ installed load ctx record =>
    subst ctx
    obtain ⟨cores, hmem, hinstall⟩ := install_eq t (core / 512) j.ctx c
    rw [hinstall] at installed
    subst installed
    exact ⟨j, c, SMap.find?_put_self _ _ _, load, SMap.find?_put_self _ _ _, SMap.find?_put_self _ _ _, record,
      fun i hi => core_setUp t c (hmem i hi)⟩

/-- A save under way: it is for the context of the core's die, into the area named, with its grace from now on. -/
theorem SaveAnswer.begins {core : Nat} {area : DWord} {x : State × Word} (h : SaveAnswer s core area x) (h0 : x.2 = 0) :
    ∃ j, x.1.saves.find? (core / 512) = some j ∧ j.load = false ∧ j.ctx = s.ctxId (core / 512) ∧ j.area = area ∧
      j.graceEnd = s.now + 1000 * (s.ctxs.get {} (s.ctxId (core / 512))).grace := by
  cases h with
  | refused _ code => exact absurd h0 code
  | begun _ load ctx place grace => exact ⟨_, SMap.find?_put_self _ _ _, load, ctx, place, grace⟩

theorem ctxload_of_busy {core : Nat} {rec_ area : DWord} {fresh : Bool} (h : (s.saves.find? (core / 512)).isSome) :
    s.ctxload core rec_ area fresh = (s, 1) := if_pos h

end Sys2Proof.Machine
end

section
/-! SUPPORT. `TMOVE` and `TREPL` of one lane (R118, R119), and the statement about records of the system (O49). -/

namespace Sys2Proof.Machine

variable {s s₁ s₂ : State} {k l : Nat} {G : Gang} {m act : Mask} {pc : DWord} {g : Guard} {d a b c : BitVec 8} {len : Word}
  {pa ta vec : Nat} {r : List Byte}

theorem gangs_prUpdate {pa : Nat} {f : List Byte → Option (List Byte)} {o : Option (List Byte)} (h : s.prUpdate pa f = (s₂, o)) :
    s₂.gangs = s.gangs := gangs_of_eq h (roster_prUpdate s pa f)

theorem gangs_startMove (s : State) (M : Migration) (r : List Byte) : (s.startMove M r).1.gangs = s.gangs :=
  congrArg (·.1) (roster_startMove s M r)

theorem gangs_migrate (s : State) (M : Migration) (r : List Byte) : (s.migrate M r).1.gangs = s.gangs := by
  unfold State.migrate
  split
  · split <;> rfl
  · exact gangs_startMove s M r

-- TMOVE and TREPL.add

/-- What `TMOVE` and `TREPL.add` answer whose operands are usable and whose record `r` is read, `s₁` and `s₂` being the states
before and after the read: `bad` is a record that cannot migrate, `here` a destination that has a copy, `astray` a vector that is
not at the record's home. -/
def State.moveAnswer (s₁ s₂ : State) (M : Migration) (r : List Byte) (n : Nat) (bad here astray : Bool) : State × Nat :=
  if badLength n then (s₁, 4)
  else if prState r = 2 || s₂.migrationPending M.pa then (s₂, 2)
  else if bad then (s₂, 3)
  else if here then (s₂, 4)
  else if astray then (s₂, 6)
  else s₂.migrate M r

theorem gangs_moveAnswer (h₁ : s₁.gangs = s.gangs) (h₂ : s₂.gangs = s.gangs) (M : Migration) (r : List Byte) (n : Nat)
    (bad here astray : Bool) : (s₁.moveAnswer s₂ M r n bad here astray).1.gangs = s.gangs := by
  unfold State.moveAnswer
  grind only [gangs_migrate]

/-- The record of a move cannot migrate, or that of a new replica (`add`). -/
def moveBad (add : Bool) (r : List Byte) : Bool :=
  prBad r || (prState r ≠ 1 && !(add && prState r = 3)) || (add && prRepl r = 15)

/-- The destination of a move holds the tile, or that of a new replica (`add`) a copy of it. -/
def moveHere (add : Bool) (r : List Byte) (node : Nat) : Bool :=
  node = prHome r || (add && (prSlots r).any fun j => prNode r j == node)

/-- The replica vector of a record that is to get its first replica is not at the record's home. -/
def vectorAstray (r : List Byte) (vec : Nat) : Bool := prState r ≠ 3 && nodeOf vec ≠ prHome r

theorem badLength_iff (n : Nat) : badLength n = true ↔ n = 0 ∨ n % 128 ≠ 0 ∨ 2 ^ 24 < n := by
  simp [badLength, or_assoc]

theorem moveBad_iff (add : Bool) (r : List Byte) : moveBad add r = true ↔
    prBad r = true ∨ prState r ≠ 1 ∧ (add = true → prState r ≠ 3) ∨ add = true ∧ prRepl r = 15 := by
  cases add <;> simp [moveBad, or_assoc]

theorem moveHere_iff (add : Bool) (r : List Byte) (node : Nat) : moveHere add r node = true ↔
    node = prHome r ∨ add = true ∧ ∃ j ∈ prSlots r, prNode r j = node := by
  simp [moveHere]

theorem answers_tmove (h : Executes (.tmove g d a b len) s k G m act pc) (hone : lanesOf act = [l])
    (hops : s.operands k G l [(((G.view l).pair ⟨false, a⟩).1, ((G.view l).pair ⟨false, a⟩).2, 32, .readWrite),
      (((G.view l).pair ⟨false, b⟩).1, ((G.view l).pair ⟨false, b⟩).2, 128, .write)] = (s₁, .ok [.ok pa, .ok ta]))
    (hr : s₁.prUpdate pa (fun _ => none) = (s₂, some r)) :
    let M := s₂.migration k pa (nodeOf ta) ((G.view l).pair ⟨false, a⟩).1 (.move ((G.view l).pair ⟨false, b⟩).1 len.toNat)
    let x := s₁.moveAnswer s₂ M r len.toNat (moveBad false r) (moveHere false r (nodeOf ta)) (false && vectorAstray r vec)
    Answers s k G m act d (.tmove g d a b len) x.1 (BitVec.ofNat 32 x.2) := by
  intro M x
  have h₁ := gangs_of_eq hops (roster_operands s k G l _)
  refine h.answers hone rfl (recordOp_one (as := [pa, ta]) h.gang hone hops ?_)
    (gangs_moveAnswer h₁ ((gangs_prUpdate hr).trans h₁) M r _ _ _ _)
  have hbad : moveBad false r = (prBad r || decide (prState r ≠ 1)) := by simp [moveBad]
  have hhere : moveHere false r (nodeOf ta) = decide (nodeOf ta = prHome r) := by simp [moveHere]
  have hpa : M.pa = pa := rfl
  simp only [List.map_cons, List.map_nil, hr, x, State.moveAnswer, hbad, hhere, hpa, decide_eq_true_eq, Bool.false_and,
    Bool.false_eq_true, if_false]
  split_ifs <;> rfl

theorem answers_treplAdd (h : Executes (.treplAdd g d a b c len) s k G m act pc) (hone : lanesOf act = [l])
    (hops : s.operands k G l [(((G.view l).pair ⟨false, a⟩).1, ((G.view l).pair ⟨false, a⟩).2, 32, .readWrite),
      (((G.view l).pair ⟨false, b⟩).1, ((G.view l).pair ⟨false, b⟩).2, 128, .write),
      (((G.view l).pair ⟨false, c⟩).1, ((G.view l).pair ⟨false, c⟩).2, 32, .write)] = (s₁, .ok [.ok pa, .ok ta, .ok vec]))
    (hr : s₁.prUpdate pa (fun _ => none) = (s₂, some r)) :
    let M := s₂.migration k pa (nodeOf ta) ((G.view l).pair ⟨false, a⟩).1
      (.add ((G.view l).pair ⟨false, b⟩).1 ((G.view l).pair ⟨false, c⟩).1 len.toNat)
    let x := s₁.moveAnswer s₂ M r len.toNat (moveBad true r) (moveHere true r (nodeOf ta)) (true && vectorAstray r vec)
    Answers s k G m act d (.treplAdd g d a b c len) x.1 (BitVec.ofNat 32 x.2) := by
  intro M x
  have h₁ := gangs_of_eq hops (roster_operands s k G l _)
  refine h.answers hone rfl (recordOp_one (as := [pa, ta, vec]) h.gang hone hops ?_)
    (gangs_moveAnswer h₁ ((gangs_prUpdate hr).trans h₁) M r _ _ _ _)
  have hbad : moveBad true r = (prBad r || (decide (prState r ≠ 1) && decide (prState r ≠ 3)) || decide (prRepl r = 15)) := by
    simp [moveBad]
  have hhere : moveHere true r (nodeOf ta) =
      (decide (nodeOf ta = prHome r) || (prSlots r).any fun j => prNode r j == nodeOf ta) := by simp [moveHere]
  have hpa : M.pa = pa := rfl
  simp only [List.map_cons, List.map_nil, hr, x, State.moveAnswer, hbad, hhere, hpa, Bool.true_and]
  by_cases hst : prState r = 3
  · have hnear : vectorAstray r vec = false := by simp [vectorAstray, hst]
    simp only [hnear, if_pos hst, Bool.false_eq_true, if_false]
    split_ifs <;> rfl
  · have hastray : vectorAstray r vec = decide (nodeOf vec ≠ prHome r) := by simp [vectorAstray, hst]
    simp only [hastray, if_neg hst, decide_eq_true_eq]
    split_ifs <;> rfl

section
variable {M : Migration} {n : Nat} {bad here astray : Bool}

theorem moveAnswer_of_badLength (hlen : badLength n = true) : s₁.moveAnswer s₂ M r n bad here astray = (s₁, 4) := if_pos hlen

theorem moveAnswer_of_busy (hlen : badLength n = false) (hbusy : prState r = 2 ∨ s₂.migrationPending M.pa = true) :
    s₁.moveAnswer s₂ M r n bad here astray = (s₂, 2) := by
  simp [State.moveAnswer, hlen, hbusy]

theorem moveAnswer_of_bad (hlen : badLength n = false) (hst : prState r ≠ 2) (hpending : s₂.migrationPending M.pa = false)
    (hbad : bad = true) : s₁.moveAnswer s₂ M r n bad here astray = (s₂, 3) := by
  simp [State.moveAnswer, hlen, hst, hpending, hbad]

theorem moveAnswer_of_here (hlen : badLength n = false) (hst : prState r ≠ 2) (hpending : s₂.migrationPending M.pa = false)
    (hbad : bad = false) (hhere : here = true) : s₁.moveAnswer s₂ M r n bad here astray = (s₂, 4) := by
  simp [State.moveAnswer, hlen, hst, hpending, hbad, hhere]

/-- The answer where nothing but the record's claim can hold the migration up. -/
theorem moveAnswer_of_good (hlen : badLength n = false) (hst : prState r ≠ 2) (hpending : s₂.migrationPending M.pa = false)
    (hbad : bad = false) (hhere : here = false) (hastray : astray = false) :
    s₁.moveAnswer s₂ M r n bad here astray = s₂.migrate M r := by
  simp [State.moveAnswer, hlen, hst, hpending, hbad, hhere, hastray]

end

-- TREPL.drop

/-- Replica slots that a record does not let go of: it is not REPLICATED, or one of them is the primary copy's or is not valid. -/
def dropWrong (r : List Byte) (slots : BitVec 4) : Bool :=
  prBad r || prState r ≠ 3 || ((prPrimary r).any fun j => slots.getLsbD j) ||
    (List.range 4).any fun j => slots.getLsbD j && !(prSlots r).contains j

theorem dropWrong_iff (r : List Byte) (slots : BitVec 4) : dropWrong r slots = true ↔
    prBad r = true ∨ prState r ≠ 3 ∨ (∃ j, prPrimary r = some j ∧ slots.getLsbD j = true) ∨
      ∃ j < 4, slots.getLsbD j = true ∧ (prRepl r).testBit j = false := by
  have hinvalid : ((List.range 4).any fun j => slots.getLsbD j && !(prSlots r).contains j) = true ↔
      ∃ j < 4, slots.getLsbD j = true ∧ (prRepl r).testBit j = false := by
    simp only [List.any_eq_true, List.mem_range, Bool.and_eq_true, Bool.not_eq_true', prSlots]
    refine exists_congr fun j => and_congr_right fun hj => and_congr_right fun _ => ?_
    simp [hj]
  have hprimary : ((prPrimary r).any fun j => slots.getLsbD j) = true ↔ ∃ j, prPrimary r = some j ∧ slots.getLsbD j = true := by
    cases prPrimary r <;> simp
  simp only [dropWrong, Bool.or_eq_true, hinvalid, hprimary, decide_eq_true_eq, or_assoc]

/-- What `TREPL.drop` answers whose record `r` is read. -/
def State.dropAnswer (s : State) (M : Migration) (r : List Byte) (slots : BitVec 4) : State × Nat :=
  if dropWrong r slots then (s, 3)
  else if prClaim r ≠ 0 then if s.pendingFull M.pa then (s, 5) else (s.addMigration M, 1)
  else
    match s.dropReplicas (s.tileAgent M) r slots with
    | (u, none) => (u, 7)
    | (u, some v) => ((u.baseWrite (runAt M.pa (clean v))).tellChanter M.pa, 0)

theorem gangs_dropAnswer (s : State) (M : Migration) (r : List Byte) (slots : BitVec 4) :
    (s.dropAnswer M r slots).1.gangs = s.gangs := by
  have hdrop := roster_dropReplicas s (s.tileAgent M) r slots
  unfold State.dropAnswer
  split
  · rfl
  split
  · split <;> rfl
  split
  next u hu => exact gangs_of_eq hu hdrop
  next u v hu => exact (congrArg (·.1) (roster_baseWrite u _) :).trans (gangs_of_eq hu hdrop)

theorem answers_treplDrop {slots : BitVec 4} (h : Executes (.treplDrop g d a slots) s k G m act pc) (hone : lanesOf act = [l])
    (hops : s.operands k G l [(((G.view l).pair ⟨false, a⟩).1, ((G.view l).pair ⟨false, a⟩).2, 32, .readWrite)] =
      (s₁, .ok [.ok pa]))
    (hr : s₁.prUpdate pa (fun _ => none) = (s₂, some r)) :
    let x := s₂.dropAnswer (s₂.migration k pa 0 ((G.view l).pair ⟨false, a⟩).1 (.drop slots)) r slots
    Answers s k G m act d (.treplDrop g d a slots) x.1 (BitVec.ofNat 32 x.2) := by
  intro x
  have h₁ := gangs_of_eq hops (roster_operands s k G l _)
  refine h.answers hone rfl (recordOp_one (as := [pa]) h.gang hone hops ?_)
    ((gangs_dropAnswer _ _ _ _).trans ((gangs_prUpdate hr).trans h₁))
  have hpa : (s₂.migration k pa 0 ((G.view l).pair ⟨false, a⟩).1 (.drop slots)).pa = pa := rfl
  simp only [List.map_cons, List.map_nil, hr, x, State.dropAnswer, dropWrong, hpa]
  split_ifs
  · rfl
  · rfl
  · rfl
  · generalize s₂.dropReplicas (s₂.tileAgent (s₂.migration k pa 0 ((G.view l).pair ⟨false, a⟩).1 (.drop slots))) r slots = y
    obtain ⟨u, _ | v⟩ := y <;> rfl

-- The statement

variable {i : Instr}

/-- R117, clause by clause. -/
theorem walkres_results {skip : Bool} (hi : i = .walkres g d a ∧ skip = false ∨ i = .walkresSkip g d a ∧ skip = true)
    (h : Executes i s k G m act pc) (hone : lanesOf act = [l]) (ha : ((G.view l).reg ⟨false, a⟩).2 = false) :
    let tag := ((G.view l).reg ⟨false, a⟩).1.toNat
    ((∀ L, s.launches.find? tag = some L → L.ctx ≠ s.ctxId (coreOf k / 512)) → Answers s k G m act d i s 2) ∧
    ∀ L, s.launches.find? tag = some L → L.ctx = s.ctxId (coreOf k / 512) →
      (s.ended L = true → Answers s k G m act d i s 3) ∧
      (s.ended L = false → L.walk ≠ .faulted → Answers s k G m act d i s 1) ∧
      (s.ended L = false → L.walk = .faulted → ∃ t H, exec i s = .next t ∧ t.gangs.find? k = some H ∧
        (d ≠ 0 → (H.view l).reg ⟨false, d⟩ = (0, false)) ∧ (H.lane l).pc = succ pc ∧
        ∀ R, t.launches.find? tag = some R → L.GoesOn skip R) := by
  intro tag
  have hexec : exec i s = threadOp i s (walkres skip d a) := by rcases hi with ⟨rfl, rfl⟩ | ⟨rfl, rfl⟩ <;> rfl
  refine ⟨fun hL => h.answers hone hexec (walkres_of_other h hone ha hL) rfl, fun L hL hctx => ?_⟩
  have hbody := walkres_of_mine (skip := skip) (d := d) h hone ha hL hctx
  refine ⟨fun he => ?_, fun he hw => ?_, fun he hw => ?_⟩
  · have hcode : walkresCode s L = 3 := by simp [walkresCode, he]
    rw [hcode] at hbody
    exact h.answers hone hexec hbody rfl
  · have hcode : walkresCode s L = 1 := by simp [walkresCode, he, hw]
    rw [hcode] at hbody
    exact h.answers hone hexec hbody rfl
  · have hcode : walkresCode s L = 0 := by simp [walkresCode, he, hw]
    rw [hcode, if_pos rfl] at hbody
    have hact : l ∈ lanesOf m := h.sub (by simp [hone])
    have hidle : G.Idle l (G.lane l) :=
      ⟨rfl, fun w hw => by simpa [mem_lanesOf.mp hact] using congrArg (·.getLsbD l) (h.free w hw)⟩
    obtain ⟨⟨G', hG', hidle'⟩, hgo⟩ := resumeWalk_resumes h.gang hidle hL skip
    obtain ⟨H, hH, hreg, hpc⟩ := h.result_idle hone hG' hidle' d
    rw [hexec, threadOp_executes h, hbody]
    exact ⟨_, H, congrArg _ hH, setGang_find _ _ _, hreg, hpc, hgo⟩

/-- A save asked for by one lane is the answer of `State.ctxsave`. -/
theorem answers_ctxsave {q : Reg} (h : Executes (.ctxsave g d q) s k G m act pc) (hone : lanesOf act = [l])
    (hq : ((G.view l).pair q).2 = false) :
    let x := s.ctxsave (coreOf k) ((G.view l).pair q).1
    Answers s k G m act d (.ctxsave g d q) x.1 x.2 := by
  refine h.answers hone rfl ?_ (ctxsave_answer s _ _).keepsGangs
  have hpair : (G.view l).pair q = (((G.view l).pair q).1, false) := Prod.ext rfl hq
  simp only [hone, List.foldl_cons, List.foldl_nil, h.gang]
  rw [hpair]

/-- A load asked for by one lane is the answer of `State.ctxload`. -/
theorem answers_ctxload {q r : Reg} (h : Executes (.ctxload g d q r) s k G m act pc) (hone : lanesOf act = [l])
    (hq : ((G.view l).pair q).2 = false) (hr : ((G.view l).pair r).2 = false) :
    let x := s.ctxload (coreOf k) ((G.view l).pair q).1 ((G.view l).pair r).1 (!r.k && r.n == 0)
    Answers s k G m act d (.ctxload g d q r) x.1 x.2 := by
  refine h.answers hone rfl ?_ (ctxload_answer s _ _ _ _).keepsGangs
  have hpairq : (G.view l).pair q = (((G.view l).pair q).1, false) := Prod.ext rfl hq
  have hpairr : (G.view l).pair r = (((G.view l).pair r).1, false) := Prod.ext rfl hr
  simp only [hone, List.foldl_cons, List.foldl_nil, h.gang]
  rw [hpairq, hpairr]

/-- Settles O49, clause by clause from what the instructions answer: `WALKRES` by the launch that its tag names, saves and loads by
`State.ctxsave` and `State.ctxload`, and the instructions on placement records by what they read there. -/
theorem systemRecordResults : Obligations.SystemRecordResults := by
  unfold Obligations.SystemRecordResults
  intro g d a b c s k G m act pc l hone gives node ctx
  refine ⟨?walkres, ?save, ?load, ?move, ?drop⟩
  case walkres =>
    intro skip i hi h ha tag
    obtain ⟨hother, hmine⟩ := walkres_results hi h hone ha
    refine ⟨?_, fun L hL hctx => ?_⟩
    · rintro (hnone | ⟨L, hL, hctx⟩)
      · exact hother fun L hL => nomatch hnone.symm.trans hL
      · refine hother fun L' hL' => ?_
        cases hL.symm.trans hL'
        exact hctx
    · intro ended
      obtain ⟨hended, hwalks, hfaulted⟩ := hmine L hL hctx
      have hiff : s.ended L = true ↔ ended := ended_iff
      have hnot (hn : ¬ended) : s.ended L = false := by simpa [← hiff] using hn
      refine ⟨fun he => hended (hiff.mpr he), fun hn => hwalks (hnot hn), fun hn hw => ?_⟩
      obtain ⟨t, H, ht, hH, hreg, hpc, hgo⟩ := hfaulted (hnot hn) hw
      refine ⟨t, H, ht, hH, hreg, hpc, fun R hR => ?_⟩
      obtain ⟨hwalk, hfault, hkept, hpassed, hdeferred⟩ := hgo R hR
      exact ⟨hwalk, hfault, hkept, hpassed, hdeferred⟩
  case save =>
    intro q h hq x
    refine ⟨answers_ctxsave h hone hq, ctxsave_of_busy, fun hfree hbad => ctxsave_of_misaligned hfree hbad, ?_⟩
    exact (ctxsave_answer s _ _).begins
  case load =>
    intro q r h hq hr fresh x
    exact ⟨answers_ctxload h hone hq hr, ctxload_of_busy, (ctxload_answer s _ _ _ _).installs⟩
  case move =>
    intro len i kind s₁ pa ta vec s₂ r h rec_ tile vector n hops hr add M here
    obtain ⟨isAdd, hadd, hmove⟩ : ∃ isAdd : Bool, (add ↔ isAdd = true) ∧
        let x := s₁.moveAnswer s₂ M r n (moveBad isAdd r) (moveHere isAdd r (nodeOf ta)) (isAdd && vectorAstray r vec)
        Answers s k G m act d i x.1 (BitVec.ofNat 32 x.2) := by
      rcases hops with ⟨rfl, rfl, hops⟩ | ⟨rfl, rfl, hops⟩
      · exact ⟨false, by simp [add], answers_tmove h hone hops hr⟩
      · exact ⟨true, by simp [add], answers_treplAdd h hone hops hr⟩
    have hpa : M.pa = pa := rfl
    refine ⟨fun hl => hmove.of_eq (moveAnswer_of_badLength ((badLength_iff n).mpr hl)), fun h0 h128 h24 => ?_⟩
    have hlen : badLength n = false := by
      rw [← Bool.not_eq_true, badLength_iff]
      omega
    refine ⟨fun hbusy => hmove.of_eq (moveAnswer_of_busy hlen (hpa ▸ hbusy)), fun hst hpending => ?_⟩
    have hbad : moveBad isAdd r = true ↔ prBad r = true ∨ prState r ≠ 1 ∧ (add → prState r ≠ 3) ∨ add ∧ prRepl r = 15 := by
      rw [moveBad_iff, hadd]
    refine ⟨fun hb => hmove.of_eq (moveAnswer_of_bad hlen hst (hpa ▸ hpending) (hbad.mpr hb)), fun hgood hstate hrepl => ?_⟩
    have hbad : moveBad isAdd r = false := by
      rw [← Bool.not_eq_true, hbad]
      rintro (hb | ⟨h1, h3⟩ | ⟨ha, h15⟩)
      · simp [hgood] at hb
      · exact hstate.elim h1 fun ⟨ha, h⟩ => h3 ha h
      · exact hrepl ha h15
    have hhere : moveHere isAdd r (nodeOf ta) = true ↔ here := by rw [moveHere_iff, ← hadd]
    refine ⟨fun hat => hmove.of_eq (moveAnswer_of_here hlen hst (hpa ▸ hpending) hbad (hhere.mpr hat)), fun hnot hvec => ?_⟩
    have hastray : (isAdd && vectorAstray r vec) = false := by
      rw [← Bool.not_eq_true, Bool.and_eq_true, vectorAstray, Bool.and_eq_true, decide_eq_true_eq, decide_eq_true_eq]
      rintro ⟨ha, h3, hfar⟩
      have ha := hadd.mpr ha
      exact hfar (hvec ha (hstate.resolve_right fun h => h3 h.2))
    have hmigrate := moveAnswer_of_good (s₁ := s₁) hlen hst (hpa ▸ hpending) hbad (by simpa [← hhere] using hnot) hastray
    refine ⟨fun hc hf => hmove.of_eq (hmigrate.trans ?_), fun hc hf => hmove.of_eq (hmigrate.trans ?_),
      fun hc => hmove.of_eq (hmigrate.trans ?_)⟩
    · simp [State.migrate, hc, hpa, hf]
    · simp [State.migrate, hc, hpa, hf]
    · simp [State.migrate, hc]
  case drop =>
    intro slots s₁ pa s₂ r h rec_ hops hr M wrong
    have hdrop := answers_treplDrop h hone hops hr
    have hpa : M.pa = pa := rfl
    have hiff : dropWrong r slots = true ↔ wrong := dropWrong_iff r slots
    have hright (hn : ¬wrong) : dropWrong r slots = false := by simpa [← hiff] using hn
    refine ⟨fun hw => ?_, fun hn hc hf => ?_, fun hn hc hf => ?_, fun hn hc u v hu => ?_⟩
    · have hx : s₂.dropAnswer M r slots = (s₂, 3) := by simp [State.dropAnswer, hiff.mpr hw]
      exact hdrop.of_eq hx
    · have hx : s₂.dropAnswer M r slots = (s₂, 5) := by simp [State.dropAnswer, hright hn, hc, hpa, hf]
      exact hdrop.of_eq hx
    · have hx : s₂.dropAnswer M r slots = (s₂.addMigration M, 1) := by simp [State.dropAnswer, hright hn, hc, hpa, hf]
      exact hdrop.of_eq hx
    · have hx : s₂.dropAnswer M r slots = ((u.baseWrite (runAt pa (clean v))).tellChanter pa, 0) := by
        simp [State.dropAnswer, hright hn, hc, hpa, hu]
      exact hdrop.of_eq hx

end Sys2Proof.Machine
end

section
/-! SUPPORT. Decoding inverts encoding (R127 to R133): the codes and the fields of an instruction read back, and the statement
about it (O56). -/

namespace Sys2Proof

-- Codes read back

@[simp] theorem Ty.ofCode_code (t : Ty) : Ty.ofCode t.code = some t := by cases t <;> rfl
@[simp] theorem Rm.ofCode_code (r : Rm) : Rm.ofCode r.code = some r := by cases r <;> rfl
@[simp] theorem Scope.ofCode_code (s : Scope) : Scope.ofCode s.code = some s := by cases s <;> rfl
@[simp] theorem Policy.ofCode_code (p : Policy) : Policy.ofCode p.code = some p := by cases p <;> rfl
@[simp] theorem Count.ofCode_code (c : Count) : Count.ofCode c.code = some c := by cases c <;> rfl
@[simp] theorem Rel.ofCode_code (r : Rel) : Rel.ofCode r.code = some r := by cases r <;> rfl
@[simp] theorem FRel.ofCode_code (r : FRel) : FRel.ofCode r.code = some r := by cases r <;> rfl
@[simp] theorem RedOp.ofCode_code (o : RedOp) : RedOp.ofCode o.code = some o := by cases o <;> rfl
@[simp] theorem AtomOp.ofCode_code (o : AtomOp) : AtomOp.ofCode o.code = some o := by cases o <;> rfl
@[simp] theorem WCond.ofCode_code (c : WCond) : WCond.ofCode c.code = some c := by cases c <;> rfl

/-- The variant 7 of an atomic is cas, no other operation's. -/
theorem AtomOp.code_ne_seven (o : AtomOp) : o.code ≠ 7 := by cases o <;> decide

theorem bind_of_eq {α β : Type} {o : Option α} {a : α} {f : α → Option β} {r : Option β} (h : o = some a)
    (hr : f a = r) : o.bind f = r := by
  rw [h, Option.bind_some, hr]

theorem map_of_eq {α β : Type} {o : Option α} {a : α} {f : α → β} {r : Option β} (h : o = some a)
    (hr : some (f a) = r) : o.map f = r := by
  rw [h, Option.map_some, hr]

-- Parts of a field read back

/-- A number widened to fill a field of `w` bits, read back at its own width. -/
theorem narrow {v : Nat} (w : Nat) (x : BitVec v) (h : v ≤ w := by decide) : (x.setWidth w).setWidth v = x := by
  rw [BitVec.setWidth_setWidth_of_le _ h, BitVec.setWidth_eq]

theorem getLsbD_eq_extractLsb' {n : Nat} (w : BitVec n) (i : Nat) : w.getLsbD i = (w.extractLsb' i 1).getLsbD 0 := by simp

@[simp] theorem getLsbD_bit1 (b : Bool) : (bit1 b).getLsbD 0 = b := by cases b <;> rfl

theorem getLsbD_imm_bit1 (b : Bool) : ((bit1 b).setWidth 32).getLsbD 0 = b := by cases b <;> rfl

section
variable {α : Type}

/-- `FORK`'s immediate, read back (R154). -/
theorem forkImm_read (k : Bool → Bool → BitVec 16 → α) (gangs : BitVec 16) (m c : Bool) :
    some (k ((gangs ++ (0 : BitVec 14) ++ bit1 c ++ bit1 m).getLsbD 0) ((gangs ++ (0 : BitVec 14) ++ bit1 c ++ bit1 m).getLsbD 1)
      ((gangs ++ (0 : BitVec 14) ++ bit1 c ++ bit1 m).extractLsb' 16 16)) = some (k m c gangs) := by
  have hm : (gangs ++ (0 : BitVec 14) ++ bit1 c ++ bit1 m).getLsbD 0 = m := by
    rw [getLsbD_eq_extractLsb', BitVec.extractLsb'_append_eq_of_add_le (by decide), BitVec.extractLsb'_eq_self, getLsbD_bit1]
  have hc : (gangs ++ (0 : BitVec 14) ++ bit1 c ++ bit1 m).getLsbD 1 = c := by
    rw [getLsbD_eq_extractLsb', BitVec.extractLsb'_append_eq_of_le (by decide),
      BitVec.extractLsb'_append_eq_of_add_le (by decide), BitVec.extractLsb'_eq_self, getLsbD_bit1]
  have hg : (gangs ++ (0 : BitVec 14) ++ bit1 c ++ bit1 m).extractLsb' 16 16 = gangs := by
    simp (disch := decide) only [BitVec.extractLsb'_append_eq_of_le, Nat.reduceSub, BitVec.extractLsb'_eq_self]
  rw [hm, hc, hg]

theorem atomMod_sc (ms sc : Bool) (o : Order) : (atomMod ms sc o).getLsbD 2 = sc := by
  cases ms <;> cases sc <;> cases o <;> rfl

theorem atomMod_ms (ms sc : Bool) (o : Order) : (atomMod ms sc o).getLsbD 3 = ms := by
  cases ms <;> cases sc <;> cases o <;> rfl

/-- MOD[11:8] of an atomic, read back (R289). -/
theorem atomMod_read (k : Order → Bool → Bool → α) (ms sc : Bool) (o : Order) :
    some (k (Order.ofCode ((atomMod ms sc o).setWidth 2)) ((atomMod ms sc o).getLsbD 2) ((atomMod ms sc o).getLsbD 3)) =
      some (k o sc ms) := by
  have ho : Order.ofCode ((atomMod ms sc o).setWidth 2) = o := by cases ms <;> cases sc <;> cases o <;> rfl
  rw [ho, atomMod_sc, atomMod_ms]

/-- MOD[11:8] of `RED`, whose order is release or relaxed, read back (R289). -/
theorem atomMod_rel_read (k : Bool → Bool → Bool → α) (ms sc rel : Bool) :
    some (k ((atomMod ms sc (if rel then .rel else .relaxed)).getLsbD 1)
      ((atomMod ms sc (if rel then .rel else .relaxed)).getLsbD 2) ((atomMod ms sc (if rel then .rel else .relaxed)).getLsbD 3)) =
      some (k rel sc ms) := by
  have hr : (atomMod ms sc (if rel then .rel else .relaxed)).getLsbD 1 = rel := by cases ms <;> cases sc <;> cases rel <;> rfl
  rw [hr, atomMod_sc, atomMod_ms]

end

/-- The variant of a conversion without a slot: whether it saturates, and its rounding mode (R183). -/
def cvtVar (sat : Bool) (rm : Rm) : BitVec 4 := bit1 false ++ bit1 sat ++ rm.code.setWidth 2

/-- A conversion without a slot is read back by its variant and by whether its type is packed. -/
theorem readFloat_cvt {f : Fields} {t : Ty} {sat : Bool} {rm : Rm} (hv : f.var = cvtVar sat rm) :
    readFloat f 0x62 t = if t.packed then some (.cvtPacked f.rg t rm sat f.rd f.ra f.rs)
      else (Ty.ofCode f.m).map fun sty => .cvt f.rg t sty rm sat f.rd f.ra := by
  have hslot : f.var.getLsbD 3 = false := by rw [hv]; cases sat <;> cases rm <;> rfl
  have hsat : f.var.getLsbD 2 = sat := by rw [hv]; cases sat <;> cases rm <;> rfl
  have hrm : Rm.ofCode (f.var &&& 3) = some rm := by rw [hv]; cases sat <;> cases rm <;> rfl
  simp only [readFloat, hslot, hsat, hrm]
  cases t.packed <;> rfl

-- Words and fields

/-- The word of some fields has these fields. -/
theorem fields_word (f : Fields) : IWord.fields f.word = f := by
  unfold Fields.word IWord.fields
  simp (disch := decide) only [getLsbD_eq_extractLsb' (n := 96), BitVec.extractLsb'_append_eq_of_le,
    BitVec.extractLsb'_append_eq_of_add_le, BitVec.extractLsb'_eq_self, Nat.reduceSub, getLsbD_bit1]

/-- The fields of a word make it up again: no bit lies outside them. -/
theorem word_fields (w : IWord) : (IWord.fields w).word = w := by
  have hbit (i : Nat) : bit1 (w.getLsbD i) = w.extractLsb' i 1 := by
    ext j hj
    obtain rfl : j = 0 := by omega
    simp [bit1]
  unfold Fields.word IWord.fields
  simp only [hbit]
  iterate 16 rw [BitVec.extractLsb'_append_extractLsb'_eq_extractLsb' (by decide)]
  exact BitVec.extractLsb'_eq_self

-- Forms read back

theorem op_withS (f : Fields) (b : Src) : (f.withS b).op = f.op := by cases b <;> rfl

section
variable {e : Engine} {i : Instr} {f : Fields} (h : i.fields = some f)
include h

/-- The OP of an instruction's form is the instruction's. -/
theorem op_of_fields : f.op = i.op := by
  cases i
  all_goals cases h
  case shflPick | shflFwd | shflBack | shflFlip | shflRot | bmaskSpan | mov | add | sub | mul | mad | madWide | mulhi | div |
      rem | and | or | xor | shfShl | shfShr | shfRotl | shfRotr | cmp | sel | min | max | bfe | bfi | lea | fadd | fsub |
      fmul | ffma | fmin | fmax | fcmp | fsgnCopy | fsgnXor | fdiv | cvtPacked | bulk | xbump | xbumpRing =>
    exact op_withS _ _
  all_goals rfl

/-- The form of a well-formed instruction is read as that instruction. The cases are grouped by what has to be read back: fields
as a whole, an operand that may be immediate, a number that does not fill its field, a scope, a type, a code in the variant. -/
theorem readForm_of_fields (hw : i.wf e = true) : readForm f = some i := by
  have hentry : i.entryOk e = true := (Bool.and_eq_true_iff.mp hw).2
  cases i
  all_goals cases h
  -- neither type nor scope
  case nop | isync | bra | brx | call | callx | ret | reconvImm | reconvReg | exit | bmaskSelf | bmaskPre | bmaskPost |
      bmaskSeg | bmaskGrp | shrink | sets | cpy | cpseal | outst | xfer | xfer2d | xslide | barGang | cload | mlda | mldb |
      mldbLong | mgath | mconv | launch | cancel | gsigArr | gsigAnn | gsigSeal | sret | hret | mfs | mtsGhold | tlbinvAll |
      tlbinvAsid | tlbinvPage | tlbinvVmid | fresume | fkillTok | fkillGang | tokwait | ctxsave | ctxload | walkres |
      walkresSkip | tmove | treplAdd | frcp | frsq | fexp2 | flog2 | fsin | fcos => rfl
  case gets _ wide _ _ => cases wide <;> rfl
  case mts _ num _ =>
    have hnum : num ≠ gholdNumber := by simpa using (Bool.and_eq_true_iff.mp hentry).2
    exact if_neg hnum
  case shflPick | shflFwd | shflBack | shflFlip | shflRot | bmaskSpan | bulk | xbump | xbumpRing => cases ‹Src› <;> rfl
  case fork g d m c gangs => exact forkImm_read (fun m c gangs => Instr.fork g d m c gangs) gangs m c
  case grow _ d _ | growTry _ d _ | voteEq _ _ d _ | mzero _ d | mma _ d | maccl _ d _ _ _ | mdrainF32 _ _ d _ _ _ _ |
      mdrainI32 _ _ d _ _ _ _ =>
    conv_rhs => rw [← narrow 8 d]
    rfl
  case voteBallot _ _ _ a | voteCnt _ _ _ a | cbind _ _ a _ _ | cdeleg _ a _ | cstateHome _ _ a | cstateRole _ _ a |
      cclose _ a =>
    conv_rhs => rw [← narrow 8 a]
    rfl
  case voteAny _ _ d a | voteAll _ _ d a | plogNot _ d a =>
    conv_rhs => rw [← narrow 8 d, ← narrow 8 a]
    rfl
  case plogAnd _ d a b | plogOr _ d a b | plogXor _ d a b | plogAndn _ d a b | plogOrn _ d a b =>
    conv_rhs => rw [← narrow 8 d, ← narrow 8 a, ← narrow 8 b]
    rfl
  case plogSet _ d v =>
    conv_rhs => rw [← narrow 8 d, ← getLsbD_imm_bit1 v]
    rfl
  case rdv _ n | cpwait _ n | barBlk _ n | barBlkArv _ n | barEns _ n | barEnsArv _ n | barCoop _ n | treplDrop _ _ _ n |
      stage _ n | xgate _ n | sys _ n | hcall _ n =>
    conv_rhs => rw [← narrow 32 n]
    rfl
  -- a scope
  case pref | cflush | cflushInv | cinv | arrive | arriveAnn | await | fence => exact bind_of_eq (Scope.ofCode_code _) rfl
  case fencex _ _ n =>
    conv_rhs => rw [← narrow 32 n]
    exact bind_of_eq (Scope.ofCode_code _) rfl
  case crecv _ _ _ r | ctry _ _ _ r =>
    conv_rhs => rw [← narrow 8 r]
    exact bind_of_eq (Scope.ofCode_code _) rfl
  case csend _ _ r _ kind =>
    conv_rhs => rw [← narrow 8 r, ← narrow 32 kind]
    exact bind_of_eq (Scope.ofCode_code _) rfl
  -- a type
  case bitcPopc | bitcClz | bitcCtz | bitcBrev | fsgnNeg | fsgnAbs | fclass | cvtn | cvtw =>
    exact bind_of_eq (Ty.ofCode_code _) rfl
  case mov | mad | madWide | mulhi | div | rem | and | or | xor | shfShl | shfShr | shfRotl | shfRotr | min | max | bfe | bfi |
      lea | fmin | fmax | fsgnCopy | fsgnXor =>
    cases ‹Src› <;> exact bind_of_eq (Ty.ofCode_code _) rfl
  case sel _ _ _ _ b c =>
    conv_rhs => rw [← narrow 8 c]
    cases b <;> exact bind_of_eq (Ty.ofCode_code _) rfl
  case add _ _ sat _ _ b | sub _ _ sat _ _ b | mul _ _ sat _ _ b =>
    cases b <;> cases sat <;> exact bind_of_eq (Ty.ofCode_code _) rfl
  case abs _ _ sat _ _ => cases sat <;> exact bind_of_eq (Ty.ofCode_code _) rfl
  -- a type, and a code in the variant
  case redux => exact bind_of_eq (Ty.ofCode_code _) (map_of_eq (RedOp.ofCode_code _) rfl)
  case fsqrt | frnd => exact bind_of_eq (Ty.ofCode_code _) (map_of_eq (Rm.ofCode_code _) rfl)
  case fadd | fsub | fmul | ffma | fdiv =>
    cases ‹Src› <;> exact bind_of_eq (Ty.ofCode_code _) (map_of_eq (Rm.ofCode_code _) rfl)
  case cmp _ _ _ d _ b =>
    conv_rhs => rw [← narrow 8 d]
    cases b <;> exact bind_of_eq (Ty.ofCode_code _) (map_of_eq (Rel.ofCode_code _) rfl)
  case fcmp _ _ _ d _ b =>
    conv_rhs => rw [← narrow 8 d]
    cases b <;> exact bind_of_eq (Ty.ofCode_code _) (map_of_eq (FRel.ofCode_code _) rfl)
  -- conversions
  case cvtSlot =>
    have hslot : (8#4).getLsbD 3 = true := by decide
    exact bind_of_eq (Ty.ofCode_code _) ((if_pos hslot).trans (map_of_eq (Ty.ofCode_code _) rfl))
  case cvtPacked _ _ rm sat _ _ b =>
    cases b
    all_goals
      refine bind_of_eq (Ty.ofCode_code _) ?_
      exact Eq.trans (readFloat_cvt (sat := sat) (rm := rm) rfl) (if_pos hentry)
  case cvt _ t _ rm sat _ _ =>
    have hpacked : ¬t.packed = true := by simpa using (Bool.and_eq_true_iff.mp hentry).1
    refine bind_of_eq (Ty.ofCode_code _) ?_
    exact Eq.trans (readFloat_cvt (sat := sat) (rm := rm) rfl) ((if_neg hpacked).trans (map_of_eq (Ty.ofCode_code _) rfl))
  -- a type and a scope
  case ld | st =>
    exact bind_of_eq (Ty.ofCode_code _) (bind_of_eq (Scope.ofCode_code _)
      (bind_of_eq (Count.ofCode_code _) (map_of_eq (Policy.ofCode_code _) rfl)))
  case ldk =>
    exact bind_of_eq (Ty.ofCode_code _) (bind_of_eq (Scope.ofCode_code _) (map_of_eq (Count.ofCode_code _) rfl))
  case waita =>
    exact bind_of_eq (Ty.ofCode_code _) (bind_of_eq (Scope.ofCode_code _) (map_of_eq (WCond.ofCode_code _) rfl))
  case atom g op t ord sc ms scope d a b off =>
    refine bind_of_eq (Ty.ofCode_code _) (bind_of_eq (Scope.ofCode_code _) ((if_neg op.code_ne_seven).trans
      (map_of_eq (AtomOp.ofCode_code _) ?_)))
    exact atomMod_read (fun ord sc ms => Instr.atom g op t ord sc ms scope d a b off) ms sc ord
  case atomCas g t ord sc ms scope d a b c off =>
    refine bind_of_eq (Ty.ofCode_code _) (bind_of_eq (Scope.ofCode_code _) ?_)
    exact atomMod_read (fun ord sc ms => Instr.atomCas g t ord sc ms scope d a b c off) ms sc ord
  case red g op t rel sc ms scope a b off =>
    refine bind_of_eq (Ty.ofCode_code _) (bind_of_eq (Scope.ofCode_code _) (map_of_eq (AtomOp.ofCode_code _) ?_))
    exact atomMod_rel_read (fun rel sc ms => Instr.red g op t rel sc ms scope a b off) ms sc rel

end

theorem decodeFields_eq_ok_iff {e : Engine} {f : Fields} {i : Instr} :
    decodeFields e f = .ok i ↔ i.wf e = true ∧ i.fields = some f := by
  constructor
  · intro h
    simp only [decodeFields] at h
    split at h
    · cases h
    split at h
    · cases h
    split at h
    · cases h
    split at h
    · cases h
    next hf =>
    split at h
    · next hwf =>
      cases h
      exact ⟨hwf, not_not.mp hf⟩
    · cases h
  · rintro ⟨hwf, hf⟩
    have hes : (opEngines f.op.toNat).contains e = true := by
      simp only [Instr.wf, Bool.and_eq_true] at hwf
      rw [op_of_fields hf]
      exact hwf.1.1.1
    simp only [decodeFields, readForm_of_fields hf hwf, hf, hwf, ne_eq, not_true_eq_false, if_false, if_true]
    split
    · next hnil => simp [hnil] at hes
    · simpa using hes

/-- Settles O56: a word and its fields make up each other, and a well-formed form is read as its instruction. -/
theorem decodingInvertsEncoding : Obligations.DecodingInvertsEncoding := by
  unfold Obligations.DecodingInvertsEncoding
  intro e w i
  rw [decode, decodeFields_eq_ok_iff, encode, Option.map_eq_some_iff]
  refine and_congr_right fun _ => ⟨fun hf => ⟨_, hf, word_fields w⟩, ?_⟩
  rintro ⟨f, hf, rfl⟩
  rw [fields_word, hf]

end Sys2Proof
end

section
/-! O60: the words written out in the spec. -/

namespace Sys2Proof

/-- The encoding of a well-formed instruction decodes to it. -/
theorem decode_of_encode {e : Engine} {w : IWord} {i : Instr} (wf : i.wf e = true) (enc : encode i = some w) :
    decode e w = .ok i :=
  (decodingInvertsEncoding e w i).2 ⟨wf, enc⟩

/-- Settles O60: each word is the encoding of a well-formed instruction, which decoding inverts; the last has an opcode that
sequencers of matrix lines do not have. -/
theorem workedWordsDecode : Obligations.WorkedWordsDecode := by
  dsimp only [Obligations.WorkedWordsDecode]
  and_intros
  on_goal 19 => rfl
  all_goals exact decode_of_encode rfl rfl

end Sys2Proof
end

section
/-! O15: `NOP` and `ISYNC`. -/

namespace Sys2Proof.Machine

variable {i : Instr} {s : State} {k b : Nat} {G : Gang} {m act : Mask} {pc : DWord} {B : Block}

/-- The body of an instruction that a sequencer executes is what it does. -/
theorem runSeq_executes {mx : Bool} (h : SeqExecutes i mx s b B) (body : State → Nat → State) :
    runSeq i (seqEngine mx) mx s b B body = body s b := by
  simp only [runSeq, h.wf, h.guard, Bool.not_true, Bool.false_eq_true, if_false]

/-- Where a sequencer executes an instruction that groups have too, the next state is what its body for sequencers makes. -/
theorem anyOp_seqExecutes {mx : Bool} (h : SeqExecutes i mx s b B) (body : ThreadBody) (seq : Bool → State → Nat → State) :
    anyOp i s body seq = .next (seq mx s b) := by
  have hrun := runSeq_executes h (seq mx)
  cases mx <;> simp only [anyOp, h.cur, h.block] <;> exact congrArg _ hrun

/-- What an instruction does whose active lanes only go on, with a change of the gang that leaves its waits. -/
theorem after_advance (h : Executes i s k G m act pc) (t : State) {H : Gang} (hw : H.waits = G.waits) :
    (t.setGang k H).after k act (m &&& ~~~act) (·.advance k (m &&& ~~~act)) = t.setGang k (H.advance (m &&& ~~~act)) := by
  rw [after_setGang h t hw, advance_setGang]

/-- Whether a line is buffered is nothing that going on looks at. -/
theorem advance_line (G : Gang) (m : Mask) (l : Option Line) :
    ({ G with line := l } : Gang).advance m = { G.advance m with line := l } := by
  unfold Gang.advance
  change List.foldl _ { G.settled m with line := l } _ = _
  generalize G.settled m = G
  induction lanesOf m generalizing G with
  | nil => rfl
  | cons j ls ih => exact ih (G.putLane j (onward (G.lane j)))

/-- Settles O15: a step's body puts the gang, or the sequencer, gone on; `ISYNC` empties the cache and the line buffer first. -/
theorem nopAndIsyncGoOn : Obligations.NopAndIsyncGoOn := by
  unfold Obligations.NopAndIsyncGoOn
  refine ⟨fun g s k G m pc h => ⟨_, ?_, h.moved_advance⟩,
    fun g mx s b B h => ⟨_, ?_, seqWrote_advance (B.seq mx)⟩, fun g s k G m act pc h hf => ⟨_, ?_, h.moved_advance⟩⟩
  · change execNop g s = _
    rw [execNop, anyOp_executes h, State.advance, onGang_of_find h.gang, after_advance h s (waits_advance G m)]
  · change execNop g s = _
    rw [execNop, anyOp_seqExecutes h, onSeq_of_find h.block]
  · have hfind : (s.setCore (coreOf k) { s.core (coreOf k) with icache := [] }).gangs.find? k = some G := by
      rw [State.setCore_gangs, h.gang]
    change execIsync g s = _
    rw [execIsync, threadOp_executes h]
    simp only [h.gang, Option.map_some, Option.getD_some, hf, Bool.false_eq_true, if_false, onGang_of_find hfind]
    rw [after_advance h _ (H := { G.advance act with line := none }) (waits_advance G act), advance_line]

end Sys2Proof.Machine
end

section
/-! O55: the checks of Table 7.9 do not hold of `NOP`, which does not read its guard (R131, R137). -/

namespace Sys2Proof.Machine

/-- A gang of one running lane at address 0, whose predicate 1 is poisoned. -/
def poisonedPred : Gang := { block := 0, number := 0, alloc := 32, lanes := [{ pp := 2 }] }

/-- The state in which that lane executes. -/
def poisonedState : State := { gangs := [(0, poisonedPred)], cur := some ⟨.thread, 0, 0, 1, 0⟩ }

/-- A `NOP` with the guard `p1`. -/
def nopP1 : Instr := .nop ⟨false, 1⟩

/-- Lane 0 of gang 0 after a step, if the gang is there. -/
def laneAfter : Host.Outcome State Fault Refusal → Lane
  | .next s => s.lane 0 0
  | .fault _ | .refused _ => {}

theorem nopP1_goes_on : (laneAfter (exec nopP1 poisonedState)).pc = 12 := by decide +kernel

theorem trapAll_poisonedState : (laneAfter (.next ((poisonedState.trapAll 0 1 0x07 0 0).advance 0 0))).pc = 0 := by
  decide +kernel

/-- Refutes O55: `NOP` with a poisoned guard passes the checks before that of the guard, and goes on where the last clause has it
trap with cause 0x07. -/
theorem not_checksOfTable79 : ¬ Obligations.ChecksOfTable79 := by
  unfold Obligations.ChecksOfTable79
  intro h
  obtain ⟨-, hwf⟩ := h nopP1 poisonedState 0 poisonedPred 1 0 .user rfl (by decide) rfl rfl (by decide) (by decide)
  obtain ⟨-, hmode⟩ := hwf (by decide)
  obtain ⟨-, hguard⟩ := hmode (by decide)
  have htrap := congrArg (fun o => (laneAfter o).pc) (hguard (by decide) 1 (by decide))
  rw [nopP1_goes_on] at htrap
  exact absurd (htrap.trans trapAll_poisonedState) (by decide)

end Sys2Proof.Machine
end

section
/-! O16: transfers of control (R123, R152, R153). Fetching the lines of the targets leaves a gang but for the lines that it had
fetched again, and each active lane is turned to its target. -/

namespace Sys2Proof.Machine

variable {s t s₁ : State} {k : Nat} {G H : Gang} {m act : Mask} {pc : DWord} {i : Instr}

-- What fetching leaves of a gang

/-- A gang differs from another in nothing but the lines that it had fetched again. -/
def Gang.Refetches (G H : Gang) : Prop := H = { G with refetched := H.refetched }

theorem Gang.Refetches.refl (G : Gang) : G.Refetches G := rfl

theorem Gang.Refetches.trans {G H K : Gang} (h : G.Refetches H) (h' : H.Refetches K) : G.Refetches K := by
  unfold Gang.Refetches at *
  rw [h', h]

theorem Gang.Refetches.lane (h : G.Refetches H) (l : Nat) : H.lane l = G.lane l := by rw [h]; rfl
theorem Gang.Refetches.length (h : G.Refetches H) : H.lanes.length = G.lanes.length := by rw [h]
theorem Gang.Refetches.waits (h : G.Refetches H) : H.waits = G.waits := by rw [h]
theorem Gang.Refetches.frame (h : G.Refetches H) : H.frame = G.frame := by rw [h]; rfl

/-- Forgetting that a line was fetched again leaves each gang there, but for that. -/
theorem forgetLine_refetches (r : Requester) (tag : Nat) (hG : s.gangs.find? k = some G) :
    ∃ H, (s.forgetLine r tag).gangs.find? k = some H ∧ G.Refetches H := by
  unfold State.forgetLine
  split
  case h_1 j n =>
    by_cases hj : j = k
    · subst hj
      simp only [hG, SMap.find?_put_self]
      exact ⟨_, rfl, rfl⟩
    · split
      · exact ⟨G, by rw [SMap.find?_put_of_ne _ _ (Ne.symm hj), hG], .refl G⟩
      · exact ⟨G, hG, .refl G⟩
  case h_2 b mx => exact ⟨G, by simp only [State.onSeq, State.onBlock]; split <;> exact hG, .refl G⟩

theorem checkLine_refetches {a : Asker} {e : Engine} {l l' : Line} (h : s.checkLine a e pc l = (t, .ok l'))
    (hG : s.gangs.find? k = some G) : ∃ H, t.gangs.find? k = some H ∧ G.Refetches H := by
  unfold State.checkLine at h
  split at h
  · cases h
  split at h
  · split at h <;> cases h
  dsimp only at h
  split at h
  · cases h
  split at h
  · cases h
  obtain ⟨rfl, -⟩ := Prod.mk.inj h
  split
  · exact forgetLine_refetches a.req l.tag hG
  · exact ⟨G, hG, .refl G⟩

theorem roster_icacheLine (s : State) (c tag : Nat) (ms : Bool) : (s.icacheLine c tag ms).1.roster = s.roster := by
  have hline : (s.lineAt tag ms).1.roster = s.roster := by
    cases ms
    · exact roster_homeRead _ _ _
    · rfl
  dsimp only [State.icacheLine]
  cases (s.core c).icache.find? (·.tag == tag)
  · exact hline
  · rfl

theorem gangs_of_roster (h : t.roster = s.roster) : t.gangs = s.gangs := congrArg Prod.fst h

/-- A fetch that gives a line leaves each gang there, but for the lines that it had fetched again. -/
theorem fetchLine_refetches {a : Asker} {e : Engine} {buf : Option Line} {l : Line}
    (h : s.fetchLine a e buf pc = (t, .ok l)) (hG : s.gangs.find? k = some G) :
    ∃ H, t.gangs.find? k = some H ∧ G.Refetches H := by
  have hlook := gangs_of_roster (roster_lookup s a .exec pc.toNat)
  unfold State.fetchLine at h
  split at h
  · cases h
  split at h
  · cases h
  · cases h
  next s' T hT =>
    rw [hT] at hlook
    dsimp only at h hlook
    split at h
    · exact checkLine_refetches h (by rw [hlook, hG])
    · exact checkLine_refetches h (by rw [gangs_of_roster (roster_icacheLine ..), hlook, hG])

theorem checkTarget_refetches {a : Asker} {e : Engine} {buf : Option Line} {tgt : DWord} {call : Bool}
    (h : s.checkTarget a e buf tgt call = (t, .ok none)) (hG : s.gangs.find? k = some G) :
    ∃ H, t.gangs.find? k = some H ∧ G.Refetches H := by
  unfold State.checkTarget at h
  split at h
  · cases h
  · cases h
  · cases h
  next hf =>
    obtain ⟨rfl, -⟩ := Prod.mk.inj h
    exact fetchLine_refetches hf hG

/-- Where no lane's target has to be waited for or gives a fault, the checks leave each gang there, but for the lines that it had
fetched again. -/
theorem checkTargets_refetches {K : Gang} {call : Bool} {ts : List (Nat × DWord)} {rs : List (Nat × DWord × Option LaneFault)}
    (h : s.checkTargets k K call ts = (t, rs, none)) (hr : ∀ r ∈ rs, r.2.2 = none) (hG : s.gangs.find? k = some G) :
    rs = ts.map (fun x => (x.1, x.2, none)) ∧ ∃ H, t.gangs.find? k = some H ∧ G.Refetches H := by
  induction ts generalizing s G rs with
  | nil =>
    obtain ⟨rfl, rfl, -⟩ := h
    exact ⟨rfl, G, hG, .refl G⟩
  | cons x ts ih =>
    obtain ⟨l, tgt⟩ := x
    unfold State.checkTargets at h
    rcases hc : s.checkTarget (s.asker k K (laneBit l) (K.lane l).mode) .thread K.line tgt call with ⟨u, f | f⟩
    · simp [hc] at h
    · rcases hcs : u.checkTargets k K call ts with ⟨v, rs', w⟩
      simp only [hc, hcs, Prod.mk.injEq] at h
      obtain ⟨rfl, rfl, rfl⟩ := h
      obtain rfl : f = none := hr _ (List.mem_cons_self ..)
      obtain ⟨H, hH, hGH⟩ := checkTarget_refetches hc hG
      obtain ⟨rfl, H', hH', hHH'⟩ := ih hcs (fun r h => hr r (List.mem_cons_of_mem _ h)) hH
      exact ⟨rfl, H', hH', hGH.trans hHH'⟩

-- Lanes turned one by one

/-- A gang after one lane has been changed, with what walks and other devices had told it dropped. -/
def Gang.turn (f : Nat → Lane → Lane) (G : Gang) (l : Nat) : Gang := (G.settled (laneBit l)).putLane l (f l (G.lane l))

/-- A gang after each lane of a list has been changed. -/
def Gang.turns (f : Nat → Lane → Lane) (G : Gang) (ls : List Nat) : Gang := ls.foldl (Gang.turn f) G

theorem frame_turns (f : Nat → Lane → Lane) (G : Gang) (ls : List Nat) : (G.turns f ls).frame = G.frame := by
  induction ls generalizing G with
  | nil => rfl
  | cons l ls ih => exact ih (G.turn f l)

theorem waits_turns (f : Nat → Lane → Lane) (G : Gang) (ls : List Nat) : (G.turns f ls).waits = G.waits :=
  (congrArg Gang.waits (frame_turns f G ls) : (G.turns f ls).frame.waits = G.frame.waits)

theorem length_turns (f : Nat → Lane → Lane) (G : Gang) (ls : List Nat) : (G.turns f ls).lanes.length = G.lanes.length := by
  induction ls generalizing G with
  | nil => rfl
  | cons l ls ih => exact (ih (G.turn f l)).trans (length_putLane ..)

theorem lane_turns (f : Nat → Lane → Lane) {ls : List Nat} (hn : ls.Nodup) (hlen : ∀ l ∈ ls, l < G.lanes.length) (j : Nat) :
    (G.turns f ls).lane j = if j ∈ ls then f j (G.lane j) else G.lane j := by
  induction ls generalizing G with
  | nil => rfl
  | cons l ls ih =>
    obtain ⟨hnot, hn⟩ := List.nodup_cons.mp hn
    have hl := lane_putLane (G.settled (laneBit l)) l j (f l (G.lane l))
    have hlt : l < G.lanes.length := hlen l (by simp)
    have hrest := ih (G := G.turn f l) hn fun x hx => by
      rw [Gang.turn, length_putLane]; exact hlen x (by simp [hx])
    rw [Gang.turns, List.foldl_cons, ← Gang.turns, hrest, Gang.turn, hl]
    by_cases h : j = l
    · subst h
      simp [hnot, hlt, Gang.settled]
    · simp [h, Gang.settled, Gang.lane]

/-- What a group has become whose active lanes were turned and whose other lanes have gone on. -/
theorem Executes.moved_turns (h : Executes i s k G m act pc) (f : Nat → Lane → Lane) (hGH : G.Refetches H) :
    Moved G ((H.turns f (lanesOf act)).advance (m &&& ~~~act)) m act f := by
  have hlt (l : Nat) (hl : l ∈ lanesOf m) : l < H.lanes.length := hGH.length ▸ h.lt hl
  refine ⟨fun l => ?_, with_of_frame ((frame_advance _ _).trans ((frame_turns ..).trans hGH.frame))⟩
  simp only [lane_advance, length_turns, not_mem_lanesOf_rest,
    lane_turns f (lanesOf_nodup act) (fun l hl => hlt l (h.sub hl)), hGH.lane]
  by_cases ha : l ∈ lanesOf act
  · simp [ha]
  · by_cases hm : l ∈ lanesOf m
    · simp [ha, hm, hlt l hm, onward]
    · simp [ha, hm]

/-- Where each step of a fold turns its lane of the gang as it then stands, the fold turns them all. -/
theorem foldl_turn {f : Nat → Lane → Lane} {step : State → Nat → State} {ls : List Nat} {P : Gang → Prop}
    (hP : ∀ H l, P H → P (H.turn f l))
    (hstep : ∀ t l H, l ∈ ls → P H → t.gangs.find? k = some H → step t l = t.setGang k (H.turn f l))
    (hH : P H) (hfind : s.gangs.find? k = some H) :
    (ls.foldl step s).gangs.find? k = some (H.turns f ls) ∧ ∀ X, (ls.foldl step s).setGang k X = s.setGang k X := by
  induction ls generalizing s H with
  | nil => exact ⟨hfind, fun _ => rfl⟩
  | cons l ls ih =>
    have hl := hstep s l H (by simp) hH hfind
    obtain ⟨h1, h2⟩ := ih (s := step s l) (H := H.turn f l) (fun t j H hj => hstep t j H (by simp [hj])) (hP H l hH)
      (by rw [hl, setGang_find])
    exact ⟨h1, fun X => (h2 X).trans (by rw [hl, setGang_setGang])⟩

theorem Moved.congr {f f' : Nat → Lane → Lane} (h : Moved G H m act f)
    (hf : ∀ l ∈ lanesOf act, f l (G.lane l) = f' l (G.lane l)) :
    Moved G H m act f' := by
  refine ⟨fun l => (h.lanes l).trans ?_, h.gang⟩
  by_cases ha : l ∈ lanesOf act
  · rw [if_pos ha, if_pos ha, hf l ha]
  · rw [if_neg ha, if_neg ha]

/-- The registers of a lane after another, or it itself, has been turned by something that leaves registers alone. -/
theorem view_turn {f : Nat → Lane → Lane}
    (hf : ∀ l L, (f l L).x = L.x ∧ (f l L).xp = L.xp ∧ (f l L).p = L.p ∧ (f l L).pp = L.pp)
    (G : Gang) (l j : Nat) : (G.turn f l).view j = G.view j := by
  obtain ⟨hx, hxp, hp, hpp⟩ := hf l (G.lane l)
  simp only [Gang.view, Gang.turn, lane_putLane]
  split
  next h =>
    obtain ⟨rfl, -⟩ := h
    simp only [hx, hxp, hp, hpp]
    rfl
  · rfl

-- The instructions

/-- A lane sent to an address. -/
def Lane.sent (L : Lane) (a : DWord) : Lane := { L with pc := a, checkTarget := false, checkEntry := false }

/-- A lane with the successor of its address in the pair of a call, if there is one. -/
def Lane.linked (L : Lane) : Option (BitVec 8) → Lane
  | some d => (L.putX d.toNat ((succ L.pc).setWidth 32) false).putX (d.toNat + 1) ((succ L.pc).extractLsb' 32 32) false
  | none => L

/-- A jump is a turn. -/
theorem jump_eq_turn (G : Gang) (l : Nat) (a : DWord) : G.jump l a = G.turn (fun _ L => L.sent a) l := rfl

/-- A jump of a lane that has been changed is a turn. -/
theorem jump_putLane {l : Nat} (hl : l < G.lanes.length) (L : Lane) (a : DWord) :
    (G.putLane l L).jump l a = G.turn (fun _ _ => L.sent a) l := by
  have hlane : ((G.putLane l L).settled (laneBit l)).lane l = L := lane_putLane_self _ hl
  rw [jump_eq_turn, Gang.turn, Gang.turn, lane_putLane_self _ hl]
  simp [Gang.putLane, Gang.settled]

/-- What `transfer` does for one lane once its target has been checked. -/
def State.transferLane (k : Nat) (link : Option (BitVec 8)) (s : State) (r : Nat × DWord × Option LaneFault) : State :=
  match r.2.2 with
  | some f => s.trap k r.1 f.cause f.v (s.lane k r.1).pc f.host f.migrating
  | none =>
    s.onGang k fun G =>
      (match link with
        | some d => G.putLane r.1 ((G.lane r.1).linked (some d))
        | none => G).jump r.1 r.2.1

theorem transferLane_of_find (link : Option (BitVec 8)) (hG : s.gangs.find? k = some G) {l : Nat} (hl : l < G.lanes.length)
    (f : Nat → DWord) :
    s.transferLane k link (l, f l, none) = s.setGang k (G.turn (fun l L => (L.linked link).sent (f l)) l) := by
  rw [State.transferLane, onGang_of_find hG]
  cases link with
  | none => rw [jump_eq_turn]; rfl
  | some d => rw [jump_putLane hl]; rfl

/-- A transfer whose targets are clean, have not to be waited for and give no fault turns each active lane in turn. -/
theorem transfer_of_checks {target : Gang → Nat → DWord × Bool} {link : Option (BitVec 8)} (hG : s.gangs.find? k = some G)
    (hclean : ∀ l ∈ lanesOf act, (target G l).2 = false) {rs : List (Nat × DWord × Option LaneFault)}
    (hchk : s.checkTargets k G link.isSome ((lanesOf act).map fun l => (l, (target G l).1)) = (s₁, rs, none)) :
    transfer target link s k act = rs.foldl (State.transferLane k link) s₁ := by
  have hbad : (lanesOf act).filter (fun l => (target G l).2) = [] := by
    rw [List.filter_eq_nil_iff]
    intro l hl
    simp [hclean l hl]
  have hgood : (lanesOf act).filter (fun l => !(target G l).2) = lanesOf act := by
    rw [List.filter_eq_self]
    intro l hl
    simp [hclean l hl]
  have hnil : maskOf [] = 0 := rfl
  simp only [transfer, hG, hbad, hgood, hchk, hnil, trapAll_zero]
  congr 1

/-- What a transfer does whose targets are clean, have not to be waited for and give no fault. -/
theorem transfer_executes (h : Executes i s k G m act pc) {target : Gang → Nat → DWord × Bool} (link : Option (BitVec 8))
    (hclean : ∀ l ∈ lanesOf act, (target G l).2 = false) {rs : List (Nat × DWord × Option LaneFault)}
    (hchk : s.checkTargets k G link.isSome ((lanesOf act).map fun l => (l, (target G l).1)) = (s₁, rs, none))
    (hr : ∀ r ∈ rs, r.2.2 = none) :
    ∃ H, (transfer target link s k act).after k act (m &&& ~~~act) (·.advance k (m &&& ~~~act)) = s₁.setGang k H ∧
      Moved G H m act fun l L => (L.linked link).sent (target G l).1 := by
  rw [transfer_of_checks h.gang hclean hchk]
  obtain ⟨rfl, K, hK, hGK⟩ := checkTargets_refetches hchk hr h.gang
  have hlen (l : Nat) (hl : l ∈ lanesOf act) : l < K.lanes.length := hGK.length ▸ h.lt (h.sub hl)
  obtain ⟨hfind, hset⟩ := foldl_turn (f := fun l L => (L.linked link).sent (target G l).1)
    (step := fun s l => s.transferLane k link (l, (target G l).1, none)) (P := fun H => H.lanes.length = K.lanes.length)
    (fun H l hH => by rw [Gang.turn, length_putLane]; exact hH)
    (fun t l H hl hH hf => transferLane_of_find link hf (hH ▸ hlen l hl) fun l => (target G l).1) rfl hK
  refine ⟨_, ?_, h.moved_turns _ hGK⟩
  rw [List.map_map, List.foldl_map]
  exact (after_of_waits h hfind ((waits_turns ..).trans hGK.waits) _ _).trans (by rw [State.advance, onGang_of_find hfind, hset])

/-- An instruction of groups that is a transfer sends each active lane to its target, linked if it is a call. -/
theorem goes_of_transfer {call : Bool} {d : BitVec 8} {target : Gang → Nat → DWord × Bool} (h : Executes i s k G m act pc)
    (hexec : exec i s = .next ((transfer target (if call then some d else none) s k act).after k act (m &&& ~~~act)
      (·.advance k (m &&& ~~~act))))
    (hclean : ∀ l ∈ lanesOf act, (target G l).2 = false) {rs : List (Nat × DWord × Option LaneFault)}
    (hchk : s.checkTargets k G call ((lanesOf act).map fun l => (l, (target G l).1)) = (s₁, rs, none))
    (hr : ∀ r ∈ rs, r.2.2 = none) :
    ∃ H, exec i s = .next (s₁.setGang k H) ∧ Moved G H m act fun l L =>
      ((if call then (L.putX d.toNat ((succ pc).setWidth 32) false).putX (d.toNat + 1) ((succ pc).extractLsb' 32 32) false
        else L) : Lane).sent (target G l).1 := by
  have hsome : (if call then some d else none).isSome = call := by cases call <;> rfl
  obtain ⟨H, hH, hm⟩ := transfer_executes h (if call then some d else none) hclean (by rw [hsome]; exact hchk) hr
  refine ⟨H, hexec.trans (congrArg _ hH), hm.congr fun l hl => ?_⟩
  cases call with
  | false => rfl
  | true => simp only [Lane.linked, h.here l (h.sub hl), if_true]

/-- `RET` of one lane. -/
def State.returnLane (k : Nat) (a : Reg) (s : State) (l : Nat) : State :=
  match s.gangs.find? k with
  | none => s
  | some G =>
    match (G.view l).pair a with
    | (_, true) => s.trap k l 0x07 0 (G.lane l).pc
    | (t, false) => s.setGang k (G.jump l t)

theorem returnLane_of_find (hH : s.gangs.find? k = some H) {a : Reg} {l : Nat}
    (hp : (H.view l).pair a = (((G.view l).pair a).1, false)) :
    s.returnLane k a l = s.setGang k (H.turn (fun l L => L.sent ((G.view l).pair a).1) l) := by
  simp only [State.returnLane, hH, hp]
  rfl

/-- What `RET` does where no active lane's pair is poisoned. -/
theorem ret_moves (g : Guard) (a : Reg) :
    Moves (.ret g a) (fun G l => ((G.view l).pair a).2 = false) fun _ G l L => L.sent ((G.view l).pair a).1 := by
  intro s k G m act pc h hclean
  obtain ⟨hfind, hset⟩ := foldl_turn (ls := lanesOf act) (f := fun l L => L.sent ((G.view l).pair a).1)
    (step := State.returnLane k a) (P := fun H => ∀ j, H.view j = G.view j) (fun H l hH j => 
      (view_turn (f := fun l L => L.sent ((G.view l).pair a).1) (fun _ _ => ⟨rfl, rfl, rfl, rfl⟩) H l j).trans (hH j))
    (fun t l H hl hH hf => returnLane_of_find hf (by rw [hH, ← hclean l hl])) (fun _ => rfl) h.gang
  refine ⟨_, ?_, h.moved_turns _ (.refl G)⟩
  change threadOp (.ret g a) s (fun s k m => (lanesOf m).foldl (State.returnLane k a) s) = _
  rw [threadOp_executes h, after_of_waits h hfind (waits_turns ..), State.advance, onGang_of_find hfind, hset]

/-- The result of the checks of a target whose line has been fetched, by its offset in the line and its TARGET bit. -/
theorem checkTarget_of_line {a : Asker} {e : Engine} {buf : Option Line} {tgt : DWord} {entry : Bool} {line : Line}
    (h : s.fetchLine a e buf tgt = (s₁, .ok line)) :
    s.checkTarget a e buf tgt entry = (s₁, .ok
      (if tgt.toNat % 64 % 12 ≠ 0 ∨ tgt.toNat % 64 = 60 ∨ (entry = true ∧ tgt.toNat % 64 ≠ 0)
      then some ⟨0x04, tgt, false, false⟩
      else if line.data.getLsbD (480 + tgt.toNat % 64 / 12) then none
      else some ⟨0x02, tgt, false, false⟩)) := by
  have hslot : slotOf tgt = if tgt.toNat % 64 % 12 ≠ 0 ∨ tgt.toNat % 64 = 60 then 5 else tgt.toNat % 64 / 12 := by
    unfold slotOf
    split <;> split <;> omega
  simp only [State.checkTarget, h, hslot]
  by_cases hoff : tgt.toNat % 64 % 12 ≠ 0 ∨ tgt.toNat % 64 = 60
  · rw [if_pos hoff, if_pos (hoff.imp_right .inl)]
    rfl
  · rw [not_or, not_not] at hoff
    have hlt : tgt.toNat % 64 / 12 < 5 := by omega
    have hne : ¬tgt.toNat % 64 / 12 = 5 := by omega
    have hzero : tgt.toNat % 64 / 12 = 0 ↔ tgt.toNat % 64 = 0 := by omega
    have hbit : line.lword.getLsbD (tgt.toNat % 64 / 12) = line.data.getLsbD (480 + tgt.toNat % 64 / 12) := by
      have h32 : tgt.toNat % 64 / 12 < 32 := by omega
      simp only [Line.lword, Line.word, BitVec.getLsbD_extractLsb', h32, decide_true, Bool.true_and]
    rw [if_neg (not_or.mpr ⟨not_not.mpr hoff.1, hoff.2⟩)]
    simp [Line.target, hslot, hoff, hlt, hne, hzero, hbit]

/-- Settles O16: `BRA`, `BRX`, `CALL` and `CALLX` are `transfer` with their targets and links, `RET` turns its lanes unchecked. -/
theorem transferResults : Obligations.TransferResults := by
  unfold Obligations.TransferResults
  refine ⟨fun g d a off => ⟨?_, ?_, ?_, ?_, ret_moves g a⟩, fun s a e buf tgt entry s₁ line h => checkTarget_of_line h⟩
  · exact fun s k G m act pc s₁ rs h _ => goes_of_transfer (call := false) (d := d) h
      (anyOp_executes h (transfer (fun G l => ((G.lane l).pc + off.signExtend 64, false)) none) (seqBranch off)) fun _ _ => rfl
  · exact fun s k G m act pc s₁ rs h _ => goes_of_transfer (call := true) h
      (threadOp_executes h (transfer (fun G l => ((G.lane l).pc + off.signExtend 64, false)) (some d))) fun _ _ => rfl
  · exact fun s k G m act pc s₁ rs h hclean => goes_of_transfer (call := false) (d := d) h
      (threadOp_executes h (transfer (fun G l => (G.view l).pair a) none)) hclean
  · exact fun s k G m act pc s₁ rs h hclean => goes_of_transfer (call := true) h
      (threadOp_executes h (transfer (fun G l => (G.view l).pair a) (some d))) hclean

end Sys2Proof.Machine
end

section
/-! O58: a step runs what it takes (R120 to R123, R132, R134, R140, R141, R143). What an issue leaves of a gang before its
instruction's own effect, and what a fetch gives. -/

namespace Sys2Proof.Machine

variable {s t u : State} {k c b : Nat} {G G' H : Gang} {g : Group} {pc : DWord} {line : Line} {i : Instr}

-- The choice of a step

/-- What a thing that the device takes leads to. -/
def State.take (u : State) : Action → State × Option Instr
  | .input => ({ u with inputs := u.inputs.tail }, u.inputs.head?)
  | .own i => (u, some i)
  | .thread c => u.issueThread c
  | .seq b m => u.issueSeq b m

theorem nextAction_of_nil (h : s.tick.actions = []) : nextAction s = (s.tick, none) := by
  rw [nextAction]
  simp only [h]

theorem nextAction_of_picks {a : Action}
    (h : s.tick.actions[Config.schedule s.tick.ctr % s.tick.actions.length]? = some a) : nextAction s = s.tick.take a := by
  rw [nextAction]
  generalize s.tick = u at h ⊢
  rcases hu : u.actions with _ | ⟨x, _ | ⟨y, xs⟩⟩
  · simp [hu] at h
  · obtain rfl : x = a := by simpa [hu, Nat.mod_one] using h
    simp only
    cases x <;> rfl
  · rw [hu] at h
    simp only [h]
    cases a <;> rfl

theorem step_of_some (h : nextAction s = (t, some i)) : step s = exec i t := by
  simp only [step, h]

theorem step_of_none (h : nextAction s = (t, none)) : step s = .next t := by
  simp only [step, h]

-- A group's fetch

/-- A lane that has passed the checks of its target. -/
def Lane.entered (L : Lane) : Lane := { L with checkTarget := false, checkEntry := false }

/-- A gang some of whose lanes have fetched an instruction from a line. -/
def Gang.fetched (G : Gang) (line : Line) (m : Mask) : Gang :=
  (lanesOf m).foldl (fun G l => G.putLane l (G.lane l).entered) { G with line := some line }

theorem fetched_eq (G : Gang) (line : Line) (m : Mask) :
    G.fetched line m = { G with line := some line, lanes := (G.fetched line m).lanes } :=
  foldl_putLane_eq Lane.entered (lanesOf m) { G with line := some line }

theorem lane_fetched (G : Gang) (line : Line) (m : Mask) (l : Nat) :
    (G.fetched line m).lane l = if l ∈ lanesOf m then (G.lane l).entered else G.lane l := by
  refine (lane_foldl_putLane Lane.entered _ (lanesOf_nodup m) { G with line := some line } l).trans ?_
  by_cases hl : l < G.lanes.length
  · simp only [hl, and_true]
    rfl
  · have hout : G.lane l = (G.lane l).entered := by
      rw [Gang.lane, List.getD_eq_default _ _ (not_lt.mp hl)]
      rfl
    simp only [hl, and_false, if_false, ← hout, ite_self]
    rfl

theorem foldl_onLane_setGang (f : Lane → Lane) (ls : List Nat) (s : State) (G : Gang) :
    ls.foldl (fun s l => s.onLane k l f) (s.setGang k G) =
      s.setGang k (ls.foldl (fun G l => G.putLane l (f (G.lane l))) G) := by
  induction ls generalizing G with
  | nil => rfl
  | cons l ls ih => rw [List.foldl_cons, State.onLane, onGang_setGang, ih, List.foldl_cons]

theorem raise_nil (s : State) (k : Nat) (d : Bool) : s.raise k d [] = s := rfl

/-- A lane at an instruction that it may enter there. -/
theorem entryFault_eq_none {L : Lane} (hslot : slotOf L.pc < 5) (he : L.checkEntry = true → slotOf L.pc = 0)
    (ht : L.checkTarget = true → line.target L.pc = true) : L.entryFault line = none := by
  have h5 : ¬slotOf L.pc = 5 := by omega
  cases hce : L.checkEntry <;> cases hct : L.checkTarget <;> simp_all [Lane.entryFault]

/-- A group's fetch from a line whose lanes may all enter there. -/
theorem fetchGroup_of_line
    (hf : ({ s with cur := some ⟨.thread, coreOf k, k, g.lanes, g.pc⟩ } : State).fetchLine
      (({ s with cur := some ⟨.thread, coreOf k, k, g.lanes, g.pc⟩ } : State).asker k G g.lanes g.mode) .thread G.line g.pc =
        (t, .ok line))
    (hm : g.lanes ≠ 0) (hbad : ∀ l ∈ lanesOf g.lanes, (G.lane l).entryFault line = none) (hG' : t.gangs.find? k = some G') :
    let w := { t.setGang k (G'.fetched line g.lanes) with cur := some ⟨.thread, coreOf k, k, g.lanes, g.pc⟩ }
    s.fetchGroup k G g = match decode .thread (line.slot (slotOf g.pc)) with
      | .error _ => (w.trapAll k g.lanes 0x01 0 g.pc, none)
      | .ok i => (w, some i) := by
  have hnone : (lanesOf g.lanes).filterMap (fun l => ((G.lane l).entryFault line).map fun f => (l, f)) = [] := by
    rw [List.filterMap_eq_nil_iff]
    intro l hl
    rw [hbad l hl, Option.map_none]
  have hall : g.lanes &&& ~~~(maskOf (([] : List (Nat × LaneFault)).map (·.1))) = g.lanes := by
    have hzero : maskOf (([] : List (Nat × LaneFault)).map (·.1)) = 0#32 := rfl
    rw [hzero, BitVec.not_zero, BitVec.and_allOnes]
  simp only [State.fetchGroup, hf, hnone, raise_nil, onGang_of_find hG']
  rw [hall]
  simp only [if_neg hm, foldl_onLane_setGang] <;> rfl

-- What an issue leaves before the instruction's own effect

/-- A gang `K` is `G` but for the counts of R141 and the instructions in flight. -/
def Gang.Counts (G K : Gang) : Prop :=
  { K with lanes := G.lanes, waited := G.waited, flight := G.flight } = G ∧
    ∀ l, { K.lane l with waited := (G.lane l).waited } = G.lane l

/-- A gang whose lanes each have at most another count. -/
theorem counts_mapIdx {f : Nat → Lane → Lane} (hf : ∀ l L, { f l L with waited := L.waited } = L) (n : Nat) :
    G.Counts { G with lanes := G.lanes.mapIdx f, waited := n } := by
  refine ⟨rfl, fun l => ?_⟩
  by_cases hl : l < G.lanes.length
  · simpa [Gang.lane, List.getD_eq_getElem?_getD, hl] using hf l G.lanes[l]
  · simp [Gang.lane, List.getD_eq_getElem?_getD, List.getElem?_eq_none (not_lt.mp hl)]

theorem counted_counts {old : SMap Gang} {r clk : Nat} (hG : s.gangs.find? k = some G) :
    ∃ K, (s.counted old c k g r clk).gangs.find? k = some K ∧ G.Counts K := by
  simp only [State.counted, SMap.find?_mapV, hG, Option.map_some]
  refine ⟨_, rfl, ?_⟩
  split
  · exact ⟨rfl, fun _ => rfl⟩
  · refine counts_mapIdx (fun l L => ?_) _
    split
    · rfl
    · split <;> rfl

theorem roster_fetchAhead (s : State) (a : Asker) (pc : DWord) : (s.fetchAhead a pc).roster = s.roster := by
  unfold State.fetchAhead
  dsimp only
  split
  · rfl
  split
  · rfl
  split
  · rfl
  · exact roster_icacheLine ..

theorem cur_homeRead (s : State) (pa n : Nat) : (s.homeRead pa n).1.cur = s.cur := by
  have hfold (xs : List Nat) (s : State) : (xs.foldl (fun s x => (s.homeSector x).1) s).cur = s.cur := by
    induction xs generalizing s with
    | nil => rfl
    | cons x xs ih => exact ih (s.homeSector x).1
  exact hfold _ s

theorem cur_icacheLine (s : State) (c tag : Nat) (ms : Bool) : (s.icacheLine c tag ms).1.cur = s.cur := by
  have hline : (s.lineAt tag ms).1.cur = s.cur := by
    cases ms
    · exact cur_homeRead _ _ _
    · rfl
  dsimp only [State.icacheLine]
  cases (s.core c).icache.find? (·.tag == tag)
  · exact hline
  · rfl

theorem cur_fetchAhead (s : State) (a : Asker) (pc : DWord) : (s.fetchAhead a pc).cur = s.cur := by
  unfold State.fetchAhead
  dsimp only
  split
  · rfl
  split
  · rfl
  split
  · rfl
  · exact cur_icacheLine ..

/-- A pair opened or closed, an instruction put in flight and a line fetched ahead leave a gang but for what is in flight. -/
theorem flight_counts {u : State} {K : Gang} (hu : u.gangs.find? k = some K) (hK : G.Counts K) (p : Bool) (C : Core)
    (fl : List Flight) (a : Asker) (pc : DWord) :
    let v := ((if p then u.setCore c C else u).onGang k fun G => { G with flight := fl }).fetchAhead a pc
    v.cur = u.cur ∧ ∃ K', v.gangs.find? k = some K' ∧ G.Counts K' := by
  have hp : (if p then u.setCore c C else u).gangs.find? k = some K ∧ (if p then u.setCore c C else u).cur = u.cur := by
    cases p <;> exact ⟨hu, rfl⟩
  refine ⟨?_, { K with flight := fl }, ?_, hK.1, hK.2⟩
  · rw [cur_fetchAhead, onGang_of_find hp.1]
    exact hp.2
  · rw [gangs_of_roster (roster_fetchAhead ..), onGang_of_find hp.1, setGang_find]

/-- What an issue adds around the instruction changes the gang only in its counts and its instructions in flight. -/
theorem issued_counts {old : SMap Gang} {r : Nat} {second : Bool} (hG : s.gangs.find? k = some G) :
    (s.issued old c k g r second i).cur = s.cur ∧
      ∃ K, (s.issued old c k g r second i).gangs.find? k = some K ∧ G.Counts K := by
  simp only [State.issued, hG]
  cases second
  · obtain ⟨K, hK, hGK⟩ := counted_counts (old := old) (c := c) (g := g) (r := r) hG
    exact flight_counts hK hGK ..
  · exact flight_counts hG ⟨rfl, fun _ => rfl⟩ ..

-- A group's issue

theorem lanes_wait (G : Gang) (m : Mask) (pc : DWord) (kind : WaitKind) : (G.wait m pc kind).lanes = G.lanes := by
  unfold Gang.wait
  split <;> rfl

/-- Lanes that are set to wait are among those that wait. -/
theorem sub_waiting_wait (G : Gang) (m : Mask) (pc : DWord) (kind : WaitKind) : m &&& ~~~(G.wait m pc kind).waiting = 0 := by
  unfold Gang.wait
  split
  next h => simp [h]
  · refine BitVec.eq_of_getLsbD_eq fun j hj => ?_
    simp only [Gang.waiting, List.foldl_append, List.foldl_cons, List.foldl_nil, BitVec.getLsbD_and, BitVec.getLsbD_not,
      BitVec.getLsbD_or]
    cases m.getLsbD j <;> simp

/-- What a group of a core's next issue leads to once it has fetched. -/
def State.issueFetched (u : State) (c k : Nat) (G : Gang) (g : Group) (second : Bool) :
    State × Option Instr → State × Option Instr
  | (s, none) => (s, none)
  | (s, some i) =>
    if G.holdsUp i g.lanes then
      ((s.onGang k fun G =>
        { G with flight := ⟨g.lanes, g.pc, i⟩ :: G.flight.filter (·.lanes &&& g.lanes == 0) }).stall k g.lanes
        (.again "operand"), none)
    else (s.issued u.gangs c k g (u.rank G) second i, some i)

theorem issueThread_of_choice {second : Bool} (h : u.chooseIssue c = some (k, G, g, second)) :
    u.issueThread c = u.issueFetched c k G g second (u.fetchGroup k G g) := by
  simp only [State.issueThread, h]
  rcases u.fetchGroup k G g with ⟨s, _ | i⟩ <;> rfl

-- A sequencer's issue

/-- A sequencer's fetch from a line where its instruction may stand. -/
theorem issueSeq_of_line {B B' : Block} {m : Bool} (hB : u.blocks.find? b = some B) (hcopy : (B.seq m).copyFault = none)
    (hf : ({ u with cur := some ⟨seqEngine m, B.core, b, 0, (B.seq m).pc⟩ } : State).fetchLine
      (({ u with cur := some ⟨seqEngine m, B.core, b, 0, (B.seq m).pc⟩ } : State).seqAsker b B m) (seqEngine m) (B.seq m).line
        (B.seq m).pc = (t, .ok line))
    (hslot : slotOf (B.seq m).pc < 5)
    (htarget : (B.seq m).checkTarget = true → slotOf (B.seq m).pc = 0 ∧ line.target (B.seq m).pc = true)
    (hB' : t.blocks.find? b = some B') :
    let y := t.setBlock b (B'.putSeq m { B'.seq m with line := some line, walkFaults := [], checkTarget := false })
    let w := y.fetchAhead (y.seqAsker b B m) (B.seq m).pc
    u.issueSeq b m = match decode (seqEngine m) (line.slot (slotOf (B.seq m).pc)) with
      | .error _ => (w.seqTrap b m 0x01 0, none)
      | .ok i => (w, some i) := by
  have hentry : ¬(slotOf (B.seq m).pc = 5 || ((B.seq m).checkTarget && slotOf (B.seq m).pc != 0)) = true := by
    have h5 : ¬slotOf (B.seq m).pc = 5 := by omega
    cases hc : (B.seq m).checkTarget <;> simp_all
  have hbit : ¬((B.seq m).checkTarget && !line.target (B.seq m).pc) = true := by
    cases hc : (B.seq m).checkTarget <;> simp_all
  simp only [State.issueSeq, hB, hcopy, hf, onSeq_of_find hB', if_neg hentry, if_neg hbit] <;> rfl

-- The line of an address

/-- A line that is not cached is the bytes of memory at the address (R120, R122). -/
theorem fetchLine_of_memory {a : Asker} {e : Engine} {v x : State} {T : TlbEntry} {bs : List PByte} (hpc : pc.toNat < 2 ^ 48)
    (hlook : s.lookup a .exec pc.toNat = (v, .ok T)) {tag : Nat}
    (htag : tag = 2 * (T.addr pc.toNat / 64) + if a.ag.secure = true then 1 else 0)
    (hmiss : ∀ l ∈ (v.core a.core).icache, l.tag ≠ tag) (hms : T.ms = false)
    (hread : v.homeRead (64 * (T.addr pc.toNat / 64)) 64 = (x, bs))
    (hline : line = ⟨tag, BitVec.ofNat 512 (ofBytes (bs.map (·.1))), false⟩) (hclean : ∀ y ∈ bs, y.2 = false)
    (hpar : line.parityOk (slotOf pc) = true) (hzero : line.lword.extractLsb' 16 15 = 0)
    (hkind : line.lword.extractLsb' 14 2 = lineKind e) : ∃ t, s.fetchLine a e none pc = (t, .ok line) := by
  have hhalf : tag / 2 = T.addr pc.toNat / 64 := by
    rw [htag]
    split <;> omega
  have hpoison : bs.any (·.2) = false := by
    rw [List.any_eq_false]
    intro y hy
    simp [hclean y hy]
  have hat : v.lineAt tag T.ms = (x, line) := by
    simp only [State.lineAt, hms, hhalf, Bool.false_eq_true, if_false, hread, hpoison, hline]
  have hfind : (v.core a.core).icache.find? (·.tag == tag) = none := by
    rw [List.find?_eq_none]
    intro l hl
    simp [hmiss l hl]
  have hfill : v.icacheLine a.core tag T.ms = (x.icachePut a.core line, line) := by
    simp only [State.icacheLine, hfind, hat]
  have hlp : line.poison = false := by rw [hline]
  have hhigh : ¬pc.toNat / 2 ^ 48 ≠ 0 := by omega
  have hz : (line.lword.extractLsb' 16 15 != 0) = false := by simp [hzero]
  have hk : (line.lword.extractLsb' 14 2 != lineKind e) = false := by simp [hkind]
  have hcheck : ∃ t, (x.icachePut a.core line).checkLine a e pc line = (t, .ok line) := by
    simp only [State.checkLine, hlp, hpar, hz, hk]
    exact ⟨_, rfl⟩
  have hfetch : s.fetchLine a e none pc = (x.icachePut a.core line).checkLine a e pc line := by
    simp only [State.fetchLine, if_neg hhigh, hlook, ← htag, Option.filter_none, hfill]
  rw [hfetch]
  exact hcheck

/-- Settles O58: the choice picks what `State.take` does; a fetched line leaves the lanes entered (`fetchGroup_of_line`), and an
issue the counts and what is in flight (`issued_counts`). -/
theorem stepRunsTheDecodedInstruction : Obligations.StepRunsTheDecodedInstruction := by
  unfold Obligations.StepRunsTheDecodedInstruction
  intro s
  refine ⟨fun h => step_of_none (nextAction_of_nil h), fun i h => ?_,
    fun i is h hin => ?_, ?_, ?_, ?_⟩
  · have hnext := nextAction_of_picks h
    rw [State.take] at hnext
    exact step_of_some hnext
  · have hnext := nextAction_of_picks h
    rw [State.take, hin] at hnext
    exact step_of_some hnext
  · intro c k G g second line t G' hpick hchoice v hf hm hslot hentry hG'
    have hbad (l : Nat) (hl : l ∈ lanesOf g.lanes) : (G.lane l).entryFault line = none := by
      obtain ⟨he, ht, hpc⟩ := hentry l hl
      exact entryFault_eq_none (hpc ▸ hslot) (hpc ▸ he) (hpc ▸ ht)
    have hnext := nextAction_of_picks hpick
    rw [State.take, issueThread_of_choice hchoice, fetchGroup_of_line hf hm hbad hG'] at hnext
    have hw : ({ t.setGang k (G'.fetched line g.lanes) with
        cur := some ⟨.thread, coreOf k, k, g.lanes, g.pc⟩ } : State).gangs.find? k = some (G'.fetched line g.lanes) :=
      setGang_find ..
    refine ⟨_, G'.fetched line g.lanes, rfl, ?_, ?_, lane_fetched G' line g.lanes, ?_, ?_, ?_⟩
    · rw [fetched_eq]
    · rw [fetched_eq]
    · intro i hdec hfree
      simp only [hdec, State.issueFetched, hfree] at hnext
      obtain ⟨hcur, K, hK, hcounts⟩ := issued_counts hw
      exact ⟨_, K, step_of_some hnext, rfl, hcur, hK, hcounts⟩
    · intro i hdec hheld
      simp only [hdec, State.issueFetched, hheld, if_true, State.stall, onGang_of_find hw, onGang_setGang] at hnext
      exact ⟨_, _, step_of_none hnext, setGang_find .., lanes_wait .., sub_waiting_wait .., rfl⟩
    · intro e hdec
      simp only [hdec, State.issueFetched] at hnext
      exact step_of_none hnext
  · intro b m B line t B' hpick hB hcopy pc v hf hslot htarget hB' y w
    have hnext := nextAction_of_picks hpick
    rw [State.take, issueSeq_of_line hB hcopy hf hslot htarget hB'] at hnext
    refine ⟨fun i hdec => ?_, fun e hdec => ?_⟩
    · rw [hdec] at hnext
      exact step_of_some hnext
    · rw [hdec] at hnext
      exact step_of_none hnext
  · exact fun a e pc T v x bs hpc hlook hmiss hms hread hclean hpar hzero hkind =>
      fetchLine_of_memory hpc hlook rfl hmiss hms hread rfl hclean hpar hzero hkind

end Sys2Proof.Machine
end

section
/-! SUPPORT. What reads and writes of memory, translations and posts leave alone: everything of the device beside its memory,
caches, queues and the marks that stores leave. -/

namespace Sys2Proof.Machine

variable {s t u : State}

/-- A state with what reads, writes and posts change set aside: memory, the caches and shared TLBs, the cores, the marks of
monitors, the mailbox's events, and the fault queues with their overflow. -/
def State.beside (s : State) : State :=
  { s with
    hbm := [], hbmPoison := [], elide := [], elideConst := [], l2 := [], l2Dirty := [], rdc := [], stlb := [], cores := [],
    monitors := [], inputs := [], fqTail := [], overflow := [], heldNext := 0, msix := [] }

/-- What leaves a state but for the L2 and the shared TLBs leaves all that stands beside memory. -/
theorem beside_of_unread (h : t.unread = s.unread) : t.beside = s.beside := (congrArg State.beside h :)

theorem gangs_of_beside (h : t.beside = s.beside) : t.gangs = s.gangs := (congrArg State.gangs h :)

theorem blocks_of_beside (h : t.beside = s.beside) : t.blocks = s.blocks := (congrArg State.blocks h :)

theorem beside_foldl {α : Type} {f : State → α → State} (hf : ∀ s x, (f s x).beside = s.beside) (xs : List α) (s : State) :
    (xs.foldl f s).beside = s.beside := by
  induction xs generalizing s with
  | nil => rfl
  | cons x xs ih => exact (ih _).trans (hf s x)

-- Memory

theorem beside_dramBlock (s : State) (b : Nat) (es : SMap PByte) : (s.dramBlock b es).beside = s.beside := by
  dsimp only [State.dramBlock]
  split
  · split <;> rfl
  · rfl

theorem beside_dramWrite (s : State) (ws : SMap PByte) : (s.dramWrite ws).beside = s.beside :=
  beside_foldl (fun s (g : Nat × SMap PByte) => beside_dramBlock s g.1 g.2) (groupBy 128 ws) s

theorem beside_mailed (s : State) (ws : SMap PByte) : (s.mailed ws).beside = s.beside := by
  dsimp only [State.mailed]
  split <;> rfl

theorem beside_homeWrite (s : State) (ws : SMap PByte) : (s.homeWrite ws).beside = s.beside :=
  (beside_mailed _ ws).trans (beside_dramWrite s ws)

theorem beside_baseWrite (s : State) (ws : SMap PByte) : (s.baseWrite ws).beside = s.beside :=
  (beside_mailed _ ws).trans (beside_dramWrite s ws)

theorem beside_homeRead (s : State) (pa n : Nat) : (s.homeRead pa n).1.beside = s.beside :=
  beside_of_unread (unread_homeRead s pa n)

theorem beside_countMem (s : State) (pa : Nat) (add : Word) (announce : Bool) :
    (s.countMem pa add announce).beside = s.beside := by
  unfold State.countMem State.atomHome
  split
  · rfl
  · exact beside_baseWrite _ _

-- The caches

theorem beside_rdcSector (s : State) (node sec : Nat) : (s.rdcSector node sec).1.beside = s.beside := by
  unfold State.rdcSector
  split <;> rfl

theorem beside_rdcFlush (s : State) (node sec : Nat) : (s.rdcFlush node sec).beside = s.beside := by
  unfold State.rdcFlush
  split
  · rfl
  split
  · rfl
  · exact beside_homeWrite s _

theorem beside_rdcFlushLine (s : State) (node line : Nat) : (s.rdcFlushLine node line).beside = s.beside := by
  dsimp only [State.rdcFlushLine]
  split
  · rfl
  · exact beside_homeWrite s _

theorem beside_dieWrite (s : State) (node sec : Nat) (es : SMap PByte) : (s.dieWrite node sec es).beside = s.beside := by
  unfold State.dieWrite
  split
  · exact beside_homeWrite s es
  · exact beside_rdcSector s node sec

theorem beside_l1Flush (s : State) (c key : Nat) : (s.l1Flush c key).beside = s.beside := by
  unfold State.l1Flush
  split
  · rfl
  split
  · rfl
  · exact beside_dieWrite s _ _ _

theorem beside_l1FlushAll (s : State) (c : Nat) (p : L1Sector → Bool) : (s.l1FlushAll c p).beside = s.beside := by
  refine beside_foldl (fun s e => ?_) _ s
  split
  · exact beside_l1Flush s c e.1
  · rfl

theorem beside_rdcFlushAll (s : State) (node : Nat) : (s.rdcFlushAll node).beside = s.beside :=
  beside_foldl (fun s line => beside_rdcFlushLine s node line) _ s

theorem beside_acquireAt (s : State) (c : Nat) (sc : Scope) : (s.acquireAt c sc).beside = s.beside := by
  have hwide : (if sc.wide then (s.l1FlushAll c fun _ => true).setCore c { (s.l1FlushAll c fun _ => true).core c with l1 := [] }
      else s).beside = s.beside := by
    split
    · exact beside_l1FlushAll s c _
    · rfl
  dsimp only [State.acquireAt]
  split
  · exact (beside_rdcFlushAll _ _).trans hwide
  · exact hwide

theorem beside_bringHome (s : State) (c : Nat) (p : Place) : (s.bringHome c p).beside = s.beside := by
  cases p with
  | mem w => exact (beside_rdcFlush _ _ _).trans (beside_l1Flush _ _ _)
  | ls b w => rfl

theorem beside_refreshAt (s : State) (c : Nat) (p : Place) : (s.refreshAt c p).beside = s.beside := by
  cases p with
  | mem w =>
    dsimp only [State.refreshAt]
    split
    · rfl
    · exact beside_bringHome s c (.mem w)
  | ls b w => rfl

-- Virtual memory and posts

theorem beside_devRead (ag : Agent) (a : DWord) (n : Nat) (s : State) : (devRead ag a n s).1.beside = s.beside := by
  have htr := beside_of_unread (unread_translateNow ag .read a.toNat s)
  unfold devRead
  split
  · rfl
  split
  next heq => rw [heq] at htr; exact htr
  next heq =>
    rw [heq] at htr
    split
    · exact htr
    · exact (beside_homeRead _ _ _).trans htr

theorem beside_devReadClean (ag : Agent) (a : DWord) (n : Nat) (s : State) : (devReadClean ag a n s).1.beside = s.beside := by
  have hrd := beside_devRead ag a n s
  unfold devReadClean
  split
  next heq => rw [heq] at hrd; exact hrd
  next heq => rw [heq] at hrd; split <;> exact hrd

theorem beside_devWrite (ag : Agent) (a : DWord) (bs : List PByte) (s : State) : (devWrite ag a bs s).1.beside = s.beside := by
  have htr := beside_of_unread (unread_translateNow ag .write a.toNat s)
  unfold devWrite
  split
  · rfl
  split
  next heq => rw [heq] at htr; exact htr
  next heq =>
    rw [heq] at htr
    dsimp only
    split
    · exact (beside_baseWrite _ _).trans htr
    · exact (beside_homeWrite _ _).trans htr

theorem beside_queueOpen (s : State) (node q : Nat) : (s.queueOpen node q).1.beside = s.beside := by
  have hrd := beside_devReadClean (s.queueAt node q).1 (s.queueAt node q).2 32 s
  dsimp only [State.queueOpen]
  split
  next heq => rw [heq] at hrd; exact hrd
  next heq => rw [heq] at hrd; split <;> exact hrd

theorem beside_postInto (s : State) (node q : Nat) (base : DWord) (size : Nat) (rec : List Byte) :
    (s.postInto node q base size rec).1.beside = s.beside := by
  dsimp only [State.postInto]
  split
  next heq => rw [← beside_devWrite _ _ _ s, heq]
  next u _ heq => exact (beside_devWrite _ _ _ u).trans (by rw [← beside_devWrite _ _ _ s, heq])

theorem beside_setOvf (s : State) (node q : Nat) : (s.setOvf node q).beside = s.beside := by
  dsimp only [State.setOvf]
  split
  next heq => rw [← beside_devRead _ _ _ s, heq]
  next u _ heq => exact (beside_devWrite _ _ _ u).trans (by rw [← beside_devRead _ _ _ s, heq])

theorem beside_post (s : State) (node q : Nat) (rec : List Byte) : (s.post node q rec).1.beside = s.beside := by
  have hopen := beside_queueOpen s node q
  unfold State.post
  dsimp only
  split
  next heq => rw [heq] at hopen; exact (beside_setOvf _ _ _).trans hopen
  next u base size heq =>
    rw [heq] at hopen
    have hinto := beside_postInto u node q base size rec
    split
    next heq => rw [heq] at hinto; exact (beside_setOvf _ _ _).trans (hinto.trans hopen)
    next heq => rw [heq] at hinto; exact hinto.trans hopen

end Sys2Proof.Machine
end

section
/-! SUPPORT of O52. The events of refetches, walks, combining buffers, requests, replies and links (R135, R217, R257 to R265). -/

namespace Sys2Proof.Machine

variable {s t u : State} {k c : Nat} {G H : Gang}

-- Changes of one gang or one sequencer

theorem find?_onGang (s : State) (j k : Nat) (f : Gang → Gang) :
    (s.onGang j f).gangs.find? k = if k = j then (s.gangs.find? k).map f else s.gangs.find? k := by
  unfold State.onGang
  by_cases hk : k = j
  · subst hk
    cases h : s.gangs.find? k <;> simp [State.setGang, h]
  · cases h : s.gangs.find? j <;> simp [State.setGang, hk, SMap.find?_put_of_ne]

theorem gangs_onSeq (s : State) (b : Nat) (mx : Bool) (f : Seq → Seq) : (s.onSeq b mx f).gangs = s.gangs := by
  unfold State.onSeq State.onBlock
  split <;> rfl

-- A refetch (R135)

/-- The bytes of a line read at its home are those of its memory. -/
theorem homeRead_bytes (s : State) (pa n : Nat) : (s.homeRead pa n).2.map (·.1) = (s.dram pa n).map (·.1) := by
  have hread := unread_homeRead s pa n
  have hbyte (a : Nat) : (s.homeRead pa n).1.dramByte a = s.dramByte a := (congrArg (State.dramByte · a) hread :)
  have hpair : (s.homeRead pa n).2 = (List.range n).map fun i =>
    ((s.homeRead pa n).1.dramByte (pa + i), ((s.homeRead pa n).1.l2.find? ((pa + i) / 32)).getD false) := rfl
  rw [hpair, State.dram, List.map_map, List.map_map]
  exact List.map_congr_left fun i _ => hbyte (pa + i)

theorem core_lineAt (s : State) (tag c : Nat) : (s.lineAt tag false).1.core c = s.core c :=
  (congrArg (State.core · c) (unread_homeRead s (64 * (tag / 2)) 64) :)

/-- A line put into a core's cache is its first; those behind it were there, and have other tags. -/
theorem icachePut_icache (s : State) (c : Nat) (l : Line) : ∃ ls, ((s.icachePut c l).core c).icache = l :: ls ∧
    ∀ x ∈ ls, x.tag ≠ l.tag ∧ x ∈ (s.core c).icache := by
  refine ⟨_, by rw [State.icachePut, core_setCore, if_pos rfl], fun x hx => ?_⟩
  rcases List.mem_append.mp hx with hx | hx
  · obtain ⟨hmem, hp⟩ := List.mem_filter.mp (List.mem_of_mem_take hx)
    exact ⟨by simp_all, hmem⟩
  · obtain ⟨hmem, hp⟩ := List.mem_filter.mp hx
    refine ⟨fun h => ?_, hmem⟩
    simp [h] at hp

theorem unrefetch_frees (s : State) (c tag : Nat) (hG : (s.unrefetch c tag).gangs.find? k = some G) (hk : k / 16 = c) :
    ∀ w ∈ G.waits, w.kind ≠ .refetch tag := by
  intro w hw
  simp only [State.unrefetch, SMap.find?_mapV, Option.map_eq_some_iff] at hG
  obtain ⟨G₀, -, rfl⟩ := hG
  rw [if_pos (show coreOf k = c from hk)] at hw
  simpa using (List.mem_filter.mp hw).2

theorem instructionRefetch_leaves (s : State) (c line : Nat) :
    ∃ t L, exec (.instructionRefetch c line) s = .next t ∧ (t.core c).icache.head? = some L ∧ L.tag = line ∧
      L.data = BitVec.ofNat 512 (ofBytes ((s.dram (64 * (line / 2)) 64).map (·.1))) ∧
      (∀ k G, t.gangs.find? k = some G → k / 16 = c → ∀ w ∈ G.waits, w.kind ≠ .refetch line) ∧
      ∀ x ∈ (t.core c).icache.tail, x.tag ≠ line ∧ x ∈ (s.core c).icache := by
  obtain ⟨ls, hls, hold⟩ := icachePut_icache (s.lineAt line false).1 c (s.lineAt line false).2
  have hicache : ((((s.lineAt line false).1.icachePut c (s.lineAt line false).2).unrefetch c line).core c).icache = _ := hls
  have hdata : (s.lineAt line false).2.data = BitVec.ofNat 512 (ofBytes ((s.dram (64 * (line / 2)) 64).map (·.1))) := by
    rw [← homeRead_bytes]
    rfl
  refine ⟨((s.lineAt line false).1.icachePut c (s.lineAt line false).2).unrefetch c line, (s.lineAt line false).2, rfl,
    by rw [hicache]; rfl, rfl, hdata, fun k G hG hk => unrefetch_frees _ c line hG hk, fun x hx => ?_⟩
  rw [hicache] at hx
  rw [← core_lineAt s line]
  exact hold x hx

-- Walks (R217)

theorem walks_tellWalk (s : State) (id : Nat) (f : Option WalkFault) (r : Requester) : (s.tellWalk id f r).walks = s.walks := by
  unfold State.tellWalk
  split
  · unfold State.onGang; split <;> rfl
  · unfold State.onSeq State.onBlock; split <;> rfl

theorem walks_told (s : State) (id : Nat) (f : Option WalkFault) (rs : List Requester) :
    (rs.foldl (fun s r => s.tellWalk id f r) s).walks = s.walks := by
  induction rs generalizing s with
  | nil => rfl
  | cons r rs ih => exact (ih _).trans (walks_tellWalk s id f r)

/-- No lane of a gang waits for a walk. -/
def State.Walked (s : State) (id k : Nat) : Prop := ∀ G, s.gangs.find? k = some G → ∀ x ∈ G.waits, x.kind ≠ .walk id

theorem walked_tellWalk_self (s : State) (id k : Nat) (f : Option WalkFault) (m : Mask) :
    (s.tellWalk id f (.lanes k m)).Walked id k := by
  intro G hG x hx
  rw [State.tellWalk, find?_onGang, if_pos rfl, Option.map_eq_some_iff] at hG
  obtain ⟨G₀, -, rfl⟩ := hG
  simpa using (List.mem_filter.mp hx).2

theorem walked_tellWalk {id : Nat} (h : s.Walked id k) (f : Option WalkFault) (r : Requester) :
    (s.tellWalk id f r).Walked id k := by
  cases r with
  | lanes j m =>
    by_cases hj : k = j
    · exact hj ▸ walked_tellWalk_self s id k f m
    · intro G hG
      rw [State.tellWalk, find?_onGang, if_neg hj] at hG
      exact h G hG
  | seq b mx =>
    intro G hG
    rw [State.tellWalk, gangs_onSeq] at hG
    exact h G hG

theorem walked_of_told {id : Nat} {f : Option WalkFault} {rs : List Requester} {m : Mask}
    (h : s.Walked id k ∨ .lanes k m ∈ rs) : (rs.foldl (fun s r => s.tellWalk id f r) s).Walked id k := by
  induction rs generalizing s with
  | nil => exact h.resolve_right (List.not_mem_nil)
  | cons r rs ih =>
    refine ih ?_
    rcases h with h | h
    · exact .inl (walked_tellWalk h f r)
    · rcases List.mem_cons.mp h with rfl | h
      · exact .inl (walked_tellWalk_self s id k f m)
      · exact .inr h

theorem walkDone_leaves {id : Nat} {w : Walk} (hw : s.walks.find? id = some w) :
    (s.walking w = false → exec (.translationWalkDone id) s = .next s) ∧
    (s.walking w = true → ∃ t, exec (.translationWalkDone id) s = .next t ∧ t.walks.find? id = none ∧
      ∀ k m, .lanes k m ∈ w.requesters → ∀ G, t.gangs.find? k = some G → ∀ x ∈ G.waits, x.kind ≠ .walk id) := by
  refine ⟨fun h => ?_, fun h => ?_⟩
  · change execTranslationWalkDone id s = _
    simp only [execTranslationWalkDone, hw, h, Bool.not_false, if_true]
  · have hexec : ∃ (u : State) (f : Option WalkFault), exec (.translationWalkDone id) s =
        .next (w.requesters.foldl (fun s r => s.tellWalk id f r) { u with walks := u.walks.del id }) := by
      change ∃ u f, execTranslationWalkDone id s = _
      simp only [execTranslationWalkDone, hw, h, Bool.not_true, Bool.false_eq_true, if_false]
      exact ⟨_, _, rfl⟩
    obtain ⟨u, f, hexec⟩ := hexec
    exact ⟨_, hexec, by rw [walks_told, SMap.find?_del_self], fun k m hm => walked_of_told (.inr hm)⟩

-- Numbers that a table does not list

theorem find?_freeFrom {α : Type} {m : SMap α} {fuel n id : Nat} (h : m.freeFrom fuel n = some id) : m.find? id = none := by
  induction fuel generalizing n with
  | zero => cases h
  | succ fuel ih =>
    rw [SMap.freeFrom] at h
    split at h
    next hnone => cases h; exact Option.isNone_iff_eq_none.mp hnone
    · exact ih h

theorem listed_of_freeFrom {α : Type} {m : SMap α} {fuel n : Nat} (h : m.freeFrom fuel n = none) {j : Nat} (hj : j < fuel) :
    (m.find? (n + j)).isSome := by
  induction fuel generalizing n j with
  | zero => omega
  | succ fuel ih =>
    rw [SMap.freeFrom] at h
    split at h
    · cases h
    next hnone =>
      cases j with
      | zero => simpa [Option.isSome_iff_ne_none] using hnone
      | succ j => simpa [Nat.add_assoc, Nat.add_comm 1] using ih h (j := j) (by omega)

/-- A table of so many entries leaves one more number free. -/
theorem find?_free {α : Type} (m : SMap α) : m.find? ((m.freeFrom (m.length + 1) 0).getD 0) = none := by
  cases h : m.freeFrom (m.length + 1) 0 with
  | some id => exact find?_freeFrom h
  | none =>
    exfalso
    have hsub : List.range (m.length + 1) ⊆ m.map (·.1) := by
      intro j hj
      obtain ⟨v, hv⟩ := Option.isSome_iff_exists.mp (listed_of_freeFrom h (List.mem_range.mp hj))
      rw [Nat.zero_add] at hv
      exact List.mem_map.mpr ⟨_, mem_of_find? hv, rfl⟩
    have hlen := (List.subperm_of_subset List.nodup_range hsub).length_le
    simp at hlen

-- Combining buffers (R258)

theorem send_lists (s : State) (r : Request) : ∃ id q, s.requests.find? id = none ∧ (s.send r).1.requests.find? id = some q ∧
    (s.send r).1.combine = s.combine ∧ q = { r with seq := q.seq, sentAt := q.sentAt, no := q.no } :=
  ⟨_, _, find?_free s.requests, SMap.find?_put_self _ _ _, rfl, rfl⟩

theorem combineTimeout_sends {i : Nat} {e : Combine} (he : (s.combine.get [] c)[i]? = some e) :
    (s.canSend e.device 1 = true → ∃ t q, exec (.combineTimeout c i) s = .next t ∧
      t.combine.get [] c = (s.combine.get [] c).eraseIdx i ∧ (∃ id, s.requests.find? id = none ∧ t.requests.find? id = some q) ∧
      q.kind = .store e.bytes ∧ q.device = e.device ∧ q.offset = e.base ∧ q.gang = some e.gang) ∧
    (s.canSend e.device 1 = false → exec (.combineTimeout c i) s = .next s) := by
  have hexec : exec (.combineTimeout c i) s = .next (if s.canSend e.device 1 then s.closeEntry c i else s) := by
    change execCombineTimeout c i s = _
    rw [execCombineTimeout, he]
  refine ⟨fun h => ?_, fun h => by rw [hexec, h]; rfl⟩
  have hclose : s.closeEntry c i = (({ s with combine := s.combine.write [] c ((s.combine.get [] c).eraseIdx i) } : State).send
      { s.ask e.gang e.lane e.pc e.device e.base (.store e.bytes) .store with writer := e.writer }).1 := by
    simp only [State.closeEntry, he]
    rfl
  obtain ⟨id, q, hfree, hq, hcomb, heq⟩ := send_lists
    ({ s with combine := s.combine.write [] c ((s.combine.get [] c).eraseIdx i) } : State)
    { s.ask e.gang e.lane e.pc e.device e.base (.store e.bytes) .store with writer := e.writer }
  rw [h, if_pos rfl, hclose] at hexec
  exact ⟨_, q, hexec, by rw [hcomb, SMap.get_write_self], ⟨id, hfree, hq⟩, by rw [heq]; rfl, by rw [heq]; rfl, by rw [heq]; rfl,
    by rw [heq]; rfl⟩

-- Requests of other devices (R257, R261)

theorem remoteRequest_recorded {source vmid seq off : Nat} {secure : Bool} {kind : ReqKind} {r : ReplyKind}
    (hs : source ≠ Config.deviceNumber.toNat) (h : s.recordedReply source seq kind = some r) :
    exec (.remoteRequest source vmid seq secure off kind) s = .next s := by
  change execRemoteRequest source vmid seq secure off kind s = _
  simp only [execRemoteRequest, if_neg hs, State.arrived, h]

theorem remoteRequest_store {source vmid seq off : Nat} {secure : Bool} {bs : SMap Byte} {u v : State} {ag : Agent} {base : Nat}
    {ps : List (Nat × Bool)} (hs : source ≠ Config.deviceNumber.toNat) (h : s.recordedReply source seq (.store bs) = none)
    (hb : s.binding vmid secure = (u, some (ag, base))) (hw : u.windowBytes ag .write base (bs.map (·.1)) = (v, .ok ps)) :
    exec (.remoteRequest source vmid seq secure off (.store bs)) s =
      .next (({ v with torn := v.torn ++ [⟨ps.zip (bs.map fun b => (b.2, false)), none⟩] } : State).recordReply source seq
        (.store bs) .ack) := by
  change execRemoteRequest source vmid seq secure off (.store bs) s = _
  simp only [execRemoteRequest, if_neg hs, State.arrived, h, State.perform, hb, hw]

-- Replies (R260 to R262)

/-- What the lanes of a load's request take of its reply. -/
def Request.given (r : Request) (G : Gang) (id : Nat) (reply : LoadPart → ReplyKind) : List RemoteAnswer :=
  (r.parts.filter fun p => (G.lane p.1).life == .running).map fun p => ⟨p.1, id, reply p.2⟩

/-- The reply of a load is kept for its lanes, whoever answers. -/
theorem replied_load {id : Nat} {r : Request} (reply : ReplyKind) (horigin : r.origin = .load)
    (hgang : r.gang = some k) (hG : s.gangs.find? k = some G) : ∃ H, (s.replied id r reply).requests = s.requests.del id ∧
      (s.replied id r reply).gangs.find? k = some H ∧
      H.answers = G.answers ++ r.given G id (fun p => p.of_ r.offset reply) ∧ H.lanes = G.lanes := by
  have hG' : ({ s with requests := s.requests.del id } : State).gangs.find? k = some G := hG
  have hlane (l : Nat) : ({ s with requests := s.requests.del id } : State).lane k l = G.lane l := by
    simp only [State.lane, hG']
  simp only [State.replied, horigin, State.answered, hgang, hlane, onGang_of_find hG', State.releaseRemote, onGang_setGang]
  exact ⟨_, rfl, setGang_find .., rfl, rfl⟩

/-- A part of a load's reply without bytes of the combining buffer is the bytes at its offset. -/
theorem of_data {p : LoadPart} (h : p.own = []) (offset : Nat) (bs : List PByte) :
    p.of_ offset (.data bs) = .data ((bs.drop (p.off - offset)).take p.n) := by
  have hid (xs : List PByte) : xs.mapIdx (fun _ b => b) = xs := List.ext_getElem (by simp) (by simp)
  simp [LoadPart.of_, h, hid]

theorem remoteReply_nack {id : Nat} {r : Request} (hr : s.requests.find? id = some r) (hidle : r.idle = false)
    (hd : r.device ≠ Config.deviceNumber.toNat) : exec (.remoteReply id .nack) s = .next { s with
      requests := s.requests.put id { r with nacked := some (r.nacked.getD s.now), idle := true, nackAt := s.now } } := by
  change execRemoteReply id .nack s = _
  simp only [execRemoteReply, hr, hidle, beq_eq_false_iff_ne.mpr hd, suits]
  rfl

theorem remoteReply_data {id n : Nat} {r : Request} {bs : List PByte} (hr : s.requests.find? id = some r) (hidle : r.idle = false)
    (hd : r.device ≠ Config.deviceNumber.toNat) (hkind : r.kind = .load n) (horigin : r.origin = .load) (hlen : bs.length = n)
    (hown : ∀ p ∈ r.parts, p.2.own = []) (hgang : r.gang = some k) (hG : s.gangs.find? k = some G) :
    ∃ t H, exec (.remoteReply id (.data bs)) s = .next t ∧ t.requests = s.requests.del id ∧ t.gangs.find? k = some H ∧
      H.answers = G.answers ++ r.given G id (fun p => .data ((bs.drop (p.off - r.offset)).take p.n)) ∧ H.lanes = G.lanes := by
  obtain ⟨H, hreq, hH, hans, hlanes⟩ := replied_load (id := id) (.data bs) horigin hgang hG
  have hgiven : r.given G id (fun p => p.of_ r.offset (.data bs)) =
      r.given G id (fun p => .data ((bs.drop (p.off - r.offset)).take p.n)) :=
    List.map_congr_left fun p hp => by dsimp only; rw [of_data (hown p (List.mem_filter.mp hp).1)]
  have hexec : exec (.remoteReply id (.data bs)) s = .next (s.replied id r (.data bs)) := by
    change execRemoteReply id (.data bs) s = _
    simp only [execRemoteReply, hr, hidle, beq_eq_false_iff_ne.mpr hd, suits, hkind, hlen, beq_self_eq_true]
    rfl
  exact ⟨_, H, hexec, hreq, hH, hgiven ▸ hans, hlanes⟩

theorem nackResend_sends {id : Nat} {r : Request} (hr : s.requests.find? id = some r) (hidle : r.idle = true)
    (hnow : r.nackAt + 1000 ≤ s.now) :
    exec (.nackResend id) s = .next { s with requests := s.requests.put id { r with idle := false } } := by
  change execNackResend id s = _
  simp only [execNackResend, hr, hidle, hnow, decide_true, Bool.and_self, if_true]

theorem routeTimeout_load {id n : Nat} {r : Request} (hr : s.requests.find? id = some r) (hu : s.undeliverable r = true)
    (hkind : r.kind = .load n) (horigin : r.origin = .load) (hgang : r.gang = some k) (hG : s.gangs.find? k = some G) :
    ∃ t H, exec (.routeTimeout id) s = .next t ∧ t.requests = s.requests.del id ∧ t.gangs.find? k = some H ∧
      H.answers = G.answers ++ r.given G id (fun _ => .fault 0x0D) ∧ H.lanes = G.lanes := by
  obtain ⟨H, hreq, hH, hans, hlanes⟩ := replied_load (id := id) (.fault 0x0D) horigin hgang hG
  refine ⟨_, H, ?_, hreq, hH, hans, hlanes⟩
  change execRouteTimeout id s = _
  simp only [execRouteTimeout, hr, hkind, hu, Request.lost, horigin]
  rfl

theorem routeTimeout_deliverable {id : Nat} {r : Request} (hr : s.requests.find? id = some r) (hu : s.undeliverable r = false) :
    exec (.routeTimeout id) s = .next s := by
  change execRouteTimeout id s = _
  simp only [execRouteTimeout, hr, hu, Bool.not_false, Bool.or_true, if_true]

-- Links (R264, R265)

theorem links_post (s : State) (node q : Nat) (rec : List Byte) : (s.post node q rec).1.links = s.links :=
  (congrArg State.links (beside_post s node q rec) :)

theorem noSuchLink {l : Nat} (h : isLink l = false) : exec (.flitCrcFail l) s = .fault .noSuchPart ∧
    (isFarLink l = false → ∀ ok, exec (.linkRetrain l ok) s = .fault .noSuchPart) := by
  refine ⟨?_, fun hfar ok => ?_⟩
  · change execFlitCrcFail l s = _
    simp only [execFlitCrcFail, h, Bool.not_false, if_true]
  · change execLinkRetrain l ok s = _
    simp only [execLinkRetrain, h, hfar, Bool.not_false, Bool.false_eq_true, if_false, if_true]

theorem flitCrcFail_counts {l : Nat} (hl : isLink l = true) (huse : linkInUse l = true) (hdead : (s.links.get {} l).dead = false)
    (htrain : (s.links.get {} l).training = false) : ∃ t, exec (.flitCrcFail l) s = .next t ∧
      let n := (if (s.links.get {} l).window = s.now / 1000000 then (s.links.get {} l).replays else 0) + 1
      (t.links.get {} l).replays = n ∧ (t.links.get {} l).training = decide (256 ≤ n) ∧
      (n ≠ 16 → { t with links := s.links } = s) := by
  have hexec : exec (.flitCrcFail l) s = execFlitCrcFail l s := rfl
  simp only [execFlitCrcFail, hl, huse, hdead, htrain, Bool.not_true, Bool.or_self, Bool.false_eq_true, if_false] at hexec
  have hlinks (p : Prop) [Decidable p] (L : Link) (rec : List Byte) :
      (if p then (({ s with links := s.links.put l L } : State).post 0 0 rec).1 else { s with links := s.links.put l L }).links =
        s.links.put l L := by
    split
    · exact links_post ..
    · rfl
  refine ⟨_, hexec, ?_, ?_, fun hn => by rw [if_neg hn]⟩
  · rw [hlinks, SMap.get, SMap.find?_put_self]
    rfl
  · rw [hlinks, SMap.get, SMap.find?_put_self]
    rfl

theorem linkRetrain_ok {l : Nat} (hl : isLink l = true) (hfar : isFarLink l = false) (hdead : (s.links.get {} l).dead = false)
    (htrain : (s.links.get {} l).training = true) :
    exec (.linkRetrain l true) s = .next { s with
      links := s.links.put l { s.links.get {} l with training := false, attempts := 0, replays := 0 } } := by
  change execLinkRetrain l true s = _
  simp only [execLinkRetrain, hl, hfar, hdead, htrain, Bool.not_true, Bool.or_self, Bool.false_eq_true, if_false, if_true]

theorem linkRetrain_again {l : Nat} (hl : isLink l = true) (hfar : isFarLink l = false) (hdead : (s.links.get {} l).dead = false)
    (htrain : (s.links.get {} l).training = true) (ha : (s.links.get {} l).attempts < 2) :
    exec (.linkRetrain l false) s = .next { s with
      links := s.links.put l { s.links.get {} l with attempts := (s.links.get {} l).attempts + 1 } } := by
  change execLinkRetrain l false s = _
  simp only [execLinkRetrain, hl, hfar, hdead, htrain, ha, Bool.not_true, Bool.or_self, Bool.false_eq_true, if_false, if_true]

theorem linkRetrain_dies {l : Nat} (hl : isLink l = true) (hfar : isFarLink l = false) (hdead : (s.links.get {} l).dead = false)
    (htrain : (s.links.get {} l).training = true) (ha : 2 ≤ (s.links.get {} l).attempts) :
    ∃ t, exec (.linkRetrain l false) s = .next t ∧ (t.links.get {} l).dead = true ∧
      ∀ id r, s.requests.find? id = some r → ∃ r', t.requests.find? id = some r' ∧
        let own := Config.deviceNumber.toNat
        r' = if r.device = own ∨ t.route own r.device = s.route own r.device then r
          else if (t.routeTo r.device).isSome then { r with sentAt := s.now } else { r with deadAt := some s.now } := by
  have hexec : exec (.linkRetrain l false) s = .next (s.linkDies l (s.links.get {} l)) := by
    change execLinkRetrain l false s = _
    simp only [execLinkRetrain, hl, hfar, hdead, htrain, not_lt.mpr ha, Bool.not_true, Bool.or_self, Bool.false_eq_true, if_false]
  refine ⟨_, hexec, ?_, fun id r hr => ⟨_, by rw [State.linkDies, SMap.find?_mapV, hr, Option.map_some], ?_⟩⟩
  · simp only [State.linkDies, SMap.get, SMap.find?_put_self, Option.getD_some]
  · simp only [State.reroute, Bool.or_eq_true, decide_eq_true_eq]
    rfl

end Sys2Proof.Machine
end

section
/-! SUPPORT of O52. The events of monitors (R293, R294): evaluations that end no wait, and a lane whose wait has ended. -/

namespace Sys2Proof.Machine

variable {s t u : State} {k l id : Nat} {G H : Gang} {M : Monitor} {w : MonWait}

/-- A waiter's condition meets its word, or its token is lost. -/
def State.Meets (s : State) (p : Place) (w : MonWait) : Prop :=
  s.lost p w.cond = true ∨ (s.watched p).2 = false ∧ w.cond.holds (s.watched p).1 = true

theorem outcome_of_not_meets {p : Place} (h : ¬s.Meets p w) : s.outcome p w.cond = none := by
  obtain ⟨hlost, hholds⟩ := not_or.mp h
  rw [State.outcome, if_neg hlost]
  cases hp : (s.watched p).2 <;> simp_all

theorem outcome_of_meets {p : Place} (h : s.Meets p w) :
    s.outcome p w.cond = some (if s.lost p w.cond then 3 else w.cond.value (s.watched p).1) := by
  unfold State.outcome
  rcases h with h | ⟨hp, hh⟩
  · rw [if_pos h, if_pos h]
  · split
    · rfl
    · simp [hp, hh]

theorem evaluate_of_none {o : MonCond → Option DWord} (h : o w.cond = none) : w.evaluate o = w := by
  unfold MonWait.evaluate
  rw [h]
  cases w.ended <;> rfl

theorem evaluate_of_some {o : MonCond → Option DWord} {v : DWord} (he : w.ended = none) (h : o w.cond = some v) :
    w.evaluate o = { w with ended := some (v, false) } := by
  simp only [MonWait.evaluate, h, he]

-- Where no wait has ended

/-- No waiter's wait has ended. -/
def State.Unended (s : State) : Prop := ∀ m ∈ s.monitors, ∀ w ∈ m.2.waiters, w.ended = none

theorem endedOf_of_unended (h : s.Unended) (w : Waiter) : s.endedOf w = none := by
  refine List.findSome?_eq_none_iff.mpr fun m hm => ?_
  cases hf : m.2.waiters.find? (·.who == w) with
  | none => rfl
  | some x => exact h m hm x (List.mem_of_find?_eq_some hf)

theorem finishWait_of_unended (h : s.Unended) (k : Nat) (w : Wait) : s.finishWait k w = s := by
  unfold State.finishWait
  split
  · cases hl : lanesOf w.lanes <;> simp [endedOf_of_unended h]
  all_goals rfl

theorem finishSeqWait_of_unended (h : s.Unended) (b : Nat) (mx : Bool) : s.finishSeqWait b mx = s := by
  unfold State.finishSeqWait
  rw [endedOf_of_unended h]
  cases s.blocks.find? b with
  | none => rfl
  | some B => cases hq : (B.seq mx).wait <;> simp only [hq]

/-- Where no wait has ended nothing goes on. -/
theorem finishWaits_of_unended (h : s.Unended) : s.finishWaits = s := by
  have hgang (g : Nat × Gang) : g.2.waits.foldl (fun s w => s.finishWait g.1 w) s = s :=
    List.foldl_fixed' (finishWait_of_unended h g.1) _
  have hgangs : s.gangs.foldl (fun s g => g.2.waits.foldl (fun s w => s.finishWait g.1 w) s) s = s := List.foldl_fixed' hgang _
  rw [State.finishWaits, hgangs]
  exact List.foldl_fixed' (fun b => by rw [finishSeqWait_of_unended h, finishSeqWait_of_unended h]) _

theorem unended_put (h : s.Unended) (id : Nat) (hM : ∀ w ∈ M.waiters, w.ended = none) :
    State.Unended { s with monitors := s.monitors.put id M } := by
  intro m hm
  rcases SMap.mem_put hm with rfl | hm
  · exact hM
  · exact h m hm

theorem unended_of_find (h : s.Unended) (hM : s.monitors.find? id = some M) : ∀ w ∈ M.waiters, w.ended = none :=
  h _ (mem_of_find? hM)

/-- A monitor none of whose waiters' conditions is met is evaluated, and no wait ends. -/
theorem evaluate_idle (hend : s.Unended) (hM : s.monitors.find? id = some M) (hno : ∀ w ∈ M.waiters, ¬s.Meets M.place w) :
    (s.evaluate id).finishWaits = { s with monitors := s.monitors.put id { M with pending := false } } := by
  have hsame : M.waiters.map (·.evaluate (s.outcome M.place)) = M.waiters :=
    (List.map_congr_left fun w hw => evaluate_of_none (outcome_of_not_meets (hno w hw))).trans (List.map_id _)
  have heval : s.evaluate id = { s with monitors := s.monitors.put id { M with pending := false } } := by
    simp only [State.evaluate, hM, hsame]
  rw [heval]
  exact finishWaits_of_unended (unended_put (M := { M with pending := false }) hend id
    (fun w hw => unended_of_find hend hM w hw))

/-- An evaluation's event evaluates its monitor. -/
theorem exec_evaluates {i : Instr} (hM : s.monitors.find? id = some M)
    (hi : i = .monitorEvaluate id ∧ M.pending = true ∧ M.seat ≠ .polling ∨ i = .monitorPoll id ∧ M.seat = .polling) :
    exec i s = .next (s.evaluate id).finishWaits := by
  rcases hi with ⟨rfl, hp, hs⟩ | ⟨rfl, hs⟩
  · change execMonitorEvaluate id s = _
    simp only [execMonitorEvaluate, hM, hp, bne_iff_ne.mpr hs, Bool.and_self, if_true]
  · change execMonitorPoll id s = _
    simp only [execMonitorPoll, hM, hs, beq_self_eq_true, if_true]

-- Where one wait has ended

theorem beside_unwatch (s : State) (w : Waiter) : (s.unwatch w).beside = s.beside := rfl

theorem beside_freeMonitors (s : State) : s.freeMonitors.beside = s.beside := rfl

/-- A lane that goes on from its wait: with the value in D, behind its instruction, and no longer waiting. -/
def Gang.resumed (G : Gang) (l : Nat) (d : BitVec 8) (v : DWord) (p : Bool) : Gang :=
  ((G.putLane l ((G.lane l).putX d.toNat (v.setWidth 32) p)).unwait (laneBit l)).advance (laneBit l)

theorem finishWait_resumes (hG : s.gangs.find? k = some G) (hl : l < 32) {v : DWord} {p : Bool}
    (he : s.endedOf (.lane k l) = some (v, p)) (pc : DWord) (n : Nat) (d : BitVec 8) :
    (s.finishWait k ⟨laneBit l, pc, .monitor n d false none⟩).beside = (s.setGang k (G.resumed l d v p)).beside := by
  have hrefresh (ps : List Place) (s : State) : (ps.foldl (fun s p => s.refreshAt (coreOf k) p) s).beside = s.beside :=
    beside_foldl (fun s p => beside_refreshAt s (coreOf k) p) ps s
  simp only [State.finishWait, lanesOf_laneBit hl, he, List.map_cons, List.map_nil, List.isEmpty_cons, List.any_cons,
    List.any_nil, Option.isNone_some, Bool.or_false, Bool.false_eq_true, if_false, List.foldl_cons, List.foldl_nil, onGang_of_find hG]
  rw [beside_freeMonitors, beside_unwatch, hrefresh]
  rfl

theorem waits_resumed {pc : DWord} {n : Nat} {d : BitVec 8} {v : DWord} {p : Bool} (hl : l < 32)
    (hw : G.waits = [⟨laneBit l, pc, .monitor n d false none⟩]) : (G.resumed l d v p).waits = [] := by
  have hbit : laneBit l ≠ 0#32 := by
    intro h
    simpa [h, lanesOf] using lanesOf_laneBit hl
  rw [Gang.resumed, waits_advance]
  simp [Gang.unwait, Gang.putLane, hw, hbit]

theorem lane_resumed (hl : l < 32) (hlen : l < G.lanes.length) (d : BitVec 8) (v : DWord) (p : Bool) :
    (G.resumed l d v p).lane l = onward ((G.lane l).putX d.toNat (v.setWidth 32) p) := by
  have hlen' : l < ((G.putLane l ((G.lane l).putX d.toNat (v.setWidth 32) p)).unwait (laneBit l)).lanes.length :=
    (length_putLane G l _).symm ▸ hlen
  rw [Gang.resumed, lane_advance, lanesOf_laneBit hl, if_pos ⟨List.mem_singleton.mpr rfl, hlen'⟩]
  exact congrArg onward (lane_putLane_self _ hlen)

/-- A gang whose one waiting lane's wait has ended goes on with its value. -/
theorem finishWaits_resumes (hg : s.gangs = [(k, G)]) (hb : s.blocks = []) {pc : DWord} {n : Nat} {d : BitVec 8}
    (hw : G.waits = [⟨laneBit l, pc, .monitor n d false none⟩]) (hl : l < 32) (hrun : (G.lane l).life = .running)
    {v : DWord} {p : Bool} (he : s.endedOf (.lane k l) = some (v, p)) :
    ∃ H, s.finishWaits.gangs = [(k, H)] ∧ H.waits = [] ∧ (H.lane l).pc = succ (G.lane l).pc ∧
      (d ≠ 0 → (H.view l).reg ⟨false, d⟩ = (v.setWidth 32, p)) := by
  have hfind : s.gangs.find? k = some G := by simp [hg, SMap.find?]
  have hbeside := finishWait_resumes hfind hl he pc n d
  have hgangs : (s.finishWait k ⟨laneBit l, pc, .monitor n d false none⟩).gangs = [(k, G.resumed l d v p)] := by
    rw [gangs_of_beside hbeside, State.setGang_gangs, hg]
    simp [SMap.put]
  have hblocks : (s.finishWait k ⟨laneBit l, pc, .monitor n d false none⟩).blocks = [] :=
    (blocks_of_beside hbeside).trans hb
  have hfinish : s.finishWaits = s.finishWait k ⟨laneBit l, pc, .monitor n d false none⟩ := by
    simp only [State.finishWaits, hg, List.foldl_cons, List.foldl_nil, hw, hblocks]
  have hlane := lane_resumed hl (lt_of_running hrun) d v p
  refine ⟨_, hfinish ▸ hgangs, waits_resumed hl hw, ?_, fun hd => ?_⟩
  · rw [hlane, putX_eq]
    rfl
  · have hn : d.toNat ≠ 0 := fun h => hd (BitVec.eq_of_toNat_eq h)
    rw [view_reg_x, if_neg hd, hlane]
    simp [Lane.putX, hn]

/-- A monitor whose one waiter is the lane has the end of that lane's wait. -/
theorem endedOf_single {e : Option (DWord × Bool)} (hm : s.monitors = [(id, M)]) (hw : M.waiters = [w])
    (hwho : w.who = .lane k l) (he : w.ended = e) : s.endedOf (.lane k l) = e := by
  simp only [State.endedOf, hm, List.findSome?_cons, List.findSome?_nil, hw, List.find?_cons, hwho,
    beq_self_eq_true, Option.bind_some, he]
  cases e <;> rfl

theorem evaluate_resumes (hm : s.monitors = [(id, M)]) (hw : M.waiters = [w]) (he : w.ended = none) (hmeets : s.Meets M.place w)
    (hwho : w.who = .lane k l) (hl : l < 32) (hg : s.gangs = [(k, G)]) (hb : s.blocks = []) {pc : DWord} {n : Nat} {d : BitVec 8}
    (hwaits : G.waits = [⟨laneBit l, pc, .monitor n d false none⟩]) (hrun : (G.lane l).life = .running) :
    ∃ H, (s.evaluate id).finishWaits.gangs = [(k, H)] ∧ H.waits = [] ∧ (H.lane l).pc = succ (G.lane l).pc ∧
      (d ≠ 0 → (H.view l).reg ⟨false, d⟩ =
        ((if s.lost M.place w.cond then 3 else w.cond.value (s.watched M.place).1).setWidth 32, false)) := by
  have hM : s.monitors.find? id = some M := by simp [hm, SMap.find?]
  have heval := evaluate_of_some he (outcome_of_meets hmeets)
  refine finishWaits_resumes (s := s.evaluate id) (by simp only [State.evaluate, hM]; exact hg)
    (by simp only [State.evaluate, hM]; exact hb) hwaits hl hrun ?_
  refine endedOf_single (id := id) (M := { M with pending := false, waiters := M.waiters.map (·.evaluate (s.outcome M.place)) })
    (w := w.evaluate (s.outcome M.place)) ?_ ?_ ?_ ?_
  · simp [State.evaluate, hm, SMap.find?, SMap.put]
  · simp [hw]
  · rw [heval]; exact hwho
  · rw [heval]

-- The limit of a wait (R294)

/-- The state after the limit of a lane's wait has been looked at, before what has ended goes on. -/
theorem exec_waitaTimeout (hm : s.monitors = [(id, M)]) (hw : M.waiters = [w]) (hwho : w.who = .lane k l) :
    exec (.waitaTimeout k l) s = .next ({ s with monitors := [(id, { M with waiters :=
      [w.expire (s.counter (k / 16 / 512)).toNat (s.watched M.place) (s.outcome M.place)] })] } : State).finishWaits := by
  change execWaitaTimeout k l s = _
  simp only [execWaitaTimeout, hm, SMap.mapV, List.map_cons, List.map_nil, hw, hwho, beq_self_eq_true, if_true]
  rfl

theorem expire_of_early {n x : Nat} {word : DWord × Bool} {o : MonCond → Option DWord} (ho : o w.cond = none)
    (hx : w.limit = some x) (hn : n < x) : w.expire n word o = w := by
  simp [MonWait.expire, evaluate_of_none ho, hx, not_le.mpr hn]

theorem expire_of_late {n x : Nat} {word : DWord × Bool} {o : MonCond → Option DWord} (ho : o w.cond = none) (he : w.ended = none)
    (hx : w.limit = some x) (hn : x ≤ n) : w.expire n word o = { w with ended := some (w.cond.value word.1, word.2) } := by
  simp [MonWait.expire, evaluate_of_none ho, he, hx, hn]

theorem waitaTimeout_early {x : Nat} (hend : s.Unended) (hm : s.monitors = [(id, M)]) (hw : M.waiters = [w])
    (hwho : w.who = .lane k l) (hno : ¬s.Meets M.place w) (hx : w.limit = some x)
    (hn : (s.counter (k / 16 / 512)).toNat < x) : exec (.waitaTimeout k l) s = .next s := by
  rw [exec_waitaTimeout hm hw hwho, expire_of_early (outcome_of_not_meets hno) hx hn, ← hw]
  change Host.Outcome.next ({ s with monitors := [(id, M)] } : State).finishWaits = _
  rw [← hm]
  exact congrArg _ (finishWaits_of_unended hend)

theorem waitaTimeout_late {x : Nat} (he : w.ended = none) (hm : s.monitors = [(id, M)]) (hw : M.waiters = [w])
    (hwho : w.who = .lane k l) (hno : ¬s.Meets M.place w) (hx : w.limit = some x) (hn : x ≤ (s.counter (k / 16 / 512)).toNat)
    (hl : l < 32) (hg : s.gangs = [(k, G)]) (hb : s.blocks = []) {pc : DWord} {n : Nat} {d : BitVec 8}
    (hwaits : G.waits = [⟨laneBit l, pc, .monitor n d false none⟩]) (hrun : (G.lane l).life = .running) :
    ∃ t H, exec (.waitaTimeout k l) s = .next t ∧ t.gangs = [(k, H)] ∧ H.waits = [] ∧ (H.lane l).pc = succ (G.lane l).pc ∧
      (d ≠ 0 → (H.view l).reg ⟨false, d⟩ =
        ((w.cond.value (s.watched M.place).1).setWidth 32, (s.watched M.place).2)) := by
  have hexpire := expire_of_late (word := s.watched M.place) (outcome_of_not_meets hno) he hx hn
  obtain ⟨H, hH⟩ := finishWaits_resumes (s := { s with monitors := [(id, { M with waiters :=
      [w.expire (s.counter (k / 16 / 512)).toNat (s.watched M.place) (s.outcome M.place)] })] }) hg hb hwaits hl hrun
    (endedOf_single rfl rfl (by rw [hexpire]; exact hwho) (by rw [hexpire]))
  exact ⟨_, H, exec_waitaTimeout hm hw hwho, hH⟩

end Sys2Proof.Machine
end

section
/-! SUPPORT. What traps, leaving lanes and the ends of batches leave alone: the copies, the tokens of faulted copies, and the bytes
of the blocks' windows. -/

namespace Sys2Proof.Machine

variable {s t u : State} {k l b : Nat} {G : Gang}

/-- The bytes of a block's window, where there is such a block. -/
def State.window (s : State) (b : Nat) : Option (List Host.Cell) := (s.blocks.find? b).map (·.ls)

/-- The copies, the tokens of faulted copies, and the windows of the blocks. -/
def State.stores (s : State) : SMap Copy × SMap CopyToken × (Nat → Option (List Host.Cell)) := (s.copies, s.copyTokens, s.window)

theorem stores_of_beside (h : t.beside = s.beside) : t.stores = s.stores := (congrArg State.stores h :)

theorem stores_foldl {α : Type} {f : State → α → State} (hf : ∀ s x, (f s x).stores = s.stores) (xs : List α) (s : State) :
    (xs.foldl f s).stores = s.stores := by
  induction xs generalizing s with
  | nil => rfl
  | cons x xs ih => exact (ih _).trans (hf s x)

theorem stores_onGang (s : State) (k : Nat) (f : Gang → Gang) : (s.onGang k f).stores = s.stores := by
  unfold State.onGang
  split <;> rfl

theorem stores_onGangAt (s : State) (k : Nat) (f : Gang → Gang) : (s.onGangAt k f).stores = s.stores := by
  unfold State.onGangAt
  split
  · rfl
  · exact stores_onGang s k f

/-- A change of a block that leaves its window. -/
theorem stores_onBlock (s : State) (b : Nat) {f : Block → Block} (hf : ∀ B, (f B).ls = B.ls) :
    (s.onBlock b f).stores = s.stores := by
  unfold State.onBlock
  split
  next B hB =>
    refine congrArg (fun w => (s.copies, s.copyTokens, w)) (funext fun n => ?_)
    by_cases hn : n = b
    · subst hn
      simp [State.window, State.setBlock, hB, hf]
    · simp [State.window, State.setBlock, SMap.find?_put_of_ne _ _ hn]
  · rfl

theorem stores_setBarrier (s : State) (r : BarRef) (b : Barrier) : (s.setBarrier r b).stores = s.stores := by
  cases r with
  | gang k =>
    dsimp only [State.setBarrier]
    split
    · exact stores_onBlock s _ fun _ => rfl
    · rfl
  | blk k n => exact stores_onBlock s k fun _ => rfl
  | ens e n => dsimp only [State.setBarrier]; split <;> rfl
  | coop t n => dsimp only [State.setBarrier]; split <;> rfl

theorem stores_acquireAt (s : State) (c : Nat) (sc : Scope) : (s.acquireAt c sc).stores = s.stores :=
  stores_of_beside (beside_acquireAt s c sc)

-- Barriers and rendezvous

theorem stores_releaseBar (s : State) (r : BarRef) (phase k : Nat) : (s.releaseBar r phase k).stores = s.stores := by
  dsimp only [State.releaseBar]
  split
  · rfl
  split
  · exact stores_onGangAt s k _
  · exact (stores_acquireAt _ _ _).trans (stores_onGangAt s k _)

theorem stores_settleBar (s : State) (r : BarRef) : (s.settleBar r).stores = s.stores := by
  dsimp only [State.settleBar]
  split
  · rfl
  · exact (stores_foldl (fun s k => stores_releaseBar s r _ k) _ _).trans (stores_setBarrier s r _)

theorem stores_releaseRdv (s : State) (b n : Nat) : (s.releaseRdv b n).stores = s.stores := by
  dsimp only [State.releaseRdv]
  split
  · rfl
  · refine (stores_onBlock _ b ?_).trans (stores_foldl (fun s sl => stores_onGang s _ _) _ s)
    exact fun _ => rfl

theorem stores_settlePoint (s : State) (b n : Nat) : (s.settlePoint b n).stores = s.stores := by
  dsimp only [State.settlePoint]
  split
  · rfl
  split
  · rfl
  split
  · rfl
  · exact (stores_releaseRdv _ b n).trans (stores_onBlock s b fun _ => rfl)

theorem stores_settleParty (s : State) (b : Nat) : (s.settleParty b).stores = s.stores := by
  dsimp only [State.settleParty]
  refine (stores_onBlock _ b ?_).trans (stores_foldl (fun s n => stores_settlePoint s b n) _ s)
  intro B
  split
  · split <;> rfl
  · rfl

theorem stores_settleAll (s : State) (k : Nat) : (s.settleAll k).stores = s.stores := by
  dsimp only [State.settleAll]
  split
  · exact stores_onGang s k _
  split
  · exact stores_onGang s k _
  · exact (stores_settleParty _ _).trans ((stores_foldl (fun s r => stores_settleBar s r) _ _).trans (stores_onGang s k _))

-- Lanes that leave or trap

theorem stores_withdraw (s : State) (k l : Nat) : (s.withdraw k l).stores = s.stores := by
  dsimp only [State.withdraw]
  split
  · rfl
  next G hG =>
    generalize hu : s.onBlock G.block _ = u
    have hus : u.stores = s.stores := by
      rw [← hu]
      exact stores_onBlock s G.block fun _ => rfl
    split
    · exact hus
    · split <;> exact hus

theorem stores_withdrawWait (s : State) (k l : Nat) (again : Bool) : (s.withdrawWait k l again).stores = s.stores := by
  dsimp only [State.withdrawWait]
  split
  · rfl
  · refine stores_foldl (fun s w => ?_) _ s
    split
    · exact stores_setBarrier s _ _
    · split
      · exact stores_setBarrier s _ _
      · rfl
    · exact stores_onBlock s _ fun _ => rfl
    all_goals rfl

theorem stores_callAway (s : State) (k l : Nat) : (s.callAway k l).stores = s.stores := by
  unfold State.callAway
  split
  · exact stores_withdrawWait s k l false
  · rfl

theorem stores_leave (s : State) (k l : Nat) : (s.leave k l).stores = s.stores :=
  (stores_settleAll _ k).trans ((stores_onGang _ k _).trans (stores_withdraw s k l))

theorem stores_killLane (s : State) (k l : Nat) : (s.killLane k l).stores = s.stores := by
  have hmark : (s.markKilled k).stores = s.stores := by
    unfold State.markKilled
    split <;> rfl
  unfold State.killLane
  split
  · rfl
  · exact (stores_leave _ k l).trans hmark

theorem stores_trap (s : State) (k l : Nat) (c : BitVec 8) (v pc : DWord) (host migrating : Bool) :
    (s.trap k l c v pc host migrating).stores = s.stores := by
  dsimp only [State.trap]
  split
  · rfl
  split
  · exact (stores_killLane _ k l).trans (stores_of_beside (beside_post _ _ _ _))
  · exact (stores_onGang _ k _).trans (stores_callAway s k l)

-- Batches

theorem stores_cpwaitEnd (s : State) (k : Nat) (m : Mask) : (s.cpwaitEnd k m).stores = s.stores := by
  dsimp only [State.cpwaitEnd]
  split
  · rfl
  split
  · exact stores_onGang s k _
  split
  · exact (stores_trap _ _ _ _ _ _ _ _).trans (stores_onGang _ k _)
  · exact stores_onGang s k _

theorem stores_settleBatches (s : State) (k : Nat) : (s.settleBatches k).stores = s.stores := by
  dsimp only [State.settleBatches]
  split
  · exact stores_onGang s k _
  · refine (stores_foldl (fun s w => ?_) _ _).trans (stores_onGang s k _)
    split
    · split
      · exact (stores_cpwaitEnd _ k _).trans (stores_onGang s k _)
      · rfl
    all_goals rfl

end Sys2Proof.Machine
end

section
/-! O52: the events of the fabric. Packets of copies and faulted copies (R235, R247) stand here; the other events' lemmas stand
above. -/

namespace Sys2Proof.Machine

variable {s t u : State} {k b id : Nat} {G : Gang} {c : Copy} {p : Packet}

-- Bytes of windows

/-- The byte at an offset of a block's window; 0 where there is no such block. -/
def State.windowByte (s : State) (b a : Nat) : Byte := (s.window b).elim 0 fun m => SMap.get emptyByte m a

theorem lsRead_bytes (s : State) (b a n : Nat) :
    (s.lsRead b a n).map (·.1) = (List.range n).map fun i => s.windowByte b (a + i) := by
  unfold State.lsRead State.windowByte State.window
  cases s.blocks.find? b with
  | none => simp [List.map_const']
  | some B => simp [Block.lsRead, Function.comp_def]

theorem lsRead_byte (s : State) (b a : Nat) : (s.lsRead b a 1).map (·.1) = [s.windowByte b a] := lsRead_bytes s b a 1

/-- A table after a run of bytes has been written at an address. -/
theorem get_foldl_runAt (bs : List PByte) (y a : Nat) (m : List Host.Cell) :
    SMap.get emptyByte ((runAt y bs).foldl (fun m e => SMap.write emptyByte m e.1 e.2.1) m) a =
      if y ≤ a ∧ a < y + bs.length then ((bs.map (·.1)).getD (a - y) 0) else SMap.get emptyByte m a := by
  induction bs generalizing y m with
  | nil =>
    rw [if_neg (by simp)]
    rfl
  | cons b bs ih =>
    rw [runAt, List.foldl_cons, ih]
    rcases Nat.lt_trichotomy a y with h | rfl | h
    · rw [if_neg (by omega), if_neg (by omega), SMap.get_write_of_ne _ _ (by omega)]
    · rw [if_neg (by omega), if_pos (by simp), SMap.get_write_self]
      simp
    · have hsub : a - y = a - (y + 1) + 1 := by omega
      by_cases ha : a < y + 1 + bs.length
      · rw [if_pos ⟨h, ha⟩, if_pos ⟨by omega, by simp; omega⟩, hsub]
        simp
      · rw [if_neg (by omega), if_neg (by simp; omega), SMap.get_write_of_ne _ _ (by omega)]

theorem window_lsWrite {v : Nat} {B : Block} (hB : s.blocks.find? v = some B) (ws : SMap PByte) :
    (s.lsWrite v ws).window v = some (ws.foldl (fun m e => SMap.write emptyByte m e.1 e.2.1) B.ls) := by
  simp [State.lsWrite, hB, State.wake, State.window, State.setBlock, Block.lsWrite]

/-- A window's byte after a run of another's bytes has been written into it. -/
theorem windowByte_copied {v : Nat} (hv : (s.blocks.find? v).isSome) (w x y n a : Nat) :
    (s.lsWrite v (runAt y (s.lsRead w x n))).windowByte v a =
      if y ≤ a ∧ a < y + n then s.windowByte w (x + (a - y)) else s.windowByte v a := by
  obtain ⟨B, hB⟩ := Option.isSome_iff_exists.mp hv
  have hlen : (s.lsRead w x n).length = n := by simpa using congrArg List.length (lsRead_bytes s w x n)
  have hold : s.windowByte v a = SMap.get emptyByte B.ls a := by simp [State.windowByte, State.window, hB]
  rw [State.windowByte, window_lsWrite hB, Option.elim_some, get_foldl_runAt, hlen, lsRead_bytes, hold]
  by_cases ha : y ≤ a ∧ a < y + n
  · have hi : a - y < n := by omega
    rw [if_pos ha, if_pos ha, List.getD_eq_getElem _ _ (by simpa using hi)]
    simp
  · rw [if_neg ha, if_neg ha]

-- Packets

theorem window_of_stores (h : t.stores = s.stores) : t.window = s.window := congrArg (·.2.2) h

theorem stores_copyRctr (s : State) (c : Copy) : (s.copyRctr c).stores = s.stores := by
  unfold State.copyRctr
  split
  · rfl
  · refine stores_foldl (fun s _ => ?_) c.dsts s
    split
    · exact stores_of_beside (beside_countMem s _ _ _)
    · rfl
    · rfl

theorem window_finishCopy (s : State) (id : Nat) (c : Copy) : (s.finishCopy id c).window = s.window := by
  dsimp only [State.finishCopy]
  split
  · exact (window_of_stores (stores_settleBatches _ _)).trans rfl
  · rfl

theorem window_endPiece (s : State) (id : Nat) (c : Copy) : (s.endPiece id c).window = s.window := by
  unfold State.endPiece
  split
  · exact (window_finishCopy _ id c).trans (window_of_stores (stores_copyRctr s c))
  · rfl

/-- A packet of a copy without counters leaves the windows when it is counted. -/
theorem window_packetDone (s : State) (id : Nat) (hc : c.counters = []) (p : Packet) :
    (s.packetDone id c p).window = s.window := by
  simp only [State.packetDone, hc, List.foldl_nil]
  split
  · rfl
  · exact window_endPiece s id _

/-- A packet between windows of this device. -/
theorem doPacket_windows {w x v y : Nat} (hp : p ∈ c.todo) (harr : c.arrived = [])
    (hnear : ∀ q ∈ c.todo, ∀ d o, s.copySite c c.srcAt c.src false q.src ≠ .global d o)
    (hsrc : s.copySite c c.srcAt c.src false p.src = .ls w x)
    (hdst : c.dsts.map (fun d => s.copySite c d c.dst c.multi p.dst) = [.ls v y]) :
    s.doPacket id c p = (s.lsWrite v (runAt y (s.lsRead w x p.len))).packetDone id c p := by
  have hmissing : c.todo.filter (fun q => (c.arrived.find? q.src).isNone) = c.todo := by
    rw [List.filter_eq_self, harr]
    exact fun _ _ => rfl
  obtain ⟨q, hq, hhead⟩ : ∃ q ∈ c.todo, c.todo.headD p = q := by
    cases htodo : c.todo with
    | nil => rw [htodo] at hp; cases hp
    | cons q qs => exact ⟨q, by simp, rfl⟩
  have hbytes : s.packetBytes c p = (s, s.lsRead w x p.len) := by
    simp only [State.packetBytes, hsrc]
  unfold State.doPacket
  dsimp only
  rw [hmissing, hhead]
  split
  next d o _ _ hglobal _ => exact absurd hglobal (hnear q hq d o)
  all_goals
    simp only [hbytes, hdst]
    rfl

theorem copyPacketPerformed_windows {w x v y : Nat} (hc : s.copies.find? id = some c) (hfault : c.fault = none)
    (hawait : c.awaiting = none) (harr : c.arrived = []) (hcount : c.counters = [])
    (hp : c.todo[Config.freeNat s.ctr id % c.todo.length]? = some p)
    (hnear : ∀ q ∈ c.todo, ∀ d o, s.copySite c c.srcAt c.src false q.src ≠ .global d o)
    (hsrc : s.copySite c c.srcAt c.src false p.src = .ls w x)
    (hdst : c.dsts.map (fun d => s.copySite c d c.dst c.multi p.dst) = [.ls v y]) (hv : (s.blocks.find? v).isSome) :
    ∃ t, exec (.copyPacketPerformed id) s = .next t ∧ ∀ a, (t.lsRead v a 1).map (·.1) =
      if y ≤ a ∧ a < y + p.len then (s.lsRead w (x + (a - y)) 1).map (·.1) else (s.lsRead v a 1).map (·.1) := by
  have hmem : p ∈ c.todo := List.mem_of_getElem? hp
  have hbusy : c.todo.isEmpty = false := List.isEmpty_eq_false_iff.mpr (List.ne_nil_of_mem hmem)
  have hexec : exec (.copyPacketPerformed id) s = .next (s.doPacket id c p) := by
    change execCopyPacketPerformed id s = _
    simp only [execCopyPacketPerformed, hc, hfault, hawait, hbusy, hp, Option.any_some, Option.isNone_none, Option.isSome_none,
      Bool.and_false, Bool.false_and, Bool.or_self, Bool.false_eq_true, if_false]
  refine ⟨_, hexec, fun a => ?_⟩
  have hwin : (s.doPacket id c p).windowByte v a = (s.lsWrite v (runAt y (s.lsRead w x p.len))).windowByte v a := by
    rw [doPacket_windows hmem harr hnear hsrc hdst, State.windowByte, window_packetDone _ _ hcount]
    rfl
  rw [lsRead_byte, lsRead_byte, lsRead_byte, hwin, windowByte_copied hv]
  split <;> rfl

-- Faulted copies

theorem copyFault_reported {cause : BitVec 8} {v : DWord} {host mig : Bool} {tok : Word} (hc : s.copies.find? id = some c)
    (hfault : c.fault = some (cause, v, host, mig)) (hgang : c.gang = some k)
    (hroom : s.canPost (c.core / 512) (c.ctx + 1) = true) (hlive : s.gangLives k = true)
    (hpost : s.post (c.core / 512) (c.ctx + 1) (s.copyRecord c cause v host mig) = (u, some tok)) :
    ∃ t, exec (.copyFault id) s = .next t ∧ t.copies = s.copies.del id ∧
      (t.copyTokens.find? (tokenKey c.ctx tok.toNat)).isSome := by
  have hexec : exec (.copyFault id) s = .next (s.reportCopy id c cause v host mig) := by
    change execCopyFault id s = _
    simp only [execCopyFault, hc, hfault, Option.any_some, Option.isNone_some, Bool.false_and, Bool.false_eq_true, if_false]
  have hreport : s.reportCopy id c cause v host mig = (u.noteFault c tok.toNat).finishCopy id c := by
    have hroom' : (!s.canPost (coreNode c.core) (c.ctx + 1)) = false := by rw [coreNode, hroom]; rfl
    have hpost' : s.post (coreNode c.core) (c.ctx + 1) (s.copyRecord c cause v host mig) = (u, some tok) := hpost
    simp only [State.reportCopy, hroom', hgang, hlive, hpost', Bool.not_true, Bool.false_eq_true, if_false]
  have hu : u.copies = s.copies := by
    have hbeside := beside_post s (c.core / 512) (c.ctx + 1) (s.copyRecord c cause v host mig)
    rw [hpost] at hbeside
    exact (congrArg State.copies hbeside :)
  have hnoted : (u.noteFault c tok.toNat).copies = s.copies ∧
      ((u.noteFault c tok.toNat).copyTokens.find? (tokenKey c.ctx tok.toNat)).isSome := by
    simp only [State.noteFault, hgang, SMap.find?_put_self, Option.isSome_some, and_true]
    exact (congrArg (·.1) (stores_onGang u k _) :).trans hu
  have hfinish : ((u.noteFault c tok.toNat).finishCopy id c).stores =
      ({ u.noteFault c tok.toNat with copies := (u.noteFault c tok.toNat).copies.del id } : State).stores := by
    simp only [State.finishCopy, hgang]
    exact stores_settleBatches _ k
  have hcopies : ((u.noteFault c tok.toNat).finishCopy id c).copies = (u.noteFault c tok.toNat).copies.del id :=
    (congrArg (·.1) hfinish :)
  have htokens : ((u.noteFault c tok.toNat).finishCopy id c).copyTokens = (u.noteFault c tok.toNat).copyTokens :=
    (congrArg (·.2.1) hfinish :)
  exact ⟨_, hexec.trans (congrArg _ hreport), by rw [hcopies, hnoted.1], by rw [htokens]; exact hnoted.2⟩

/-- Settles O52, event by event: what each leaves is the lemma about it. The wait of a lane that goes on ends by
`finishWaits_resumes`; where no condition is met, `finishWaits_of_unended` has nothing go on. -/
theorem fabricEventResults : Obligations.FabricEventResults := by
  unfold Obligations.FabricEventResults
  intro s
  refine ⟨instructionRefetch_leaves s, ?walking, ?walked, ?packet, ?fault, ?combine, ?arrived, ?requests, ?noLink, ?links, ?monitors⟩
  case walking => exact fun id w hw => (walkDone_leaves hw).1
  case walked => exact fun id w hw => (walkDone_leaves hw).2
  case packet =>
    exact fun id c p w x v y hc hfault hawait harr hcount hp hnear hsrc hdst hv =>
      copyPacketPerformed_windows hc hfault hawait harr hcount hp hnear hsrc hdst hv
  case fault =>
    exact fun id c cause v host mig k u tok hc hfault hgang hroom hlive hpost =>
      copyFault_reported hc hfault hgang hroom hlive hpost
  case combine => exact fun c i e he => combineTimeout_sends he
  case arrived =>
    intro source vmid seq secure off kind hs
    refine ⟨fun r h => remoteRequest_recorded hs h, ?_⟩
    rintro bs u ag base v ps rfl h hb hw
    exact remoteRequest_store hs h hb hw
  case requests =>
    intro id r hr
    exact ⟨fun hidle hd => remoteReply_nack hr hidle hd,
      fun n bs k G hidle hd hkind horigin hlen hown hgang hG => remoteReply_data hr hidle hd hkind horigin hlen hown hgang hG,
      fun hidle hnow => nackResend_sends hr hidle hnow,
      fun n k G hu hkind horigin hgang hG => routeTimeout_load hr hu hkind horigin hgang hG,
      fun hu => routeTimeout_deliverable hr hu⟩
  case noLink => exact fun k hk => noSuchLink hk
  case links =>
    exact fun k hk hfar => ⟨fun huse hdead htrain => flitCrcFail_counts hk huse hdead htrain, fun hdead htrain =>
      ⟨linkRetrain_ok hk hfar hdead htrain, linkRetrain_again hk hfar hdead htrain, linkRetrain_dies hk hfar hdead htrain⟩⟩
  case monitors =>
    intro id M hM hend
    have hwaiters := unended_of_find hend hM
    refine ⟨fun i hi => ⟨fun hno => by rw [exec_evaluates hM hi, evaluate_idle hend hM hno], ?_⟩, ?_⟩
    · intro w k l G pc n d hw hmeets hwho hl hg hb hwaits hm hrun
      obtain ⟨H, hH⟩ := evaluate_resumes hm hw (hwaiters w (by simp [hw])) hmeets hwho hl hg hb hwaits hrun
      exact ⟨_, H, exec_evaluates hM hi, hH⟩
    · intro w k l G pc n d x hw hno hwho hl hx hg hb hwaits hm hrun
      exact ⟨waitaTimeout_early hend hm hw hwho hno hx, fun hn =>
        waitaTimeout_late (hwaiters w (by simp [hw])) hm hw hwho hno hx hn hl hg hb hwaits hrun⟩

end Sys2Proof.Machine
end

section
/-! O12: predicate logic (R162). -/

namespace Sys2Proof.Machine

variable {i : Instr} {d a b : BitVec 3}

/-- A predicate that each lane computes from two of its own is what it writes where neither is poisoned. -/
theorem gives_of_plog2 (f : Bool → Bool → Bool) (he : ∀ s, exec i s = alu i s (plog2 d a b f)) :
    Gives i (fun v => (v.pred a).2 = false ∧ (v.pred b).2 = false) fun v => .pred d (f (v.pred a).1 (v.pred b).1) := by
  refine gives_of_alu he (fun _ e v ⟨ha, hb⟩ => ?_) fun v _ => plain_pred d _ 0
  rw [plog2, ha, hb, Bool.or_false, predicate_clean]

/-- Settles O12: five of the forms compute from two predicates, `PLOG.not` from one, `PLOG.set` from none. -/
theorem predicateLogicResults : Obligations.PredicateLogicResults := by
  unfold Obligations.PredicateLogicResults
  intro g d a b x
  refine ⟨gives_of_plog2 (fun x y => x && y) fun _ => rfl, gives_of_plog2 (fun x y => x || y) fun _ => rfl,
    gives_of_plog2 (fun x y => x != y) fun _ => rfl, gives_of_plog2 (fun x y => x && !y) fun _ => rfl,
    gives_of_plog2 (fun x y => x || !y) fun _ => rfl, ?not, ?set⟩
  case not =>
    refine gives_of_alu (fun _ => rfl) (fun _ e v ha => ?_) fun v _ => plain_pred d _ 0
    rw [ha, predicate_clean]
  case set => exact gives_of_alu (fun _ => rfl) (fun _ _ _ _ => rfl) fun _ _ => plain_pred d x 0

end Sys2Proof.Machine
end

section
/-! SUPPORT. Masks by their lanes, segments of lanes among them, and lists that are reduced (R156 to R159). -/

namespace Sys2Proof.Machine

variable {m : Mask} {ls : List Nat} {j l : Nat}

/-- A lane of the gang belongs to the mask of a list of numbers when it stands in the list, whatever else does. -/
theorem getLsbD_maskOf_of_lt (ls : List Nat) (hj : j < 32) : (maskOf ls).getLsbD j = decide (j ∈ ls) := by
  have hbit (l : Nat) : (laneBit l).getLsbD j = decide (j = l) := by
    simp only [laneBit, BitVec.getLsbD_ofNat, Nat.testBit_two_pow, hj, decide_true, Bool.true_and, eq_comm]
  have hfold (m : Mask) : (ls.foldl (fun m l => m ||| laneBit l) m).getLsbD j = (m.getLsbD j || decide (j ∈ ls)) := by
    induction ls generalizing m with
    | nil => simp
    | cons l ls ih => simp [ih, hbit, Bool.or_assoc]
  simp [maskOf, hfold]

/-- The lanes of lane `l`'s segment are those with its quotient (R156). -/
theorem getLsbD_segment (w : BitVec 4) (l : Nat) (hj : j < 32) :
    (segment w l).getLsbD j = decide (j / 2 ^ w.toNat = l / 2 ^ w.toNat) := by
  rw [segment, getLsbD_maskOf_of_lt _ hj, decide_eq_decide, List.mem_map]
  constructor
  · rintro ⟨i, hi, rfl⟩
    rw [Nat.mul_add_div (Nat.two_pow_pos _), Nat.div_eq_of_lt (List.mem_range.mp hi), Nat.add_zero]
  · intro h
    exact ⟨j % 2 ^ w.toNat, List.mem_range.mpr (Nat.mod_lt _ (Nat.two_pow_pos _)), by rw [← h, Nat.div_add_mod]⟩

theorem lanesOf_segment (m : Mask) (w : BitVec 4) (l : Nat) :
    lanesOf (m &&& segment w l) = (lanesOf m).filter fun j => j / 2 ^ w.toNat = l / 2 ^ w.toNat := by
  simp only [lanesOf, List.filter_filter]
  refine List.filter_congr fun j hj => ?_
  rw [BitVec.getLsbD_and, getLsbD_segment w l (List.mem_range.mp hj), Bool.and_comm]

theorem lanesOf_maskOf_filter (m : Mask) (p : Nat → Bool) : lanesOf (maskOf ((lanesOf m).filter p)) = (lanesOf m).filter p := by
  refine (List.filter_congr fun j _ => getLsbD_maskOf_filter m p j).trans ?_
  simp only [lanesOf, List.filter_filter, Bool.and_comm]

/-- A mask is the mask that has its lanes. -/
theorem eq_iff_lanesOf {m n : Mask} : m = n ↔ lanesOf m = lanesOf n :=
  ⟨congrArg lanesOf, fun h => by rw [← maskOf_lanesOf m, h, maskOf_lanesOf]⟩

/-- Some lane of a mask passes a test when the mask of those that do is not empty. -/
theorem maskOf_filter_bne_zero (m : Mask) (p : Nat → Bool) : (maskOf ((lanesOf m).filter p) != 0) = (lanesOf m).any p := by
  rw [Bool.eq_iff_iff, bne_iff_ne, ne_eq, eq_iff_lanesOf, lanesOf_maskOf_filter, show lanesOf 0 = [] from lanesOf_zero,
    List.filter_eq_nil_iff]
  simp

/-- All lanes of a mask pass a test when the mask of those that do is the mask. -/
theorem maskOf_filter_beq_self (m : Mask) (p : Nat → Bool) : (maskOf ((lanesOf m).filter p) == m) = (lanesOf m).all p := by
  rw [Bool.eq_iff_iff, beq_iff_eq, eq_iff_lanesOf, lanesOf_maskOf_filter, List.filter_eq_self, List.all_eq_true]

/-- The values of a list are all the first one's when any two of them are equal. -/
theorem all_beq_headD {α β γ : Type} [BEq γ] [LawfulBEq γ] (r : α → β) (g : β → γ) (d : β) (xs : List α) :
    (xs.map r).all (fun v => g v == g ((xs.map r).headD d)) = xs.all fun x => xs.all fun y => g (r x) == g (r y) := by
  cases xs with
  | nil => rfl
  | cons a xs =>
    rw [Bool.eq_iff_iff]
    simp only [List.all_eq_true, List.map_cons, List.headD_cons, beq_iff_eq, List.forall_mem_cons, List.forall_mem_map]
    constructor
    · rintro ⟨-, h⟩
      exact ⟨⟨trivial, fun y hy => (h y hy).symm⟩, fun x hx => ⟨h x hx, fun y hy => (h x hx).trans (h y hy).symm⟩⟩
    · rintro ⟨-, h⟩
      exact ⟨trivial, fun x hx => (h x hx).1⟩

end Sys2Proof.Machine
end

section
/-! O14: votes, shuffles, reductions and lane masks (R156 to R159). -/

namespace Sys2Proof.Machine

variable {i : Instr} {a : BitVec 3} {r : Reg} {w : BitVec 4}

-- Votes

/-- The lanes of lane `l`'s segment that are active. -/
def segLanes (w : BitVec 4) (act : Mask) (l : Nat) : List Nat :=
  (lanesOf act).filter fun j => j / 2 ^ w.toNat = l / 2 ^ w.toNat

/-- The ballot of a segment in which the predicate is nowhere poisoned. -/
theorem ballot_segment (G : Gang) (act : Mask) (l : Nat) (h : ∀ j ∈ segLanes w act l, ((G.view j).pred a).2 = false) :
    G.ballot (act &&& segment w l) a =
      (maskOf ((lanesOf (act &&& segment w l)).filter fun j => ((G.view j).pred a).1), false) := by
  refine Prod.ext rfl (List.any_eq_false.mpr fun j hj => ?_)
  rw [lanesOf_segment] at hj
  rw [h j hj]
  exact Bool.false_ne_true

/-- What a vote on a predicate gives, from what it makes of the ballot of a segment. -/
theorem gives_of_ballot {f : Gang → Mask → Env → Nat → Out} {out : State → Gang → Mask → Nat → Out}
    (he : ∀ s, exec i s = threadOp i s (groupThread f))
    (hf : ∀ s G act e l, G.ballot (act &&& segment w l) a =
      (maskOf ((lanesOf (act &&& segment w l)).filter fun j => ((G.view j).pred a).1), false) → f G act e l = out s G act l)
    (ho : ∀ s G act l, (out s G act l).plain) :
    GivesAt i (fun _ G act l => ∀ j ∈ segLanes w act l, ((G.view j).pred a).2 = false) out :=
  givesAt_of_group he (fun s G act l hp hl => hf s G act _ l (ballot_segment G act l (hp l hl))) fun s G act l _ => ho s G act l

/-- The clauses of `VOTE` (R156). -/
theorem vote_gives (g : Guard) (w : BitVec 4) (d : BitVec 8) (p a : BitVec 3) (r : Reg) :
    let clean := fun (_ : State) (G : Gang) act l => ∀ j ∈ segLanes w act l, ((G.view j).pred a).2 = false
    let holds := fun (G : Gang) j => ((G.view j).pred a).1
    GivesAt (.voteAny g w p a) clean (fun _ G act l => .pred p ((segLanes w act l).any (holds G))) ∧
    GivesAt (.voteAll g w p a) clean (fun _ G act l => .pred p ((segLanes w act l).all (holds G))) ∧
    GivesAt (.voteBallot g w d a) clean (fun _ G act l => .word d (maskOf ((segLanes w act l).filter (holds G)))) ∧
    GivesAt (.voteEq g w p r) (fun _ G act l => ∀ j ∈ segLanes w act l, ((G.view j).reg r).2 = false)
      (fun _ G act l => .pred p ((segLanes w act l).all fun i => (segLanes w act l).all fun j =>
        ((G.view i).reg r).1 == ((G.view j).reg r).1)) ∧
    GivesAt (.voteCnt g w d a) clean (fun _ G act l => .word d (BitVec.ofNat 32 ((segLanes w act l).countP (holds G)))) := by
  refine ⟨?any, ?all, ?ballot, ?eq, ?cnt⟩
  case any =>
    refine gives_of_ballot (fun _ => rfl) (fun s G act e l hb => ?_) fun _ _ _ _ => plain_pred p _ 0
    rw [hb, predicate_clean, maskOf_filter_bne_zero, lanesOf_segment, segLanes]
  case all =>
    refine gives_of_ballot (fun _ => rfl) (fun s G act e l hb => ?_) fun _ _ _ _ => plain_pred p _ 0
    rw [hb, predicate_clean, maskOf_filter_beq_self, lanesOf_segment, segLanes]
  case ballot =>
    refine gives_of_ballot (fun _ => rfl) (fun s G act e l hb => ?_) fun _ _ _ _ => plain_word d _
    rw [hb, results_word, lanesOf_segment, segLanes]
  case cnt =>
    refine gives_of_ballot (fun _ => rfl) (fun s G act e l hb => ?_) fun _ _ _ _ => plain_word d _
    rw [hb, results_word, lanesOf_maskOf_filter, List.countP_eq_length_filter, lanesOf_segment, segLanes]
  case eq =>
    refine givesAt_of_group (fun _ => rfl) (fun s G act l hp hl => ?_) fun _ _ _ _ _ => plain_pred p _ 0
    have hclean : ((segLanes w act l).map fun j => (G.view j).reg r).any (·.2) = false := by
      simpa using hp l hl
    dsimp only
    rw [lanesOf_segment, ← segLanes, hclean, predicate_clean, all_beq_headD _ Prod.fst]

-- Shuffles

/-- A register and its poison as a result. -/
def Out.copy (d : BitVec 8) (x : Word × Bool) : Out := { regs := [(⟨false, d⟩, x.1, false)] }

/-- What a shuffle gives where neither its operand nor what it reads is poisoned (R157): `src` is the source lane as the
instruction computes it from the base of the segment and its length, `src'` as a lane and b give it. -/
theorem shuffle_gives {d : BitVec 8} {a c : Reg} {b : Src} {src : Nat → Nat → Nat → Nat → Int} (src' : Nat → Nat → Int)
    (he : ∀ s, exec i s = threadOp i s (groupThread (shuffle w d a b c src)))
    (hs : ∀ l n, src (2 ^ w.toNat * (l / 2 ^ w.toNat)) (2 ^ w.toNat) l n = src' l n) :
    GivesAt i
      (fun _ G _ l => ((G.view l).wordS b).2 = false ∧ ((G.view l).reg c).2 = false ∧
        ∀ j, src' l ((G.view l).wordS b).1.toNat = (j : Nat) → ((G.view j).reg a).2 = false)
      (fun _ G act l =>
        let x := src' l ((G.view l).wordS b).1.toNat
        .copy d (if 0 ≤ x ∧ x.toNat ∈ lanesOf act ∧ x.toNat / 2 ^ w.toNat = l / 2 ^ w.toNat then (G.view x.toNat).reg a
          else (G.view l).reg c)) := by
  refine givesAt_of_group he (fun s G act l hp hl => ?_) fun _ _ _ _ _ => plain_word d _
  obtain ⟨hb, hc, ha⟩ := hp l hl
  generalize hx : src' l ((G.view l).wordS b).1.toNat = x at ha ⊢
  have hword : (G.view l).wordS b = (((G.view l).wordS b).1, false) := Prod.ext rfl hb
  have hinside : ((0 ≤ x && x < 32 && (act &&& segment w l).getLsbD x.toNat) = true) ↔
      0 ≤ x ∧ x.toNat ∈ lanesOf act ∧ x.toNat / 2 ^ w.toNat = l / 2 ^ w.toNat := by
    have hseg : (act &&& segment w l).getLsbD x.toNat = true ↔
        x.toNat ∈ lanesOf act ∧ x.toNat / 2 ^ w.toNat = l / 2 ^ w.toNat := by
      rw [← mem_lanesOf, lanesOf_segment, List.mem_filter, decide_eq_true_eq]
    simp only [Bool.and_eq_true, decide_eq_true_eq, hseg, and_assoc]
    refine and_congr_right fun h0 => and_iff_right_of_imp fun ⟨hlt, _⟩ => ?_
    have := lanesOf_lt hlt
    omega
  rw [shuffle, hword]
  simp only [hs, hx, hinside]
  split
  next h => rw [ha x.toNat (Int.toNat_of_nonneg h.1).symm]; rfl
  next => rw [hc]; rfl

-- Reductions

/-- The words of a list reduced by a step that may raise flags, from the first on (R158). -/
def reduced (step : Word → Word → Word × BitVec 7) (xs : List Word) : Word × BitVec 7 :=
  xs.tail.foldl (fun r y => ((step r.1 y).1, r.2 ||| (step r.1 y).2)) (xs.headD 0, 0)

/-- A step that raises no flag reduces the words alone. -/
theorem reduced_of_quiet (f : Word → Word → Word) (xs : List Word) :
    reduced (fun x y => (f x y, 0)) xs = (xs.tail.foldl f (xs.headD 0), 0) := by
  have hzero : (0 : BitVec 7) ||| 0 = 0 := rfl
  rw [reduced]
  generalize xs.headD 0 = x
  induction xs.tail generalizing x with
  | nil => rfl
  | cons y ys ih => rw [List.foldl_cons, hzero, ih, List.foldl_cons]

/-- What `REDUX` gives where no active lane's register is poisoned. -/
theorem redux_gives (g : Guard) (op : RedOp) (ty : Ty) (d : BitVec 8) (a : Reg) {step : Word → Word → Word × BitVec 7}
    (hs : ∀ x y, reduceStep op ty x y = step x y) :
    GivesAt (.redux g op ty d a) (fun _ G act _ => ∀ j ∈ lanesOf act, ((G.view j).reg a).2 = false) fun _ G act _ =>
      { regs := [(⟨false, d⟩, (reduced step ((lanesOf act).map fun j => ((G.view j).reg a).1)).1, false)],
        flags := (reduced step ((lanesOf act).map fun j => ((G.view j).reg a).1)).2 } := by
  refine givesAt_of_group (fun _ => rfl) (fun s G act l hp hl => ?_) fun _ _ _ _ _ => ⟨rfl, by simp, by simp⟩
  have hclean : ((lanesOf act).map fun j => (G.view j).reg a).any (·.2) = false := by
    simpa using hp l hl
  simp only [hclean, hs]
  cases lanesOf act with
  | nil => rfl
  | cons j js => simp [reduced, Out.results, List.foldl_map]

/-- What `REDUX` gives where its step raises no flag. -/
theorem redux_gives_word (g : Guard) (op : RedOp) (ty : Ty) (d : BitVec 8) (a : Reg) {f : Word → Word → Word}
    (hs : ∀ x y, reduceStep op ty x y = (f x y, 0)) :
    GivesAt (.redux g op ty d a) (fun _ G act _ => ∀ j ∈ lanesOf act, ((G.view j).reg a).2 = false) fun _ G act _ =>
      .word d (((lanesOf act).map fun j => ((G.view j).reg a).1).tail.foldl f
        (((lanesOf act).map fun j => ((G.view j).reg a).1).headD 0)) := by
  have h := redux_gives g op ty d a hs
  simp only [reduced_of_quiet] at h
  exact h

/-- A step of a minimum or a maximum of `f32` is the choice between the two codes (R177). -/
theorem reduceStep_pick (greater : Bool) (x y : Word) :
    reduceStep (if greater then .max else .min) .f32 x y =
      (BitVec.ofNat 32 (pickCode .f32 greater x.toNat y.toNat).1, (pickCode .f32 greater x.toNat y.toNat).2) := by
  have hstep : reduceStep (if greater then .max else .min) .f32 x y =
      match Num.pick greater (Num.decodeCode Num.fp32 x.toNat) (Num.decodeCode Num.fp32 y.toNat) with
      | (0, f) => (x, f)
      | (1, f) => (y, f)
      | (_, f) => (BitVec.ofNat 32 (Num.nanCode Num.fp32), f) := by
    cases greater <;> rfl
  have hcode : pickCode .f32 greater x.toNat y.toNat =
      match Num.pick greater (Num.decodeCode Num.fp32 x.toNat) (Num.decodeCode Num.fp32 y.toNat) with
      | (0, f) => (x.toNat, f)
      | (1, f) => (y.toNat, f)
      | (_, f) => (Num.nanCode Num.fp32, f) := rfl
  rw [hstep, hcode]
  split <;> simp

-- Lane masks

/-- What `BMASK` writes: on each active lane a mask of lanes. -/
theorem laneMask_executes {s : State} {k : Nat} {G : Gang} {m act : Mask} {pc : DWord} (h : Executes i s k G m act pc)
    {d : BitVec 8} {f : Mask → Nat → Mask} (he : ∀ s, exec i s = threadOp i s (laneMask d f)) {p : Nat → Nat → Prop}
    (hp : ∀ l ∈ lanesOf act, ∀ j, j < 32 → ((f act l).getLsbD j = true ↔ p l j)) :
    ∃ H, exec i s = .next (s.setGang k H) ∧ ∃ M : Nat → Mask, Wrote G H m act (fun l => .word d (M l)) ∧
      ∀ l ∈ lanesOf act, ∀ j, j < 32 → ((M l).getLsbD j = true ↔ p l j) := by
  have hg : GivesAt i (fun _ _ _ _ => True) fun _ _ act l => .word d (f act l) :=
    givesAt_of_group he (fun _ _ _ _ _ _ => results_word _ _ _ _ _) fun _ _ _ _ _ => plain_word d _
  obtain ⟨H, hH, hw⟩ := hg s k G m act pc h fun _ _ => trivial
  exact ⟨H, hH, _, hw, hp⟩

theorem getLsbD_below (n : Nat) {j : Nat} (hj : j < 32) : (below n).getLsbD j = decide (j < n) := by
  rw [below, getLsbD_maskOf_of_lt _ hj, decide_eq_decide, List.mem_range]

theorem getLsbD_spanMask (b : Word) {j : Nat} (hj : j < 32) :
    (spanMask b).getLsbD j = true ↔ b.toNat % 32 ≤ j ∧ j < b.toNat % 32 + b.toNat / 32 % 64 := by
  rw [spanMask, getLsbD_maskOf_of_lt _ hj]
  simp [hj]

/-- Settles O14: votes go by the ballots of segments, shuffles by `shuffle`, reductions by folds of their steps, masks by their lanes. -/
theorem crossLaneResults : Obligations.CrossLaneResults := by
  unfold Obligations.CrossLaneResults
  refine ⟨fun g w d p a r => vote_gives g w d p a r, fun g w d a b c => ?shuffles, fun g w d a b => ?rest⟩
  case shuffles =>
    exact ⟨shuffle_gives (fun l b => (2 ^ w.toNat * (l / 2 ^ w.toNat) + b % 2 ^ w.toNat : Nat)) (fun _ => rfl) fun _ _ => rfl,
      shuffle_gives (fun l b => (l : Int) - b) (fun _ => rfl) fun _ _ => rfl,
      shuffle_gives (fun l b => (l : Int) + b) (fun _ => rfl) fun _ _ => rfl,
      shuffle_gives (fun l b => (l ^^^ b % 2 ^ w.toNat : Nat)) (fun _ => rfl) fun _ _ => rfl,
      shuffle_gives (fun l b => (2 ^ w.toNat * (l / 2 ^ w.toNat) + (l - 2 ^ w.toNat * (l / 2 ^ w.toNat) + b) % 2 ^ w.toNat : Nat))
        (fun _ => rfl) fun _ _ => rfl⟩
  case rest =>
    intro clean xs int f32 same mask
    refine ⟨?ints, ?mini, ?maxi, ?minn, ?maxn, ?addf, ?pickf, ?self, ?pre, ?post, ?seg, ?grp, ?span⟩
    case ints =>
      intro ty hty
      obtain rfl | rfl : ty = .i32 ∨ ty = .n32 := by simpa using hty
      all_goals exact ⟨redux_gives_word g _ _ d a fun _ _ => rfl, redux_gives_word g _ _ d a fun _ _ => rfl,
        redux_gives_word g _ _ d a fun _ _ => rfl, redux_gives_word g _ _ d a fun _ _ => rfl⟩
    case mini => exact redux_gives_word g _ _ d a fun x y => by simp [reduceStep, Ty.signed, BitVec.slt]
    case maxi => exact redux_gives_word g _ _ d a fun x y => by simp [reduceStep, Ty.signed, BitVec.slt]
    case minn => exact redux_gives_word g _ _ d a fun x y => by simp [reduceStep, Ty.signed, BitVec.ult]
    case maxn => exact redux_gives_word g _ _ d a fun x y => by simp [reduceStep, Ty.signed, BitVec.ult]
    case addf => exact redux_gives g _ _ d a fun _ _ => rfl
    case pickf => exact fun greater => redux_gives g _ _ d a (reduceStep_pick greater)
    case self =>
      refine fun s k G m act pc h => laneMask_executes h (fun _ => rfl) fun l hl j hj => ?_
      rw [getLsbD_laneBit (lanesOf_lt hl), decide_eq_true_eq, eq_comm]
    case pre =>
      refine fun s k G m act pc h => laneMask_executes h (fun _ => rfl) fun l hl j hj => ?_
      rw [BitVec.getLsbD_and, getLsbD_segment w l hj, getLsbD_below l hj]
      simp [same, hj]
    case post =>
      refine fun s k G m act pc h => laneMask_executes h (fun _ => rfl) fun l hl j hj => ?_
      rw [BitVec.getLsbD_and, BitVec.getLsbD_not, getLsbD_segment w l hj, getLsbD_below (l + 1) hj]
      simp [same, hj]
    case seg =>
      refine fun s k G m act pc h => laneMask_executes h (fun _ => rfl) fun l hl j hj => ?_
      rw [getLsbD_segment w l hj]
      simp [same, hj]
    case grp => exact fun s k G m act pc h => laneMask_executes h (fun _ => rfl) fun l hl j hj => mem_lanesOf.symm
    case span =>
      intro s k G m act pc h hb
      have hg : Gives (.bmaskSpan g d b) (fun v => (v.wordS b).2 = false) fun v => .word d (spanMask (v.wordS b).1) := by
        refine gives_of_aluThread (fun _ => rfl) (fun _ e v hv => ?_) fun _ _ => plain_word d _
        dsimp only
        rw [hv, results_word]
      obtain ⟨H, hH, hw⟩ := hg s k G m act pc h hb
      exact ⟨H, hH, _, hw, fun l _ j hj => getLsbD_spanMask _ hj⟩

end Sys2Proof.Machine
end

section
/-! SUPPORT. What `GROW` and `SHRINK` use (R149, R160): lanes of which one predicate is written, allocations that change, a group
that waits in `GROW`, and the tables of registers cut at an allocation. -/

namespace Sys2Proof.SMap

variable {α : Type}

/-- A table cut at a number holds what stood below it. -/
theorem find?_filter_lt (m : SMap α) (a n : Nat) :
    find? (List.filter (fun e => decide (e.1 < a)) m) n = if n < a then find? m n else none := by
  induction m with
  | nil => simp
  | cons e m ih =>
    obtain ⟨k, v⟩ := e
    by_cases hk : k < a <;> by_cases hn : k = n
    · subst hn; simp [find?, hk]
    · simp [find?, hk, hn, ih]
    · subst hn; simp [hk, ih]
    · simp [find?, hk, hn, ih]

end Sys2Proof.SMap

namespace Sys2Proof.Machine

variable {i : Instr} {s : State} {k : Nat} {G : Gang} {m act : Mask} {pc : DWord}

-- Predicates

/-- A lane put where it stands leaves the gang as it is. -/
@[simp] theorem putLane_lane (G : Gang) (l : Nat) : G.putLane l (G.lane l) = G := by
  have hset : G.lanes.set l (G.lane l) = G.lanes := by
    by_cases hl : l < G.lanes.length
    · simp [Gang.lane, hl]
    · exact List.set_eq_of_length_le (by omega)
  rw [Gang.putLane, hset]

/-- The predicate that `GROW` writes on lanes is the result of each. -/
theorem putPreds_eq_putAll (G : Gang) (m : Mask) (d : BitVec 3) (b : Bool) :
    G.putPreds m d b = putAll G (lanesOf m) fun _ => .pred d b := by
  refine List.foldl_ext _ _ G fun G l _ => ?_
  have hflags : { G.lane l with fflags := (G.lane l).fflags ||| (Out.pred d b).flags } = G.lane l := by
    rw [show (G.lane l).fflags ||| (Out.pred d b).flags = (G.lane l).fflags from BitVec.or_zero]
  rw [putOut_eq G l _ rfl, hflags, putLane_lane]
  rfl

/-- A group whose active lanes have got a predicate, and all of whose lanes have gone on. -/
def Gang.granted (G : Gang) (m act : Mask) (d : BitVec 3) (b : Bool) : Gang :=
  ((G.putPreds act d b).advance act).advance (m &&& ~~~act)

theorem Executes.wrote_granted (h : Executes i s k G m act pc) (d : BitVec 3) (b : Bool) :
    Wrote G (G.granted m act d b) m act fun _ => .pred d b := by
  rw [Gang.granted, putPreds_eq_putAll]
  exact wrote_putAll h (fun _ => rfl) (fun _ _ => List.nodup_nil) fun _ _ => List.nodup_singleton d

theorem waits_putPreds (G : Gang) (m : Mask) (d : BitVec 3) (b : Bool) : (G.putPreds m d b).waits = G.waits := by
  rw [putPreds_eq_putAll, putAll_frame fun _ => rfl]

/-- A change of a gang that lanes' going on does not look at can be made before it or after. -/
theorem advance_comm (f : Gang → Gang) (hput : ∀ G l L, (f G).putLane l L = f (G.putLane l L))
    (hlane : ∀ G l, (f G).lane l = G.lane l) (hset : ∀ G m, (f G).settled m = f (G.settled m)) (G : Gang) (m : Mask) :
    (f G).advance m = f (G.advance m) := by
  unfold Gang.advance
  rw [hset]
  generalize G.settled m = G
  induction lanesOf m generalizing G with
  | nil => rfl
  | cons j ls ih => rw [List.foldl_cons, List.foldl_cons, hput, hlane, ih]

theorem advance_alloc (G : Gang) (m : Mask) (a : Nat) :
    ({ G with alloc := a } : Gang).advance m = { G.advance m with alloc := a } :=
  advance_comm (fun G => { G with alloc := a }) (fun _ _ _ => rfl) (fun _ _ => rfl) (fun _ _ => rfl) G m

-- Waiting in GROW

/-- No lane that executes waits. -/
theorem Executes.unwaiting (h : Executes i s k G m act pc) {w : Wait} (hw : w ∈ G.waits) : w.lanes &&& act = 0 := by
  refine BitVec.eq_of_getLsbD_eq fun j _ => ?_
  by_cases ha : act.getLsbD j = true
  · have hm := mem_lanesOf.mp (h.sub (mem_lanesOf.mpr ha))
    simpa [hm, ha] using congrArg (·.getLsbD j) (h.free w hw)
  · simp [Bool.eq_false_iff.mpr ha]

/-- A wait, joined by the lanes `rest` if it is that of the lanes `act` in `GROW`. -/
def Wait.joined (act rest : Mask) (w : Wait) : Wait :=
  if w.kind.isGrow && w.lanes == act then { w with lanes := act ||| rest } else w

/-- A core of which one more gang asks for registers. -/
def Core.asked (K : Core) (g : GrowWait) : Core := { K with grow := K.grow ++ [g] }

/-- Lanes that wait in `GROW` with the lanes `act` join their wait, and their request, the last of the core's. -/
theorem growWith_of_last (K : Core) (H : Gang) (g : GrowWait) {rest : Mask} (hrest : rest ≠ 0) (act : Mask) :
    ((s.setCore (coreOf k) (K.asked g)).setGang k H).growWith k act rest =
      (s.setCore (coreOf k) (K.asked { g with others := rest })).setGang k
        { H with waits := H.waits.map (Wait.joined act rest) } := by
  have hcore : ((s.setCore (coreOf k) (K.asked g)).setGang k H).core (coreOf k) = K.asked g :=
    (core_setCore s (coreOf k) _ (coreOf k)).trans (if_pos rfl)
  have hcores (K' : Core) : ((s.setCore (coreOf k) (K.asked g)).setGang k H).setCore (coreOf k) K' =
      (s.setCore (coreOf k) K').setGang k H := by
    simp only [State.setCore, State.setGang, SMap.put_put]
  have hgrow : (K.asked g).grow = K.grow ++ [g] := rfl
  simp only [State.growWith, if_neg hrest, hcore, hcores, onGang_setGang, hgrow, List.dropLast_concat, List.getLast?_concat,
    Option.map_some, Option.toList_some]
  rfl

/-- The active lanes of a group that wait in `GROW` have the others wait with them, in the core's last request too. -/
theorem Executes.after_grow (h : Executes i s k G m act pc) (K : Core) (n : Nat) (d : BitVec 3) (rest : Mask)
    (go : State → State) :
    ((s.setCore (coreOf k) (K.asked ⟨k % 16, act, n, d, 0⟩)).setGang k
        { G with waits := G.waits ++ [⟨act, pc, .grow n d⟩] }).after k act rest go =
      (s.setCore (coreOf k) (K.asked ⟨k % 16, act, n, d, rest⟩)).setGang k
        { G with waits := G.waits ++ [⟨act ||| rest, pc, .grow n d⟩] } := by
  have hold : (G.waits.find? fun w => (w.kind.retry || w.kind.isGrow) && w.lanes &&& act != 0) = none := by
    rw [List.find?_eq_none]
    intro w hw
    simp [h.unwaiting hw]
  have hfind : ((G.waits ++ [(⟨act, pc, .grow n d⟩ : Wait)]).find? fun w =>
      (w.kind.retry || w.kind.isGrow) && w.lanes &&& act != 0) = Option.some ⟨act, pc, .grow n d⟩ := by
    rw [List.find?_append, hold, Option.none_or, List.find?_cons_of_pos]
    simpa [WaitKind.isGrow] using h.some
  have hmap : G.waits.map (Wait.joined act rest) = G.waits := by
    refine (List.map_congr_left fun w hw => if_neg fun hc => ?_).trans (List.map_id _)
    obtain ⟨-, hl⟩ := Bool.and_eq_true_iff.mp hc
    exact h.some (by simpa [beq_iff_eq.mp hl] using h.unwaiting hw)
  have hafter (t : State) (H : Gang) (hw : H.waits = G.waits ++ [⟨act, pc, .grow n d⟩]) :
      (t.setGang k H).after k act rest go = (t.setGang k H).growWith k act rest := by
    simp only [State.after, setGang_find, Option.bind_some, hw, hfind]
    rfl
  rw [hafter _ _ rfl]
  by_cases hrest : rest = 0
  · have hor : act ||| 0 = act := BitVec.or_zero
    rw [State.growWith, if_pos hrest, hrest, hor]
  · rw [growWith_of_last K _ _ hrest, List.map_append, hmap]
    simp [Wait.joined, WaitKind.isGrow]

-- Cut registers

/-- What a lane keeps of its registers where the allocation falls. -/
def Lane.cut (a : Nat) (L : Lane) : Lane := { L with x := L.x.filter (·.1 < a), xp := L.xp.filter (·.1 < a) }

theorem cut_onward (a : Nat) (L : Lane) : (onward L).cut a = onward (L.cut a) := rfl

theorem lane_shrinkTo (G : Gang) (a l : Nat) : (G.shrinkTo a).lane l = (G.lane l).cut a := by
  simp only [Gang.lane, Gang.shrinkTo, List.getD_eq_getElem?_getD, List.getElem?_map]
  cases G.lanes[l]? <;> rfl

/-- A register of a cut lane keeps its value below the allocation, and reads 0 from it on. -/
theorem reg_cut (L : Lane) (a n : Nat) :
    ((L.cut a).x.get 0 n, (L.cut a).xp.get false n) = if n < a then (L.x.get 0 n, L.xp.get false n) else (0, false) := by
  simp only [Lane.cut, SMap.get, SMap.find?_filter_lt]
  split <;> rfl

end Sys2Proof.Machine
end

section
/-! O21: `GROW` and `SHRINK` (R149, R160). -/

namespace Sys2Proof.Machine

variable {i : Instr} {s : State} {k : Nat} {G : Gang} {m act : Mask} {pc : DWord}

-- GROW

/-- Whether `n` registers per thread can never be granted to a gang. -/
def State.neverGrows (s : State) (k : Nat) (G : Gang) (n : Nat) : Prop :=
  256 < G.alloc + n ∨ 32768 - s.reservedRegs (coreOf k) < 32 * n

/-- Whether `n` registers per thread are free for a request that does not wait. -/
def State.growsNow (s : State) (k n : Nat) : Prop := 32 * n ≤ s.freeRegs (coreOf k) ∧ (s.core (coreOf k)).grow = []

/-- What the body of `GROW` and `GROW.try` does, by what the core's pool has. -/
theorem grow_of_find (hG : s.gangs.find? k = some G) (try_ : Bool) (d : BitVec 3) (n : Nat) :
    (s.neverGrows k G n → grow try_ d n s k act = s.setGang k ((G.putPreds act d false).advance act)) ∧
    (¬s.neverGrows k G n → s.growsNow k n →
      grow try_ d n s k act = s.setGang k { (G.putPreds act d true).advance act with alloc := G.alloc + n }) ∧
    (¬s.neverGrows k G n → ¬s.growsNow k n →
      grow try_ d n s k act =
        if try_ then s.setGang k ((G.putPreds act d false).advance act)
        else (s.setCore (coreOf k) ((s.core (coreOf k)).asked ⟨k % 16, act, n, d, 0⟩)).stall k act (.grow n d)) := by
  have hnever : (decide (256 < G.alloc + n) || decide (poolSize - s.reservedRegs (coreOf k) < 32 * n)) = true ↔
      s.neverGrows k G n := by
    rw [Bool.or_eq_true, decide_eq_true_eq, decide_eq_true_eq]
    rfl
  have hnow : (decide (32 * n ≤ s.freeRegs (coreOf k)) && (s.core (coreOf k)).grow.isEmpty) = true ↔ s.growsNow k n := by
    simp [State.growsNow]
  simp only [grow, hG]
  exact ⟨fun h => if_pos (hnever.mpr h), fun h h' => by rw [if_neg (hnever.not.mpr h), if_pos (hnow.mpr h')],
    fun h h' => by rw [if_neg (hnever.not.mpr h), if_neg (hnow.not.mpr h')]; rfl⟩

/-- What `GROW` and `GROW.try` do once the body has settled the request. -/
theorem grow_settled (h : Executes i s k G m act pc) (d : BitVec 3) (b : Bool) :
    (s.setGang k ((G.putPreds act d b).advance act)).after k act (m &&& ~~~act) (·.advance k (m &&& ~~~act)) =
      s.setGang k (G.granted m act d b) :=
  after_advance h s ((waits_advance _ _).trans (waits_putPreds G act d b))

/-- The registers granted, as the group goes on. -/
theorem grow_granted (h : Executes i s k G m act pc) (d : BitVec 3) (a : Nat) :
    (s.setGang k { (G.putPreds act d true).advance act with alloc := a }).after k act (m &&& ~~~act)
        (·.advance k (m &&& ~~~act)) = s.setGang k { G.granted m act d true with alloc := a } := by
  have hw : ({ (G.putPreds act d true).advance act with alloc := a } : Gang).waits = G.waits :=
    (waits_advance _ _).trans (waits_putPreds G act d true)
  rw [after_advance h s hw, advance_alloc, Gang.granted]

/-- A request that waits, with the group's other lanes. -/
theorem grow_waits (h : Executes i s k G m act pc) (d : BitVec 3) (n : Nat) (go : State → State) :
    ((s.setCore (coreOf k) ((s.core (coreOf k)).asked ⟨k % 16, act, n, d, 0⟩)).stall k act (.grow n d)).after k act
        (m &&& ~~~act) go =
      (s.setCore (coreOf k) ((s.core (coreOf k)).asked ⟨k % 16, act, n, d, m &&& ~~~act⟩)).setGang k
        { G with waits := G.waits ++ [⟨act ||| (m &&& ~~~act), pc, .grow n d⟩] } := by
  have hstall (t : State) (hg : t.gangs = s.gangs) (hc : t.cur = s.cur) : t.stall k act (.grow n d) =
      t.setGang k { G with waits := G.waits ++ [⟨act, pc, .grow n d⟩] } := by
    rw [State.stall, onGang_of_find (hg ▸ h.gang), Gang.wait, if_neg h.some, hc, h.cur]
    rfl
  rw [hstall (s.setCore _ _) rfl rfl, h.after_grow]

/-- The clauses of `GROW` and `GROW.try`, for an instruction that runs their body. -/
theorem grow_executes (h : Executes i s k G m act pc) {try_ : Bool} {d : BitVec 3} {n : Nat}
    (he : exec i s = threadOp i s (grow try_ d n)) :
    ∃ H, (¬s.neverGrows k G n → s.growsNow k n → Wrote G H m act (fun _ => .pred d true) ∧
        exec i s = .next (s.setGang k { H with alloc := G.alloc + n })) ∧
      (s.neverGrows k G n ∨ (¬s.growsNow k n ∧ try_ = true) → Wrote G H m act (fun _ => .pred d false) ∧
        exec i s = .next (s.setGang k H)) ∧
      (¬s.neverGrows k G n → ¬s.growsNow k n → try_ = false →
        exec i s = .next ((s.setCore (coreOf k) { s.core (coreOf k) with
            grow := (s.core (coreOf k)).grow ++ [⟨k % 16, act, n, d, m &&& ~~~act⟩] }).setGang k
          { G with waits := G.waits ++ [⟨act ||| (m &&& ~~~act), pc, .grow n d⟩] })) := by
  obtain ⟨never, now, later⟩ := grow_of_find (act := act) h.gang try_ d n
  rw [he, threadOp_executes h]
  by_cases hn : s.neverGrows k G n
  · refine ⟨G.granted m act d false, fun hc => absurd hn hc, fun _ => ⟨h.wrote_granted d false, ?_⟩, fun hc => absurd hn hc⟩
    rw [never hn, grow_settled h]
  by_cases hf : s.growsNow k n
  · refine ⟨G.granted m act d true, fun _ _ => ⟨h.wrote_granted d true, ?_⟩,
      fun hc => absurd hf (hc.resolve_left hn).1, fun _ hc => absurd hf hc⟩
    rw [now hn hf, grow_granted h]
  · refine ⟨G.granted m act d false, fun _ hc => absurd hc hf, fun hc => ⟨h.wrote_granted d false, ?_⟩, fun _ _ ht => ?_⟩
    · rw [later hn hf, if_pos (hc.resolve_left hn).2, grow_settled h]
    · rw [later hn hf, if_neg (by simp [ht]), grow_waits h]
      rfl

-- SHRINK

/-- A group gone on with a smaller allocation. -/
def Gang.shrunk (G : Gang) (m act : Mask) (a : Nat) : Gang := ((G.advance act).shrinkTo a).advance (m &&& ~~~act)

theorem Executes.lane_shrunk (h : Executes i s k G m act pc) (a l : Nat) :
    (G.shrunk m act a).lane l = if l ∈ lanesOf m then onward ((G.lane l).cut a) else (G.lane l).cut a := by
  have hlen : ((G.advance act).shrinkTo a).lanes.length = G.lanes.length := by
    simp [Gang.shrinkTo, length_advance]
  simp only [Gang.shrunk, lane_advance, hlen, lane_shrinkTo, not_mem_lanesOf_rest]
  by_cases ha : l ∈ lanesOf act
  · simp [ha, h.sub ha, h.lt (h.sub ha), cut_onward]
  · by_cases hm : l ∈ lanesOf m
    · simp [ha, hm, h.lt hm]
    · simp [ha, hm]

theorem frame_shrunk (G : Gang) (m act : Mask) (a : Nat) : (G.shrunk m act a).frame = { G.frame with alloc := a } := by
  rw [Gang.shrunk, frame_advance]
  exact congrArg (fun F : Gang => { F with alloc := a }) (frame_advance G act)

/-- Registers from the new allocation on have lost their contents. -/
theorem Executes.view_shrunk (h : Executes i s k G m act pc) (a l : Nat) (r : BitVec 8) :
    ((G.shrunk m act a).view l).reg ⟨false, r⟩ = if r.toNat < a then (G.view l).reg ⟨false, r⟩ else (0, false) := by
  have hx : (((G.shrunk m act a).lane l).x.get 0 r.toNat, ((G.shrunk m act a).lane l).xp.get false r.toNat) =
      (((G.lane l).cut a).x.get 0 r.toNat, ((G.lane l).cut a).xp.get false r.toNat) := by
    rw [h.lane_shrunk]
    split <;> rfl
  rw [view_reg_x, view_reg_x, hx, reg_cut]
  by_cases hr : r = 0
  · rw [if_pos hr, if_pos hr, ite_self]
  · rw [if_neg hr, if_neg hr]

/-- What `SHRINK` does where the allocation stays at 8 or more and no `GROW` of the core waits. -/
theorem shrink_executes {g : Guard} {n : Word} (h : Executes (.shrink g n) s k G m act pc) (hn : n.toNat + 8 ≤ G.alloc)
    (hgrow : (s.core (coreOf k)).grow = []) :
    exec (.shrink g n) s = .next ((s.setCore (coreOf k) (s.core (coreOf k))).setGang k
      (G.shrunk m act (G.alloc - n.toNat))) := by
  have hkeep : { s.core (coreOf k) with grow := [] } = s.core (coreOf k) := by rw [← hgrow]
  have hbody (X : Gang) : (s.setGang k X).grantGrow (coreOf k) ((s.setGang k X).core (coreOf k)).grow =
      (s.setCore (coreOf k) (s.core (coreOf k))).setGang k X := by
    have hcore : (s.setGang k X).core (coreOf k) = s.core (coreOf k) := rfl
    rw [hcore, hgrow, State.grantGrow, hcore, hkeep]
    rfl
  have hwaits : ((G.advance act).shrinkTo (G.alloc - n.toNat)).waits = G.waits := waits_advance G act
  change execShrink g n s = _
  rw [execShrink, threadOp_executes h]
  simp only [h.gang, if_neg (Nat.not_lt.mpr hn), hbody]
  rw [after_advance h _ hwaits, Gang.shrunk]

/-- Settles O21: `GROW` by what the pool has, `SHRINK` by the cut of each lane's registers. -/
theorem allocationResults : Obligations.AllocationResults := by
  unfold Obligations.AllocationResults
  refine ⟨?grow, ?shrink⟩
  case grow =>
    intro g d n try_ s k G m act pc i h
    refine grow_executes h ?_
    cases try_ <;> rfl
  case shrink =>
    intro g n s k G m act pc h hn hgrow
    have hframe := frame_shrunk G m act (G.alloc - n.toNat)
    have hlane := h.lane_shrunk (G.alloc - n.toNat)
    refine ⟨_, shrink_executes h hn hgrow, (congrArg Gang.alloc hframe :), h.view_shrunk _, fun l => ?_, ?_⟩
    · rw [hlane]
      split
      next hm => rw [← h.here l hm]; rfl
      next => rfl
    · exact congrArg (fun F : Gang => { F with
        alloc := G.alloc, lanes := G.lanes, walkFaults := G.walkFaults, refetched := G.refetched, answers := G.answers }) hframe

end Sys2Proof.Machine
end

section
/-! SUPPORT. What settling leaves of the lanes of all gangs: everything but their addresses (R145, R155, R193, R284). -/

namespace Sys2Proof.Machine

variable {s t : State} {k : Nat} {G : Gang}

-- The lanes of a gang, addresses set aside

/-- A lane of a gang, its address set aside. -/
def Gang.still (G : Gang) (l : Nat) : Lane := { G.lane l with pc := 0 }

/-- A lane sent on is the same but for its address. -/
theorem still_putLane_pc (G : Gang) (l : Nat) (p : DWord) : (G.putLane l { G.lane l with pc := p }).still = G.still := by
  funext j
  simp only [Gang.still, lane_putLane]
  split
  next h => rw [h.1]
  next => rfl

theorem still_foldl_gang {α : Type} {f : Gang → α → Gang} (hf : ∀ G x, (f G x).still = G.still) (xs : List α) (G : Gang) :
    (xs.foldl f G).still = G.still := by
  induction xs generalizing G with
  | nil => rfl
  | cons x xs ih => exact (ih _).trans (hf G x)

theorem still_advance (G : Gang) (m : Mask) : (G.advance m).still = G.still := by
  unfold Gang.advance
  exact still_foldl_gang (fun G l => still_putLane_pc G l _) (lanesOf m) (G.settled m)

theorem still_settleReconv (G : Gang) : G.settleReconv.still = G.still := by
  unfold Gang.settleReconv
  refine (still_foldl_gang (fun G e => ?_) _ _).trans rfl
  exact still_foldl_gang (fun G l => still_putLane_pc G l _) _ G

/-- Lanes that go on from a wait. -/
theorem still_released (G : Gang) (m' m : Mask) : ((G.unwait m').advance m).still = G.still := still_advance _ m

/-- A lane as it leaves. -/
def Lane.ended (L : Lane) : Lane := { L with life := .exited, depth := 0, hd := false, incont := false }

theorem ended_ended (L : Lane) : L.ended.ended = L.ended := rfl

theorem still_putLane_ended (G : Gang) (l : Nat) :
    (G.putLane l (G.lane l).ended).still = fun j => if j = l then (G.still j).ended else G.still j := by
  funext j
  simp only [Gang.still, lane_putLane]
  by_cases hj : j = l
  · subst hj
    by_cases hl : j < G.lanes.length
    · rw [if_pos ⟨rfl, hl⟩, if_pos rfl]
      rfl
    · rw [if_neg fun h => hl h.2, if_pos rfl, lane_eq_exited (Nat.not_lt.mp hl)]
      rfl
  · rw [if_neg fun h => hj h.1, if_neg hj]

-- The lanes of all gangs

/-- The lanes of the gangs that there are, their addresses set aside. -/
def State.still (s : State) (n : Nat) : Option (Nat → Lane) := (s.gangs.find? n).map Gang.still

theorem still_of_gangs (h : t.gangs = s.gangs) : t.still = s.still := by
  unfold State.still
  rw [h]

theorem still_foldl {α : Type} {f : State → α → State} (hf : ∀ s x, (f s x).still = s.still) (xs : List α) (s : State) :
    (xs.foldl f s).still = s.still := by
  induction xs generalizing s with
  | nil => rfl
  | cons x xs ih => exact (ih _).trans (hf s x)

theorem still_setGang (hG : s.gangs.find? k = some G) (H : Gang) (n : Nat) :
    (s.setGang k H).still n = if n = k then some H.still else s.still n := by
  by_cases hn : n = k
  · subst hn
    simp [State.still]
  · simp [State.still, hn, SMap.find?_put_of_ne _ _ hn]

theorem still_onGang (s : State) (k : Nat) {f : Gang → Gang} (hf : ∀ G, (f G).still = G.still) :
    (s.onGang k f).still = s.still := by
  unfold State.onGang
  split
  next G hG =>
    funext n
    rw [still_setGang hG]
    split
    next hn => rw [hn, State.still, hG, hf]; rfl
    next => rfl
  next => rfl

theorem still_onGangAt (s : State) (k : Nat) {f : Gang → Gang} (hf : ∀ G, (f G).still = G.still) :
    (s.onGangAt k f).still = s.still := by
  unfold State.onGangAt
  split
  · rfl
  · exact still_onGang s k hf

theorem gangs_onBlock (s : State) (b : Nat) (f : Block → Block) : (s.onBlock b f).gangs = s.gangs := by
  unfold State.onBlock
  split <;> rfl

theorem gangs_setBarrier (s : State) (r : BarRef) (b : Barrier) : (s.setBarrier r b).gangs = s.gangs := by
  cases r with
  | gang k =>
    dsimp only [State.setBarrier]
    split
    · exact gangs_onBlock s _ _
    · rfl
  | blk k n => exact gangs_onBlock s k _
  | ens e n => dsimp only [State.setBarrier]; split <;> rfl
  | coop t n => dsimp only [State.setBarrier]; split <;> rfl

-- Barriers and rendezvous

theorem still_releaseBar (s : State) (r : BarRef) (phase k : Nat) : (s.releaseBar r phase k).still = s.still := by
  dsimp only [State.releaseBar]
  split
  · rfl
  split
  · exact still_onGangAt s k fun G => still_released G _ _
  · exact (still_of_gangs (gangs_of_roster (roster_acquireAt _ _ _))).trans (still_onGangAt s k fun G => still_released G _ _)

theorem still_settleBar (s : State) (r : BarRef) : (s.settleBar r).still = s.still := by
  dsimp only [State.settleBar]
  split
  · rfl
  · exact (still_foldl (fun s k => still_releaseBar s r _ k) _ _).trans (still_of_gangs (gangs_setBarrier s r _))

theorem still_releaseRdv (s : State) (b n : Nat) : (s.releaseRdv b n).still = s.still := by
  dsimp only [State.releaseRdv]
  split
  · rfl
  · refine (still_of_gangs (gangs_onBlock _ b _)).trans (still_foldl (fun s sl => ?_) _ s)
    exact still_onGang s _ fun G => still_released G _ _

theorem still_settlePoint (s : State) (b n : Nat) : (s.settlePoint b n).still = s.still := by
  dsimp only [State.settlePoint]
  split
  · rfl
  split
  · rfl
  split
  · rfl
  · exact (still_releaseRdv _ b n).trans (still_of_gangs (gangs_onBlock s b _))

theorem still_settleParty (s : State) (b : Nat) : (s.settleParty b).still = s.still := by
  dsimp only [State.settleParty]
  exact (still_of_gangs (gangs_onBlock _ b _)).trans (still_foldl (fun s n => still_settlePoint s b n) _ s)

/-- Settling after a lane has left sends lanes on, and changes nothing else of any lane. -/
theorem still_settleAll (s : State) (k : Nat) : (s.settleAll k).still = s.still := by
  have hrec : (s.onGang k (·.settleReconv)).still = s.still := still_onGang s k still_settleReconv
  dsimp only [State.settleAll]
  split
  · exact hrec
  split
  · exact hrec
  · exact (still_settleParty _ _).trans ((still_foldl (fun s r => still_settleBar s r) _ _).trans hrec)

-- Lanes that leave, and the end of an instruction

theorem gangs_withdraw (s : State) (k l : Nat) : (s.withdraw k l).gangs = s.gangs := by
  dsimp only [State.withdraw]
  split
  · rfl
  next G hG =>
    generalize hu : s.onBlock G.block _ = u
    have hus : u.gangs = s.gangs := by
      rw [← hu]
      exact gangs_onBlock s G.block _
    split
    · exact hus
    · split <;> exact hus

/-- A lane that leaves is ended; every other lane keeps everything but its address. -/
theorem still_leave (s : State) (k l n : Nat) :
    (s.leave k l).still n = (s.still n).map fun f j => if n = k ∧ j = l then (f j).ended else f j := by
  have hput (u : State) (hu : u.gangs = s.gangs) :
      (u.onGang k fun G =>
        let G := (G.leaveReconv l).unwait (laneBit l)
        G.putLane l (G.lane l).ended).still n = (s.still n).map fun f j => if n = k ∧ j = l then (f j).ended else f j := by
    have hsn : u.still n = s.still n := by rw [still_of_gangs hu]
    rw [← hsn]
    unfold State.onGang
    split
    next G hG =>
      rw [still_setGang hG]
      by_cases hn : n = k
      · subst hn
        rw [if_pos rfl, State.still, hG, still_putLane_ended]
        simp only [true_and]
        rfl
      · simp [hn]
    next hG =>
      by_cases hn : n = k
      · subst hn
        simp [State.still, hG]
      · simp [hn]
  unfold State.leave
  rw [still_settleAll]
  exact hput _ (gangs_withdraw s k l)

theorem still_foldl_leave (k : Nat) (ls : List Nat) (s : State) (n : Nat) :
    (ls.foldl (fun s l => s.leave k l) s).still n =
      (s.still n).map fun f j => if n = k ∧ j ∈ ls then (f j).ended else f j := by
  induction ls generalizing s with
  | nil => simp
  | cons l ls ih =>
    rw [List.foldl_cons, ih, still_leave, Option.map_map]
    refine congrArg (Option.map · _) (funext₂ fun f j => ?_)
    by_cases hn : n = k
    · by_cases hl : j = l
      · simp [hn, hl, ended_ended]
      · simp [hn, hl]
    · simp [hn]

/-- However an instruction ends for the other lanes of its group, no lane changes but in its address. -/
theorem still_after (s : State) (k : Nat) (act rest : Mask) :
    (s.after k act rest (·.advance k rest)).still = s.still := by
  unfold State.after
  split
  · split
    · dsimp only [State.growWith]
      split
      · rfl
      · exact still_onGang _ k fun _ => rfl
    · refine still_onGang s k fun G => ?_
      unfold Gang.wait
      split <;> rfl
  · exact still_onGang s k fun G => still_advance G rest

end Sys2Proof.Machine
end

section
/-! O20: `EXIT` (R155, R195, R347). -/

namespace Sys2Proof.Machine

variable {i : Instr} {s t : State} {k : Nat} {G : Gang} {m act : Mask} {pc : DWord} {B : Block}

/-- No stop is taken where none of the block's sequencers has one. -/
theorem takeStops_of_none (hG : s.gangs.find? k = some G) (hB : s.blocks.find? G.block = some B) (hm : B.mseq.stop = none)
    (hc : B.cseq.stop = none) (act : Mask) : s.takeStops k act = (s, act) := by
  simp [State.takeStops, State.takeStop, hG, hB, Block.seq, hm, hc]

/-- No fault is taken where none is held for the lanes. -/
theorem takeHeld_of_none (hG : s.gangs.find? k = some G) (hheld : ∀ h ∈ G.heldFaults, act.getLsbD h.lane = false) :
    s.takeHeld k act = (s, 0) := by
  have hnone : ∀ l ∈ lanesOf act, (G.heldFaults.find? (·.lane == l)) = none := by
    intro l hl
    rw [List.find?_eq_none]
    intro x hx he
    rw [beq_iff_eq] at he
    subst he
    rw [mem_lanesOf, hheld x hx] at hl
    cases hl
  unfold State.takeHeld
  generalize lanesOf act = ls at hnone
  induction ls with
  | nil => rfl
  | cons l ls ih =>
    rw [List.foldl_cons]
    simp only [hG, Option.bind_some, hnone l (by simp)]
    exact ih fun x hx => hnone x (by simp [hx])

/-- What the body of `EXIT` does where nothing has to be taken or waited for. -/
theorem exitThread_of_quiet (hact : act ≠ 0) (hstops : s.takeStops k act = (s, act)) (hdrain : s.drain k act = (s, true))
    (hheld : s.takeHeld k act = (s, 0)) : exitThread s k act = (lanesOf act).foldl (fun s l => s.leave k l) s := by
  have hall : act &&& ~~~0#32 = act := by
    rw [BitVec.not_zero, BitVec.and_allOnes]
  simp only [exitThread, hstops, if_neg hact, hdrain, hheld]
  rw [show act &&& ~~~0 = act from hall]

/-- A lane of the device, its address set aside; there is an exited one where there is none. -/
theorem lane_still (s : State) (n l : Nat) :
    { s.lane n l with pc := 0 } = ((s.still n).map (· l)).getD { life := .exited } := by
  unfold State.lane State.still
  cases s.gangs.find? n <;> rfl

theorem still_eq_none_iff (s : State) (n : Nat) : s.still n = none ↔ s.gangs.find? n = none := Option.map_eq_none_iff

/-- Lanes that agree but in their addresses. -/
theorem exists_pc_of_still {L L' : Lane} (h : { L with pc := 0 } = { L' with pc := 0 }) : ∃ p, L = { L' with pc := p } :=
  ⟨L.pc, (congrArg (fun X : Lane => { X with pc := L.pc }) h :)⟩

/-- Settles O20: the body of `EXIT` has its lanes leave, one by one, and a sequencer's `EXIT` only marks it. -/
theorem exitEndsLanes : Obligations.ExitEndsLanes := by
  unfold Obligations.ExitEndsLanes
  refine ⟨fun g s k G m act pc B h hB hm hc hdrain hheld => ?group, fun g mx s b B h => ?sequencer⟩
  case sequencer =>
    change execExit g s = _
    rw [execExit, anyOp_seqExecutes h, onSeq_of_find h.block]
  case group =>
    have hbody := exitThread_of_quiet h.some (takeStops_of_none h.gang hB hm hc act) hdrain (takeHeld_of_none h.gang hheld)
    have hstill := fun n => (congrFun (still_after (exitThread s k act) k act (m &&& ~~~act)) n).trans
      (hbody ▸ still_foldl_leave k (lanesOf act) s n)
    have hexec : exec (.exit g) s = .next ((exitThread s k act).after k act (m &&& ~~~act) (·.advance k (m &&& ~~~act))) := by
      change execExit g s = _
      rw [execExit, anyOp_executes h]
    generalize (exitThread s k act).after k act (m &&& ~~~act) (·.advance k (m &&& ~~~act)) = t at hstill hexec
    refine ⟨t, hexec, fun n => ?_, fun n l => ?_⟩
    · rw [← still_eq_none_iff, ← still_eq_none_iff, hstill, Option.map_eq_none_iff]
    · have hlane : { t.lane n l with pc := 0 } = if n = k ∧ l ∈ lanesOf act then ({ s.lane n l with pc := 0 } : Lane).ended
          else { s.lane n l with pc := 0 } := by
        rw [lane_still, lane_still, hstill]
        cases s.still n
        · exact (ite_self _).symm
        · rfl
      split
      next hl => exact exists_pc_of_still (L' := (s.lane n l).ended) (hlane.trans (if_pos hl))
      next hl => exact exists_pc_of_still (hlane.trans (if_neg hl))

end Sys2Proof.Machine
end

section
/-! SUPPORT. What `RECONV` uses (R145, R154): tables of entries searched by address, the arrivals of lanes one by one, and the
entries that are freed. -/

namespace Sys2Proof.SMap

variable {α : Type}

/-- A value that passes a test is found by it after it has been put where the first one stood that did, or where none did. -/
theorem listFind?_put {p : Nat × α → Bool} (m : SMap α) {n : Nat} {v : α} (hv : p (n, v) = true)
    (h : ∀ e, List.find? p m = some e → e.1 = n) : List.find? p (put m n v) = some (n, v) := by
  induction m with
  | nil => simp [put, hv]
  | cons e m ih =>
    obtain ⟨k, w⟩ := e
    simp only [put]
    split
    · simp [hv]
    · split
      · simp [hv]
      next hk =>
        have hp : p (k, w) = false := by
          by_contra hc
          rw [Bool.not_eq_false] at hc
          exact hk (h (k, w) (List.find?_cons_of_pos hc)).symm
        have hskip (xs : SMap α) : List.find? p ((k, w) :: xs) = List.find? p xs := List.find?_cons_of_neg (by simp [hp])
        rw [hskip, ih fun e he => h e ((hskip m).trans he)]

/-- The first number that a table does not list. -/
theorem freeFrom_eq_some {m : SMap α} {fuel n j : Nat} (hn : n ≤ j) (hj : j < n + fuel) (hfree : find? m j = none)
    (hused : ∀ i, n ≤ i → i < j → (find? m i).isSome) : freeFrom m fuel n = some j := by
  induction fuel generalizing n with
  | zero => omega
  | succ fuel ih =>
    unfold freeFrom
    by_cases h : n = j
    · subst h
      simp [hfree]
    · have hsome := hused n (le_refl n) (by omega)
      rw [if_neg (by rw [Option.isNone_iff_eq_none, ← Option.not_isSome_iff_eq_none, not_not]; exact hsome)]
      exact ih (by omega) (by omega) fun i hi => hused i (by omega)

end Sys2Proof.SMap

namespace Sys2Proof.Machine

variable {s : State} {k j : Nat} {G H : Gang} {m act arr : Mask} {pc : DWord} {e : Reconv} {R : SMap Reconv}

-- Masks

theorem maskOf_cons (l : Nat) (ls : List Nat) : maskOf (l :: ls) = laneBit l ||| maskOf ls := by
  have hfold (a b : Mask) : ls.foldl (fun m l => m ||| laneBit l) (a ||| b) = a ||| ls.foldl (fun m l => m ||| laneBit l) b := by
    induction ls generalizing b with
    | nil => rfl
    | cons x ls ih => rw [List.foldl_cons, List.foldl_cons, BitVec.or_assoc, ih]
  have hzero : (0 : Mask) ||| laneBit l = laneBit l ||| 0 := BitVec.or_comm _ _
  rw [maskOf, List.foldl_cons, hzero, hfold, maskOf]

theorem and_laneBit (w : Mask) {l : Nat} (hl : l < 32) : w &&& laneBit l = if w.getLsbD l then laneBit l else 0 := by
  refine BitVec.eq_of_getLsbD_eq fun j _ => ?_
  rw [BitVec.getLsbD_and, getLsbD_laneBit hl]
  by_cases hj : l = j
  · subst hj
    cases hw : w.getLsbD l <;> simp [getLsbD_laneBit hl]
  · cases hw : w.getLsbD l <;> simp [getLsbD_laneBit hl, hj]

theorem laneBit_ne_zero {l : Nat} (hl : l < 32) : laneBit l ≠ 0 := fun hc => by
  have := congrArg (·.getLsbD l) hc
  simp [getLsbD_laneBit hl] at this

-- Arrivals

/-- The entries of a gang once the lanes `arr` have arrived at entry `j`, which is `e`. -/
def arriveAt (R : SMap Reconv) (j : Nat) (e : Reconv) (arr : Mask) : SMap Reconv :=
  if arr = 0 then R else R.put j { e with arrived := e.arrived ||| arr }

/-- The fields of a gang other than its lanes, its reconvergence entries and what walks, lines fetched again and other devices
have told them. -/
def Gang.outer (G : Gang) : Gang := { G.frame with reconv := [] }

theorem outer_advance (G : Gang) (m : Mask) : (G.advance m).outer = G.outer :=
  congrArg (fun F : Gang => { F with reconv := [] }) (frame_advance G m)

theorem reconv_advance (G : Gang) (m : Mask) : (G.advance m).reconv = G.reconv :=
  (congrArg Gang.reconv (frame_advance G m) : (G.advance m).frame.reconv = G.frame.reconv)

/-- Gang `H` is gang `G` while some lanes execute `RECONV`: the lanes `on` have gone on, and the entries are `R`. -/
structure Gang.Arriving (G H : Gang) (on : List Nat) (R : SMap Reconv) : Prop where
  lane : ∀ l, H.lane l = if l ∈ on then onward (G.lane l) else G.lane l
  length : H.lanes.length = G.lanes.length
  reconv : H.reconv = R
  outer : H.outer = G.outer

theorem Gang.Arriving.refl (G : Gang) : G.Arriving G [] G.reconv := ⟨fun _ => by simp, rfl, rfl, rfl⟩

/-- One more lane goes on. -/
theorem Gang.Arriving.advance {on : List Nat} (h : G.Arriving H on R) {l : Nat} (hl : l < 32) (hlen : l < G.lanes.length)
    (hon : l ∉ on) : G.Arriving (H.advance (laneBit l)) (l :: on) R := by
  refine ⟨fun x => ?_, (length_advance ..).trans h.length, (reconv_advance ..).trans h.reconv, (outer_advance ..).trans h.outer⟩
  simp only [lane_advance, lanesOf_laneBit hl, List.mem_singleton, h.length, h.lane]
  by_cases hx : x = l
  · subst hx
    simp [hon, hlen]
  · simp [hx]

/-- One more lane arrives. -/
theorem Gang.Arriving.arrive {on : List Nat} (h : G.Arriving H on R) (x : Mask) (R' : SMap Reconv) :
    G.Arriving { H.settled x with reconv := R' } on R' :=
  ⟨h.lane, h.length, rfl, h.outer⟩

/-- The first entry for an address. -/
def entryFor (pc : DWord) (R : SMap Reconv) : Option (Nat × Reconv) := List.find? (fun x => x.2.addr == pc) R

/-- A lane that executes `RECONV` at an address for which there is an entry. -/
theorem arriveReconv_of_entry (hH : s.gangs.find? k = some H) {l : Nat} (hpc : (H.lane l).pc = pc)
    (hentry : entryFor pc H.reconv = some (j, e)) (mask : Word × Bool) :
    s.arriveReconv k l mask = s.setGang k
      (if e.members.getLsbD l then { H.settled (laneBit l) with
          reconv := H.reconv.put j { e with arrived := e.arrived ||| laneBit l } }
        else H.advance (laneBit l)) := by
  rw [entryFor] at hentry
  simp only [State.arriveReconv, hH, hpc, hentry]
  split
  · rfl
  · exact onGang_of_find hH _

/-- A lane that executes `RECONV` at an address for which there is no entry: it goes on, or takes a new entry. -/
theorem arriveReconv_of_none (hH : s.gangs.find? k = some H) {l : Nat} (hpc : (H.lane l).pc = pc)
    (hentry : entryFor pc H.reconv = none) {mask : Word × Bool} (hclean : mask.2 = false) (hj : H.freeEntry = some j) :
    s.arriveReconv k l mask = s.setGang k
      (if mask.1.getLsbD l then { H.settled (laneBit l) with reconv := H.reconv.put j ⟨pc, mask.1, laneBit l⟩ }
        else H.advance (laneBit l)) := by
  rw [entryFor] at hentry
  simp only [State.arriveReconv, hH, hpc, hentry, hclean, Bool.false_eq_true, if_false]
  cases hm : mask.1.getLsbD l
  · exact onGang_of_find hH _
  · simp only [hj]
    rfl

theorem arriveAt_zero (R : SMap Reconv) (j : Nat) (e : Reconv) : arriveAt R j e 0 = R := if_pos rfl

/-- Lanes that arrive after others at an entry. -/
theorem arriveAt_put (R : SMap Reconv) (j : Nat) (e : Reconv) {a : Mask} (ha : a ≠ 0) (b : Mask) :
    arriveAt (R.put j { e with arrived := e.arrived ||| a }) j { e with arrived := e.arrived ||| a } b = arriveAt R j e (a ||| b) := by
  have hab : a ||| b ≠ 0 := fun h => ha (BitVec.or_eq_zero_iff.mp h).1
  rw [arriveAt, arriveAt, if_neg hab]
  by_cases hb : b = 0
  · rw [if_pos hb, hb, show a ||| 0 = a from BitVec.or_zero]
  · rw [if_neg hb, SMap.put_put, BitVec.or_assoc]

/-- An entry is the first for its address also after it has changed in place. -/
theorem entryFor_put {e' : Reconv} (haddr : e'.addr = pc) (h : ∀ x, entryFor pc R = some x → x.1 = j) :
    entryFor pc (R.put j e') = some (j, e') :=
  SMap.listFind?_put R (by simpa using haddr) h

/-- What the state of a gang's group needs for the lanes of a list to execute `RECONV` at an address. -/
def Gang.At (G : Gang) (pc : DWord) (on ls : List Nat) : Prop :=
  ls.Nodup ∧ ∀ l ∈ ls, l < 32 ∧ l < G.lanes.length ∧ (G.lane l).pc = pc ∧ l ∉ on

theorem Gang.At.tail {on ls : List Nat} {l : Nat} (h : G.At pc on (l :: ls)) : G.At pc on ls ∧ G.At pc (l :: on) ls := by
  obtain ⟨hn, hl⟩ := h
  obtain ⟨hnot, hn⟩ := List.nodup_cons.mp hn
  refine ⟨⟨hn, fun x hx => hl x (List.mem_cons_of_mem _ hx)⟩, hn, fun x hx => ?_⟩
  obtain ⟨h32, hlen, hpc, hon⟩ := hl x (List.mem_cons_of_mem _ hx)
  refine ⟨h32, hlen, hpc, fun hc => ?_⟩
  rcases List.mem_cons.mp hc with rfl | hc
  · exact hnot hx
  · exact hon hc

/-- Lanes that execute `RECONV` one by one where there is an entry: its members arrive and the others go on. -/
theorem foldl_arrive_entry {on ls : List Nat} (hH : s.gangs.find? k = some H) (h : G.Arriving H on R)
    (hls : G.At pc on ls) (hentry : entryFor pc R = some (j, e)) (mask : Nat → Word × Bool) :
    ∃ H' on', (ls.foldl (fun s l => s.arriveReconv k l (mask l)) s).gangs.find? k = some H' ∧
      (∀ X, (ls.foldl (fun s l => s.arriveReconv k l (mask l)) s).setGang k X = s.setGang k X) ∧
      G.Arriving H' on' (arriveAt R j e (e.members &&& maskOf ls)) ∧
      ∀ l, l ∈ on' ↔ l ∈ on ∨ l ∈ ls ∧ e.members.getLsbD l = false := by
  induction ls generalizing s H on R e with
  | nil =>
    refine ⟨H, on, hH, fun _ => rfl, ?_, by simp⟩
    rw [maskOf_nil, show e.members &&& 0#32 = 0 from BitVec.and_zero, arriveAt_zero]
    exact h
  | cons l ls ih =>
    obtain ⟨h32, hlen, hpc, hon⟩ := hls.2 l List.mem_cons_self
    obtain ⟨hsame, hmore⟩ := hls.tail
    have hlane : (H.lane l).pc = pc := by rw [h.lane, if_neg hon, hpc]
    have hstep := arriveReconv_of_entry hH hlane (h.reconv ▸ hentry) (mask l)
    have hmask : e.members &&& maskOf (l :: ls) = (if e.members.getLsbD l then laneBit l else 0) ||| e.members &&& maskOf ls := by
      rw [maskOf_cons, ← and_laneBit _ h32, BitVec.and_or_distrib_left]
    rw [List.foldl_cons, hstep, hmask]
    cases hm : e.members.getLsbD l
    case true =>
      have haddr : e.addr = pc := by simpa using List.find?_some hentry
      have harr := h.arrive (laneBit l) (R.put j { e with arrived := e.arrived ||| laneBit l })
      have hentry' := entryFor_put (e' := { e with arrived := e.arrived ||| laneBit l }) (j := j) haddr
        fun x hx => by rw [hentry] at hx; cases hx; rfl
      rw [← h.reconv] at harr
      obtain ⟨H', on', h1, h2, h3, h4⟩ := ih (setGang_find s k _) harr hsame (h.reconv ▸ hentry')
      refine ⟨H', on', h1, fun X => (h2 X).trans (setGang_setGang ..), ?_, fun x => ?_⟩
      · rw [h.reconv, arriveAt_put _ _ _ (laneBit_ne_zero h32)] at h3
        exact h3
      · rw [h4, List.mem_cons]
        constructor
        · exact fun hx => hx.imp_right fun ⟨h5, h6⟩ => ⟨.inr h5, h6⟩
        · rintro (hx | ⟨rfl | hx, hx'⟩)
          · exact .inl hx
          · rw [hm] at hx'; cases hx'
          · exact .inr ⟨hx, hx'⟩
    case false =>
      obtain ⟨H', on', h1, h2, h3, h4⟩ := ih (setGang_find s k _) (h.advance h32 hlen hon) hmore hentry
      refine ⟨H', on', h1, fun X => (h2 X).trans (setGang_setGang ..), ?_, fun x => ?_⟩
      · have hor : (0 : Mask) ||| e.members &&& maskOf ls = e.members &&& maskOf ls := BitVec.zero_or
        rw [if_neg Bool.false_ne_true, hor]
        exact h3
      · rw [h4, List.mem_cons, List.mem_cons]
        constructor
        · rintro ((rfl | hx) | ⟨hx, hx'⟩)
          · exact .inr ⟨.inl rfl, hm⟩
          · exact .inl hx
          · exact .inr ⟨.inr hx, hx'⟩
        · rintro (hx | ⟨rfl | hx, hx'⟩)
          · exact .inl (.inr hx)
          · exact .inl (.inl rfl)
          · exact .inr ⟨hx, hx'⟩

/-- Lanes that execute `RECONV` one by one where there is no entry, none of them in its own mask, go on. -/
theorem foldl_arrive_none {on ls : List Nat} (hH : s.gangs.find? k = some H) (h : G.Arriving H on R) (hls : G.At pc on ls)
    (hentry : entryFor pc R = none) (hj : R.freeFrom 8 0 = some j) {mask : Nat → Word × Bool}
    (hmask : ∀ l ∈ ls, (mask l).2 = false ∧ (mask l).1.getLsbD l = false) :
    ∃ H' on', (ls.foldl (fun s l => s.arriveReconv k l (mask l)) s).gangs.find? k = some H' ∧
      (∀ X, (ls.foldl (fun s l => s.arriveReconv k l (mask l)) s).setGang k X = s.setGang k X) ∧
      G.Arriving H' on' R ∧ ∀ l, l ∈ on' ↔ l ∈ on ∨ l ∈ ls := by
  induction ls generalizing s H on with
  | nil => exact ⟨H, on, hH, fun _ => rfl, h, by simp⟩
  | cons l ls ih =>
    obtain ⟨h32, hlen, hpc, hon⟩ := hls.2 l List.mem_cons_self
    obtain ⟨hclean, hnot⟩ := hmask l List.mem_cons_self
    have hlane : (H.lane l).pc = pc := by rw [h.lane, if_neg hon, hpc]
    have hstep := arriveReconv_of_none hH hlane (h.reconv ▸ hentry) hclean (j := j) (by rw [Gang.freeEntry, h.reconv, hj])
    rw [hnot, if_neg Bool.false_ne_true] at hstep
    rw [List.foldl_cons, hstep]
    obtain ⟨H', on', h1, h2, h3, h4⟩ := ih (setGang_find s k _) (h.advance h32 hlen hon) hls.tail.2
      fun x hx => hmask x (List.mem_cons_of_mem _ hx)
    refine ⟨H', on', h1, fun X => (h2 X).trans (setGang_setGang ..), h3, fun x => ?_⟩
    rw [h4, List.mem_cons, List.mem_cons, or_left_comm, or_assoc]

-- Entries that are freed

/-- Whether every member of an entry that has not exited has arrived. -/
def Reconv.complete (live : Mask) (e : Reconv) : Bool := e.members &&& live &&& ~~~e.arrived == 0

/-- The lanes that have arrived at an entry go on behind its address. -/
def Gang.sendOn (G : Gang) (e : Nat × Reconv) : Gang :=
  (lanesOf e.2.arrived).foldl (fun G l => G.putLane l { G.lane l with pc := succ e.2.addr }) G

theorem settleReconv_eq (G : Gang) : G.settleReconv =
    (G.reconv.filter fun x => x.2.complete G.live).foldl Gang.sendOn
      { G with reconv := G.reconv.filter fun x => !x.2.complete G.live } := rfl

theorem lane_sendOn (G : Gang) (e : Nat × Reconv) (l : Nat) :
    (G.sendOn e).lane l =
      if l ∈ lanesOf e.2.arrived ∧ l < G.lanes.length then { G.lane l with pc := succ e.2.addr } else G.lane l :=
  lane_foldl_putLane (fun L => { L with pc := succ e.2.addr }) _ (lanesOf_nodup _) G l

/-- Gang `H` is gang `G` after the lanes that have arrived at the entries `es` have gone on behind their addresses. -/
structure Gang.SentOn (G H : Gang) (es : SMap Reconv) : Prop where
  others : ∀ l, (∀ x ∈ es, x.2.arrived.getLsbD l = false) → H.lane l = G.lane l
  arrived : ∀ l < G.lanes.length, ∀ x ∈ es, x.2.arrived.getLsbD l = true →
    ∃ y ∈ es, y.2.arrived.getLsbD l = true ∧ H.lane l = { G.lane l with pc := succ y.2.addr }
  rest : H = { G with lanes := H.lanes }
  length : H.lanes.length = G.lanes.length

theorem foldl_sendOn (es : SMap Reconv) (G : Gang) : G.SentOn (es.foldl Gang.sendOn G) es := by
  induction es generalizing G with
  | nil => exact ⟨fun _ _ => rfl, nofun, rfl, rfl⟩
  | cons e es ih =>
    obtain ⟨others, arrived, rest, length⟩ := ih (G.sendOn e)
    have hlen : (G.sendOn e).lanes.length = G.lanes.length := length_foldl_putLane (fun L => { L with pc := succ e.2.addr }) _ G
    have hrest : G.sendOn e = { G with lanes := (G.sendOn e).lanes } :=
      foldl_putLane_eq (fun L => { L with pc := succ e.2.addr }) _ G
    rw [List.foldl_cons]
    refine ⟨fun l hl => ?_, fun l hlt x hx hxl => ?_, by rw [rest, hrest], length.trans hlen⟩
    · obtain ⟨he, hes⟩ := List.forall_mem_cons.mp hl
      rw [others l hes, lane_sendOn, if_neg fun hc => Bool.false_ne_true (he.symm.trans (mem_lanesOf.mp hc.1))]
    · by_cases hlater : ∃ z ∈ es, z.2.arrived.getLsbD l = true
      · obtain ⟨z, hz, hzl⟩ := hlater
        obtain ⟨y, hy, hyl, hlane⟩ := arrived l (hlen ▸ hlt) z hz hzl
        refine ⟨y, List.mem_cons_of_mem _ hy, hyl, ?_⟩
        rw [hlane, lane_sendOn]
        split <;> rfl
      · have hnone : ∀ z ∈ es, z.2.arrived.getLsbD l = false := fun z hz => by
          by_contra hc
          exact hlater ⟨z, hz, by simpa using hc⟩
        obtain rfl : x = e := (List.mem_cons.mp hx).resolve_right fun hxe => hlater ⟨x, hxe, hxl⟩
        exact ⟨x, List.mem_cons_self, hxl, by rw [others l hnone, lane_sendOn, if_pos ⟨mem_lanesOf.mpr hxl, hlt⟩]⟩

end Sys2Proof.Machine
end

section
/-! O17: `RECONV` (R145, R154). -/

namespace Sys2Proof.Machine

variable {i : Instr} {s : State} {k j : Nat} {G H : Gang} {m act arr : Mask} {pc : DWord} {e : Reconv} {R : SMap Reconv}

/-- The entry at which the active lanes of a group arrive, `e` under the number `j`, and the lanes `arr` that do: the entry for
their address, or a new one that the first lane in its own mask takes. -/
inductive Gang.Meets (G : Gang) (act : Mask) (pc : DWord) (mask : Nat → Word × Bool) (j : Nat) : Reconv → Mask → Prop
  | entry (e : Reconv) (h : entryFor pc G.reconv = some (j, e)) : G.Meets act pc mask j e (e.members &&& act)
  | new (l₀ : Nat) (h : entryFor pc G.reconv = none) (clean : ∀ l ∈ lanesOf act, (mask l).2 = false)
      (first : (lanesOf act).find? (fun l => (mask l).1.getLsbD l) = some l₀) (free : G.reconv.freeFrom 8 0 = some j) :
      G.Meets act pc mask j ⟨pc, (mask l₀).1, 0⟩ ((mask l₀).1 &&& act &&& maskOf ((List.range 32).filter (l₀ ≤ ·)))

/-- The lanes that arrive are active. -/
theorem Gang.Meets.sub {mask : Nat → Word × Bool} (h : G.Meets act pc mask j e arr) {l : Nat} (hl : arr.getLsbD l = true) :
    l ∈ lanesOf act := by
  rw [mem_lanesOf]
  cases h with
  | entry => exact (Bool.and_eq_true_iff.mp (BitVec.getLsbD_and .. ▸ hl)).2
  | new =>
    rw [BitVec.getLsbD_and, BitVec.getLsbD_and] at hl
    exact (Bool.and_eq_true_iff.mp (Bool.and_eq_true_iff.mp hl).1).2

/-- The lanes of a new entry that arrive: the lane that takes it, and its members behind that lane. -/
theorem arrivals_new {l₀ : Nat} {as bs : List Nat} (hact : lanesOf act = as ++ l₀ :: bs) {w : Word} (hw : w.getLsbD l₀ = true) :
    w &&& act &&& maskOf ((List.range 32).filter (l₀ ≤ ·)) = laneBit l₀ ||| w &&& maskOf bs := by
  have hsorted : (lanesOf act).Pairwise (· < ·) := List.pairwise_lt_range.filter _
  rw [hact, List.pairwise_append, List.pairwise_cons] at hsorted
  obtain ⟨-, ⟨hbs, -⟩, has⟩ := hsorted
  have hl₀ : l₀ < 32 := lanesOf_lt (m := act) (by simp [hact])
  refine BitVec.eq_of_getLsbD_eq fun x hx => ?_
  have hmem : act.getLsbD x = decide (x ∈ as ∨ x = l₀ ∨ x ∈ bs) := by
    rw [Bool.eq_iff_iff, ← mem_lanesOf, hact]
    simp
  rw [BitVec.getLsbD_and, BitVec.getLsbD_and, BitVec.getLsbD_or, BitVec.getLsbD_and, hmem, getLsbD_laneBit hl₀,
    getLsbD_maskOf_of_lt _ hx, getLsbD_maskOf_of_lt _ hx]
  have hbefore : x ∈ as → ¬l₀ ≤ x := fun h => Nat.not_le.mpr (has x h l₀ (by simp))
  have hafter : x ∈ bs → l₀ < x := hbs x
  by_cases hx₀ : x = l₀
  · subst hx₀
    simp [hw, hx]
  · by_cases hb : x ∈ bs
    · simp [hx₀, Ne.symm hx₀, hb, hx, (hafter hb).le]
    · by_cases ha : x ∈ as
      · simp [Ne.symm hx₀, hb, hx, hbefore ha]
      · simp [hx₀, Ne.symm hx₀, hb, ha]

/-- Active lanes stand at the group's address. -/
theorem Executes.standsAt (h : Executes i s k G m act pc) {on ls : List Nat} (hn : ls.Nodup) (hact : ∀ l ∈ ls, l ∈ lanesOf act)
    (hon : ∀ l ∈ ls, l ∉ on) : G.At pc on ls :=
  ⟨hn, fun l hl => ⟨lanesOf_lt (hact l hl), h.lt (h.sub (hact l hl)), h.here l (h.sub (hact l hl)), hon l hl⟩⟩

/-- The active lanes of a group execute `RECONV` one by one. -/
theorem Executes.arrivals (h : Executes i s k G m act pc) {mask : Nat → Word × Bool} (hmeets : G.Meets act pc mask j e arr) :
    ∃ H on, ((lanesOf act).foldl (fun s l => s.arriveReconv k l (mask l)) s).gangs.find? k = Option.some H ∧
      (∀ X, ((lanesOf act).foldl (fun s l => s.arriveReconv k l (mask l)) s).setGang k X = s.setGang k X) ∧
      G.Arriving H on (arriveAt G.reconv j e arr) ∧ ∀ l, l ∈ on ↔ l ∈ lanesOf act ∧ arr.getLsbD l = false := by
  cases hmeets with
  | entry e hentry =>
    obtain ⟨H, on, hH, hset, harr, hon⟩ := foldl_arrive_entry h.gang (.refl G)
      (h.standsAt (lanesOf_nodup act) (fun _ hl => hl) fun _ _ => List.not_mem_nil) hentry mask
    rw [maskOf_lanesOf] at harr
    refine ⟨H, on, hH, hset, harr, fun l => ?_⟩
    rw [hon, BitVec.getLsbD_and]
    simp +contextual [mem_lanesOf]
  | new l₀ hnone hclean hfirst hfree =>
    obtain ⟨hown, as, bs, hact, has⟩ := List.find?_eq_some_iff_append.mp hfirst
    have hnodup := lanesOf_nodup act
    have hmem (l : Nat) : l ∈ lanesOf act ↔ l ∈ as ∨ l = l₀ ∨ l ∈ bs := by rw [hact, List.mem_append, List.mem_cons]
    have hl₀ : l₀ ∈ lanesOf act := (hmem l₀).mpr (.inr (.inl rfl))
    have h32 : l₀ < 32 := lanesOf_lt hl₀
    have has' : ∀ l ∈ as, l ∈ lanesOf act := fun l hl => (hmem l).mpr (.inl hl)
    have hbs' : ∀ l ∈ bs, l ∈ lanesOf act := fun l hl => (hmem l).mpr (.inr (.inr hl))
    rw [arrivals_new hact hown]
    rw [hact] at hnodup
    obtain ⟨hnas, hnbs, hdisj⟩ := List.nodup_append'.mp hnodup
    obtain ⟨hl₀bs, hnbs⟩ := List.nodup_cons.mp hnbs
    have hl₀as : l₀ ∉ as := fun hc => hdisj hc List.mem_cons_self
    have hasbs : ∀ l ∈ bs, l ∉ as := fun l hl hc => hdisj hc (List.mem_cons_of_mem _ hl)
    -- the lanes before the first that is in its own mask
    obtain ⟨H₁, on₁, hH₁, hset₁, harr₁, hon₁⟩ := foldl_arrive_none (mask := mask) h.gang (.refl G)
      (h.standsAt hnas has' fun _ _ => List.not_mem_nil) hnone hfree fun l hl => ⟨hclean l (has' l hl), by simpa using has l hl⟩
    have hnot₁ (l : Nat) (hl : l ∉ as) : l ∉ on₁ := by simp [hon₁, hl]
    -- that lane
    have hpc₀ : (H₁.lane l₀).pc = pc := by rw [harr₁.lane, if_neg (hnot₁ l₀ hl₀as), h.here l₀ (h.sub hl₀)]
    have hstep := arriveReconv_of_none hH₁ hpc₀ (harr₁.reconv ▸ hnone) (hclean l₀ hl₀) (j := j)
      (by rw [Gang.freeEntry, harr₁.reconv, hfree])
    rw [if_pos hown, harr₁.reconv] at hstep
    have hentry : entryFor pc (G.reconv.put j ⟨pc, (mask l₀).1, laneBit l₀⟩) = Option.some (j, ⟨pc, (mask l₀).1, laneBit l₀⟩) :=
      entryFor_put rfl (by simp [hnone])
    -- the lanes behind it
    obtain ⟨H, on, hH, hset, harr, hon⟩ := foldl_arrive_entry (setGang_find _ k _) (harr₁.arrive (laneBit l₀) _)
      (h.standsAt hnbs hbs' fun l hl => hnot₁ l (hasbs l hl)) hentry mask
    rw [hact]
    rw [List.foldl_append, List.foldl_cons, hstep]
    refine ⟨H, on, hH, fun X => (hset X).trans ((setGang_setGang ..).trans (hset₁ X)), ?_, fun l => ?_⟩
    · have hput := arriveAt_put G.reconv j ⟨pc, (mask l₀).1, 0⟩ (laneBit_ne_zero h32) ((mask l₀).1 &&& maskOf bs)
      rw [show (0 : Mask) ||| laneBit l₀ = laneBit l₀ from BitVec.zero_or] at hput
      exact hput ▸ harr
    · rw [hon, hon₁, BitVec.getLsbD_or, BitVec.getLsbD_and, getLsbD_laneBit h32,
        getLsbD_maskOf bs fun l hl => lanesOf_lt (hbs' l hl)]
      by_cases ha : l ∈ as
      · have hne : l₀ ≠ l := fun hc => hl₀as (hc ▸ ha)
        have hb : l ∉ bs := fun hc => hasbs l hc ha
        simp [ha, hne, hb]
      · by_cases hb : l ∈ bs
        · have hne : l₀ ≠ l := fun hc => hl₀bs (hc ▸ hb)
          simp [ha, hne, hb]
        · simp [ha, hb, eq_comm (a := l₀)]

/-- Of a group none of whose lanes converges, only the lanes that now arrive have arrived at an entry. -/
theorem Gang.Meets.arrived {mask : Nat → Word × Bool} (h : G.Meets act pc mask j e arr) (hconv : G.converging &&& m = 0)
    {x : Nat × Reconv} (hx : x ∈ arriveAt G.reconv j e arr) {l : Nat} (hl : x.2.arrived.getLsbD l = true)
    (hm : l ∈ lanesOf m) : arr.getLsbD l = true := by
  have hl₀ : G.converging.getLsbD l = false := by simpa [mem_lanesOf.mp hm] using congrArg (·.getLsbD l) hconv
  have hold (y : Nat × Reconv) (hy : y ∈ G.reconv) : ¬y.2.arrived.getLsbD l = true := by
    rw [getLsbD_converging hy hl₀]
    exact Bool.false_ne_true
  have he : ¬e.arrived.getLsbD l = true := by
    cases h with
    | entry e hentry => exact hold (j, e) (List.mem_of_find?_eq_some hentry)
    | new => simp
  rw [arriveAt] at hx
  split at hx
  · exact absurd hl (hold x hx)
  · rcases SMap.mem_put hx with rfl | hx
    · rw [BitVec.getLsbD_or, Bool.or_eq_true_iff] at hl
      exact hl.resolve_left he
    · exact absurd hl (hold x hx)

/-- What `RECONV` leaves where no lane of the group converges: a freed entry sends its lanes on, and every other lane goes on or
has arrived. -/
theorem reconv_executes (h : Executes i s k G m act pc) {mask : View → Word × Bool} (he : exec i s = threadOp i s (reconv mask))
    (hconv : G.converging &&& m = 0) (hmeets : G.Meets act pc (fun l => mask (G.view l)) j e arr) :
    ∃ H, exec i s = .next (s.setGang k H) ∧
      H.reconv = (arriveAt G.reconv j e arr).filter (fun x => !x.2.complete G.live) ∧
      (∀ l < G.lanes.length, (∀ x ∈ arriveAt G.reconv j e arr, x.2.complete G.live → x.2.arrived.getLsbD l = false) →
        H.lane l = if l ∈ lanesOf m ∧ arr.getLsbD l = false then { G.lane l with pc := succ pc } else G.lane l) ∧
      (∀ l < G.lanes.length, ∀ x ∈ arriveAt G.reconv j e arr, x.2.complete G.live → x.2.arrived.getLsbD l →
        ∃ y ∈ arriveAt G.reconv j e arr, y.2.complete G.live ∧ y.2.arrived.getLsbD l ∧
          H.lane l = { G.lane l with pc := succ y.2.addr }) ∧
      { H with
        lanes := G.lanes, reconv := G.reconv, walkFaults := G.walkFaults, refetched := G.refetched, answers := G.answers } = G := by
  obtain ⟨H, on, hH, hset, harr, hon⟩ := h.arrivals hmeets
  have hlive : H.live = G.live := by
    unfold Gang.live
    refine congrArg maskOf (List.filter_congr fun l _ => ?_)
    rw [harr.lane]
    split <;> rfl
  obtain ⟨others, arrived, rest, length⟩ := foldl_sendOn (H.reconv.filter fun x => x.2.complete H.live)
    { H with reconv := H.reconv.filter fun x => !x.2.complete H.live }
  rw [← settleReconv_eq] at others arrived rest length
  rw [hlive, harr.reconv] at others arrived rest
  have hwaits : H.settleReconv.waits = G.waits := by
    rw [rest]
    exact (congrArg Gang.waits harr.outer : H.outer.waits = G.outer.waits)
  have hlen : H.settleReconv.lanes.length = G.lanes.length := length.trans harr.length
  refine ⟨H.settleReconv.advance (m &&& ~~~act), ?_, ?_, fun l hlt hnone => ?_, fun l hlt x hx hc hxl => ?_, ?_⟩
  · rw [he, threadOp_executes h]
    simp only [reconv, h.gang]
    rw [onGang_of_find hH, hset, after_advance h s hwaits]
  · rw [reconv_advance, rest]
  · have hstay : H.settleReconv.lane l = if l ∈ on then onward (G.lane l) else G.lane l :=
      (others l fun x hx => hnone x (List.mem_filter.mp hx).1 (List.mem_filter.mp hx).2).trans (harr.lane l)
    have hpc (hm : l ∈ lanesOf m) : { G.lane l with pc := succ pc } = onward (G.lane l) := by rw [← h.here l hm]; rfl
    simp only [lane_advance, hlen, not_mem_lanesOf_rest, hstay, hon]
    by_cases ha : l ∈ lanesOf act
    · cases hb : arr.getLsbD l <;> simp [ha, h.sub ha, hpc (h.sub ha)]
    · have hb : arr.getLsbD l = false := Bool.eq_false_iff.mpr fun hc => ha (hmeets.sub hc)
      by_cases hm : l ∈ lanesOf m
      · simp [ha, hm, hb, hlt, hpc hm]
      · simp [ha, hm]
  · obtain ⟨y, hy, hyl, hlane⟩ := arrived l (harr.length ▸ hlt) x (List.mem_filter.mpr ⟨hx, hc⟩) hxl
    obtain ⟨hy, hyc⟩ := List.mem_filter.mp hy
    have hrest : l ∉ lanesOf (m &&& ~~~act) := fun hl => by
      obtain ⟨hm, ha⟩ := not_mem_lanesOf_rest.mp hl
      exact ha (hmeets.sub (hmeets.arrived hconv hy hyl hm))
    refine ⟨y, hy, hyc, hyl, ?_⟩
    have hbase : ({ H with reconv := (arriveAt G.reconv j e arr).filter fun x => !x.2.complete G.live } : Gang).lane l =
        if l ∈ on then onward (G.lane l) else G.lane l := harr.lane l
    rw [lane_advance, if_neg fun hc => hrest hc.1, hlane, hbase]
    split <;> rfl
  · have hsettled : H.settleReconv.outer = H.outer := by rw [rest]; rfl
    exact congrArg (fun F : Gang => { F with
      lanes := G.lanes, reconv := G.reconv, walkFaults := G.walkFaults, refetched := G.refetched, answers := G.answers })
      ((outer_advance _ _).trans (hsettled.trans harr.outer))

/-- Where a group's lanes meet, from the entries as they stand and each lane's own mask. -/
theorem meets_of_cases {mask : View → Word × Bool} {own : Nat → Word} {clean : Prop} (hown : ∀ l, own l = (mask (G.view l)).1)
    (hclean : clean → ∀ l ∈ lanesOf act, (mask (G.view l)).2 = false)
    (h : List.find? (fun x => x.2.addr == pc) G.reconv = some (j, e) ∧ arr = e.members &&& act ∨
      List.find? (fun x => x.2.addr == pc) G.reconv = none ∧ clean ∧
        (∃ l₀, (lanesOf act).find? (fun l => (own l).getLsbD l) = some l₀ ∧ e = ⟨pc, own l₀, 0⟩ ∧
          arr = own l₀ &&& act &&& maskOf ((List.range 32).filter (l₀ ≤ ·))) ∧
        j < 8 ∧ SMap.find? G.reconv j = none ∧ ∀ n < j, (SMap.find? G.reconv n).isSome) :
    G.Meets act pc (fun l => mask (G.view l)) j e arr := by
  obtain rfl : own = fun l => (mask (G.view l)).1 := funext hown
  rcases h with ⟨hentry, rfl⟩ | ⟨hnone, hc, ⟨l₀, hfirst, rfl, rfl⟩, hj, hfree, hused⟩
  · exact .entry e hentry
  · exact .new l₀ hnone (hclean hc) hfirst (SMap.freeFrom_eq_some (Nat.zero_le j) (by omega) hfree fun i _ hi => hused i hi)

/-- Settles O17: the active lanes meet at an entry, the others go on, and the entries that are complete send their lanes on. -/
theorem reconvergenceResults : Obligations.ReconvergenceResults := by
  unfold Obligations.ReconvergenceResults
  rintro i s k G m act pc own j e arr h hconv ⟨g, ⟨M, rfl, hM⟩ | ⟨a, rfl, ha⟩⟩ hcase
  · exact reconv_executes h rfl hconv (meets_of_cases (mask := fun _ => (M, false)) hM (fun _ _ _ => rfl) hcase)
  · exact reconv_executes h rfl hconv (meets_of_cases (mask := fun v => v.reg a) ha (fun hc => hc g a rfl) hcase)

end Sys2Proof.Machine
end

section
/-! SUPPORT. Integer instructions: what `Put` keeps of a value, rotations, counts and fields of bits (R165, R170 to R173). -/

namespace Sys2Proof.Machine

variable {i : Instr} {t : Ty} {d a : Reg} {b : Src}

theorem entryOk_of_wf {e : Engine} (h : i.wf e = true) : i.entryOk e = true := (Bool.and_eq_true_iff.mp h).2

theorem width_pos (t : Ty) : 0 < t.width := by cases t <;> decide

theorem width_of_is64 (h : t.is64 = true) : t.width = 64 := by revert h; cases t <;> decide

/-- `Put` keeps a value modulo 2^w (R165). -/
theorem putTy_congr (t : Ty) (d : Reg) {u v : Int} (h : u % 2 ^ t.width = v % 2 ^ t.width) : putTy t d u = putTy t d v := by
  simp only [putTy, pat, h]
  split
  · next h64 =>
    rw [width_of_is64 h64] at h
    have hlow : BitVec.ofInt 32 u = BitVec.ofInt 32 v := BitVec.eq_of_toInt_eq <| by
      simp only [BitVec.toInt_ofInt, Int.bmod_def]; omega
    have hhigh : BitVec.ofInt 32 (u / 2 ^ 32) = BitVec.ofInt 32 (v / 2 ^ 32) := BitVec.eq_of_toInt_eq <| by
      simp only [BitVec.toInt_ofInt, Int.bmod_def]; omega
    rw [hlow, hhigh]
  · rfl

theorem outReg_congr (t : Ty) (d : Reg) {u v : Int} (h : u % 2 ^ t.width = v % 2 ^ t.width) (fl : BitVec 7) :
    Out.reg t d u fl = Out.reg t d v fl := by
  simp only [Out.reg, putTy_congr t d h]

/-- An instruction that computes one value, exact modulo 2^w, writes it where no operand is poisoned (R167, R170). -/
theorem gives_of_results {poison : View → Bool} {src : View → Word} {val out : View → Int} {pre : View → Prop}
    (he : ∀ s, exec i s = alu i s fun e v => .results e v (poison v) (src v) (putTy t d (val v)))
    (hp : ∀ v, pre v → poison v = false) (hv : ∀ v, val v % 2 ^ t.width = out v % 2 ^ t.width) :
    Gives i pre fun v => .reg t d (out v) := by
  refine gives_of_alu he (fun _ e v h => ?_) fun v _ => plain_reg t d _ 0
  rw [hp v h, results_clean, outReg_congr t d (hv v)]

/-- An instruction of two operands of one type. -/
theorem gives_of_int2 {f : Int → Int → Int} {out : View → Int} (he : ∀ s, exec i s = alu i s (int2 t d a b f))
    (hv : ∀ v : View, f (v.val t a).1 (v.valS t b).1 % 2 ^ t.width = out v % 2 ^ t.width) :
    Gives i (fun v => (v.val t a).2 = false ∧ (v.valS t b).2 = false) fun v => .reg t d (out v) :=
  gives_of_results he (fun _ h => Bool.or_eq_false_iff.mpr h) hv

/-- An instruction of an operand of a type and a 32-bit control operand. -/
theorem gives_of_ctl2 {f : Int → Nat → Int} {out : View → Int} (he : ∀ s, exec i s = alu i s (ctl2 t d a b f))
    (hv : ∀ v : View, f (v.val t a).1 (v.wordS b).1.toNat % 2 ^ t.width = out v % 2 ^ t.width) :
    Gives i (fun v => (v.val t a).2 = false ∧ (v.wordS b).2 = false) fun v => .reg t d (out v) :=
  gives_of_results he (fun _ h => Bool.or_eq_false_iff.mpr h) hv

/-- A comparison writes whether its relation holds of the two values. -/
theorem gives_of_cmp {g : Guard} {rel : Rel} {p : BitVec 3} {out : View → Bool}
    (hv : ∀ v : View, relHolds rel (v.val t a).1 (v.valS t b).1 = out v) :
    Gives (.cmp g rel t p a b) (fun v => (v.val t a).2 = false ∧ (v.valS t b).2 = false) fun v => .pred p (out v) := by
  refine gives_of_alu (fun _ => rfl) (fun _ e v ⟨ha, hb⟩ => ?_) fun v _ => plain_pred p _ 0
  simp only [ha, hb, Bool.or_false, predicate_clean, hv v]

theorem pat_lt (x : Int) (w : Nat) : pat x w < 2 ^ w := by
  have hpos : (0 : Int) < 2 ^ w := by positivity
  have hlt := Int.emod_lt_of_pos x hpos
  have h0 := Int.emod_nonneg x hpos.ne'
  zify [pat]
  rwa [Int.toNat_of_nonneg h0]

-- Rotations

/-- A rotation left by `n` brings the top `n mod w` bits to the bottom. -/
theorem rotl_modEq {w : Nat} (hw : 0 < w) (p n : Nat) :
    rotl w p n ≡ p * 2 ^ (n % w) + p / 2 ^ (w - n % w) [MOD 2 ^ w] := by
  have hle : n % w ≤ w := (Nat.mod_lt n hw).le
  have hdiv : p * 2 ^ (n % w) / 2 ^ w = p / 2 ^ (w - n % w) := by
    rw [← Nat.mul_div_mul_right p (2 ^ (w - n % w)) (Nat.two_pow_pos (n % w)), ← pow_add, Nat.sub_add_cancel hle]
  rw [rotl, hdiv]
  exact Nat.mod_modEq _ _

/-- A rotation right by `n` is one left by what is left of the width. -/
theorem rotl_sub_modEq {w p : Nat} (hw : 0 < w) (hp : p < 2 ^ w) (n : Nat) :
    rotl w p (w - n % w) ≡ p / 2 ^ (n % w) + p * 2 ^ (w - n % w) [MOD 2 ^ w] := by
  refine (rotl_modEq hw p _).trans ?_
  rcases Nat.eq_zero_or_pos (n % w) with h0 | hpos
  · rw [h0, Nat.sub_zero, Nat.mod_self, Nat.sub_zero, pow_zero, Nat.mul_one, Nat.div_one, Nat.div_eq_of_lt hp, Nat.add_zero]
    exact (Nat.add_mul_modulus_modEq_iff.mpr rfl).symm
  · have hlt := Nat.mod_lt n hw
    rw [Nat.mod_eq_of_lt (by omega : w - n % w < w), Nat.sub_sub_self hlt.le, Nat.add_comm]

-- Counts

theorem popcount_eq_countP (w p : Nat) : popcount w p = (List.range w).countP fun i => p.testBit i := by
  induction w generalizing p with
  | zero => rfl
  | succ w ih =>
    simp only [popcount, ih, List.range_succ_eq_map, List.countP_cons, List.countP_map, Function.comp_def, Nat.testBit_succ,
      Nat.testBit_zero, decide_eq_true_eq]
    have := Nat.mod_two_eq_zero_or_one p
    split <;> omega

theorem reverse_eq_sum (w p : Nat) :
    reverse w p = ((List.range w).map fun i => if p.testBit i then 2 ^ (w - 1 - i) else 0).sum := by
  induction w generalizing p with
  | zero => rfl
  | succ w ih =>
    have hsub (i : Nat) : w + 1 - 1 - (i + 1) = w - 1 - i := by omega
    simp only [reverse, ih, List.range_succ_eq_map, List.map_cons, List.map_map, Function.comp_def, Nat.testBit_succ,
      Nat.testBit_zero, decide_eq_true_eq, List.sum_cons, Nat.succ_eq_add_one, hsub]
    rcases Nat.mod_two_eq_zero_or_one p with h | h <;> simp [h]

theorem trailingZeros_eq_takeWhile (w p : Nat) :
    trailingZeros w p = ((List.range w).takeWhile fun i => !p.testBit i).length := by
  induction w generalizing p with
  | zero => rfl
  | succ w ih =>
    simp only [trailingZeros, ih, List.range_succ_eq_map, List.takeWhile_cons, List.takeWhile_map, Function.comp_def,
      Nat.testBit_succ, Nat.testBit_zero]
    by_cases h : p % 2 = 1 <;> simp [h, Nat.add_comm]

/-- Below 2^(w+1) the top bit is set from 2^w on. -/
theorem testBit_top {w p : Nat} (hp : p < 2 ^ (w + 1)) : p.testBit w = decide (2 ^ w ≤ p) := by
  have hlt : p / 2 ^ w < 2 := Nat.div_lt_of_lt_mul (by rwa [← pow_succ])
  have hpos : 1 ≤ p / 2 ^ w ↔ 2 ^ w ≤ p := by rw [Nat.le_div_iff_mul_le (Nat.two_pow_pos w), Nat.one_mul]
  rw [Nat.testBit_eq_decide_div_mod_eq, decide_eq_decide, ← hpos]
  generalize p / 2 ^ w = q at *
  omega

/-- Below 2^(w+1), the bit `w` decides where the leading zeros end. -/
theorem leadingZeros_succ {w p : Nat} (hp : p < 2 ^ (w + 1)) :
    leadingZeros (w + 1) p = if p.testBit w then 0 else leadingZeros w p + 1 := by
  rw [testBit_top hp]
  by_cases h : 2 ^ w ≤ p
  · have hne : p ≠ 0 := by have := Nat.two_pow_pos w; omega
    have hlog : p.log2 = w := Nat.le_antisymm (Nat.lt_succ_iff.mp ((Nat.log2_lt hne).mpr hp)) ((Nat.le_log2 hne).mpr h)
    simp [leadingZeros, h, hne, hlog]
  · by_cases h0 : p = 0
    · simp [leadingZeros, h0]
    · have := (Nat.log2_lt h0).mpr (not_le.mp h)
      simp only [leadingZeros, h0, h, if_false, decide_false, Bool.false_eq_true]
      omega

theorem leadingZeros_eq_takeWhile {w p : Nat} (hp : p < 2 ^ w) :
    leadingZeros w p = ((List.range w).reverse.takeWhile fun i => !p.testBit i).length := by
  induction w with
  | zero => simp_all [leadingZeros]
  | succ w ih =>
    rw [leadingZeros_succ hp, List.range_succ, List.reverse_append, List.reverse_singleton, List.singleton_append,
      List.takeWhile_cons]
    by_cases h : p.testBit w
    · simp [h]
    · have hlt : p < 2 ^ w := not_le.mp (by simpa [testBit_top hp] using h)
      simp [h, ih hlt]

-- Fields

/-- `BFE` writes the field itself, less 2^n where its top bit counts as a sign (R173). -/
theorem extract_eq (t : Ty) (x : Int) (c : Nat) :
    extract t x c =
      if t.signed ∧ fieldLen t.width c ≠ 0 ∧
          (pat x t.width / 2 ^ (c % 256) % 2 ^ fieldLen t.width c).testBit (fieldLen t.width c - 1) then
        ((pat x t.width / 2 ^ (c % 256) % 2 ^ fieldLen t.width c : Nat) : Int) - 2 ^ fieldLen t.width c
      else (pat x t.width / 2 ^ (c % 256) % 2 ^ fieldLen t.width c : Nat) := by
  simp only [extract]
  generalize pat x t.width / 2 ^ (c % 256) = q
  rcases hn : fieldLen t.width c with _ | n
  · simp [Nat.mod_one]
  · rw [Nat.add_sub_cancel, testBit_top (Nat.mod_lt _ (Nat.two_pow_pos _)), if_neg (Nat.succ_ne_zero n)]
    by_cases hs : t.signed <;> by_cases hle : 2 ^ n ≤ q % 2 ^ (n + 1) <;> simp [sext, hs, hle, not_lt.mpr, not_le.mp]

/-- `BFI` keeps the bits above and below the field (R173). -/
theorem insert_eq (t : Ty) (x z : Int) (c : Nat) :
    insert t x z c =
      (pat z t.width / 2 ^ (c % 256 + fieldLen t.width c) * 2 ^ (c % 256 + fieldLen t.width c) +
        pat x t.width % 2 ^ fieldLen t.width c * 2 ^ (c % 256) + pat z t.width % 2 ^ (c % 256) : Nat) := by
  simp only [insert]
  generalize fieldLen t.width c = n
  generalize pat z t.width = q
  generalize c % 256 = pos
  have hlow : q / 2 ^ pos * 2 ^ pos + q % 2 ^ pos = q := Nat.div_add_mod' _ _
  have hhigh : q / 2 ^ (pos + n) * 2 ^ n + q / 2 ^ pos % 2 ^ n = q / 2 ^ pos := by
    rw [pow_add, ← Nat.div_div_eq_div_mul, Nat.div_add_mod']
  have hsum : q = q / 2 ^ (pos + n) * 2 ^ (pos + n) + q / 2 ^ pos % 2 ^ n * 2 ^ pos + q % 2 ^ pos := by
    calc q = (q / 2 ^ (pos + n) * 2 ^ n + q / 2 ^ pos % 2 ^ n) * 2 ^ pos + q % 2 ^ pos := by rw [hhigh, hlow]
      _ = _ := by ring
  split
  · next hn => subst hn; simp [Nat.mod_one, hlow]
  · congr 1
    omega

end Sys2Proof.Machine
end

section
/-! O1, O2 and O3: the integer and address instructions (R170 to R174). -/

namespace Sys2Proof.Machine

/-- Settles O1: most results are the exact values as the model computes them; `MULHI` and `REM` differ in the quotient they name. -/
theorem integerArithmeticResults : Obligations.IntegerArithmeticResults := by
  unfold Obligations.IntegerArithmeticResults
  intro g ty sat d a b c clean x y z lim w
  refine ⟨gives_of_results (fun _ => rfl) (fun _ h => h) fun _ => rfl, gives_of_int2 (fun _ => rfl) fun _ => rfl,
    gives_of_int2 (fun _ => rfl) fun _ => rfl, gives_of_int2 (fun _ => rfl) fun _ => rfl,
    gives_of_results (fun _ => rfl) (fun v ⟨hab, hc⟩ => ?mad) fun _ => rfl,
    gives_of_results (fun _ => rfl) (fun v ⟨ha, hb, hc⟩ => ?madWideI) fun _ => rfl,
    gives_of_results (fun _ => rfl) (fun v ⟨ha, hb, hc⟩ => ?madWideN) fun _ => rfl,
    gives_of_int2 (fun _ => rfl) fun v => ?mulhi, gives_of_int2 (fun _ => rfl) fun _ => rfl,
    gives_of_int2 (fun _ => rfl) fun v => ?rem, gives_of_int2 (fun _ => rfl) fun v => ?min,
    gives_of_int2 (fun _ => rfl) fun v => ?max, gives_of_results (fun _ => rfl) (fun _ h => h) fun v => ?abs⟩
  case mad => exact Bool.or_eq_false_iff.mpr ⟨Bool.or_eq_false_iff.mpr hab, hc⟩
  case madWideI | madWideN => exact Bool.or_eq_false_iff.mpr ⟨Bool.or_eq_false_iff.mpr ⟨ha, hb⟩, hc⟩
  case mulhi => rw [Int.fdiv_eq_ediv_of_nonneg _ (by positivity)]
  case rem =>
    congr 1
    by_cases hy : y v = 0
    · rw [if_pos hy, if_pos hy, mul_zero, sub_zero]
    · rw [if_neg hy, if_neg hy, Int.tmod_def]
  case min => rw [min_def]
  case max => rw [max_def]
  case abs => rw [satTo, Int.natCast_natAbs]

/-- Settles O2: the rotations agree with the bits they bring round modulo 2^w, the other results are as the model computes
them. -/
theorem bitwiseShiftAndCompareResults : Obligations.BitwiseShiftAndCompareResults := by
  unfold Obligations.BitwiseShiftAndCompareResults
  intro g ty d p c a b clean ctl x y n w p' q'
  refine ⟨gives_of_int2 (fun _ => rfl) fun _ => rfl, gives_of_int2 (fun _ => rfl) fun _ => rfl,
    gives_of_int2 (fun _ => rfl) fun _ => rfl, gives_of_ctl2 (fun _ => rfl) fun _ => rfl,
    gives_of_ctl2 (fun _ => rfl) fun v => ?shr, gives_of_ctl2 (fun _ => rfl) fun v => ?rotl,
    gives_of_ctl2 (fun _ => rfl) fun v => ?rotr, gives_of_cmp fun _ => rfl, gives_of_cmp fun v => ?ne,
    gives_of_cmp fun _ => rfl, gives_of_cmp fun _ => rfl, gives_of_cmp fun _ => rfl, gives_of_cmp fun _ => rfl,
    gives_of_results (fun _ => rfl) (fun v ⟨hab, hc⟩ => ?sel) fun _ => rfl⟩
  case shr => rw [Int.fdiv_eq_ediv_of_nonneg _ (by positivity)]
  case rotl => exact_mod_cast rotl_modEq (width_pos ty) (pat (x v) w) (n v)
  case rotr => exact_mod_cast rotl_sub_modEq (width_pos ty) (pat_lt (x v) w) (n v)
  case ne => exact (decide_not (p := x v = y v)).symm
  case sel => exact Bool.or_eq_false_iff.mpr ⟨Bool.or_eq_false_iff.mpr hab, hc⟩

/-- Settles O3: counts, reversal and fields are the recursions of the model seen bit by bit. -/
theorem bitFieldAndAddressResults : Obligations.BitFieldAndAddressResults := by
  unfold Obligations.BitFieldAndAddressResults
  intro g ty d a b c sh w p one ctl pos n fld
  refine ⟨gives_of_results (fun _ => rfl) (fun _ h => h) fun v => ?popc,
    gives_of_results (fun _ => rfl) (fun _ h => h) fun v => ?clz,
    gives_of_results (fun _ => rfl) (fun _ h => h) fun v => ?ctz,
    gives_of_results (fun _ => rfl) (fun _ h => h) fun v => ?brev,
    gives_of_ctl2 (fun _ => rfl) fun v => ?bfe,
    gives_of_results (fun _ => rfl) (fun v ⟨hab, hc⟩ => ?clean) fun v => ?bfi,
    gives_of_results (fun _ => rfl) (fun _ h => Bool.or_eq_false_iff.mpr h) fun _ => rfl⟩
  case popc => rw [popcount_eq_countP]
  case clz => rw [leadingZeros_eq_takeWhile (pat_lt _ _)]
  case ctz => rw [trailingZeros_eq_takeWhile]
  case brev => rw [reverse_eq_sum]
  case bfe => rw [extract_eq]; rfl
  case clean => exact Bool.or_eq_false_iff.mpr ⟨Bool.or_eq_false_iff.mpr hab, hc⟩
  case bfi => rw [insert_eq]; rfl

end Sys2Proof.Machine
end

section
/-! SUPPORT. Floating-point instructions, element by element: codes, signs, and what an instruction of one, two or three operand
words gives (R51, R165, R176, R179). -/

namespace Sys2Proof.Machine

variable {i : Instr} {t : Ty} {d a : Reg} {b : Src}

theorem not_packed_of_scalarFloat (h : t.scalarFloat = true) : t.packed = false := by revert h; cases t <;> decide

theorem elemOf_lt (t : Ty) (w : Word) (j : Nat) : elemOf t w j < 2 ^ (Num.ofTy t).width := by
  cases t
  case bf16 | f16 | bf16x2 | f16x2 => exact Nat.mod_lt _ (by decide)
  all_goals exact w.isLt

theorem elems_eq (t : Ty) (w : Word) : elems t w = if t.packed then [elemOf t w 0, elemOf t w 1] else [elemOf t w 0] := by
  have hw := w.isLt
  by_cases hp : t.packed
  · simp [elems, elemOf, hp, Nat.mod_eq_of_lt (by omega : w.toNat / 65536 < 65536)]
  · by_cases hh : t.half <;> simp [elems, elemOf, hp, hh]

@[simp] theorem headD_elems (t : Ty) (w : Word) : (elems t w).headD 0 = elemOf t w 0 := by
  rw [elems_eq]
  split <;> rfl

theorem plain_elems (t : Ty) (d : Reg) (f : Nat → Nat × BitVec 7) : (Out.elems t d f).plain := by
  simp only [Out.elems]
  split <;> exact ⟨rfl, List.nodup_singleton _, List.nodup_nil⟩

theorem outElems_of_not_packed (hp : t.packed = false) (d : Reg) (f : Nat → Nat × BitVec 7) :
    Out.elems t d f = { regs := [(d, BitVec.ofNat 32 (f 0).1, false)], flags := (f 0).2 } := by
  simp [Out.elems, hp]

/-- Of words that are not poisoned each element is computed by itself. -/
theorem float3_clean (t : Ty) (d : Reg) {a b c : Word × Bool} (f : Nat → Nat → Nat → Nat × BitVec 7) (e : Env) (v : View)
    (ha : a.2 = false) (hb : b.2 = false) (hc : c.2 = false) :
    float3 t d a b c f e v = .elems t d fun j => f (elemOf t a.1 j) (elemOf t b.1 j) (elemOf t c.1 j) := by
  simp only [float3, ha, hb, hc, Bool.or_false, elems_eq]
  by_cases hp : t.packed <;> simp [hp, Out.results, Out.elems, ofElems]

theorem gives_of_float1 {f : Nat → Nat × BitVec 7} {out : View → Nat → Nat × BitVec 7}
    (he : ∀ s, exec i s = alu i s (float1 t d a f)) (hf : ∀ (v : View) j, f (elemOf t (v.reg a).1 j) = out v j) :
    Gives i (fun v => (v.reg a).2 = false) fun v => .elems t d (out v) := by
  refine gives_of_alu he (fun _ e v ha => ?_) fun v _ => plain_elems t d _
  exact (float3_clean t d _ e v ha rfl rfl).trans (by simp only [hf])

theorem gives_of_float2 {f : Nat → Nat → Nat × BitVec 7} {out : View → Nat → Nat × BitVec 7}
    (he : ∀ s, exec i s = alu i s (float2 t d a b f))
    (hf : ∀ (v : View) j, f (elemOf t (v.reg a).1 j) (elemOf t (v.wordS b).1 j) = out v j) :
    Gives i (fun v => (v.reg a).2 = false ∧ (v.wordS b).2 = false) fun v => .elems t d (out v) := by
  refine gives_of_alu he (fun _ e v ⟨ha, hb⟩ => ?_) fun v _ => plain_elems t d _
  exact (float3_clean t d _ e v ha hb rfl).trans (by simp only [hf])

/-- A comparison writes its relation of the lowest elements, with its flag (R178). -/
theorem gives_of_fcmp {g : Guard} {rel : FRel} {p : BitVec 3} {out : View → Bool} {fl : View → BitVec 7}
    (hv : ∀ v : View, Num.fcmp rel (dec t (elemOf t (v.reg a).1 0)) (dec t (elemOf t (v.wordS b).1 0)) = (out v, fl v)) :
    Gives (.fcmp g rel t p a b) (fun v => (v.reg a).2 = false ∧ (v.wordS b).2 = false) fun v => .pred p (out v) (fl v) := by
  refine gives_of_alu (fun _ => rfl) (fun _ e v ⟨ha, hb⟩ => ?_) fun v _ => plain_pred p _ _
  simp only [ha, hb, Bool.or_false, predicate_clean, headD_elems, hv v]

-- The sign bit

theorem width_ofTy (t : Ty) : ∃ w, (Num.ofTy t).width = w + 1 := by cases t <;> exact ⟨_, rfl⟩

/-- A code is its sign bit and the rest. -/
theorem withSign_eq (t : Ty) (x : Nat) (neg : Bool) : withSign t x neg = x % signBit t + neg.toNat * signBit t := by
  cases neg <;> simp [withSign]

theorem toNat_signOf {x : Nat} (hx : x < 2 ^ (Num.ofTy t).width) : (signOf t x).toNat = x / signBit t := by
  obtain ⟨w, hw⟩ := width_ofTy t
  rw [hw] at hx
  have htop : signBit t = 2 ^ w := by rw [signBit, hw, Nat.add_sub_cancel]
  have hlt : x / 2 ^ w < 2 := Nat.div_lt_of_lt_mul (by rwa [← pow_succ])
  rw [signOf, htop]
  by_cases h : 2 ^ w ≤ x
  · have hone : x / 2 ^ w = 1 := Nat.le_antisymm (Nat.lt_succ_iff.mp hlt) (Nat.div_pos h (Nat.two_pow_pos w))
    simp [hone, h]
  · simp [Nat.div_eq_of_lt (not_le.mp h), h]

/-- Exclusive or with a multiple of a power of two leaves the bits below alone. -/
theorem xor_mul_two_pow (x n k : Nat) : x ^^^ (n * 2 ^ k) = x % 2 ^ k + (x / 2 ^ k ^^^ n) * 2 ^ k := by
  have hdiv : (x ^^^ (n * 2 ^ k)) / 2 ^ k = x / 2 ^ k ^^^ n := by
    rw [Nat.xor_div_two_pow, Nat.mul_div_cancel _ (Nat.two_pow_pos k)]
  have hmod : (x ^^^ (n * 2 ^ k)) % 2 ^ k = x % 2 ^ k := by
    rw [Nat.xor_mod_two_pow, Nat.mul_mod_left, Nat.xor_zero]
  rw [← hdiv, ← hmod, Nat.mod_add_div']

/-- A code whose sign is changed where `neg` holds. -/
theorem withSign_xor {x : Nat} (hx : x < 2 ^ (Num.ofTy t).width) (neg : Bool) :
    withSign t x (signOf t x != neg) = x ^^^ (neg.toNat * signBit t) := by
  have hbit (s s' : Bool) : (s != s').toNat = s.toNat ^^^ s'.toNat := by revert s s'; decide
  rw [withSign_eq, hbit, toNat_signOf hx, signBit, xor_mul_two_pow]

end Sys2Proof.Machine
end

section
/-! O4 and O5: the rounded floating-point instructions and their special operands (R176). -/

namespace Sys2Proof.Machine

/-- Settles O4: an element is the exact operation of the decoded elements, finished once. -/
theorem roundedFloatResults : Obligations.RoundedFloatResults := by
  unfold Obligations.RoundedFloatResults
  intro g rm ty d a b c clean x y z once
  refine ⟨gives_of_float2 (fun _ => rfl) fun _ _ => rfl, gives_of_float2 (fun _ => rfl) fun _ _ => rfl,
    gives_of_float2 (fun _ => rfl) fun _ _ => rfl, ?ffma, gives_of_float2 (fun _ => rfl) fun _ _ => rfl,
    gives_of_float1 (fun _ => rfl) fun _ _ => rfl⟩
  case ffma =>
    refine gives_of_alu (fun _ => rfl) (fun _ e v ⟨⟨ha, hb⟩, hc⟩ => ?_) fun v _ => plain_elems ty d _
    exact float3_clean ty d _ e v ha hb hc

end Sys2Proof.Machine

namespace Sys2Proof.Num

/-- Equal magnitudes of opposite signs sum to the exact zero of R53. -/
theorem addFin_opposite (rm : Rm) (s : Bool) {n d m e : Nat} (h : n * e = m * d) :
    addFin rm s n d (!s) m e = .fin (rm == .rdn) 0 1 := by
  have hz : (n : Int) * e = m * d := by exact_mod_cast h
  cases s <;> simp [addFin, signed, hz]

/-- Settles O5: each row of Table 9.4 is one case of its operation. -/
theorem specialOperandsOfRoundedInstructions : Obligations.SpecialOperandsOfRoundedInstructions := by
  unfold Obligations.SpecialOperandsOfRoundedInstructions
  intro rm s t q n d m e v
  refine ⟨?infSum, rfl, ?fma, ?byZero, rfl, rfl, rfl, rfl, ?negative, rfl, rfl, ?zero⟩
  case infSum => cases s <;> rfl
  case fma => cases v with
    | nan q => cases q <;> rfl
    | inf x => rfl
    | fin x k l => rfl
  case byZero => intro hn; simp [div, hn]
  case negative => intro hn; simp [sqrt, hn]
  case zero =>
    intro _ _ h _
    rw [add, addFin_opposite rm s h, beq_eq_decide]

end Sys2Proof.Num
end

section
/-! SUPPORT. The codes of a format in their order: the value of a code rises with the code, by the unit of its binade, and the
logarithm that the model takes tells the binades apart (R52, R60). -/

namespace Sys2Proof.Num

variable {f : Fmt} {neg s : Bool} {c n d : Nat}

theorem ofTy_ieee (t : Ty) : (ofTy t).ieee = true := by cases t <;> rfl

theorem pow2_eq_fin (neg : Bool) (n : Nat) (x : Int) : ∃ m d, pow2 neg n x = .fin neg m d ∧ d ≠ 0 := by
  simp only [pow2]
  split
  · exact ⟨_, _, rfl, one_ne_zero⟩
  · exact ⟨_, _, rfl, (Nat.two_pow_pos _).ne'⟩

theorem magnitude_eq_fin (f : Fmt) (neg : Bool) (c : Nat) : ∃ n d, magnitude f neg c = .fin neg n d ∧ d ≠ 0 := by
  simp only [magnitude]
  split <;> exact pow2_eq_fin neg _ _

theorem of_magnitude_eq_fin (h : magnitude f neg c = .fin s n d) :
    s = neg ∧ d ≠ 0 ∧ (magnitude f neg c).mag = (n : ℚ) / d := by
  obtain ⟨n', d', h', hd⟩ := magnitude_eq_fin f neg c
  obtain ⟨rfl, rfl, rfl⟩ := Val.fin.inj (h'.symm.trans h)
  exact ⟨rfl, hd, by rw [h, mag_fin]⟩

/-- The codes of finite values of an IEEE format are those whose magnitude code is not above the largest one. -/
theorem of_decodeCode_eq_fin (hf : f.ieee = true) {code : Nat} (h : decodeCode f code = .fin s n d) :
    code % 2 ^ (f.width - 1) ≤ f.maxFin ∧ magnitude f s (code % 2 ^ (f.width - 1)) = .fin s n d := by
  simp only [decodeCode, hf, if_true] at h
  by_cases hc : code % 2 ^ (f.width - 1) ≤ f.maxFin
  · rw [if_pos hc] at h
    obtain ⟨rfl, -, -⟩ := of_magnitude_eq_fin h
    exact ⟨hc, h⟩
  · rw [if_neg hc] at h
    by_cases hi : code % 2 ^ (f.width - 1) = f.maxFin + 1 <;> simp [hi] at h

/-- From one code to the next the value rises by the unit in the last place of the code's binade, which below the smallest normal
number is that of the subnormals. -/
theorem mag_magnitude_succ (f : Fmt) (neg : Bool) (c : Nat) :
    (magnitude f neg (c + 1)).mag =
      (magnitude f neg c).mag + 2 ^ (((max (c / 2 ^ (f.p - 1)) 1 : Nat) : Int) - f.bias - (f.p - 1 : Nat)) := by
  have hT := Nat.two_pow_pos (f.p - 1)
  have hdiv := Nat.div_add_mod' c (2 ^ (f.p - 1))
  have hmod := Nat.mod_lt c hT
  obtain ⟨k, q, hc, hlt, hk, hmax⟩ : ∃ k q, c = k * 2 ^ (f.p - 1) + q ∧ q < 2 * 2 ^ (f.p - 1) ∧
      (k = 0 ∨ 2 ^ (f.p - 1) ≤ q) ∧ max (c / 2 ^ (f.p - 1)) 1 = k + 1 := by
    rcases hb : c / 2 ^ (f.p - 1) with _ | b
    · exact ⟨0, c, by omega, by rw [hb] at hdiv; omega, .inl rfl, rfl⟩
    · rw [hb, Nat.add_one_mul] at hdiv
      exact ⟨b, 2 ^ (f.p - 1) + c % 2 ^ (f.p - 1), by omega, by omega, .inr (Nat.le_add_right _ _), by omega⟩
  rw [hmax, hc, Nat.add_assoc, mag_magnitude f neg hlt.le hk, mag_magnitude f neg hlt (hk.imp_right Nat.le_succ_of_le)]
  push_cast
  ring

theorem strictMono_mag (f : Fmt) (neg : Bool) : StrictMono fun c => (magnitude f neg c).mag :=
  strictMono_nat_of_lt_succ fun c => by
    rw [mag_magnitude_succ]
    exact lt_add_of_pos_right _ (by positivity)

theorem mag_zero (f : Fmt) (neg : Bool) : (magnitude f neg 0).mag = 0 := by
  have h := mag_magnitude f neg (k := 0) (Nat.zero_le _) (.inl rfl)
  rwa [Nat.zero_mul, Nat.cast_zero, zero_mul] at h

theorem log2Frac_lt_iff (hn : n ≠ 0) (hd : d ≠ 0) (x : Int) : log2Frac n d < x ↔ (n : ℚ) / d < 2 ^ x := by
  obtain ⟨hlo, hhi⟩ := two_zpow_log2Frac hn hd
  constructor
  · intro h
    exact hhi.trans_le (zpow_le_zpow_right₀ (by norm_num) (by omega))
  · intro h
    exact (zpow_lt_zpow_iff_right₀ (by norm_num)).mp (hlo.trans_lt h)

/-- The magnitudes below the smallest normal number are those of the codes below 2^(p − 1). -/
theorem log2Frac_lt_iff_subnormal (h : magnitude f neg c = .fin s n d) (hn : n ≠ 0) :
    log2Frac n d < 1 - (f.bias : Int) ↔ c < 2 ^ (f.p - 1) := by
  obtain ⟨-, hd, hmag⟩ := of_magnitude_eq_fin h
  have hone : (magnitude f neg (2 ^ (f.p - 1))).mag = 2 ^ (1 - (f.bias : Int)) := by
    have := mag_magnitude f neg (k := 0) (q := 2 ^ (f.p - 1)) (by omega) (.inl rfl)
    rw [Nat.zero_mul, Nat.zero_add] at this
    rw [this, Nat.cast_zero, zero_add, two_pow_mul_two_zpow_sub]
  rw [log2Frac_lt_iff hn hd, ← hmag, ← hone]
  exact (strictMono_mag f neg).lt_iff_lt

end Sys2Proof.Num
end

section
/-! O7: the floating-point instructions that do not round, `FRND` among them (R177 to R181). -/

namespace Sys2Proof.Machine

variable {t : Ty} {f : Num.Fmt}

/-- `FMIN` and `FMAX` return an operand as it stands; −0 counts as less than +0 (R177). -/
theorem pickCode_eq (t : Ty) (greater : Bool) (x y : Nat) :
    pickCode t greater x y =
      (if (dec t x).isNan then (if (dec t y).isNan then Num.nanCode (Num.ofTy t) else y)
        else if (dec t y).isNan then x
        else if Num.cmp (dec t x) (dec t y) = .lt ∨
          Num.cmp (dec t x) (dec t y) = .eq ∧ (dec t x).neg = true ∧ (dec t y).neg = false
        then (if greater then y else x) else if greater then x else y,
        if (dec t x).isSnan || (dec t y).isSnan then Num.nv else 0) := by
  simp only [pickCode, Num.pick]
  cases (dec t x).isNan <;> cases (dec t y).isNan
  case false.false =>
    cases greater <;> cases Num.cmp (dec t x) (dec t y) <;> cases (dec t x).neg <;> cases (dec t y).neg <;> rfl
  all_goals rfl

/-- The class of a code is that of its value; a subnormal number's magnitude code lies below 2^(p − 1) (R180). -/
theorem two_pow_fclass {code : Nat} (hf : f.ieee = true) :
    2 ^ Num.fclass f (Num.decodeCode f code) = (match Num.decodeCode f code with
      | .inf true => 2 ^ 0
      | .inf false => 2 ^ 7
      | .nan true => 2 ^ 8
      | .nan false => 2 ^ 9
      | .fin s n _ =>
        if n = 0 then (if s then 2 ^ 3 else 2 ^ 4)
        else if code % 2 ^ (f.width - 1) < 2 ^ (f.p - 1) then (if s then 2 ^ 2 else 2 ^ 5)
        else if s then 2 ^ 1 else 2 ^ 6) := by
  cases h : Num.decodeCode f code with
  | nan q => cases q <;> rfl
  | inf s => cases s <;> rfl
  | fin s n d =>
    by_cases hn : n = 0
    · cases s <;> simp [Num.fclass, hn]
    · have hsub := Num.log2Frac_lt_iff_subnormal (Num.of_decodeCode_eq_fin hf h).2 hn
      by_cases hlt : code % 2 ^ (f.width - 1) < 2 ^ (f.p - 1) <;> cases s <;> simp [Num.fclass, hn, hsub, hlt]

/-- Settles O7: `FMIN`, `FMAX`, `FCLASS` and the sign by their lemmas, a relation of Table 9.5 by what orders its operands. -/
theorem unroundedFloatResults : Obligations.UnroundedFloatResults := by
  unfold Obligations.UnroundedFloatResults
  intro g rm ty d p a b clean one f i k x y top less snan nan ord
  refine ⟨gives_of_float2 (fun _ => rfl) fun v j => ?fmin, gives_of_float2 (fun _ => rfl) fun v j => ?fmax,
    gives_of_fcmp fun v => ?eq, gives_of_fcmp fun v => ?ne, gives_of_fcmp fun v => ?lt, gives_of_fcmp fun v => ?le,
    gives_of_fcmp fun v => ?gt, gives_of_fcmp fun v => ?ge, gives_of_fcmp fun v => ?un, gives_of_fcmp fun v => ?ord,
    gives_of_float1 (fun _ => rfl) fun v j => ?neg, gives_of_float1 (fun _ => rfl) fun v j => rfl,
    gives_of_float2 (fun _ => rfl) fun v j => ?copy, gives_of_float2 (fun _ => rfl) fun v j => ?xor, ?fclass,
    gives_of_float1 (fun _ => rfl) fun v j => ?frnd⟩
  case fmin => exact pickCode_eq ty false _ _
  case fmax => exact pickCode_eq ty true _ _
  case eq | ne | lt | le | gt | ge | un | ord =>
    exact Prod.ext (by simp [Num.fcmp, ord, x, y, i, k, f, dec, beq_eq_decide, bne]) rfl
  case neg =>
    have h := withSign_xor (elemOf_lt ty (v.reg a).1 j) true
    rw [Bool.bne_true, Bool.toNat_true, one_mul] at h
    exact Prod.ext h rfl
  case copy =>
    rw [withSign_eq, toNat_signOf (elemOf_lt ty _ j)]
    rfl
  case xor =>
    rw [withSign_xor (elemOf_lt ty _ j), toNat_signOf (elemOf_lt ty _ j)]
    rfl
  case fclass =>
    refine gives_of_alu (fun _ => rfl) (fun hwf e v ha => ?_) fun v _ => plain_elems ty d _
    rw [outElems_of_not_packed (not_packed_of_scalarFloat (entryOk_of_wf hwf))]
    have ha' : (v.reg a).2 = false := ha
    simp only [ha', headD_elems, dec, two_pow_fclass (Num.ofTy_ieee ty)]
    rfl
  case frnd => 
    simp only [Num.frnd, dec, x, i]
    cases Num.decodeCode (Num.ofTy ty) (elemOf ty (v.reg a).1 j) with
    | nan q => rfl
    | inf s => simp [Num.round, Num.ofTy_ieee, f]
    | fin s n e => rfl

end Sys2Proof.Machine
end

section
/-! SUPPORT. Rounding up and to nearest against rounding toward zero (R60), and the codes within some units in the last place of a
magnitude (R182). -/

namespace Sys2Proof.Num

variable {f : Fmt} {neg : Bool} {c n d : Nat}

/-- The exponent of the unit in the last place that a rounding to a format takes. -/
def lastPlace (f : Fmt) (n d : Nat) : Int := max (log2Frac n d) (1 - f.bias) - (f.p - 1 : Nat)

/-- Toward zero a magnitude keeps its whole units in the last place; the next code is one unit on. -/
theorem mag_roundMag_rtz (f : Fmt) (neg : Bool) (hn : n ≠ 0) (hd : d ≠ 0) :
    (magnitude f neg (roundMag f .rtz neg n d).1).mag = (splitAt n d (lastPlace f n d)).1 * 2 ^ lastPlace f n d ∧
      (magnitude f neg ((roundMag f .rtz neg n d).1 + 1)).mag =
        ((splitAt n d (lastPlace f n d)).1 + 1) * 2 ^ lastPlace f n d := by
  obtain ⟨k, q, hc, hq, hlt, hk⟩ := roundMag_rtz_eq f neg hn hd
  have htop : log2Frac n d < (k : Int) + 2 - f.bias := by
    rw [log2Frac_lt_iff hn hd]
    calc (n : ℚ) / d < (2 * 2 ^ (f.p - 1) : Nat) * 2 ^ ((k : Int) + 1 - f.bias - (f.p - 1 : Nat)) := by
          rw [← splitAt_lt_iff, ← hq]; exact hlt
      _ = 2 ^ ((k : Int) + 2 - f.bias) := by
          rw [Nat.cast_mul, mul_assoc, two_pow_mul_two_zpow_sub, Nat.cast_ofNat, ← zpow_one_add₀ (by norm_num)]
          congr 1; ring
  have hlast : lastPlace f n d = (k : Int) + 1 - f.bias - (f.p - 1 : Nat) := by
    rcases hk with rfl | hk
    · simp only [lastPlace]; omega
    · have hbot : ¬log2Frac n d < (k : Int) + 1 - f.bias := by
        rw [log2Frac_lt_iff hn hd, not_lt, ← two_pow_mul_two_zpow_sub (f.p - 1), ← le_splitAt_iff, ← hq]
        exact hk
      simp only [lastPlace]; omega
  rw [hlast, ← hq, hc, Nat.add_assoc, mag_magnitude f neg hlt.le hk, mag_magnitude f neg hlt (hk.imp_right Nat.le_succ_of_le),
    Nat.cast_succ]
  exact ⟨rfl, rfl⟩

/-- There is a remainder unless the quotient is the whole magnitude. -/
theorem splitAt_rem_eq_zero_iff (n : Nat) (hd : d ≠ 0) (x : Int) :
    (splitAt n d x).2.1 = 0 ↔ ((splitAt n d x).1 : ℚ) * 2 ^ x = n / d := by
  have hd' : (d : ℚ) ≠ 0 := by exact_mod_cast hd
  have hrem (N D : Nat) : N % D = 0 ↔ N / D * D = N := by have := Nat.div_add_mod' N D; omega
  simp only [splitAt]
  split
  · next hx =>
    rw [two_zpow_of_nonneg hx, eq_div_iff hd', mul_assoc, mul_comm _ (d : ℚ), hrem]
    exact_mod_cast Iff.rfl
  · next hx =>
    rw [two_zpow_of_neg hx, ← div_eq_mul_inv, div_eq_div_iff (by positivity) hd', hrem]
    exact_mod_cast Iff.rfl

/-- A rounding goes on from the code toward zero where its direction and the remainder say so. -/
theorem roundMag_eq (f : Fmt) (rm : Rm) (neg : Bool) (hn : n ≠ 0) :
    (roundMag f rm neg n d).1 = (roundMag f .rtz neg n d).1 +
      if roundsUp rm neg ((roundMag f .rtz neg n d).1 % 2 == 1) (splitAt n d (lastPlace f n d)).2.1
        (splitAt n d (lastPlace f n d)).2.2 then 1 else 0 := by
  have hlast : (if log2Frac n d < 1 - (f.bias : Int) then 1 - (f.bias : Int) else log2Frac n d) - (f.p - 1 : Nat) =
      lastPlace f n d := by
    simp only [lastPlace]; split <;> omega
  simp only [roundMag, if_neg hn, hlast]
  rfl

/-- A rounding gives the code toward zero or the next. -/
theorem roundMag_eq_or (f : Fmt) (rm : Rm) (neg : Bool) (hn : n ≠ 0) :
    (roundMag f rm neg n d).1 = (roundMag f .rtz neg n d).1 ∨
      (roundMag f rm neg n d).1 = (roundMag f .rtz neg n d).1 + 1 := by
  rw [roundMag_eq f rm neg hn]
  split
  · exact .inr rfl
  · exact .inl rfl

/-- Upward a positive magnitude goes on to the next code unless it is that of the code. -/
theorem roundMag_rup_eq (f : Fmt) (hn : n ≠ 0) (hd : d ≠ 0) :
    (roundMag f .rup false n d).1 = (roundMag f .rtz false n d).1 +
      if (magnitude f false (roundMag f .rtz false n d).1).mag = n / d then 0 else 1 := by
  rw [roundMag_eq f .rup false hn, (mag_roundMag_rtz f false hn hd).1]
  simp only [← splitAt_rem_eq_zero_iff n hd, roundsUp]
  by_cases h : (splitAt n d (lastPlace f n d)).2.1 = 0 <;> simp [h]

theorem le_roundMag_rtz_iff (f : Fmt) (neg : Bool) (hn : n ≠ 0) (hd : d ≠ 0) :
    c ≤ (roundMag f .rtz neg n d).1 ↔ (magnitude f neg c).mag ≤ n / d := by
  obtain ⟨hle, hgt⟩ := roundMag_rtz_bounds f neg hn hd
  constructor
  · exact fun h => ((strictMono_mag f neg).monotone h).trans hle
  · exact fun h => Nat.lt_succ_iff.mp ((strictMono_mag f neg).lt_iff_lt.mp (h.trans_lt hgt))

theorem roundMag_rup_le_iff (f : Fmt) (hn : n ≠ 0) (hd : d ≠ 0) :
    (roundMag f .rup false n d).1 ≤ c ↔ (n : ℚ) / d ≤ (magnitude f false c).mag := by
  obtain ⟨hle, hgt⟩ := roundMag_rtz_bounds f false hn hd
  rw [roundMag_rup_eq f hn hd]
  split
  · next heq => rw [← heq, Nat.add_zero]; exact (strictMono_mag f false).le_iff_le.symm
  · next hne =>
    constructor
    · exact fun h => hgt.le.trans ((strictMono_mag f false).monotone h)
    · exact fun h => (strictMono_mag f false).lt_iff_lt.mp ((lt_of_le_of_ne hle hne).trans_le h)

/-- To whichever neighbour a rounding goes, the magnitude lies between the codes beside the one it gives. -/
theorem roundMag_between (f : Fmt) (rm : Rm) (neg : Bool) (hn : n ≠ 0) (hd : d ≠ 0) :
    (magnitude f neg ((roundMag f rm neg n d).1 - 1)).mag ≤ n / d ∧
      (n : ℚ) / d ≤ (magnitude f neg ((roundMag f rm neg n d).1 + 1)).mag := by
  obtain ⟨hle, hgt⟩ := roundMag_rtz_bounds f neg hn hd
  have hmono := (strictMono_mag f neg).monotone
  rcases roundMag_eq_or (d := d) f rm neg hn with h | h <;> rw [h]
  · exact ⟨(hmono (Nat.sub_le _ 1)).trans hle, hgt.le⟩
  · exact ⟨hle, hgt.le.trans (hmono (Nat.le_succ _))⟩

end Sys2Proof.Num
end

section
/-! O8: the reciprocal (R182, Table 9.6). -/

namespace Sys2Proof.Machine

open Sys2Proof.Num

variable {ulps n d c : Nat}

/-- The magnitude that an FP32 code stands for. -/
def val32 (c : Nat) : ℚ := (magnitude fp32 false c).mag

theorem strictMono_val32 : StrictMono val32 := strictMono_mag fp32 false

/-- The codes of the binade of biased exponent `k`, and the first of the next. -/
theorem val32_normal {k m : Nat} (hk : 0 < k) (hm : m ≤ 2 ^ 23) :
    val32 (k * 2 ^ 23 + m) = (2 ^ 23 + m : Nat) * 2 ^ ((k : Int) - 150) := by
  obtain ⟨k, rfl⟩ := Nat.exists_eq_add_of_lt hk
  have hc : (0 + k + 1) * 2 ^ 23 + m = k * 2 ^ (fp32.p - 1) + (2 ^ 23 + m) := by simp only [fp32]; ring
  have he : ((0 + k + 1 : Nat) : Int) - 150 = (k : Int) + 1 - fp32.bias - (fp32.p - 1 : Nat) := by
    simp only [fp32]; push_cast; ring
  rw [val32, hc, he]
  exact mag_magnitude fp32 false (by simp only [fp32]; omega) (.inr (Nat.le_add_right _ _))

/-- The codes within some units are those from the one that a rounding up gives below to the one toward zero above. -/
theorem withinCodes_eq (ulps n : Nat) (hd : d ≠ 0) :
    ∃ N D w : Nat, withinCodes ulps n d = ((roundMag fp32 .rup false (N - w) D).1, (roundMag fp32 .rtz false (N + w) D).1) ∧
      D ≠ 0 ∧ (N : ℚ) / D = n / d ∧ (w : ℚ) / D = ulps * 2 ^ ulpExp n d := by
  have hd' : (d : ℚ) ≠ 0 := by exact_mod_cast hd
  simp only [withinCodes]
  split
  · next hu =>
    refine ⟨_, _, _, rfl, hd, rfl, ?_⟩
    rw [two_zpow_of_nonneg hu]
    push_cast
    field_simp
  · next hu =>
    refine ⟨_, _, _, rfl, mul_ne_zero hd (Nat.two_pow_pos _).ne', ?_, ?_⟩
    · push_cast
      field_simp
    · rw [two_zpow_of_neg hu]
      push_cast
      field_simp

/-- The first code within some units in the last place of a magnitude. -/
theorem withinCodes_fst_le_iff (hd : d ≠ 0) (hlt : (ulps : ℚ) * 2 ^ ulpExp n d < n / d) :
    (withinCodes ulps n d).1 ≤ c ↔ (n : ℚ) / d - ulps * 2 ^ ulpExp n d ≤ val32 c := by
  obtain ⟨N, D, w, h, hD, hN, hw⟩ := withinCodes_eq ulps n hd
  have hD' : (0 : ℚ) < D := by exact_mod_cast Nat.pos_of_ne_zero hD
  rw [← hN, ← hw, div_lt_div_iff_of_pos_right hD', Nat.cast_lt] at hlt
  rw [h, roundMag_rup_le_iff fp32 (by omega) hD, ← hN, ← hw, ← sub_div, Nat.cast_sub hlt.le]
  rfl

/-- The last code within some units in the last place of a magnitude. -/
theorem le_withinCodes_snd_iff (hn : n ≠ 0) (hd : d ≠ 0) :
    c ≤ (withinCodes ulps n d).2 ↔ val32 c ≤ (n : ℚ) / d + ulps * 2 ^ ulpExp n d := by
  obtain ⟨N, D, w, h, hD, hN, hw⟩ := withinCodes_eq ulps n hd
  have hN0 : N ≠ 0 := by
    rintro rfl
    have hd' : (d : ℚ) ≠ 0 := by exact_mod_cast hd
    rw [Nat.cast_zero, zero_div, eq_comm, div_eq_zero_iff] at hN
    exact hN.elim (by exact_mod_cast hn) hd'
  rw [h, le_roundMag_rtz_iff fp32 false (by omega) hD, ← hN, ← hw, ← add_div, Nat.cast_add]
  rfl

/-- A result that is not exact is one of the codes within its bound. -/
theorem within_mem (op : Nat) (x : Word) (h : (withinCodes ulps n d).1 ≤ (withinCodes ulps n d).2)
    (hmax : (withinCodes ulps n d).2 ≤ fp32.maxFin) :
    (withinCodes ulps n d).1 ≤ within op ulps x false n d ∧ within op ulps x false n d ≤ (withinCodes ulps n d).2 := by
  have hmod := Nat.mod_lt (Config.transcendental op x) (by omega : (withinCodes ulps n d).2 + 1 - (withinCodes ulps n d).1 > 0)
  simp only [within, signCode, Bool.false_and, Bool.false_eq_true, if_false, Nat.min_def]
  split <;> omega

-- Neighbours of a magnitude

theorem val32_succ (c : Nat) : val32 (c + 1) = val32 c + 2 ^ (((max (c / 2 ^ 23) 1 : Nat) : Int) - 150) := by
  have h := mag_magnitude_succ fp32 false c
  have he : ((max (c / 2 ^ 23) 1 : Nat) : Int) - 150 =
      ((max (c / 2 ^ (fp32.p - 1)) 1 : Nat) : Int) - fp32.bias - (fp32.p - 1 : Nat) := by simp only [fp32]; omega
  rw [he]
  exact h

theorem val32_two_pow {k : Nat} (hk : 0 < k) : val32 (k * 2 ^ 23) = 2 ^ ((k : Int) - 127) := by
  have h := val32_normal hk (Nat.zero_le _)
  have he : (k : Int) - 150 = (k : Int) - 127 - (23 : Nat) := by omega
  rwa [Nat.add_zero, Nat.add_zero, he, two_pow_mul_two_zpow_sub] at h

/-- A code within one unit above a magnitude of the binade `k` or a higher one is the first one above it or lies below. -/
theorem val32_pred_le {k : Nat} {v : ℚ} (hk : 0 < k) (hv : 2 ^ ((k : Int) - 127) ≤ v)
    (hc : val32 c ≤ v + 2 ^ ((k : Int) - 150)) : val32 (c - 1) ≤ v := by
  by_contra! h
  have hb : k * 2 ^ 23 < c - 1 := by
    rw [← strictMono_val32.lt_iff_lt, val32_two_pow hk]
    exact hv.trans_lt h
  have hsucc := val32_succ (c - 1)
  rw [Nat.sub_add_cancel (by omega)] at hsucc
  have hgap : (2 : ℚ) ^ ((k : Int) - 150) ≤ 2 ^ (((max ((c - 1) / 2 ^ 23) 1 : Nat) : Int) - 150) :=
    zpow_le_zpow_right₀ (by norm_num) (by omega)
  linarith

/-- A code within one unit below a magnitude that lies more than half a unit above its power of two is the last one below it or
lies above: the codes below the power of two are half a unit apart. -/
theorem le_val32_succ {k : Nat} {v : ℚ} (hv : 2 ^ ((k : Int) - 127) + 2 ^ ((k : Int) - 151) < v)
    (hc : v - 2 ^ ((k : Int) - 150) ≤ val32 c) : v ≤ val32 (c + 1) := by
  by_contra! h
  rw [val32_succ] at h
  have hgap : (2 : ℚ) ^ (((max (c / 2 ^ 23) 1 : Nat) : Int) - 150) < 2 ^ ((k : Int) - 150) := by linarith
  rw [zpow_lt_zpow_iff_right₀ (by norm_num)] at hgap
  have hpred : val32 ((k - 1) * 2 ^ 23 + (2 ^ 23 - 1)) = 2 ^ ((k : Int) - 127) - 2 ^ ((k : Int) - 151) := by
    have he : (((k - 1 : Nat) : Int) - 150) = (k : Int) - 151 := by omega
    have hp : (2 : ℚ) ^ ((k : Int) - 127) = 2 ^ 24 * 2 ^ ((k : Int) - 151) := by
      rw [← zpow_natCast, ← zpow_add₀ (by norm_num)]; congr 1; omega
    rw [val32_normal (by omega) (by omega), he, hp]
    norm_num
    ring
  have hle : val32 c ≤ val32 ((k - 1) * 2 ^ 23 + (2 ^ 23 - 1)) := strictMono_val32.monotone (by omega)
  have hhalf : (2 : ℚ) ^ ((k : Int) - 150) = 2 * 2 ^ ((k : Int) - 151) := by
    rw [← zpow_one_add₀ (by norm_num)]; congr 1; omega
  linarith

-- The reciprocal

theorem powerOf2_eq_some {x : Int} (hn : n ≠ 0) (hd : d ≠ 0) (h : (n : ℚ) / d = 2 ^ x) : powerOf2 n d = some x := by
  have hlog : log2Frac n d = x := by
    have hlo := (log2Frac_lt_iff hn hd x).not.mpr (by rw [h]; exact lt_irrefl _)
    have hhi := (log2Frac_lt_iff hn hd (x + 1)).mpr (by rw [h]; exact zpow_lt_zpow_right₀ (by norm_num) (by omega))
    omega
  have hd' : (d : ℚ) ≠ 0 := by exact_mod_cast hd
  rw [div_eq_iff hd'] at h
  have htest : (if 0 ≤ x then d * 2 ^ x.toNat == n else n * 2 ^ (-x).toNat == d) = true := by
    split
    · next hx =>
      rw [two_zpow_of_nonneg hx] at h
      rw [beq_iff_eq, mul_comm]
      exact_mod_cast h.symm
    · next hx =>
      rw [two_zpow_of_neg hx, eq_inv_mul_iff_mul_eq₀ (by positivity)] at h
      rw [beq_iff_eq, mul_comm]
      exact_mod_cast h
  simp only [powerOf2, hlog, htest, if_true]

/-- `FRCP` of a finite number of magnitude 2^−128 or more is the rounded reciprocal, or a code within one unit of it. -/
theorem rcp_eq {x : Nat} (h : decodeCode fp32 x = .fin false n d) (hn : n ≠ 0) (hbig : ¬n * 2 ^ 128 < d) :
    (rcp x).1 = exact32 (.fin false d n) ∨
      ((∀ e, powerOf2 n d = some e → e < -127) ∧ (rcp x).1 = within 0 1 (BitVec.ofNat 32 x) false d n) := by
  simp only [rcp, trans, h, if_neg hn, if_neg hbig]
  cases hp : powerOf2 n d with
  | none => exact .inr ⟨fun _ he => (nomatch he), rfl⟩
  | some e =>
    by_cases he : -127 ≤ e
    · exact .inl (by simp only [if_pos he])
    · exact .inr ⟨fun e' he' => Option.some.inj he' ▸ not_le.mp he, by simp only [if_neg he]⟩

/-- The magnitude of an exact result that does not overflow lies between the codes beside the one it gets. -/
theorem exact32_between (hn : n ≠ 0) (hd : d ≠ 0) (h : (n : ℚ) / d < 2 ^ (127 : Int)) :
    val32 (exact32 (.fin false n d) - 1) ≤ n / d ∧ (n : ℚ) / d ≤ val32 (exact32 (.fin false n d) + 1) := by
  have htop : (roundMag fp32 .rtz false n d).1 < 254 * 2 ^ 23 := by
    rw [← not_le, le_roundMag_rtz_iff fp32 false hn hd, not_le]
    exact h.trans_eq (val32_two_pow (k := 254) (by omega)).symm
  have hmax : ¬fp32.maxFin < (roundMag fp32 .rne false n d).1 := by
    have hmaxFin : fp32.maxFin = 255 * 2 ^ 23 - 1 := rfl
    rcases roundMag_eq_or (d := d) fp32 .rne false hn with he | he <;> rw [he] <;> omega
  have hcode : exact32 (.fin false n d) = (roundMag fp32 .rne false n d).1 := by
    simp [exact32, Num.round, signCode, hmax]
  rw [hcode]
  exact roundMag_between fp32 .rne false hn hd

/-- A number of binade `a` that is no power of two has its reciprocal in binade `253 − a`, more than half a unit above its power of
two. -/
theorem inv_val32_bounds {a r : Nat} (ha : 0 < a) (hr0 : 0 < r) (hr : r < 2 ^ 23) :
    (2 : ℚ) ^ (126 - (a : Int)) + 2 ^ (102 - (a : Int)) < (val32 (a * 2 ^ 23 + r))⁻¹ ∧
      (val32 (a * 2 ^ 23 + r))⁻¹ < 2 ^ (127 - (a : Int)) := by
  have hpow (k : Nat) : (2 : ℚ) ^ (102 - (a : Int) + k) = 2 ^ k * 2 ^ (102 - (a : Int)) := by
    rw [zpow_add₀ (by norm_num), zpow_natCast, mul_comm]
  have hlow : (2 : ℚ) ^ (126 - (a : Int)) = 2 ^ 24 * 2 ^ (102 - (a : Int)) := by rw [← hpow]; congr 1; ring
  have hhigh : (2 : ℚ) ^ (127 - (a : Int)) = 2 ^ 25 * 2 ^ (102 - (a : Int)) := by rw [← hpow]; congr 1; ring
  have hinv : (val32 (a * 2 ^ 23 + r))⁻¹ = 2 ^ 48 * 2 ^ (102 - (a : Int)) / (2 ^ 23 + r : Nat) := by
    rw [val32_normal ha hr.le, mul_inv_rev, ← zpow_neg, ← hpow, div_eq_mul_inv]
    congr 2; ring
  have hP : (0 : ℚ) < 2 ^ (102 - (a : Int)) := by positivity
  have hr' : (r : ℚ) ≤ 2 ^ 23 - 1 := by
    rw [le_sub_iff_add_le]; exact_mod_cast hr
  have hr0' : (1 : ℚ) ≤ r := by exact_mod_cast hr0
  rw [hinv, hlow, hhigh]
  push_cast
  constructor
  · rw [lt_div_iff₀ (by positivity)]
    nlinarith
  · rw [div_lt_iff₀ (by positivity)]
    nlinarith

/-- A code within one unit of a magnitude whose unit is that of binade `k` lies beside it. -/
theorem within_between {k : Nat} (op : Nat) (x : Word) (hn : n ≠ 0) (hd : d ≠ 0) (hk : 0 < k) (hk' : k < 253)
    (hlo : 2 ^ ((k : Int) - 127) + 2 ^ ((k : Int) - 151) < (n : ℚ) / d) (hhi : (n : ℚ) / d < 2 ^ ((k : Int) - 126)) :
    val32 (within op 1 x false n d - 1) ≤ n / d ∧ (n : ℚ) / d ≤ val32 (within op 1 x false n d + 1) := by
  have hpow : (2 : ℚ) ^ ((k : Int) - 127) < n / d := lt_trans (lt_add_of_pos_right _ (by positivity)) hlo
  have hlog : log2Frac n d = (k : Int) - 127 := by
    have h1 := (log2Frac_lt_iff hn hd ((k : Int) - 127)).not.mpr hpow.not_gt
    have h2 := (log2Frac_lt_iff hn hd ((k : Int) - 126)).mpr hhi
    omega
  have hulp : ulpExp n d = (k : Int) - 150 := by simp only [ulpExp, hlog]; omega
  have hplace : lastPlace fp32 n d = (k : Int) - 150 := by simp only [lastPlace, hlog, fp32]; omega
  have hunit : ((1 : Nat) : ℚ) * 2 ^ ulpExp n d = 2 ^ ((k : Int) - 150) := by rw [Nat.cast_one, one_mul, hulp]
  have hsmall : (2 : ℚ) ^ ((k : Int) - 150) < n / d :=
    (zpow_le_zpow_right₀ (by norm_num) (by omega)).trans_lt hpow
  have hfirst (c : Nat) := withinCodes_fst_le_iff (ulps := 1) (c := c) hd (by rwa [hunit])
  have hlast (c : Nat) := le_withinCodes_snd_iff (ulps := 1) (c := c) hn hd
  simp only [hunit] at hfirst hlast
  have hle : (withinCodes 1 n d).1 ≤ (withinCodes 1 n d).2 := by
    obtain ⟨hz, hz'⟩ := mag_roundMag_rtz fp32 false hn hd
    obtain ⟨h1, h2⟩ := roundMag_rtz_bounds fp32 false hn hd
    rw [hz', hplace, add_one_mul, ← hplace, ← hz, hplace] at h2
    refine le_trans ((hfirst (roundMag fp32 .rtz false n d).1).mpr ?_) ((hlast _).mpr ?_)
    · rw [val32]; linarith
    · rw [val32]; linarith [show (0 : ℚ) < 2 ^ ((k : Int) - 150) by positivity]
  have hmax : (withinCodes 1 n d).2 ≤ fp32.maxFin := by
    refine Nat.le_of_lt_succ (not_le.mp ((hlast (255 * 2 ^ 23)).not.mpr (not_le.mpr ?_)))
    calc (n : ℚ) / d + 2 ^ ((k : Int) - 150) < n / d + n / d := by linarith
      _ < 2 ^ ((k : Int) - 126) + 2 ^ ((k : Int) - 126) := by linarith
      _ = 2 ^ ((k : Int) - 125) := by rw [← two_mul, ← zpow_one_add₀ (by norm_num)]; congr 1; ring
      _ ≤ 2 ^ ((255 : Nat) - 127 : Int) := zpow_le_zpow_right₀ (by norm_num) (by omega)
      _ = val32 (255 * 2 ^ 23) := (val32_two_pow (by omega)).symm
  obtain ⟨hge, hle⟩ := within_mem op x hle hmax
  exact ⟨val32_pred_le hk hpow.le ((hlast _).mp hle), le_val32_succ hlo ((hfirst _).mp hge)⟩

/-- A code of at least the smallest normal number stands for its value, whose reciprocal `FRCP` does not overflow. -/
theorem of_decodeCode_normal {x : Nat} (hlo : 2 ^ 23 ≤ x) (hhi : x < 2 ^ 31) (hdec : decodeCode fp32 x = .fin false n d) :
    n ≠ 0 ∧ d ≠ 0 ∧ (n : ℚ) / d = val32 x ∧ 2 ^ (-126 : Int) ≤ val32 x ∧ ¬n * 2 ^ 128 < d := by
  have hmag := (of_decodeCode_eq_fin rfl hdec).2
  rw [Nat.mod_eq_of_lt (show x < 2 ^ (fp32.width - 1) from hhi)] at hmag
  obtain ⟨-, hd, hval⟩ := of_magnitude_eq_fin hmag
  have hpos : (2 : ℚ) ^ (-126 : Int) ≤ val32 x :=
    (val32_two_pow (k := 1) one_pos).symm.trans_le (strictMono_val32.monotone (by omega))
  have hbig : d ≤ n * 2 ^ 126 := by
    rw [val32, hval, two_zpow_le_div_iff hd] at hpos
    exact hpos
  have hd0 := Nat.pos_of_ne_zero hd
  exact ⟨by rintro rfl; omega, hd, hval.symm, hpos, by omega⟩

/-- Settles O8: an exact reciprocal lies between the codes beside its own, and so does any other between those beside a code within
one unit of it. -/
theorem reciprocalIsWithinOneUlp : Obligations.ReciprocalIsWithinOneUlp := by
  unfold Obligations.ReciprocalIsWithinOneUlp
  intro x n d hlo hhi hdec c val
  have hval (c : Nat) : val c = val32 c := by
    simp only [val, val32]
    cases magnitude fp32 false c <;> rfl
  obtain ⟨hn, hd, hx, hpos, hbig⟩ := of_decodeCode_normal hlo (by omega) hdec
  have hinv : (d : ℚ) / n = (val32 x)⁻¹ := by rw [← hx, inv_div]
  have hdiv : x / 2 ^ 23 * 2 ^ 23 + x % 2 ^ 23 = x := Nat.div_add_mod' _ _
  rw [hval, hval]
  rcases rcp_eq hdec hn hbig with h | ⟨hp, h⟩
  · simp only [c, h]
    refine exact32_between hd hn ?_
    calc (d : ℚ) / n ≤ (2 ^ (-126 : Int))⁻¹ := by rw [hinv]; exact inv_anti₀ (by positivity) hpos
      _ < 2 ^ (127 : Int) := by norm_num
  · have hr : 0 < x % 2 ^ 23 := by
      by_contra! hr
      have hpow : (n : ℚ) / d = 2 ^ (((x / 2 ^ 23 : Nat) : Int) - 127) := by
        rw [hx, ← val32_two_pow (by omega)]
        congr 1; omega
      have := hp _ (powerOf2_eq_some hn hd hpow)
      omega
    obtain ⟨hgt, hlt⟩ := inv_val32_bounds (a := x / 2 ^ 23) (by omega) hr (Nat.mod_lt _ (by norm_num))
    rw [hdiv, ← hinv] at hgt hlt
    have hsub (j : Int) : ((253 - x / 2 ^ 23 : Nat) : Int) - j = 253 - j - (x / 2 ^ 23 : Nat) := by omega
    simp only [c, h]
    refine within_between (k := 253 - x / 2 ^ 23) 0 _ hd hn (by omega) (by omega) ?_ ?_
    · rw [hsub, hsub]; exact hgt
    · rw [hsub]; exact hlt

end Sys2Proof.Machine
end

section
/-! O9: the transcendentals' special and exact inputs (R182, Table 9.6). -/

namespace Sys2Proof.Machine

open Sys2Proof.Num

variable {x k : Nat} {q : Bool}

theorem trans_of_nan (f : Val → Nat × BitVec 7) (h : decodeCode fp32 x = .nan q) :
    trans f x = (0x7FC00000, if q then nv else 0) := by
  simp only [trans, h]
  rfl

theorem mag_magnitude_sign (f : Fmt) (neg : Bool) (c : Nat) : (magnitude f neg c).mag = (magnitude f false c).mag := by
  simp only [magnitude]
  split <;> rw [mag_pow2, mag_pow2]

theorem decodeCode_fp32_of_lt (h : x % 2 ^ 31 < 0x7F800000) :
    decodeCode fp32 x = magnitude fp32 (decide (2 ^ 31 ≤ x)) (x % 2 ^ 31) :=
  if_pos (Nat.le_of_lt_succ h)

/-- An FP32 code below the infinities' is finite, and stands for the value of its magnitude code. -/
theorem decodeCode_fp32_finite (h : x % 2 ^ 31 < 0x7F800000) :
    ∃ n d, decodeCode fp32 x = .fin (decide (2 ^ 31 ≤ x)) n d ∧ d ≠ 0 ∧ (n : ℚ) / d = val32 (x % 2 ^ 31) := by
  obtain ⟨n, d, hm, hd⟩ := magnitude_eq_fin fp32 (decide (2 ^ 31 ≤ x)) (x % 2 ^ 31)
  refine ⟨n, d, (decodeCode_fp32_of_lt h).trans hm, hd, ?_⟩
  rw [val32, ← mag_magnitude_sign fp32 (decide (2 ^ 31 ≤ x)), hm, mag_fin]

theorem mul_le_of_le_div {n d : Nat} (hd : d ≠ 0) (h : (k : ℚ) ≤ n / d) : k * d ≤ n := by
  rw [le_div_iff₀ (by exact_mod_cast Nat.pos_of_ne_zero hd)] at h
  exact_mod_cast h

/-- A negative number, −∞ among them, is an infinity or a nonzero finite value with its sign set. -/
theorem decodeCode_negative (hlo : 0x80000000 < x) (hhi : x ≤ 0xFF800000) :
    decodeCode fp32 x = .inf true ∨ ∃ n d, decodeCode fp32 x = .fin true n d ∧ n ≠ 0 := by
  rcases Nat.eq_or_lt_of_le hhi with rfl | hlt
  · exact .inl (by decide)
  · obtain ⟨n, d, h, -, hval⟩ := decodeCode_fp32_finite (x := x) (by omega)
    rw [decide_eq_true (by omega)] at h
    refine .inr ⟨n, d, h, ?_⟩
    rintro rfl
    have hpos : val32 0 < val32 (x % 2 ^ 31) := strictMono_val32 (by omega)
    rw [← hval, val32, mag_zero, Nat.cast_zero, zero_div] at hpos
    exact lt_irrefl _ hpos

/-- A transcendental that refuses negative numbers refuses all of them alike. -/
theorem trans_negative {f : Val → Nat × BitVec 7} {r : Nat × BitVec 7} (hinf : f (.inf true) = r)
    (hfin : ∀ n d, n ≠ 0 → f (.fin true n d) = r) (hlo : 0x80000000 < x) (hhi : x ≤ 0xFF800000) : trans f x = r := by
  rcases decodeCode_negative hlo hhi with h | ⟨n, d, h, hn⟩
  · simp only [trans, h, hinf]
  · simp only [trans, h, hfin n d hn]

theorem rsq_negative (hlo : 0x80000000 < x) (hhi : x ≤ 0xFF800000) : rsq x = (0x7FC00000, nv) :=
  trans_negative rfl (fun _ _ hn => if_neg hn) hlo hhi

theorem flog2_negative (hlo : 0x80000000 < x) (hhi : x ≤ 0xFF800000) : flog2 x = (0x7FC00000, nv) :=
  trans_negative rfl (fun _ _ hn => if_neg hn) hlo hhi

/-- The subnormal numbers below 2^−128 have no finite reciprocal. -/
theorem rcp_overflow (h0 : x ≠ 0) (hlt : x < 0x00200000) : rcp x = (0x7F800000, Sys2Proof.Num.of ||| nx) := by
  have hdec : decodeCode fp32 x = .fin false x (2 ^ 149) := by
    rw [decodeCode_fp32_of_lt (by omega), decide_eq_false (by omega), Nat.mod_eq_of_lt (by omega)]
    have hdiv : x / 2 ^ (fp32.p - 1) = 0 := Nat.div_eq_of_lt (by simp only [fp32]; omega)
    have hmod : x % 2 ^ (fp32.p - 1) = x := Nat.mod_eq_of_lt (by simp only [fp32]; omega)
    simp only [magnitude, hdiv, hmod, if_true]
    rfl
  have hbig : x * 2 ^ 128 < 2 ^ 149 := by omega
  simp only [rcp, trans, hdec, if_neg h0, if_pos hbig]
  rfl

theorem exp2_overflow (hlo : 0x43000000 ≤ x) (hhi : x < 0x7F800000) : exp2 x = (0x7F800000, Sys2Proof.Num.of ||| nx) := by
  obtain ⟨n, d, h, hd, hval⟩ := decodeCode_fp32_finite (x := x) (by omega)
  rw [decide_eq_false (by omega)] at h
  have hge : 128 * d ≤ n := by
    refine mul_le_of_le_div hd ?_
    calc ((128 : Nat) : ℚ) = val32 (134 * 2 ^ 23) := by rw [val32_two_pow (by omega)]; norm_num
      _ ≤ val32 (x % 2 ^ 31) := strictMono_val32.monotone (by omega)
      _ = n / d := hval.symm
  simp only [exp2, trans, h, decide_eq_true hge, Bool.not_false, Bool.and_self, if_true]
  rfl

theorem exp2_underflow (hlo : 0xC3170000 ≤ x) (hhi : x < 0xFF800000) : exp2 x = (0, uf ||| nx) := by
  obtain ⟨n, d, h, hd, hval⟩ := decodeCode_fp32_finite (x := x) (by omega)
  rw [decide_eq_true (by omega)] at h
  have hge : 151 * d ≤ n := by
    refine mul_le_of_le_div hd ?_
    calc ((151 : Nat) : ℚ) = val32 (134 * 2 ^ 23 + 0x170000) := by rw [val32_normal (by omega) (by omega)]; norm_num
      _ ≤ val32 (x % 2 ^ 31) := strictMono_val32.monotone (by omega)
      _ = n / d := hval.symm
  simp only [exp2, trans, h, decide_eq_true hge, Bool.not_true, Bool.false_and, Bool.false_eq_true, Bool.and_self, if_true,
    if_false]

/-- Settles O9: NaNs, the ranges without a finite result, and the inputs of Table 9.6 one by one. -/
theorem transcendentalResults : Obligations.TranscendentalResults := by
  unfold Obligations.TranscendentalResults
  intro g d a one gives
  refine ⟨gives_of_float1 (fun _ => rfl) fun _ _ => rfl, gives_of_float1 (fun _ => rfl) fun _ _ => rfl,
    gives_of_float1 (fun _ => rfl) fun _ _ => rfl, gives_of_float1 (fun _ => rfl) fun _ _ => rfl,
    gives_of_float1 (fun _ => rfl) fun _ _ => rfl, gives_of_float1 (fun _ => rfl) fun _ _ => rfl, ?nan,
    by decide, by decide, by decide, by decide, by decide, fun _ => rcp_overflow, by decide, by decide, by decide,
    fun _ => rsq_negative, by decide, by decide, by decide, by decide, fun _ => exp2_overflow, fun _ => exp2_underflow,
    by decide, by decide, by decide, by decide, by decide, fun _ => flog2_negative, by decide, by decide, by decide, by decide,
    by decide, by decide, by decide⟩
  case nan =>
    intro f hf x q h
    simp only [List.mem_cons, List.not_mem_nil, or_false] at hf
    rcases hf with rfl | rfl | rfl | rfl | rfl | rfl <;> exact trans_of_nan _ h

end Sys2Proof.Machine
end

section
/-! SUPPORT. Conversions: what `CVT` writes by the kinds of its source and its destination (R62, R184). -/

namespace Sys2Proof.Num

theorem outside_iff (sgn : Bool) (w : Nat) (v : Int) : outside sgn w v = true ↔ ¬(intMin sgn w ≤ v ∧ v ≤ intMax sgn w) := by
  simp only [outside, Bool.or_eq_true, decide_eq_true_eq]
  omega

theorem clamp_of_mem {sgn : Bool} {w : Nat} {v : Int} (h : intMin sgn w ≤ v ∧ v ≤ intMax sgn w) : clamp sgn w v = v := by
  rw [clamp, if_neg (not_lt.mpr h.1), if_neg (not_lt.mpr h.2)]

/-- An integer out of range wraps with IO, or is limited with NX. -/
theorem toIntInt_eq (sgn : Bool) (w : Nat) (sat : Bool) (v : Int) :
    toIntInt sgn w sat v =
      if intMin sgn w ≤ v ∧ v ≤ intMax sgn w then (v, 0) else if sat then (clamp sgn w v, nx) else (v, io) := by
  by_cases h : intMin sgn w ≤ v ∧ v ≤ intMax sgn w
  · rw [toIntInt, if_neg ((outside_iff sgn w v).not.mpr (not_not.mpr h)), if_pos h]
  · rw [toIntInt, if_pos ((outside_iff sgn w v).mpr h), if_neg h]

/-- A finite value is rounded and limited; the flag says which of the two changed it. -/
theorem toIntFloat_fin (sgn : Bool) (w : Nat) (rm : Rm) (sat neg : Bool) (n d : Nat) :
    toIntFloat sgn w rm sat (.fin neg n d) =
      (clamp sgn w (roundInt rm neg n d).1,
        if intMin sgn w ≤ (roundInt rm neg n d).1 ∧ (roundInt rm neg n d).1 ≤ intMax sgn w then
          (if (roundInt rm neg n d).2 then nx else 0)
        else if sat then nx else nv) := by
  simp only [toIntFloat]
  by_cases h : intMin sgn w ≤ (roundInt rm neg n d).1 ∧ (roundInt rm neg n d).1 ≤ intMax sgn w
  · rw [if_neg ((outside_iff sgn w _).not.mpr (not_not.mpr h)), clamp_of_mem h, if_pos h]
  · rw [if_pos ((outside_iff sgn w _).mpr h), if_neg h]

end Sys2Proof.Num

namespace Sys2Proof.Machine

variable {dt st : Ty} {rm : Rm} {sat : Bool} {d a : Reg} {v : View}

theorem elemOf_zero (hi : st.isInt = false) (hp : st.packed = false) (w : Word) : elemOf st w 0 = w.toNat % 2 ^ st.width := by
  cases st
  case f32 => exact (Nat.mod_eq_of_lt w.isLt).symm
  case bf16 | f16 => rfl
  all_goals simp [Ty.isInt, Ty.packed] at hi hp

theorem cvtSource_int (hs : st.isInt = true) : cvtSource v st a = (.int (v.val st a).1, (v.reg a).1, (v.val st a).2) := by
  rw [cvtSource, if_pos hs]

theorem cvtSource_float (hs : st.isInt = false) (hp : st.packed = false) :
    cvtSource v st a =
      (.float (Num.decodeCode (Num.ofTy st) (elemOf st (v.reg a).1 0)), (v.reg a).1, (v.reg a).2) := by
  rw [elemOf_zero hs hp, cvtSource, if_neg (by simp [hs])]
  rfl

theorem cvtTo_int_int (hd : dt.isInt = true) (n : Int) :
    cvtTo dt d rm sat (.int n) =
      (putTy dt d (Num.toIntInt dt.signed dt.width sat n).1, (Num.toIntInt dt.signed dt.width sat n).2) := by
  simp only [cvtTo, if_pos hd]

theorem cvtTo_int_float (hd : dt.isInt = true) (x : Num.Val) :
    cvtTo dt d rm sat (.float x) =
      (putTy dt d (Num.toIntFloat dt.signed dt.width rm sat x).1, (Num.toIntFloat dt.signed dt.width rm sat x).2) := by
  simp only [cvtTo, if_pos hd]

theorem cvtTo_float (hd : dt.isInt = false) (x : Source) :
    cvtTo dt d rm sat x =
      ([(d, BitVec.ofNat 32 (Num.round (Num.ofTy dt) rm sat x.val).1)], (Num.round (Num.ofTy dt) rm sat x.val).2) := by
  simp only [cvtTo, hd, Bool.false_eq_true, if_false]

/-- `CVT` of a source that is not poisoned to an integer type. -/
theorem convert_toInt {x : Source} {w : Word} {n : Int} {fl : BitVec 7} (e : Env) (hx : cvtSource v st a = (x, w, false))
    (h : cvtTo dt d rm sat x = (putTy dt d n, fl)) : convert dt st rm sat d a e v = .reg dt d n fl := by
  simp only [convert, hx, h, results_clean]

/-- `CVT` of a source that is not poisoned to a scalar floating type. -/
theorem convert_toFloat {x : Source} {w : Word} (e : Env) (hd : dt.scalarFloat = true)
    (hx : cvtSource v st a = (x, w, false)) :
    convert dt st rm sat d a e v = .elems dt d fun _ => Num.round (Num.ofTy dt) rm sat x.val := by
  have hint : dt.isInt = false := by
    simp only [Ty.scalarFloat, Ty.isFloat, Bool.and_eq_true, Bool.not_eq_true'] at hd
    exact hd.1
  rw [outElems_of_not_packed (not_packed_of_scalarFloat hd), convert, hx, cvtTo_float hint]
  rfl

theorem gives_of_cvt {g : Guard} {out : View → Out}
    (hf : st.packed = false → ∀ e v, (v.val st a).2 = false → (v.reg a).2 = false → convert dt st rm sat d a e v = out v)
    (ho : ∀ v, (out v).plain) :
    Gives (.cvt g dt st rm sat d a) (fun v => (v.val st a).2 = false ∧ (v.reg a).2 = false) out := by
  refine gives_of_aluThread (fun _ => rfl) (fun hwf e v ⟨hv, hr⟩ => hf ?_ e v hv hr) fun v _ => ho v
  have := entryOk_of_wf hwf
  simp only [Instr.entryOk, Bool.and_eq_true, Bool.not_eq_true'] at this
  exact this.2

end Sys2Proof.Machine
end

section
/-! O10: conversions between the types (R184). -/

namespace Sys2Proof.Machine

/-- Settles O10: by the kinds of the two types; a packed pair is two floating conversions. -/
theorem conversionResults : Obligations.ConversionResults := by
  unfold Obligations.ConversionResults
  intro g dt st rm sat d a b int flt clean lo hi limit
  refine ⟨fun hd hs => gives_of_cvt (fun _ e v hv _ => ?intInt) fun v => ?plainII,
    fun hd hs => gives_of_cvt (fun hp e v _ hr => ?intFloat) fun v => ?plainIF,
    fun hd hs => gives_of_cvt (fun _ e v hv _ => ?floatInt) fun v => plain_elems _ _ _,
    fun hd hs => gives_of_cvt (fun hp e v _ hr => ?floatFloat) fun v => plain_elems _ _ _, ?packed⟩
  case intInt =>
    have hx : cvtSource v st a = (.int (int v), (v.reg a).1, false) := by rw [cvtSource_int hs, hv]
    rw [convert_toInt e hx (cvtTo_int_int hd _), Num.toIntInt_eq]
    simp only [lo, hi]
    split_ifs <;> rfl
  case plainII => split_ifs <;> exact plain_reg dt d _ _
  case intFloat =>
    have hx : cvtSource v st a = (.float (flt v), (v.reg a).1, false) := by rw [cvtSource_float hs hp, hr]
    rw [convert_toInt e hx (cvtTo_int_float hd _)]
    cases flt v with
    | nan q => rfl
    | inf s => rfl
    | fin s n k => rw [Num.toIntFloat_fin]; rfl
  case plainIF =>
    cases flt v <;> exact plain_reg dt d _ _
  case floatInt =>
    have hx : cvtSource v st a = (.int (int v), (v.reg a).1, false) := by rw [cvtSource_int hs, hv]
    exact convert_toFloat e hd hx
  case floatFloat =>
    have hx : cvtSource v st a = (.float (flt v), (v.reg a).1, false) := by rw [cvtSource_float hs hp, hr]
    exact convert_toFloat e hd hx
  case packed =>
    refine gives_of_aluThread (fun _ => rfl) (fun hwf e v ⟨ha, hb⟩ => ?_) fun v _ => plain_elems _ _ _
    have hp : dt.packed = true := entryOk_of_wf hwf
    simp [ha, hb, Out.results, Out.elems, ofElems, hp]

end Sys2Proof.Machine
end

section
/-! SUPPORT. Conversions through a format slot: when one does not trap, and what its group writes (R183 to R187). -/

namespace Sys2Proof.Machine

variable {i : Instr} {s : State} {k : Nat} {G : Gang} {m act : Mask} {pc : DWord} {sl : Slot}

/-- A group whose lanes convert through the slot of its block writes their results, where none of them traps. -/
theorem slot_executes (h : Executes i s k G m act pc) {B : Block} (hB : s.blocks.find? G.block = some B) (n : BitVec 3)
    {f : Slot → Gang → Env → View → Out} {o : Nat → Out}
    (hf : ∀ l ∈ lanesOf act, f (s.slot B n.toNat) G ⟨s.ctr, l⟩ (G.view l) = o l) (ho : ∀ l ∈ lanesOf act, (o l).plain) :
    ∃ H, threadOp i s (slotThread n f) = .next (s.setGang k H) ∧ Wrote G H m act o := by
  have hblock : s.blockOf k = some B := by simp only [State.blockOf, h.gang, Option.bind_some, hB]
  obtain ⟨H, h1, h2⟩ := putOuts_after h o (fun l hl => (ho l hl).1) (fun l hl => (ho l hl).2.1) fun l hl => (ho l hl).2.2
  refine ⟨H, ?_, h2⟩
  rw [threadOp_executes h, ← h1]
  simp only [slotThread, hblock, groupThread, h.gang]
  rw [List.map_congr_left fun l hl => by rw [hf l hl]]

theorem raisesNv_eq (f : BitVec 7) : raisesNv f = f.getLsbD 4 := by revert f; decide

theorem trapIf_of_quiet (o : Out) {cond : Bool} (bit : Nat) (h : sl.trapInv = false ∨ cond = false) :
    o.trapIf sl cond bit = o := by
  rw [Out.trapIf]
  rcases h with h | h <;> simp only [h, Bool.false_and, Bool.and_false, Bool.false_eq_true, if_false]

/-- Without TRAPINV, or without NV, a result does not trap (R64). -/
theorem trapIf_nv_of_quiet (o : Out) (bit : Nat) (h : sl.trapInv = false ∨ o.flags.getLsbD 4 = false) :
    o.trapIf sl (raisesNv o.flags) bit = o :=
  trapIf_of_quiet o bit (by rwa [raisesNv_eq])

/-- Results of operands that are not poisoned are written with their flags where these do not trap. -/
theorem trapIf_results_of_quiet {e : Env} {v : View} {poison : Bool} {src : Word} {ws : List (Reg × Word)} {fl fl' : BitVec 7}
    {regs : List (Reg × Word × Bool)} (bit : Nat) (hp : poison = false) (hregs : (ws.map fun w => (w.1, w.2, false)) = regs)
    (hfl : fl = fl') (hq : sl.trapInv = false ∨ fl'.getLsbD 4 = false) :
    (Out.results e v poison src ws fl).trapIf sl (raisesNv (Out.results e v poison src ws fl).flags) bit =
      { regs := regs, flags := fl' } := by
  subst hp hregs hfl
  exact trapIf_nv_of_quiet _ bit hq

theorem plain_results (e : Env) (v : View) (src : Word) {ws : List (Reg × Word)} (fl : BitVec 7)
    (h : (ws.map (·.1)).Nodup) : (Out.results e v false src ws fl).plain := by
  refine ⟨rfl, ?_, List.nodup_nil⟩
  simpa [Out.results, Function.comp_def] using h

theorem plain_convert (dt st : Ty) (rm : Rm) (sat : Bool) (d a : Reg) (e : Env) {v : View} (hv : (v.val st a).2 = false)
    (ha : (v.reg a).2 = false) : (convert dt st rm sat d a e v).plain := by
  have hclean : (cvtSource v st a).2.2 = false := by
    simp only [cvtSource]
    split
    · exact hv
    · exact ha
  rw [convert, hclean]
  refine plain_results e v _ _ ?_
  simp only [cvtTo]
  split
  · exact putTy_nodup dt d _
  · exact List.nodup_singleton _

/-- A run that the slot takes, within the registers and the allocation, passes the checks of R185. -/
theorem runCheck_eq_none {first : BitVec 8} {alloc : Nat} (hper : sl.perReg ≠ 0) (hend : first.toNat + sl.perReg ≤ 256)
    (halloc : first = 0 ∨ first.toNat + sl.perReg ≤ alloc) : runCheck sl true first.toNat alloc = none := by
  have hfit : ¬(first.toNat != 0 && decide (alloc < first.toNat + sl.perReg)) = true := by
    rcases halloc with rfl | halloc
    · simp
    · simp [not_lt.mpr halloc]
  rw [runCheck, if_neg (by simp [hper]), if_neg (by omega), if_neg hfit]

theorem length_unpack (sl : Slot) (w : Word) : (sl.unpack w).1.length = sl.perReg := by
  cases hk : sl.kind with
  | ternary => simp only [Slot.unpack, Slot.perReg, hk, trits]; split <;> rfl
  | empty | int _ | float _ => simp only [Slot.unpack, hk, List.length_map, List.length_range]

theorem map_mapIdx {α β γ : Type} (f : Nat → α → β) (g : β → γ) (xs : List α) :
    (xs.mapIdx f).map g = xs.mapIdx fun i x => g (f i x) :=
  List.ext_getElem (by simp) fun i h1 h2 => by simp

/-- The registers of a run of at most 256 are different. -/
theorem nodup_run {α β : Type} (first : BitVec 8) (xs : List α) (f : Nat → α → Reg × β)
    (hf : ∀ i x, (f i x).1 = ⟨false, first + BitVec.ofNat 8 i⟩) (hlen : xs.length ≤ 256) :
    ((xs.mapIdx f).map (·.1)).Nodup := by
  have hrange : (xs.mapIdx f).map (·.1) = (List.range xs.length).map fun i => ⟨false, first + BitVec.ofNat 8 i⟩ :=
    List.ext_getElem (by simp) fun i h1 h2 => by simp [hf]
  rw [hrange]
  refine List.Nodup.map_on (fun i hi j hj hij => ?_) List.nodup_range
  have hi' : i < 256 := (List.mem_range.mp hi).trans_le hlen
  have hj' : j < 256 := (List.mem_range.mp hj).trans_le hlen
  have := congrArg BitVec.toNat ((BitVec.add_right_inj first).mp (Reg.mk.inj hij).2)
  simpa [BitVec.toNat_ofNat, Nat.mod_eq_of_lt hi', Nat.mod_eq_of_lt hj'] using this

end Sys2Proof.Machine
end

section
/-! O11: conversions through a format slot (R184 to R187). -/

namespace Sys2Proof.Machine

/-- Settles O11: the slot is that of the group's block, its run passes the checks of R185, and no flag traps. -/
theorem slotConversionResults : Obligations.SlotConversionResults := by
  unfold Obligations.SlotConversionResults
  intro g dt st slot d a c r r' sl has run e src val codes flagsOf quiet wide
  refine ⟨?cvt, ?cvtn, ?cvtw⟩
  case cvt =>
    rintro s G k m act pc h ⟨B, hB, rfl⟩ hkind hpre
    refine slot_executes h hB slot (fun l hl => ?_) fun l hl => ?_
    · rw [if_neg hkind]
      exact trapIf_nv_of_quiet _ 9 (hpre l hl).2.2
    · exact plain_convert dt st _ _ d a _ (hpre l hl).1 (hpre l hl).2.1
  case cvtn =>
    intro s k G m act pc h hpre
    obtain ⟨⟨B, hB, rfl⟩, -⟩ := hpre _ (topLane_mem h.some)
    refine slot_executes h hB slot (fun l hl => ?_) fun l hl => ⟨rfl, List.nodup_singleton _, List.nodup_nil⟩
    obtain ⟨-, ⟨hper, hend, halloc⟩, hc, hsrc, hq⟩ := hpre l hl
    have hany : (src (G.view l)).any (·.2) = false := List.any_eq_false.mpr fun w hw => by rw [hsrc w hw]; exact Bool.false_ne_true
    rw [runCheck_eq_none hper hend halloc]
    exact trapIf_results_of_quiet 9 (Bool.or_eq_false_iff.mpr ⟨hc, hany⟩) rfl List.foldl_map.symm hq
  case cvtw =>
    intro s k G m act pc h hpre
    obtain ⟨⟨B, hB, rfl⟩, -⟩ := hpre _ (topLane_mem h.some)
    refine slot_executes h hB slot (fun l hl => ?_) fun l hl => ?_
    · obtain ⟨-, hto, ⟨hper, hend, halloc⟩, hc, ha, hres, hq⟩ := hpre l hl
      rw [hto, runCheck_eq_none hper hend halloc]
      simp only [hres, Bool.false_and, trapIf_of_quiet _ 8 (.inr rfl), Bool.false_eq_true, if_false]
      exact trapIf_results_of_quiet 9 (Bool.or_eq_false_iff.mpr ⟨hc, ha⟩) (map_mapIdx _ _ _)
        (BitVec.or_zero.trans List.foldl_map.symm) hq
    · obtain ⟨-, -, ⟨-, hend, -⟩, -⟩ := hpre l hl
      refine ⟨rfl, nodup_run r' _ _ (fun _ _ => rfl) ?_, List.nodup_nil⟩
      rw [List.length_map, length_unpack]
      omega

end Sys2Proof.Machine
end
